-- ==== Sys2Proof/Word.lean ====
section
/-! DEFINITION. The words of the machine: bytes, 32- and 64-bit words, the 96-bit instruction word, and the
per-lane values of a group (spec/00_scope.md R3, R5; spec/01_instruction_word.md R13). -/

namespace Sys2Proof

/-- One byte of memory. -/
abbrev Byte := BitVec 8

/-- One lane of a vector register (R121). -/
abbrev W32 := BitVec 32

/-- One scalar register, address or record field (R121, R36). -/
abbrev W64 := BitVec 64

/-- The threads of a group as a lane mask: bit l is lane l (R3). -/
abbrev Mask := BitVec 32

/-- One instruction: W0 in bits 31:0, W1 in bits 63:32, W2 in bits 95:64 (R13). -/
abbrev InsWord := BitVec 96

/-- One value for each of the 32 lanes of a group (R3). -/
abbrev Lanes (α : Type) := Vector α 32

end Sys2Proof
end

