-- ==== Sys2Proof/Machine/Numeric.lean ====
section
/-! DEFINITION. Number formats, exact values and rounding (spec/06_number_formats.md R142 to R160). Every value is held
exactly and narrowed once. -/

namespace Sys2Proof.Machine

/-- The rounding modes (R24, R152). -/
inductive RMode where
  | rne | rtz | rup | rdn | rna | rsr
  deriving DecidableEq, Repr

/-- A floating format (R142). `nan` is the canonical NaN's code, sign clear; `maxCode` the code of the largest
finite value; `emax` that value's exponent. -/
structure FloatFmt where
  bits : Nat
  mbits : Nat
  bias : Int
  hasInf : Bool
  nan : Option Nat
  maxCode : Nat
  emax : Int
  deriving DecidableEq, Repr

def fp32 : FloatFmt := ⟨32, 23, 127, true, some 0x7FC00000, 0x7F7FFFFF, 127⟩
def fp16 : FloatFmt := ⟨16, 10, 15, true, some 0x7E00, 0x7BFF, 15⟩
def bf16 : FloatFmt := ⟨16, 7, 127, true, some 0x7FC0, 0x7F7F, 127⟩
def e5m2 : FloatFmt := ⟨8, 2, 15, true, some 0x7E, 0x7B, 15⟩
def e4m3 : FloatFmt := ⟨8, 3, 7, false, some 0x7F, 0x7E, 8⟩
def e3m2 : FloatFmt := ⟨6, 2, 3, false, none, 0x1F, 4⟩
def e2m3 : FloatFmt := ⟨6, 3, 1, false, none, 0x1F, 2⟩
def e2m1 : FloatFmt := ⟨4, 1, 1, false, none, 0x7, 2⟩

/-- The smallest normal exponent (R142). -/
def FloatFmt.emin (F : FloatFmt) : Int := 1 - F.bias

/-- An exact value with the specials: `fin s m e` is (-1)^s · m · 2^e, zero keeping its sign (R143). -/
inductive Num where
  | nan
  | inf (neg : Bool)
  | fin (neg : Bool) (m : Nat) (e : Int)
  deriving DecidableEq, Repr

/-- The value of a code (R143). -/
def FloatFmt.decode (F : FloatFmt) (code : Nat) : Num :=
  let c := code % 2 ^ F.bits
  let neg := c.testBit (F.bits - 1)
  let mag := c % 2 ^ (F.bits - 1)
  let e := mag / 2 ^ F.mbits
  let m := mag % 2 ^ F.mbits
  if mag > F.maxCode then
    if F.hasInf && mag == F.maxCode + 1 then .inf neg else .nan
  else if e = 0 then .fin neg m (F.emin - F.mbits)
  else .fin neg (2 ^ F.mbits + m) ((e : Int) - F.bias - F.mbits)

def Num.isNan : Num → Bool
  | .nan => true
  | _ => false

def Num.isZero : Num → Bool
  | .fin _ 0 _ => true
  | _ => false

def Num.isInf : Num → Bool
  | .inf _ => true
  | _ => false

/-- The sign of a value; a NaN counts as positive. -/
def Num.neg? : Num → Bool
  | .nan => false
  | .inf s => s
  | .fin s _ _ => s

def Num.negate : Num → Num
  | .nan => .nan
  | .inf s => .inf (!s)
  | .fin s m e => .fin (!s) m e

def Num.abs : Num → Num
  | .nan => .nan
  | .inf _ => .inf false
  | .fin _ m e => .fin false m e

/-- An integer as an exact value. -/
def Num.ofInt (x : Int) : Num := .fin (decide (x < 0)) x.natAbs 0

/-- m · 2^e as an integer over the power 2^lo, for lo ≤ e. -/
def scaleTo (m : Int) (e lo : Int) : Int := m * (2 ^ (e - lo).toNat : Nat)

/-- Order of two finite values. -/
def cmpFin (n1 : Bool) (m1 : Nat) (e1 : Int) (n2 : Bool) (m2 : Nat) (e2 : Int) : Ordering :=
  let lo := min e1 e2
  let a := scaleTo (if n1 then -(m1 : Int) else m1) e1 lo
  let b := scaleTo (if n2 then -(m2 : Int) else m2) e2 lo
  compare a b

/-- Order of two values, zeros equal whatever their signs; none where one is NaN (R185). -/
def Num.cmp : Num → Num → Option Ordering
  | .nan, _ => none
  | _, .nan => none
  | .inf s, .inf t => some (if s == t then .eq else if s then .lt else .gt)
  | .inf s, .fin _ _ _ => some (if s then .lt else .gt)
  | .fin _ _ _, .inf t => some (if t then .gt else .lt)
  | .fin s m e, .fin t n f => some (cmpFin s m e t n f)

/-- The exact product (R11, R158). -/
def Num.mul : Num → Num → Num
  | .nan, _ => .nan
  | _, .nan => .nan
  | .inf s, .inf t => .inf (s != t)
  | .inf s, .fin t m _ => if m = 0 then .nan else .inf (s != t)
  | .fin s m _, .inf t => if m = 0 then .nan else .inf (s != t)
  | .fin s m e, .fin t n f => .fin (s != t) (m * n) (e + f)

/-- An exact running sum: the specials met, the sum m · 2^e of the finite addends, and whether every addend was -0
(R158, R160). -/
structure Sum where
  nan : Bool
  pinf : Bool
  ninf : Bool
  m : Int
  e : Int
  allNegZero : Bool
  deriving DecidableEq, Repr

def Sum.empty : Sum := ⟨false, false, false, 0, 0, true⟩

def Sum.add (s : Sum) : Num → Sum
  | .nan => { s with nan := true, allNegZero := false }
  | .inf false => { s with pinf := true, allNegZero := false }
  | .inf true => { s with ninf := true, allNegZero := false }
  | .fin neg m e =>
    let nz := s.allNegZero && neg && m == 0
    if m = 0 then { s with allNegZero := nz }
    else
      let v : Int := if neg then -(m : Int) else m
      let lo := if s.m = 0 then e else min s.e e
      { s with m := (if s.m = 0 then 0 else scaleTo s.m s.e lo) + scaleTo v e lo, e := lo, allNegZero := nz }

/-- The exact sum of the addends, its zero signed by R158 and R160. -/
def sumOf (mode : RMode) (xs : List Num) : Num :=
  let s := xs.foldl Sum.add Sum.empty
  if s.nan || (s.pinf && s.ninf) then .nan
  else if s.pinf then .inf false
  else if s.ninf then .inf true
  else if s.m = 0 then .fin (s.allNegZero || mode == .rdn) 0 0
  else .fin (decide (s.m < 0)) s.m.natAbs s.e

/-- What lies beyond the lower candidate: its parity, the order against the midpoint, ⌊f · 2^32⌋ of R157, and whether
the value is exact. -/
structure Cut where
  odd : Bool
  half : Ordering
  frac32 : Nat
  exact : Bool
  deriving DecidableEq, Repr

/-- The cut of the quotient N / D at q = ⌊N / D⌋. -/
def cutOf (n d : Nat) : Cut :=
  let r := n % d
  ⟨(n / d) % 2 == 1, compare (2 * r) d, r * 2 ^ 32 / d, r == 0⟩

/-- Whether the candidate of larger magnitude is taken (R152, R157). -/
def roundUp (md : RMode) (neg : Bool) (c : Cut) (r : Nat) : Bool :=
  !c.exact && match md with
    | .rne => c.half == .gt || (c.half == .eq && c.odd)
    | .rna => c.half != .lt
    | .rtz => false
    | .rup => !neg
    | .rdn => neg
    | .rsr => decide (c.frac32 + r ≥ 2 ^ 32)

/-- A rounded code with the flags its rounding raises (R153, R161). `clamped` marks a result written as the largest
or least value in place of one beyond it (R162). -/
structure Rounded where
  code : Nat
  of : Bool := false
  uf : Bool := false
  nx : Bool := false
  iv : Bool := false
  dz : Bool := false
  clamped : Bool := false
  deriving DecidableEq, Repr

/-- The sign bit of a format. -/
def FloatFmt.sign (F : FloatFmt) (neg : Bool) : Nat := if neg then 2 ^ (F.bits - 1) else 0

/-- The result of an overflow (R153). -/
def FloatFmt.overflow (F : FloatFmt) (md : RMode) (sat neg : Bool) : Rounded :=
  let toM : Bool := !F.hasInf || sat || md == .rtz || (md == .rup && neg) || (md == .rdn && !neg)
  { code := F.sign neg + (if toM then F.maxCode else F.maxCode + 1), of := true, nx := true, clamped := toM }

/-- The exponent ⌊log2 (num / den)⌋ of a positive quotient. -/
def log2Quot (num den : Nat) : Int :=
  let k : Int := (num.log2 : Int) - den.log2
  let ge : Bool := if 0 ≤ k then decide (den * 2 ^ k.toNat ≤ num) else decide (den ≤ num * 2 ^ (-k).toNat)
  if ge then k else k - 1

/-- num / den · 2^e shifted into units of 2^u: the numerator and denominator of the quotient. -/
def unitsOf (num den : Nat) (e u : Int) : Nat × Nat :=
  let sh := e - u
  (num * 2 ^ sh.toNat, den * 2 ^ (-sh).toNat)

/-- The positive magnitude num / den · 2^e rounded into format F (R152, R153). `r` is the random value of R155. -/
def FloatFmt.roundMag (F : FloatFmt) (md : RMode) (sat : Bool) (r : Nat) (neg : Bool) (num den : Nat) (e : Int) : Rounded :=
  if num = 0 then { code := F.sign neg }
  else
    let ex := log2Quot num den + e
    let u := max ex F.emin - F.mbits
    let (n, d) := unitsOf num den e u
    let q := n / d
    let base : Nat := ((max ex F.emin - F.emin).toNat) * 2 ^ F.mbits
    -- M and P of R152, in units of 2^uM
    let uM := F.emax - F.mbits
    let (nM, dM) := unitsOf num den e uM
    let mM := F.maxCode % 2 ^ F.mbits + 2 ^ F.mbits
    let pM := 2 ^ (F.mbits + 1)
    if mM * dM < nM then
      if pM * dM ≤ nM then F.overflow md sat neg
      else
        let rest := nM - mM * dM
        let gap := (pM - mM) * dM
        let c : Cut := ⟨true, compare (2 * rest) gap, rest * 2 ^ 32 / gap, false⟩
        if roundUp md neg c r then F.overflow md sat neg
        else { code := F.sign neg + F.maxCode, nx := true }
    else
      let c := cutOf n d
      let q' := if roundUp md neg c r then q + 1 else q
      { code := F.sign neg + base + q', nx := !c.exact, uf := decide (ex < F.emin) && !c.exact }

/-- An exact value rounded into format F, with the special inputs of R154. -/
def FloatFmt.round (F : FloatFmt) (md : RMode) (sat : Bool) (r : Nat) : Num → Rounded
  | .nan =>
    match F.nan with
    | some c => { code := c }
    | none => { code := 0, iv := true }
  | .inf neg =>
    if F.hasInf then { code := F.sign neg + F.maxCode + 1 }
    else { code := F.sign neg + F.maxCode, of := true, clamped := true }
  | .fin neg m e => F.roundMag md sat r neg m 1 e

/-- A magnitude num / den · 2^e rounded to an integer. -/
def roundInt (md : RMode) (r : Nat) (neg : Bool) (num den : Nat) (e : Int) : Int × Bool :=
  let (n, d) := unitsOf num den e 0
  let c := cutOf n d
  let q := if roundUp md neg c r then n / d + 1 else n / d
  (if neg then -(q : Int) else q, !c.exact)

/-- An exact value converted to an integer of lo .. hi and w bits (R153, R154, R197). -/
def roundToInt (md : RMode) (r w : Nat) (lo hi : Int) : Num → Rounded
  | .nan => { code := 0, iv := true }
  | .inf neg => { code := wrap w (if neg then lo else hi), iv := true, clamped := true }
  | .fin neg m e =>
    let (x, inexact) := roundInt md r neg m 1 e
    if x < lo then { code := wrap w lo, iv := true, clamped := true }
    else if hi < x then { code := wrap w hi, iv := true, clamped := true }
    else { code := wrap w x, nx := inexact }

/-- The square root of m · 2^e rounded into F (R160, R187). -/
def FloatFmt.roundSqrt (F : FloatFmt) (md : RMode) (r : Nat) (m : Nat) (e : Int) : Rounded :=
  if m = 0 then { code := 0 }
  else
    -- √(m · 2^e) = √(m') · 2^(e'/2), e' even
    let m' := if e % 2 = 0 then m else 2 * m
    let e' := if e % 2 = 0 then e else e - 1
    let ex := (log2Quot m' 1) / 2 + e' / 2
    let u := max ex F.emin - F.mbits
    -- √m' · 2^(e'/2 - u) = √(m' · 2^(e' - 2u)); the value is normal for every format here
    let n := m' * 2 ^ (e' - 2 * u).toNat
    let d := 2 ^ (2 * u - e').toNat
    let q := isqrt (n / d)
    let lhs := n
    let c : Cut :=
      ⟨q % 2 == 1, compare (4 * lhs) ((2 * q + 1) * (2 * q + 1) * d),
        isqrt (n * 2 ^ 64 / d) - q * 2 ^ 32, decide (q * q * d = lhs)⟩
    let q' := if roundUp md false c r then q + 1 else q
    { code := ((max ex F.emin - F.emin).toNat) * 2 ^ F.mbits + q', nx := !c.exact }

/-- A value rounded RNE to FP32 with no flag: `rne(x, F32)` of R10. -/
def rne32 (x : Num) : Nat := (fp32.round .rne false 0 x).code

/-- The FP32 value of a lane. -/
def num32 (w : Nat) : Num := fp32.decode w

/-! ### NQ4 and block scales (R147 to R149) -/

/-- The levels k_j (R148). -/
def nq4Level : List Nat := [43, 130, 221, 318, 427, 555, 725, 1024]

/-- A product with a power of two. -/
def Num.scale2 (x : Num) (k : Int) : Num :=
  match x with
  | .fin s m e => .fin s m (e + k)
  | y => y

/-- The value of an NQ4 code unscaled: ±k_j / 1024 (R150). -/
def nq4Unscaled (code : Nat) : Num := .fin (code.testBit 3) (nq4Level.getD (code % 8) 0) (-10)

/-- The value of an NQ4 code under block scale s and superscale F (R148). -/
def nq4Value (code s : Nat) (f : Num) : Num :=
  if s = 0 then .fin false 0 0
  else Num.mul (Num.mul (nq4Unscaled code) (.fin false s (-8))) f

/-- The value of an E8M0 scale (R147). -/
def e8m0 (code : Nat) : Num := if code = 255 then .nan else .fin false 1 ((code : Int) - 127)

/-- The place of y = ny / dy among the levels: the number of levels at or below it. -/
def nq4Below (ny dy : Nat) : Nat := (nq4Level.filter fun k => k * dy ≤ ny).length

/-- The encoding of x into NQ4 under s ≠ 0 and an F that is finite and not zero, or infinite, which makes y 0 for a finite x (R149). -/
def nq4Encode (md : RMode) (r : Nat) (x : Num) (s : Nat) (f : Num) : Rounded :=
  let fneg := f.neg?
  match x, f with
  | .nan, _ => { code := 0, iv := true }
  | .inf sx, _ => { code := (if sx != fneg then 8 else 0) + 7, of := true, clamped := true }
  | .fin sx m e, .fin _ fm fe =>
    let neg := sx != fneg
    let sgn := if neg then 8 else 0
    -- y = 1024 · m · 2^e / (s · 2^-8 · fm · 2^fe)
    let sh := e - fe + 18
    let ny := m * 2 ^ sh.toNat
    let dy := s * fm * 2 ^ (-sh).toNat
    if ny < 43 * dy then { code := sgn, uf := true, nx := true }
    else if 1024 * dy < ny then { code := sgn + 7, of := true, nx := true, clamped := true }
    else
      let j := nq4Below ny dy - 1
      let lo := nq4Level.getD j 0
      if lo * dy = ny then { code := sgn + j }
      else
        let hi := nq4Level.getD (j + 1) 0
        let up := match md with
          | .rne => decide ((lo + hi) * dy < 2 * ny)
          | .rna => decide ((lo + hi) * dy ≤ 2 * ny)
          | .rtz => false
          | .rup => !neg
          | .rdn => neg
          | .rsr => decide (r * (hi - lo) * dy < (ny - lo * dy) * 2 ^ 32)
        { code := sgn + (if up then j + 1 else j), nx := true }
  | .fin sx _ _, _ => { code := if sx != fneg then 8 else 0, uf := true, nx := true }

/-! ### Fixed-point series for the special functions (R164) -/

/-- Fraction bits of the fixed-point evaluations. -/
def fxBits : Nat := 512

/-- ln 2 · 2^512, rounded down. -/
def fxLn2 : Nat := 0xb17217f7d1cf79abc9e3b39803f2f6af40f343267298b62d8a0d175b8baafa2be7b876206debac98559552fb4afa1b10ed2eae35c138214427573b291169b825

/-- π · 2^512, rounded down. -/
def fxPi : Nat := 0x3243f6a8885a308d313198a2e03707344a4093822299f31d0082efa98ec4e6c89452821e638d01377be5466cf34e90c6cc0ac29b7c97c50dd3f84d5b5b5470917

/-- Σ y^n / n! from term t = y^n/n!, on fixed-point y in [0, 1). -/
def fxExpFrom (y : Nat) : Nat → Nat → Nat → Nat
  | 0, _, _ => 0
  | fuel + 1, n, t => t + fxExpFrom y fuel (n + 1) (t * y / 2 ^ fxBits / (n + 1))

/-- e^y for fixed-point y in [0, 1). -/
def fxExp (y : Nat) : Nat := fxExpFrom y 120 0 (2 ^ fxBits)

/-- 2^f for a fraction f = n / 2^k in [0, 1). -/
def fxExp2 (f : Nat) : Nat := fxExp (f * fxLn2 / 2 ^ fxBits)

/-- The correctly rounded 2^x of R164: the fraction is evaluated to more than 500 bits. -/
def ex2Round (x : Num) : Rounded :=
  match x with
  | .nan => { code := 0x7FC00000 }
  | .inf true => { code := 0 }
  | .inf false => { code := 0x7F800000 }
  | .fin neg m e =>
    if cmpFin neg m e true 150 0 != .gt then { code := 0 }
    else if cmpFin neg m e false 128 0 != .lt then { code := 0x7F800000, of := true }
    else
      let v : Int := if neg then -(m : Int) else m
      let w : Int := if 0 ≤ e then v * (2 ^ e.toNat : Nat) else v / (2 ^ (-e).toNat : Nat)
      let fr : Nat := if 0 ≤ e then 0 else
        ((v - w * (2 ^ (-e).toNat : Nat)).toNat * 2 ^ fxBits) / 2 ^ (-e).toNat
      let y := if fr = 0 then 2 ^ fxBits else fxExp2 fr
      let res := fp32.roundMag .rne false 0 false y 1 (w - fxBits)
      { code := res.code, of := res.of }

/-- ex2 on FP32 bits, as FEX2 computes it (R164, R225, R266). -/
def ex2 (w : Nat) : Nat := (ex2Round (num32 w)).code

/-- log2 of fixed-point y in [1, 2): n bits of the fraction, highest first. -/
def fxLog2From : Nat → Nat → Nat → Nat
  | 0, _, acc => acc
  | n + 1, y, acc =>
    let y2 := y * y / 2 ^ fxBits
    if 2 * 2 ^ fxBits ≤ y2 then fxLog2From n (y2 / 2) (2 * acc + 1) else fxLog2From n y2 (2 * acc)

/-- log2 of a positive value as an exact dyadic of 200 fraction bits, rounded down. -/
def log2Num (m : Nat) (e : Int) : Int :=
  let k := m.log2
  let y := m * 2 ^ fxBits / 2 ^ k
  ((k : Int) + e) * (2 ^ 200 : Nat) + fxLog2From 200 y 0

/-- Σ (-1)^n y^(2n+b) / (2n+b)! on fixed point: sine for b = 1, cosine for b = 0. -/
def fxTrigFrom (y : Nat) : Nat → Nat → Int → Int
  | 0, _, _ => 0
  | fuel + 1, n, t =>
    t + fxTrigFrom y fuel (n + 2) (-(t * y / (2 ^ fxBits : Nat) * y / (2 ^ fxBits : Nat) / ((n + 1) * (n + 2) : Nat)))

/-- sin of a fixed-point angle in [0, π/2]. -/
def fxSin (y : Nat) : Int := fxTrigFrom y 120 1 y

/-- cos of a fixed-point angle in [0, π/2]. -/
def fxCos (y : Nat) : Int := fxTrigFrom y 120 0 (2 ^ fxBits : Nat)

/-- |x| reduced by multiples of π/2: the quadrant and the remainder in fixed point. -/
def reducePi (m : Nat) (e : Int) : Nat × Nat :=
  -- 2|x|/π = q + remainder; x is exact, π carries 512 fraction bits
  let xf := m * 2 ^ (e + fxBits).toNat / 2 ^ (-(e + fxBits)).toNat
  let half := fxPi / 2
  let q := xf / half
  (q % 4, xf - q * half)

/-- sin or cos of a finite value in fixed point (R164). -/
def trigFix (cosine neg : Bool) (m : Nat) (e : Int) : Int :=
  let (q, y) := reducePi m e
  let q' := if cosine then (q + 1) % 4 else q
  let v : Int := match q' with
    | 0 => fxSin y
    | 1 => fxCos y
    | 2 => -(fxSin y)
    | _ => -(fxCos y)
  if neg && !cosine then -v else v

/-- tanh of a positive finite value below 9.1 as a quotient (R164). -/
def tanhQuot (m : Nat) (e : Int) : Nat × Nat :=
  -- e^(2x) = 2^k · e^y with y in [0, ln 2)
  let x2 := m * 2 ^ (e + 1 + fxBits).toNat / 2 ^ (-(e + 1 + fxBits)).toNat
  let k := x2 / fxLn2
  let t := fxExp (x2 - k * fxLn2) * 2 ^ k
  (t - 2 ^ fxBits, t + 2 ^ fxBits)

end Sys2Proof.Machine
end

