-- ==== Sys2Proof/Syntax.lean ====
section
/-! DEFINITION. The syntax of the machine: the fields of the instruction word (spec/01_instruction_word.md R14 to R25),
the operands with their permutations (R15 to R19), the payloads of the machine events, and Instr, one constructor
for each row of spec/opcode_table.json. -/

namespace Sys2Proof

/-- The scope of an instruction: SCOPE 00, 01, 10, 11 (R4, R14). -/
inductive Scope where
  | lane | group | gang | team
  deriving DecidableEq, Repr, Inhabited

/-- A permutation on the read path of A or B (R18). `mir` is legal for k from 1 to 5 only. -/
inductive Perm where
  | id
  | rot (k : Fin 32)
  | bcast (k : Fin 32)
  | xor (k : Fin 32)
  | mir (k : Fin 32)
  | shu (k : Fin 32)
  | shd (k : Fin 32)
  deriving DecidableEq, Repr, Inhabited

/-- An operand by its kind (R15). A field that the instruction does not use is `v 0 id`, all bits zero (R16).
`special 0` is ZERO. An immediate is the 16 bits of index and permutation (R17). -/
inductive Opnd where
  | v (n : Fin 256) (perm : Perm)
  | s (n : Fin 64)
  | p (n : Fin 8)
  | x (n : Fin 32)
  | t (n : Fin 16)
  | imm (w : BitVec 16)
  | special (n : Fin 256)
  | k (n : Fin 16)
  deriving DecidableEq, Repr, Inhabited

/-- The fields of an instruction word other than OPC (R14). DT, SUB, XM and RND stay the bits that each class
gives its own meaning (R25). -/
structure Fields where
  scope : Scope
  gp : Fin 8
  gn : Bool
  la : Fin 16
  reuse : Bool
  yield : Bool
  rnd : BitVec 3
  sat : Bool
  dt : BitVec 4
  sub : BitVec 4
  xm : BitVec 4
  d : Opnd
  a : Opnd
  b : Opnd
  c : Opnd
  deriving DecidableEq, Repr, Inhabited

/-- How the memory controller found a fill from HBM (R35, R57, R58). -/
inductive FillResult where
  | clean | corrected | uncorrectable | checkMismatch
  deriving DecidableEq, Repr

/-- What a translation is asked for (R41): a read or prefetch, a write, an access that needs R and W, a fetch. -/
inductive Access where
  | read | write | readWrite | fetch
  deriving DecidableEq, Repr

/-- An RDMA opcode outside the subset of R293. -/
inductive RdmaOther where
  | send | writeWithImmediate | atomicOp
  deriving DecidableEq, Repr

/-- The transport a RoCEv2 connection request asks for (R293). -/
inductive Transport where
  | rc | ud | uc | xrc
  deriving DecidableEq, Repr

/-- What a frame of the host port carries beside its message (R293): its VLAN, and whether it is marked by ECN. -/
structure Frame where
  vlan : Nat
  ecn : Bool
  deriving DecidableEq, Repr

/-- Which packet of an RDMA WRITE a frame carries (R293): the whole message, the first packet of a message of so many bytes, one
between, or the last. -/
inductive Segment where
  | only
  | first (len : Nat)
  | middle
  | last
  deriving DecidableEq, Repr

/-- A packet of an RDMA WRITE (R293): its place in its message, and its bytes. -/
structure Packet where
  seg : Segment
  bytes : List Byte
  deriving DecidableEq, Repr

/-- What a RoCEv2 connection request asks for (R293): the transport and the path MTU. -/
structure Connection where
  transport : Transport
  mtu : Nat
  deriving DecidableEq, Repr

/-- A message of the IEEE 1588 master to an ordinary clock with the end-to-end delay mechanism (R301): the time at which its Sync
left it, or the time at which the clock's delay request reached it. -/
inductive Timing where
  | sync (sent : W64)
  | delayResponse (received : W64)
  deriving DecidableEq, Repr

/-- What a data flit asks of this package in the name of a peer's engine command (R37, R274, R288), in a form that the manual
leaves open (log 28): nothing; the write of its payload at byte `off` of the command's destination, `len` bytes at `base` in
context `ctx`; a read of n bytes; or that the command has ended before it wrote all it owned. -/
inductive PeerAccess where
  | nothing
  | write (cmd ctx base len off : Nat)
  | read (ctx va n : Nat)
  | ended (cmd : Nat)
  deriving DecidableEq, Repr

/-- A flit that arrives at a port (R298), and what it asks of this package. -/
structure ArrivingFlit where
  bytes : List Byte
  req : PeerAccess
  deriving DecidableEq, Repr

/-- A request over the management VLAN that writes state (R294, R387): context 0, queue 0, or an entry of the
mailbox region table. -/
inductive MgmtReq where
  | context0 (image : BitVec 512)
  | queue0 (image : BitVec 512)
  | region (index : Fin 4096) (image : BitVec 128)
  deriving DecidableEq, Repr

/-- One split of one group of one team; `team` is the model's own team identity. -/
structure Who where
  team : Nat
  group : Nat
  split : Nat
  deriving DecidableEq, Repr

/-- A mesh neighbour of a tile on its own die (R369). -/
inductive Dir where
  | west | east | north | south
  deriving DecidableEq, Repr

/-- A peer package's contribution to a matched collective (R304): whether its own command breaks a rule of R303 or R304, its
parameters as it issued them and its source bytes; for the compositing form the partial records and tiles it supplies
(R306). -/
structure PeerPart where
  refused : Bool
  form : Nat
  ty : Nat
  op : Nat
  ef : Bool
  dstr : Nat
  n : Nat
  bytes : List Byte
  tiles : List (Nat × List Byte)
  deriving DecidableEq, Repr

/-- What the management controller finds at power-on (R387): whether every firmware stage verified, the tiles that failed
self-test, the VLANs of the host port (R293), and the time that device time locks to where a source answers (R301). -/
structure BootReport where
  verified : Bool
  failedTiles : List Nat
  dataVlan : Nat
  mgmtVlan : Nat
  time : Option W64
  deriving DecidableEq, Repr

/-- The traffic of one 65,536 fc window from a neighbour (R370): flits received, and the flits that 95 % of the link's capacity
amounts to. -/
structure BabbleReport where
  flits : Nat
  limit95 : Nat
  deriving DecidableEq, Repr


/-- One constructor per row of spec/opcode_table.json. An instruction form carries the fields of its word; a machine
event carries what the row's step is about. The inputs from outside stand last: Lean builds at run time only the
first 244 constructors. -/
inductive Instr where
  /-- NOP, R329 -/
  | nop (f : Fields)
  /-- BRA, R325 -/
  | bra (f : Fields)
  /-- BRX, R326 -/
  | brx (f : Fields)
  /-- CALL, R325 -/
  | call (f : Fields)
  /-- CALLX, R326 -/
  | callx (f : Fields)
  /-- RET, R326 -/
  | ret (f : Fields)
  /-- JOIN, R312 -/
  | join (f : Fields)
  /-- JOIN_AT, R327 -/
  | joinAt (f : Fields)
  /-- JOIN_CLR, R327 -/
  | joinClr (f : Fields)
  /-- EXIT, R328 -/
  | exit (f : Fields)
  /-- YIELD, R329 -/
  | yield (f : Fields)
  /-- TRAP, R378 -/
  | trap (f : Fields)
  /-- BPT, R378 -/
  | bpt (f : Fields)
  /-- RETT, R379 -/
  | rett (f : Fields)
  /-- RETT_KILL, R379 -/
  | rettKill (f : Fields)
  /-- HALTT, R380 -/
  | haltt (f : Fields)
  /-- SYSR_REG, R382 -/
  | sysrReg (f : Fields)
  /-- SYSR_TBL, R382 -/
  | sysrTbl (f : Fields)
  /-- SYSW_REG, R383 -/
  | syswReg (f : Fields)
  /-- SYSW_TLBI, R383 -/
  | syswTlbi (f : Fields)
  /-- SYSW_REPLAY, R383 -/
  | syswReplay (f : Fields)
  /-- SYSW_TBL, R383 -/
  | syswTbl (f : Fields)
  /-- SYSW_CTL_RESUME, R383 -/
  | syswCtlResume (f : Fields)
  /-- SYSW_CTL_READMIT, R374 -/
  | syswCtlReadmit (f : Fields)
  /-- SYSW_CTL_CANCEL, R383 -/
  | syswCtlCancel (f : Fields)
  /-- SYSW_CTL_FENCE, R373 -/
  | syswCtlFence (f : Fields)
  /-- SYSW_CTL_CKPT, R373 -/
  | syswCtlCkpt (f : Fields)
  /-- SYSW_CTL_PLACE, R368 -/
  | syswCtlPlace (f : Fields)
  /-- SYSW_CTL_ABORT, R383 -/
  | syswCtlAbort (f : Fields)
  /-- PREEMPT_OFFER, R384 -/
  | preemptOffer (f : Fields)
  /-- PREEMPT_FORCE, R384 -/
  | preemptForce (f : Fields)
  /-- FLUSHI_ALL, R385 -/
  | flushiAll (f : Fields)
  /-- FLUSHI_LINE, R385 -/
  | flushiLine (f : Fields)
  /-- TILEQ, R386 -/
  | tileq (f : Fields)
  /-- TIME, R331 -/
  | time (f : Fields)
  /-- CLOCK, R331 -/
  | clock (f : Fields)
  /-- MOVSR, R330 -/
  | movsr (f : Fields)
  /-- IADD, R173 -/
  | iadd (f : Fields)
  /-- ISUB, R173 -/
  | isub (f : Fields)
  /-- IMUL, R173 -/
  | imul (f : Fields)
  /-- IMULH, R173 -/
  | imulh (f : Fields)
  /-- IMAD, R173 -/
  | imad (f : Fields)
  /-- IMADW, R173 -/
  | imadw (f : Fields)
  /-- IDIV, R175 -/
  | idiv (f : Fields)
  /-- IREM, R175 -/
  | irem (f : Fields)
  /-- IABS, R173 -/
  | iabs (f : Fields)
  /-- INEG, R173 -/
  | ineg (f : Fields)
  /-- IMIN, R173 -/
  | imin (f : Fields)
  /-- IMAX, R173 -/
  | imax (f : Fields)
  /-- SHL, R176 -/
  | shl (f : Fields)
  /-- SHR, R176 -/
  | shr (f : Fields)
  /-- SAR, R176 -/
  | sar (f : Fields)
  /-- ROT, R176 -/
  | rot (f : Fields)
  /-- LOP3, R177 -/
  | lop3 (f : Fields)
  /-- AND, R173 -/
  | and (f : Fields)
  /-- OR, R173 -/
  | or (f : Fields)
  /-- XOR, R173 -/
  | xor (f : Fields)
  /-- ANDN, R173 -/
  | andn (f : Fields)
  /-- POPC, R178 -/
  | popc (f : Fields)
  /-- CLZ, R178 -/
  | clz (f : Fields)
  /-- CTZ, R178 -/
  | ctz (f : Fields)
  /-- BREV, R173 -/
  | brev (f : Fields)
  /-- BFX, R178 -/
  | bfx (f : Fields)
  /-- BFI, R178 -/
  | bfi (f : Fields)
  /-- BILV, R179 -/
  | bilv (f : Fields)
  /-- BDIL, R179 -/
  | bdil (f : Fields)
  /-- ICMP, R180 -/
  | icmp (f : Fields)
  /-- SEL, R173 -/
  | sel (f : Fields)
  /-- IADDC, R181 -/
  | iaddc (f : Fields)
  /-- FADD, R184 -/
  | fadd (f : Fields)
  /-- FSUB, R184 -/
  | fsub (f : Fields)
  /-- FMUL, R184 -/
  | fmul (f : Fields)
  /-- FFMA, R184 -/
  | ffma (f : Fields)
  /-- FMIN, R185 -/
  | fmin (f : Fields)
  /-- FMAX, R185 -/
  | fmax (f : Fields)
  /-- FCMP, R185 -/
  | fcmp (f : Fields)
  /-- FCLASS, R185 -/
  | fclass (f : Fields)
  /-- FRND, R186 -/
  | frnd (f : Fields)
  /-- FDIV, R187 -/
  | fdiv (f : Fields)
  /-- FSQRT, R187 -/
  | fsqrt (f : Fields)
  /-- FRCP, R164 -/
  | frcp (f : Fields)
  /-- FRSQ, R164 -/
  | frsq (f : Fields)
  /-- FEX2, R164 -/
  | fex2 (f : Fields)
  /-- FLG2, R164 -/
  | flg2 (f : Fields)
  /-- FSIN, R164 -/
  | fsin (f : Fields)
  /-- FCOS, R164 -/
  | fcos (f : Fields)
  /-- FTANH, R164 -/
  | ftanh (f : Fields)
  /-- FSCALE, R184 -/
  | fscale (f : Fields)
  /-- FFRX, R186 -/
  | ffrx (f : Fields)
  /-- FDOT2, R184 -/
  | fdot2 (f : Fields)
  /-- PLOP, R189 -/
  | plop (f : Fields)
  /-- PMOV_TOV, R189 -/
  | pmovTov (f : Fields)
  /-- PMOV_FROMV, R189 -/
  | pmovFromv (f : Fields)
  /-- PMOV_PACK, R189 -/
  | pmovPack (f : Fields)
  /-- PMOV_UNPK, R189 -/
  | pmovUnpk (f : Fields)
  /-- VOTE, R190 -/
  | vote (f : Fields)
  /-- ACTM, R191 -/
  | actm (f : Fields)
  /-- MOV, R192 -/
  | mov (f : Fields)
  /-- MOVI, R192 -/
  | movi (f : Fields)
  /-- PERM, R193 -/
  | perm (f : Fields)
  /-- LRED, R194 -/
  | lred (f : Fields)
  /-- LSCAN, R194 -/
  | lscan (f : Fields)
  /-- MATCH, R195 -/
  | matchLanes (f : Fields)
  /-- TAGQ, R138 -/
  | tagq (f : Fields)
  /-- TAGG, R139 -/
  | tagg (f : Fields)
  /-- RELV, R140 -/
  | relv (f : Fields)
  /-- CVT, R197 -/
  | cvt (f : Fields)
  /-- PACK, R198 -/
  | pack (f : Fields)
  /-- UNPK, R198 -/
  | unpk (f : Fields)
  /-- QBLK_SCALE, R199 -/
  | qblkScale (f : Fields)
  /-- QBLK_CODE, R199 -/
  | qblkCode (f : Fields)
  /-- QBLK_SUPER, R199 -/
  | qblkSuper (f : Fields)
  /-- DQBLK, R200 -/
  | dqblk (f : Fields)
  /-- SETFMT, R201 -/
  | setfmt (f : Fields)
  /-- GETFMT, R201 -/
  | getfmt (f : Fields)
  /-- SETMODE, R201 -/
  | setmode (f : Fields)
  /-- GETMODE, R201 -/
  | getmode (f : Fields)
  /-- SETSEED, R202 -/
  | setseed (f : Fields)
  /-- FLAGS_RD, R203 -/
  | flagsRd (f : Fields)
  /-- FLAGS_CLR, R203 -/
  | flagsClr (f : Fields)
  /-- FLAGS_SET, R203 -/
  | flagsSet (f : Fields)
  /-- LSCALE_STEP, R163 -/
  | lscaleStep (f : Fields)
  /-- LSCALE_RD, R204 -/
  | lscaleRd (f : Fields)
  /-- LSCALE_WR, R204 -/
  | lscaleWr (f : Fields)
  /-- LD, R96 -/
  | ld (f : Fields)
  /-- ST, R97 -/
  | st (f : Fields)
  /-- LDS, R96 -/
  | lds (f : Fields)
  /-- STS, R97 -/
  | sts (f : Fields)
  /-- LDC, R98 -/
  | ldc (f : Fields)
  /-- LDL, R99 -/
  | ldl (f : Fields)
  /-- STL, R99 -/
  | stl (f : Fields)
  /-- LDUN, R96 -/
  | ldun (f : Fields)
  /-- ATOM, R102 -/
  | atom (f : Fields)
  /-- ATOMS, R102 -/
  | atoms (f : Fields)
  /-- RED, R103 -/
  | red (f : Fields)
  /-- LDRES, R105 -/
  | ldres (f : Fields)
  /-- STCOND, R105 -/
  | stcond (f : Fields)
  /-- PREF, R108 -/
  | pref (f : Fields)
  /-- CCTL_FLUSH, R109 -/
  | cctlFlush (f : Fields)
  /-- CCTL_MERGE, R109 -/
  | cctlMerge (f : Fields)
  /-- CCTL_INVW, R109 -/
  | cctlInvw (f : Fields)
  /-- CCTL_FLUSHCTX, R109 -/
  | cctlFlushctx (f : Fields)
  /-- MEMBAR, R110 -/
  | membar (f : Fields)
  /-- MARM, R112 -/
  | marm (f : Fields)
  /-- MWAIT, R112 -/
  | mwait (f : Fields)
  /-- CPY, R115 -/
  | cpy (f : Fields)
  /-- CPYT, R115 -/
  | cpyt (f : Fields)
  /-- GATHQ, R115 -/
  | gathq (f : Fields)
  /-- DXQ, R115 -/
  | dxq (f : Fields)
  /-- SORTQ, R256 -/
  | sortq (f : Fields)
  /-- COLLQ, R304 -/
  | collq (f : Fields)
  /-- LAUNCHQ, R354 -/
  | launchq (f : Fields)
  /-- BATCH, R117 -/
  | batch (f : Fields)
  /-- WAITB, R118 -/
  | waitb (f : Fields)
  /-- EVPOP, R119 -/
  | evpop (f : Fields)
  /-- EVWAIT, R119 -/
  | evwait (f : Fields)
  /-- GSLOT, R120 -/
  | gslot (f : Fields)
  /-- SYNC, R332 -/
  | sync (f : Fields)
  /-- ARRIVE, R333 -/
  | arrive (f : Fields)
  /-- WAITBAR, R334 -/
  | waitbar (f : Fields)
  /-- BARQ_PHASE, R335 -/
  | barqPhase (f : Fields)
  /-- BARQ_PART, R335 -/
  | barqPart (f : Fields)
  /-- BARQ_ARRD, R335 -/
  | barqArrd (f : Fields)
  /-- BARQ_SET, R335 -/
  | barqSet (f : Fields)
  /-- ELECT, R336 -/
  | elect (f : Fields)
  /-- MMA, R223 -/
  | mma (f : Fields)
  /-- MMAQ, R222 -/
  | mmaq (f : Fields)
  /-- MMASM, R225 -/
  | mmasm (f : Fields)
  /-- TZERO, R226 -/
  | tzero (f : Fields)
  /-- TLD, R227 -/
  | tld (f : Fields)
  /-- TST, R228 -/
  | tst (f : Fields)
  /-- TMOV_TOV, R229 -/
  | tmovTov (f : Fields)
  /-- TMOV_FROMV, R229 -/
  | tmovFromv (f : Fields)
  /-- TMOV_TT, R229 -/
  | tmovTt (f : Fields)
  /-- TSIDE_RD, R230 -/
  | tsideRd (f : Fields)
  /-- TSIDE_WR, R230 -/
  | tsideWr (f : Fields)
  /-- TSIDE_INIT, R230 -/
  | tsideInit (f : Fields)
  /-- TSCAL_S, R231 -/
  | tscalS (f : Fields)
  /-- TSCAL_ROW, R231 -/
  | tscalRow (f : Fields)
  /-- TSCAL_DIVL, R231 -/
  | tscalDivl (f : Fields)
  /-- TACC, R232 -/
  | tacc (f : Fields)
  /-- MLEASE_RD, R233 -/
  | mleaseRd (f : Fields)
  /-- MLEASE_REL, R233 -/
  | mleaseRel (f : Fields)
  /-- DIST, R236 -/
  | dist (f : Fields)
  /-- DARGM, R238 -/
  | dargm (f : Fields)
  /-- DKACC, R239 -/
  | dkacc (f : Fields)
  /-- DCNT, R240 -/
  | dcnt (f : Fields)
  /-- GSW, R266 -/
  | gsw (f : Fields)
  /-- BLEND, R267 -/
  | blend (f : Fields)
  /-- UNBLEND, R268 -/
  | unblend (f : Fields)
  /-- EMIT, R269 -/
  | emit (f : Fields)
  /-- MASKPK, R270 -/
  | maskpk (f : Fields)
  /-- MASKUN, R271 -/
  | maskun (f : Fields)
  /-- DECODE, R272 -/
  | decode (f : Fields)
  /-- UNASSIGNED_OPCODE, R27: a word whose OPC is 0x00 or unassigned -/
  | unassignedOpcode (w : InsWord)
  /-- DOORBELL, R339 -/
  | doorbell (queue : Nat)
  /-- SLICE_EXPIRY, R340 -/
  | sliceExpiry (slot : Nat)
  /-- COMMAND_TAKE, R339 -/
  | commandTake (queue : Nat)
  /-- LAUNCH, R342 -/
  | cmdLaunch (seq : Nat)
  /-- GRAPH, R243 -/
  | cmdGraph (seq : Nat)
  /-- COPY, R341 -/
  | cmdCopy (seq : Nat)
  /-- SORT, R341 -/
  | cmdSort (seq : Nat)
  /-- COLL, R341 -/
  | cmdColl (seq : Nat)
  /-- WAITEV, R342 -/
  | cmdWaitev (seq : Nat)
  /-- SIGNAL, R342 -/
  | cmdSignal (seq : Nat)
  /-- FENCE, R342 -/
  | cmdFence (seq : Nat)
  /-- COMMAND_COMPLETE, R344 -/
  | commandComplete (seq : Nat)
  /-- TEAM_PLACE, R349 -/
  | teamPlace (grid : Nat)
  /-- PROLOGUE_BINDING, R86 -/
  | prologueBinding (team : Nat)
  /-- ENGINE_COMMAND_START, R71 -/
  | engineCommandStart (cmd : Nat)
  /-- OWNERSHIP_WINDOW, R52 -/
  | ownershipWindow (cmd : Nat)
  /-- ENGINE_COMMAND_COMPLETE, R68 -/
  | engineCommandComplete (cmd : Nat)
  /-- EVENT_POST, R73 -/
  | eventPost (team : Nat)
  /-- DXQ_RELEASE_POLL, R81 -/
  | dxqReleasePoll (cmd : Nat)
  /-- DXQ_BLOCK, R82 -/
  | dxqBlock (cmd : Nat)
  /-- SORT_STEP, R255 -/
  | sortStep (cmd : Nat)
  /-- COLLECTIVE_COMPLETE, R304 -/
  | collectiveComplete (cmd : Nat) (peers : List (Nat × PeerPart))
  /-- LAUNCHQ_COMPLETE, R354 -/
  | launchqComplete (cmd : Nat)
  /-- ACCESS_RETURN, R59 -/
  | accessReturn (who : Who)
  /-- STORE_ACK, R97 -/
  | storeAck (team : Nat) (group : Nat)
  /-- SHARED_REQUEST_COMPLETE, R65 -/
  | sharedRequestComplete (team : Nat) (group : Nat) (counter : Nat)
  /-- RESERVATION_HOLD_EXPIRY, R106 -/
  | reservationHoldExpiry (granule : Nat)
  /-- MONITOR_WAKE, R112 -/
  | monitorWake (who : Who)
  /-- MWAIT_TIMEOUT, R112 -/
  | mwaitTimeout (who : Who)
  /-- RENDEZVOUS_COMPLETE, R316 -/
  | rendezvousComplete (who : Who)
  /-- WAIT_RETURN, R118 -/
  | waitReturn (who : Who)
  /-- MATRIX_OP_START, R220 -/
  | matrixOpStart (core : Nat)
  /-- MATRIX_OP_COMPLETE, R220 -/
  | matrixOpComplete (core : Nat)
  /-- LEASE_EXHAUSTED, R215 -/
  | leaseExhausted (core : Nat)
  /-- LEASE_PASS, R215 -/
  | leasePass (core : Nat)
  /-- TRAP_ENTRY, R359 -/
  | trapEntry (team : Nat) (group : Nat)
  /-- PREEMPTION_SAVE, R364 -/
  | preemptionSave (team : Nat)
  /-- TEAM_RESUME, R368 -/
  | teamResume (area : Nat)
  /-- QUEUE_COMMIT, R246 -/
  | queueCommit (graph : Nat) (edge : Nat)
  /-- PROGRAM_NODE_LAUNCH, R247 -/
  | programNodeLaunch (graph : Nat) (node : Nat)
  /-- BINNER_RECORD, R253 -/
  | binnerRecord (graph : Nat) (node : Nat)
  /-- SORTER_START, R260 -/
  | sorterStart (graph : Nat) (node : Nat)
  /-- RASTER_RECORD, R261 -/
  | rasterRecord (graph : Nat) (node : Nat)
  /-- COMPOSE_NODE, R307 -/
  | composeNode (graph : Nat) (node : Nat) (peers : List (Nat × PeerPart))
  /-- NODE_FINISH, R248 -/
  | nodeFinish (graph : Nat) (node : Nat)
  /-- ACK_TIMEOUT, R299 -/
  | ackTimeout (port : Nat)
  /-- RETRAIN, R299 -/
  | retrain (port : Nat)
  /-- ORPHAN_TIMEOUT, R373 -/
  | orphanTimeout (tile : Nat)
  /-- VOTE_GUST_RECEIVE, R372 -/
  | voteGustReceive (tile : Nat) (gust : BitVec 128)
  /-- GUST_PERIOD, R369 -/
  | gustPeriod
  /-- DEVICE_RESET, R390 -/
  | deviceReset
  /-- RDMA_WRITE, R296 -/
  | rdmaWrite (fr : Frame) (qp : Nat) (rkey : W32) (off : Nat) (data : Packet)
  /-- RDMA_READ, R296 -/
  | rdmaRead (fr : Frame) (qp : Nat) (rkey : W32) (off : Nat) (len : Nat)
  /-- UNSUPPORTED_RDMA_OPCODE, R293 -/
  | unsupportedRdmaOpcode (fr : Frame) (qp : Nat) (op : RdmaOther)
  /-- CNP, R293 -/
  | cnp (fr : Frame) (qp : Nat)
  /-- MANAGEMENT_REQUEST, R387 -/
  | managementRequest (fr : Frame) (req : MgmtReq)
  /-- ATTESTATION_REQUEST, R388 -/
  | attestationRequest (fr : Frame) (nonce : BitVec 256)
  /-- IEEE_1588_MESSAGE, R301 -/
  | ieee1588Message (fr : Frame) (msg : Timing)
  /-- FILL_COMPLETE, R58 -/
  | fillComplete (line : Nat) (res : FillResult) (core : Option Nat)
  /-- FLIT_RECEIVE, R299 -/
  | flitReceive (port : Nat) (flit : ArrivingFlit)
  /-- NAK_RECEIVE, R299 -/
  | nakReceive (port : Nat) (ack : BitVec 16)
  /-- FENLINK_GUST, R301 -/
  | fenlinkGust (port : Nat) (sent : W64) (hops : Nat)
  /-- GUST_RECEIVE, R371 -/
  | gustReceive (tile : Nat) (dir : Dir) (gust : BitVec 128)
  /-- MISSED_GUST, R370 -/
  | missedGust (tile : Nat) (dir : Dir)
  /-- BABBLE_WINDOW, R370 -/
  | babbleWindow (tile : Nat) (dir : Dir) (rep : BabbleReport)
  /-- SELF_TEST_COMPLETE, R374 -/
  | selfTestComplete (tile : Nat) (pass : Bool)
  /-- THERMAL_LIMIT, R389 -/
  | thermalLimit (tile : Nat)
  /-- CLOCK_STEP, R389 -/
  | clockStep (die : Nat) (allBelow100 : Bool)
  /-- THERMAL_TRIP, R389 -/
  | thermalTrip (tile : Nat)
  /-- POWER_ON, R387 -/
  | powerOn (rep : BootReport)
  /-- SPURIOUS_WAKE, R112 -/
  | spuriousWake (who : Who)
  /-- RETRAIN_COMPLETE, R299 -/
  | retrainComplete (port : Nat)
  /-- CORE_SELF_TEST_COMPLETE, R363 -/
  | coreSelfTestComplete (core : Nat) (pass : Bool)
  /-- SUSPECT_SELF_TEST, R372 -/
  | suspectSelfTest (tile : Nat) (pass : Bool)
  /-- CONNECTION_REQUEST, R293 -/
  | connectionRequest (fr : Frame) (transport : Connection)
  /-- MALFORMED_FLIT, R371 -/
  | malformedFlit (tile : Nat) (dir : Dir)
  /-- WALK_COMPLETE, R44 -/
  | walkComplete (die : Nat) (ctx : Nat) (va : W64) (acc : Access)
  /-- SLOT_ASSIGN, R340 -/
  | slotAssign
  /-- FAIRNESS_LIMIT, R315 -/
  | fairnessLimit (who : Who)
  /-- LINKLOST, R299 -/
  | linklost (port : Nat)
  deriving DecidableEq, Repr

end Sys2Proof
end

