-- ==== Sys2Proof/Machine/Shape.lean ====
section
/-! DEFINITION. The forms of every instruction: the kinds and block lengths each operand field accepts, the scopes, and
the values of DT, SUB, XM, RND, SAT, LA and REUSE that an entry permits (spec/01_instruction_word.md R15 to R26 and the
encoding table of each chapter). Decode, the lookahead check and the dependence check all read this one table. -/

namespace Sys2Proof.Machine

/-- What decode reads of the group: whether its handler runs (R16), whether RETT may stand (R377), whether GANG and
TEAM scope are shut (R361), the gang's members or 0 (R130), TILES (R206), and whether the team is twin (R214). -/
structure Env where
  kRegs : Bool
  rett : Bool
  noRdv : Bool
  gang : Nat
  tiles : Nat
  twin : Bool
  deriving DecidableEq, Repr

/-- The kinds one operand field accepts (R15, R16): block lengths for V, S and X (0 = kind not accepted), the
alignment of a V or X block, and the kinds without a block. `opt`: the field may also be unused. -/
structure Use where
  v : Nat := 0
  va : Nat := 1
  s : Nat := 0
  x : Nat := 0
  p : Bool := false
  t : Bool := false
  imm : Bool := false
  zero : Bool := false
  spec : Bool := false
  k : Bool := false
  opt : Bool := false
  deriving DecidableEq, Repr

/-- What RND an entry permits (R24). -/
inductive RndRule where
  | none | any | rneOnly
  deriving DecidableEq, Repr

/-- The form of one instruction. `ok` holds the entry's checks of DT, SUB, XM and immediates. -/
structure Shape where
  scopes : List Scope
  ok : Bool := true
  d : Use := {}
  a : Use := {}
  b : Use := {}
  c : Use := {}
  rnd : RndRule := .none
  sat : Bool := false
  la : Bool := false
  reuse : Bool := false
  deriving DecidableEq, Repr

/-- Alignment of a V block: pairs even, longer blocks at a multiple of 4 (R88, R168, R264). -/
def blockAlign (n : Nat) : Nat := if n ≤ 1 then 1 else if n = 2 then 2 else 4

/-- A V block of n registers. -/
def uV (n : Nat) : Use := { v := n, va := blockAlign n }
/-- A block of n S registers. -/
def uS (n : Nat := 1) : Use := { s := n }
def uP : Use := { p := true }
def uT : Use := { t := true }
def uI : Use := { imm := true }
def uSI : Use := { s := 1, imm := true }
def uSZ : Use := { s := 1, zero := true }
def uSIZ : Use := { s := 1, imm := true, zero := true }
def uVS : Use := { v := 1, s := 1 }
def uVZ (n : Nat) : Use := { v := n, va := blockAlign n, zero := true }

def lnGp : List Scope := [.lane, .group]
def gpGgTm : List Scope := [.group, .gang, .team]

/-- A source of the classes of R166, n registers wide (R168). -/
def src (f : Fields) (n : Nat) (imm : Bool := true) : Use :=
  { v := n, va := blockAlign n, s := 1, x := if f.scope = .group then 0 else n, imm := imm, zero := true, k := true }

/-- A destination of the classes of R166. -/
def dst (f : Fields) (n : Nat) : Use :=
  { v := n, va := blockAlign n, s := if f.scope = .lane then 0 else 1, x := if f.scope = .group then 0 else n,
    zero := true, k := true }

def dtN (f : Fields) : Nat := f.dt.toNat
def subN (f : Fields) : Nat := f.sub.toNat
def xmN (f : Fields) : Nat := f.xm.toNat

/-- The bits of x lie within mask m. -/
def within (x m : Nat) : Bool := x &&& m == x

/-- Width of an integer type in registers (R171). -/
def intRegs (dt : Nat) : Nat := if dt = 2 || dt = 3 || dt = 5 then 2 else 1

/-- The types S32 N32 S64 N64 (R173). -/
def dtArith (dt : Nat) : Bool := dt < 4
/-- The types B32 B64. -/
def dtBits (dt : Nat) : Bool := dt = 4 || dt = 5
/-- An S type of R171. -/
def dtSigned (dt : Nat) : Bool := dt = 0 || dt = 2

/-- An integer form (R173): its types, XM bits and SUB. -/
def intShape (f : Fields) (types : Bool) (xm : Nat) (subs : Nat := 1) : Shape :=
  let n := intRegs (dtN f)
  { scopes := lnGp, ok := types && within (xmN f) xm && decide (subN f < subs), d := dst f n, a := src f n }

def int2 (f : Fields) (types : Bool) (xm : Nat) (subs : Nat := 1) : Shape :=
  { intShape f types xm subs with b := src f (intRegs (dtN f)) }

def int3 (f : Fields) (types : Bool) (xm : Nat) : Shape :=
  { int2 f types xm with c := src f (intRegs (dtN f)) false }

/-- Registers of a floating type (R182). -/
def fltRegs (dt : Nat) : Nat := if dt = 3 then 2 else 1

/-- A floating form (R183). `types` is the greatest DT it permits. -/
def fltShape (f : Fields) (types : Bool) (xm : Nat) (rounds : Bool) (sat : Bool := false) (subs : Nat := 1) : Shape :=
  let n := fltRegs (dtN f)
  { scopes := lnGp, ok := types && within (xmN f) xm && decide (subN f < subs), d := dst f n, a := src f n,
    rnd := if rounds then .any else .none, sat := sat }

def flt2 (f : Fields) (types : Bool) (rounds : Bool) (sat : Bool := false) : Shape :=
  { fltShape f types 0xB rounds sat with b := src f (fltRegs (dtN f)) }

/-- A special function of R164. -/
def special1 (f : Fields) : Shape := { fltShape f (dtN f = 0) 0x9 false with la := true }

/-- Bytes of a memory type (R88). -/
def memBytes (dt : Nat) : Nat :=
  if dt ≤ 1 then 1 else if dt ≤ 3 then 2 else if dt = 6 || dt = 7 || dt = 9 then 8 else if dt = 10 then 16 else 4

/-- Registers of a memory type (R88). -/
def memRegs (dt : Nat) : Nat := (memBytes dt + 3) / 4

/-- The operands A and B of an address by R87; a V base is a pair for a global address. -/
def addrA (glob : Bool) : Use := { v := if glob then 2 else 1, va := if glob then 2 else 1, s := 1, zero := true }
def addrB : Use := { v := 1, s := 1, imm := true, zero := true }

/-- The pairs of base and offset that R87 lists. -/
def addrForm (f : Fields) : Bool :=
  match f.a, f.b with
  | .v _ _, .special n => n.val = 0
  | .v _ _, .imm _ => true
  | .s _, .special n => n.val = 0
  | .s _, .v _ _ => true
  | .s _, .s _ => true
  | .s _, .imm _ => true
  | .special _, .imm _ => true
  | _, _ => false

/-- The order in XM by R89: `acq`, `rel` and `ar` as the entry permits; weak takes no scope. -/
def orderOk (f : Fields) (acq rel ar : Bool) : Bool :=
  let o := xmN f % 4
  let sc := xmN f / 4
  if o = 0 then sc = 0 else
    decide (sc ≠ 3) && ((o = 1 && acq) || (o = 2 && rel) || (o = 3 && ar))

/-- A load into V or ZERO (R95). -/
def loadShape (f : Fields) (glob : Bool) (types subs : Nat → Bool) (acq : Bool) : Shape :=
  { scopes := [.lane], ok := types (dtN f) && subs (subN f) && orderOk f acq false false && addrForm f,
    d := uVZ (memRegs (dtN f)), a := addrA glob, b := addrB, la := true }

/-- A store from C (R95); B128 takes no S register (R88). -/
def storeShape (f : Fields) (glob : Bool) (types subs : Nat → Bool) (rel : Bool) : Shape :=
  { scopes := [.lane], ok := types (dtN f) && subs (subN f) && orderOk f false rel false && addrForm f,
    a := addrA glob, b := addrB,
    c := { uVZ (memRegs (dtN f)) with s := if dtN f = 10 then 0 else 1 } }

def ldTypes (dt : Nat) : Bool := dt ≤ 3 || dt = 8 || dt = 9 || dt = 10
def stTypes (dt : Nat) : Bool := dt = 1 || dt = 3 || dt = 8 || dt = 9 || dt = 10
def localTypes (dt : Nat) : Bool := dt = 8 || dt = 9 || dt = 10

/-- The types an atomic operation permits (R101). -/
def atomTypes (sub dt : Nat) : Bool :=
  if sub ≤ 2 then (4 ≤ dt && dt ≤ 7) || (11 ≤ dt && dt ≤ 13)
  else if sub ≤ 7 then dt = 8 || dt = 9
  else sub ≤ 9 && dt = 5

/-- The source of an atomic (R101). -/
def atomC (f : Fields) : Use :=
  let n := memRegs (dtN f)
  if subN f = 7 then { v := 2 * n, va := n, s := n } else { v := n, va := n, s := 1 }

def atomShape (f : Fields) (glob : Bool) : Shape :=
  { scopes := [.lane], ok := atomTypes (subN f) (dtN f) && orderOk f true true true && addrForm f,
    d := uVZ (memRegs (dtN f)), a := addrA glob, b := addrB, c := atomC f, rnd := .rneOnly, la := true }

/-- Guard slot fields of an engine command (R114). -/
def guardOk (f : Fields) : Bool := xmN f = 8 || (xmN f = 0 && subN f = 0)

/-- An engine command with an A block of n S registers (R114). -/
def engShape (f : Fields) (n dts : Nat) : Shape :=
  { scopes := [.group], ok := guardOk f && decide (dtN f < dts), a := uS n, b := uSI, la := true }

/-- DT, SUB and XM all zero. -/
def plain (f : Fields) : Bool := dtN f = 0 && subN f = 0 && xmN f = 0

/-- An immediate of at most n, where the field is one. -/
def immLe (o : Opnd) (n : Nat) : Bool :=
  match o with
  | .imm w => decide (w.toNat ≤ n)
  | _ => true

/-- The value of an immediate, or 0. -/
def immVal (o : Opnd) : Nat :=
  match o with
  | .imm w => w.toNat
  | _ => 0

def isImm (o : Opnd) : Bool :=
  match o with
  | .imm _ => true
  | _ => false

/-- The A block of the array (R208 to R210): a V block at GROUP and TEAM scope, an X block at GANG scope. -/
def arrayA (e : Env) (f : Fields) (regs : Nat) (sc : List Scope) : Use :=
  if f.scope = .gang then { x := if e.gang = 0 then 1 else (regs + e.gang - 1) / e.gang }
  else if sc.contains f.scope then { v := regs, va := 4 }
  else { v := regs, va := 4, x := 1 }

/-- The numeric shape of `MMA` and `DIST` shared: DT of R221. -/
def mmaDt (dt : Nat) : Bool := dt ≤ 11 || dt = 15
def mmaInt (dt : Nat) : Bool := dt = 5 || dt = 9 || dt = 10

/-- First index and length of a V block, for the overlap rule of R264. -/
def vSpan (o : Opnd) (n : Nat) : Option (Nat × Nat) :=
  match o with
  | .v i _ => some (i.val, n)
  | _ => none

def apart (x y : Option (Nat × Nat)) : Bool :=
  match x, y with
  | some (i, n), some (j, m) => i + n ≤ j || j + m ≤ i
  | _, _ => true

/-- A tag form of R137: a count from 1 with its block inside V0 to V255. -/
def tagBlock (f : Fields) : Shape :=
  { scopes := [.group], ok := plain f && decide (1 ≤ immVal f.a),
    d := { v := immVal f.a }, a := uI }

/-- `CVT`'s types held in a pair (R196). -/
def cvtRegs (t : Nat) : Nat := if t = 10 || t = 11 then 2 else 1

/-- Elements of a packed form (R198). -/
def packCount (dt : Nat) : Nat := if dt ≤ 1 then 2 else if dt = 6 || dt = 8 then 8 else 4

/-- A destination of a form that only GROUP, GANG or TEAM scope permits: an S register of it is no kind of LANE scope, which decode
finds before it looks at the scope (R26, R166). -/
def noLaneS (f : Fields) (u : Use) : Use := if f.scope = .lane then { u with s := 0 } else u

/-- A form with no field of its own beyond the operands given. -/
def bare (f : Fields) (sc : List Scope) : Shape := { scopes := sc, ok := plain f }

/-- A system form with DT n and SUB 0 (R377). -/
def sysForm (f : Fields) (dt : Nat) : Bool := dtN f = dt && subN f = 0 && xmN f = 0

/-- A form with SUB n and DT 0, XM 0. -/
def subForm (f : Fields) (n : Nat) : Bool := subN f = n && dtN f = 0 && xmN f = 0

/-- A `SYSW.CTL` form (R383). -/
def ctlShape (f : Fields) : Shape := { scopes := [.group], ok := sysForm f 4, d := uSZ, a := uSI, b := uS }

/-- The form of an instruction word, read in the group's environment. A machine event and an unassigned opcode have
none: the empty scope list. -/
def shape (e : Env) : Instr → Shape
  -- control (R323)
  | .nop f => bare f lnGp
  | .bra f => { bare f lnGp with a := uI, b := uI }
  | .brx f => { bare f [.lane] with a := { v := 2, va := 2, s := 1, k := true } }
  | .call f => { bare f [.lane] with d := { uVZ 2 with k := true }, a := uI, b := uI }
  | .callx f => { bare f [.lane] with d := { uVZ 2 with k := true }, a := { v := 2, va := 2, s := 1, k := true } }
  | .ret f => { bare f [.lane] with a := { v := 2, va := 2, s := 1, k := true } }
  | .join f => { scopes := [.lane], ok := subForm f 0 }
  | .joinAt f => { scopes := [.lane], ok := subForm f 1, a := uI, b := uI }
  | .joinClr f => { scopes := [.lane], ok := subForm f 2 }
  | .exit f => bare f [.lane]
  | .yield f => bare f lnGp
  -- traps and system (R377)
  | .trap f => { bare f lnGp with a := uI }
  | .bpt f => { bare f lnGp with a := uI }
  | .rett f => { scopes := [.group], ok := subForm f 0 && e.rett }
  | .rettKill f => { scopes := [.group], ok := subForm f 1 && e.rett }
  | .haltt f => bare f [.group]
  | .sysrReg f => { scopes := [.group], ok := sysForm f 0, d := uS, a := uSI }
  | .sysrTbl f => { scopes := [.group], ok := sysForm f 3, d := uS, a := uSI, b := uS }
  | .syswReg f => { scopes := [.group], ok := sysForm f 0, d := uSZ, a := uSI, b := uS }
  | .syswTlbi f => { scopes := [.group], ok := sysForm f 1, d := uSZ, a := uSI, b := uS }
  | .syswReplay f => { scopes := [.group], ok := sysForm f 2, d := uSZ, a := uSI, b := { s := 1, opt := true } }
  | .syswTbl f => { scopes := [.group], ok := sysForm f 3, d := uSZ, a := uSI, b := uS }
  | .syswCtlResume f => ctlShape f
  | .syswCtlReadmit f => ctlShape f
  | .syswCtlCancel f => ctlShape f
  | .syswCtlFence f => ctlShape f
  | .syswCtlCkpt f => ctlShape f
  | .syswCtlPlace f => ctlShape f
  | .syswCtlAbort f => ctlShape f
  | .preemptOffer f => { scopes := [.team], ok := subForm f 0, d := uSZ }
  | .preemptForce f => { scopes := [.team], ok := subForm f 1, d := uSZ }
  | .flushiAll f => { scopes := [.group], ok := subForm f 0 }
  | .flushiLine f => { scopes := [.group], ok := subForm f 1 && addrForm f, a := addrA true, b := addrB }
  | .tileq f => { bare f [.group] with d := uS, a := uSI }
  | .time f => { bare f [.group] with d := { uVZ 2 with s := 1, k := true } }
  | .clock f => { bare f [.group] with d := { uVZ 2 with s := 1, k := true } }
  | .movsr f =>
    { bare f lnGp with d := { v := 1, s := if f.scope = .lane then 0 else 1, k := true }, a := { spec := true, zero := true } }
  -- integer (R173)
  | .iadd f => { int2 f (dtArith (dtN f)) 0xB with sat := true }
  | .isub f => { int2 f (dtArith (dtN f)) 0xB with sat := true }
  | .imul f => int2 f (dtArith (dtN f)) 0xB
  | .imulh f => int2 f (dtArith (dtN f)) 0xB
  | .imad f => { int3 f (dtArith (dtN f)) 0xF with sat := true }
  | .imadw f =>
    { intShape f (dtN f ≤ 1) 0xF with d := dst f 2, b := src f 1, c := src f 2 false, sat := true }
  | .idiv f => { int2 f (dtArith (dtN f)) 0 with sat := dtSigned (dtN f), la := true }
  | .irem f => { int2 f (dtArith (dtN f)) 0 with la := true }
  | .iabs f => { intShape f (dtSigned (dtN f)) 0 with sat := true }
  | .ineg f => { intShape f (dtArith (dtN f)) 0 with sat := dtSigned (dtN f) }
  | .imin f => int2 f (dtArith (dtN f)) 0xB
  | .imax f => int2 f (dtArith (dtN f)) 0xB
  | .shl f => { intShape f (dtBits (dtN f)) 0 with b := src f 1 }
  | .shr f => { intShape f (dtBits (dtN f)) 0 with b := src f 1 }
  | .sar f => { intShape f (dtSigned (dtN f)) 0 with b := src f 1 }
  | .rot f => { intShape f (dtBits (dtN f)) 0 2 with b := src f 1 }
  | .lop3 f =>
    let n := intRegs (dtN f)
    { scopes := lnGp, ok := dtBits (dtN f), d := dst f n, a := src f n, b := src f n, c := src f n false }
  | .and f => int2 f (dtBits (dtN f)) 0
  | .or f => int2 f (dtBits (dtN f)) 0
  | .xor f => int2 f (dtBits (dtN f)) 0
  | .andn f => int2 f (dtBits (dtN f)) 0
  | .popc f => { intShape f (dtBits (dtN f)) 0 with d := dst f 1 }
  | .clz f => { intShape f (dtBits (dtN f)) 0 with d := dst f 1 }
  | .ctz f => { intShape f (dtBits (dtN f)) 0 with d := dst f 1 }
  | .brev f => intShape f (dtBits (dtN f)) 0
  | .bfx f => { intShape f (dtArith (dtN f)) 0 with b := src f 1 }
  | .bfi f => { intShape f (dtBits (dtN f)) 0 with b := src f 1, c := src f (intRegs (dtN f)) false }
  | .bilv f =>
    { int2 f (dtBits (dtN f)) 0 2 with c := if subN f = 1 then src f (intRegs (dtN f)) false else {} }
  | .bdil f => intShape f (dtBits (dtN f)) 0 5
  | .icmp f => { int2 f (dtArith (dtN f)) 0xB 6 with d := uP }
  | .sel f => { int2 f (dtBits (dtN f)) 0 with c := uP }
  | .iaddc f => { int2 f (dtN f = 1) 0 2 with c := uP }
  -- floating (R183)
  | .fadd f => flt2 f (dtN f < 4) true true
  | .fsub f => flt2 f (dtN f < 4) true true
  | .fmul f => flt2 f (dtN f < 4) true true
  | .ffma f =>
    { fltShape f (dtN f < 4) 0xF true true with b := src f (fltRegs (dtN f)), c := src f (fltRegs (dtN f)) false }
  | .fmin f => flt2 f (dtN f < 4) false
  | .fmax f => flt2 f (dtN f < 4) false
  | .fcmp f => { fltShape f (dtN f = 0) 0xB false false 8 with b := src f 1, d := uP }
  | .fclass f => fltShape f (dtN f = 0) 0x9 false
  | .frnd f => fltShape f (dtN f < 3) 0x9 true
  | .fdiv f => { flt2 f (dtN f = 0) true true with la := true }
  | .fsqrt f => { fltShape f (dtN f = 0) 0x9 true with la := true }
  | .frcp f => special1 f
  | .frsq f => special1 f
  | .fex2 f => special1 f
  | .flg2 f => special1 f
  | .fsin f => special1 f
  | .fcos f => special1 f
  | .ftanh f => special1 f
  | .fscale f => { fltShape f (dtN f < 3) 0x9 true true with b := src f 1 }
  | .ffrx f => fltShape f (dtN f = 0) 0x9 false false 2
  | .fdot2 f =>
    { fltShape f (dtN f = 1 || dtN f = 2) 0xF true true with b := src f 1, c := src f 1 false }
  -- predicate and lane (R188)
  | .plop f =>
    { scopes := lnGp, ok := dtN f = 0 && decide (subN f < 4) && within (xmN f) (if subN f = 3 then 1 else 3),
      d := uP, a := uP, b := if subN f = 3 then {} else uP }
  | .pmovTov f => { scopes := [.lane], ok := subForm f 0, d := { v := 1, k := true }, a := uP }
  | .pmovFromv f =>
    { scopes := [.lane], ok := subForm f 1, d := uP, a := { v := 1, s := 1, imm := true, k := true } }
  | .pmovPack f => { scopes := [.group], ok := subForm f 2, d := noLaneS f { uVS with k := true }, a := uP }
  | .pmovUnpk f =>
    { scopes := [.group], ok := subForm f 3, d := uP, a := { v := 1, s := 1, imm := true, k := true } }
  | .vote f =>
    { scopes := if subN f = 3 then [.group] else gpGgTm,
      ok := dtN f = 0 && decide (subN f < 4) && within (xmN f) 1,
      d := if subN f = 3 then noLaneS f { uVS with k := true } else uP, a := uP }
  | .actm f => { scopes := [.group], ok := dtN f = 0 && decide (subN f < 3) && xmN f = 0, d := noLaneS f { uVS with k := true } }
  | .mov f =>
    let n := dtN f + 1
    { scopes := lnGp, ok := decide (dtN f < 2) && subN f = 0 && xmN f = 0, d := dst f n, a := src f n }
  | .movi f =>
    { scopes := lnGp,
      ok := dtN f = 0 && xmN f = 0 &&
        (subN f = 0 || (subN f = 1 && match f.d with
          | .s _ => true
          | .k n => decide (8 ≤ n.val)
          | _ => false)),
      d := { dst f 1 with zero := false }, a := uI, b := uI }
  | .perm f =>
    let n := dtN f + 1
    { scopes := [.lane], ok := decide (dtN f < 2) && decide (subN f < 2) && xmN f = 0, d := { uV n with k := true },
      a := { uV n with k := true }, b := { v := 1, s := 1, imm := true, k := true } }
  | .lred f =>
    let add := subN f = 0 && dtN f = 4
    { scopes := [.group],
      ok := (if subN f < 3 then dtN f = 2 || dtN f = 3 || dtN f = 4 else subN f < 6 && dtN f = 0) &&
        within (xmN f) (if dtN f = 4 || dtN f = 2 then 8 else 0),
      d := noLaneS f { uVS with k := true }, a := { uV 1 with k := true }, rnd := if add then .any else .none }
  | .lscan f =>
    let op := subN f % 8
    { scopes := [.lane],
      ok := (if op < 3 then dtN f = 2 || dtN f = 3 || dtN f = 4 else op < 6 && dtN f = 0) && xmN f = 0,
      d := { uV 1 with k := true }, a := { uV 1 with k := true }, rnd := if op = 0 && dtN f = 4 then .any else .none }
  | .matchLanes f =>
    { scopes := [.lane], ok := decide (dtN f < 2) && decide (subN f < 2) && xmN f = 0,
      d := if subN f = 1 then uP else { uV 1 with k := true }, a := { uV (dtN f + 1) with k := true } }
  | .tagq f => { bare f [.group] with d := uSZ, a := uV 1 }
  | .tagg f => tagBlock f
  | .relv f => tagBlock f
  -- conversion, format and mode (R196 to R204)
  | .cvt f =>
    { scopes := lnGp, ok := xmN f = 0, d := dst f (cvtRegs (dtN f)), a := src f (cvtRegs (subN f)),
      rnd := .any, sat := true }
  | .pack f =>
    let n := packCount (dtN f)
    { scopes := lnGp, ok := decide (dtN f ≤ 8) && subN f = 0 && xmN f = 0, d := dst f 1,
      a := if n = 2 then src f 1 else { v := n, va := n, k := true }, b := if n = 2 then src f 1 else {},
      rnd := if dtN f ≤ 6 then .any else .none, sat := true }
  | .unpk f =>
    let n := packCount (dtN f)
    { scopes := lnGp, ok := decide (dtN f ≤ 8) && subN f = 0 && xmN f = 0,
      d := if n = 2 then { dst f 2 with s := 0 } else { v := n, va := n, k := true }, a := src f 1 }
  | .qblkScale f =>
    { scopes := [.group], ok := subN f = 0 && decide (4 ≤ dtN f) && decide (dtN f ≤ 9) && xmN f = 0,
      d := noLaneS f { s := 1, k := true }, a := { uV (if dtN f = 9 then 2 else 1) with k := true },
      b := if dtN f = 9 then { s := 1, k := true } else {} }
  | .qblkCode f =>
    { scopes := [.lane], ok := subN f = 1 && decide (4 ≤ dtN f) && decide (dtN f ≤ 9) && xmN f = 0,
      d := dst f 1, a := src f 1, b := if dtN f = 9 then { s := 1, k := true } else { uVS with k := true },
      rnd := .any }
  | .qblkSuper f =>
    { scopes := [.group], ok := subN f = 2 && dtN f = 9 && xmN f = 0, d := noLaneS f { s := 1, k := true },
      a := { uVS with k := true } }
  | .dqblk f =>
    { scopes := [.lane], ok := subN f = 0 && decide (4 ≤ dtN f) && decide (dtN f ≤ 9) && xmN f = 0,
      d := dst f 1, a := src f 1, b := if dtN f = 9 then { s := 1, k := true } else { uVS with k := true },
      rnd := .any }
  | .setfmt f => { bare f [.group] with a := { uSI with k := true } }
  | .getfmt f => { bare f [.group] with d := noLaneS f { uVS with k := true } }
  | .setmode f => { bare f [.group] with a := { uSI with k := true } }
  | .getmode f => { bare f [.group] with d := noLaneS f { uVS with k := true } }
  | .setseed f =>
    { scopes := [.group], ok := dtN f = 0 && xmN f = 0 && decide (subN f < 8), a := { uSI with k := true } }
  | .flagsRd f => { scopes := [.group], ok := subForm f 0, d := noLaneS f { uVS with k := true } }
  | .flagsClr f => { scopes := [.group], ok := subForm f 1, d := noLaneS f { uVS with zero := true, k := true }, a := src f 1 }
  | .flagsSet f => { scopes := [.group], ok := subForm f 2, d := noLaneS f { uVS with zero := true, k := true }, a := src f 1 }
  | .lscaleStep f =>
    { scopes := [.group], ok := subForm f 0, d := noLaneS f { s := 1, k := true }, a := { uSI with k := true } }
  | .lscaleRd f => { scopes := [.group], ok := subForm f 1, d := noLaneS f { s := 1, k := true } }
  | .lscaleWr f => { scopes := [.group], ok := subForm f 2, a := { s := 1, k := true } }
  -- memory (R95, R100, R104, R107, R111)
  | .ld f => loadShape f true ldTypes (· ≤ 3) true
  | .st f => storeShape f true stTypes (· ≤ 1) true
  | .lds f => loadShape f false ldTypes (· = 0) true
  | .sts f => storeShape f false stTypes (· = 0) true
  | .ldc f =>
    let n := memRegs (dtN f)
    let base : Shape := loadShape f false ldTypes (· = 0) false
    if f.scope = .lane then { base with scopes := lnGp, d := if dtN f = 10 then uV n else uVZ n }
    else
      { base with
        scopes := lnGp, ok := ldTypes (dtN f) && subN f = 0 && xmN f = 0,
        d := if dtN f = 10 then uV n else { uVZ n with s := 1 }, a := uSZ, b := uSIZ }
  | .ldl f => loadShape f false localTypes (· ≤ 3) false
  | .stl f => storeShape f false localTypes (· ≤ 1) false
  | .atom f => atomShape f true
  | .atoms f => atomShape f false
  | .red f =>
    { atomShape f true with
      ok := atomTypes (subN f) (dtN f) && decide (subN f ≤ 5) && orderOk f false true false && addrForm f,
      d := {}, la := false }
  | .ldres f =>
    { loadShape f true (fun dt => dt = 8 || dt = 9) (· = 0) true with d := uV (memRegs (dtN f)) }
  | .stcond f =>
    { scopes := [.lane],
      ok := (dtN f = 8 || dtN f = 9) && subN f = 0 && orderOk f false true false && addrForm f,
      d := uP, a := addrA true, b := addrB, c := { uV (memRegs (dtN f)) with s := 1 }, la := true }
  | .pref f =>
    { scopes := [.lane], ok := dtN f = 0 && decide (subN f < 2) && xmN f = 0 && addrForm f, a := addrA true, b := addrB }
  | .cctlFlush f => { scopes := [.lane], ok := subForm f 0 && addrForm f, a := addrA true, b := addrB }
  | .cctlMerge f => { scopes := [.lane], ok := subForm f 1 && addrForm f, a := addrA true, b := addrB }
  | .cctlInvw f => { scopes := [.lane], ok := subForm f 2 && addrForm f, a := addrA true, b := addrB }
  | .cctlFlushctx f => { scopes := [.group], ok := subForm f 3 }
  | .membar f =>
    { scopes := lnGp, ok := dtN f = 0 && decide (subN f < 4) && xmN f % 4 = 0 && decide (xmN f < 12) }
  | .marm f => { scopes := [.lane], ok := plain f && addrForm f, a := addrA true, b := addrB }
  | .mwait f => { bare f [.lane] with d := uVZ 1, a := uSI }
  | .ldun f =>
    let n := memRegs (dtN f)
    { scopes := [.group],
      ok := (dtN f ≤ 3 || dtN f = 8 || dtN f = 9) && decide (subN f ≤ 3) && orderOk f true false false,
      d := { uV n with s := 1 }, a := uSZ, b := uSIZ, la := true }
  -- engines and events (R114, R117, R256, R303, R354)
  | .cpy f => engShape f 3 3
  | .cpyt f => { engShape f 8 2 with c := uS 4 }
  | .gathq f => engShape f 5 2
  | .dxq f => engShape f 4 1
  | .sortq f => engShape f 6 1
  | .collq f => engShape f 5 4
  | .launchq f => engShape f 2 1
  | .batch f => { bare f [.group] with d := uSZ }
  | .waitb f => { bare f [.group] with a := uSI }
  | .evpop f => { bare f [.group, .team] with d := uS 4 }
  | .evwait f => { bare f [.group, .team] with d := uS 4 }
  | .gslot f =>
    { scopes := [.group, .team], ok := plain f && immLe f.a 15 && immLe f.b 3, a := uSI, b := { uSI with p := true } }
  -- synchronisation (R323)
  | .sync f => bare f [.gang, .team]
  | .arrive f =>
    { scopes := [.group], ok := plain f && immLe f.a 15, d := { uVS with zero := true, k := true },
      a := { uSI with k := true } }
  | .waitbar f =>
    { scopes := [.group], ok := plain f && immLe f.a 15, a := { uSI with k := true }, b := { uSI with k := true } }
  | .barqPhase f =>
    { scopes := [.group], ok := subForm f 0 && immLe f.a 15, d := { uSZ with k := true }, a := { uSI with k := true } }
  | .barqPart f =>
    { scopes := [.group], ok := subForm f 1 && immLe f.a 15, d := { uSZ with k := true }, a := { uSI with k := true } }
  | .barqArrd f =>
    { scopes := [.group], ok := subForm f 2 && immLe f.a 15, d := { uSZ with k := true }, a := { uSI with k := true } }
  | .barqSet f =>
    { scopes := [.group], ok := subForm f 3 && immLe f.a 15, d := { uSZ with k := true }, a := { uSI with k := true },
      b := { uSI with k := true } }
  | .elect f => { bare f gpGgTm with d := if f.scope = .group then { uP with s := 1, k := true } else uP }
  -- matrix (R219, R221, R222)
  | .mma f =>
    let dt := dtN f
    let twin := bit (subN f) 1
    let sc : List Scope := if twin then [.team] else gpGgTm
    { scopes := sc,
      ok := mmaDt dt && decide (subN f < 4) && within (xmN f) 1 && (!twin || (e.twin && !bit (subN f) 0)),
      d := uT, a := arrayA e f (if dt = 6 || dt = 7 then 36 else 32) gpGgTm, b := uS,
      rnd := if mmaInt dt then .none else .any, sat := mmaInt dt || dt = 15, la := true, reuse := true }
  | .mmaq f =>
    let dt := dtN f
    let twin := bit (subN f) 1
    { scopes := if twin then [.team] else gpGgTm,
      ok := (dt ≤ 7 || dt = 15) && decide (subN f < 4) && within (xmN f) 1 && (!twin || (e.twin && !bit (subN f) 0)),
      d := uT, a := arrayA e f (if dt = 4 || dt = 5 then 36 else 32) gpGgTm, b := uS, c := uS,
      rnd := .any, la := true, reuse := true }
  | .mmasm f =>
    { scopes := [.group, .team], ok := decide (dtN f < 3) && subN f = 0 && xmN f = 0, d := uT, a := uV 32, b := uS,
      c := uS, rnd := .any, la := true, reuse := true }
  | .tzero f =>
    { scopes := gpGgTm, ok := dtN f = 0 && decide (subN f < 3) && xmN f = 0, d := uT, la := true }
  | .tld f =>
    { scopes := gpGgTm, ok := decide (dtN f < 3) && decide (subN f < 2) && xmN f = 0, d := uT, a := uS, b := uSIZ,
      la := true }
  | .tst f =>
    let dt := dtN f
    { scopes := gpGgTm, ok := decide (dt < 6) && decide (subN f < 8) && xmN f = 0, a := uS, b := uSIZ, c := uT,
      rnd := if dt = 0 || dt = 5 then .none else .any, sat := dt = 1 || dt = 2 || dt = 4 }
  | .tmovTov f => { scopes := [.group], ok := subForm f 0 && immLe f.b 3, d := uV 32, a := uT, b := uI, la := true }
  | .tmovFromv f => { scopes := [.group], ok := subForm f 1 && immLe f.b 3, d := uT, a := uV 32, b := uI, la := true }
  | .tmovTt f => { scopes := gpGgTm, ok := subForm f 2, d := uT, a := uT, la := true }
  | .tsideRd f => { scopes := [.group], ok := subForm f 0, d := uV 4, a := uT, la := true }
  | .tsideWr f => { scopes := [.group], ok := subForm f 1, d := uT, a := uV 4, la := true }
  | .tsideInit f => { scopes := [.group], ok := subForm f 2, d := uT, la := true }
  | .tscalS f => { scopes := gpGgTm, ok := subForm f 0, d := uT, a := uS, rnd := .any, la := true }
  | .tscalRow f => { scopes := [.group], ok := subForm f 1, d := uT, a := { v := 2 }, rnd := .any, la := true }
  | .tscalDivl f => { scopes := gpGgTm, ok := subForm f 2, d := uT, rnd := .any, la := true }
  | .tacc f =>
    { scopes := gpGgTm,
      ok := decide (dtN f < 2) && decide (subN f < 2) && xmN f = 0 && (subN f = 0 || decide (f.a ≠ f.d)),
      d := uT, a := uT, rnd := if dtN f = 0 then .any else .none, sat := dtN f = 1, la := true }
  | .mleaseRd f => { scopes := [.group, .team], ok := subForm f 0, d := uSZ, la := true }
  | .mleaseRel f => { scopes := [.group, .team], ok := subForm f 1, d := uSZ, la := true }
  -- distance (R234)
  | .dist f =>
    let dt := dtN f
    { scopes := gpGgTm,
      ok := mmaDt dt && decide (subN f < 8) && xmN f = 0 && (dt = 15 || ((subN f % 4 = 3) == (dt = 10))),
      d := uT, a := arrayA e f (if dt = 6 || dt = 7 then 36 else 32) gpGgTm, b := uS,
      rnd := if mmaInt dt then .none else .any, sat := mmaInt dt || dt = 15, la := true, reuse := true }
  | .dargm f =>
    { scopes := gpGgTm,
      ok := decide (dtN f < 2) && !bit (subN f) 2 && xmN f = 0 &&
        (!(isImm f.a && isImm f.b) ||
          (decide (1 ≤ immVal f.a) && decide (immVal f.a ≤ 64) && decide (immVal f.b + immVal f.a - 1 ≤ 0xFFFE))),
      d := uT, a := uSI, b := uSIZ, la := true }
  | .dkacc f =>
    { scopes := gpGgTm, ok := decide (dtN f < 6) && subN f = 0 && xmN f = 0 && decide (f.b ≠ f.d), d := uT,
      a := arrayA e f 32 gpGgTm, b := uT, c := uSZ, rnd := if dtN f = 5 then .none else .any, sat := dtN f = 5,
      la := true }
  | .dcnt f =>
    { scopes := gpGgTm, ok := decide (dtN f < 2) && subN f = 0 && xmN f = 0, d := uT, rnd := .any, la := true }
  -- splat, record and decode (R264)
  | .gsw f =>
    let n := subN f + 1
    { scopes := [.lane], ok := dtN f = 0 && decide (subN f < 2) && xmN f = 0 && apart (vSpan f.d n) (vSpan f.b 2),
      d := uV n, a := uS, b := uV 2 }
  | .blend f =>
    { scopes := [.lane],
      ok := plain f && apart (vSpan f.d 5) (vSpan f.a 1) && apart (vSpan f.d 5) (vSpan f.b 3) &&
        apart (vSpan f.a 1) (vSpan f.b 3),
      d := uV 5, a := uV 1, b := uV 3, c := uP }
  | .unblend f =>
    { scopes := [.lane],
      ok := plain f && apart (vSpan f.d 4) (vSpan f.a 4) && apart (vSpan f.d 4) (vSpan f.b 1) &&
        apart (vSpan f.d 4) (vSpan f.c 3) && apart (vSpan f.a 4) (vSpan f.b 1) &&
        apart (vSpan f.a 4) (vSpan f.c 3) && apart (vSpan f.b 1) (vSpan f.c 3),
      d := uV 4, a := uV 4, b := uV 1, c := uV 3 }
  | .emit f => { scopes := [.lane], ok := plain f && immLe f.a 7, a := uSI, b := { v := 1, va := 4 } }
  | .maskpk f =>
    { scopes := [.lane], ok := dtN f = 0 && decide (subN f < 3) && xmN f = 0 && apart (vSpan f.d 1) (vSpan f.a 32),
      d := uV 1, a := uV 32 }
  | .maskun f =>
    { scopes := [.lane],
      ok := dtN f = 0 && decide (subN f < 3) && xmN f = 0 && apart (vSpan f.d 32) (vSpan f.a 1) &&
        apart (vSpan f.b 32) (vSpan f.a 1) &&
        (apart (vSpan f.d 32) (vSpan f.b 32) || decide ((vSpan f.d 32) = (vSpan f.b 32))),
      d := uV 32, a := uV 1, b := uV 32 }
  | .decode f =>
    let n := if subN f = 0 then 8 else if subN f = 1 then 2 else 3
    let m := if subN f = 2 then 2 else 1
    { scopes := lnGp,
      ok := dtN f = 0 && decide (subN f < 3) && xmN f = 0 && apart (vSpan f.d n) (vSpan f.a m),
      d := uV n, a := if subN f = 2 then uV 2 else uVS }
  | _ => { scopes := [], ok := false }

/-- A permutation that R18 allows. -/
def permOk : Perm → Bool
  | .mir k => decide (1 ≤ k.val) && decide (k.val ≤ 5)
  | _ => true

/-- Whether a field may hold an operand (R15, R16, R18). -/
def Use.ok (e : Env) (u : Use) (o : Opnd) : Bool :=
  match o with
  | .v n q =>
    permOk q && if u.v = 0 then (u.opt || u == {}) && n.val == 0 && q == .id
    else (n.val % u.va == 0 && decide (n.val + u.v ≤ 256)) || (u.opt && n.val == 0 && q == .id)
  | .s n => decide (0 < u.s) && decide (n.val + u.s ≤ 64)
  | .x n => decide (0 < u.x) && decide (0 < e.gang) && (u.va != 2 || n.val % 2 == 0) && decide (n.val + u.x ≤ 32)
  | .p _ => u.p
  | .t n => u.t && decide (n.val < e.tiles)
  | .imm _ => u.imm
  | .special n => if n.val = 0 then u.zero else u.spec && decide (n.val ≤ 22)
  | .k n =>
    u.k && e.kRegs &&
      (if n.val < 8 then decide (0 < u.v) && n.val % u.va == 0 && decide (n.val + u.v ≤ 8)
       else decide (0 < u.s) && decide (n.val + u.s ≤ 16))

/-- RND within what the entry permits (R24). -/
def RndRule.ok (r : RndRule) (rnd : BitVec 3) : Bool :=
  match r with
  | .none => rnd == 0
  | .any => rnd != 7
  | .rneOnly => rnd == 0 || rnd == 1

/-- C and D carry no permutation (R14). -/
def Opnd.noPerm : Opnd → Bool
  | .v _ q => q == .id
  | _ => true

/-- The checks of step 2 of R26. -/
def encOk (e : Env) (i : Instr) (f : Fields) : Bool :=
  let sh := shape e i
  sh.ok && sh.d.ok e f.d && sh.a.ok e f.a && sh.b.ok e f.b && sh.c.ok e f.c && Opnd.noPerm f.d && Opnd.noPerm f.c &&
    sh.rnd.ok f.rnd && (sh.sat || !f.sat) && (sh.la || f.la.val == 0) && (sh.reuse || !f.reuse)

/-- The check of step 3 of R26, with the rules of R316 and R361. -/
def scopeOk (e : Env) (i : Instr) (f : Fields) : Bool :=
  (shape e i).scopes.contains f.scope && (f.scope != .gang || decide (0 < e.gang)) &&
    (!e.noRdv || (f.scope != .gang && f.scope != .team))

end Sys2Proof.Machine
end

