-- ==== Sys2Proof/Machine/Forms.lean ====
section
/-! DEFINITION. The opcode map (spec/01_instruction_word.md R27): the opcode and fields of each instruction word, and the
instruction that an opcode with its fields names. Rows of one opcode are told apart by SUB, by DT (SYSR and SYSW) or, for
SYSW.CTL, by the action in A (spec/15_traps_and_reliability.md R383). -/

namespace Sys2Proof.Machine

/-- The opcode and the fields of an instruction word; none for a machine event and for an unassigned opcode. -/
def head : Instr → Option (Nat × Fields)
  | .nop f => some (0x01, f)
  | .bra f => some (0x02, f)
  | .brx f => some (0x03, f)
  | .call f => some (0x04, f)
  | .callx f => some (0x05, f)
  | .ret f => some (0x06, f)
  | .join f => some (0x07, f)
  | .joinAt f => some (0x07, f)
  | .joinClr f => some (0x07, f)
  | .exit f => some (0x08, f)
  | .yield f => some (0x09, f)
  | .trap f => some (0x0A, f)
  | .bpt f => some (0x0B, f)
  | .rett f => some (0x0C, f)
  | .rettKill f => some (0x0C, f)
  | .haltt f => some (0x0D, f)
  | .sysrReg f => some (0x0E, f)
  | .sysrTbl f => some (0x0E, f)
  | .syswReg f => some (0x0F, f)
  | .syswTlbi f => some (0x0F, f)
  | .syswReplay f => some (0x0F, f)
  | .syswTbl f => some (0x0F, f)
  | .syswCtlResume f => some (0x0F, f)
  | .syswCtlReadmit f => some (0x0F, f)
  | .syswCtlCancel f => some (0x0F, f)
  | .syswCtlFence f => some (0x0F, f)
  | .syswCtlCkpt f => some (0x0F, f)
  | .syswCtlPlace f => some (0x0F, f)
  | .syswCtlAbort f => some (0x0F, f)
  | .preemptOffer f => some (0x12, f)
  | .preemptForce f => some (0x12, f)
  | .flushiAll f => some (0x13, f)
  | .flushiLine f => some (0x13, f)
  | .tileq f => some (0x15, f)
  | .time f => some (0x10, f)
  | .clock f => some (0x11, f)
  | .movsr f => some (0x14, f)
  | .iadd f => some (0x20, f)
  | .isub f => some (0x21, f)
  | .imul f => some (0x22, f)
  | .imulh f => some (0x23, f)
  | .imad f => some (0x24, f)
  | .imadw f => some (0x25, f)
  | .idiv f => some (0x26, f)
  | .irem f => some (0x27, f)
  | .iabs f => some (0x28, f)
  | .ineg f => some (0x29, f)
  | .imin f => some (0x2A, f)
  | .imax f => some (0x2B, f)
  | .shl f => some (0x2C, f)
  | .shr f => some (0x2D, f)
  | .sar f => some (0x2E, f)
  | .rot f => some (0x2F, f)
  | .lop3 f => some (0x30, f)
  | .and f => some (0x31, f)
  | .or f => some (0x32, f)
  | .xor f => some (0x33, f)
  | .andn f => some (0x34, f)
  | .popc f => some (0x35, f)
  | .clz f => some (0x36, f)
  | .ctz f => some (0x37, f)
  | .brev f => some (0x38, f)
  | .bfx f => some (0x39, f)
  | .bfi f => some (0x3A, f)
  | .bilv f => some (0x3B, f)
  | .bdil f => some (0x3C, f)
  | .icmp f => some (0x3D, f)
  | .sel f => some (0x3E, f)
  | .iaddc f => some (0x3F, f)
  | .fadd f => some (0x40, f)
  | .fsub f => some (0x41, f)
  | .fmul f => some (0x42, f)
  | .ffma f => some (0x43, f)
  | .fmin f => some (0x44, f)
  | .fmax f => some (0x45, f)
  | .fcmp f => some (0x46, f)
  | .fclass f => some (0x47, f)
  | .frnd f => some (0x48, f)
  | .fdiv f => some (0x49, f)
  | .fsqrt f => some (0x4A, f)
  | .frcp f => some (0x4B, f)
  | .frsq f => some (0x4C, f)
  | .fex2 f => some (0x4D, f)
  | .flg2 f => some (0x4E, f)
  | .fsin f => some (0x4F, f)
  | .fcos f => some (0x50, f)
  | .ftanh f => some (0x51, f)
  | .fscale f => some (0x52, f)
  | .ffrx f => some (0x53, f)
  | .fdot2 f => some (0x54, f)
  | .plop f => some (0x60, f)
  | .pmovTov f => some (0x61, f)
  | .pmovFromv f => some (0x61, f)
  | .pmovPack f => some (0x61, f)
  | .pmovUnpk f => some (0x61, f)
  | .vote f => some (0x62, f)
  | .actm f => some (0x63, f)
  | .mov f => some (0x64, f)
  | .movi f => some (0x65, f)
  | .perm f => some (0x66, f)
  | .lred f => some (0x67, f)
  | .lscan f => some (0x68, f)
  | .matchLanes f => some (0x69, f)
  | .tagq f => some (0x6A, f)
  | .tagg f => some (0x6B, f)
  | .relv f => some (0x6C, f)
  | .cvt f => some (0x70, f)
  | .pack f => some (0x71, f)
  | .unpk f => some (0x72, f)
  | .qblkScale f => some (0x73, f)
  | .qblkCode f => some (0x73, f)
  | .qblkSuper f => some (0x73, f)
  | .dqblk f => some (0x74, f)
  | .setfmt f => some (0x75, f)
  | .getfmt f => some (0x76, f)
  | .setmode f => some (0x77, f)
  | .getmode f => some (0x78, f)
  | .setseed f => some (0x79, f)
  | .flagsRd f => some (0x7A, f)
  | .flagsClr f => some (0x7A, f)
  | .flagsSet f => some (0x7A, f)
  | .lscaleStep f => some (0x7B, f)
  | .lscaleRd f => some (0x7B, f)
  | .lscaleWr f => some (0x7B, f)
  | .ld f => some (0x80, f)
  | .st f => some (0x81, f)
  | .lds f => some (0x82, f)
  | .sts f => some (0x83, f)
  | .ldc f => some (0x84, f)
  | .ldl f => some (0x85, f)
  | .stl f => some (0x86, f)
  | .ldun f => some (0x91, f)
  | .atom f => some (0x87, f)
  | .atoms f => some (0x88, f)
  | .red f => some (0x89, f)
  | .ldres f => some (0x8A, f)
  | .stcond f => some (0x8B, f)
  | .pref f => some (0x8C, f)
  | .cctlFlush f => some (0x8D, f)
  | .cctlMerge f => some (0x8D, f)
  | .cctlInvw f => some (0x8D, f)
  | .cctlFlushctx f => some (0x8D, f)
  | .membar f => some (0x8E, f)
  | .marm f => some (0x8F, f)
  | .mwait f => some (0x90, f)
  | .cpy f => some (0xA0, f)
  | .cpyt f => some (0xA1, f)
  | .gathq f => some (0xA2, f)
  | .dxq f => some (0xA3, f)
  | .sortq f => some (0xA4, f)
  | .collq f => some (0xA5, f)
  | .launchq f => some (0xA6, f)
  | .batch f => some (0xA7, f)
  | .waitb f => some (0xA8, f)
  | .evpop f => some (0xA9, f)
  | .evwait f => some (0xAA, f)
  | .gslot f => some (0xAB, f)
  | .sync f => some (0xB0, f)
  | .arrive f => some (0xB1, f)
  | .waitbar f => some (0xB2, f)
  | .barqPhase f => some (0xB3, f)
  | .barqPart f => some (0xB3, f)
  | .barqArrd f => some (0xB3, f)
  | .barqSet f => some (0xB3, f)
  | .elect f => some (0xB4, f)
  | .mma f => some (0xC0, f)
  | .mmaq f => some (0xC1, f)
  | .mmasm f => some (0xC2, f)
  | .tzero f => some (0xC3, f)
  | .tld f => some (0xC4, f)
  | .tst f => some (0xC5, f)
  | .tmovTov f => some (0xC6, f)
  | .tmovFromv f => some (0xC6, f)
  | .tmovTt f => some (0xC6, f)
  | .tsideRd f => some (0xC7, f)
  | .tsideWr f => some (0xC7, f)
  | .tsideInit f => some (0xC7, f)
  | .tscalS f => some (0xC8, f)
  | .tscalRow f => some (0xC8, f)
  | .tscalDivl f => some (0xC8, f)
  | .tacc f => some (0xCE, f)
  | .mleaseRd f => some (0xC9, f)
  | .mleaseRel f => some (0xC9, f)
  | .dist f => some (0xCA, f)
  | .dargm f => some (0xCB, f)
  | .dkacc f => some (0xCC, f)
  | .dcnt f => some (0xCD, f)
  | .gsw f => some (0xE0, f)
  | .blend f => some (0xE1, f)
  | .unblend f => some (0xE2, f)
  | .emit f => some (0xE3, f)
  | .maskpk f => some (0xE4, f)
  | .maskun f => some (0xE5, f)
  | .decode f => some (0xE6, f)
  | _ => none

/-- The fields of an instruction word. -/
def fieldsOf (i : Instr) : Option Fields := (head i).map Prod.snd

/-- The form of `SYSW.CTL` for an action (R383). An action that no row names, or that stands in an S register and is
known only at issue, is carried by the first row (log 12). -/
def buildCtl (f : Fields) : Instr :=
  match immVal f.a % 256 with
  | 2 => .syswCtlReadmit f
  | 3 => .syswCtlCancel f
  | 4 => .syswCtlFence f
  | 5 => .syswCtlCkpt f
  | 6 => .syswCtlPlace f
  | 7 => .syswCtlAbort f
  | _ => .syswCtlResume f

/-- The forms of opcode 0x07 by SUB. -/
def buildJoin (f : Fields) : Option Instr :=
  match subN f with
  | 0 => some (.join f)
  | 1 => some (.joinAt f)
  | 2 => some (.joinClr f)
  | _ => none

/-- The forms of opcode 0x0C by SUB. -/
def buildRett (f : Fields) : Option Instr :=
  match subN f with
  | 0 => some (.rett f)
  | 1 => some (.rettKill f)
  | _ => none

/-- The forms of opcode 0x12 by SUB. -/
def buildPreempt (f : Fields) : Option Instr :=
  match subN f with
  | 0 => some (.preemptOffer f)
  | 1 => some (.preemptForce f)
  | _ => none

/-- The forms of opcode 0x13 by SUB. -/
def buildFlushi (f : Fields) : Option Instr :=
  match subN f with
  | 0 => some (.flushiAll f)
  | 1 => some (.flushiLine f)
  | _ => none

/-- The forms of opcode 0x61 by SUB. -/
def buildPmov (f : Fields) : Option Instr :=
  match subN f with
  | 0 => some (.pmovTov f)
  | 1 => some (.pmovFromv f)
  | 2 => some (.pmovPack f)
  | 3 => some (.pmovUnpk f)
  | _ => none

/-- The forms of opcode 0x73 by SUB. -/
def buildQblk (f : Fields) : Option Instr :=
  match subN f with
  | 0 => some (.qblkScale f)
  | 1 => some (.qblkCode f)
  | 2 => some (.qblkSuper f)
  | _ => none

/-- The forms of opcode 0x7A by SUB. -/
def buildFlags (f : Fields) : Option Instr :=
  match subN f with
  | 0 => some (.flagsRd f)
  | 1 => some (.flagsClr f)
  | 2 => some (.flagsSet f)
  | _ => none

/-- The forms of opcode 0x7B by SUB. -/
def buildLscale (f : Fields) : Option Instr :=
  match subN f with
  | 0 => some (.lscaleStep f)
  | 1 => some (.lscaleRd f)
  | 2 => some (.lscaleWr f)
  | _ => none

/-- The forms of opcode 0x8D by SUB. -/
def buildCctl (f : Fields) : Option Instr :=
  match subN f with
  | 0 => some (.cctlFlush f)
  | 1 => some (.cctlMerge f)
  | 2 => some (.cctlInvw f)
  | 3 => some (.cctlFlushctx f)
  | _ => none

/-- The forms of opcode 0xB3 by SUB. -/
def buildBarq (f : Fields) : Option Instr :=
  match subN f with
  | 0 => some (.barqPhase f)
  | 1 => some (.barqPart f)
  | 2 => some (.barqArrd f)
  | 3 => some (.barqSet f)
  | _ => none

/-- The forms of opcode 0xC6 by SUB. -/
def buildTmov (f : Fields) : Option Instr :=
  match subN f with
  | 0 => some (.tmovTov f)
  | 1 => some (.tmovFromv f)
  | 2 => some (.tmovTt f)
  | _ => none

/-- The forms of opcode 0xC7 by SUB. -/
def buildTside (f : Fields) : Option Instr :=
  match subN f with
  | 0 => some (.tsideRd f)
  | 1 => some (.tsideWr f)
  | 2 => some (.tsideInit f)
  | _ => none

/-- The forms of opcode 0xC8 by SUB. -/
def buildTscal (f : Fields) : Option Instr :=
  match subN f with
  | 0 => some (.tscalS f)
  | 1 => some (.tscalRow f)
  | 2 => some (.tscalDivl f)
  | _ => none

/-- The forms of opcode 0xC9 by SUB. -/
def buildMlease (f : Fields) : Option Instr :=
  match subN f with
  | 0 => some (.mleaseRd f)
  | 1 => some (.mleaseRel f)
  | _ => none

/-- The forms of SYSR by DT (R382). -/
def buildSysr (f : Fields) : Option Instr :=
  match dtN f with
  | 0 => some (.sysrReg f)
  | 3 => some (.sysrTbl f)
  | _ => none

/-- The forms of SYSW by DT (R383). -/
def buildSysw (f : Fields) : Option Instr :=
  match dtN f with
  | 0 => some (.syswReg f)
  | 1 => some (.syswTlbi f)
  | 2 => some (.syswReplay f)
  | 3 => some (.syswTbl f)
  | 4 => some (buildCtl f)
  | _ => none

/-- The instruction that an opcode and its fields name: the outer none is an opcode that the map leaves unassigned, the
inner none a reserved SUB or DT of an opcode with several rows. -/
def build (opc : Nat) (f : Fields) : Option (Option Instr) :=
  match opc with
  | 0x01 => some (some (.nop f))
  | 0x02 => some (some (.bra f))
  | 0x03 => some (some (.brx f))
  | 0x04 => some (some (.call f))
  | 0x05 => some (some (.callx f))
  | 0x06 => some (some (.ret f))
  | 0x07 => some (buildJoin f)
  | 0x08 => some (some (.exit f))
  | 0x09 => some (some (.yield f))
  | 0x0A => some (some (.trap f))
  | 0x0B => some (some (.bpt f))
  | 0x0C => some (buildRett f)
  | 0x0D => some (some (.haltt f))
  | 0x0E => some (buildSysr f)
  | 0x0F => some (buildSysw f)
  | 0x12 => some (buildPreempt f)
  | 0x13 => some (buildFlushi f)
  | 0x15 => some (some (.tileq f))
  | 0x10 => some (some (.time f))
  | 0x11 => some (some (.clock f))
  | 0x14 => some (some (.movsr f))
  | 0x20 => some (some (.iadd f))
  | 0x21 => some (some (.isub f))
  | 0x22 => some (some (.imul f))
  | 0x23 => some (some (.imulh f))
  | 0x24 => some (some (.imad f))
  | 0x25 => some (some (.imadw f))
  | 0x26 => some (some (.idiv f))
  | 0x27 => some (some (.irem f))
  | 0x28 => some (some (.iabs f))
  | 0x29 => some (some (.ineg f))
  | 0x2A => some (some (.imin f))
  | 0x2B => some (some (.imax f))
  | 0x2C => some (some (.shl f))
  | 0x2D => some (some (.shr f))
  | 0x2E => some (some (.sar f))
  | 0x2F => some (some (.rot f))
  | 0x30 => some (some (.lop3 f))
  | 0x31 => some (some (.and f))
  | 0x32 => some (some (.or f))
  | 0x33 => some (some (.xor f))
  | 0x34 => some (some (.andn f))
  | 0x35 => some (some (.popc f))
  | 0x36 => some (some (.clz f))
  | 0x37 => some (some (.ctz f))
  | 0x38 => some (some (.brev f))
  | 0x39 => some (some (.bfx f))
  | 0x3A => some (some (.bfi f))
  | 0x3B => some (some (.bilv f))
  | 0x3C => some (some (.bdil f))
  | 0x3D => some (some (.icmp f))
  | 0x3E => some (some (.sel f))
  | 0x3F => some (some (.iaddc f))
  | 0x40 => some (some (.fadd f))
  | 0x41 => some (some (.fsub f))
  | 0x42 => some (some (.fmul f))
  | 0x43 => some (some (.ffma f))
  | 0x44 => some (some (.fmin f))
  | 0x45 => some (some (.fmax f))
  | 0x46 => some (some (.fcmp f))
  | 0x47 => some (some (.fclass f))
  | 0x48 => some (some (.frnd f))
  | 0x49 => some (some (.fdiv f))
  | 0x4A => some (some (.fsqrt f))
  | 0x4B => some (some (.frcp f))
  | 0x4C => some (some (.frsq f))
  | 0x4D => some (some (.fex2 f))
  | 0x4E => some (some (.flg2 f))
  | 0x4F => some (some (.fsin f))
  | 0x50 => some (some (.fcos f))
  | 0x51 => some (some (.ftanh f))
  | 0x52 => some (some (.fscale f))
  | 0x53 => some (some (.ffrx f))
  | 0x54 => some (some (.fdot2 f))
  | 0x60 => some (some (.plop f))
  | 0x61 => some (buildPmov f)
  | 0x62 => some (some (.vote f))
  | 0x63 => some (some (.actm f))
  | 0x64 => some (some (.mov f))
  | 0x65 => some (some (.movi f))
  | 0x66 => some (some (.perm f))
  | 0x67 => some (some (.lred f))
  | 0x68 => some (some (.lscan f))
  | 0x69 => some (some (.matchLanes f))
  | 0x6A => some (some (.tagq f))
  | 0x6B => some (some (.tagg f))
  | 0x6C => some (some (.relv f))
  | 0x70 => some (some (.cvt f))
  | 0x71 => some (some (.pack f))
  | 0x72 => some (some (.unpk f))
  | 0x73 => some (buildQblk f)
  | 0x74 => some (some (.dqblk f))
  | 0x75 => some (some (.setfmt f))
  | 0x76 => some (some (.getfmt f))
  | 0x77 => some (some (.setmode f))
  | 0x78 => some (some (.getmode f))
  | 0x79 => some (some (.setseed f))
  | 0x7A => some (buildFlags f)
  | 0x7B => some (buildLscale f)
  | 0x80 => some (some (.ld f))
  | 0x81 => some (some (.st f))
  | 0x82 => some (some (.lds f))
  | 0x83 => some (some (.sts f))
  | 0x84 => some (some (.ldc f))
  | 0x85 => some (some (.ldl f))
  | 0x86 => some (some (.stl f))
  | 0x91 => some (some (.ldun f))
  | 0x87 => some (some (.atom f))
  | 0x88 => some (some (.atoms f))
  | 0x89 => some (some (.red f))
  | 0x8A => some (some (.ldres f))
  | 0x8B => some (some (.stcond f))
  | 0x8C => some (some (.pref f))
  | 0x8D => some (buildCctl f)
  | 0x8E => some (some (.membar f))
  | 0x8F => some (some (.marm f))
  | 0x90 => some (some (.mwait f))
  | 0xA0 => some (some (.cpy f))
  | 0xA1 => some (some (.cpyt f))
  | 0xA2 => some (some (.gathq f))
  | 0xA3 => some (some (.dxq f))
  | 0xA4 => some (some (.sortq f))
  | 0xA5 => some (some (.collq f))
  | 0xA6 => some (some (.launchq f))
  | 0xA7 => some (some (.batch f))
  | 0xA8 => some (some (.waitb f))
  | 0xA9 => some (some (.evpop f))
  | 0xAA => some (some (.evwait f))
  | 0xAB => some (some (.gslot f))
  | 0xB0 => some (some (.sync f))
  | 0xB1 => some (some (.arrive f))
  | 0xB2 => some (some (.waitbar f))
  | 0xB3 => some (buildBarq f)
  | 0xB4 => some (some (.elect f))
  | 0xC0 => some (some (.mma f))
  | 0xC1 => some (some (.mmaq f))
  | 0xC2 => some (some (.mmasm f))
  | 0xC3 => some (some (.tzero f))
  | 0xC4 => some (some (.tld f))
  | 0xC5 => some (some (.tst f))
  | 0xC6 => some (buildTmov f)
  | 0xC7 => some (buildTside f)
  | 0xC8 => some (buildTscal f)
  | 0xCE => some (some (.tacc f))
  | 0xC9 => some (buildMlease f)
  | 0xCA => some (some (.dist f))
  | 0xCB => some (some (.dargm f))
  | 0xCC => some (some (.dkacc f))
  | 0xCD => some (some (.dcnt f))
  | 0xE0 => some (some (.gsw f))
  | 0xE1 => some (some (.blend f))
  | 0xE2 => some (some (.unblend f))
  | 0xE3 => some (some (.emit f))
  | 0xE4 => some (some (.maskpk f))
  | 0xE5 => some (some (.maskun f))
  | 0xE6 => some (some (.decode f))
  | _ => none

end Sys2Proof.Machine
end

