-- ==== Sys2Proof/Config.lean ====
section
/-! DEFINITION. What an implementation fixes and the free values: constants with no body, of which nothing can be
proved. Each is named in an entry of the assumption log. -/

namespace Sys2Proof

/-- Device time that one step takes, in ns, for the step numbered n (log 2). -/
opaque Config.stepNs : Nat → Nat

/-- Core cycles of a die that one step takes, for step n and the die (log 2). -/
opaque Config.stepCc : Nat → Nat → Nat

/-- Which of several things that may happen next does, for step n: 0 the quarter that issues, 1 an event or an instruction (log 3). -/
opaque Config.choose : Nat → Nat → Nat

/-- Where a cached copy and memory differ and the manual allows either, whether the old copy is used: step number,
and which of the step's choices (log 4; R44, R47, R98, R385). -/
opaque Config.useOld : Nat → Nat → Bool

/-- FLG2 takes the upper of the two neighbours of an inexact result (R164; log 5). -/
opaque Config.flg2Up : W32 → Bool

/-- FRCP takes the upper of the two neighbours of an inexact result (R164; log 5). -/
opaque Config.frcpUp : W32 → Bool

/-- FRSQ's result among the four FP32 values within 2 ulp of an inexact result, from below (R164; log 5). -/
opaque Config.frsqPick : W32 → Fin 4

/-- FTANH's result among the four FP32 values within 2 ulp of an inexact result, from below (R164; log 5). -/
opaque Config.ftanhPick : W32 → Fin 4

/-- FSIN's result, where it meets the bound of R164 (log 5). -/
opaque Config.fsinRaw : W32 → W32

/-- FCOS's result, where it meets the bound of R164 (log 5). -/
opaque Config.fcosRaw : W32 → W32

/-- The Falcon-1024 signature of the report under the device's identity key, padded to 1,280 bytes (R388; log 6). -/
opaque Config.falconSign : List Byte → BitVec 10240

/-- Bytes of the identity public key (R388; log 6). -/
opaque Config.identityKey : List Byte

/-- The measurement of boot stage n, 0 to 3 (R387, R388; log 6). -/
opaque Config.stageMeasurement : Nat → BitVec 512

/-- A value that the manual leaves open once the machine goes on: step number and which value (log 8). -/
opaque Config.openWord : Nat → Nat → W64

/-- A dirty sector is found uncorrectable as it is written back by an eviction: step number and sector (R58; log 57). -/
opaque Config.badAtEviction : Nat → Nat → Bool

/-- The Fenlink port on which the way to a package starts (R298; log 28). -/
opaque Config.route : Nat → Nat

/-- The transmission rate the port takes when it answers congestion: old rate, and the step (R293; log 9). -/
opaque Config.loweredRate : Nat → Nat → Nat

end Sys2Proof
end

