-- ==== Sys2Proof/Machine/State.lean ====
section
/-! DEFINITION. The state of the machine as plain data, the faults and refusals that end a step, and the state after
reset. Every structure names the rules of spec/ that give its fields. Finite maps with a default (cores, tables of
which most entries hold their reset value) are lists of key and value, keys rising. -/

namespace Sys2Proof.Machine

/-- Why the model stops without a next state. -/
inductive Fault where
  /-- Raised by an instruction word whose step has no running split in focus. The step itself never does this: it puts
  the split it picked in focus. Safe: no claim about a running split meets it. -/
  | noSplit
  deriving DecidableEq, Repr

/-- Why the model gives no meaning. -/
inductive Refusal where
  /-- An instruction of the opcode table that has no meaning yet, raised in Dispatch only. -/
  | notModelled (mnemonic : String)
  deriving DecidableEq, Repr

/-! ### Registers -/

/-- A vector register with its shape tag (R122). -/
inductive VReg where
  | uniform (u : W32)
  | affine (b s : W32)
  | general (l : Lanes W32)
  deriving DecidableEq, Repr

/-- A run of registers of one kind (the kind numbers of R15). -/
structure Span where
  kind : Nat
  first : Nat
  len : Nat
  deriving DecidableEq, Repr

/-- A lookahead window: instructions left, and the registers it covers (R21). -/
structure Window where
  left : Nat
  regs : List Span
  deriving DecidableEq, Repr

/-- An entry of the reconvergence stack (R314). -/
structure Entry where
  mode : W32
  fmt : W32
  pmask : Mask
  mask : Mask
  ppc : Nat
  kind : Nat
  prid : Nat
  jpc : Nat
  deriving DecidableEq, Repr

/-- What a group keeps of an outstanding parallel record beside the entries: the split that diverged, and the entries
below the record once that split has ended (R312). -/
structure Diverged where
  owner : Nat
  below : Option (List Entry)
  deriving DecidableEq, Repr

/-- What a resource stall waits for. -/
inductive Resource where
  /-- room in an engine's queue (R68, R256, R354) -/
  | engine (eng place : Nat)
  /-- fewer than 16 closed incomplete batches (R69) -/
  | batches
  /-- room in the matrix queue of a core (R216) -/
  | matrix (core : Nat)
  /-- the array's lease (R215) -/
  | lease (core : Nat)
  /-- a free completion counter (R65) -/
  | counter
  /-- room in the overflow buffer of a core's bank queues (R64) -/
  | banks (core : Nat)
  /-- the group's earlier accesses, those of the matrix engine among them (R110, R217, R277) -/
  | acks
  /-- acknowledgement of the group's earlier stores (R385) -/
  | stores
  /-- an engine's write to an owned line (R52), or bytes the matrix engine has yet to read or write (R217) -/
  | line (key : Nat)
  /-- the completion of every matrix instruction of the group (R203) -/
  | matrixDone
  /-- the end of another thread's hold on a granule (R106) -/
  | hold (granule : Nat)
  /-- the follower array of a twin operation, which accepts nothing else until the operation retires (R214) -/
  | follower (core : Nat)
  deriving DecidableEq, Repr

/-- Why a split is not ready (R315, R351). -/
inductive Wait where
  | ready
  | join
  | rendezvous (i : Instr)
  /-- in WAITB for a batch number, with its contributors -/
  | waitb (n : Nat) (mask : Mask)
  /-- in WAITBAR on a barrier for a phase -/
  | waitbar (b p : Nat)
  | evwait (i : Instr)
  | emit
  /-- in MWAIT: its word, the waiting threads and the device time of its timeout -/
  | mwait (f : Fields) (mask : Mask) (deadline : Option Nat)
  /-- in ARRIVE on a barrier in whose phase the group has arrived already -/
  | arrive (i : Instr) (b p : Nat)
  | xlate (ctx page : Nat)
  | depend (i : Instr)
  | resource (r : Resource)
  deriving DecidableEq, Repr

/-- A split (R308). The stack's top stands first; `burst` and `last` serve R351. -/
structure Split where
  pc : Nat
  mask : Mask
  fmt : W32
  mode : W32
  jr : Nat
  stack : List Entry
  fairness : Nat
  wait : Wait
  windows : List Window
  burst : Nat
  last : Nat
  deriving DecidableEq, Repr

/-- What reaches registers when an access returns: V registers with the lanes written, an S register, a predicate. -/
structure WriteBack where
  v : List (Nat × Mask × Lanes W32)
  s : Option (Nat × W64)
  p : Option (Nat × Mask × Mask)
  uniform : Bool
  deriving DecidableEq, Repr

/-- An access that has been performed and has not returned (R65, R96); `tiles`: the tiles of the slices it is at (R373). -/
structure Outstanding where
  split : Nat
  regs : List Span
  wb : WriteBack
  tiles : List Nat
  deriving DecidableEq, Repr

/-- One of the 8 completion counters (R65): the words of the requests that are left, in their banks' queues or in the overflow
buffer (R64), and what the last one delivers. -/
structure Counter where
  requests : List Nat
  out : Outstanding
  deriving DecidableEq, Repr

/-- What a fault carries into its record or its handler (R356, R360). -/
structure FaultInfo where
  code : Nat
  split : Nat
  scope : Nat
  mask : Mask
  pc : Nat
  addr : Nat
  aux : Nat
  trapNo : Nat
  laneAddr : Lanes W64
  resume : Nat
  deriving DecidableEq, Repr

/-- A fault that an engine command has met and no WAITB has raised (R70). -/
structure EngineFault where
  batch : Nat
  order : Nat
  code : Nat
  pc : Nat
  addr : Nat
  aux : Nat
  scope : Nat
  deriving DecidableEq, Repr

/-- The A latch of a group (R213): the operand it names, its length, format and words, word w of lane l first by
register. -/
structure Latch where
  kind : Nat
  first : Nat
  perm : Perm
  len : Nat
  fmt : Nat
  words : List (Lanes W32)
  deriving DecidableEq, Repr

/-- A group in its trap handler (R359, R360): K0 to K7, K8 to K15, the frozen splits with their parallel records, and the
faulting split. -/
structure Handler where
  kv : Vector (Lanes W32) 8
  ks : Vector W64 8
  frozen : Vector (Option Split) 4
  records : Vector Diverged 4
  split : Nat
  raisedHalt : Bool
  deriving DecidableEq, Repr

/-- A group (R3, R121, R308, R322): identity and limits, registers, scalar-pipeline state, splits, and what it has
outstanding. `exst`: the exit status of an ended group that a fault ended. -/
structure Group where
  index : Nat
  core : Nat
  quarter : Nat
  qslot : Nat
  role : Nat
  roleGrp : Nat
  ceiling : Nat
  gang : Option (Nat × Nat × Nat)
  v : Vector VReg 256
  s : Vector W64 64
  p : Vector Mask 7
  x : Vector (Lanes W32) 32
  flags : W32
  lsr : W64
  seeds : Vector W64 4
  rsr : Vector W64 32
  splits : Vector (Option Split) 4
  records : Vector Diverged 4
  exited : Mask
  ended : Bool
  exst : Option W32
  openBatch : Nat
  engineFaults : List EngineFault
  latch : Option Latch
  handler : Option Handler
  trap : Option FaultInfo
  trapAt : Nat
  halted : Bool
  outstanding : List Outstanding
  counters : Vector (Option Counter) 8
  unacked : Nat
  acking : List (List Nat) := []
  left : Bool := false
  deriving DecidableEq, Repr

/-! ### Teams -/

/-- A guard slot (R71). -/
inductive GuardState where
  | unresolved | isTrue | isFalse
  deriving DecidableEq, Repr

/-- A barrier (R320). -/
structure Barrier where
  phase : Nat
  arrd : Nat
  part : Nat
  deriving DecidableEq, Repr

/-- A team launch record (R346). -/
structure Launch where
  addr : Nat
  code : Nat
  entry : Nat
  gx : Nat
  gy : Nat
  gz : Nat
  param : Nat
  psize : Nat
  groups : Nat
  twin : Bool
  shared : Nat
  tiles : Nat
  lease : Nat
  localB : Nat
  lbase : Nat
  nslot : Nat
  gangs : List Nat
  roles : List (Nat × Nat)
  binds : List (BitVec 256)
  deriving DecidableEq, Repr

/-- What placed a team: a LAUNCH command, a node of a graph command, or a LAUNCHQ command. -/
inductive Origin where
  | command (seq : Nat)
  | node (seq node : Nat)
  | launchq (cmd : Nat)
  deriving DecidableEq, Repr

/-- A resident team (R3, R61, R63, R71, R72, R320, R322, R347): where it stands, its share of the core, its barriers,
guard slots and event ring (the records themselves lie in the system step of the core). -/
structure Team where
  id : Nat
  grid : Nat
  origin : Origin
  seq : Nat
  ctx : Nat
  core : Nat
  slot : Nat
  slot2 : Nat
  launch : Launch
  x : Nat
  y : Nat
  z : Nat
  lin : Nat
  gx : Nat
  gy : Nat
  gz : Nat
  localSlot : Nat
  steps : List Nat
  steps2 : List Nat
  tiles : List Nat
  tiles2 : List Nat
  groups : List Group
  barriers : Vector Barrier 16
  guards : Vector GuardState 16
  ringHead : Nat
  ringCount : Nat
  prologue : Option Nat
  xlate : Option (Nat × Nat)
  placed : Nat
  placedFirst : Nat
  halt : Option (Nat × Nat)
  preempt : Bool
  aborted : Bool
  hollow : Bool := false
  offered : Option Nat := none
  deriving DecidableEq, Repr

/-! ### Cores -/

/-- An accumulator tile (R205). -/
structure Tile where
  data : Vector (Vector W32 64) 64
  m : Vector W32 64
  l : Vector W32 64
  ovf : W32
  ecnt : W64
  deriving DecidableEq, Repr

/-- A cached translation (R43): context, page start, page size exponent and the leaf entry. -/
structure TlbEntry where
  ctx : Nat
  page : Nat
  size : Nat
  leaf : W64
  deriving DecidableEq, Repr

/-- Consecutive bytes of memory as an access finds them: the key of the first, their number, the HOME of their page, and
the byte of the gather window through which the first is read (R42, R47). -/
structure Run where
  first : Nat
  len : Nat
  home : Nat
  window : Option Nat
  deriving DecidableEq, Repr

/-- An instruction that the matrix engine has accepted (R216, R220): who issued it, what it captured at issue, and
whether it runs. `a`: the words of A by row; `live`: the rows that are live; `reads`: the bytes it has yet to read, or to
write for TST; `bytes`: what it read at its start; `second`: it works on the tiles of a twin team's second core; `shadow`: it
is the standing of a twin operation in the queue of the second core (R214). -/
structure MatrixOp where
  team : Nat
  members : List (Nat × Nat)
  leader : Nat
  i : Instr
  mode : W32
  fmt : W32
  seed : W64
  contrib : Mask
  live : Vector Bool 64
  a : List (List W32)
  args : List W64
  tiles : List Nat
  reads : List Run
  writes : List Span
  bytes : List Byte
  running : Bool
  second : Bool
  shadow : Bool
  deriving DecidableEq, Repr

/-- The lease arbiter of a core (R215, R352): the holder with its remaining count and the operations it has had since the
count ran out, and the waiting teams in order of request. -/
structure Lease where
  holder : Option Nat
  left : Nat
  grace : Option Nat
  waiting : List Nat
  deriving DecidableEq, Repr

/-- A core (R43, R60, R66, R98, R205, R215, R216, R331, R385); `since`: its die's cycles at its last reset. -/
structure Core where
  tiles : Vector Tile 16
  pins : Vector W64 4
  tlb1 : List TlbEntry
  tlb2 : List TlbEntry
  l1 : List Nat
  icache : List (Nat × Nat × InsWord)
  ccache : List (Nat × Nat × W32)
  matrix : List MatrixOp
  lease : Lease
  rested : Bool
  since : Nat
  deriving DecidableEq, Repr

/-! ### Engines -/

/-- Where a command of an engine stands: in its queue, started, or ended and waiting to post. -/
inductive Phase where
  | queued | started
  deriving DecidableEq, Repr

/-- Bytes of a collective that have still to leave for another package: the package, their number format as flits carry it, and
the bytes (R298, R300). -/
structure Outgoing where
  pkg : Nat
  nfmt : Nat
  bytes : List Byte
  deriving DecidableEq, Repr

/-- A command of an engine (R68, R71, R114, R431). `place`: the core (copy, gather, decompression) or the die (sort,
collective, launch); `owner`: the issuing team and group, `job` the journalled command, `node` the SORTER node; `xlate`: the
page it waits for, at a context above 255 for a request that a fenced tile will never answer (R373); `written`, `pos`, `block`, `step`: its progress; `buf`: decoded bytes not yet written; `ahead`: bytes of a source word
that a stop fell into, read with its word; `back`: shared bytes held back until their aligned word is whole (R74, R285); `skip`: decoded bytes of the next block that were written
before a save (R75). -/
structure Command where
  id : Nat
  eng : Nat
  place : Nat
  owner : Option (Nat × Nat)
  job : Option Nat
  node : Option (Nat × Nat)
  ctx : Nat
  batch : Nat
  tag : W32
  pc : Nat
  guard : Option Nat
  discarded : Bool
  form : Nat
  args : List W64
  phase : Phase
  saved : Bool
  xlate : Option (Nat × Nat)
  written : Nat
  pos : Nat
  next : Nat
  block : Nat
  step : Nat
  passes : Nat
  buf : List Byte
  last : Bool
  owned : List Nat
  window : Nat
  polling : Bool
  outbox : List Outgoing
  ahead : List (Nat × Byte) := []
  back : List (Nat × Byte) := []
  skip : Nat := 0
  deriving DecidableEq, Repr

/-- An event record waiting in its engine to enter a team's ring (R72, R73). -/
structure Post where
  team : Nat
  eng : Nat
  status : Nat
  tag : W32
  batch : Nat
  aux0 : W64
  aux1 : W64
  deriving DecidableEq, Repr

/-! ### Memory system -/

/-- A line of L2 (R50, R51): valid and dirty sectors, sharer bits, whether it stands in a pinned way (R42), and the step of
its last use, 0 for a line that is to be evicted first (R90). -/
structure L2Line where
  valid0 : Bool
  valid1 : Bool
  dirty0 : Bool
  dirty1 : Bool
  sharers : BitVec 32
  pinned : Bool
  used : Nat
  deriving DecidableEq, Repr

/-- A pending reduction of one word of a Mire entry (R53): operation and type codes of R101, the value of an integer
kind, or the accumulator of ADD.F32. -/
structure MireWord where
  sub : Nat
  dt : Nat
  value : Nat
  acc : Int
  nan : Bool
  pinf : Bool
  ninf : Bool
  allNegZero : Bool
  beyond : Option Bool
  deriving DecidableEq, Repr

/-- A Mire entry (R53): its line, its words by word index, and the contexts that added into it. Entries of a slice
stand in order of their last addition. -/
structure MireEntry where
  slice : Nat
  line : Nat
  words : List (Nat × MireWord)
  ctxs : List Nat
  deriving DecidableEq, Repr

/-- A reservation (R105, R106): its thread, its granule, whether its thread holds other writers off and until when, and
the instructions its thread has issued since LDRES. -/
structure Reservation where
  team : Nat
  group : Nat
  lane : Nat
  split : Nat
  granule : Nat
  hold : Bool
  issued : Nat
  deadline : Nat
  deriving DecidableEq, Repr

/-- A monitor (R112): its thread, its line, the arming core, and its cause once one arose. -/
structure Monitor where
  team : Nat
  group : Nat
  lane : Nat
  line : Nat
  core : Nat
  cause : Option Nat
  deriving DecidableEq, Repr

/-- A write by an agent other than a thread that a hold keeps waiting at the slice, whole (R54, R106): its granules, its
bytes, and the HOME of its page. `merge`: it is the merge of the Mire entry of a line, and whether an eviction caused it; the entry
stays open until then, and its words are what the merge writes. `posts`: it is a fault record of a context, whose FQCOUNT rises once it
is written (R357). -/
structure HeldWrite where
  granules : List Nat
  bytes : List (Nat × Byte)
  home : Nat
  ctx : Nat
  merge : Option (Nat × Bool) := none
  posts : Option Nat := none
  deriving DecidableEq, Repr

/-- The second pieces of a misaligned store (R92), not performed yet: whose they are, and their bytes by key and HOME. -/
structure Piece where
  team : Nat
  group : Nat
  ctx : Nat
  writes : List (Nat × Nat × Byte)
  deriving DecidableEq, Repr

/-- What a split has read of a misaligned load whose second pieces it has still to read (R92): the split and its PC, whether the
pieces read are the lower ones, and by lane its address and the bytes read. -/
structure HalfRead where
  team : Nat
  group : Nat
  split : Nat
  pc : Nat
  lower : Bool
  reads : List (Nat × Nat × List Byte)
  deriving DecidableEq, Repr

/-! ### Scheduling -/

/-- A user queue as the scheduler holds it (R338 to R340): the WRPTR of its last doorbell, since when it waits for a slot,
what the last take still owes (2: the tag bit and the consumed word; 1: the consumed word), and the page it waits for. -/
structure Queue where
  wrptr : Nat
  since : Nat
  owes : Nat
  xlate : Option (Nat × Nat)
  deriving DecidableEq, Repr

/-- A hardware slot (R340): its queue, since when, whether its queue is being displaced, and the free units of the save
pool when a displacement last found it too small (R365). -/
structure Slot where
  queue : Nat
  since : Nat
  displacing : Bool
  refused : Option Nat
  deriving DecidableEq, Repr

/-- A taken command (R341, R344): what its record says, and where it stands; `written`: the completion writes done. -/
structure Job where
  seq : Nat
  queue : Nat
  ctx : Nat
  kind : Nat
  ridx : Nat
  tag : Nat
  arg : W64
  sigaddr : Nat
  sigval : W64
  accept : Nat
  start : Nat
  started : Bool
  ended : Bool
  faulted : Bool
  status : Nat
  written : Nat
  deriving DecidableEq, Repr

/-- A grid being placed and run (R247, R349, R354): the next linear index and the one past the last, the batch of a
queue-fed node's team (its number, records and first position), the linear indices below which every team has ended in
count, and the faulted groups. Each batch of a queue-fed node is a grid of its own. -/
structure Grid where
  id : Nat
  seq : Nat
  origin : Origin
  ctx : Nat
  launch : Launch
  next : Nat
  total : Nat
  handed : List (Nat × Nat × Nat)
  ended : Nat
  faults : Nat
  deriving DecidableEq, Repr

/-- Positions of a record queue that a producer has reserved and COMMIT has not passed (R246): the first, how many, whether
their records are written, and the split whose EMIT is still to write them (R269). -/
structure Reserved where
  first : Nat
  count : Nat
  written : Bool
  owner : Option Who
  deriving DecidableEq, Repr

/-- An edge of a work graph (R243, R245): its header address, its ends, the records committed, and the reservations that
COMMIT has not passed, oldest first. -/
structure Edge where
  queue : Nat
  src : Nat
  dst : Nat
  rsize : Nat
  cap : Nat
  base : Nat
  committed : Nat
  pending : List Reserved
  deriving DecidableEq, Repr

/-- A node of a work graph (R243, R247, R248): its descriptor, its launch or configuration record as read at the graph's
start, where it stands, the records taken from its input, the batches handed out (for BINNER, one more than the keys
committed of a record that stalled), whether the statistics of a BINNER have been set to 0, the page it waits for, and the die that its
work runs on once it has started (R437). -/
structure Node where
  kind : Nat
  target : Nat
  batch : Nat
  launch : Option Launch
  config : List Byte
  started : Bool
  finished : Bool
  failed : Bool
  taken : Nat
  batches : Nat
  cleared : Bool
  xlate : Option (Nat × Nat)
  die : Option Nat := none
  deriving DecidableEq, Repr

/-- A running work graph (R243). -/
structure Graph where
  seq : Nat
  ctx : Nat
  nodes : List Node
  edges : List Edge
  deriving DecidableEq, Repr

/-- A saved team (R365, R368): its area's physical address and units, the team as it stood, of which a resume reads from
the area all that the area holds. -/
structure SavedTeam where
  id : Nat
  area : Nat
  units : Nat
  seq : Nat
  ctx : Nat
  team : Team
  deriving DecidableEq, Repr

/-! ### Links, neighbours and the host -/

/-- A data flit sent and not acknowledged (R299): its sequence number, the engine command whose data it carries, its channel
and number format, its payload before any coding, and the flit as it was sent. -/
structure Sent where
  seq : Nat
  cmd : Option Nat
  chan : Nat
  nfmt : Nat
  raw : List Byte
  flit : List Byte
  deriving DecidableEq, Repr

/-- A Fenlink port (R298 to R301): the last sequence numbers sent and received in order, the flits sent and not acknowledged,
oldest first, the consecutive resends of the first of them, since when it waits, whether it has sent a NAK, retrains or is
lost, the exponent tables by channel and format, the hop count of the neighbour's last gust, and the bytes of peers' reads that have not left. -/
structure Port where
  txSeq : Nat
  rxSeq : Nat
  replay : List Sent
  resends : Nat
  since : Nat
  nakSent : Bool
  retraining : Bool
  lost : Bool
  encode : List (Nat × List Nat)
  decode : List (Nat × List Nat)
  hops : Option Nat
  answers : List (List Byte) := []
  deriving DecidableEq, Repr

/-- A tile's standing (R374, R386). -/
inductive TileStatus where
  | live | testing | appealing | retired
  deriving DecidableEq, Repr

/-- A tile as the package sees it: its standing, the device times of its fences, newest first, whether it has a pending
ORPHAN deadline, and its gust sequence number. -/
structure TileHealth where
  status : TileStatus
  fences : List Nat
  orphans : Bool
  gseq : Nat
  deriving DecidableEq, Repr

/-- A vote state (R371). -/
inductive VoteState where
  | trust | suspect | voted | fenced
  deriving DecidableEq, Repr

/-- What a tile holds about one neighbour (R370 to R372): among it the DEMAND of each of its last 16 gusts, newest first, and whether
its injection was above 95 % in the last window. -/
structure Watch where
  vote : VoteState
  missed : Nat
  malformed : Nat
  seq : Option Nat
  good : Nat
  votes : List Nat
  demands : List Nat := []
  hot : Bool := false
  deriving DecidableEq, Repr

/-- A message of an RDMA WRITE whose first packet has come and whose last has not (R293): its rkey, the offset of its next byte, the
bytes left, and the bytes that have come of an aligned block of 16 that goes on in the next packet (R287; log 46). -/
structure Underway where
  rkey : W32
  next : Nat
  left : Nat
  tail : List Byte := []
  deriving DecidableEq, Repr

/-- A queue pair of the host port (R293): whether it is open or in error, its rate in Mbit/s, its path MTU, and the message under
way. -/
structure QueuePair where
  open_ : Bool
  error : Bool
  rate : Nat
  mtu : Nat
  message : Option Underway
  deriving DecidableEq, Repr

/-- A window of a peer's engine command's destination that the home slices have taken for it (R52, R288): the port and the command,
the window, and the lines that it has still to write, each with the bytes left. -/
structure PeerWindow where
  port : Nat
  cmd : Nat
  window : Nat
  lines : List (Nat × Nat)
  deriving DecidableEq, Repr

/-- An exchange of the end-to-end delay mechanism (R301): when the master's Sync left it, when it came here, and when the delay
request left here. -/
structure Exchange where
  sent : Nat
  came : Nat
  asked : Nat
  deriving DecidableEq, Repr

/-- What leaves the device. -/
inductive Output where
  | rdmaAck (qp : Nat)
  | rdmaData (qp : Nat) (data : List Byte)
  | nakInvalidRequest (qp : Nat)
  | nakRemoteAccess (qp : Nat)
  | nakRemoteOperational (qp : Nat)
  | connectionAccepted (qp : Nat)
  | connectionRefused
  | managementDone
  | managementRefused
  | attestation (report : List Byte)
  | flit (port : Nat) (bytes : List Byte)
  | gust (tile : Nat) (dir : Dir) (bits : BitVec 128)
  | cnp (qp : Nat)
  | delayRequest
  | delivered (port chan nfmt : Nat) (data : List Byte)
  | remoteWrite (pkg va : Nat) (ctx : Nat) (data : List Byte)
  deriving DecidableEq, Repr

/-- The power and time state of a die (R389), its core cycles since the device's reset (R331) and its live-slice map (R49). -/
structure Die where
  mhz : Nat
  cc : Nat
  hot : Bool
  sliceMap : Vector (BitVec 16) 512
  tlb : List TlbEntry
  touch : BitVec 256
  deriving DecidableEq, Repr

/-- The system registers of R381 that hold a value of their own. -/
structure SysRegs where
  pkgnum : W64
  ctxtab : W64
  qtab : W64
  jbase : W64
  savebase : W64
  savesize : W64
  savefull : Nat
  hbmce : Vector Nat 12
  fqcount : List (Nat × Nat)
  fqdrop : List (Nat × Nat)
  pinmiss : List (Nat × Nat)
  mepis : List (Nat × Nat)
  mevic : List (Nat × Nat)
  deriving DecidableEq, Repr

/-- The machine. `tick` numbers the steps and picks the free values; `time` is device time in ns and `slew` what it still
has to be corrected by (R301); `exchange` is the one under way with a master of IEEE 1588, and `disciplined` says that one has been heard; `peers`: what peer
packages' commands own here; `agenda` holds the events that reach the
machine from outside and the vote gusts on the mesh, oldest first; `focus` is the split in whose turn a word runs. -/
structure State where
  tick : Nat
  time : Nat
  slew : Int
  locked : Bool
  exchange : Option Exchange
  disciplined : Bool
  vlanData : Nat
  vlanMgmt : Nat
  booted : Bool
  recovery : Bool
  agenda : List Instr
  focus : Who
  mem : List Host.Cell
  poison : List (Nat × Nat)
  badCheck : List Nat
  l2 : List (Nat × L2Line)
  mire : List MireEntry
  windowLines : List (Nat × List (Option Byte))
  reservations : List Reservation
  monitors : List Monitor
  heldWrites : List HeldWrite
  secondPieces : List Piece
  halves : List HalfRead
  sys : SysRegs
  patterns : Vector (BitVec 128) 64
  collGroups : Vector (BitVec 128) 64
  regions : List (Nat × BitVec 128)
  dies : Vector Die 2
  cores : List (Nat × Core)
  teams : List Team
  nextTeam : Nat
  commands : List Command
  nextCommand : Nat
  posts : List Post
  xlates : List (Nat × Nat)
  bells : List Nat
  queues : List (Nat × Queue)
  slots : Vector (Option Slot) 64
  jobs : List Job
  nextSeq : Nat
  grids : List Grid
  nextGrid : Nat
  graphs : List Graph
  saved : List SavedTeam
  ports : Vector Port 16
  peers : List PeerWindow
  qps : Vector QueuePair 64
  tiles : List (Nat × TileHealth)
  watches : List (Nat × Watch)
  out : List Output
  deriving DecidableEq, Repr

/-! ### Reset -/

/-- FMT at group start: AFMT = BFMT = 3 (R132). -/
def fmtReset : W32 := 0x303#32
/-- MODE at group start: RM = RNE (R133). -/
def modeReset : W32 := 1#32
/-- JR meaning none (R308). -/
def noJoin : Nat := 0xFFFFFFFFFFFFFF

/-- A tile as it is given to a team (R205). -/
def Tile.fresh : Tile :=
  { data := Vector.replicate 64 (Vector.replicate 64 0), m := Vector.replicate 64 0xFF800000#32,
    l := Vector.replicate 64 0, ovf := 0, ecnt := 0 }

/-- A core after its reset (R66, R205, R390). -/
def Core.fresh : Core :=
  { tiles := Vector.replicate 16 Tile.fresh, pins := Vector.replicate 4 0, tlb1 := [], tlb2 := [], l1 := [],
    icache := [], ccache := [], matrix := [], lease := { holder := none, left := 0, grace := none, waiting := [] },
    rested := false, since := 0 }

/-- A die after reset: 2.5 GHz (R1), identity live-slice map (R49), no touch bit. -/
def Die.fresh : Die :=
  { mhz := 2500, cc := 0, hot := false, sliceMap := tab 512 (fun i => BitVec.ofNat 16 i), tlb := [], touch := 0 }

/-- A port with nothing sent or received (R298). -/
def Port.fresh : Port :=
  { txSeq := 0, rxSeq := 0, replay := [], resends := 0, since := 0, nakSent := false, retraining := false, lost := false,
    encode := [], decode := [], hops := none }

/-- A queue pair that is not set up (R293). -/
def QueuePair.fresh : QueuePair := { open_ := false, error := false, rate := 0, mtu := 1024, message := none }

/-- A tile that has never been fenced. -/
def TileHealth.fresh : TileHealth := { status := .live, fences := [], orphans := false, gseq := 0 }

/-- A neighbour in TRUST with nothing seen. -/
def Watch.fresh : Watch := { vote := .trust, missed := 0, malformed := 0, seq := none, good := 0, votes := [] }

/-- A line that L2 does not hold. -/
def L2Line.absent : L2Line :=
  { valid0 := false, valid1 := false, dirty0 := false, dirty1 := false, sharers := 0, pinned := false, used := 0 }

/-- A queue that has never rung. -/
def Queue.fresh : Queue := { wrptr := 0, since := 0, owes := 0, xlate := none }

/-- The system registers at reset (R381). -/
def SysRegs.reset : SysRegs :=
  { pkgnum := 0, ctxtab := 0, qtab := 0, jbase := 0, savebase := 0, savesize := 0, savefull := 0,
    hbmce := Vector.replicate 12 0, fqcount := [], fqdrop := [], pinmiss := [], mepis := [], mevic := [] }

/-- The machine right after power-on and before bring-up (R387, R390): memory lists nothing, every table holds its
reset value, no team, no command. -/
def State.reset : State :=
  { tick := 0, time := 0, slew := 0, locked := false, exchange := none, disciplined := false, vlanData := 0, vlanMgmt := 0, booted := false, recovery := false, agenda := [],
    focus := { team := 0, group := 0, split := 0 }, mem := [], poison := [], badCheck := [], l2 := [], mire := [],
    windowLines := [], reservations := [], monitors := [], heldWrites := [], secondPieces := [], halves := [], sys := SysRegs.reset,
    patterns := Vector.replicate 64 0, collGroups := Vector.replicate 64 0, regions := [],
    dies := Vector.replicate 2 Die.fresh, cores := [], teams := [], nextTeam := 1, commands := [], nextCommand := 0,
    posts := [], xlates := [], bells := [], queues := [], slots := Vector.replicate 64 none, jobs := [],
    nextSeq := 0, grids := [], nextGrid := 1, graphs := [], saved := [], ports := Vector.replicate 16 Port.fresh,
    peers := [], qps := Vector.replicate 64 QueuePair.fresh, tiles := [], watches := [], out := [] }

end Sys2Proof.Machine
end

