-- ==== Sys2Proof/Machine/Memory.lean ====
section
/-! DEFINITION. Memory and translation (spec/02_memory_and_translation.md R33 to R58): the byte store, the homes of
lines, the page walk with its checks, the TLBs, gather windows, Mire, and what one write to memory does. -/

namespace Sys2Proof.Machine

/-! ### The byte store -/

/-- What a byte that nothing has written reads as: zero, by the zero fill of R35 (core SRAM: log 10). -/
def unlisted : Byte := 0

/-- One byte. -/
def Memory.get : List Host.Cell → Nat → Byte
  | [], _ => unlisted
  | (k, b) :: m, a => if k = a then b else if a < k then unlisted else Memory.get m a

/-- The store with one byte changed, in canonical form. -/
def Memory.set : List Host.Cell → Nat → Byte → List Host.Cell
  | [], a, b => if b = unlisted then [] else [(a, b)]
  | (k, c) :: m, a, b =>
    if k < a then (k, c) :: Memory.set m a b
    else if k = a then (if b = unlisted then m else (a, b) :: m)
    else if b = unlisted then (k, c) :: m else (a, b) :: (k, c) :: m

/-- Every address of the list lies above n and rises, and no byte equals an unlisted one. -/
def Memory.above : Option Nat → List Host.Cell → Bool
  | _, [] => true
  | n, (k, b) :: m => (match n with
    | none => true
    | some x => decide (x < k)) && b != unlisted && Memory.above (some k) m

/-- The canonical form: addresses rise, no entry reads as an unlisted address does. -/
def Memory.wf (m : List Host.Cell) : Bool := Memory.above none m

/-- First address that names no HBM (R33). -/
def hbmEnd : Nat := 0xC000000000
/-- First address of die 1 (R33). -/
def die1Base : Nat := 0x6000000000
/-- Key of byte a of the SRAM of a core (0 to 511); SRAM stands above the physical addresses of HBM. -/
def sramKey (core a : Nat) : Nat := 2 ^ 40 + core * 2 ^ 20 + a

/-- The bytes at keys. -/
def State.peek (s : State) (keys : List Nat) : List Byte := keys.map (Memory.get s.mem)
/-- n consecutive bytes from a key. -/
def State.bytesAt (s : State) (key n : Nat) : List Byte := s.peek ((List.range n).map (key + ·))
/-- The little-endian value of n bytes. -/
def State.load (s : State) (key n : Nat) : Nat := leNat (s.bytesAt key n)
/-- Bytes stored without any effect beside memory. -/
def pokeAll (m : List Host.Cell) (kvs : List (Nat × Byte)) : List Host.Cell :=
  kvs.foldl (fun m kv => Memory.set m kv.1 kv.2) m
def State.poke (s : State) (kvs : List (Nat × Byte)) : State := { s with mem := pokeAll s.mem kvs }

/-- The keys from a first one paired with bytes. -/
def keyed (key : Nat) (bs : List Byte) : List (Nat × Byte) := ((List.range bs.length).map (key + ·)).zip bs

/-! ### Cores, dies, slices -/

def State.core (s : State) (c : Nat) : Core := (assoc c s.cores).getD Core.fresh
def State.setCore (s : State) (c : Nat) (x : Core) : State := { s with cores := assocSet c x s.cores }
def State.die (s : State) (d : Nat) : Die := nth s.dies d Die.fresh
def State.setDie (s : State) (d : Nat) (x : Die) : State := { s with dies := put s.dies d x }
/-- Die and tile of a core or tile number (die << 8 | tile). -/
def dieOf (c : Nat) : Nat := c / 256
/-- Core cycles since a core's last reset (R331). -/
def State.clock (s : State) (core : Nat) : Nat := (s.die (dieOf core)).cc - (s.core core).since
def State.tileHealth (s : State) (t : Nat) : TileHealth := (assoc t s.tiles).getD TileHealth.fresh
/-- A core in the live map (R349, R363, R373). -/
def State.coreLive (s : State) (c : Nat) : Bool := (s.tileHealth c).status == .live && !(s.core c).rested
/-- A tile that is fenced or retired (R42). -/
def State.fenced (s : State) (t : Nat) : Bool := (s.tileHealth t).status != .live

def lineOf (key : Nat) : Nat := key / 128
def sectorOf (key : Nat) : Nat := key / 64
/-- Die that owns a key (R33). -/
def keyDie (key : Nat) : Nat := if key < hbmEnd then (if key < die1Base then 0 else 1) else (key - 2 ^ 40) / 2 ^ 28
/-- Home slice of a physical address, die << 9 | slice (R49). -/
def State.sliceOf (s : State) (pa : Nat) : Nat :=
  let h := bits pa 15 7 ^^^ bits pa 24 16 ^^^ bits pa 33 25 ^^^ bits pa 39 34
  let d := keyDie pa
  d * 512 + (nth (s.die d).sliceMap h 0).toNat
/-- The number under which L2 and L1 hold line w of the gather windows (a line of `windowLines`), above those of every key. -/
def windowTag (w : Nat) : Nat := 2 ^ 40 + w
/-- The physical address by which L2 finds a line: its own, and for a line of a gather window the source frame with the offset in the
window (log 59). -/
def indexOf (line : Nat) : Nat :=
  if line < 2 ^ 40 then line * 128 else (line - 2 ^ 40) * 128 / 2 ^ 30 / 64 * 4096 + (line - 2 ^ 40) * 128 % 2 ^ 30
/-- The slice of a line that L2 holds (R49). -/
def State.lineSlice (s : State) (line : Nat) : Nat := s.sliceOf (indexOf line)
/-- The set of a line in its slice; the manual gives no index (log 11). -/
def lineSet (line : Nat) : Nat := indexOf line / 65536 % 128

/-! ### L2, L1 and the directory (R50, R51) -/

def State.l2Line (s : State) (line : Nat) : L2Line := (assoc line s.l2).getD L2Line.absent

/-- Bit of a core in a sharer vector: one per 16 cores (R51). -/
def sharerBit (core : Nat) : BitVec 32 := BitVec.ofNat 32 (2 ^ (core / 16))

def setValid (l : L2Line) (sector : Nat) (dirty : Bool) : L2Line :=
  if sector % 2 = 0 then { l with valid0 := true, dirty0 := l.dirty0 || dirty }
  else { l with valid1 := true, dirty1 := l.dirty1 || dirty }

/-- Pinned ways in use in a line's set (R42). -/
def State.pinnedIn (s : State) (line : Nat) : Nat :=
  (s.l2.filter fun e => e.2.pinned && lineSet e.1 == lineSet line && s.lineSlice e.1 == s.lineSlice line).length

/-- A counter of a finite map raised by one; it stops at 2^64 - 1 (R381). -/
def bump (k : Nat) (m : List (Nat × Nat)) : List (Nat × Nat) :=
  assocSet k (min ((assoc k m).getD 0 + 1) (2 ^ 64 - 1)) m

/-- Keep one of each. -/
def dedup (l : List Nat) : List Nat := l.foldl (fun acc x => if acc.contains x then acc else acc ++ [x]) []

/-- Lines and sectors of keys, each once. -/
def linesOf (keys : List Nat) : List Nat := dedup (keys.map lineOf)
def sectorsOf (keys : List Nat) : List Nat := dedup (keys.map sectorOf)

/-- The line leaves every L1 (R50). -/
def State.dropL1 (s : State) (line : Nat) : State :=
  { s with
    cores := s.cores.map fun c => (c.1, { c.2 with l1 := c.2.l1.filter (· != line) }),
    l2 := if (assoc line s.l2).isSome then assocSet line { s.l2Line line with sharers := 0 } s.l2 else s.l2 }

/-- A line leaves L2 with its directory entry and its L1 copies, its dirty sectors written back; one that is found
uncorrectable is written with a poison mark that names the context of the access (R50, R58; log 57). The bytes of a window line go
with it (R47). -/
def State.evict (s : State) (ctx line : Nat) : State :=
  let l := s.l2Line line
  let dirty := (if l.dirty0 then [2 * line] else []) ++ (if l.dirty1 then [2 * line + 1] else [])
  let bad := dirty.filter fun sec => Config.badAtEviction s.tick sec && s.poison.all fun p => p.1 != sec
  let s := s.dropL1 line
  { s with
    poison := s.poison ++ bad.map fun sec => (sec, ctx)
    l2 := s.l2.filter fun e => e.1 != line
    windowLines := if 2 ^ 40 ≤ line then s.windowLines.filter fun w => windowTag w.1 != line else s.windowLines }

/-- The line of a list that was used longest ago, the first of several. -/
def oldestLine : List (Nat × L2Line) → Option Nat
  | [] => none
  | x :: xs => some (xs.foldl (fun (m : Nat × L2Line) y => if y.2.used < m.2.used then y else m) x).1

/-- Room for a line among the 16 ways of its set: the way that was used longest ago among those that are not pinned is
evicted (R50; log 11). -/
def State.makeWay (s : State) (ctx line : Nat) : State :=
  let set := s.l2.filter fun e => lineSet e.1 == lineSet line && s.lineSlice e.1 == s.lineSlice line
  if set.length < 16 then s
  else match oldestLine (set.filter fun e => !e.2.pinned) with
    | some x => s.evict ctx x
    | none => s

/-- Sectors of a line taken into its home slice for one access to a page of the given HOME; a HOME 10 line finds a pinned
way or counts PINMISS and is served uncached, as HOME 11 (R42, R50). -/
def State.installLine (s : State) (ctx home line : Nat) (secs : List Nat) (dirty : Bool) : State :=
  let l := s.l2Line line
  if home = 2 && !l.pinned && decide (8 ≤ s.pinnedIn line) then
    { s with sys := { s.sys with pinmiss := bump (s.lineSlice line) s.sys.pinmiss } }
  else
    let s := if (assoc line s.l2).isSome then s else s.makeWay ctx line
    let l := secs.foldl (fun l sec => setValid l sec dirty) l
    { s with l2 := assocSet line { l with pinned := l.pinned || home == 2, used := s.tick } s.l2 }

/-- The lines of keys taken into their home slices for one access (R42, R50). -/
def State.install (s : State) (ctx home : Nat) (keys : List Nat) (dirty : Bool) : State :=
  if home = 1 || home = 3 then s
  else
    let keys := keys.filter (· < hbmEnd)
    let secs := sectorsOf keys
    (linesOf keys).foldl (fun s line => s.installLine ctx home line (secs.filter fun x => x / 2 == line) dirty) s

/-- The context's bit of the die's touch vector is set, as it dirties a sector of a slice or opens a Mire entry there (R373). -/
def State.touch (s : State) (ctx key : Nat) : State :=
  if hbmEnd ≤ key then s
  else
    let d := keyDie key
    let x := s.die d
    s.setDie d { x with touch := x.touch ||| BitVec.ofNat 256 (2 ^ (ctx % 256)) }

/-- Steps of a core's SRAM that are left to L1: those below step 15 that pin no page and hold no team's shared memory
(R61, R62, R66). -/
def State.l1Steps (s : State) (core : Nat) : Nat :=
  let pinned := ((s.core core).pins.toList.filter fun p => p.getLsbD 63).length
  let shared := s.teams.foldl (fun n t => n + (if t.core = core then t.steps.length else 0) +
    (if t.launch.twin && t.core + 1 = core then t.steps2.length else 0)) 0
  15 - pinned - shared

/-- A line that L2 holds enters the L1 of a core, where the line used longest ago gives way; with no step left loads bypass L1, and
so they do at a line that L2 does not hold: one served as HOME 11, or one that the same access has evicted (R42, R50, R51, R62;
log 11). -/
def State.addL1 (s : State) (core line : Nat) : State :=
  let c := s.core core
  let room := 512 * s.l1Steps core
  if room = 0 || (assoc line s.l2).isNone then s else
  let s := s.setCore core { c with l1 := (line :: c.l1.filter (· != line)).take room }
  { s with l2 := assocSet line { s.l2Line line with sharers := (s.l2Line line).sharers ||| sharerBit core } s.l2 }

/-- Lines of an access with policy `.STRM` become the first to be evicted, in the core's L1 and in L2 (R90). -/
def State.streamLines (s : State) (core : Nat) (lines : List Nat) : State :=
  let c := s.core core
  let s := s.setCore core { c with l1 := c.l1.filter (fun x => !lines.contains x) ++ c.l1.filter fun x => lines.contains x }
  { s with l2 := s.l2.map fun e => if lines.contains e.1 then (e.1, { e.2 with used := 0 }) else e }

/-- The cache policy of a load or store of lines once it has been served: `.STRM` marks them, and `.LU` drops the core's L1
copies (R90). -/
def State.policy (s : State) (core sub : Nat) (lines : List Nat) : State :=
  if sub = 1 then s.streamLines core lines
  else if sub = 3 then
    s.setCore core { s.core core with l1 := (s.core core).l1.filter fun x => !lines.contains x }
  else s

/-- A core keeps its own L1 copies of the lines that its store has written, as L1 is written through: the store invalidates every
other copy (R50). `old`: the machine before the store. -/
def State.keepL1 (s old : State) (core : Nat) (lines : List Nat) : State :=
  let mine := (old.core core).l1
  let kept := lines.filter fun x => mine.contains x && (assoc x s.l2).isSome
  let s := s.setCore core { s.core core with l1 := mine.filter fun x => (s.core core).l1.contains x || kept.contains x }
  { s with l2 := s.l2.map fun e => if kept.contains e.1 then (e.1, { e.2 with sharers := e.2.sharers ||| sharerBit core }) else e }

/-! ### The context table and the page walk -/

/-- The 64-byte entry of a context (R337). -/
def State.ctxEntry (s : State) (ctx : Nat) : Nat := s.load (s.sys.ctxtab.toNat % 2 ^ 40 + 64 * ctx) 64
def State.ctxValid (s : State) (ctx : Nat) : Bool := bit (s.ctxEntry ctx) 0
def State.handler (s : State) (ctx : Nat) : Nat := bits (s.ctxEntry ctx) 319 256

/-- What a walk finds (R41). -/
inductive Walk where
  | leaf (at_ entry shift : Nat)
  | xlate
  | bad
  deriving DecidableEq, Repr

/-- Page frame of an entry. -/
def frameOf (e : Nat) : Nat := bits e 39 12 * 4096
def leafHome (e : Nat) : Nat := bits e 56 55
def leafGather (e : Nat) : Bool := bit e 57

/-- The entry is malformed at a level whose page is 2^shift bytes (R41). -/
def malformed (e shift : Nat) : Bool :=
  let leaf := bit e 1
  bits e 45 40 != 0 || bits e 11 7 != 0 || (leaf && shift == 39) || (!leaf && shift == 16) ||
    (!leaf && (bits e 63 46 != 0 || bits e 6 2 != 0)) || decide (hbmEnd ≤ frameOf e) ||
    (leaf && !leafGather e && frameOf e % 2 ^ shift != 0) || (leafGather e && (bit e 3 || bit e 4)) ||
    (!leafGather e && bits e 63 58 != 0) || (leafHome e == 1 && shift != 16) ||
    (leafHome e != 1 && bits e 54 46 != 0)

/-- The walk from a table through the levels given by their shifts (R39, R41). -/
def walkFrom (s : State) (va : Nat) : Nat → List Nat → Walk
  | _, [] => .bad
  | table, shift :: rest =>
    let idx := va / 2 ^ shift % (if shift = 16 then 32 else 512)
    let at_ := table + 8 * idx
    let e := s.load at_ 8
    if !bit e 0 then .xlate
    else if malformed e shift then .bad
    else if bit e 1 then .leaf at_ e shift
    else walkFrom s va (frameOf e) rest

/-- The page walk of a context (R38, R39). A ROOT at or above the end of HBM names tables of zeros, so that the walk ends without
a translation (log 67). -/
def State.walk (s : State) (ctx va : Nat) : Walk :=
  let x := bits (s.ctxEntry ctx) 63 0
  if !bit x 0 then .xlate else walkFrom s va (frameOf x) [39, 30, 21, 16]

/-- An access that writes. -/
def writesTo : Access → Bool
  | .write => true
  | .readWrite => true
  | _ => false

/-- The permission an access needs (R41). -/
def permits (e : Nat) : Access → Bool
  | .read => bit e 2
  | .write => bit e 3
  | .readWrite => bit e 2 && bit e 3
  | .fetch => bit e 4

/-- What one address meets instead of its access: a program fault with its code and aux, a translation fault at a virtual
address, a machine check at a key, a wait of the page walk, or a fenced tile, whose TILEFENCED is a machine check (R355). -/
inductive MemFault where
  | prog (code aux : Nat)
  | xlate (va : Nat)
  | check (code key : Nat)
  | busy (r : Resource)
  | fenced
  deriving DecidableEq, Repr

/-- What an access of two parts meets: a program fault of either comes before what is no program fault, and otherwise the first part
speaks; TILEFENCED arises as the access is performed, after every translation (R91). -/
def MemFault.over (x y : MemFault) : MemFault :=
  match x, y with
  | .prog c a, _ => .prog c a
  | _, .prog c a => .prog c a
  | .fenced, y => y
  | x, _ => x

/-- The places of two parts, or what they meet. -/
def joinParts {α : Type} : Except MemFault (List α) → Except MemFault (List α) → Except MemFault (List α)
  | .ok l, .ok m => .ok (l ++ m)
  | .error x, .error y => .error (x.over y)
  | .error x, .ok _ => .error x
  | .ok _, .error y => .error y

def codeADDRBAD : Nat := 0x0C
def codePERM : Nat := 0x09
def codeGATHER : Nat := 0x0B
def codeXLATE : Nat := 0x0A
def codeMISALIGN : Nat := 0x08
def codeTILEFENCED : Nat := 0x44

/-- The TLBs that a core's access looks in: its own two, then its die's (R43). -/
def State.cached (s : State) (core ctx va : Nat) : Option TlbEntry :=
  let c := s.core core
  (c.tlb1 ++ c.tlb2 ++ (s.die (dieOf core)).tlb).find? fun t => t.ctx == ctx && va / 2 ^ t.size == t.page / 2 ^ t.size

/-- A translation joins the TLBs of the core and its die (R43). -/
def State.installTlb (s : State) (core ctx va size : Nat) (leaf : Nat) : State :=
  let t : TlbEntry := { ctx := ctx, page := va / 2 ^ size * 2 ^ size, size := size, leaf := BitVec.ofNat 64 leaf }
  let add := fun n (l : List TlbEntry) =>
    (t :: l.filter fun u => !(u.ctx == ctx && u.page == t.page && u.size == size)).take n
  let c := s.core core
  let s := s.setCore core { c with tlb1 := add 64 c.tlb1, tlb2 := add 1024 c.tlb2 }
  let d := s.die (dieOf core)
  s.setDie (dieOf core) { d with tlb := add 16384 d.tlb }

/-! ### Check values and poison (R56 to R58) -/

/-- The check value that a sector carries: the CRC-32C of its bytes, formed at its last ingress or write merge; of a sector
in `badCheck` it is another value, which no rule names (R56, R57). -/
def State.checkValue (s : State) (sector : Nat) : Option Nat :=
  if s.badCheck.contains sector then none else some (crc32c (s.bytesAt (sector * 64) 64))

/-- The machine check that reading a sector meets: POISON, or DATACHK where its check value is not that of its bytes. -/
def State.sectorCheck (s : State) (sector : Nat) : Option Nat :=
  if s.poison.any fun q => q.1 == sector then some 0x42
  else if (s.checkValue sector).isNone then some 0x41 else none

/-! ### What a write does beside its bytes -/

/-- A thread of a team. -/
structure Thread where
  team : Nat
  group : Nat
  lane : Nat
  deriving DecidableEq, Repr

/-- Reservations on written granules end (R105, R113). -/
def dropReservations (rs : List Reservation) (granules : List Nat) : List Reservation :=
  rs.filter fun r => !granules.contains r.granule

/-- Monitors on written lines wake with cause 0 (R112). -/
def wakeMonitors (ms : List Monitor) (lines : List Nat) : List Monitor :=
  ms.map fun m => if lines.contains m.line && m.cause.isNone then { m with cause := some 0 } else m

/-- A sector all of whose bytes are written. -/
def wholeSector (keys : List Nat) (sector : Nat) : Bool := (List.range 64).all fun i => keys.contains (sector * 64 + i)

/-- The queue entry of a queue (R338). -/
def State.queueEntry (s : State) (q : Nat) : Nat := s.load (s.sys.qtab.toNat % 2 ^ 40 + 64 * q) 64

/-- The key that a virtual address of a context names, by the walk alone. -/
def State.plainKey (s : State) (ctx va : Nat) : Option Nat :=
  match s.walk ctx va with
  | .leaf _ e shift => if leafGather e || leafHome e == 1 then none else some (frameOf e / 2 ^ shift * 2 ^ shift + va % 2 ^ shift)
  | _ => none

/-- The valid queues whose doorbell word a write merges into (R339). -/
def State.rings (s : State) (keys : List Nat) : List Nat :=
  (s.queues.filter fun q =>
    let e := s.queueEntry q.1
    bit e 8 && match s.plainKey (bits e 31 24) (bits e 447 392) with
      | some k => keys.any fun x => k / 8 == x / 8
      | none => false).map Prod.fst

/-- Bytes reach memory through pages of the given HOME: their check values form, poison of whole sectors clears, the L1
copies go, sectors of cached pages become dirty in L2, reservations end, monitors wake, and a doorbell word rings (R42, R50,
R56, R58, R105, R112, R339). -/
def State.commit (s : State) (ctx home : Nat) (kvs : List (Nat × Byte)) : State :=
  let keys := kvs.map Prod.fst
  let s := s.poke kvs
  let secs := sectorsOf keys
  let whole := secs.filter (wholeSector keys)
  let s := { s with
    poison := s.poison.filter fun p => !whole.contains p.1,
    badCheck := s.badCheck.filter fun b => !whole.contains b,
    reservations := dropReservations s.reservations secs,
    monitors := wakeMonitors s.monitors (linesOf keys) }
  let s := ((linesOf keys).foldl State.dropL1 s).install ctx home keys true
  let s := (secs.filter fun sec => home == 0 || (home == 2 && (s.l2Line (sec / 2)).pinned)).foldl (fun s sec => s.touch ctx (sec * 64)) s
  let rung := s.rings keys
  if rung.isEmpty then s
  else { s with bells := s.bells ++ rung.filter fun q => !s.bells.contains q }

/-- A granule on which some thread holds other writers off (R106). -/
def State.heldBy (s : State) (granule : Nat) : Option Reservation :=
  s.reservations.find? fun r => r.granule == granule && r.hold

/-- Writes that arrived at a granule during a hold wait there (R106). -/
def State.parkedOn (s : State) (granule : Nat) : Bool := s.heldWrites.any fun h => h.granules.contains granule

/-- A line that a started engine command of this package or of a peer owns (R52, R288). -/
def State.ownedLine (s : State) (keys : List Nat) : Option Nat :=
  let lines := linesOf keys
  ((s.commands.flatMap fun c => if c.phase == .started && !c.saved then c.owned else []) ++
    s.peers.flatMap fun p => p.lines.map Prod.fst).find? fun x => lines.contains x

/-- A write to the granule waits: some thread holds it, or an engine command owns its line (R52, R106). -/
def State.closedTo (s : State) (granule : Nat) : Bool := (s.heldBy granule).isSome || (s.ownedLine [granule * 64]).isSome

/-- A write by an agent that is no thread and that nothing can make to wait: where a granule of it is closed, or where earlier
writes wait, it waits at the slice whole (R52, R54, R106). -/
def State.deviceWrite (s : State) (ctx home : Nat) (kvs : List (Nat × Byte)) : State :=
  let gs := sectorsOf (kvs.map Prod.fst)
  if kvs.isEmpty then s
  else if gs.any fun g => s.closedTo g || s.parkedOn g then
    { s with heldWrites := s.heldWrites ++ [{ granules := gs, bytes := kvs, home := home, ctx := ctx }] }
  else s.commit ctx home kvs

/-- Granules that the merge of an entry writes. -/
def MireEntry.granules (e : MireEntry) : List Nat := dedup (e.words.map fun w => (e.line * 128 + 4 * w.1) / 64)

/-- The granules that a waiting write writes: of a merge, those of its entry as it now stands. -/
def State.writesOf (s : State) (h : HeldWrite) : List Nat :=
  match h.merge with
  | some (line, _) => (s.mire.filter fun e => e.line == line).flatMap MireEntry.granules
  | none => h.granules

/-- The first waiting write that meets no closed granule and none of the writes before it, with the others; the fault records of a
context keep their order (R357). -/
def State.firstFree (s : State) : List HeldWrite → List HeldWrite → Option (HeldWrite × List HeldWrite)
  | _, [] => none
  | before, h :: rest =>
    if ((s.writesOf h).all fun g => !s.closedTo g && before.all fun b => !(s.writesOf b).contains g) &&
        (h.posts.isNone || before.all fun b => b.posts != h.posts) then some (h, before ++ rest)
    else s.firstFree (before ++ [h]) rest

/-! ### Mire (R53 to R55) -/

/-- The status block of a context is rewritten (R55, R337). -/
def State.statusBlock (s : State) (ctx : Nat) : State :=
  match s.plainKey ctx (bits (s.ctxEntry ctx) 191 128) with
  | some k =>
    if !s.ctxValid ctx then s
    else s.deviceWrite ctx 0 (keyed k
      (leBytes 8 ((assoc ctx s.sys.mepis).getD 0) ++ leBytes 8 ((assoc ctx s.sys.mevic).getD 0) ++ leBytes 48 0))
  | none => s

/-- The value that a Mire word merges as (R54). -/
def MireWord.result (w : MireWord) : Nat :=
  if w.dt != 11 then w.value
  else if w.nan || (w.pinf && w.ninf) then 0x7FC00000
  else if w.pinf then 0x7F800000
  else if w.ninf then 0xFF800000
  else match w.beyond with
    | some neg => if neg then 0xFF800000 else 0x7F800000
    | none =>
      if w.acc = 0 then (if w.allNegZero then 0x80000000 else 0)
      else rne32 (.fin (decide (w.acc < 0)) w.acc.natAbs (-149))

/-- An addend joins a floating accumulator (R53). -/
def MireWord.addF (w : MireWord) (bits32 : Nat) : MireWord :=
  match num32 bits32 with
  | .nan => { w with nan := true, allNegZero := false }
  | .inf false => { w with pinf := true, allNegZero := false }
  | .inf true => { w with ninf := true, allNegZero := false }
  | .fin neg m e =>
    let v : Int := scaleTo (if neg then -(m : Int) else m) e (-149)
    let acc := w.acc + v
    { w with
      acc := acc, allNegZero := w.allNegZero && neg && m == 0,
      beyond := match w.beyond with
        | some x => some x
        | none => if (2 ^ 319 : Nat) ≤ acc.natAbs then some (decide (acc < 0)) else none }

/-- Integer ADD, MIN and MAX on w-bit words by DT's sign (R53, R101). -/
def intRed (sub dt old v : Nat) : Nat :=
  let w := 8 * memBytes dt
  let sgn := dt = 4 || dt = 6
  let lt : Bool := if sgn then decide (toSigned w v < toSigned w old) else decide (v % 2 ^ w < old % 2 ^ w)
  if sub = 0 then (old + v) % 2 ^ w
  else if sub = 1 then (if lt then v % 2 ^ w else old)
  else (if lt || v % 2 ^ w == old then old else v % 2 ^ w)

/-- An entry merges into its line now, in one update (R54); `evict`: by capacity (R55). A sector that is bad keeps its mark and takes no
word of it: the old content is checked before it is combined (R57, R58; log 71). MEPIS and MEVIC stop at 2^64 - 1 (log 65). -/
def State.mergeNow (s : State) (e : MireEntry) (evict : Bool) : State :=
  let s := { s with mire := s.mire.filter fun x => x.line != e.line }
  let words := e.words.filter fun w => (s.sectorCheck ((e.line * 128 + 4 * w.1) / 64)).isNone
  let kvs := words.flatMap fun w => keyed (e.line * 128 + 4 * w.1) (leBytes (memBytes w.2.dt) w.2.result)
  let s := if kvs.isEmpty then s else s.commit (e.ctxs.headD 0) 0 kvs
  e.ctxs.foldl (fun s c =>
    let s := { s with sys := { s.sys with
      mepis := bump c s.sys.mepis, mevic := if evict then bump c s.sys.mevic else s.sys.mevic } }
    s.statusBlock c) s

/-- An entry merges, or where a granule that it writes is closed or earlier writes wait there, its merge waits at the slice whole:
until then the entry stays open, so that a load waits for it and an addition joins it (R54, R106, R286). -/
def State.mergeEntry (s : State) (e : MireEntry) (evict : Bool) : State :=
  if e.granules.any fun g => s.closedTo g || s.parkedOn g then
    if s.heldWrites.any fun h => h.merge.map Prod.fst == some e.line then s
    else { s with heldWrites := s.heldWrites ++
      [{ granules := e.granules, bytes := [], home := 0, ctx := e.ctxs.headD 0, merge := some (e.line, evict) }] }
  else s.mergeNow e evict

/-- A record of a context stands in its ring: FQCOUNT rises (R357). -/
def State.recordWritten (s : State) (ctx : Nat) : State :=
  { s with sys := { s.sys with fqcount := assocSet ctx ((assoc ctx s.sys.fqcount).getD 0 + 1) s.sys.fqcount } }

/-- A write that has waited at its granules is made: its bytes, with the count of the record that they are, or the merge of its
entry. -/
def State.release (s : State) (h : HeldWrite) : State :=
  match h.merge with
  | none =>
    let s := if h.bytes.isEmpty then s else s.commit h.ctx h.home h.bytes
    match h.posts with
    | some ctx => s.recordWritten ctx
    | none => s
  | some (line, evict) => match s.mire.find? fun e => e.line == line with
    | some e => s.mergeNow e evict
    | none => s

/-- The writes that wait at granules that are no longer closed are applied in arrival order; `fuel` bounds them (R106). -/
def State.applyHeld : Nat → State → State
  | 0, s => s
  | fuel + 1, s =>
    match s.firstFree [] s.heldWrites with
    | none => s
    | some (h, rest) => State.applyHeld fuel (({ s with heldWrites := rest } : State).release h)

/-- The open entry of a line, if any, merges (R54). -/
def State.mergeLine (s : State) (line : Nat) : State :=
  match s.mire.find? fun e => e.line == line with
  | some e => s.mergeEntry e false
  | none => s

def State.mergeLines (s : State) (lines : List Nat) : State := lines.foldl State.mergeLine s

/-- A granule of a list at which a write waits for a hold of another thread than `mine`, or for earlier writes that wait there; under
its own hold a thread waits for nothing where `pass` (R106). -/
def State.heldOf (s : State) (mine : Reservation → Bool) (pass : Bool) (granules : List Nat) : Option Nat :=
  granules.find? fun g => match s.heldBy g with
    | some r => !mine r || (!pass && s.parkedOn g)
    | none => s.parkedOn g

/-- A granule at which the write of keys, or the merge of lines, waits. -/
def State.heldAt (s : State) (mine : Reservation → Bool) (written lines : List Nat) : Option Nat :=
  let merged := (s.mire.filter fun e => lines.contains e.line).flatMap MireEntry.granules
  s.heldOf mine false (sectorsOf written ++ merged)

/-- What an access of an agent that is no thread waits for: an owned line, or a held granule (R52, R106). -/
def State.deviceStall (s : State) (write : Bool) (keys : List Nat) : Option Resource :=
  match s.ownedLine keys with
  | some line => some (.line (line * 128))
  | none => (s.heldAt (fun _ => false) (if write then keys else []) (linesOf keys)).map .hold

/-- The machine check that the merges of lines meet: an entry would write a part of a bad sector (R57, R58). -/
def State.mergeCheck (s : State) (lines : List Nat) : Option (Nat × Nat) :=
  ((s.mire.filter fun e => lines.contains e.line).flatMap MireEntry.granules).findSome? fun g =>
    (s.sectorCheck g).map fun code => (code, g * 64)

/-- A word of the line opens with its current value (R53). -/
def State.openWord (s : State) (key sub dt : Nat) : MireWord :=
  let v := s.load key (memBytes dt)
  let w : MireWord :=
    { sub := sub, dt := dt, value := v, acc := 0, nan := false, pinf := false, ninf := false, allNegZero := true,
      beyond := none }
  if dt = 11 then w.addF v else w

/-- Two word slots meet. -/
def slotsMeet (i n j m : Nat) : Bool := i < j + m && j < i + n

/-- A reduction at a key is of a different kind than the one pending on its word (R53). -/
def State.mireClash (s : State) (key sub dt : Nat) : Bool :=
  let slot := key % 128 / 4
  (s.mire.find? fun e => e.line == lineOf key).any fun e =>
    e.words.any fun w => slotsMeet slot (memRegs dt) w.1 (memRegs w.2.dt) && !(w.1 == slot && w.2.sub == sub && w.2.dt == dt)

/-- The entry that a reduction at a key evicts: of a full slice the one to which a reduction was added least recently
(R53). -/
def State.mireVictim (s : State) (key : Nat) : Option MireEntry :=
  let slice := s.sliceOf key
  if (s.mire.any fun e => e.line == lineOf key) || decide ((s.mire.filter fun e => e.slice == slice).length < 16) then none
  else s.mire.find? fun e => e.slice == slice

/-- The lines whose entries a reduction at a key merges first: its own where its kind differs, and the evicted one (R53). -/
def State.mireMerges (s : State) (key sub dt : Nat) : List Nat :=
  (if s.mireClash key sub dt then [lineOf key] else []) ++ (match s.mireVictim key with
    | some e => [e.line]
    | none => [])

/-- A reduction is added into Mire at a HOME 00 or 10 word (R53). -/
def State.mireAdd (s : State) (ctx key sub dt v : Nat) : State :=
  let line := lineOf key
  let slot := key % 128 / 4
  let s := if s.mireClash key sub dt then s.mergeLine line else s
  let slice := s.sliceOf key
  let s := match s.mireVictim key with
    | some e => s.mergeEntry e true
    | none => s
  let old := (s.mire.find? fun e => e.line == line).getD { slice := slice, line := line, words := [], ctxs := [] }
  let w := (assoc slot old.words).getD (s.openWord key sub dt)
  let w := if dt = 11 then w.addF v else { w with value := intRed sub dt w.value v }
  let e := { old with
    words := assocSet slot w old.words, ctxs := if old.ctxs.contains ctx then old.ctxs else old.ctxs ++ [ctx] }
  { s with mire := (s.mire.filter fun (x : MireEntry) => x.line != line) ++ [e] : State }.touch ctx key

/-! ### Translation of an access -/

/-- The leaf's A bit is set when the walker installs it, and D on the first write through it; the update is a write of
the walker (R40, R44). -/
def State.markLeaf (s : State) (ctx at_ e : Nat) (acc : Access) : State × Except Resource Nat :=
  let e' := e ||| 0x20 ||| (if writesTo acc then 0x40 else 0)
  if e' = e then (s, .ok e)
  else
    let kvs := keyed at_ (leBytes 8 e')
    match s.deviceStall true (kvs.map Prod.fst) with
    | some r => (s, .error r)
    | none => (s.commit ctx 0 kvs, .ok e')

/-- The table reads of a walk, as L2 accesses of the walker: a read merges its line's open entry, waits for an owned line or a
held granule, and meets POISON and DATACHK (R43, R52, R54, R57). -/
def State.readTables (s : State) (ctx va : Nat) : Nat → List Nat → State × Option MemFault
  | _, [] => (s, none)
  | table, shift :: rest =>
    let at_ := table + 8 * (va / 2 ^ shift % (if shift = 16 then 32 else 512))
    match s.deviceStall false [at_] with
    | some r => (s, some (.busy r))
    | none =>
      match s.mergeCheck [lineOf at_] <|> (s.sectorCheck (sectorOf at_)).map (·, at_) with
      | some (code, key) => (s, some (.check code key))
      | none =>
        let s := (s.mergeLine (lineOf at_)).install ctx 0 [at_] false
        let e := s.load at_ 8
        if bit e 0 && !malformed e shift && !bit e 1 then s.readTables ctx va (frameOf e) rest else (s, none)

/-- A byte's place: its key, the HOME of its page, and the window byte it was read through (R47). -/
structure Spot where
  key : Nat
  home : Nat
  window : Option Nat
  deriving DecidableEq, Repr

/-- The places of a run. -/
def Run.spots (r : Run) : List Spot :=
  (List.range r.len).map fun i => { key := r.first + i, home := r.home, window := r.window.map (· + i) }

/-- The keys of runs, in order. -/
def runKeys (l : List Run) : List Nat := l.flatMap fun r => (List.range r.len).map (r.first + ·)

/-- A place stands before a run that continues it. -/
def Spot.leads (p : Spot) (r : Run) : Bool := p.key + 1 == r.first && p.home == r.home && p.window.map (· + 1) == r.window

/-- Places as runs, in order. -/
def runsOf : List Spot → List Run
  | [] => []
  | p :: ps =>
    let one : Run := { first := p.key, len := 1, home := p.home, window := p.window }
    match runsOf ps with
    | [] => [one]
    | r :: rs => if p.leads r then { one with len := r.len + 1 } :: rs else one :: r :: rs

/-- Element size of a stride pattern (R46). -/
def patES (p : Nat) : Nat := 2 ^ bits p 2 1

/-- Byte o of a gather window with source base `base` (R47, R48). The source frame, the pattern's number and the offset name the
byte in the cache of window lines (log 59). -/
def State.windowSpot (s : State) (base pat home o : Nat) : Except MemFault Spot :=
  let p := (nth s.patterns pat 0).toNat
  let es := patES p
  let nrow := bits p 51 32
  let ncol := bits p 71 52
  let pitch := bits p 103 72
  if !bit p 0 || bits p 2 1 = 3 || pitch % es != 0 || pitch < ncol * es || nrow = 0 || ncol = 0 then .error (.prog codeGATHER pat)
  else if nrow * ncol * es ≤ o then .error (.prog codeGATHER pat)
  else
    let e := o / es
    let src := base + e % nrow * pitch + e / nrow * es + o % es
    if hbmEnd ≤ src || keyDie src != keyDie base then .error (.prog codeGATHER pat)
    else .ok { key := src, home := home, window := some ((base / 4096 * 64 + pat) * 2 ^ 30 + o) }

/-- The byte at offset `off` of the page of a leaf (R42, R47, R67). A GATHER page is a window whatever its HOME: that of a HOME 01 page
has the pages' sources in HBM, and its named core and pin are not looked at (log 59). -/
def State.leafSpot (s : State) (e shift off : Nat) : Except MemFault Spot :=
  let home := leafHome e
  if leafGather e then s.windowSpot (frameOf e) (bits e 63 58) home off
  else if home = 1 then
    let core := bits e 54 54 * 256 + bits e 53 46
    if s.fenced core then .error .fenced
    else match (s.core core).pins.toList.find? fun p => p.getLsbD 63 && bits p.toNat 39 16 == frameOf e / 65536 with
      | some p => .ok { key := sramKey core (bits p.toNat 3 0 * 65536 + off), home := 1, window := none }
      | none => .error (.prog codeADDRBAD 0)
  else .ok { key := frameOf e / 2 ^ shift * 2 ^ shift + off, home := home, window := none }

/-- A walk for an access: its table reads, its checks, and the marks on a leaf that permits the access (R38, R41, R43, R44). -/
def State.walkFor (s : State) (ctx va : Nat) (acc : Access) : State × Except MemFault (Nat × Nat) :=
  let x := bits (s.ctxEntry ctx) 63 0
  match if bit x 0 then s.readTables ctx va (frameOf x) [39, 30, 21, 16] else (s, none) with
  | (s, some f) => (s, .error f)
  | (s, none) =>
    match s.walk ctx va with
    | .xlate => (s, .error (.xlate va))
    | .bad => (s, .error (.prog codeADDRBAD 0))
    | .leaf at_ e shift =>
      if !permits e acc then (s, .error (.prog codePERM 0))
      else match s.markLeaf ctx at_ e acc with
        | (s, .error r) => (s, .error (.busy r))
        | (s, .ok e') => (s, .ok (e', shift))

/-- The leaf that a walk finds enters the TLBs. The walk begins and ends within the step that misses, so that walks never wait
for walkers or for one another (R43, R44; log 58). -/
def State.walkLeaf (s : State) (core ctx va : Nat) (acc : Access) : State × Except MemFault (Nat × Nat) :=
  match s.walkFor ctx va acc with
  | (s, .error f) => (s, .error f)
  | (s, .ok (e, shift)) => (s.installTlb core ctx va shift e, .ok (e, shift))

/-- The leaf for an access: a cached one, or the walk's. Where software has changed the entry since it was cached, the free
choice takes one of the two. The first write through a cached leaf whose D is 0 goes to the walker, whose update restarts
the walk where the entry has changed (R43, R44). -/
def State.findLeaf (s : State) (core ctx va : Nat) (acc : Access) : State × Except MemFault (Nat × Nat) :=
  match s.cached core ctx va with
  | none => s.walkLeaf core ctx va acc
  | some t =>
    let old := t.leaf.toNat
    let same : Bool := match s.walk ctx va with
      | .leaf _ e shift => e ||| 0x60 == old ||| 0x60 && shift == t.size
      | _ => false
    if !same && !Config.useOld s.tick (va / 65536) then s.walkLeaf core ctx va acc
    else if !permits old acc then (s, .error (.prog codePERM 0))
    else if writesTo acc && !bit old 6 then s.walkLeaf core ctx va acc
    else (s.installTlb core ctx va t.size old, .ok (old, t.size))

/-- The bytes from va within one 64 KiB page. -/
def State.pageSpots (s : State) (core ctx va n : Nat) (acc : Access) : State × Except MemFault (List Spot) :=
  match s.findLeaf core ctx va acc with
  | (s, .error f) => (s, .error f)
  | (s, .ok (e, shift)) =>
    if leafGather e && acc != .read && acc != .fetch then (s, .error (.prog codePERM 0))
    else (s, (List.range n).mapM fun i => s.leafSpot e shift ((va + i) % 2 ^ shift))

/-- Pieces of n bytes from va at 64 KiB boundaries; `fuel` bounds them. -/
def pieces : Nat → Nat → Nat → List (Nat × Nat)
  | 0, _, _ => []
  | fuel + 1, va, n =>
    if n = 0 then []
    else
      let k := min n (65536 - va % 65536)
      (va, k) :: pieces fuel (va + k) (n - k)

/-- The places of n bytes at a virtual address, every page checked; a program fault on any of them is preferred (R41, R91). -/
def State.spots (s : State) (core ctx va n : Nat) (acc : Access) : State × Except MemFault (List Spot) :=
  if 2 ^ 48 < va + n || 2 ^ 48 ≤ va then (s, .error (.prog codeADDRBAD 0))
  else
    (pieces (n / 65536 + 2) va n).foldl (fun (r : State × Except MemFault (List Spot)) p =>
      let x := r.1.pageSpots core ctx p.1 p.2 acc
      (x.1, joinParts r.2 x.2)) (s, .ok [])

/-- An address operand (R36, R37). -/
inductive Address where
  | here (va : Nat)
  | remote (pkg va : Nat)
  | bad
  deriving DecidableEq, Repr

def State.address (s : State) (a : W64) : Address :=
  let x := a.toNat
  if bits x 63 48 = 0 then .here x
  else if bits x 63 60 = 8 then
    (if bits x 59 48 = bits s.sys.pkgnum.toNat 11 0 then .here (bits x 47 0) else .remote (bits x 59 48) (bits x 47 0))
  else .bad

/-- The places of n bytes at a thread's address: another package is ADDRBAD (R37). -/
def State.reach (s : State) (core ctx : Nat) (a : W64) (n : Nat) (acc : Access) : State × Except MemFault (List Spot) :=
  match s.address a with
  | .here va => s.spots core ctx va n acc
  | _ => (s, .error (.prog codeADDRBAD 0))

/-! ### Reading and writing places -/

/-- The bytes at places: a byte of a window comes from the cached line, which may be stale, but for a HOME 11 window
(R47). -/
def State.readSpots (s : State) (l : List Spot) : List Byte :=
  l.map fun p => match p.window with
    | some w => match if p.home = 3 then none else (assoc (w / 128) s.windowLines).bind fun bs => bs.getD (w % 128) none with
      | some b => b
      | none => Memory.get s.mem p.key
    | none => Memory.get s.mem p.key

/-- The line of the caches through which a byte is read: that of its window, or its own (R47). -/
def Spot.line (p : Spot) : Nat := match p.window with
  | some w => windowTag (w / 128)
  | none => p.key / 128

/-- The lines of places, each once. -/
def cacheLines (l : List Spot) : List Nat := dedup (l.map Spot.line)

/-- The bytes of a window line as the stacks return them now; none beyond the window (R47). They are the newest of each source byte,
a dirty sector of L2 that has not been written back among them (log 59). -/
def State.windowLine (s : State) (home line : Nat) : List (Option Byte) :=
  let id := line * 128 / 2 ^ 30
  (List.range 128).map fun i =>
    match s.windowSpot (id / 64 * 4096) (id % 64) home (line * 128 % 2 ^ 30 + i) with
    | .ok p => some (Memory.get s.mem p.key)
    | .error _ => none

/-- A window line is cached in L2 for an access to a page of the given HOME: a line that was cached stays as it was filled, unless
the free choice has evicted it in between, which it cannot do to one in a pinned way; a HOME 10 line that finds no pinned way is
served as HOME 11, and then its bytes come from the stacks (R42, R47; log 59). -/
def State.cacheOneWindow (s : State) (ctx home w : Nat) : State :=
  let line := windowTag w
  let held := (assoc w s.windowLines).isSome && ((s.l2Line line).pinned || Config.useOld s.tick w)
  let s := s.installLine ctx home line [0, 1] false
  if (assoc line s.l2).isNone then { s with windowLines := s.windowLines.filter fun x => x.1 != w }
  else if held then s
  else { s with windowLines := assocSet w (s.windowLine 0 w) s.windowLines }

/-- The window lines of an access are cached, but for those of HOME 11 pages (R47). -/
def State.cacheWindow (s : State) (ctx : Nat) (l : List Spot) : State :=
  let of := fun (pin : Bool) => dedup (l.filterMap fun p => if p.home = 3 || (p.home == 2) != pin then none else p.window.map (· / 128))
  let s := (of false).foldl (fun s w => s.cacheOneWindow ctx 0 w) s
  (of true).foldl (fun s w => s.cacheOneWindow ctx 2 w) s

/-- A machine check that reading the places meets: POISON or DATACHK with its key, at a sector that is read or that a
merge before the access writes in part (R57, R58). -/
def State.readCheck (s : State) (l : List Spot) : Option (Nat × Nat) :=
  match s.mergeCheck (linesOf (l.map (·.key))) with
  | some x => some x
  | none =>
    match l.find? fun p => s.poison.any fun q => q.1 == sectorOf p.key with
    | some p => some (0x42, p.key)
    | none => (l.find? fun p => s.badCheck.contains (sectorOf p.key)).map fun p => (0x41, p.key)

/-- A sector that is poisoned or whose check value is not that of its bytes (R57, R58). -/
def State.badSector (s : State) (sector : Nat) : Bool := s.poison.any (fun q => q.1 == sector) || s.badCheck.contains sector

/-- A machine check that writing the places meets: only a part of a bad sector (R57, R58). -/
def State.writeCheck (s : State) (l : List Spot) : Option (Nat × Nat) :=
  let keys := l.map (·.key)
  s.mergeCheck (linesOf keys) <|>
    s.readCheck (l.filter fun p => s.badSector (sectorOf p.key) && !wholeSector keys (sectorOf p.key))

/-- Places of one HOME. -/
def ofHome (h : Nat) (l : List Spot) : List Nat := (l.filter fun p => p.home == h && p.window.isNone).map (·.key)

/-- The lines of places enter L2 for an access of a context, and L1 where the access allocates there and L2 serves the line: one of a
HOME 10 page that found no pinned way is served as HOME 11 and enters neither (R42, R47, R50). -/
def State.fill (s : State) (ctx core : Nat) (l1 : Bool) (l : List Spot) : State :=
  let s := (s.install ctx 0 (ofHome 0 l) false).install ctx 2 (ofHome 2 l) false
  let s := s.cacheWindow ctx l
  if l1 then
    (cacheLines (l.filter fun p => p.home == 0 || (p.window.isSome && p.home != 3) || p.home == 2)).foldl (fun s line =>
      if (l.any fun p => p.line == line && p.home != 2) || (s.l2Line line).pinned then s.addL1 core line else s) s
  else s

/-- Places before a read by an access of a context: open Mire entries merge, and the lines enter the caches (R54). -/
def State.beforeRead (s : State) (ctx core : Nat) (l1 : Bool) (l : List Spot) : State :=
  (s.mergeLines (linesOf ((l.filter fun p => p.home != 1).map (·.key)))).fill ctx core l1 l

/-- The writes of one access as one: for each byte the last of the list wins (R93). -/
def lastWins {α : Type} (l : List (Spot × α)) : List (Spot × α) :=
  l.foldl (fun acc x => (acc.filter fun y => y.1.key != x.1.key) ++ [x]) []

/-- Bytes written at places by one access: for each byte the last of the list wins (R93). -/
def State.putBytes (s : State) (ctx : Nat) (l : List (Spot × Byte)) : State :=
  let l := lastWins l
  [0, 1, 2, 3].foldl (fun s h =>
    let kvs := (l.filter fun x => x.1.home == h).map fun x => (x.1.key, x.2)
    if kvs.isEmpty then s else s.commit ctx h kvs) s

/-- Bytes written at places by one access, after the open Mire entries of their lines have merged (R54, R97). -/
def State.storeBytes (s : State) (ctx : Nat) (l : List (Spot × Byte)) : State :=
  (s.mergeLines (linesOf ((l.filter fun x => x.1.home != 1).map (·.1.key)))).putBytes ctx l

/-! ### The second pieces of misaligned stores (R92) -/

/-- The second pieces that a group's stores have still to perform. -/
def State.piecesOf (s : State) (team group : Nat) : List Piece := s.secondPieces.filter fun p => p.team == team && p.group == group

/-- A granule at which a second piece of the group waits (R106), or a line that an engine owns (R52). -/
def State.pieceStall (s : State) (team group : Nat) : Option Resource :=
  let keys := (s.piecesOf team group).flatMap fun p => p.writes.map Prod.fst
  match s.ownedLine keys with
  | some line => some (.line (line * 128))
  | none => (s.heldAt (fun _ => false) keys (linesOf keys)).map .hold

/-- The second pieces of a group's stores are performed, oldest first; where one must wait they all do. -/
def State.settlePieces (s : State) (team group : Nat) : State :=
  if (s.piecesOf team group).isEmpty || (s.pieceStall team group).isSome then s
  else (s.piecesOf team group).foldl (fun (s : State) p =>
    s.storeBytes p.ctx (p.writes.map fun w => ({ key := w.1, home := w.2.1, window := none }, w.2.2)))
    { s with secondPieces := s.secondPieces.filter fun p => !(p.team == team && p.group == group) }

/-- Bytes written at consecutive places. -/
def State.writeSpots (s : State) (ctx : Nat) (l : List Spot) (bs : List Byte) : State := s.storeBytes ctx (l.zip bs)

/-- The package number. -/
def State.pkg (s : State) : Nat := bits s.sys.pkgnum.toNat 11 0

end Sys2Proof.Machine
end

