-- ==== Sys2Proof/Machine/Ops.lean ====
section
/-! DEFINITION. The named operations over teams, groups and splits that every meaning uses: look-up and update, fault
records, the end of a group or a team, and taking a fault or trap with the return from it
(spec/13_execution_and_control.md, spec/15_traps_and_reliability.md). -/

namespace Sys2Proof.Machine

/-- What a meaning answers. -/
abbrev Res := Host.Outcome State Fault Refusal

/-! ### Look-up and update -/

def State.team? (s : State) (id : Nat) : Option Team := s.teams.find? fun t => t.id == id
def State.modTeam (s : State) (id : Nat) (f : Team → Team) : State :=
  { s with teams := updateFirst (fun t => t.id == id) f s.teams }
def Team.group? (t : Team) (g : Nat) : Option Group := t.groups.find? fun x => x.index == g
def Team.modGroup (t : Team) (g : Nat) (f : Group → Group) : Team :=
  { t with groups := updateFirst (fun x => x.index == g) f t.groups }
def State.group? (s : State) (team g : Nat) : Option Group := (s.team? team).bind fun t => t.group? g
def State.modGroup (s : State) (team g : Nat) (f : Group → Group) : State := s.modTeam team fun t => t.modGroup g f
def State.modGroups (s : State) (team : Nat) (f : Group → Group) : State :=
  s.modTeam team fun t => { t with groups := t.groups.map f }
def Group.split? (g : Group) (n : Nat) : Option Split := nth g.splits n none
def Group.setSplit (g : Group) (n : Nat) (x : Option Split) : Group := { g with splits := put g.splits n x }
def Group.modSplit (g : Group) (n : Nat) (f : Split → Split) : Group :=
  match g.split? n with
  | some x => g.setSplit n (some (f x))
  | none => g
def State.modSplit (s : State) (w : Who) (f : Split → Split) : State :=
  s.modGroup w.team w.group fun g => g.modSplit w.split f
/-- The splits of a group with their numbers. -/
def Group.liveSplits (g : Group) : List (Nat × Split) :=
  (List.range 4).filterMap fun n => (g.split? n).map fun x => (n, x)
/-- The threads of a group that have not exited. -/
def Group.live (g : Group) : Mask := ~~~ g.exited

/-! ### The instruction in hand -/

/-- A word instruction in the hands of its split: the team and group as they stand at issue, and the contributors, the
threads that are active with their guard true (R20, R188). -/
structure Ctx where
  who : Who
  t : Team
  g : Group
  sp : Split
  i : Instr
  f : Fields
  act : Mask
  deriving DecidableEq, Repr

/-- Predicate n as a lane mask; P7 reads true (R16, R121). -/
def Group.pred (g : Group) (n : Nat) : Mask := if n < 7 then nth g.p n 0 else allLanes

/-- The threads of a split whose guard is true (R20). -/
def guardMask (g : Group) (sp : Split) (f : Fields) : Mask :=
  let p := g.pred f.gp.val
  sp.mask &&& (if f.gn then ~~~ p else p)

/-- The environment in which a group decodes (R15, R26, R361). -/
def groupEnv (t : Team) (g : Group) : Env :=
  { kRegs := g.handler.isSome, rett := g.handler.isSome, noRdv := g.handler.isSome,
    gang := match g.gang with
      | some x => x.2.2
      | none => 0,
    tiles := t.launch.tiles, twin := t.launch.twin }

/-- The split in focus with an instruction. -/
def State.ctx (s : State) (i : Instr) (f : Fields) : Option Ctx :=
  match s.team? s.focus.team with
  | none => none
  | some t =>
    match t.group? s.focus.group with
    | none => none
    | some g =>
      match g.split? s.focus.split with
      | none => none
      | some sp => some { who := s.focus, t := t, g := g, sp := sp, i := i, f := f, act := guardMask g sp f }

/-- The split moves past its instruction (R13). -/
def State.advance (s : State) (w : Who) : State := s.modSplit w fun x => { x with pc := x.pc + 12, wait := .ready }

/-- The split goes to an address. -/
def State.goto (s : State) (w : Who) (pc : Nat) : State := s.modSplit w fun x => { x with pc := pc, wait := .ready }

/-- The split waits where it stands, and its burst is over (R351). -/
def State.block (s : State) (w : Who) (x : Wait) : State := s.modSplit w fun y => { y with wait := x, burst := 4 }

/-- The bursts of a group's splits are over (R351). -/
def Group.calm (g : Group) : Group := { g with splits := g.splits.map fun x => x.map fun x => { x with burst := 4 } }

/-! ### Values of the spec's enumerations -/

def codeILLOPC : Nat := 0x01
def codeILLENC : Nat := 0x02
def codeILLSCOPE : Nat := 0x03
def codeLOOKAHEAD : Nat := 0x04
def codeREGCEIL : Nat := 0x05
def codeSCOPEMIS : Nat := 0x06
def codeSTACKOVF : Nat := 0x07
def codeDECODE : Nat := 0x0D
def codeDXCHECK : Nat := 0x0E
def codeDXFORMAT : Nat := 0x0F
def codeTRAPI : Nat := 0x10
def codeBPT : Nat := 0x11
def codeGANGFAULT : Nat := 0x12
def codeRECORDQ : Nat := 0x13
def codeSORTBAD : Nat := 0x14
def codeUE : Nat := 0x40
def codeDATACHK : Nat := 0x41
def codePOISON : Nat := 0x42
def codeORPHAN : Nat := 0x43
def codeLINKLOST : Nat := 0x45

/-- The class byte of a code (R355); halt records carry class 3. -/
def classOf (code : Nat) : Nat := if code = codeXLATE then 1 else if 0x40 ≤ code then 2 else 0

/-! ### Fault records (R356, R357, R430) -/

/-- The fields of a fault record but for TIME; `owner`: the CTX of a POISON, which is the owner of the page, where it may be another
than the context of the ring (R356, log 68). -/
structure Record where
  exst : Nat := 0
  skid : Nat := 0
  cseq : Nat := 0
  aux : Nat := 0
  addr : Nat := 0
  pc : Nat := 0
  mask : Nat := 0
  core : Nat := 0xFFFF
  group : Nat := 0xFFFF
  team : Nat := 0xFFFFFFFF
  split : Nat := 0xFF
  scope : Nat := 0
  cls : Nat := 0
  code : Nat := 0
  owner : Option Nat := none
  deriving DecidableEq, Repr

/-- The 64 bytes of a record (R356). -/
def Record.bytes (r : Record) (ctx time : Nat) : List Byte :=
  leBytes 8 time ++ leBytes 1 r.code ++ leBytes 1 r.cls ++ leBytes 1 r.scope ++ leBytes 1 r.split ++
    leBytes 4 r.team ++ leBytes 2 r.group ++ leBytes 2 r.core ++ leBytes 4 r.mask ++ leBytes 8 r.pc ++
    leBytes 8 r.addr ++ leBytes 8 r.aux ++ leBytes 7 r.cseq ++ leBytes 1 (r.owner.getD ctx) ++ leBytes 2 r.skid ++
    leBytes 2 0 ++ leBytes 4 r.exst

/-- The tile of a die's walker: the lowest live tile from 119 upward (R43, R373). -/
def State.walkerTile (s : State) (die : Nat) : Nat :=
  (((List.range 256).map fun i => die * 256 + (119 + i) % 256).find? fun t => !s.fenced t).getD (die * 256 + 119)

/-- The places of n bytes that the device reaches at a virtual address of a context; it waits at an owned line and at a held
granule (R52, R106), and meets the machine checks of the access (R57, R58). -/
def State.deviceReach (s : State) (ctx : Nat) (va : W64) (n : Nat) (write : Bool) : State × Except MemFault (List Spot) :=
  match s.reach (s.walkerTile 0) ctx va n (if write then .write else .read) with
  | (s, .error f) => (s, .error f)
  | (s, .ok l) =>
    match s.deviceStall write (l.map (·.key)), if write then s.writeCheck l else s.readCheck l with
    | some r, _ => (s, .error (.busy r))
    | none, some (code, key) => (s, .error (.check code key))
    | none, none => (s, .ok l)

/-- Bytes stored by the device at a virtual address of a context, as a store at SYSTEM scope. -/
def State.deviceStore (s : State) (ctx : Nat) (va : W64) (bs : List Byte) : State × Option MemFault :=
  match s.deviceReach ctx va bs.length true with
  | (s, .error f) => (s, some f)
  | (s, .ok l) => (s.writeSpots ctx l bs, none)

/-- Bytes that the device reads at a virtual address of a context. -/
def State.deviceLoad (s : State) (ctx : Nat) (va : W64) (n : Nat) : State × Except MemFault (List Byte) :=
  match s.deviceReach ctx va n false with
  | (s, .error f) => (s, .error f)
  | (s, .ok l) =>
    let s := s.beforeRead ctx 0 false l
    (s, .ok (s.readSpots l))

/-- A record's bytes go to their places in a page of the given HOME, none for a record that is dropped, and then FQCOUNT rises: the write
waits at the slice where it must, and behind the earlier records of its context, so that a reader who sees the count sees the records
whole (R52, R106, R357). -/
def State.writeRecord (s : State) (ctx home : Nat) (kvs : List (Nat × Byte)) : State :=
  let s := s.mergeLines (linesOf (kvs.map Prod.fst))
  let gs := sectorsOf (kvs.map Prod.fst)
  let h : HeldWrite := { granules := gs, bytes := kvs, home := home, ctx := ctx, posts := some ctx }
  if (gs.any fun g => s.closedTo g || s.parkedOn g) || s.heldWrites.any fun x => x.posts == some ctx then
    { s with heldWrites := s.heldWrites ++ [h] }
  else s.release h

/-- The key of a byte that the device may write through the leaf that a walk finds, with the HOME of its page; the leaf's A and D are set
as the walker's write comes to it (R40, R41, R430). -/
def State.leafKey (s : State) (ctx va : Nat) : State × Option (Nat × Nat) :=
  match s.walk ctx va with
  | .leaf at_ e shift =>
    if leafGather e || !permits e .write then (s, none)
    else match s.leafSpot e shift (va % 2 ^ shift) with
      | .ok p =>
        let e' := e ||| 0x60
        (if e' = e then s else s.deviceWrite ctx 0 (keyed at_ (leBytes 8 e')), some (p.key, p.home))
      | .error _ => (s, none)
  | _ => (s, none)

/-- A record goes to the ring of its context; where it cannot be written it is counted and dropped. Nothing waits: where the walk finds an
entry of the tables busy, it goes on without it (R357, R430). -/
def State.post (s : State) (ctx : Nat) (r : Record) : State :=
  let e := s.ctxEntry ctx
  let n := (assoc ctx s.sys.fqcount).getD 0 + (s.heldWrites.filter fun x => x.posts == some ctx).length
  let log := bits e 69 64
  let dropped : State → State := fun s => { s with sys := { s.sys with fqdrop := bump ctx s.sys.fqdrop } }.writeRecord ctx 0 []
  if !s.ctxValid ctx || log < 6 || 20 < log then dropped s
  else
    let va := bits e 127 70 * 64 + 64 * (n % 2 ^ log)
    match s.reach (s.walkerTile 0) ctx (BitVec.ofNat 64 va) 64 .write with
    | (s, .ok l) =>
      if (s.writeCheck l).isSome then dropped s
      else s.writeRecord ctx ((l.map (·.home)).headD 0) ((l.map (·.key)).zip (r.bytes ctx s.time))
    | (s, .error (.busy _)) => match s.leafKey ctx va with
      | (s, some (k, home)) => s.writeRecord ctx home (keyed k (r.bytes ctx s.time))
      | (s, none) => dropped s
    | (s, .error _) => dropped s

/-- AUX of the record of a machine check at a key: the syndrome and the bank are open (log 8), and a POISON names the context that
evicted the sector (R58, R356). -/
def State.checkAux (s : State) (code key : Nat) : Nat :=
  let evictor := ((s.poison.find? fun p => p.1 == sectorOf key).map Prod.snd).getD 0
  (Config.openWord s.tick 0).toNat % 2 ^ 48 + if code = codePOISON then evictor % 256 * 2 ^ 48 else 0

/-- The record of a machine check that is charged to no core; a POISON's CTX is the owner of the page, the context of the access
(R297, R356, R431; log 68). -/
def State.looseCheck (s : State) (ctx seq code key : Nat) : Record :=
  { cseq := seq, addr := key, aux := s.checkAux code key, cls := 2, code := code, owner := if code = codePOISON then some ctx else none }

/-- UE, DATACHK and POISON. -/
def isSectorCheck (code : Nat) : Bool := codeUE ≤ code && code ≤ codePOISON

/-- A translation fault of a context at the record's address: one record for each page while it is outstanding (R45). -/
def State.postXlate (s : State) (ctx : Nat) (r : Record) : State :=
  let page := r.addr / 65536
  if s.xlates.contains (ctx, page) then s
  else ({ s with xlates := s.xlates ++ [(ctx, page)] }).post ctx { r with cls := 1, code := codeXLATE }

/-! ### Writeback (R21, R65, R96) -/

/-- The lanes of a register's content. -/
def VReg.lanes : VReg → Lanes W32
  | .uniform u => Vector.replicate 32 u
  | .affine b st => tab 32 fun i => b + BitVec.ofNat 32 i * st
  | .general l => l

def VReg.isGeneral : VReg → Bool
  | .general _ => true
  | _ => false

/-- Register Vn, uniform 0 beyond V255. -/
def Group.vreg (g : Group) (n : Nat) : VReg := nth g.v n (.uniform 0)

/-- Lanes of one table replaced where the mask has them. -/
def mergeLanes {α : Type} [Inhabited α] (m : Mask) (new old : Lanes α) : Lanes α :=
  tab 32 fun l => if m.getLsbD l then nth new l default else nth old l default

/-- Data written into one register of the trap handler or the group: index 256 + n is Kn. -/
def Group.putV (g : Group) (n : Nat) (m : Mask) (l : Lanes W32) (uniform : Bool) : Group :=
  if n < 256 then
    if uniform then { g with v := put g.v n (.uniform (nth l 0 0)) }
    else { g with v := put g.v n (.general (mergeLanes m l (g.vreg n).lanes)) }
  else match g.handler with
    | some h => { g with handler := some { h with kv := put h.kv (n - 256) (mergeLanes m l (nth h.kv (n - 256) default)) } }
    | none => g

/-- A scalar register written: index 64 + n is Kn of the handler. -/
def Group.putS (g : Group) (n : Nat) (x : W64) : Group :=
  if n < 64 then { g with s := put g.s n x }
  else match g.handler with
    | some h => { g with handler := some { h with ks := put h.ks (n - 72) x } }
    | none => g

/-- A predicate written in the lanes of a mask; P7 is discarded (R16). -/
def Group.putP (g : Group) (n : Nat) (m x : Mask) : Group :=
  if n < 7 then { g with p := put g.p n ((nth g.p n 0 &&& ~~~ m) ||| (x &&& m)) } else g

/-- What an access delivers reaches its registers. -/
def Group.deliver (g : Group) (wb : WriteBack) : Group :=
  let g := wb.v.foldl (fun g x => g.putV x.1 x.2.1 x.2.2 wb.uniform) g
  let g := match wb.s with
    | some (n, x) => g.putS n x
    | none => g
  match wb.p with
  | some (n, m, x) => g.putP n m x
  | none => g

/-- An access of the group waits for its acknowledgement from the tiles that serve it (R97, R373). -/
def Group.await (g : Group) (tiles : List Nat) : Group := { g with unacked := g.unacked + 1, acking := g.acking ++ [tiles] }

/-- The oldest acknowledgement that the group waits for has come. -/
def Group.acknowledged (g : Group) : Group := { g with unacked := g.unacked - 1, acking := g.acking.drop 1 }

/-- Every outstanding result of a group returns. -/
def Group.drain (g : Group) : Group :=
  let g := g.outstanding.foldl (fun g o => g.deliver o.wb) g
  let g := g.counters.toList.foldl (fun g c => match c with
    | some c => g.deliver c.out.wb
    | none => g) g
  { g with outstanding := [], counters := Vector.replicate 8 none }

/-! ### Barriers (R320, R321) -/

/-- A phase completes where ARRD = PART. -/
def Barrier.settle (b : Barrier) : Barrier :=
  if b.arrd = b.part then { b with phase := (b.phase + 1) % 2 ^ 16, arrd := 0 } else b

/-- A group leaves every barrier of its team. -/
def Team.leave (t : Team) (g : Nat) : Team :=
  { t with barriers := t.barriers.map fun b =>
      ({ b with part := b.part &&& (2 ^ 64 - 1 - 2 ^ g), arrd := b.arrd &&& (2 ^ 64 - 1 - 2 ^ g) } : Barrier).settle }

/-! ### Monitors (R112) -/

/-- A write of V register n empties a latch that holds it (R213). -/
def Group.unlatch (g : Group) (n : Nat) : Group :=
  { g with latch := g.latch.filter fun l => !(l.kind == 0 && decide (l.first ≤ n) && decide (n < l.first + l.len)) }

/-- The lanes of a group that wait in MWAIT receive their codes: `own` for a thread with its own end, code of its cause,
4 for the others; the monitors of those threads are disarmed and the split moves on. -/
def State.finishMwait (s : State) (w : Who) (f : Fields) (mask : Mask) (code : Nat → Option Nat → Nat) : State :=
  let find := fun (l : Nat) => s.monitors.find? fun m => m.team == w.team && m.group == w.group && m.lane == l
  let vals : Lanes W32 := tab 32 fun l => BitVec.ofNat 32 (match find l with
    | none => 5
    | some m => code l m.cause)
  let s := { s with monitors := s.monitors.filter fun m =>
    !(m.team == w.team && m.group == w.group && mask.getLsbD m.lane) }
  let s := s.modGroup w.team w.group fun g => match f.d with
    | .v n _ => (g.putV n.val mask vals false).unlatch n.val
    | _ => g
  s.advance w

/-- Every MWAIT of a group ends with code 3 and its monitors go, those that are armed and not yet waited on with them, so that a later
MWAIT finds none (R112, R290, R359; log 79). -/
def State.endMonitors (s : State) (team group : Nat) : State :=
  let waits : List (Nat × Fields × Mask) := match s.group? team group with
    | none => []
    | some g => g.liveSplits.filterMap fun (x : Nat × Split) => match x.2.wait with
      | Wait.mwait f m _ => some (x.1, f, m)
      | _ => none
  let s := waits.foldl (fun (s : State) w => s.finishMwait { team := team, group := group, split := w.1 } w.2.1 w.2.2
    fun _ c => c.getD 3) s
  { s with monitors := s.monitors.filter fun m => !(m.team == team && m.group == group) }

/-- A group's reservations go (R105). -/
def State.endReservations (s : State) (team group : Nat) : State :=
  { s with reservations := s.reservations.filter fun r => !(r.team == team && r.group == group) }

/-! ### What the matrix engine still owes (R21, R217) -/

/-- An operation of the matrix engine stores to memory. -/
def MatrixOp.stores (m : MatrixOp) : Bool := match m.i with
  | .tst _ => true
  | _ => false

/-- An operation is one of a group's. -/
def MatrixOp.ofGroup (m : MatrixOp) (team group : Nat) : Bool := m.team == team && m.members.any fun x => x.1 == group

/-- A matrix instruction of the group is in flight: a windowed result may be outstanding (R21). -/
def State.matrixBusy (s : State) (team group : Nat) : Bool := s.cores.any fun c => c.2.matrix.any fun m => m.ofGroup team group

/-- A windowed result of the matrix engine is outstanding for the group (R21). -/
def State.windowedBusy (s : State) (team group : Nat) : Bool :=
  s.cores.any fun c => c.2.matrix.any fun m => m.ofGroup team group && (fieldsOf m.i).any fun f => f.la != 0

/-- A TST of the group is not performed yet (R217); `shared`: one to shared memory. -/
def State.storing (s : State) (team group : Nat) (shared : Bool) : Bool :=
  s.cores.any fun c => c.2.matrix.any fun m =>
    m.stores && m.ofGroup team group && (!shared || m.reads.any fun x => hbmEnd ≤ x.first)

/-- An accepted matrix instruction of the group has memory still to read, or a TST is not performed yet: accesses that a release of the
group, its arrival and its leaving of a barrier, and the start of its engine commands wait for (R217, R277, R283, R284; log 19). -/
def State.matrixOwes (s : State) (team group : Nat) : Bool :=
  s.cores.any fun c => c.2.matrix.any fun m => m.ofGroup team group && (m.stores || !m.reads.isEmpty)

/-! ### Events of a team (R61, R72, R73) -/

/-- The SRAM key of record k of a team's ring. -/
def Team.ringKey (t : Team) (k : Nat) : Nat := sramKey t.core (0xF0000 + t.slot * 2048 + k % 64 * 32)

/-- The 32 bytes of an event record (R72). -/
def Post.record (p : Post) (time : Nat) : List Byte :=
  leBytes 8 time ++ leBytes 4 p.tag.toNat ++ leBytes 1 p.eng ++ leBytes 1 p.status ++ leBytes 2 p.batch ++
    leBytes 8 p.aux0.toNat ++ leBytes 8 p.aux1.toNat

/-- The first post of a team leaves its engine. -/
def dropPost (team : Nat) : List Post → List Post
  | [] => []
  | p :: rest => if p.team = team then rest else p :: dropPost team rest

/-- The oldest event of a resident team enters its ring; a full ring leaves it waiting (R73). -/
def State.pushPost (s : State) (team : Nat) : State :=
  match s.posts.find? fun p => p.team == team, s.team? team with
  | some p, some t =>
    if 64 ≤ t.ringCount then s
    else
      let s := s.poke (keyed (t.ringKey (t.ringHead + t.ringCount)) (p.record s.time))
      { s with posts := dropPost team s.posts }.modTeam team fun t => { t with ringCount := t.ringCount + 1 }
  | _, _ => s

/-- The events of a team enter its ring as far as it has room. -/
def State.flushPosts (s : State) (team : Nat) : State :=
  (s.posts.filter fun p => p.team == team).foldl (fun (s : State) _ => s.pushPost team) s

/-- An event for a team waits to be posted. -/
def State.postLater (s : State) (c : Command) (status aux0 aux1 : Nat) : State :=
  match c.owner with
  | some (t, _) =>
    { s with posts := s.posts ++ [{ team := t, eng := c.eng, status := status, tag := c.tag, batch := c.batch,
                                    aux0 := BitVec.ofNat 64 aux0, aux1 := BitVec.ofNat 64 aux1 }] }
  | none => s

/-! ### The end of a team and of a group (R328, R358) -/

/-- The arbiter of a core without a team (R215). -/
def Lease.without (l : Lease) (id : Nat) : Lease :=
  { l with
    holder := if l.holder = some id then none else l.holder
    grace := if l.holder = some id then none else l.grace
    waiting := l.waiting.filter (· != id) }

/-- A team holds its place no longer: its commands, reservations, monitors, lease and matrix operations go, and the pieces of its accesses
under way. Its events are never dropped: what its ring has no room for stays in its engine (R73; log 60). -/
def State.dropTeam (s : State) (id : Nat) : State :=
  let noLease := fun (c : Core) => { c with
    lease := c.lease.without id
    matrix := c.matrix.filter fun m => m.team != id }
  { s with
    teams := s.teams.filter fun t => t.id != id,
    commands := s.commands.filter fun c => match c.owner with
      | some (t, _) => t != id
      | none => true
    secondPieces := s.secondPieces.filter fun p => p.team != id,
    halves := s.halves.filter fun h => h.team != id,
    reservations := s.reservations.filter fun r => r.team != id,
    monitors := s.monitors.filter fun m => m.team != id,
    cores := s.cores.map fun c => (c.1, noLease c.2) }

/-- A command that its guard slot holds back (R71). -/
def Team.holds (t : Team) (c : Command) : Bool :=
  c.phase == .queued && !c.discarded && match c.guard with
    | some g => nth t.guards g .unresolved == .unresolved
    | none => false

/-- A command is one of a team's. -/
def Command.ofTeam (c : Command) (team : Nat) : Bool :=
  match c.owner with
  | some (t, _) => t == team
  | none => false

/-- A command whose guard is FALSE, or whose team has ended while it was held, is discarded with status 1 (R71, R72). -/
def State.discard (s : State) (c : Command) : State :=
  { s with commands := s.commands.filter fun x => x.id != c.id }.postLater c 1 0 0

/-- Every access of a group that has ended is done. -/
def Group.settled (g : Group) : Bool :=
  g.ended && g.unacked == 0 && g.outstanding.isEmpty && g.counters.toList.all Option.isNone

/-- The grid of a command counts a team that has ended. -/
def State.countEnded (s : State) (t : Team) : State :=
  { s with grids := updateFirst (fun (g : Grid) => g.id == t.grid) (fun g => { g with ended := g.ended + 1 }) s.grids }

/-- A team that waits for its LAUNCHQ commands alone: it holds its team slot and its event queue, and neither steps nor tiles, a local
slot or a lease (R354). -/
def State.hollowTeam (s : State) (id : Nat) : State :=
  { s.modTeam id fun t => { t with hollow := true, steps := [], steps2 := [], tiles := [], tiles2 := [] } with
    cores := s.cores.map fun c => (c.1, { c.2 with lease := c.2.lease.without id }) }

/-- A team whose groups have all ended and whose accesses are done discards the commands that its guard slots hold; once its
commands and matrix operations are done and its LAUNCHQ events posted it gives up its place, its last events in its ring as far
as that has room (R71, R73, R328, R354; log 60). -/
def State.reap (s : State) (id : Nat) : State :=
  match s.team? id with
  | none => s
  | some t =>
    if !t.groups.all Group.settled then s
    else
      let s := ((s.commands.filter fun c => c.ofTeam id && t.holds c).foldl State.discard s).flushPosts id
      let busyCore := s.cores.any fun c => c.2.matrix.any fun m => m.team == id
      let owed := s.posts.any fun p => p.team == id && p.eng == 5
      if busyCore || s.commands.any fun c => c.ofTeam id && c.eng != 5 then s
      else if owed || s.commands.any fun c => c.ofTeam id then s.hollowTeam id
      else (s.countEnded t).dropTeam id

/-- Exit status word of a group (R358). -/
def exitWord (code split group : Nat) : Nat := code + split % 256 * 2 ^ 8 + group % 2 ^ 16 * 2 ^ 16

/-- A group that a fault ended counts in its command (R343, R354). -/
def State.countFault (s : State) (t : Team) : State :=
  { s with
    grids := updateFirst (fun (g : Grid) => g.id == t.grid) (fun g => { g with faults := g.faults + 1 }) s.grids
    jobs := s.jobs.map fun j => if j.seq == t.seq then { j with faulted := true } else j }

/-- A halt that a group raised ends: its team's groups run on (R362, R379). -/
def State.endHalt (s : State) (team : Nat) (by_ : Option Nat) : State :=
  match s.team? team with
  | some t =>
    if t.halt.isSome && (by_.isNone || t.halt.map Prod.fst == by_) then
      s.modTeam team fun t => { t with halt := none, groups := t.groups.map fun g => { g.calm with halted := false } }
    else s
  | none => s

/-- A group that has ended leaves every barrier, once, when its accesses are performed, as the leaving releases them (R321). -/
def State.leaveBarriers (s : State) (team group : Nat) : State :=
  if s.matrixOwes team group then s
  else s.modTeam team fun t =>
    if (t.group? group).any fun g => g.ended && !g.left then (t.leave group).modGroup group fun g => { g with left := true } else t

/-- A group ends: its splits go, its open batch is closed, it leaves every barrier, and its traps, reservations and
monitors end (R69, R316, R321, R328, R358). -/
def State.endGroup (s : State) (team group : Nat) (exst : Option Nat) : State :=
  let s := (s.endReservations team group).endMonitors team group
  let s := s.endHalt team (some group)
  let s := (s.modGroup team group fun g =>
    { g with
      splits := Vector.replicate 4 none, exited := allLanes, ended := true, exst := exst.map (BitVec.ofNat 32 ·),
      openBatch := (g.openBatch + 1) % 2 ^ 16, latch := none, handler := none, trap := none, halted := false }).leaveBarriers team group
  let s := match exst, s.team? team with
    | some _, some t => s.countFault t
    | _, _ => s
  s.reap team

/-- The PC of a record: 0 for a machine check (R356). -/
def recordPC (code pc : Nat) : Nat := if classOf code = 2 then 0 else pc

/-- The record of a group's fault. -/
def groupRecord (t : Team) (g : Group) (info : FaultInfo) (split : Nat) (exst : Nat) : Record :=
  { exst := exst, cseq := t.seq, aux := info.aux, addr := info.addr, pc := recordPC info.code info.pc, mask := info.mask.toNat,
    core := g.core, group := g.index, team := t.lin, split := split, scope := info.scope, cls := classOf info.code,
    code := info.code }

/-- The record of an engine fault that no WAITB has raised (R70). -/
def engineRecord (t : Team) (g : Group) (x : EngineFault) (exst : Nat) : Record :=
  { exst := exst, cseq := t.seq, aux := x.aux, addr := x.addr, pc := recordPC x.code x.pc, core := g.core, group := g.index, team := t.lin,
    split := 0xFF, scope := x.scope, cls := classOf x.code, code := x.code }

/-- A group that ends leaves a record of each engine fault that no WAITB has raised; the first carries an exit status (R70). -/
def State.postEngineFaults (s : State) (t : Team) (g : Group) (exst : Nat) : State :=
  match g.engineFaults with
  | [] => s
  | e :: rest => rest.foldl (fun s x => s.post t.ctx (engineRecord t g x 0)) (s.post t.ctx (engineRecord t g e exst))

/-- A fault ends its group: exit status word, one record, and the records of the engine faults that it leaves (R70, R358). -/
def State.terminate (s : State) (team group : Nat) (info : FaultInfo) (split : Nat) : State :=
  match s.team? team with
  | none => s
  | some t =>
    match t.group? group with
    | none => s
    | some g =>
      let w := exitWord info.code split group
      ((s.post t.ctx (groupRecord t g info split w)).postEngineFaults t g 0).endGroup team group (some w)

/-! ### Taking a fault or a trap (R359, R360) -/

/-- Groups of a quarter that hold a trap-store place (R135). -/
def State.trapPlaces (s : State) (core quarter : Nat) : Nat :=
  (s.teams.flatMap fun t => t.groups.filter fun g => g.handler.isSome && g.core == core && g.quarter == quarter).length

/-- The K registers of an entry (R360). -/
def trapK (g : Group) (info : FaultInfo) : Vector (Lanes W32) 8 × Vector W64 8 :=
  let lo : Lanes W32 := info.laneAddr.map fun (a : W64) => a.setWidth 32
  let hi : Lanes W32 := info.laneAddr.map fun (a : W64) => (a >>> (32 : Nat)).setWidth 32
  let kv := (put (put (Vector.replicate 8 (Vector.replicate 32 0)) 0 lo) 1 hi)
  let k9 := info.code + classOf info.code * 2 ^ 8 + info.split * 2 ^ 16 + info.scope * 2 ^ 24 + info.trapNo * 2 ^ 32
  (kv, ⟨#[info.mask.setWidth 64, BitVec.ofNat 64 k9, BitVec.ofNat 64 info.pc, BitVec.ofNat 64 info.addr,
    BitVec.ofNat 64 info.aux, g.live.setWidth 64, BitVec.ofNat 64 info.resume, 0], rfl⟩)

/-- The handler split (R359). -/
def handlerSplit (pc : Nat) (mask : Mask) : Split :=
  { pc := pc, mask := mask, fmt := fmtReset, mode := modeReset, jr := noJoin, stack := [], fairness := 0, wait := .ready,
    windows := [], burst := 0, last := 0 }

/-- The group enters its handler: outstanding results return, the splits freeze, K0 to K15 fill, and one split of every
live thread starts at HANDLER (R359, R360). -/
def Group.enterHandler (g : Group) (pc : Nat) (info : FaultInfo) (raised : Bool) : Group :=
  let g := g.drain
  let k := trapK g info
  { g with
    handler := some { kv := k.1, ks := k.2, frozen := g.splits, records := g.records, split := info.split, raisedHalt := raised }
    records := Vector.replicate 4 { owner := 0, below := none }
    splits := put (Vector.replicate 4 none) 0 (some (handlerSplit pc g.live))
    trap := none }

/-- Another group of the quarter came earlier to wait for a trap-store place (R135). -/
def State.trapBefore (s : State) (team : Nat) (g : Group) : Bool :=
  s.teams.any fun t => t.groups.any fun h => !(t.id == team && h.index == g.index) && h.trap.isSome && h.core == g.core &&
    h.quarter == g.quarter && h.trapAt < g.trapAt && !s.matrixBusy t.id h.index

/-- A group whose fault waits enters its handler, if a trap-store place is free, none came earlier to wait for one and no windowed
result of the matrix engine is outstanding; it waits otherwise (R135, R359). -/
def State.tryTrap (s : State) (team group : Nat) : State :=
  match s.team? team with
  | none => s
  | some t =>
    match t.group? group with
    | none => s
    | some g =>
      match g.trap with
      | none => s
      | some info =>
        if s.trapPlaces g.core g.quarter < 4 && !s.matrixBusy team group && !s.trapBefore team g && (s.pieceStall team group).isNone then
          (s.settlePieces team group).modGroup team group fun g => g.enterHandler (s.handler t.ctx) info (t.halt.map Prod.fst == some group)
        else s

/-- A group takes a fault: any fault in its handler ends it with split 0xFE, a machine check ends it, with no handler it
ends, and otherwise it enters the handler (R355, R358, R359, R361). -/
def State.takeFault (s : State) (team group : Nat) (info : FaultInfo) : State :=
  match s.team? team with
  | none => s
  | some t =>
    match t.group? group with
    | none => s
    | some g =>
      if g.handler.isSome then s.terminate team group info 0xFE
      else if 0x40 ≤ info.code then s.terminate team group info info.split
      else if s.handler t.ctx = 0 then s.terminate team group info info.split
      else
        let s := (s.endReservations team group).endMonitors team group
        let s := { s with halves := s.halves.filter fun h => !(h.team == team && h.group == group) }
        let s := s.modGroup team group fun g => { g with trap := some info, trapAt := s.tick, latch := none }
        s.tryTrap team group

/-- Return from the handler: the frozen splits run on, the faulting one at K14; a halt that the group raised ends
(R379). -/
def State.returnTrap (s : State) (team group : Nat) : State :=
  match s.group? team group with
  | none => s
  | some g =>
    match g.handler with
    | none => s
    | some h =>
      let s := s.modGroup team group fun g => ({ g with splits := h.frozen, records := h.records, handler := none } : Group).calm.modSplit h.split
        fun x => { x with pc := (nth h.ks 6 0).toNat, wait := .ready }
      if h.raisedHalt then s.endHalt team (some group) else s

/-! ### Team halts (R362) -/

/-- The halt record of a group that stands at a word of the given scope (R356, R362): SKID 0, as the model stops every group at once. -/
def haltRecord (t : Team) (g : Group) (by_ cause pc split scope : Nat) : Record :=
  { cseq := t.seq, aux := by_ + cause * 2 ^ 16, pc := pc, core := g.core, group := g.index, team := t.lin, split := split,
    scope := scope, cls := 3, code := 0 }

/-- The SCOPE field of the word at a PC, as memory holds it; 0 where its page is not mapped (log 72). -/
def State.scopeAt (s : State) (ctx pc : Nat) : Nat :=
  match s.plainKey ctx (pc % 2 ^ 48) with
  | some k => bits (s.load k 2) 9 8
  | none => 0

/-- A team halt by a group: each other group, and the group itself where `self`, stops and posts its record. -/
def State.haltTeam (s : State) (team by_ cause : Nat) (self : Bool) : State :=
  match s.team? team with
  | none => s
  | some t =>
    if t.halt.isSome then s
    else
      let hit := t.groups.filter fun g => !g.ended && (self || g.index != by_)
      let s := s.modTeam team fun t => { t with
        halt := some (by_, cause)
        groups := t.groups.map fun g => if !g.ended && (self || g.index != by_) then { g with halted := true } else g }
      hit.foldl (fun s g =>
        let sp := g.liveSplits.headD (0, handlerSplit 0 0)
        s.post t.ctx (haltRecord t g by_ cause sp.2.pc sp.1 (s.scopeAt t.ctx sp.2.pc))) s

/-! ### Raising faults from a meaning -/

/-- A fault of the instruction in hand for the lanes of a mask. -/
def Ctx.fault (c : Ctx) (code : Nat) (mask : Mask) : FaultInfo :=
  { code := code, split := c.who.split, scope := (match c.f.scope with
      | .lane => 0
      | .group => 1
      | .gang => 2
      | .team => 3), mask := mask, pc := c.sp.pc, addr := 0, aux := 0, trapNo := 0, laneAddr := Vector.replicate 32 0,
    resume := c.sp.pc }

/-- The instruction in hand faults. -/
def State.raise (s : State) (c : Ctx) (info : FaultInfo) : State := s.takeFault c.who.team c.who.group info

/-- The instruction in hand waits for the translation of a virtual address and posts its record (R45). -/
def State.raiseXlate (s : State) (c : Ctx) (mask : Mask) (aux va : Nat) : State :=
  let r := groupRecord c.t c.g { c.fault codeXLATE mask with addr := va, aux := aux } c.who.split 0
  (s.postXlate c.t.ctx r).block c.who (.xlate c.t.ctx (va / 65536))

end Sys2Proof.Machine
end

