-- ==== Sys2Proof/Machine/Flags.lean ====
section
/-! DEFINITION. The sticky flags (R161), the rounding mode of an instruction (R24, R133), denormal handling (R160) and the
random values of stochastic rounding (R155, R156). -/

namespace Sys2Proof.Machine

/-- The bits of the flag word (R161). -/
def flagIV : Nat := 1
def flagDZ : Nat := 2
def flagOF : Nat := 4
def flagUF : Nat := 8
def flagNX : Nat := 16

/-- The flags that a rounding raises. -/
def Rounded.flags (r : Rounded) : Nat :=
  b2n r.iv * flagIV + b2n r.dz * flagDZ + b2n r.of * flagOF + b2n r.uf * flagUF + b2n r.nx * flagNX

/-- Flags joined into a group's word. -/
def Group.raiseFlags (g : Group) (n : Nat) : Group := { g with flags := g.flags ||| BitVec.ofNat 32 n }

/-- The rounding mode of a code of R24 or R133; the reserved codes never stand. -/
def rmodeOf (n : Nat) : RMode :=
  match n with
  | 2 => .rtz
  | 3 => .rup
  | 4 => .rdn
  | 5 => .rna
  | 6 => .rsr
  | _ => .rne

/-- The mode of an instruction: RND, or MODE.RM where RND is 000 (R24). -/
def roundMode (f : Fields) (mode : W32) : RMode :=
  if f.rnd.toNat = 0 then rmodeOf (bits mode.toNat 2 0) else rmodeOf f.rnd.toNat

def modeFTZ (mode : W32) : Bool := mode.getLsbD 3
def modeDAZ (mode : W32) : Bool := mode.getLsbD 4
def modeNANP (mode : W32) : Nat := bits mode.toNat 6 5
def modeSSEL (mode : W32) : Nat := bits mode.toNat 9 8

/-- The mixing steps of R155. -/
def mixRandom (x : Nat) : Nat :=
  let m := 2 ^ 64
  let x := (x ^^^ (x / 2 ^ 33)) * 0x62A9D9ED799705F5 % m
  let x := (x ^^^ (x / 2 ^ 29)) * 0xCB24D0A5C88C35B3 % m
  (x ^^^ (x / 2 ^ 32)) % 2 ^ 32

/-- The random value r of a seed, a team, a thread number and a counter (R155). -/
def randomOf (seed : W64) (team thread counter : Nat) : Nat :=
  mixRandom ((seed.toNat ^^^ (team * 2 ^ 32) ^^^ (thread * 2 ^ 16) ^^^ (counter % 2 ^ 64)) % 2 ^ 64)

/-- Draw k of the thread in a lane, from its counter on (R155). -/
def Ctx.draw (c : Ctx) (lane k : Nat) : Nat :=
  randomOf (nth c.g.seeds (modeSSEL c.sp.mode) 0) c.t.lin (32 * c.g.index + lane)
    ((nth c.g.rsr lane 0).toNat + k)

/-- The counters of the lanes of a mask advance by n (R155). -/
def Group.drew (g : Group) (m : Mask) (n : Nat) : Group :=
  { g with rsr := tab 32 fun l => if m.getLsbD l then nth g.rsr l 0 + BitVec.ofNat 64 n else nth g.rsr l 0 }

/-- A denormal read as zero of its sign where DAZ is set (R160). -/
def daz (F : FloatFmt) (mode : W32) (code : Nat) : Nat :=
  let mag := code % 2 ^ (F.bits - 1)
  if modeDAZ mode && mag < 2 ^ F.mbits then code % 2 ^ F.bits - mag else code % 2 ^ F.bits

/-- A denormal result written as zero of its sign where FTZ is set, with UF and NX (R160). -/
def ftz (F : FloatFmt) (mode : W32) (r : Rounded) : Rounded :=
  let mag := r.code % 2 ^ (F.bits - 1)
  if modeFTZ mode && 0 < mag && mag < 2 ^ F.mbits then { r with code := r.code - mag, uf := true, nx := true } else r

end Sys2Proof.Machine
end

