-- ==== Sys2Proof/Machine/Operands.lean ====
section
/-! DEFINITION. Every operand form: reading through the crossbar with permutations and presented tags
(spec/01_instruction_word.md R15 to R19, spec/05_registers.md R124, R130), writing results with their tags under the
ceiling (R125 to R127, R167), the lookahead window and the dependence check (R21), and the addresses of the memory
class (spec/04_memory_instructions.md R87). -/

namespace Sys2Proof.Machine

/-! ### Reading -/

/-- The source lane of a permutation; none where zero enters (R18). -/
def permLane (q : Perm) (i : Nat) : Option Nat :=
  match q with
  | .id => some i
  | .rot k => some ((i + k.val) % 32)
  | .bcast k => some k.val
  | .xor k => some (i ^^^ k.val)
  | .mir k => some (i ^^^ (2 ^ k.val - 1))
  | .shu k => if k.val ≤ i then some (i - k.val) else none
  | .shd k => if i + k.val < 32 then some (i + k.val) else none

/-- A permutation that delivers every lane its own value (R124). -/
def permIsId : Perm → Bool
  | .id => true
  | .rot k => k.val == 0
  | .xor k => k.val == 0
  | .shu k => k.val == 0
  | .shd k => k.val == 0
  | _ => false

/-- A register as the crossbar presents it (R124). -/
def VReg.permute (r : VReg) (q : Perm) : VReg :=
  if permIsId q then r
  else
    let l := r.lanes
    match q, r with
    | .bcast k, _ => .uniform (nth l k.val 0)
    | .shu _, _ => .general (tab 32 fun i => match permLane q i with
      | some j => nth l j 0
      | none => 0)
    | .shd _, _ => .general (tab 32 fun i => match permLane q i with
      | some j => nth l j 0
      | none => 0)
    | _, .uniform u => .uniform u
    | _, _ => .general (tab 32 fun i => nth l ((permLane q i).getD 0) 0)

/-- How a 16-bit immediate is read (R17): sign-extended, zero-extended, as the upper half of an FP32 value, or replicated
into both halves. -/
inductive ImmKind where
  | signed | unsigned | upper | both
  deriving DecidableEq, Repr

/-- The low and high words of an immediate. -/
def immWords (k : ImmKind) (w : BitVec 16) : W32 × W32 :=
  match k with
  | .signed => (w.signExtend 32, ((w.signExtend 64) >>> (32 : Nat)).setWidth 32)
  | .unsigned => (w.setWidth 32, 0)
  | .upper => (w.setWidth 32 <<< (16 : Nat), w.setWidth 32 <<< (16 : Nat))
  | .both => (w.setWidth 32 ||| (w.setWidth 32 <<< (16 : Nat)), w.setWidth 32 ||| (w.setWidth 32 <<< (16 : Nat)))

/-- A scalar register, Kn of the handler at 64 + n. -/
def Group.sreg (g : Group) (n : Nat) : W64 :=
  if n < 64 then nth g.s n 0 else match g.handler with
    | some h => nth h.ks (n - 72) 0
    | none => 0

/-- A vector register of the handler. -/
def Group.kreg (g : Group) (n : Nat) : VReg :=
  match g.handler with
  | some h => .general (nth h.kv n (Vector.replicate 32 0))
  | none => .uniform 0

def lowWord (x : W64) : W32 := x.setWidth 32
def highWord (x : W64) : W32 := (x >>> (32 : Nat)).setWidth 32

/-- Word j of a source block as it is presented (R15, R124, R168). -/
def Group.word (g : Group) (k : ImmKind) (o : Opnd) (j : Nat) : VReg :=
  match o with
  | .v n q => (g.vreg (n.val + j)).permute q
  | .s n => .uniform (if j % 2 = 0 then lowWord (g.sreg (n.val + j / 2)) else highWord (g.sreg (n.val + j / 2)))
  | .x n => .general (nth g.x (n.val + j) (Vector.replicate 32 0))
  | .k n =>
    if n.val < 8 then g.kreg (n.val + j)
    else .general (Vector.replicate 32
      (if j % 2 = 0 then lowWord (g.sreg (64 + n.val + j / 2)) else highWord (g.sreg (64 + n.val + j / 2))))
  | .imm w => .uniform (if j % 2 = 0 then (immWords k w).1 else (immWords k w).2)
  | .special _ => .uniform 0
  | .p n => .general (tab 32 fun l => if (g.pred n.val).getLsbD l then 1 else 0)
  | .t _ => .uniform 0

/-- The value of a presented word in a lane. -/
def VReg.at (r : VReg) (l : Nat) : W32 :=
  match r with
  | .uniform u => u
  | .affine b s => b + BitVec.ofNat 32 l * s
  | .general v => nth v l 0

def VReg.isUniform : VReg → Bool
  | .uniform _ => true
  | _ => false

/-- A scalar source: an S or K register whole, a zero- or sign-extended immediate, or ZERO. -/
def Group.scalar (g : Group) (k : ImmKind) (o : Opnd) : W64 :=
  match o with
  | .s n => g.sreg n.val
  | .k n => g.sreg (64 + n.val)
  | .imm w => (immWords k w).2 ++ (immWords k w).1
  | _ => 0

/-- A predicate source. -/
def Group.predOf (g : Group) (o : Opnd) : Mask :=
  match o with
  | .p n => g.pred n.val
  | _ => 0

/-- A predicate source with its negation by XM (R188). -/
def Group.predNeg (g : Group) (neg : Bool) (o : Opnd) : Mask := if neg then ~~~ g.predOf o else g.predOf o

/-- The designated thread of a GROUP-scope instruction (R167). -/
def Ctx.designated (c : Ctx) : Nat := (lowest c.act).getD 0

/-! ### Writing -/

/-- What one thread computes: the words of its destination block, its predicate, and the flags it raises. -/
structure LaneOut where
  w : List W32
  p : Bool := false
  flags : Nat := 0
  deriving DecidableEq, Repr

/-- The result shape of R125: uniform, an affine register, or general. -/
inductive Form where
  | uniform
  | affine (b s : W32)
  | general
  deriving DecidableEq, Repr

/-- The write rule of R126 for a LANE-scope write of register n with new content by lane. A result of uniform shape whose
lanes stochastic rounding made differ is general (log 14). -/
def Group.writeLane (g : Group) (n : Nat) (act : Mask) (form : Form) (l : Lanes W32) : Group :=
  if act = 0 then g
  else if act = allLanes then
    { g with v := put g.v n (match form with
      | .uniform => if l.toList.all (· == nth l 0 0) then .uniform (nth l 0 0) else .general l
      | .affine b s => .affine b s
      | .general => .general l) }
  else { g with v := put g.v n (.general (mergeLanes act l (g.vreg n).lanes)) }

/-- A block of words written at LANE scope (R126, R130, R166). -/
def Group.putLanes (g : Group) (d : Opnd) (n : Nat) (act : Mask) (form : Nat → Form) (out : Lanes LaneOut) : Group :=
  let col := fun (j : Nat) => (tab 32 fun l => (nth out l { w := [] }).w.getD j 0 : Lanes W32)
  match d with
  | .v i _ => (List.range n).foldl (fun g j => g.writeLane (i.val + j) act (form j) (col j)) g
  | .x i => { g with x := (List.range n).foldl (fun x j =>
      put x (i.val + j) (mergeLanes act (col j) (nth x (i.val + j) (Vector.replicate 32 0)))) g.x }
  | .k i => (List.range n).foldl (fun g j => g.putV (256 + i.val + j) act (col j) false) g
  | .p i => g.putP i.val act (maskOf fun l => (nth out l { w := [] }).p)
  | _ => g

/-- The 64-bit value of a block of one or two words; one word is sign- or zero-extended (R167). -/
def wordsTo64 (signed : Bool) (w : List W32) : W64 :=
  match w with
  | [x] => if signed then x.signExtend 64 else x.setWidth 64
  | x :: y :: _ => y ++ x
  | [] => 0

/-- A block of words written at GROUP scope: all 32 lanes, uniform (R126, R167). -/
def Group.putGroup (g : Group) (d : Opnd) (signed : Bool) (out : LaneOut) : Group :=
  match d with
  | .v i _ => (List.range out.w.length).foldl
      (fun g j => { g with v := put g.v (i.val + j) (.uniform (out.w.getD j 0)) }) g
  | .s i => g.putS i.val (wordsTo64 signed out.w)
  | .k i =>
    if i.val < 8 then (List.range out.w.length).foldl
      (fun g j => g.putV (256 + i.val + j) allLanes (Vector.replicate 32 (out.w.getD j 0)) false) g
    else g.putS (64 + i.val) (wordsTo64 signed out.w)
  | .p i => g.putP i.val allLanes (if out.p then allLanes else 0)
  | _ => g

/-! ### Registers that an instruction names (R21) -/

/-- The registers of one operand. -/
def spanOf (u : Use) (o : Opnd) : List Span :=
  match o with
  | .v n _ => if u.v = 0 then [] else [{ kind := 0, first := n.val, len := u.v }]
  | .s n => [{ kind := 1, first := n.val, len := u.s }]
  | .p n => if n.val = 7 then [] else [{ kind := 2, first := n.val, len := 1 }]
  | .x n => [{ kind := 3, first := n.val, len := u.x }]
  | .t n => [{ kind := 4, first := n.val, len := 1 }]
  | .k n => [{ kind := 7, first := n.val, len := if n.val < 8 then u.v else u.s }]
  | _ => []

/-- The registers that an instruction's destination names. -/
def destSpans (e : Env) (i : Instr) (f : Fields) : List Span := spanOf (shape e i).d f.d

/-- Every register that an instruction reads or writes, its guard included. -/
def allSpans (e : Env) (i : Instr) (f : Fields) : List Span :=
  let sh := shape e i
  spanOf sh.d f.d ++ spanOf sh.a f.a ++ spanOf sh.b f.b ++ spanOf sh.c f.c ++
    (if f.gp.val = 7 then [] else [{ kind := 2, first := f.gp.val, len := 1 }])

/-- A block of A under `.FMT` of a 6-bit format, which is longer than decode counts it (R209, R210, R429). -/
def wideA (fmt : W32) (i : Instr) (f : Fields) : Bool :=
  (match i with
    | .mma _ => true
    | .mmaq _ => true
    | .dist _ => true
    | _ => false) && f.dt == 15 && (bits fmt.toNat 3 0 == 6 || bits fmt.toNat 3 0 == 7)

/-- The registers that an instruction names by what FMT or a register holds: the end of a 6-bit block of A under `.FMT`,
and the scratch tile of MMASM (R209, R210, R225). -/
def lateSpans (e : Env) (g : Group) (fmt : W32) (i : Instr) (f : Fields) : List Span :=
  let block := if wideA fmt i f then
      (match f.a with
        | .v n _ => [{ kind := 0, first := n.val + 32, len := 4 }]
        | .x n => [{ kind := 3, first := n.val + 32 / e.gang, len := (36 + e.gang - 1) / e.gang - 32 / e.gang }]
        | _ => [])
    else []
  match i with
  | .mmasm _ => block ++ [{ kind := 4, first := bits (g.scalar .unsigned f.c).toNat 35 32, len := 1 }]
  | _ => block

/-- Every register that an instruction reads or writes as it issues. -/
def issueSpans (t : Team) (g : Group) (fmt : W32) (i : Instr) (f : Fields) : List Span :=
  allSpans (groupEnv t g) i f ++ lateSpans (groupEnv t g) g fmt i f

def Span.meets (x y : Span) : Bool := x.kind == y.kind && x.first < y.first + y.len && y.first < x.first + x.len
def spansMeet (xs ys : List Span) : Bool := xs.any fun x => ys.any fun y => x.meets y

/-- The registers of a group's results that are still outstanding. -/
def State.pendingSpans (s : State) (team : Nat) (g : Group) : List Span :=
  (g.outstanding.flatMap (·.regs)) ++
    (g.counters.toList.flatMap fun c => match c with
      | some c => c.out.regs
      | none => []) ++
    (s.cores.flatMap fun c => c.2.matrix.flatMap fun m =>
      if m.ofGroup team g.index then m.writes.filter fun x => x.kind != 4 else [])

/-- The instruction in hand needs a result that is still outstanding. -/
def State.depends (s : State) (c : Ctx) : Bool :=
  spansMeet (s.pendingSpans c.who.team c.g) (issueSpans c.t c.g c.sp.fmt c.i c.f)

/-- The instruction in hand breaks the promise of a lookahead window (R21). -/
def Ctx.broken (c : Ctx) : Bool :=
  c.act != 0 && spansMeet (c.sp.windows.flatMap (·.regs)) (issueSpans c.t c.g c.sp.fmt c.i c.f)

/-- The windows after the instruction has issued: each counts down, and the instruction's own opens, also where no thread's guard lets it
act (log 73). -/
def Ctx.windows (c : Ctx) : List Window :=
  let old := (c.sp.windows.map fun w => { w with left := w.left - 1 }).filter fun w => w.left != 0
  if c.f.la.val = 0 then old
  else old ++ [{ left := c.f.la.val, regs := destSpans (groupEnv c.t c.g) c.i c.f }]

/-- An instruction that ends the hold of R106 on its thread's path from LDRES to STCOND: a memory access but STCOND (0x80 to 0x91, the
tile moves, EMIT, and the copies of a table entry), an engine command (0xA0 to 0xA6), a fence, MWAIT, or one at GANG or TEAM scope. -/
def breaksHold (i : Instr) (f : Fields) : Bool :=
  f.scope == .gang || f.scope == .team || match i, head i with
    | .sysrTbl _, _ => true
    | .syswTbl _, _ => true
    | _, some (opc, _) => (0x80 ≤ opc && opc < 0xA7 && opc != 0x8B) || opc == 0xC4 || opc == 0xC5 || opc == 0xE3
    | _, none => false

/-- The registers of a group's latch. -/
def Group.latchSpan (g : Group) : List Span :=
  match g.latch with
  | some l => [{ kind := l.kind, first := l.first, len := l.len }]
  | none => []

/-- A write by the instruction in hand to a register of a latched block empties the latch: the group's own, and for an X
block that of every member of the gang (R213). -/
def State.emptyLatches (s : State) (c : Ctx) : State :=
  let d := destSpans (groupEnv c.t c.g) c.i c.f
  if c.act = 0 || d.all (fun x => x.kind == 4) then s
  else s.modGroups c.who.team fun g =>
    let mine := g.index == c.who.group || (g.gang.map Prod.fst == c.g.gang.map Prod.fst && g.gang.isSome &&
      d.any fun x => x.kind == 3)
    if mine && spansMeet d g.latchSpan then { g with latch := none } else g

/-- A word has issued in its split: its windows move, a latch whose register it writes empties, and reservations of the
split count it (R21, R106, R213). A hold goes with the 17th word after its LDRES, where STCOND is one of them (log 78), with one that
R106 does not allow on the path, and where its thread has left the split. -/
def State.issued (s : State) (c : Ctx) : State :=
  let s := (s.modSplit c.who fun x => { x with windows := c.windows }).emptyLatches c
  { s with reservations := s.reservations.map fun r =>
    if r.team == c.who.team && r.group == c.who.group && r.split == c.who.split then
      { r with issued := r.issued + 1, hold := r.hold && r.issued < 16 && !breaksHold c.i c.f && c.sp.mask.getLsbD r.lane }
    else if r.team == c.who.team && r.group == c.who.group && c.sp.mask.getLsbD r.lane then { r with hold := false }
    else r }

/-! ### The ceiling (R127) -/

/-- The general count of a group. -/
def Group.generals (g : Group) : Nat := (g.v.toList.filter VReg.isGeneral).length

/-- Writes that leave n general registers break the group's ceiling. -/
def Group.overCeiling (g : Group) (n : Nat) : Bool := decide (g.ceiling < n) && decide (g.generals < n)

/-! ### Issue -/

/-- The start of every word instruction: it waits for the results it needs, and then runs `k` (R21). -/
def attempt (i : Instr) (f : Fields) (s : State) (k : Ctx → State → Res) : Res :=
  match s.ctx i f with
  | none => .fault .noSplit
  | some c => if s.depends c then .next (s.block c.who (.depend i)) else k c s

/-- The start of an instruction that cannot stall once its sources are there: it has issued. -/
def begin_ (i : Instr) (f : Fields) (s : State) (k : Ctx → State → Res) : Res :=
  attempt i f s fun c s => k c (s.issued c)

/-- The checks that come before an effect: the ceiling for `n` general registers after the instruction, then the
lookahead windows (R21, R127). With no contributor the instruction is passed over (R20). -/
def gate (c : Ctx) (s : State) (n : Nat) (k : State → Res) : Res :=
  if c.act = 0 then .next (s.advance c.who)
  else if c.g.overCeiling n then .next (s.raise c (c.fault codeREGCEIL c.act))
  else if c.broken then .next (s.raise c (c.fault codeLOOKAHEAD c.act))
  else k s

/-- The same for an instruction that may still stall: passed over, it has issued all the same. -/
def gateLate (c : Ctx) (s : State) (n : Nat) (k : State → Res) : Res :=
  if c.act = 0 then .next ((s.issued c).advance c.who) else gate c s n k

/-- What an instruction that only reads and writes registers does to its group, or the fault it meets. -/
inductive Eff where
  | done (f : Group → Group)
  | fault (code : Nat) (mask : Mask)

/-- An instruction that only reads and writes the registers of its group. -/
def registers (i : Instr) (f : Fields) (s : State) (body : Ctx → Eff) : Res :=
  begin_ i f s fun c s =>
    match body c with
    | .done h =>
      gate c s (h c.g).generals fun s => .next ((s.modGroup c.who.team c.who.group h).advance c.who)
    | .fault code mask => gate c s 0 fun s => .next (s.raise c (c.fault code mask))

/-- The result of one thread's computation written by the scope (R126, R167): `n` words, `form` the result shape of
R125, `draws` the elements that each thread rounds, `signed` how a 32-bit result fills an S register. -/
def Ctx.writeBy (c : Ctx) (n : Nat) (form : Nat → Form) (signed : Bool) (draws : Nat) (out : Nat → LaneOut) : Eff :=
  if c.f.scope = .group then
    let o := out c.designated
    .done fun g => ((g.putGroup c.f.d signed o).raiseFlags o.flags).drew (maskOf (· == c.designated)) draws
  else
    let outs : Lanes LaneOut := tab 32 out
    let flags := (lanesOf c.act).foldl (fun acc l => acc ||| (nth outs l { w := [] }).flags) 0
    .done fun g => ((g.putLanes c.f.d n c.act form outs).raiseFlags flags).drew c.act draws

/-- The same with one shape for the whole block. -/
def Ctx.write (c : Ctx) (n : Nat) (form : Form) (signed : Bool) (draws : Nat) (out : Nat → LaneOut) : Eff :=
  c.writeBy n (fun _ => form) signed draws out

/-- The shape of every row of R125 that has none of its own: uniform where every source presents uniform. -/
def formOf (srcs : List VReg) : Form := if srcs.all VReg.isUniform then .uniform else .general

/-! ### Addresses (R87) -/

/-- The 64-bit value of a V pair in a lane, both registers through one permutation. -/
def Group.pairAt (g : Group) (n : Nat) (q : Perm) (l : Nat) : W64 :=
  ((g.vreg (n + 1)).permute q).at l ++ ((g.vreg n).permute q).at l

/-- The global address of a lane. -/
def Ctx.globalAddr (c : Ctx) (l : Nat) : W64 :=
  let base : W64 := match c.f.a with
    | .v n q => c.g.pairAt n.val q l
    | .s n => c.g.sreg n.val
    | _ => 0
  let off : W64 := match c.f.b with
    | .v n q => (((c.g.vreg n.val).permute q).at l).signExtend 64
    | .s n => c.g.sreg n.val
    | .imm w => w.signExtend 64
    | _ => 0
  base + off

/-- The shared or local offset of a lane. -/
def Ctx.localOff (c : Ctx) (l : Nat) : Nat :=
  let base : W32 := match c.f.a with
    | .v n q => ((c.g.vreg n.val).permute q).at l
    | .s n => lowWord (c.g.sreg n.val)
    | _ => 0
  let off : W32 := match c.f.b with
    | .v n q => ((c.g.vreg n.val).permute q).at l
    | .s n => lowWord (c.g.sreg n.val)
    | .imm w => w.signExtend 32
    | _ => 0
  (base + off).toNat

end Sys2Proof.Machine
end

