-- ==== Sys2Proof/Machine/Floating.lean ====
section
/-! DEFINITION. The floating class (spec/07_vector_instructions.md R182 to R187) and the special functions
(spec/06_number_formats.md R164). -/

namespace Sys2Proof.Machine

/-! ### Sources -/

/-- The element format of a floating type (R182). -/
def fltFmt (dt : Nat) : FloatFmt :=
  match dt with
  | 1 => fp16
  | 2 => bf16
  | _ => fp32

/-- Elements of a floating type (R146). -/
def fltElems (dt : Nat) : Nat := if dt = 0 then 1 else 2

/-- How a floating type reads an immediate (R17). -/
def fltImm (dt : Nat) : ImmKind := if dt = 1 || dt = 2 then .both else .upper

/-- A floating source: whether it presents uniform, and the code of element e in a lane after DAZ and the modifiers
(R160, R182). -/
structure FltSrc where
  tags : List VReg
  code : Nat → Nat → Nat

/-- The sign bit of a code changed: |x| first, then negation (R182). -/
def signMod (F : FloatFmt) (neg abs : Bool) (x : Nat) : Nat :=
  let top := 2 ^ (F.bits - 1)
  let x := if abs then x % top else x
  if neg then (if x < top then x + top else x - top) else x

/-- A source of type dt. -/
def Ctx.fltSrc (c : Ctx) (dt : Nat) (o : Opnd) (neg abs useDaz : Bool) : FltSrc :=
  let F := fltFmt dt
  let lo := c.g.word (fltImm dt) o 0
  let hi := c.g.word (fltImm dt) o 1
  let raw := fun (l e : Nat) =>
    match dt with
    | 0 => (lo.at l).toNat
    | 3 => if e = 0 then (lo.at l).toNat else (hi.at l).toNat
    | _ => (lo.at l).toNat / 2 ^ (16 * e) % 2 ^ 16
  { tags := if dt = 3 then [lo, hi] else [lo],
    code := fun l e => signMod F neg abs (if useDaz then daz F c.sp.mode (raw l e) else raw l e) }

def Ctx.fltA (c : Ctx) : FltSrc := c.fltSrc (dtN c.f) c.f.a (bit (xmN c.f) 0) (bit (xmN c.f) 3) true
def Ctx.fltB (c : Ctx) : FltSrc := c.fltSrc (dtN c.f) c.f.b (bit (xmN c.f) 1) false true
def Ctx.fltC (c : Ctx) : FltSrc := c.fltSrc (dtN c.f) c.f.c (bit (xmN c.f) 2) false true

/-- The words of a result's elements (R146). -/
def fltWords (dt : Nat) (e0 e1 : Nat) : List W32 :=
  match dt with
  | 0 => [BitVec.ofNat 32 e0]
  | 3 => [BitVec.ofNat 32 e0, BitVec.ofNat 32 e1]
  | _ => [BitVec.ofNat 32 (e0 + e1 * 2 ^ 16)]

/-- The random value of an element; zero where the mode draws none. -/
def Ctx.rand (c : Ctx) (md : RMode) (l e : Nat) : Nat := if md = .rsr then c.draw l e else 0

/-- Elements drawn for a count of elements in a mode. -/
def drawsIn (md : RMode) (n : Nat) : Nat := if md = .rsr then n else 0

/-- A floating form that computes each element alone: `op` gives the rounded element (R146, R184). -/
def fltForm (i : Instr) (f : Fields) (s : State) (dt : Nat) (srcs : Ctx → List VReg) (rounds : Bool)
    (op : Ctx → RMode → Nat → Nat → Nat → Rounded) : Res :=
  registers i f s fun c =>
    let md := if rounds then roundMode f c.sp.mode else .rne
    let F := fltFmt dt
    let el := op c md
    c.write (fltRegs dt) (formOf (srcs c)) false (if rounds then drawsIn md (fltElems dt) else 0) fun l =>
      let r := fun (e : Nat) => ftz F c.sp.mode (el (if rounds then c.rand md l e else 0) l e)
      let r0 := r 0
      let r1 := if fltElems dt = 2 then r 1 else { code := 0 }
      { w := fltWords dt r0.code r1.code, flags := r0.flags ||| r1.flags }

/-- An exact value rounded; a NaN that no source held sets IV (R161, R184). -/
def roundNew (F : FloatFmt) (md : RMode) (sat : Bool) (r : Nat) (srcNan : Bool) (x : Num) : Rounded :=
  let y := F.round md sat r x
  if x.isNan && !srcNan then { y with iv := true } else y

/-! ### Arithmetic (R184, R187) -/

/-- A form whose exact value is a sum of addends formed from the elements. -/
def fltSum (i : Instr) (f : Fields) (s : State) (useC : Bool) (terms : Num → Num → Num → List Num) : Res :=
  let F := fltFmt (dtN f)
  fltForm i f s (dtN f) (fun c => c.fltA.tags ++ c.fltB.tags ++ if useC then c.fltC.tags else []) true fun c md =>
    let a := c.fltA
    let b := c.fltB
    let d := c.fltC
    fun r l e =>
      let x := F.decode (a.code l e)
      let y := F.decode (b.code l e)
      let z := if useC then F.decode (d.code l e) else .fin false 0 0
      roundNew F md f.sat r (x.isNan || y.isNan || z.isNan) (sumOf md (terms x y z))

/-- FADD. -/
def execFadd (f : Fields) (s : State) : Res := fltSum (.fadd f) f s false fun x y _ => [x, y]
/-- FSUB. -/
def execFsub (f : Fields) (s : State) : Res := fltSum (.fsub f) f s false fun x y _ => [x, y.negate]
/-- FFMA. -/
def execFfma (f : Fields) (s : State) : Res := fltSum (.ffma f) f s true fun x y z => [x.mul y, z]

/-- FMUL. -/
def execFmul (f : Fields) (s : State) : Res :=
  let F := fltFmt (dtN f)
  fltForm (.fmul f) f s (dtN f) (fun c => c.fltA.tags ++ c.fltB.tags) true fun c md =>
    let a := c.fltA
    let b := c.fltB
    fun r l e =>
      let x := F.decode (a.code l e)
      let y := F.decode (b.code l e)
      roundNew F md f.sat r (x.isNan || y.isNan) (x.mul y)

/-- FDOT2: both products and both sums exact, one rounding to F32 (R184). -/
def execFdot2 (f : Fields) (s : State) : Res :=
  let F := fltFmt (dtN f)
  registers (.fdot2 f) f s fun c =>
    let md := roundMode f c.sp.mode
    let a := c.fltA
    let b := c.fltB
    let d := c.fltSrc 0 f.c (bit (xmN f) 2) false true
    c.write 1 (formOf (a.tags ++ b.tags ++ d.tags)) false (drawsIn md 1) fun l =>
      let v := fun (x : FltSrc) (e : Nat) => F.decode (x.code l e)
      let z := num32 (d.code l 0)
      let nan := (v a 0).isNan || (v a 1).isNan || (v b 0).isNan || (v b 1).isNan || z.isNan
      let r := ftz fp32 c.sp.mode (roundNew fp32 md f.sat (c.rand md l 0) nan
        (sumOf md [(v a 0).mul (v b 0), (v a 1).mul (v b 1), z]))
      { w := [BitVec.ofNat 32 r.code], flags := r.flags }

/-- The quotient of R187. -/
def divideFlt (md : RMode) (sat : Bool) (r : Nat) (x y : Num) : Rounded :=
  match x, y with
  | .nan, _ => fp32.round md sat r .nan
  | _, .nan => fp32.round md sat r .nan
  | .inf _, .inf _ => { code := 0x7FC00000, iv := true }
  | .inf p, .fin q _ _ => fp32.round md sat r (.inf (p != q))
  | .fin p _ _, .inf q => { code := fp32.sign (p != q) }
  | .fin p m e, .fin q n k =>
    if n = 0 then
      if m = 0 then { code := 0x7FC00000, iv := true }
      else { fp32.round md sat r (.inf (p != q)) with dz := true }
    else fp32.roundMag md sat r (p != q) m n (e - k)

/-- FDIV. -/
def execFdiv (f : Fields) (s : State) : Res :=
  fltForm (.fdiv f) f s 0 (fun c => c.fltA.tags ++ c.fltB.tags) true fun c md =>
    let a := c.fltA
    let b := c.fltB
    fun r l e => divideFlt md f.sat r (num32 (a.code l e)) (num32 (b.code l e))

/-- The square root of R187. -/
def sqrtFlt (md : RMode) (r : Nat) (x : Num) : Rounded :=
  match x with
  | .nan => { code := 0x7FC00000 }
  | .inf false => { code := 0x7F800000 }
  | .inf true => { code := 0x7FC00000, iv := true }
  | .fin neg m e =>
    if m = 0 then { code := fp32.sign neg }
    else if neg then { code := 0x7FC00000, iv := true }
    else fp32.roundSqrt md r m e

/-- FSQRT. -/
def execFsqrt (f : Fields) (s : State) : Res :=
  fltForm (.fsqrt f) f s 0 (fun c => c.fltA.tags) true fun c md =>
    let a := c.fltA
    fun r l e => sqrtFlt md r (num32 (a.code l e))

/-- FSCALE: a · 2^n with one integer n for every element. -/
def execFscale (f : Fields) (s : State) : Res :=
  let F := fltFmt (dtN f)
  fltForm (.fscale f) f s (dtN f) (fun c => c.fltA.tags ++ [c.g.word .signed f.b 0]) true fun c md =>
    let a := c.fltA
    let b := c.g.word .signed f.b 0
    fun r l e =>
      match F.decode (a.code l e) with
      | .fin neg m k => F.round md f.sat r (.fin neg m (k + toSigned 32 (b.at l).toNat))
      | x => F.round md f.sat r x

/-! ### Selection and comparison (R185) -/

/-- The smaller, or for `max` the larger, of two codes; -0 is below +0, NANP decides on one NaN (R185). -/
def minMax (F : FloatFmt) (nanp : Nat) (max : Bool) (x y : Nat) : Nat :=
  let a := F.decode x
  let b := F.decode y
  let nan := F.nan.getD 0
  if a.isNan && b.isNan then nan
  else if a.isNan then (if nanp = 0 then y else nan)
  else if b.isNan then (if nanp = 0 then x else nan)
  else match a.cmp b with
    | some .lt => if max then y else x
    | some .gt => if max then x else y
    | _ => if a.neg? != max then x else y

/-- FMIN and FMAX: no flag, and nothing rounded. -/
def selectFlt (i : Instr) (f : Fields) (s : State) (max : Bool) : Res :=
  let F := fltFmt (dtN f)
  registers i f s fun c =>
    let a := c.fltA
    let b := c.fltB
    c.write (fltRegs (dtN f)) (formOf (a.tags ++ b.tags)) false 0 fun l =>
      let r := fun (e : Nat) => minMax F (modeNANP c.sp.mode) max (a.code l e) (b.code l e)
      { w := fltWords (dtN f) (r 0) (r 1) }

/-- FMIN. -/
def execFmin (f : Fields) (s : State) : Res := selectFlt (.fmin f) f s false
/-- FMAX. -/
def execFmax (f : Fields) (s : State) : Res := selectFlt (.fmax f) f s true

/-- The conditions of FCMP (R185). -/
def fcmpOf (sub : Nat) (x y : Num) : Bool :=
  match x.cmp y with
  | none => sub == 1 || sub == 7
  | some o => match sub with
    | 0 => o == .eq
    | 1 => o != .eq
    | 2 => o == .lt
    | 3 => o != .gt
    | 4 => o == .gt
    | 5 => o != .lt
    | 6 => true
    | _ => false

/-- FCMP. -/
def execFcmp (f : Fields) (s : State) : Res :=
  registers (.fcmp f) f s fun c =>
    let a := c.fltA
    let b := c.fltB
    c.write 0 .general false 0 fun l => { w := [], p := fcmpOf (subN f) (num32 (a.code l 0)) (num32 (b.code l 0)) }

/-- The class bit of an FP32 code (R185). -/
def classBit (x : Nat) : Nat :=
  let neg := x.testBit 31
  let mag := x % 2 ^ 31
  if 0x7F800000 < mag then 8
  else if mag = 0x7F800000 then (if neg then 0 else 7)
  else if mag = 0 then (if neg then 3 else 4)
  else if mag < 2 ^ 23 then (if neg then 2 else 5)
  else if neg then 1 else 6

/-- FCLASS: DAZ does not act. -/
def execFclass (f : Fields) (s : State) : Res :=
  registers (.fclass f) f s fun c =>
    let a := c.fltSrc 0 f.a (bit (xmN f) 0) (bit (xmN f) 3) false
    c.write 1 (formOf a.tags) false 0 fun l => { w := [BitVec.ofNat 32 (2 ^ classBit (a.code l 0))] }

/-! ### Rounding to integral values and taking apart (R186) -/

/-- a rounded to an integral value, its sign kept. -/
def roundIntegral (F : FloatFmt) (md : RMode) (r : Nat) (code : Nat) : Rounded :=
  match F.decode code with
  | .nan => { code := F.nan.getD 0 }
  | .inf neg => F.round .rne false 0 (.inf neg)
  | .fin neg m e =>
    if m = 0 then { code := F.sign neg }
    else
      let (x, inexact) := roundInt md r neg m 1 e
      { F.round .rtz false 0 (.fin neg x.natAbs 0) with nx := inexact }

/-- FRND. -/
def execFrnd (f : Fields) (s : State) : Res :=
  fltForm (.frnd f) f s (dtN f) (fun c => c.fltA.tags) true fun c md =>
    let a := c.fltA
    fun r l e => roundIntegral (fltFmt (dtN f)) md r (a.code l e)

/-- FFRX.MANT. -/
def mantissaOf (x : Num) : Rounded :=
  match x with
  | .fin neg m _ => if m = 0 then { code := fp32.sign neg } else fp32.round .rne false 0 (.fin neg m (-(m.log2 : Int)))
  | x => fp32.round .rne false 0 x

/-- FFRX.EXP. -/
def exponentOf (x : Num) : Rounded :=
  match x with
  | .fin _ m e => if m = 0 then { code := 0 } else { code := wrap 32 ((m.log2 : Int) + e) }
  | _ => { code := 0x80000000, iv := true }

/-- FFRX: the exponent is an integer and meets no FTZ. -/
def execFfrx (f : Fields) (s : State) : Res :=
  registers (.ffrx f) f s fun c =>
    let a := c.fltA
    c.write 1 (formOf a.tags) (decide (subN f = 1)) 0 fun l =>
      let x := num32 (a.code l 0)
      let r := if subN f = 0 then ftz fp32 c.sp.mode (mantissaOf x) else exponentOf x
      { w := [BitVec.ofNat 32 r.code], flags := r.flags }

/-! ### Special functions (R164) -/

/-- A positive code lies within 2 ulp of num / den · 2^e, an ulp that of the exact value's binade. -/
def within2ulp (code num den : Nat) (e : Int) : Bool :=
  match num32 code with
  | .fin _ m k =>
    let u := max (log2Quot num den + e) (-126) - 23
    let lo := min (min k e) u
    let c := scaleTo m k lo * den
    let x := scaleTo num e lo
    decide ((c - x).natAbs ≤ (2 * scaleTo den u lo).toNat)
  | _ => false

/-- An implementation's choice among the four values nearest an inexact positive magnitude, counted from the second one
below it; one that falls outside 2 ulp gives way to the value just below the magnitude. -/
def neighbour (num den : Nat) (e : Int) (pick : Nat) : Nat :=
  let floor := (fp32.roundMag .rtz false 0 false num den e).code
  let c := floor + pick - 1
  if within2ulp c num den e then c else floor

/-- The reciprocal: infinite from 2^128 on (log 16), exact for powers of two below, else one of the two neighbours. -/
def recipFlt (x : Nat) : Rounded :=
  match num32 x with
  | .nan => { code := 0x7FC00000 }
  | .inf neg => { code := fp32.sign neg }
  | .fin neg m e =>
    if m = 0 then { code := fp32.sign neg + 0x7F800000, dz := true }
    else
      let r := fp32.roundMag .rtz false 0 false 1 m (-e)
      if r.of then { code := fp32.sign neg + 0x7F800000 }
      else if !r.nx then { code := fp32.sign neg + r.code }
      else
        { code := fp32.sign neg + r.code + b2n (Config.frcpUp (BitVec.ofNat 32 x)) }

/-- The reciprocal square root: exact for even powers of two, else one of the four nearest values. -/
def rsqrtFlt (x : Nat) : Rounded :=
  match num32 x with
  | .nan => { code := 0x7FC00000 }
  | .inf true => { code := 0x7FC00000, iv := true }
  | .inf false => { code := 0 }
  | .fin neg m e =>
    if m = 0 then { code := fp32.sign neg + 0x7F800000, dz := true }
    else if neg then { code := 0x7FC00000, iv := true }
    else
      -- 1/√(m · 2^e) = √(2^(2k) / m'') with an even exponent, the root taken to 2^-300 below
      let m' := if e % 2 = 0 then m else 2 * m
      let e' := if e % 2 = 0 then e else e - 1
      let root := isqrt (2 ^ 600 / m')
      if isqrt m' * isqrt m' = m' && m' = 2 ^ m'.log2 then fp32.roundMag .rne false 0 false 1 (isqrt m') (-(e' / 2))
      else { code := neighbour root 1 (-300 - e' / 2) (Config.frsqPick (BitVec.ofNat 32 x)).val }

/-- 2^x, correctly rounded. -/
def ex2Flt (x : Nat) : Rounded := ex2Round (num32 x)

/-- log2: exact for powers of two, else one of the two neighbours. -/
def log2Flt (x : Nat) : Rounded :=
  match num32 x with
  | .nan => { code := 0x7FC00000 }
  | .inf true => { code := 0x7FC00000, iv := true }
  | .inf false => { code := 0x7F800000 }
  | .fin neg m e =>
    if m = 0 then { code := 0xFF800000, dz := true }
    else if neg then { code := 0x7FC00000, iv := true }
    else if m = 2 ^ m.log2 then { fp32.round .rne false 0 (Num.ofInt ((m.log2 : Int) + e)) with nx := false }
    else
      -- the value lies strictly between v and v + 1 in units of 2^-200
      let v := log2Num m e
      let up := Config.flg2Up (BitVec.ofNat 32 x)
      if 0 ≤ v then { code := (fp32.roundMag .rtz false 0 false v.toNat 1 (-200)).code + b2n up }
      else
        let r := fp32.roundMag .rtz false 0 true ((-v).toNat - 1) 1 (-200)
        { code := r.code + b2n (!up) }

/-- A result within 2^-21 of an exact fixed-point value of 512 fraction bits. -/
def near21 (code : Nat) (v : Int) : Bool :=
  match num32 code with
  | .fin neg m e =>
    let w : Int := if neg then -(m : Int) else m
    -- compare at 2^-661, which every FP32 value reaches
    let a := scaleTo w e (-661)
    let b := v * (2 ^ 149 : Nat)
    decide ((a - b).natAbs + 2 ^ 200 * 2 ^ 100 ≤ 2 ^ 640)
  | _ => false

/-- sin and cos: the implementation's value where it keeps the bound, else the nearest one. -/
def trigFlt (cosine : Bool) (x : Nat) : Rounded :=
  match num32 x with
  | .nan => { code := 0x7FC00000 }
  | .inf _ => { code := 0x7FC00000, iv := true }
  | .fin neg m e =>
    if m = 0 then (if cosine then { code := 0x3F800000 } else { code := fp32.sign neg })
    else
      let v := trigFix cosine neg m e
      let raw := (if cosine then Config.fcosRaw (BitVec.ofNat 32 x) else Config.fsinRaw (BitVec.ofNat 32 x)).toNat
      if near21 raw v then { code := raw }
      else { code := (fp32.roundMag .rne false 0 (decide (v < 0)) v.natAbs 1 (-512)).code }

/-- tanh: ±0 and |x| ≥ 9.1 are exact, else one of the four nearest values, never past ±1. -/
def tanhFlt (x : Nat) : Rounded :=
  match num32 x with
  | .nan => { code := 0x7FC00000 }
  | .inf neg => { code := fp32.sign neg + 0x3F800000 }
  | .fin neg m e =>
    if m = 0 then { code := fp32.sign neg }
    else if cmpFin false (10 * m) e false 91 0 != .lt then { code := fp32.sign neg + 0x3F800000 }
    else
      let q := tanhQuot m e
      if q.1 = 0 then { code := x }
      else { code := fp32.sign neg + min 0x3F800000 (neighbour q.1 q.2 0 (Config.ftanhPick (BitVec.ofNat 32 x)).val) }

/-- A special function: no flag but those of its table and of an FTZ flush. -/
def specialFn (i : Instr) (f : Fields) (s : State) (op : Nat → Rounded) : Res :=
  fltForm i f s 0 (fun c => c.fltA.tags) false fun c _ =>
    let a := c.fltA
    fun _ l _ => op (a.code l 0)

/-- FRCP. -/
def execFrcp (f : Fields) (s : State) : Res := specialFn (.frcp f) f s recipFlt
/-- FRSQ. -/
def execFrsq (f : Fields) (s : State) : Res := specialFn (.frsq f) f s rsqrtFlt
/-- FEX2. -/
def execFex2 (f : Fields) (s : State) : Res := specialFn (.fex2 f) f s ex2Flt
/-- FLG2. -/
def execFlg2 (f : Fields) (s : State) : Res := specialFn (.flg2 f) f s log2Flt
/-- FSIN. -/
def execFsin (f : Fields) (s : State) : Res := specialFn (.fsin f) f s (trigFlt false)
/-- FCOS. -/
def execFcos (f : Fields) (s : State) : Res := specialFn (.fcos f) f s (trigFlt true)
/-- FTANH. -/
def execFtanh (f : Fields) (s : State) : Res := specialFn (.ftanh f) f s tanhFlt

end Sys2Proof.Machine
end

