-- ==== Sys2Proof/Machine/Integer.lean ====
section
/-! DEFINITION. The integer class (spec/07_vector_instructions.md R171 to R181). -/

namespace Sys2Proof.Machine

/-! ### Sources and results -/

/-- Width of a type of R171. -/
def intWidth (dt : Nat) : Nat := 32 * intRegs dt

/-- An integer source: the tag it presents, and its value by lane modulo 2^w. -/
structure IntSrc where
  tag : VReg
  val : Nat → Nat

/-- How a type reads an immediate (R17). -/
def intImm (dt : Nat) : ImmKind := if dtSigned dt then .signed else .unsigned

/-- Negation of a presented tag (R124). -/
def VReg.negTag : VReg → VReg
  | .uniform u => .uniform (-u)
  | .affine b s => .affine (-b) (-s)
  | .general l => .general l

/-- Absolute value of a presented tag (R124). -/
def VReg.absTag : VReg → VReg
  | .uniform u => .uniform (if u.msb then -u else u)
  | r => .general r.lanes

/-- A source of n words, its modifiers applied: |A| before negation, two's complement in the width (R172). -/
def Ctx.intSrc (c : Ctx) (k : ImmKind) (n : Nat) (o : Opnd) (neg abs : Bool) : IntSrc :=
  let lo := c.g.word k o 0
  let hi := c.g.word k o 1
  let w := 32 * n
  let raw := fun (l : Nat) => if n = 1 then (lo.at l).toNat else (hi.at l ++ lo.at l : W64).toNat
  let mod := fun (x : Nat) =>
    let x := if abs && x.testBit (w - 1) then (2 ^ w - x) % 2 ^ w else x
    if neg then (2 ^ w - x) % 2 ^ w else x
  let tag := if n = 1 then lo else if lo.isUniform && hi.isUniform then lo else .general lo.lanes
  let tag := if abs then tag.absTag else tag
  { tag := if neg then tag.negTag else tag, val := fun l => mod (raw l) }

/-- Sources A, B and C of a form with XM modifiers (R172). -/
def Ctx.intA (c : Ctx) : IntSrc :=
  c.intSrc (intImm (dtN c.f)) (intRegs (dtN c.f)) c.f.a (bit (xmN c.f) 0) (bit (xmN c.f) 3)
def Ctx.intB (c : Ctx) : IntSrc := c.intSrc (intImm (dtN c.f)) (intRegs (dtN c.f)) c.f.b (bit (xmN c.f) 1) false
def Ctx.intC (c : Ctx) : IntSrc := c.intSrc (intImm (dtN c.f)) (intRegs (dtN c.f)) c.f.c (bit (xmN c.f) 2) false

/-- The words of a result of n registers. -/
def wordsOf (n x : Nat) : List W32 :=
  if n = 1 then [BitVec.ofNat 32 x] else [BitVec.ofNat 32 x, BitVec.ofNat 32 (x / 2 ^ 32)]

/-- A value read by the sign of a type. -/
def asInt (dt x : Nat) : Int := if dtSigned dt then toSigned (intWidth dt) x else (x : Int)

/-- An exact value narrowed to w bits: modulo 2^w, or clamped where SAT is 1 (R173). -/
def narrow (signed sat : Bool) (w : Nat) (x : Int) : Nat :=
  if sat then
    wrap w (if signed then clamp (-(2 ^ (w - 1) : Nat)) ((2 ^ (w - 1) : Nat) - 1) x else clamp 0 ((2 ^ w : Nat) - 1) x)
  else wrap w x

/-- The shape of the rows of R125 that keep an affine form, for a 32-bit form without SAT. -/
def affineForm (c : Ctx) (srcs : List VReg) (f : Form) : Form :=
  if srcs.all VReg.isUniform then .uniform
  else if intRegs (dtN c.f) = 1 && !c.f.sat && srcs.all (fun t => !t.isGeneral) then f
  else .general

/-- Base and stride of a tag that is not general. -/
def VReg.base : VReg → W32
  | .uniform u => u
  | .affine b _ => b
  | .general l => nth l 0 0
def VReg.stride : VReg → W32
  | .affine _ s => s
  | _ => 0

/-- The product of two tags: one of them uniform keeps an affine form (R125). -/
def mulForm (a b : VReg) : Form :=
  if a.isUniform || b.isUniform then .affine (a.base * b.base) (a.stride * b.base + b.stride * a.base) else .general

/-- A form joined with an addend's tag. -/
def addForm (f : Form) (c : VReg) : Form :=
  match f with
  | .affine b s => .affine (b + c.base) (s + c.stride)
  | f => f

/-- An integer form with result words of type dt, from a computation on lanes. -/
def intForm (i : Instr) (f : Fields) (s : State) (n : Nat) (form : Ctx → Form) (x : Ctx → Nat → Nat) : Res :=
  registers i f s fun c =>
    let y := x c
    c.write n (form c) (decide (dtN f = 0)) 0 fun l => { w := wordsOf n (y l) }

/-- A form of A and B that computes an exact value (R173). -/
def exact2 (i : Instr) (f : Fields) (s : State) (form : VReg → VReg → Form) (op : Int → Int → Int) : Res :=
  intForm i f s (intRegs (dtN f)) (fun c => affineForm c [c.intA.tag, c.intB.tag] (form c.intA.tag c.intB.tag))
    fun c =>
      let a := c.intA
      let b := c.intB
      fun l => narrow (dtSigned (dtN f)) f.sat (intWidth (dtN f)) (op (asInt (dtN f) (a.val l)) (asInt (dtN f) (b.val l)))

/-! ### Arithmetic (R173, R175) -/

/-- IADD. -/
def execIadd (f : Fields) (s : State) : Res :=
  exact2 (.iadd f) f s (fun a b => .affine (a.base + b.base) (a.stride + b.stride)) (· + ·)
/-- ISUB. -/
def execIsub (f : Fields) (s : State) : Res :=
  exact2 (.isub f) f s (fun a b => .affine (a.base - b.base) (a.stride - b.stride)) (· - ·)
/-- IMUL. -/
def execImul (f : Fields) (s : State) : Res := exact2 (.imul f) f s mulForm (· * ·)
/-- IMULH: the high half of the exact product. -/
def execImulh (f : Fields) (s : State) : Res :=
  exact2 (.imulh f) f s (fun _ _ => .general) fun a b => a * b / (2 ^ intWidth (dtN f) : Nat)
/-- IMIN. -/
def execImin (f : Fields) (s : State) : Res := exact2 (.imin f) f s (fun _ _ => .general) min
/-- IMAX. -/
def execImax (f : Fields) (s : State) : Res := exact2 (.imax f) f s (fun _ _ => .general) max

/-- IMAD. -/
def execImad (f : Fields) (s : State) : Res :=
  intForm (.imad f) f s (intRegs (dtN f))
    (fun c => affineForm c [c.intA.tag, c.intB.tag, c.intC.tag] (addForm (mulForm c.intA.tag c.intB.tag) c.intC.tag))
    fun c =>
      let a := c.intA
      let b := c.intB
      let d := c.intC
      let v := asInt (dtN f)
      fun l => narrow (dtSigned (dtN f)) f.sat (intWidth (dtN f)) (v (a.val l) * v (b.val l) + v (d.val l))

/-- IMADW: a 64-bit sum of the exact product and a pair. -/
def execImadw (f : Fields) (s : State) : Res :=
  let sg := dtSigned (dtN f)
  intForm (.imadw f) f s 2
    (fun c => formOf [c.intA.tag, c.intB.tag, (c.intSrc (intImm (dtN f)) 2 f.c false false).tag])
    fun c =>
      let a := c.intA
      let b := c.intB
      let d := c.intSrc (intImm (dtN f)) 2 f.c (bit (xmN f) 2) false
      fun l =>
        let x := d.val l
        narrow sg f.sat 64 (asInt (dtN f) (a.val l) * asInt (dtN f) (b.val l) + if sg then toSigned 64 x else (x : Int))

/-- The quotient of R175 with its flag: truncated, all ones on zero, and the one overflow of S types. -/
def divide (dt : Nat) (sat : Bool) (a b : Int) : Int × Nat :=
  if b = 0 then (-1, flagDZ)
  else
    let q := a.tdiv b
    if dtSigned dt && sat then (clamp (-(2 ^ (intWidth dt - 1) : Nat)) ((2 ^ (intWidth dt - 1) : Nat) - 1) q, 0) else (q, 0)

/-- The remainder of R175 with its flag. -/
def remainder (a b : Int) : Int × Nat := if b = 0 then (a, flagDZ) else (a.tmod b, 0)

/-- IDIV and IREM. -/
def divForm (i : Instr) (f : Fields) (s : State) (op : Int → Int → Int × Nat) : Res :=
  registers i f s fun c =>
    let a := c.intA
    let b := c.intB
    let n := intRegs (dtN f)
    c.write n (formOf [a.tag, b.tag]) (decide (dtN f = 0)) 0 fun l =>
      let r := op (asInt (dtN f) (a.val l)) (asInt (dtN f) (b.val l))
      { w := wordsOf n (wrap (32 * n) r.1), flags := r.2 }

/-- IDIV. -/
def execIdiv (f : Fields) (s : State) : Res := divForm (.idiv f) f s (divide (dtN f) f.sat)
/-- IREM. -/
def execIrem (f : Fields) (s : State) : Res := divForm (.irem f) f s remainder

/-- A form of A alone. -/
def unary (i : Instr) (f : Fields) (s : State) (n : Nat) (form : VReg → Form) (op : Nat → Nat) : Res :=
  intForm i f s n (fun c => affineForm c [c.intA.tag] (form c.intA.tag)) fun c =>
    let a := c.intA
    fun l => op (a.val l)

/-- IABS. -/
def execIabs (f : Fields) (s : State) : Res :=
  unary (.iabs f) f s (intRegs (dtN f)) (fun _ => .general) fun x =>
    narrow (dtSigned (dtN f)) f.sat (intWidth (dtN f)) (asInt (dtN f) x).natAbs
/-- INEG; the S32 form keeps an affine shape (R125). -/
def execIneg (f : Fields) (s : State) : Res :=
  unary (.ineg f) f s (intRegs (dtN f)) (fun t => if dtN f = 0 then .affine (-t.base) (-t.stride) else .general) fun x =>
    narrow (dtSigned (dtN f)) f.sat (intWidth (dtN f)) (-(asInt (dtN f) x))

/-! ### Shifts (R176) -/

/-- A shift of A by bits 31:0 of B. -/
def shiftForm (i : Instr) (f : Fields) (s : State) (form : VReg → VReg → Form) (op : Nat → Nat → Nat) : Res :=
  let amount := fun (c : Ctx) => c.intSrc (intImm (dtN f)) 1 f.b false false
  intForm i f s (intRegs (dtN f)) (fun c => affineForm c [c.intA.tag, (amount c).tag] (form c.intA.tag (amount c).tag))
    fun c =>
      let a := c.intA
      let b := amount c
      fun l => op (a.val l) (b.val l)

/-- SHL; an affine operand shifted by a uniform amount stays affine (R125). -/
def execShl (f : Fields) (s : State) : Res :=
  let w := intWidth (dtN f)
  shiftForm (.shl f) f s
    (fun a b => if b.isUniform then
        (if 32 ≤ b.base.toNat then .affine 0 0 else .affine (a.base <<< b.base.toNat) (a.stride <<< b.base.toNat))
      else .general)
    fun a n => if w ≤ n then 0 else a * 2 ^ n % 2 ^ w
/-- SHR. -/
def execShr (f : Fields) (s : State) : Res :=
  shiftForm (.shr f) f s (fun _ _ => .general) fun a n => if intWidth (dtN f) ≤ n then 0 else a / 2 ^ n
/-- SAR. -/
def execSar (f : Fields) (s : State) : Res :=
  let w := intWidth (dtN f)
  shiftForm (.sar f) f s (fun _ _ => .general) fun a n => wrap w (toSigned w a / (2 ^ min n w : Nat))

/-- a rotated left by n in w bits. -/
def rotl (w a n : Nat) : Nat :=
  let k := n % w
  (a * 2 ^ k) % 2 ^ w + a / 2 ^ (w - k)

/-- ROT.LEFT and ROT.RIGHT. -/
def execRot (f : Fields) (s : State) : Res :=
  let w := intWidth (dtN f)
  shiftForm (.rot f) f s (fun _ _ => .general) fun a n => if subN f = 0 then rotl w a n else rotl w a (w - n % w)

/-! ### Logic and bit counts (R177 to R179) -/

/-- Bit j of the result from the bits j of three words (R177). -/
def lop3 (w tt a b d : Nat) : Nat :=
  (List.range w).foldl (fun acc j => acc + if tt.testBit (4 * b2n (a.testBit j) + 2 * b2n (b.testBit j) + b2n (d.testBit j))
    then 2 ^ j else 0) 0

/-- LOP3: the truth table stands in SUB and XM. -/
def execLop3 (f : Fields) (s : State) : Res :=
  let n := intRegs (dtN f)
  let src := fun (c : Ctx) (o : Opnd) => c.intSrc .unsigned n o false false
  intForm (.lop3 f) f s n (fun c => formOf [(src c f.a).tag, (src c f.b).tag, (src c f.c).tag]) fun c =>
    let a := src c f.a
    let b := src c f.b
    let d := src c f.c
    fun l => lop3 (32 * n) (subN f * 16 + xmN f) (a.val l) (b.val l) (d.val l)

/-- A bitwise form of A and B. -/
def bitwise (i : Instr) (f : Fields) (s : State) (op : Nat → Nat → Nat) : Res :=
  intForm i f s (intRegs (dtN f)) (fun c => formOf [c.intA.tag, c.intB.tag]) fun c =>
    let a := c.intA
    let b := c.intB
    fun l => op (a.val l) (b.val l)

/-- AND. -/
def execAnd (f : Fields) (s : State) : Res := bitwise (.and f) f s (· &&& ·)
/-- OR. -/
def execOr (f : Fields) (s : State) : Res := bitwise (.or f) f s (· ||| ·)
/-- XOR. -/
def execXor (f : Fields) (s : State) : Res := bitwise (.xor f) f s (· ^^^ ·)
/-- ANDN. -/
def execAndn (f : Fields) (s : State) : Res :=
  bitwise (.andn f) f s fun a b => a &&& (2 ^ intWidth (dtN f) - 1 - b)

/-- A form of A whose result may be a single word. -/
def bitForm (i : Instr) (f : Fields) (s : State) (n : Nat) (op : Nat → Nat) : Res := unary i f s n (fun _ => .general) op

/-- POPC. -/
def execPopc (f : Fields) (s : State) : Res := bitForm (.popc f) f s 1 (popCount 64)
/-- CLZ. -/
def execClz (f : Fields) (s : State) : Res :=
  bitForm (.clz f) f s 1 fun x => intWidth (dtN f) - if x = 0 then 0 else x.log2 + 1
/-- CTZ. -/
def execCtz (f : Fields) (s : State) : Res :=
  bitForm (.ctz f) f s 1 fun x => ((List.range (intWidth (dtN f))).find? fun i => x.testBit i).getD (intWidth (dtN f))
/-- Bits of x placed by a map of bit positions of the result. -/
def gatherBits (w : Nat) (src : Nat → Bool) : Nat := (List.range w).foldl (fun acc i => acc + if src i then 2 ^ i else 0) 0
/-- BREV. -/
def execBrev (f : Fields) (s : State) : Res :=
  let w := intWidth (dtN f)
  bitForm (.brev f) f s (intRegs (dtN f)) fun x => gatherBits w fun i => x.testBit (w - 1 - i)

/-- A form of A with a single-word B, and C (R178). -/
def fieldForm (i : Instr) (f : Fields) (s : State) (useC : Bool) (op : Nat → Nat → Nat → Nat) : Res :=
  let n := intRegs (dtN f)
  let b := fun (c : Ctx) => c.intSrc (intImm (dtN f)) 1 f.b false false
  let d := fun (c : Ctx) => c.intSrc .unsigned n f.c false false
  intForm i f s n (fun c => formOf ([c.intA.tag, (b c).tag] ++ if useC then [(d c).tag] else [])) fun c =>
    let a := c.intA
    let b := b c
    let d := d c
    fun l => op (a.val l) (b.val l) (if useC then d.val l else 0)

/-- BFX. -/
def execBfx (f : Fields) (s : State) : Res :=
  let w := intWidth (dtN f)
  fieldForm (.bfx f) f s false fun a b _ =>
    let pos := b % 256
    let len := b / 256 % 256
    if w ≤ pos ∨ len = 0 then 0
    else
      let len := min len (w - pos)
      let x := a / 2 ^ pos % 2 ^ len
      if dtSigned (dtN f) then wrap w (toSigned len x) else x
/-- BFI. -/
def execBfi (f : Fields) (s : State) : Res :=
  let w := intWidth (dtN f)
  fieldForm (.bfi f) f s true fun a b d =>
    let pos := b % 256
    let len := b / 256 % 256
    if w ≤ pos ∨ len = 0 then d
    else setBits d (pos + min len (w - pos) - 1) pos a

/-- BILV.W2 and BILV.W3. -/
def execBilv (f : Fields) (s : State) : Res :=
  let w := intWidth (dtN f)
  let n := intRegs (dtN f)
  let src := fun (c : Ctx) (o : Opnd) => c.intSrc .unsigned n o false false
  let three := decide (subN f = 1)
  intForm (.bilv f) f s n
    (fun c => formOf ([(src c f.a).tag, (src c f.b).tag] ++ if three then [(src c f.c).tag] else [])) fun c =>
    let a := src c f.a
    let b := src c f.b
    let d := src c f.c
    fun l =>
      if three then gatherBits (w / 3 * 3) fun i =>
        ((if i % 3 = 0 then a.val l else if i % 3 = 1 then b.val l else d.val l)).testBit (i / 3)
      else gatherBits w fun i => (if i % 2 = 0 then a.val l else b.val l).testBit (i / 2)
/-- BDIL. -/
def execBdil (f : Fields) (s : State) : Res :=
  let w := intWidth (dtN f)
  let k := subN f
  bitForm (.bdil f) f s (intRegs (dtN f)) fun x =>
    if k < 2 then gatherBits (w / 2) fun i => x.testBit (2 * i + k)
    else gatherBits (w / 3) fun i => x.testBit (3 * i + (k - 2))

/-! ### Comparison, selection and carry (R173, R180, R181) -/

/-- The condition of a SUB (R180). -/
def condOf (sub : Nat) (a b : Int) : Bool :=
  match sub with
  | 0 => a == b
  | 1 => a != b
  | 2 => decide (a < b)
  | 3 => decide (a ≤ b)
  | 4 => decide (b < a)
  | _ => decide (b ≤ a)

/-- ICMP. -/
def execIcmp (f : Fields) (s : State) : Res :=
  registers (.icmp f) f s fun c =>
    let a := c.intA
    let b := c.intB
    c.write 0 .general false 0 fun l =>
      { w := [], p := condOf (subN f) (asInt (dtN f) (a.val l)) (asInt (dtN f) (b.val l)) }

/-- SEL; its shape is that of the value sources where both are one operand (R125). -/
def execSel (f : Fields) (s : State) : Res :=
  registers (.sel f) f s fun c =>
    let n := intRegs (dtN f)
    let a := c.intSrc .unsigned n f.a false false
    let b := c.intSrc .unsigned n f.b false false
    let p := c.g.predOf f.c
    let form : Form := if f.a = f.b then (match a.tag with
      | .uniform _ => .uniform
      | .affine x y => if n = 1 then .affine x y else .general
      | .general _ => .general) else .general
    c.write n form false 0 fun l => { w := wordsOf n (if p.getLsbD l then a.val l else b.val l) }

/-- IADDC: the carry is read from the predicate of C and written back to it. -/
def execIaddc (f : Fields) (s : State) : Res :=
  registers (.iaddc f) f s fun c =>
    let a := c.intSrc .unsigned 1 f.a false false
    let b := c.intSrc .unsigned 1 f.b false false
    let p := c.g.predOf f.c
    let n := match f.c with
      | .p n => n.val
      | _ => 7
    let sum := fun (l : Nat) => a.val l + (if subN f = 0 then b.val l else 2 ^ 32 - 1 - b.val l) + b2n (p.getLsbD l)
    let out := fun (l : Nat) => ({ w := [BitVec.ofNat 32 (sum l)] } : LaneOut)
    let carry := maskOf fun l => decide (2 ^ 32 ≤ sum l)
    match c.write 1 .general false 0 out with
    | .done h =>
      if f.scope = .group then .done fun g => (h g).putP n allLanes (if carry.getLsbD c.designated then allLanes else 0)
      else .done fun g => (h g).putP n c.act carry
    | e => e

end Sys2Proof.Machine
end

