-- ==== Sys2Proof/Machine/Lane.lean ====
section
/-! DEFINITION. The predicate and lane class (spec/07_vector_instructions.md R188 to R195) but for VOTE, and the tag
instructions (spec/05_registers.md R137 to R141). -/

namespace Sys2Proof.Machine

/-- The shape that keeps a presented tag. -/
def VReg.form : VReg → Form
  | .uniform _ => .uniform
  | .affine b s => .affine b s
  | .general _ => .general

/-- A mask as the result of an instruction that writes one value for the group. -/
def maskOut (m : Mask) : LaneOut := { w := [m] }

/-! ### Predicates (R189, R191) -/

/-- PLOP. -/
def execPlop (f : Fields) (s : State) : Res :=
  registers (.plop f) f s fun c =>
    let a := c.g.predNeg (bit (xmN f) 0) f.a
    let b := c.g.predNeg (bit (xmN f) 1) f.b
    let x := match subN f with
      | 0 => a &&& b
      | 1 => a ||| b
      | 2 => a ^^^ b
      | _ => a
    c.write 0 .general false 0 fun l => { w := [], p := x.getLsbD l }

/-- PMOV.TOV. -/
def execPmovTov (f : Fields) (s : State) : Res :=
  registers (.pmovTov f) f s fun c =>
    let p := c.g.predOf f.a
    c.write 1 .general false 0 fun l => { w := [if p.getLsbD l then 1 else 0] }

/-- PMOV.FROMV. -/
def execPmovFromv (f : Fields) (s : State) : Res :=
  registers (.pmovFromv f) f s fun c =>
    let a := c.g.word .unsigned f.a 0
    c.write 0 .general false 0 fun l => { w := [], p := a.at l != 0 }

/-- PMOV.PACK: the predicate as last written in all 32 lanes. -/
def execPmovPack (f : Fields) (s : State) : Res :=
  registers (.pmovPack f) f s fun c => c.write 1 .uniform false 0 fun _ => maskOut (c.g.predOf f.a)

/-- PMOV.UNPK: all 32 lanes from the bits of the designated thread's value. -/
def execPmovUnpk (f : Fields) (s : State) : Res :=
  registers (.pmovUnpk f) f s fun c =>
    let x := (c.g.word .unsigned f.a 0).at c.designated
    match f.d with
    | .p n => .done fun g => g.putP n.val allLanes x
    | _ => .done id

/-- ACTM. -/
def execActm (f : Fields) (s : State) : Res :=
  registers (.actm f) f s fun c =>
    c.write 1 .uniform false 0 fun _ => maskOut (match subN f with
      | 0 => c.sp.mask
      | 1 => c.g.live
      | _ => c.act)

/-! ### Moves (R192, R193) -/

/-- MOV: each register keeps its source's shape (R125). -/
def execMov (f : Fields) (s : State) : Res :=
  registers (.mov f) f s fun c =>
    let n := dtN f + 1
    let src := fun (j : Nat) => c.g.word .unsigned f.a j
    c.writeBy n (fun j => (src j).form) false 0 fun l => { w := (List.range n).map fun j => (src j).at l }

/-- MOVI: SUB 0001 sign-extends into S. -/
def execMovi (f : Fields) (s : State) : Res :=
  registers (.movi f) f s fun c =>
    c.write 1 .uniform (decide (subN f = 1)) 0 fun _ => { w := [BitVec.ofNat 32 (immVal f.a + immVal f.b * 2 ^ 16)] }

/-- PERM: a read across lanes at an index that each thread supplies. -/
def execPerm (f : Fields) (s : State) : Res :=
  registers (.perm f) f s fun c =>
    let n := dtN f + 1
    let src := fun (j : Nat) => c.g.word .unsigned f.a j
    let b := c.g.word .unsigned f.b 0
    c.writeBy n (fun j => formOf [src j, b]) false 0 fun l =>
      let k := (b.at l).toNat
      { w := (List.range n).map fun j =>
        if subN f = 0 then (src j).at (k % 32) else if k < 32 then (src j).at k else 0 }

/-! ### Reductions and scans (R194) -/

/-- One step of an operation on 32-bit codes but for a floating sum. -/
def reduceOp (op dt nanp x y : Nat) : Nat :=
  match op with
  | 0 => (x + y) % 2 ^ 32
  | 1 => if dt = 4 then minMax fp32 nanp false x y
    else if dt = 2 then (if toSigned 32 y < toSigned 32 x then y else x) else min x y
  | 2 => if dt = 4 then minMax fp32 nanp true x y
    else if dt = 2 then (if toSigned 32 x < toSigned 32 y then y else x) else max x y
  | 3 => x &&& y
  | 4 => x ||| y
  | _ => x ^^^ y

/-- The identity of an operation (R194). -/
def reduceId (op dt : Nat) : Nat :=
  match op with
  | 1 => if dt = 4 then 0x7F800000 else if dt = 2 then 0x7FFFFFFF else 0xFFFFFFFF
  | 2 => if dt = 4 then 0xFF800000 else if dt = 2 then 0x80000000 else 0
  | 3 => 0xFFFFFFFF
  | _ => 0

/-- The terms reduced: a rounded exact sum for floating ADD, else a fold; a NaN result is canonical (R144). -/
def reduceTerms (op dt : Nat) (md : RMode) (mode : W32) (r : Nat) (xs : List Nat) : Rounded :=
  match xs with
  | [] => { code := reduceId op dt }
  | x :: rest =>
    if op = 0 && dt = 4 then
      let vs := xs.map num32
      ftz fp32 mode (roundNew fp32 md false r (vs.any Num.isNan) (sumOf md vs))
    else
      let v := rest.foldl (reduceOp op dt (modeNANP mode)) x
      { code := if dt = 4 && (op == 1 || op == 2) && (num32 v).isNan then 0x7FC00000 else v }

/-- The term of a lane: DAZ on every floating input, |A| where XM bit 3 asks for it. -/
def reduceTerm (c : Ctx) (a : VReg) (l : Nat) : Nat :=
  let dt := dtN c.f
  let x := (a.at l).toNat
  let x := if dt = 4 then daz fp32 c.sp.mode x else x
  if !bit (xmN c.f) 3 then x
  else if dt = 4 then x % 2 ^ 31
  else if x.testBit 31 then (2 ^ 32 - x) % 2 ^ 32 else x

/-- LRED. -/
def execLred (f : Fields) (s : State) : Res :=
  registers (.lred f) f s fun c =>
    let md := roundMode f c.sp.mode
    let a := c.g.word .unsigned f.a 0
    let fadd := subN f = 0 && dtN f = 4
    c.write 1 .uniform (decide (dtN f = 2)) (if fadd then drawsIn md 1 else 0) fun _ =>
      let r := reduceTerms (subN f) (dtN f) md c.sp.mode (c.rand md c.designated 0)
        ((lanesOf c.act).map (reduceTerm c a))
      { w := [BitVec.ofNat 32 r.code], flags := if fadd then r.flags else 0 }

/-- LSCAN: the prefix of each contributor; an empty exclusive prefix is the identity and draws nothing. -/
def execLscan (f : Fields) (s : State) : Res :=
  registers (.lscan f) f s fun c =>
    let md := roundMode f c.sp.mode
    let a := c.g.word .unsigned f.a 0
    let op := subN f % 8
    let exc := bit (subN f) 3
    let fadd := op = 0 && dtN f = 4
    let terms := fun (l : Nat) => ((lanesOf c.act).filter fun k => if exc then k < l else k ≤ l).map (reduceTerm c a)
    let out := fun (l : Nat) =>
      let r := reduceTerms op (dtN f) md c.sp.mode (c.rand md l 0) (terms l)
      ({ w := [BitVec.ofNat 32 r.code], flags := if fadd then r.flags else 0 } : LaneOut)
    let drawers := if exc then c.act &&& ~~~ maskOf (fun l => (terms l).isEmpty) else c.act
    match c.write 1 (formOf [a]) false 0 out with
    | .done h => .done fun g => (h g).drew drawers (if fadd then drawsIn md 1 else 0)
    | e => e

/-- MATCH.ANY and MATCH.ALL (R195). -/
def execMatchLanes (f : Fields) (s : State) : Res :=
  registers (.matchLanes f) f s fun c =>
    let n := dtN f + 1
    let src := fun (j : Nat) => c.g.word .unsigned f.a j
    let val := fun (l : Nat) => (List.range n).map fun j => (src j).at l
    let same := fun (l : Nat) => maskOf fun k => c.act.getLsbD k && val k == val l
    c.write 1 (formOf ((List.range n).map src)) false 0 fun l => { w := [same l], p := same l == c.act }

/-! ### Tags (R137 to R141) -/

/-- The code of a tag (R122). -/
def VReg.tagCode : VReg → Nat
  | .uniform _ => 0
  | .affine _ _ => 1
  | .general _ => 2

/-- TAGQ. -/
def execTagq (f : Fields) (s : State) : Res :=
  registers (.tagq f) f s fun c =>
    let x := (c.g.word .unsigned f.a 0).tagCode + c.g.generals * 2 ^ 16 + c.g.ceiling * 2 ^ 32
    c.write 2 .uniform false 0 fun _ => { w := [BitVec.ofNat 32 x, BitVec.ofNat 32 (x / 2 ^ 32)] }

/-- A block of V registers changed one by one. -/
def onBlock (f : Fields) (h : VReg → VReg) (g : Group) : Group :=
  match f.d with
  | .v n _ => (List.range (immVal f.a)).foldl (fun g j => { g with v := put g.v (n.val + j) (h (g.vreg (n.val + j))) }) g
  | _ => g

/-- TAGG: registers become general and keep their values. -/
def execTagg (f : Fields) (s : State) : Res :=
  registers (.tagg f) f s fun _ => .done (onBlock f fun r => .general r.lanes)

/-- RELV: registers become uniform 0. -/
def execRelv (f : Fields) (s : State) : Res :=
  registers (.relv f) f s fun _ => .done (onBlock f fun _ => .uniform 0)

end Sys2Proof.Machine
end

