-- ==== Sys2Proof/Machine/Convert.lean ====
section
/-! DEFINITION. The conversion, format and mode class (spec/07_vector_instructions.md R196 to R204;
spec/05_registers.md R132 to R134). -/

namespace Sys2Proof.Machine

/-! ### CVT (R196, R197) -/

/-- A type of R196: a floating format, or an integer of a width and sign. -/
inductive CvtType where
  | flt (F : FloatFmt)
  | int (w : Nat) (signed : Bool)
  deriving DecidableEq, Repr

/-- The type of a code. -/
def cvtType (code : Nat) : CvtType :=
  match code with
  | 0 => .flt fp32
  | 1 => .flt fp16
  | 2 => .flt bf16
  | 3 => .flt e5m2
  | 4 => .flt e4m3
  | 5 => .flt e3m2
  | 6 => .flt e2m3
  | 7 => .flt e2m1
  | 8 => .int 32 true
  | 9 => .int 32 false
  | 10 => .int 64 true
  | 11 => .int 64 false
  | 12 => .int 16 true
  | 13 => .int 16 false
  | 14 => .int 8 true
  | _ => .int 8 false

/-- Formats on which DAZ and FTZ act: F32, F16, BF16 (R197). -/
def wideFmt (F : FloatFmt) : Bool := F == fp32 || F == fp16 || F == bf16

/-- The value of a source's bits. -/
def CvtType.read (t : CvtType) (mode : W32) (x : Nat) : Num :=
  match t with
  | .flt F => F.decode (if wideFmt F then daz F mode x else x)
  | .int w true => Num.ofInt (toSigned w x)
  | .int w false => Num.ofInt (x % 2 ^ w : Nat)

/-- The least and greatest value of an integer type. -/
def intRange (w : Nat) (signed : Bool) : Int × Int :=
  if signed then (-(2 ^ (w - 1) : Nat), (2 ^ (w - 1) : Nat) - 1) else (0, (2 ^ w : Nat) - 1)

/-- A value converted: narrow integers are extended to 32 bits. -/
def CvtType.write (t : CvtType) (md : RMode) (sat : Bool) (r : Nat) (mode : W32) (x : Num) : Rounded :=
  match t with
  | .flt F => if wideFmt F then ftz F mode (F.round md sat r x) else F.round md sat r x
  | .int w sg =>
    let y := roundToInt md r w (intRange w sg).1 (intRange w sg).2 x
    { y with code := if sg && w < 32 then wrap 32 (toSigned w y.code) else y.code }

/-- How a source type reads an immediate (R17). -/
def cvtImm (code : Nat) : ImmKind :=
  if code = 0 then .upper else if code = 8 || code = 10 || code = 12 || code = 14 then .signed else .unsigned

/-- CVT: DT is the destination type, SUB the source type. -/
def execCvt (f : Fields) (s : State) : Res :=
  registers (.cvt f) f s fun c =>
    let md := roundMode f c.sp.mode
    let n := cvtRegs (subN f)
    let lo := c.g.word (cvtImm (subN f)) f.a 0
    let hi := c.g.word (cvtImm (subN f)) f.a 1
    c.write (cvtRegs (dtN f)) (formOf (if n = 2 then [lo, hi] else [lo])) (decide (dtN f = 8)) (drawsIn md 1) fun l =>
      let x := if n = 2 then (hi.at l ++ lo.at l : W64).toNat else (lo.at l).toNat
      let r := (cvtType (dtN f)).write md f.sat (c.rand md l 0) c.sp.mode ((cvtType (subN f)).read c.sp.mode x)
      { w := wordsOf (cvtRegs (dtN f)) r.code, flags := r.flags }

/-! ### PACK and UNPK (R198) -/

/-- The element type of a packed form. -/
def packType (dt : Nat) : CvtType :=
  match dt with
  | 0 => .flt fp16
  | 1 => .flt bf16
  | 2 => .flt e5m2
  | 3 => .flt e4m3
  | 4 => .flt e3m2
  | 5 => .flt e2m3
  | 6 => .flt e2m1
  | 7 => .int 8 true
  | _ => .int 4 true

/-- Bits between one packed element and the next (R145, R198). -/
def packWidth (dt : Nat) : Nat := if dt ≤ 1 then 16 else if dt ≤ 3 then 8 else if dt ≤ 5 then 6 else if dt = 7 then 8 else 4

/-- PACK: element 0 first. -/
def execPack (f : Fields) (s : State) : Res :=
  registers (.pack f) f s fun c =>
    let md := roundMode f c.sp.mode
    let n := packCount (dtN f)
    let src := fun (j : Nat) => if n = 2 then c.g.word .upper (if j = 0 then f.a else f.b) 0 else c.g.word .upper f.a j
    let from_ := if 7 ≤ dtN f then CvtType.int 32 true else CvtType.flt fp32
    c.write 1 (formOf ((List.range n).map src)) false (if dtN f ≤ 6 then drawsIn md n else 0) fun l =>
      let r := fun (j : Nat) => (packType (dtN f)).write md f.sat (if dtN f ≤ 6 then c.rand md l j else 0) c.sp.mode
        (from_.read c.sp.mode ((src j).at l).toNat)
      let w := packWidth (dtN f)
      { w := [BitVec.ofNat 32 ((List.range n).foldl (fun acc j => acc + (r j).code % 2 ^ w * 2 ^ (w * j)) 0)],
        flags := (List.range n).foldl (fun acc j => acc ||| (r j).flags) 0 }

/-- UNPK: every element exact; neither DAZ nor FTZ acts. A 16-bit immediate is zero-extended where the packed type has 8, 6 or 4
bits (log 64). -/
def execUnpk (f : Fields) (s : State) : Res :=
  registers (.unpk f) f s fun c =>
    let n := packCount (dtN f)
    let a := c.g.word (if dtN f ≤ 1 then .both else .unsigned) f.a 0
    c.write n (formOf [a]) false 0 fun l =>
      { w := (List.range n).map fun j =>
        let x := (a.at l).toNat / 2 ^ (packWidth (dtN f) * j)
        BitVec.ofNat 32 (match packType (dtN f) with
          | .flt F => rne32 (F.decode x)
          | .int w _ => wrap 32 (toSigned w x)) }

/-! ### Block scales (R199, R200) -/

/-- The format of a QBLK form. -/
def qblkFmt (dt : Nat) : FloatFmt :=
  match dt with
  | 4 => e5m2
  | 5 => e4m3
  | 6 => e3m2
  | 7 => e2m3
  | _ => e2m1

/-- The largest magnitude of finite values. -/
def amaxOf (xs : List Num) : Num :=
  xs.foldl (fun m x => if (m.cmp x.abs) = some .lt then x.abs else m) (.fin false 0 0)

/-- ⌊log2 x⌋ of a positive finite value. -/
def floorLog2 : Num → Int
  | .fin _ m e => (m.log2 : Int) + e
  | _ => 0

/-- The E8M0 code of a block (R199). -/
def e8m0Scale (F : FloatFmt) (xs : List Num) : Rounded :=
  if xs.any fun x => x.isNan || x.isInf then { code := 0xFF, iv := true }
  else if (amaxOf xs).isZero then { code := 0 }
  else { code := (clamp 0 254 (floorLog2 (amaxOf xs) - F.emax + 127)).toNat }

/-- The NQ4 scale of a block under F (R199). -/
def nq4Scale (f : Num) (xs : List Num) : Rounded :=
  match f with
  | .fin false fm fe =>
    if fm = 0 then { code := 0, iv := true }
    else if xs.any fun x => x.isNan || x.isInf then { code := 255, iv := true }
    else match amaxOf xs with
      | .fin _ m e =>
        if m = 0 then { code := 0 }
        else
          let q := unitsOf (256 * m) fm (e - fe) 0
          let x := ceilDiv q.1 q.2
          if 255 < x then { code := 255, of := true } else { code := x }
      | _ => { code := 0 }
  | _ => { code := 0, iv := true }

/-- F32 elements of registers across all 32 lanes, DAZ applied. -/
def blockElems (c : Ctx) (o : Opnd) (n : Nat) : List Num :=
  (List.range n).flatMap fun j => (List.range 32).map fun l => num32 (daz fp32 c.sp.mode ((c.g.word .unsigned o j).at l).toNat)

/-- QBLK.SCALE: reads all 32 lanes, whatever the mask. -/
def execQblkScale (f : Fields) (s : State) : Res :=
  registers (.qblkScale f) f s fun c =>
    let r := if dtN f = 9 then nq4Scale (num32 (lowWord (c.g.scalar .unsigned f.b)).toNat) (blockElems c f.a 2)
      else e8m0Scale (qblkFmt (dtN f)) (blockElems c f.a 1)
    c.write 1 .uniform false 0 fun _ => { w := [BitVec.ofNat 32 r.code], flags := r.flags }

/-- QBLK.SUPER: the superscale of a largest magnitude. -/
def execQblkSuper (f : Fields) (s : State) : Res :=
  registers (.qblkSuper f) f s fun c =>
    let x := num32 (daz fp32 c.sp.mode ((c.g.word .unsigned f.a 0).at c.designated).toNat)
    let r : Rounded := match x with
      | .fin neg m e =>
        if m = 0 then { code := 0x3F800000 }
        else if neg then { code := 0x3F800000, iv := true }
        else fp32.roundMag .rup false 0 false (m * 256) 255 e
      | _ => { code := 0x3F800000, iv := true }
    c.write 1 .uniform false 0 fun _ => { w := [BitVec.ofNat 32 r.code], flags := r.flags }

/-- Scale and superscale of a lane: bits 7:0, and F in bits 63:32 of an S register. -/
def scaleOf (c : Ctx) (l : Nat) : Nat × Num :=
  (((c.g.word .unsigned c.f.b 0).at l).toNat % 256, num32 (highWord (c.g.scalar .unsigned c.f.b)).toNat)

/-- QBLK.CODE. Under an NQ4 superscale that is NaN, or zero with a finite x, and s ≠ 0, y has no value and the code is open; so is
the sign of an infinite x under NaN (log 8). -/
def execQblkCode (f : Fields) (s : State) : Res :=
  registers (.qblkCode f) f s fun c =>
    let md := roundMode f c.sp.mode
    let a := c.g.word .upper f.a 0
    let b := c.g.word .unsigned f.b 0
    c.write 1 (formOf [a, b]) false (drawsIn md 1) fun l =>
      let x := num32 (daz fp32 c.sp.mode (a.at l).toNat)
      let sc := scaleOf c l
      let r : Rounded :=
        if dtN f = 9 then
          if sc.1 = 0 then { code := 0 }
          else if x.isNan then { code := 0, iv := true }
          else match x, sc.2 with
            | .inf _, .nan => { code := 7 + 8 * ((Config.openWord s.tick l).toNat % 2), of := true, clamped := true }
            | .fin _ _ _, .nan => { code := (Config.openWord s.tick l).toNat % 16 }
            | .fin _ _ _, .fin _ 0 _ => { code := (Config.openWord s.tick l).toNat % 16 }
            | _, f => nq4Encode md (c.rand md l 0) x sc.1 f
        else
          let v := if sc.1 = 255 then Num.nan else x.scale2 (127 - (sc.1 : Int))
          (qblkFmt (dtN f)).round md false (c.rand md l 0) v
      { w := [BitVec.ofNat 32 r.code], flags := r.flags }

/-- DQBLK. -/
def execDqblk (f : Fields) (s : State) : Res :=
  registers (.dqblk f) f s fun c =>
    let md := roundMode f c.sp.mode
    let a := c.g.word .unsigned f.a 0
    let b := c.g.word .unsigned f.b 0
    c.write 1 (formOf [a, b]) false (drawsIn md 1) fun l =>
      let sc := scaleOf c l
      let code := (a.at l).toNat
      let v := if dtN f = 9 then nq4Value (code % 16) sc.1 sc.2
        else ((qblkFmt (dtN f)).decode code).mul (e8m0 sc.1)
      let r := ftz fp32 c.sp.mode (fp32.round md false (c.rand md l 0) v)
      { w := [BitVec.ofNat 32 r.code], flags := r.flags }

/-! ### FMT and MODE (R132 to R134, R151, R201) -/

/-- The width class of a format number (R150); 0 for a reserved number. -/
def fmtClass (n : Nat) : Nat :=
  match n with
  | 1 => 1
  | 2 => 2
  | 3 => 2
  | 4 => 3
  | 5 => 3
  | 6 => 5
  | 7 => 5
  | 8 => 6
  | 9 => 6
  | 10 => 4
  | 11 => 7
  | 12 => 8
  | _ => 0

/-- The fields of FMT that have a meaning (R132). -/
def fmtFields : W32 := 0x1F0F0F#32
/-- The fields of MODE that have a meaning (R133). -/
def modeFields : W32 := 0x37F#32

/-- A value that FMT may hold (R132, R151). -/
def fmtOk (x : Nat) : Bool :=
  let a := bits x 3 0
  let b := bits x 11 8
  let scm := bits x 17 16
  let blk := bits x 19 18
  let cls := fmtClass a
  let nq := a == 9 || b == 9
  cls != 0 && cls == fmtClass b && scm != 3 && blk != 3 && !(blk != 0 && scm == 0) && !(blk == 1 && scm == 2) &&
    (match scm with
      | 0 => true
      | 1 => cls == 3 || cls == 5 || (cls == 6 && !nq)
      | _ => cls == 6 && nq)

/-- A value that MODE may hold (R133). -/
def modeOk (x : Nat) : Bool := bits x 2 0 != 0 && bits x 2 0 != 7 && bits x 6 5 < 2

/-- The fault of a GROUP-scope value: in the designated thread (R167). -/
def Ctx.badValue (c : Ctx) : Eff := .fault codeADDRBAD (maskOf (· == c.designated))

/-- SETFMT. -/
def execSetfmt (f : Fields) (s : State) : Res :=
  registers (.setfmt f) f s fun c =>
    let x := lowWord (c.g.scalar .unsigned f.a)
    if fmtOk x.toNat then .done fun g => g.modSplit c.who.split fun sp => { sp with fmt := x &&& fmtFields } else c.badValue

/-- SETMODE. -/
def execSetmode (f : Fields) (s : State) : Res :=
  registers (.setmode f) f s fun c =>
    let x := lowWord (c.g.scalar .unsigned f.a)
    if modeOk x.toNat then .done fun g => g.modSplit c.who.split fun sp => { sp with mode := x &&& modeFields } else c.badValue

/-- GETFMT. -/
def execGetfmt (f : Fields) (s : State) : Res :=
  registers (.getfmt f) f s fun c => c.write 1 .uniform false 0 fun _ => { w := [c.sp.fmt] }

/-- GETMODE. -/
def execGetmode (f : Fields) (s : State) : Res :=
  registers (.getmode f) f s fun c => c.write 1 .uniform false 0 fun _ => { w := [c.sp.mode] }

/-- SETSEED (R202). -/
def execSetseed (f : Fields) (s : State) : Res :=
  registers (.setseed f) f s fun c =>
    let x := c.g.scalar .unsigned f.a
    .done fun g => { g with
      seeds := put g.seeds (subN f % 4) x
      rsr := if bit (subN f) 2 then Vector.replicate 32 0 else g.rsr }

/-! ### The flag word and the loss scale (R161, R163, R203, R204) -/

/-- An instruction that first waits for the flags of its group's matrix instructions (R203). -/
def afterMatrix (i : Instr) (f : Fields) (s : State) (body : Ctx → Eff) : Res :=
  match s.ctx i f with
  | none => .fault .noSplit
  | some c =>
    if c.act != 0 && s.matrixBusy c.who.team c.who.group then .next (s.block c.who (.resource .matrixDone))
    else registers i f s body

/-- FLAGS.RD. -/
def execFlagsRd (f : Fields) (s : State) : Res :=
  afterMatrix (.flagsRd f) f s fun c => c.write 1 .uniform false 0 fun _ => { w := [c.g.flags] }

/-- FLAGS.CLR and FLAGS.SET: one indivisible read and change. -/
def flagsChange (i : Instr) (f : Fields) (s : State) (op : W32 → W32 → W32) : Res :=
  afterMatrix i f s fun c =>
    let a := (c.g.word .unsigned f.a 0).at c.designated
    if 32 ≤ a.toNat then c.badValue
    else match c.write 1 .uniform false 0 (fun _ => { w := [c.g.flags] }) with
      | .done h => .done fun g => let g := h g; { g with flags := op g.flags a }
      | e => e

/-- FLAGS.CLR. -/
def execFlagsClr (f : Fields) (s : State) : Res := flagsChange (.flagsClr f) f s fun w a => w &&& ~~~ a
/-- FLAGS.SET. -/
def execFlagsSet (f : Fields) (s : State) : Res := flagsChange (.flagsSet f) f s fun w a => w ||| a

/-- One update of the loss-scale register with interval n: the register, and whether the step is skipped (R163). -/
def lscaleStep (lsr : W64) (of : Bool) (n : Nat) : W64 × Bool :=
  let v := (lowWord lsr).toNat
  let run := (highWord lsr).toNat
  if of then (BitVec.ofNat 64 (max (v - 2 ^ 23) 0x3F800000), true)
  else
    let run := min (run + 1) (2 ^ 32 - 1)
    if n ≤ run then (BitVec.ofNat 64 (min (v + 2 ^ 23) 0x4B800000), false)
    else (BitVec.ofNat 64 (v + run * 2 ^ 32), false)

/-- LSCALE.STEP. -/
def execLscaleStep (f : Fields) (s : State) : Res :=
  afterMatrix (.lscaleStep f) f s fun c =>
    let n := (lowWord (c.g.scalar .unsigned f.a)).toNat
    let r := lscaleStep c.g.lsr (c.g.flags.getLsbD 2) n
    if n = 0 then c.badValue
    else match c.write 2 .uniform false 0 (fun _ => { w := [if r.2 then 1 else 0, lowWord r.1] }) with
      | .done h => .done fun g => let g := h g; { g with lsr := r.1, flags := g.flags &&& ~~~ (4 : W32) }
      | e => e

/-- LSCALE.RD. -/
def execLscaleRd (f : Fields) (s : State) : Res :=
  registers (.lscaleRd f) f s fun c => c.write 2 .uniform false 0 fun _ => { w := [lowWord c.g.lsr, highWord c.g.lsr] }

/-- LSCALE.WR. -/
def execLscaleWr (f : Fields) (s : State) : Res :=
  registers (.lscaleWr f) f s fun c =>
    let x := c.g.scalar .unsigned f.a
    let v := (lowWord x).toNat
    if v < 0x3F800000 || 0x4B800000 < v then c.badValue else .done fun g => { g with lsr := x }

end Sys2Proof.Machine
end

