-- ==== Sys2Proof/WellFormed.lean ====
section
/-! DEFINITION. Well-formed instruction words: those that decode accepts in a group's environment
(spec/01_instruction_word.md R26). -/

namespace Sys2Proof

open Sys2Proof.Machine

/-- A word instruction whose SUB, DT and action are those of its row, whose fields pass step 2 of R26 and whose scope
passes step 3; or a word of an unassigned opcode. A machine event has no word. -/
def Instr.wf (e : Env) (i : Instr) : Bool :=
  match i with
  | .unassignedOpcode w => (w.toNat % 256 == 0) || (build (w.toNat % 256) default).isNone
  | i =>
    match head i with
    | some (opc, f) => build opc f == some (some i) && encOk e i f && scopeOk e i f
    | none => false

end Sys2Proof
end

