-- ==== Sys2Proof/Decode.lean ====
section
/-! DEFINITION. Decoding and encoding of the 96-bit word (spec/01_instruction_word.md R13 to R27). Decoding is total:
it gives an instruction, or one of the decode faults ILLENC and ILLSCOPE; a word of an unassigned opcode is an
instruction of its own, which raises ILLOPC. -/

namespace Sys2Proof

open Sys2Proof.Machine

/-- A decode fault of step 2 or 3 of R26. -/
inductive DecodeFault where
  | illenc | illscope
  deriving DecidableEq, Repr

/-- The widths of the fields of R14 from bit 0 up: OPC, SCOPE, GP, GN, LA, REUSE, YIELD, RND, SAT, DT, SUB, D.INDEX,
D.KIND, A.K with A.PAT and A.INDEX, A.KIND, the same of B, C.INDEX, C.KIND, XM. -/
def fieldWidths : List Nat := [8, 2, 3, 1, 4, 1, 1, 3, 1, 4, 4, 8, 3, 16, 3, 16, 3, 8, 3, 4]

/-- The fields of a word, lowest first. -/
def unpack : List Nat → Nat → List Nat
  | [], _ => []
  | w :: ws, x => x % 2 ^ w :: unpack ws (x / 2 ^ w)

/-- The word of its fields, lowest first. -/
def pack : List Nat → List Nat → Nat
  | w :: ws, x :: xs => x + 2 ^ w * pack ws xs
  | _, _ => 0

/-- An index below n. -/
def finOf (n x : Nat) : Option (Fin n) := if h : x < n then some ⟨x, h⟩ else none

/-- PAT and k of R18. -/
def decodePerm (pat : Nat) (k : Fin 32) : Option Perm :=
  match pat with
  | 0 => if k.val = 0 then some .id else none
  | 1 => some (.rot k)
  | 2 => some (.bcast k)
  | 3 => some (.xor k)
  | 4 => if 1 ≤ k.val ∧ k.val ≤ 5 then some (.mir k) else none
  | 5 => some (.shu k)
  | 6 => some (.shd k)
  | _ => none

/-- PAT and k of a permutation. -/
def encodePerm : Perm → Nat × Nat
  | .id => (0, 0)
  | .rot k => (1, k.val)
  | .bcast k => (2, k.val)
  | .xor k => (3, k.val)
  | .mir k => (4, k.val)
  | .shu k => (5, k.val)
  | .shd k => (6, k.val)

/-- A register operand of a kind other than V and immediate (R15). -/
def decodeKind (kind idx : Nat) : Option Opnd :=
  match kind with
  | 1 => (finOf 64 idx).map Opnd.s
  | 2 => (finOf 8 idx).map Opnd.p
  | 3 => (finOf 32 idx).map Opnd.x
  | 4 => (finOf 16 idx).map Opnd.t
  | 6 => (finOf 256 idx).map Opnd.special
  | 7 => (finOf 16 idx).map Opnd.k
  | _ => none

/-- Operand A or B: kind and its 16 bits, k lowest, then PAT, then INDEX (R14, R17, R18). -/
def decodeAB (kind low : Nat) : Option Opnd :=
  match kind with
  | 0 => do
    let n ← finOf 256 (low / 256)
    let k ← finOf 32 (low % 32)
    let q ← decodePerm (low / 32 % 8) k
    pure (.v n q)
  | 5 => some (.imm (BitVec.ofNat 16 low))
  | kind => if low % 256 = 0 then decodeKind kind (low / 256) else none

/-- Operand D or C: kind and INDEX (R14). -/
def decodeDC (kind idx : Nat) : Option Opnd :=
  match kind with
  | 0 => (finOf 256 idx).map fun n => .v n .id
  | kind => decodeKind kind idx

/-- Kind and index of an operand; an immediate has no index. -/
def encodeKind : Opnd → Nat × Nat
  | .v n _ => (0, n.val)
  | .s n => (1, n.val)
  | .p n => (2, n.val)
  | .x n => (3, n.val)
  | .t n => (4, n.val)
  | .imm _ => (5, 0)
  | .special n => (6, n.val)
  | .k n => (7, n.val)

/-- The 16 bits of operand A or B. -/
def encodeAB : Opnd → Nat
  | .v n q => n.val * 256 + (encodePerm q).1 * 32 + (encodePerm q).2
  | .imm w => w.toNat
  | o => (encodeKind o).2 * 256

def decodeScope : Nat → Scope
  | 0 => .lane
  | 1 => .group
  | 2 => .gang
  | _ => .team

def encodeScope : Scope → Nat
  | .lane => 0
  | .group => 1
  | .gang => 2
  | .team => 3

/-- The fields of a word, or none where an operand breaks R15 or R18. -/
def decodeFields (w : Nat) : Option Fields :=
  match unpack fieldWidths w with
  | [_, scope, gp, gn, la, reuse, yield, rnd, sat, dt, sub, di, dk, al, ak, bl, bk, ci, ck, xm] => do
    let gp ← finOf 8 gp
    let la ← finOf 16 la
    let d ← decodeDC dk di
    let a ← decodeAB ak al
    let b ← decodeAB bk bl
    let c ← decodeDC ck ci
    pure
      { scope := decodeScope scope, gp := gp, gn := gn == 1, la := la, reuse := reuse == 1, yield := yield == 1,
        rnd := BitVec.ofNat 3 rnd, sat := sat == 1, dt := BitVec.ofNat 4 dt, sub := BitVec.ofNat 4 sub,
        xm := BitVec.ofNat 4 xm, d := d, a := a, b := b, c := c }
  | _ => none

/-- The fields of a word whose operands may break R15: only what the opcode map needs. -/
def laxFields (w : Nat) : Fields :=
  match unpack fieldWidths w with
  | [_, scope, _, _, _, _, _, _, _, dt, sub, _, _, _, _, _, _, _, _, _] =>
    { (default : Fields) with scope := decodeScope scope, dt := BitVec.ofNat 4 dt, sub := BitVec.ofNat 4 sub }
  | _ => default

/-- Decode a word in a group's environment, in the order of R26. -/
def decode (e : Env) (w : InsWord) : Except DecodeFault Instr :=
  let opc := w.toNat % 256
  match build opc (laxFields w.toNat) with
  | none => .ok (.unassignedOpcode w)
  | some _ =>
    match decodeFields w.toNat with
    | none => .error .illenc
    | some f =>
      match build opc f with
      | some (some i) =>
        if !encOk e i f then .error .illenc
        else if !scopeOk e i f then .error .illscope
        else .ok i
      | _ => .error .illenc

/-- The word of an opcode and its fields (R14). -/
def encodeWord (opc : Nat) (f : Fields) : InsWord :=
  BitVec.ofNat 96 (pack fieldWidths
    [opc, encodeScope f.scope, f.gp.val, b2n f.gn, f.la.val, b2n f.reuse, b2n f.yield, f.rnd.toNat, b2n f.sat,
     f.dt.toNat, f.sub.toNat, (encodeKind f.d).2, (encodeKind f.d).1, encodeAB f.a, (encodeKind f.a).1,
     encodeAB f.b, (encodeKind f.b).1, (encodeKind f.c).2, (encodeKind f.c).1, f.xm.toNat])

/-- The word of an instruction. A machine event has none; its word is 0. -/
def encode (i : Instr) : InsWord :=
  match i with
  | .unassignedOpcode w => w
  | i =>
    match head i with
    | some (opc, f) => encodeWord opc f
    | none => 0

/-- The word of 12 bytes in memory order (R13). -/
def wordOfBytes (bs : List Byte) : InsWord := BitVec.ofNat 96 (leNat bs)

/-- The 12 bytes of a word in memory order (R13). -/
def bytesOfWord (w : InsWord) : List Byte := leBytes 12 w.toNat

/-- The environment in which an opcode-table row is read: every form that some group may run. -/
def tableEnv : Env := { kRegs := true, rett := true, noRdv := false, gang := 2, tiles := 16, twin := true }

/-- The instruction of a table row's word (bits above nbits are zero). -/
def decodeTableWord (nbits w : Nat) : Option Instr :=
  match decode tableEnv (BitVec.ofNat 96 (w % 2 ^ nbits)) with
  | .ok i => some i
  | .error _ => none

end Sys2Proof
end

