-- ==== Sys2Proof/Machine/Checks.lean ====
section
/-! DEFINITION. Machine checks charged to a core (spec/02_memory_and_translation.md R57, R58;
spec/15_traps_and_reliability.md R363, R390): the end of the core's groups, the records and the core reset. -/

namespace Sys2Proof.Machine

/-- The contexts of a list, each once. -/
def State.contextsOn (s : State) (core : Nat) : List Nat :=
  dedup ((s.teams.filter fun t => t.groups.any fun g => g.core == core && !g.ended).map (·.ctx))

/-- An instruction that both arrays of a twin team carry out (R214). -/
def isTwin (i : Instr) (f : Fields) : Bool :=
  match i with
  | .mma _ => bit (subN f) 1
  | .mmaq _ => bit (subN f) 1
  | _ => false

/-- The twin operations in which a core takes part leave its partner's queue too (R214). -/
def State.dropTwins (s : State) (core : Nat) : State :=
  let other := if core % 2 = 0 then core + 1 else core - 1
  if (s.core other).matrix.isEmpty then s
  else s.setCore other { s.core other with matrix := (s.core other).matrix.filter fun m =>
    if core % 2 = 0 then !m.shadow else !((fieldsOf m.i).any fun f => isTwin m.i f) }

/-- SRAM, caches, tiles and pin entries of a core as its reset leaves them; the core is out of the live map until its
self-test (R363, R390). -/
def State.resetCore (s : State) (core : Nat) : State :=
  let lo := sramKey core 0
  let s := { s with mem := s.mem.filter fun (c : Host.Cell) => c.1 < lo || lo + 2 ^ 20 ≤ c.1 }
  (s.dropTwins core).setCore core { Core.fresh with rested := true, since := (s.die (dieOf core)).cc }

/-- The groups of a core that have not ended, with their teams. -/
def State.coreGroups (s : State) (core : Nat) : List (Nat × Nat) :=
  s.teams.flatMap fun t => (t.groups.filter fun g => g.core == core && !g.ended).map fun g => (t.id, g.index)

/-- The groups of a core end, each team's in index order, with a check's code and split 0xFF. -/
def State.endCoreGroups (s : State) (core code : Nat) : State :=
  (s.coreGroups core).foldl (fun s x => s.endGroup x.1 x.2 (some (exitWord code 0xFF x.2))) s

/-- UE, DATACHK or POISON halts the core it is charged to: its matrix instructions go with the reset, so that its groups then leave their
barriers (R58, R321, R363). `key`: the sector's address; the syndrome and bank
of the record are open (log 8); a POISON names the context of the access as the owner of the page (R58, R356; log 68). -/
def State.machineCheck (s : State) (core ctx code key : Nat) : State :=
  let aux := s.checkAux code key
  let ctxs := dedup (ctx :: s.contextsOn core)
  let ended := s.coreGroups core
  let s := s.endCoreGroups core code
  let owner := if code = codePOISON then some ctx else none
  let s := ctxs.foldl (fun s c => s.post c { aux := aux, addr := key, core := core, cls := 2, code := code, owner := owner }) s
  ended.foldl (fun s x => (s.leaveBarriers x.1 x.2).reap x.1) (s.resetCore core)

end Sys2Proof.Machine
end

