-- ==== Sys2Proof/Machine/Schedule.lean ====
section
/-! DEFINITION. The group scheduler (spec/13_execution_and_control.md R315; spec/14_scheduling.md R351): which splits are
ready, which one issues next, and the fetch of its word (spec/01_instruction_word.md R13, spec/02 R45). -/

namespace Sys2Proof.Machine

/-! ### Resources that a split may wait for -/

/-- Commands that an engine's queue holds (R68, R256, R354); R303 gives the collective engine none (log 13). -/
def engineRoom (eng : Nat) : Nat :=
  match eng with
  | 0 => 64
  | 1 => 32
  | 2 => 16
  | 3 => 32
  | 4 => 64
  | 5 => 64
  | _ => 8

/-- Queued commands of an engine at its place. -/
def State.queuedAt (s : State) (eng place : Nat) : Nat :=
  (s.commands.filter fun c => c.eng == eng && c.place == place && c.phase == .queued && !c.saved).length

/-- The command stands at the head of its engine's queue (R71). -/
def State.atHead (s : State) (c : Command) : Bool :=
  ((s.commands.find? fun x => x.eng == c.eng && x.place == c.place && x.phase == .queued && !x.saved).map (·.id)) == some c.id

/-- Commands of a group's batches that have not completed: a batch number is incomplete while one of them stands. -/
def State.openBatches (s : State) (team group : Nat) : List Nat :=
  dedup ((s.commands.filter fun c => c.owner == some (team, group)).map (·.batch))

/-- Closed batches of a group that are not complete (R69). -/
def State.closedIncomplete (s : State) (team : Nat) (g : Group) : Nat :=
  ((s.openBatches team g.index).filter fun b => b != g.openBatch).length

/-- An accepted matrix instruction of the group has yet to read the byte, for a write, or to write it (R217). -/
def State.matrixHolds (s : State) (team group : Nat) (write : Bool) (key : Nat) : Bool :=
  s.cores.any fun c => c.2.matrix.any fun m =>
    (write || m.stores) && m.ofGroup team group && m.reads.any fun x => x.first ≤ key && key < x.first + x.len

/-- A group's accesses are all acknowledged (R97, R110). -/
def Group.quiet (g : Group) : Bool :=
  g.unacked == 0 && g.outstanding.isEmpty && g.counters.toList.all Option.isNone

/-- A group's accesses are all acknowledged, those of the matrix engine among them (R110, R217). -/
def State.quiet (s : State) (team : Nat) (g : Group) : Bool := g.quiet && !s.matrixOwes team g.index

/-- A group's stores are all acknowledged, its TST among them (R217, R385; log 19). -/
def State.storesDone (s : State) (team : Nat) (g : Group) : Bool :=
  g.unacked == 0 && (g.counters.toList.all fun c => c.all fun c => !c.out.regs.isEmpty) && !s.storing team g.index false

/-- The team holds the array of a core: operations of its count are left, or of those that it has after the count ran out.
A count that has run out holds the next operation until LEASE_EXHAUSTED decides (R215). -/
def State.holdsLease (s : State) (core : Nat) (t : Team) : Bool :=
  let l := (s.core core).lease
  l.holder == some t.id && match l.grace with
    | some k => decide (k < t.launch.lease)
    | none => l.left != 0

/-- The array of a core follows a twin operation (R214). -/
def State.follows (s : State) (core : Nat) : Bool := (s.core core).matrix.any (·.shadow)

/-- Requests that wait in the overflow buffer of a core because their bank's 16 places are taken (R64). -/
def State.overflow (s : State) (core : Nat) : Nat :=
  let reqs := (s.teams.flatMap (·.groups)).flatMap fun g => g.counters.toList.flatMap fun c => match c with
    | some c => c.requests.filter fun w => sramKey core 0 / 4 ≤ w && w < sramKey core 0 / 4 + 2 ^ 18
    | none => []
  (List.range 32).foldl (fun n b => n + ((reqs.filter fun w => w % 32 == b).length - 16)) 0

/-- What a resource stall waits for has come. -/
def State.available (s : State) (w : Who) (r : Resource) : Bool :=
  match s.team? w.team with
  | none => false
  | some t =>
    match t.group? w.group with
    | none => false
    | some g =>
      match r with
      | .engine eng place => decide (s.queuedAt eng place < engineRoom eng)
      | .batches => !(s.openBatches w.team w.group).contains g.openBatch || decide (s.closedIncomplete w.team g < 16)
      | .matrix core => decide ((s.core core).matrix.length < 16)
      | .lease core =>
        let l := (s.core core).lease
        s.holdsLease core t || (l.holder.isNone && l.waiting.isEmpty)
      | .counter => g.counters.toList.any Option.isNone
      | .acks => s.quiet w.team g
      | .stores => s.storesDone w.team g
      | .matrixDone => !s.matrixBusy w.team w.group
      | .line key => (s.ownedLine [key]).isNone && !s.matrixHolds w.team w.group true key
      | .hold granule => (s.heldBy granule).isNone && !s.parkedOn granule
      | .banks core => decide (s.overflow core < 64)
      | .follower core => !s.follows core

/-! ### Fetch -/

/-- Words of 12 bytes in an instruction cache of 128 KiB (R1). -/
def iCacheWords : Nat := 131072 / 12

/-- The word at a PC, or the fault its fetch meets. A PC in the global form that names this package is a local address (R36). The cache
holds words of 12 bytes, each by its context and address, takes in the word that is fetched, and drops the one fetched longest ago
(R1; log 66). -/
def State.fetch (s : State) (core ctx pc : Nat) : State × Except MemFault InsWord :=
  match s.reach core ctx (BitVec.ofNat 64 pc) 12 .fetch with
  | (s, .error f) => (s, .error f)
  | (s, .ok spots) =>
    match s.readCheck spots with
    | some (code, key) => (s, .error (.check code key))
    | none =>
      let s := s.beforeRead ctx core false spots
      let now := wordOfBytes (s.readSpots spots)
      let c := s.core core
      let here := fun (e : Nat × Nat × InsWord) => e.1 == ctx && e.2.1 == pc % 2 ^ 48
      let took := s.setCore core { c with icache := ((ctx, pc % 2 ^ 48, now) :: c.icache.filter fun e => !here e).take iCacheWords }
      match c.icache.find? here with
      | some e => if e.2.2 != now && Config.useOld s.tick (pc / 4) then (s, .ok e.2.2) else (took, .ok now)
      | none => (took, .ok now)

/-- The word instruction that a split would issue next; none where its fetch or its decoding faults. -/
def State.nextWord (s : State) (t : Team) (g : Group) (sp : Split) : Option (Instr × Fields) :=
  match (s.fetch g.core t.ctx sp.pc).2 with
  | .error _ => none
  | .ok word => match decode (groupEnv t g) word with
    | .ok i => (fieldsOf i).map fun f => (i, f)
    | .error _ => none

/-! ### Ready splits -/

/-- A split does not wait for anything that it has met (R315): it may be offered its next instruction. -/
def State.awake (s : State) (t : Team) (g : Group) (n : Nat) (sp : Split) : Bool :=
  let w : Who := { team := t.id, group := g.index, split := n }
  !g.ended && !g.halted && g.trap.isNone && t.prologue.isNone && !t.preempt &&
    match sp.wait with
    | .ready => true
    | .depend i => match fieldsOf i with
      | some f => !spansMeet (s.pendingSpans t.id g) (issueSpans t g sp.fmt i f)
      | none => true
    | .resource r => s.available w r
    | _ => false

/-- The dependences of a split's next instruction are met (R351). -/
def State.unbound (s : State) (t : Team) (g : Group) (sp : Split) : Bool :=
  let owed := s.pendingSpans t.id g
  owed.isEmpty || match s.nextWord t g sp with
    | some (i, f) => !spansMeet owed (issueSpans t g sp.fmt i f)
    | none => true

/-- A split may issue (R315, R351). -/
def State.splitReady (s : State) (t : Team) (g : Group) (n : Nat) (sp : Split) : Bool := s.awake t g n sp && s.unbound t g sp

/-- The splits of all groups that satisfy a test, each with its own standing. -/
def State.splitsThat (s : State) (p : Team → Group → Nat → Split → Bool) : List (Who × Split) :=
  s.teams.flatMap fun t => t.groups.flatMap fun g => (g.liveSplits.filter fun x => p t g x.1 x.2).map
    fun x => ({ team := t.id, group := g.index, split := x.1 }, x.2)

/-- Every ready split. -/
def State.readySplits (s : State) : List (Who × Split) := s.splitsThat s.splitReady

/-- A sibling of a split is among the ready ones. -/
def siblingReady (l : List (Who × Split)) (w : Who) : Bool :=
  l.any fun x => x.1.team == w.team && x.1.group == w.group && x.1.split != w.split

/-- R315 bars a split whose count has reached 64 while a sibling is ready. -/
def barred (l : List (Who × Split)) (x : Who × Split) : Bool := 64 ≤ x.2.fairness && siblingReady l x.1

/-- A split as its quarter's scheduler sees it: the quarter (core * 4 + quarter), its group's slot, and itself. -/
structure Standing where
  quarter : Nat
  qslot : Nat
  who : Who
  sp : Split
  deriving DecidableEq, Repr

/-- Every split of the resident groups. -/
def State.standings (s : State) : List Standing :=
  s.teams.flatMap fun t => t.groups.flatMap fun g => g.liveSplits.map fun x =>
    { quarter := g.core * 4 + g.quarter, qslot := g.qslot, who := { team := t.id, group := g.index, split := x.1 }, sp := x.2 }

/-- x has waited longer than y since its last issue; ties go to the lower group slot, then to the lower split. -/
def Standing.before (x y : Standing) : Bool :=
  x.sp.last < y.sp.last || (x.sp.last == y.sp.last && (x.qslot < y.qslot || (x.qslot == y.qslot && x.who.split < y.who.split)))

/-- The one that comes first. -/
def firstOf (before : Standing → Standing → Bool) : List Standing → Option Standing
  | [] => none
  | x :: xs => match firstOf before xs with
    | none => some x
    | some y => if before y x then some y else some x

/-- The split of a quarter that issued last. -/
def State.lastIssuer (s : State) (quarter : Nat) : Option Standing :=
  firstOf (fun x y => y.before x) (s.standings.filter fun x => x.quarter == quarter && x.sp.last != 0)

/-- The pick of a quarter among its ready splits (R351): the burst of a split that has not waited since it issued goes on, or the longest
wait ends. -/
def State.pickIn (s : State) (ready : List Standing) (quarter : Nat) : Option Who :=
  let mine := ready.filter fun x => x.quarter == quarter
  match s.lastIssuer quarter with
  | some x =>
    if x.sp.burst < 4 && mine.any fun y => y.who == x.who then some x.who else (firstOf Standing.before mine).map (·.who)
  | none => (firstOf Standing.before mine).map (·.who)

/-- The split that is offered its next instruction: the pick of a quarter; which quarter comes first in a model of one instruction at a
time is free (log 3). A split that finds a dependence or a resource missing as its turn comes takes no cycle and waits for it. -/
def State.pick (s : State) : Option Who :=
  let l := s.readySplits
  let ok := ((s.splitsThat s.awake).filter fun x => !barred l x).map Prod.fst
  let ready := s.standings.filter fun x => ok.contains x.who
  let picks := (dedup (ready.map (·.quarter))).filterMap (s.pickIn ready)
  match picks with
  | [] => none
  | [w] => some w
  | _ => picks[Config.choose s.tick 0 % picks.length]?

/-- The counts of R315 and R351 as the split issues; YIELD ends its burst (R23). -/
def State.issuing (s : State) (w : Who) (yields : Bool) : State :=
  let sib := siblingReady s.readySplits w
  let again : Bool := match s.group? w.team w.group with
    | some g => (s.lastIssuer (g.core * 4 + g.quarter)).any fun x => x.who == w
    | none => false
  let s := s.modGroup w.team w.group fun g =>
    { g with splits := tab 4 fun n => (g.split? n).map fun x =>
      if n = w.split then
        { x with
          fairness := if sib then min (x.fairness + 1) 64 else x.fairness
          burst := if yields then 4 else if again && x.burst < 4 then x.burst + 1 else 1
          last := s.tick }
      else { x with fairness := 0 } }
  { s with focus := w }

/-! ### Fetch and decode -/

/-- A fault of a split outside any instruction: the mask is the split's whole mask (R26). -/
def splitFault (sp : Split) (split code : Nat) (scope : Nat) : FaultInfo :=
  { code := code, split := split, scope := scope, mask := sp.mask, pc := sp.pc, addr := 0, aux := 0, trapNo := 0,
    laneAddr := Vector.replicate 32 0, resume := sp.pc }

/-- What a step does with the split it has picked: the instruction to run, or the state after a fault of its fetch or its
decoding (R26, R45). -/
def State.fetchDecode (s : State) (w : Who) : Except State (State × Instr) :=
  match s.team? w.team with
  | none => .error s
  | some t =>
    match t.group? w.group with
    | none => .error s
    | some g =>
      match g.split? w.split with
      | none => .error s
      | some sp =>
        match s.fetch g.core t.ctx sp.pc with
        | (s, .error (.xlate va)) =>
          let info := { splitFault sp w.split codeXLATE 0 with addr := va, aux := 2 }
          .error ((s.postXlate t.ctx (groupRecord t g info w.split 0)).block w (.xlate t.ctx (va / 65536)))
        | (s, .error (.check code key)) => .error (s.machineCheck g.core t.ctx code key)
        | (s, .error (.busy r)) => .error (s.block w (.resource r))
        | (s, .error .fenced) => .error (s.takeFault w.team w.group { splitFault sp w.split codeTILEFENCED 0 with addr := sp.pc })
        | (s, .error (.prog code aux)) => .error (s.takeFault w.team w.group
            { splitFault sp w.split code 0 with addr := sp.pc, aux := aux, laneAddr := Vector.replicate 32 (BitVec.ofNat 64 sp.pc) })
        | (s, .ok word) =>
          match decode (groupEnv t g) word with
          | .ok i => .ok (s, i)
          | .error e =>
            let scope := bits word.toNat 9 8
            .error (s.takeFault w.team w.group
              (splitFault sp w.split (match e with
                | .illenc => codeILLENC
                | .illscope => codeILLSCOPE) scope))

/-- The YIELD bit of a word instruction. -/
def yieldsAfter (i : Instr) : Bool :=
  match fieldsOf i with
  | some f => f.yield
  | none => false

end Sys2Proof.Machine
end

