-- ==== Sys2Proof/Machine/Abort.lean ====
section
/-! DEFINITION. Teams and contexts that stop from outside (spec/15_traps_and_reliability.md R373, R374, R376, R383): abort,
cancel, fencing and readmission. -/

namespace Sys2Proof.Machine

/-! ### Stopping teams, commands and contexts -/

/-- The resident and saved teams that satisfy the tests stop without a save; what they have on the way is gone. -/
def State.stopTeams (s : State) (p : Team → Bool) (q : SavedTeam → Bool) : State :=
  let gone := (s.saved.filter q).map (·.id)
  let s := (s.teams.filter p).foldl (fun s t => s.dropTeam t.id) s
  { s with
    saved := s.saved.filter fun x => !q x
    commands := s.commands.filter fun c => match c.owner with
      | some (t, _) => !gone.contains t
      | none => true }

/-- A taken command that has not ended ends with a status; its completion is written by COMMAND_COMPLETE (R343, R344). -/
def endJob (seq status : Nat) (j : Job) : Job := if j.seq == seq && !j.ended then { j with ended := true, status := status } else j
def State.endJob (s : State) (seq status : Nat) : State := { s with jobs := s.jobs.map (Machine.endJob seq status) }

/-- The grids, the graph and the engine work of a command go, its teams with them. -/
def State.stopJob (s : State) (seq : Nat) : State :=
  let s := s.stopTeams (fun t => t.seq == seq) fun t => t.seq == seq
  { s with
    grids := s.grids.filter fun g => g.seq != seq
    graphs := s.graphs.filter fun g => g.seq != seq
    commands := s.commands.filter fun c => c.job != some seq && c.node.map Prod.fst != some seq }

/-- The open entries of some lines merge though no access causes it. An entry that would write a part of a bad sector gives its first
context a record of the check, with no core, and nothing is halted (R54, R57, R58; log 71). -/
def State.mergeLoose (s : State) (lines : List Nat) : State :=
  let bad := (s.mire.filter fun e => lines.contains e.line).filterMap fun e =>
    (e.granules.findSome? fun g => (s.sectorCheck g).map fun code => (e.ctxs.headD 0, code, g * 64))
  bad.foldl (fun s x => s.post x.1 (s.looseCheck x.1 0 x.2.1 x.2.2)) (s.mergeLines lines)

/-- The open Mire entries into which a context has added merge as it ends (R54). -/
def State.endContextMire (s : State) (ctx : Nat) : State :=
  s.mergeLoose ((s.mire.filter fun e => e.ctxs.contains ctx).map (·.line))

/-- A context is aborted (R373): its teams stop without a save, its commands end ABORTED, and a record is posted. -/
def State.abortContext (s : State) (ctx : Nat) : State :=
  let s := s.stopTeams (fun t => t.ctx == ctx) fun t => t.ctx == ctx
  let seqs := (s.jobs.filter fun j => j.ctx == ctx && !j.ended).map (·.seq)
  let s := seqs.foldl (fun s q => (s.stopJob q).endJob q 5) s
  let s := { s with
    grids := s.grids.filter fun g => g.ctx != ctx
    graphs := s.graphs.filter fun g => g.ctx != ctx
    commands := s.commands.filter fun c => c.ctx != ctx }
  (s.endContextMire ctx).post ctx { cls := 2, code := codeTILEFENCED }

def State.abortContexts (s : State) (ctxs : List Nat) : State := ctxs.foldl State.abortContext s

/-- The teams that run on a core of a die. -/
def Team.onDie (t : Team) (die : Nat) : Bool := dieOf t.core == die

/-- The contexts that fencing on a die aborts (R373). -/
def State.touching (s : State) (die : Nat) : List Nat :=
  (List.range 256).filter fun c => (s.die die).touch.getLsbD c || s.teams.any fun t => t.ctx == c && t.onDie die

/-! ### Slices (R49, R373, R374) -/

/-- Tile of a slice number die << 9 | i, as die << 8 | tile. -/
def sliceTile (slice : Nat) : Nat := slice / 2

/-- The lowest live slice above i, mod 512, of its parity; i itself where the die has none. -/
def State.nextSlice (s : State) (die i : Nat) : Nat :=
  (((List.range 256).map fun k => (i + 2 * (k + 1)) % 512).find? fun j => !s.fenced (die * 256 + j / 2)).getD i

/-- The map entries that name a slice of a tile that is not live move on. -/
def State.remap (s : State) (die : Nat) (base : Nat → Nat) : State :=
  let move := fun (i : Nat) => if s.fenced (die * 256 + i / 2) then s.nextSlice die i else i
  s.setDie die { s.die die with sliceMap := tab 512 (fun h => BitVec.ofNat 16 (move (base h))) }

/-- Every live slice of a die merges its Mire entries and writes back its dirty sectors. -/
def State.flushSlices (s : State) (die : Nat) : State :=
  let live := fun (slice : Nat) => slice / 512 == die && !s.fenced (sliceTile slice)
  let s := s.mergeLoose ((s.mire.filter fun e => live e.slice).map (·.line))
  { s with l2 := s.l2.map fun e =>
    if live (s.lineSlice e.1) then (e.1, { e.2 with dirty0 := false, dirty1 := false }) else e }

/-- What a fenced tile's slices held is lost: its Mire entries, which merge there and count in MEPIS with their sums dropped, and the
dirty sectors, whose older content in HBM is open (R54, R55, R373; log 21). -/
def State.loseSlices (s : State) (tile : Nat) : State :=
  let mine := fun (slice : Nat) => sliceTile slice == tile
  let lost := s.l2.filter fun e => mine (s.lineSlice e.1)
  let merged := (s.mire.filter fun e => mine e.slice).flatMap (·.ctxs)
  let dirty := lost.flatMap fun e => (if e.2.dirty0 then [2 * e.1] else []) ++ (if e.2.dirty1 then [2 * e.1 + 1] else [])
  let s := s.poke (dirty.flatMap fun sec => (List.range 64).map fun i =>
    (sec * 64 + i, (Config.openWord s.tick (sec * 64 + i)).setWidth 8))
  let s := { s with
    mire := s.mire.filter fun e => !mine e.slice
    l2 := s.l2.filter fun e => !mine (s.lineSlice e.1)
    windowLines := s.windowLines.filter fun w => lost.all fun e => e.1 != windowTag w.1
    sys := { s.sys with mepis := merged.foldl (fun m c => bump c m) s.sys.mepis } }
  (dedup merged).foldl State.statusBlock s

/-! ### Fencing (R373, R374) -/

/-- 24 hours in ns. -/
def dayNs : Nat := 86400000000000

/-- The fences of a tile within the last 24 h. -/
def State.recentFences (s : State) (h : TileHealth) : Nat := (h.fences.filter fun t => decide (s.time < t + dayNs)).length

/-- The home slice of a line that a command has still to write is on a tile. -/
def State.writesAt (s : State) (c : Command) (tile : Nat) : Bool := c.owned.any fun line => sliceTile (s.lineSlice line) == tile

/-- A started command that has still lines of a fenced tile to write may have a request pending there, which is free: it then waits, for
a page of no context, until ORPHAN_TIMEOUT ends it (R373; log 21). -/
def State.strand (s : State) (tile : Nat) : State :=
  { s with commands := s.commands.map fun c =>
    if c.phase == .started && !c.saved && c.xlate.isNone && s.writesAt c tile && Config.useOld s.tick c.id then
      { c with xlate := some (256 + tile, 0) } else c }

/-- A tile is fenced: a third fence within 24 h retires it, otherwise its self-test runs. -/
def State.fenceTile (s : State) (tile : Nat) : State :=
  let die := dieOf tile
  let ctxs := s.touching die
  let h := { s.tileHealth tile with fences := s.time :: (s.tileHealth tile).fences, orphans := true }
  let h := { h with status := if 3 ≤ s.recentFences h then .retired else .testing }
  let s := (s.strand tile).loseSlices tile
  let s := { s with tiles := assocSet tile h s.tiles }
  let s := (s.flushSlices die).remap die fun i => (nth (s.die die).sliceMap i 0).toNat
  s.abortContexts ctxs

/-! ### Neighbours (R369, R374) -/

/-- The tile beside a tile on its own die, tiles standing in 16 columns. -/
def meshNeighbour (tile : Nat) (d : Dir) : Option Nat :=
  let x := tile % 16
  let y := tile / 16 % 16
  match d with
  | .west => if x = 0 then none else some (tile - 1)
  | .east => if x = 15 then none else some (tile + 1)
  | .north => if y = 0 then none else some (tile - 16)
  | .south => if y = 15 then none else some (tile + 16)

def dirs : List Dir := [.west, .east, .north, .south]

/-- The key of what a tile holds about its neighbour in a direction. -/
def watchKey (tile : Nat) (d : Dir) : Nat :=
  tile * 4 + match d with
    | .west => 0
    | .east => 1
    | .north => 2
    | .south => 3

/-- The watchers of a tile: each neighbour with the direction in which it sees the tile. -/
def watchers (tile : Nat) : List (Nat × Dir) :=
  dirs.filterMap fun d => (meshNeighbour tile d).bind fun n => (dirs.find? fun e => meshNeighbour n e == some tile).map fun e => (n, e)

def State.watch (s : State) (tile : Nat) (d : Dir) : Watch := (assoc (watchKey tile d) s.watches).getD Watch.fresh
def State.setWatch (s : State) (tile : Nat) (d : Dir) (w : Watch) : State :=
  { s with watches := assocSet (watchKey tile d) w s.watches }

/-- A tile that has appealed is readmitted: the slices flush, the map is rebuilt, and every vote about it is TRUST
(R374). -/
def State.readmit (s : State) (tile : Nat) : State :=
  let die := dieOf tile
  let s := s.flushSlices die
  let s := { s with tiles := assocSet tile { s.tileHealth tile with status := .live } s.tiles }
  let s := s.remap die id
  (watchers tile).foldl (fun s x => s.setWatch x.1 x.2 Watch.fresh) s

/-! ### CKPT, CANCEL (R373, R383) -/

/-- The touch bits of a context are cleared on both dies. -/
def State.clearTouch (s : State) (ctx : Nat) : State :=
  { s with dies := s.dies.map fun d => { d with touch := d.touch &&& ~~~ BitVec.ofNat 256 (2 ^ (ctx % 256)) } }

/-- A command that has not ended is cancelled: its teams stop unsaved. -/
def State.cancelJob (s : State) (seq : Nat) : State := (s.stopJob seq).endJob seq 6

end Sys2Proof.Machine
end

