-- ==== Sys2Proof/Machine/Control.lean ====
section
/-! DEFINITION. Control flow (spec/13_execution_and_control.md R308 to R314, R322 to R331): divergence, the
reconvergence stack, branches, joins, exit, and the special registers. -/

namespace Sys2Proof.Machine

/-! ### The reconvergence stack (R314) -/

/-- Address of local offset o of a lane (R99). -/
def localVA (t : Team) (g : Group) (o lane : Nat) : Nat :=
  t.launch.lbase + (t.localSlot * (if t.launch.twin then 64 else 32) + g.index) * t.launch.localB * 32 + o / 4 * 128 +
    lane * 4 + o % 4

/-- The 32 bytes of an entry. -/
def Entry.bytes (e : Entry) : List Byte :=
  leBytes 8 (e.jpc % 2 ^ 56 + e.prid * 2 ^ 56 + e.kind * 2 ^ 62) ++ leBytes 8 (e.ppc % 2 ^ 56) ++
    leBytes 4 e.mask.toNat ++ leBytes 4 e.pmask.toNat ++ leBytes 4 e.fmt.toNat ++ leBytes 4 e.mode.toNat

/-- The entry that 32 bytes hold, and whether they hold a reserved value. -/
def Entry.ofBytes (bs : List Byte) : Entry × Bool :=
  let x := leNat bs
  ({ mode := BitVec.ofNat 32 (bits x 255 224), fmt := BitVec.ofNat 32 (bits x 223 192),
     pmask := BitVec.ofNat 32 (bits x 191 160), mask := BitVec.ofNat 32 (bits x 159 128), ppc := bits x 119 64,
     kind := bits x 63 62, prid := bits x 57 56, jpc := bits x 55 0 },
   bits x 127 120 != 0 || bits x 61 58 != 0 || decide (2 ≤ bits x 63 62))

/-- What reaching a spilled entry meets: an overflow, a fenced tile, a translation fault of a read or a write, a machine check, or a
wait. -/
inductive SpillFault where
  | overflow
  | fenced
  | xlate (write : Bool) (va : Nat)
  | check (code key : Nat)
  | busy (r : Resource)
  deriving DecidableEq, Repr

/-- The places of the spilled entry of a split at depth k ≥ 16. -/
def State.spillSpots (s : State) (t : Team) (g : Group) (split k : Nat) (acc : Access) : State × Except SpillFault (List Spot) :=
  if t.launch.localB < 4 * (k - 15) then (s, .error .overflow)
  else
    let va := localVA t g (t.launch.localB - 4 * (k - 15)) (8 * split)
    match s.reach g.core t.ctx (BitVec.ofNat 64 va) 32 acc with
    | (s, .ok l) =>
      let write := writesTo acc
      match s.deviceStall write (l.map (·.key)), if write then s.writeCheck l else s.readCheck l with
      | some r, _ => (s, .error (.busy r))
      | none, some (code, key) => (s, .error (.check code key))
      | none, none => (s, .ok l)
    | (s, .error (.xlate va)) => (s, .error (.xlate (writesTo acc) va))
    | (s, .error (.check code key)) => (s, .error (.check code key))
    | (s, .error (.busy r)) => (s, .error (.busy r))
    | (s, .error .fenced) => (s, .error .fenced)
    | (s, .error (.prog _ _)) => (s, .error .overflow)

/-- An entry at depth k is written where it spills. -/
def State.spill (s : State) (t : Team) (g : Group) (split k : Nat) (e : Entry) : State × Option SpillFault :=
  if k < 16 then (s, none)
  else match s.spillSpots t g split k .write with
    | (s, .error f) => (s, some f)
    | (s, .ok l) => (s.writeSpots t.ctx l e.bytes, none)

/-- The entry at depth k of a split's stack, read where it spilled, and whether its bytes hold a reserved value. -/
def State.entryAt (s : State) (t : Team) (g : Group) (split k : Nat) (e : Entry) : State × Except SpillFault (Entry × Bool) :=
  if k < 16 then (s, .ok (e, false))
  else match s.spillSpots t g split k .read with
    | (s, .error f) => (s, .error f)
    | (s, .ok l) =>
      let s := s.beforeRead t.ctx g.core true l
      (s, .ok (Entry.ofBytes (s.readSpots l)))

/-- The top entry of a split. -/
def State.topEntry (s : State) (t : Team) (g : Group) (split : Nat) (stack : List Entry) :
    State × Except SpillFault (Option (Entry × Bool)) :=
  match stack with
  | [] => (s, .ok none)
  | e :: below => match s.entryAt t g split below.length e with
    | (s, .error f) => (s, .error f)
    | (s, .ok x) => (s, .ok (some x))

/-- A split stops where it stands at a spilled entry: an overflow is its fault, and the others wait or halt the core. -/
def State.spillStop (s : State) (w : Who) (t : Team) (g : Group) (sp : Split) (f : SpillFault) : State :=
  match f with
  | .overflow => s.takeFault w.team w.group (splitFault sp w.split codeSTACKOVF 0)
  | .fenced => s.takeFault w.team w.group (splitFault sp w.split codeTILEFENCED 0)
  | .xlate write va =>
    let info := { splitFault sp w.split codeXLATE 0 with addr := va, aux := if write then 1 else 0 }
    (s.postXlate t.ctx (groupRecord t g info w.split 0)).block w (.xlate t.ctx (va / 65536))
  | .check code key => s.machineCheck g.core t.ctx code key
  | .busy r => s.block w (.resource r)

/-! ### Merging (R312, R313) -/

/-- The splits of a group that hold the entry of a parallel record. -/
def Group.siblings (g : Group) (prid : Nat) : List (Nat × Split) :=
  g.liveSplits.filter fun x => x.2.stack.any fun e => e.kind == 1 && e.prid == prid

/-- A split waits at a JOIN with the record's entry on top. -/
def standsAtJoin (prid : Nat) (x : Split) : Bool :=
  x.wait == .join && match x.stack with
    | e :: _ => e.kind == 1 && e.prid == prid && e.jpc == x.pc
    | [] => false

/-- A parallel record all of whose live siblings stand at its JOIN. -/
def Group.mergeable (g : Group) : Option Nat :=
  (List.range 4).find? fun r => !(g.siblings r).isEmpty && (g.siblings r).all fun x => standsAtJoin r x.2

/-- The split that goes on from a record, and what its stack becomes: the sibling that diverged, or the lowest-numbered
live one with the entries that stood below the record in the ended sibling's stack (R312). -/
def Group.merged (g : Group) (prid : Nat) : Nat × Option (List Entry) :=
  let sibs := g.siblings prid
  let rec_ := nth g.records prid { owner := 0, below := none }
  if rec_.below.isNone && sibs.any (fun x => x.1 == rec_.owner) then (rec_.owner, none) else ((sibs.map Prod.fst).headD 0, rec_.below)

/-- The record merges: outstanding results return, one sibling goes on and the others end (R21, R312). -/
def Group.merge (g : Group) (prid : Nat) : Group :=
  let g := g.drain
  let sibs := g.siblings prid
  let m := g.merged prid
  let mask := sibs.foldl (fun m x => m ||| x.2.mask) 0
  match g.split? m.1 with
  | none => g
  | some sp =>
    match sp.stack with
    | [] => g
    | e :: own =>
      { g with splits := tab 4 fun n =>
        if n = m.1 then some { sp with
          mask := mask, stack := m.2.getD own, fmt := e.fmt, mode := e.mode, jr := e.jpc, wait := .ready,
          windows := sibs.flatMap fun (x : Nat × Split) => x.2.windows }
        else if sibs.any fun x => x.1 == n then none else g.split? n }

/-- The entries at depth 16 and beyond of a stack that a split takes over from an ended one, `owner`, are read as their bytes stand and
written where the split's own spill; the stack as it then is, or what stops the move (R314; log 53). `below`: the entries, the bottom
first. -/
def State.moveSpilled (s : State) (t : Team) (g : Group) (split owner : Nat) : Nat → List Entry → State × Except SpillFault (List Entry)
  | _, [] => (s, .ok [])
  | k, e :: below =>
    match s.entryAt t g owner k e with
    | (s, .error f) => (s, .error f)
    | (s, .ok (_, true)) => (s, .error .overflow)
    | (s, .ok (e, false)) => match s.spill t g split k e with
      | (s, some f) => (s, .error f)
      | (s, none) => match s.moveSpilled t g split owner (k + 1) below with
        | (s, .error f) => (s, .error f)
        | (s, .ok rest) => (s, .ok (rest ++ [e]))

/-- A split ends; the entries below each record at which it diverged stay with the record. -/
def Group.endSplit (g : Group) (n : Nat) : Group :=
  match g.split? n with
  | none => g
  | some sp =>
    let belowOf := fun (r : Nat) => (sp.stack.dropWhile fun e => !(e.kind == 1 && e.prid == r)).drop 1
    let g := { g with records := tab 4 fun r =>
      let x := nth g.records r { owner := 0, below := none }
      if x.owner == n && x.below.isNone && sp.stack.any (fun e => e.kind == 1 && e.prid == r) then { x with below := some (belowOf r) }
      else x }
    g.setSplit n none

/-- One JOIN of a split evaluated until it waits, passes, switches, or its thread mask and stack are gone (R312);
`fuel` bounds the entries met. A parallel entry is kept as it reads; a reserved value is met at a switch or a pop, or as the record
merges, and no JOIN with another PC meets it (R314). -/
def evalJoin : Nat → State → Who → State
  | 0, s, _ => s
  | fuel + 1, s, w =>
    match s.team? w.team with
    | none => s
    | some t =>
      match t.group? w.group with
      | none => s
      | some g =>
        match g.split? w.split with
        | none => s
        | some sp =>
          match s.topEntry t g w.split sp.stack with
          | (s, .error f) => s.spillStop w t g sp f
          | (s, .ok none) =>
            if sp.mask = 0 then s.modGroup w.team w.group fun g => g.endSplit w.split
            else s.advance w
          | (s, .ok (some (e, reserved))) =>
            if sp.mask != 0 && e.jpc != sp.pc then s.advance w
            else if reserved && e.kind != 1 then s.spillStop w t g sp .overflow
            else if e.kind = 1 then
              if sp.mask = 0 then s.modGroup w.team w.group fun g => g.endSplit w.split
              else s.modSplit w fun x => { x with wait := .join, stack := e :: x.stack.drop 1 }
            else
              let pend := e.pmask &&& ~~~ g.exited
              let depth := sp.stack.length - 1
              if pend != 0 then
                let e' := { e with pmask := 0 }
                match s.spill t g w.split depth e' with
                | (s, some f) => s.spillStop w t g sp f
                | (s, none) => s.modSplit w fun x => { x with
                    mask := pend, pc := e.ppc, fmt := e.fmt, mode := e.mode, jr := e.jpc, wait := .ready
                    stack := e' :: x.stack.drop 1 }
              else
                let s := s.modSplit w fun x => { x with
                  mask := e.mask &&& ~~~ g.exited, pc := e.jpc, fmt := e.fmt, mode := e.mode, jr := e.jpc, wait := .ready
                  stack := x.stack.drop 1 }
                evalJoin fuel s w

/-- The top entries of the siblings of a record as they read when it merges: a split whose entry cannot be read or holds a reserved value
stops, and one whose entry is another record's by now meets its JOIN again (R314). -/
def State.readTops (s : State) (t : Team) (group prid : Nat) : List (Nat × Split) → State × Bool
  | [] => (s, true)
  | (n, sp) :: rest =>
    let w : Who := { team := t.id, group := group, split := n }
    match s.group? t.id group with
    | none => (s, false)
    | some g => match s.topEntry t g n sp.stack with
      | (s, .error f) => (s.spillStop w t g sp f, false)
      | (s, .ok none) => (s, false)
      | (s, .ok (some (e, reserved))) =>
        if reserved then (s.spillStop w t g sp .overflow, false)
        else
          let s := s.modSplit w fun x => { x with stack := e :: x.stack.drop 1 }
          if e.kind == 1 && e.prid == prid && e.jpc == sp.pc then s.readTops t group prid rest
          else (s.modSplit w fun x => { x with wait := .ready }, false)

/-- Every record of a group that can merge does, the lowest number first, once no windowed result of the matrix engine is
outstanding, and the merged split meets the same JOIN again (R21, R312, R313). A merge that must wait for a spilled entry waits at its
JOIN. -/
def mergeAll : Nat → State → Nat → Nat → State
  | 0, s, _, _ => s
  | fuel + 1, s, team, group =>
    match s.team? team, s.group? team group with
    | some t, some g =>
      match if s.windowedBusy team group then none else g.mergeable with
      | none => s
      | some r =>
        match s.readTops t group r (g.siblings r) with
        | (s, false) => s
        | (s, true) => match s.group? team group with
          | none => s
          | some g =>
            let m := g.merged r
            let w : Who := { team := team, group := group, split := m.1 }
            match m.2 with
            | none => mergeAll fuel (evalJoin 100 (s.modGroup team group fun g => g.merge r) w) team group
            | some below =>
              match s.moveSpilled t g m.1 (nth g.records r { owner := 0, below := none }).owner 0 below.reverse, g.split? m.1 with
              | (s, .error f), some sp => s.spillStop w t g sp f
              | (s, .error _), none => s
              | (s, .ok stack), _ =>
                let took := fun (g : Group) => (g.merge r).modSplit m.1 fun x => { x with stack := stack }
                mergeAll fuel (evalJoin 100 (s.modGroup team group took) w) team group
    | _, _ => s

/-- A split that stands at a JOIN, or whose mask has emptied, and the merges that follow from it; the bounds exceed the 80
entries of a stack and of four stacks. -/
def State.joins (s : State) (w : Who) : State := mergeAll 400 (evalJoin 100 s w) w.team w.group

/-! ### Divergence (R310, R311) -/

/-- Record numbers that no outstanding record of the group holds. -/
def Group.freeRecord (g : Group) : Option Nat := (List.range 4).find? fun r => (g.siblings r).isEmpty
def Group.freeSplit (g : Group) : Option Nat := (List.range 4).find? fun n => (g.split? n).isNone

/-- The control instruction in hand sends each active thread to its destination and does `link` to its group; where the
push of its entry fails it does neither (R311). -/
def State.transfer (s : State) (c : Ctx) (link : Group → Group) (dest : Nat → Nat) : State :=
  let lanes := lanesOf c.sp.mask
  let first := (lanes.map dest).headD (c.sp.pc + 12)
  let ds := dedup (lanes.map dest)
  if ds.length ≤ 1 then (s.modGroup c.who.team c.who.group link).goto c.who first
  else
    let partX := maskOf fun l => c.sp.mask.getLsbD l && dest l == first
    let rest := c.sp.mask &&& ~~~ partX
    let restPc := if ds.length = 2 then ds.getD 1 0 else c.sp.pc
    let depth := c.sp.stack.length
    let base : Entry :=
      { mode := c.sp.mode, fmt := c.sp.fmt, pmask := 0, mask := c.sp.mask, ppc := 0, kind := 1, prid := 0, jpc := c.sp.jr }
    let fail := fun (s : State) (x : SpillFault) => match x with
      | .overflow => s.raise c (c.fault codeSTACKOVF c.sp.mask)
      | .fenced => s.raise c (c.fault codeTILEFENCED c.sp.mask)
      | .xlate _ va => (s.raiseXlate c c.sp.mask 1 va).modSplit c.who fun y => { y with windows := c.sp.windows }
      | .check code key => s.machineCheck c.g.core c.t.ctx code key
      | .busy r => (s.block c.who (.resource r)).modSplit c.who fun y => { y with windows := c.sp.windows }
    match c.g.freeSplit, c.g.freeRecord with
    | some n, some r =>
      let e := { base with prid := r }
      match s.spill c.t c.g c.who.split depth e with
      | (s, some x) => fail s x
      | (s, none) =>
        s.modGroup c.who.team c.who.group fun g =>
          let g := (link g).modSplit c.who.split fun x => { x with mask := rest, pc := restPc, stack := e :: x.stack, wait := .ready }
          let g := g.setSplit n (some { c.sp with
            mask := partX, pc := first, stack := [e], wait := .ready, fairness := 0, windows := c.windows, burst := 0 })
          { g with records := put g.records r { owner := c.who.split, below := none } }
    | _, _ =>
      let e := { base with kind := 0, pmask := rest, ppc := restPc }
      match s.spill c.t c.g c.who.split depth e with
      | (s, some x) => fail s x
      | (s, none) => (s.modGroup c.who.team c.who.group link).modSplit c.who fun x =>
          { x with mask := partX, pc := first, stack := e :: x.stack, wait := .ready }

/-! ### Branches (R325, R326) -/

/-- The 32-bit immediate of a branch (R17), and its target (R13). -/
def imm32 (f : Fields) : Nat := immVal f.a + immVal f.b * 2 ^ 16
def branchTarget (pc : Nat) (f : Fields) : Int := (pc : Int) + 12 + 12 * toSigned 32 (imm32 f)

/-- A link of CALL and CALLX: PC + 12, in guard-true threads. -/
def Ctx.link (c : Ctx) (g : Group) : Group :=
  let x := BitVec.ofNat 64 (c.sp.pc + 12)
  g.putLanes c.f.d 2 c.act (fun _ => .uniform) (Vector.replicate 32 { w := [lowWord x, highWord x] })

/-- An address in a fault's record and its lanes. -/
def FaultInfo.atAddr (info : FaultInfo) (f : Nat → Nat) : FaultInfo :=
  { info with
    addr := match lowest info.mask with
      | some l => f l
      | none => 0
    laneAddr := tab 32 fun l => if info.mask.getLsbD l then BitVec.ofNat 64 (f l) else 0 }

/-- BRA and CALL. -/
def branch (i : Instr) (f : Fields) (call : Bool) (s : State) : Res :=
  begin_ i f s fun c s =>
    let g := if call then c.link c.g else c.g
    if c.act = 0 then .next (s.advance c.who)
    else gate c s g.generals fun s =>
      let t := branchTarget c.sp.pc f
      if t < 0 ∨ 2 ^ 48 ≤ t then
        .next (s.raise c ((c.fault codeADDRBAD c.act).atAddr fun _ => wrap 64 t))
      else
        let link := if call then c.link else id
        if f.scope = .group then .next ((s.modGroup c.who.team c.who.group link).goto c.who t.toNat)
        else .next (s.transfer c link fun l => if c.act.getLsbD l then t.toNat else c.sp.pc + 12)

/-- BRX, CALLX and RET. -/
def branchTo (i : Instr) (f : Fields) (call : Bool) (s : State) : Res :=
  begin_ i f s fun c s =>
    let g := if call then c.link c.g else c.g
    if c.act = 0 then .next (s.advance c.who)
    else gate c s g.generals fun s =>
      let t := fun (l : Nat) => ((c.g.word .unsigned f.a 1).at l ++ (c.g.word .unsigned f.a 0).at l : W64).toNat
      let bad := maskOf fun l => c.act.getLsbD l && (decide (2 ^ 48 ≤ t l) || t l % 4 != 0)
      if bad != 0 then .next (s.raise c ((c.fault codeADDRBAD bad).atAddr t))
      else .next (s.transfer c (if call then c.link else id) fun l => if c.act.getLsbD l then t l else c.sp.pc + 12)

/-- BRA (R325). -/
def execBra (f : Fields) (s : State) : Res := branch (.bra f) f false s
/-- CALL (R325). -/
def execCall (f : Fields) (s : State) : Res := branch (.call f) f true s
/-- BRX (R326). -/
def execBrx (f : Fields) (s : State) : Res := branchTo (.brx f) f false s
/-- CALLX (R326). -/
def execCallx (f : Fields) (s : State) : Res := branchTo (.callx f) f true s
/-- RET (R326). -/
def execRet (f : Fields) (s : State) : Res := branchTo (.ret f) f false s

/-! ### JOIN (R312, R327) -/

/-- JOIN, the merge point: it writes nothing and no guard stays out of it. -/
def execJoin (f : Fields) (s : State) : Res :=
  attempt (.join f) f s fun c s =>
    let r := (s.issued c).joins c.who
    let stalled := ((r.group? c.who.team c.who.group).bind fun g => g.split? c.who.split).any fun x => match x.wait with
      | .xlate _ _ => true
      | .resource _ => true
      | _ => false
    .next (if stalled then s.joins c.who else r)

/-- JOIN.AT: JR takes the target. -/
def execJoinAt (f : Fields) (s : State) : Res :=
  begin_ (.joinAt f) f s fun c s => gate c s 0 fun s =>
    let t := branchTarget c.sp.pc f
    if t < 0 ∨ 2 ^ 48 ≤ t then .next (s.raise c ((c.fault codeADDRBAD c.act).atAddr fun _ => wrap 64 t))
    else .next ((s.modSplit c.who fun x => { x with jr := t.toNat }).advance c.who)

/-- JOIN.CLR: JR is none. -/
def execJoinClr (f : Fields) (s : State) : Res :=
  begin_ (.joinClr f) f s fun c s => gate c s 0 fun s =>
    .next ((s.modSplit c.who fun x => { x with jr := noJoin }).advance c.who)

/-! ### EXIT, NOP, YIELD (R328, R329) -/

/-- A group whose last thread has exited ends; an engine fault that no WAITB has raised gives its exit status and each of
the others its record (R70, R328). -/
def State.exitGroup (s : State) (team group : Nat) : State :=
  match s.team? team with
  | none => s
  | some t =>
    match t.group? group with
    | none => s
    | some g =>
      match g.engineFaults with
      | [] => s.endGroup team group none
      | e :: _ =>
        let w := exitWord e.code 0xFF group
        (s.postEngineFaults t g w).endGroup team group (some w)

/-- EXIT: the contributors leave their split and every record (R313, R328); the last threads of a group wait
for the accesses of the matrix engine for it, as the group's leaving of its barriers releases them (R321; log 19). -/
def execExit (f : Fields) (s : State) : Res :=
  attempt (.exit f) f s fun c s => gateLate c s 0 fun s =>
    if c.g.exited ||| c.act = allLanes && s.matrixOwes c.who.team c.who.group then .next (s.block c.who (.resource .acks)) else
    let s := ((s.issued c).modGroup c.who.team c.who.group fun g =>
      let off := fun (x : Split) => { x with mask := x.mask &&& ~~~ c.act }
      { g with
        exited := g.exited ||| c.act
        splits := g.splits.map fun x => x.map off
        handler := g.handler.map fun h => { h with frozen := h.frozen.map fun x => x.map off } }).advance c.who
    let s := { s with
      reservations := s.reservations.filter fun r =>
        !(r.team == c.who.team && r.group == c.who.group && c.act.getLsbD r.lane)
      monitors := s.monitors.filter fun m =>
        !(m.team == c.who.team && m.group == c.who.group && c.act.getLsbD m.lane) }
    if c.g.exited ||| c.act = allLanes then .next (s.exitGroup c.who.team c.who.group)
    else if c.sp.mask &&& ~~~ c.act = 0 then .next (s.joins c.who)
    else .next s

/-- NOP. -/
def execNop (f : Fields) (s : State) : Res :=
  begin_ (.nop f) f s fun c s => gate c s 0 fun s => .next (s.advance c.who)

/-- YIELD: the fairness count becomes 64, but at GROUP scope it has no effect (R329). -/
def execYield (f : Fields) (s : State) : Res :=
  begin_ (.yield f) f s fun c s => gate c s 0 fun s =>
    let s := if f.scope = .group then s else s.modSplit c.who fun x => { x with fairness := 64 }
    .next (s.advance c.who)

/-! ### Special registers and clocks (R322, R330, R331) -/

/-- The node of a team of a program node, or 0xFFFFFFFF. -/
def Team.nodeIndex (t : Team) : Nat :=
  match t.origin with
  | .node _ n => n
  | _ => 0xFFFFFFFF

/-- Special register n of a split (R322). -/
def specialReg (c : Ctx) (n lane : Nat) : Nat :=
  let none_ := 0xFFFFFFFF
  match n with
  | 1 => lane
  | 2 => 32 * c.g.index + lane
  | 3 => c.g.index
  | 4 => if c.t.launch.twin then 2 * c.t.launch.groups else c.t.launch.groups
  | 5 => c.who.split
  | 6 => c.g.role
  | 7 => c.g.roleGrp
  | 8 => match c.g.gang with
    | some x => x.1
    | none => none_
  | 9 => match c.g.gang with
    | some x => x.2.1
    | none => none_
  | 10 => c.t.x
  | 11 => c.t.y
  | 12 => c.t.z
  | 13 => c.t.gx
  | 14 => c.t.gy
  | 15 => c.t.gz
  | 16 => c.t.x + c.t.gx * (c.t.y + c.t.gy * c.t.z)
  | 17 => if c.t.launch.twin && c.t.launch.groups ≤ c.g.index then 1 else 0
  | 18 => c.g.core
  | 19 => c.g.quarter
  | 20 => c.t.ctx
  | 21 => c.t.nodeIndex
  | 22 => c.t.launch.localB
  | _ => 0

/-- MOVSR (R330): SR_LANE and SR_TID are affine, the others uniform (R125). -/
def execMovsr (f : Fields) (s : State) : Res :=
  registers (.movsr f) f s fun c =>
    let n := match f.a with
      | .special n => n.val
      | _ => 0
    let form : Form := if n = 1 then .affine 0 1 else if n = 2 then .affine (BitVec.ofNat 32 (32 * c.g.index)) 1 else .uniform
    c.write 1 form false 0 fun l => { w := [BitVec.ofNat 32 (specialReg c n l)] }

/-- A 64-bit value into an S register or a uniform pair. -/
def write64 (i : Instr) (f : Fields) (s : State) (x : Nat) : Res :=
  registers i f s fun c =>
    c.write 2 .uniform false 0 fun _ => { w := [BitVec.ofNat 32 x, BitVec.ofNat 32 (x / 2 ^ 32)] }

/-- TIME: device time in ns (R331). -/
def execTime (f : Fields) (s : State) : Res := write64 (.time f) f s (s.time % 2 ^ 64)

/-- CLOCK: cycles of the executing core since its last reset (R331). -/
def execClock (f : Fields) (s : State) : Res :=
  write64 (.clock f) f s (match s.group? s.focus.team s.focus.group with
    | some g => s.clock g.core % 2 ^ 64
    | none => 0)

/-- A word of an unassigned opcode raises ILLOPC for the split's whole mask (R26, R27). -/
def execUnassignedOpcode (w : InsWord) (s : State) : Res :=
  match s.ctx (.unassignedOpcode w) default with
  | none => .fault .noSplit
  | some c => .next (s.raise c { splitFault c.sp c.who.split codeILLOPC (bits w.toNat 9 8) with
      addr := 0 })

end Sys2Proof.Machine
end

