-- ==== Sys2Proof/Machine/Mem.lean ====
section
/-! DEFINITION. Loads, stores, atomics, reductions, reservations, cache control, fences and monitors
(spec/04_memory_instructions.md R87 to R113). An access is performed when its instruction issues; its data reaches
registers, and its acknowledgement comes, in later steps (R59, R65, R97). -/

namespace Sys2Proof.Machine

/-! ### Where an access goes -/

/-- The address spaces of the memory class. -/
inductive Space where
  | glob | shared | local_ | const
  /-- the address of CCTL -/
  | control
  deriving DecidableEq, Repr

/-- A group of the second core of a twin team (R322). -/
def onSecond (t : Team) (g : Group) : Bool := t.launch.twin && t.launch.groups ≤ g.index

/-- The SRAM key of a shared offset: the group's own core, or the partner's at o + 0x100000 (R63). -/
def sharedKey (t : Team) (second : Bool) (o : Nat) : Option Nat :=
  let own := o < 2 ^ 20
  let steps := if second == own then t.steps2 else t.steps
  let core := if second == own then t.core + 1 else t.core
  let x := o % 2 ^ 20
  if (own || t.launch.twin) && x < t.launch.shared * 65536 && o < 2 ^ 21 then
    steps[x / 65536]?.map fun st => sramKey core (st * 65536 + x % 65536)
  else none

/-- The address that CCTL names, which it does not read: a gather window has no byte of memory there, and no Mire entry (R47, R109). -/
def State.controlSpots (s : State) (core ctx : Nat) (a : W64) : State × Except MemFault (List Spot) :=
  match s.address a with
  | .here va =>
    if 2 ^ 48 ≤ va then (s, .error (.prog codeADDRBAD 0))
    else match s.findLeaf core ctx va .read with
      | (s, .error f) => (s, .error f)
      | (s, .ok (e, shift)) => (s, if leafGather e then .ok [] else (s.leafSpot e shift (va % 2 ^ shift)).map fun p => [p])
  | _ => (s, .error (.prog codeADDRBAD 0))

/-- The places of n bytes of a lane's access, or its fault (R91). -/
def laneSpots (c : Ctx) (sp : Space) (n : Nat) (acc : Access) (s : State) (l : Nat) : State × Except MemFault (List Spot) :=
  match sp with
  | .glob => s.reach c.g.core c.t.ctx (c.globalAddr l) n acc
  | .shared =>
    let o := c.localOff l
    match (List.range n).mapM fun i => sharedKey c.t (onSecond c.t c.g) (o + i) with
    | some ks => (s, .ok (ks.map fun k => { key := k, home := 1, window := none }))
    | none => (s, .error (.prog codeADDRBAD 0))
  | .local_ =>
    let o := c.localOff l
    if c.t.launch.localB < o + n || o % 4 != 0 then (s, .error (.prog codeADDRBAD 0))
    else (List.range (n / 4)).foldl (fun (r : State × Except MemFault (List Spot)) i =>
      let x := r.1.reach c.g.core c.t.ctx (BitVec.ofNat 64 (localVA c.t c.g (o + 4 * i) l)) 4 acc
      (x.1, joinParts r.2 x.2)) (s, .ok [])
  | .const =>
    let o := c.localOff l
    if c.t.launch.psize < o + n || o % n != 0 then (s, .error (.prog codeADDRBAD 0))
    else s.reach c.g.core c.t.ctx (BitVec.ofNat 64 (c.t.launch.param + o)) n acc
  | .control => s.controlSpots c.g.core c.t.ctx (c.globalAddr l)

/-- The address that a lane's fault record carries: an address, or a shared, local or constant offset. -/
def laneAddr (c : Ctx) (sp : Space) (l : Nat) : Nat :=
  match sp with
  | .glob => (c.globalAddr l).toNat
  | .control => (c.globalAddr l).toNat
  | _ => c.localOff l

/-- Every lane's places, or what the instruction does instead. -/
inductive Resolved where
  | ok (l : List (Nat × List Spot))
  | fault (info : FaultInfo)
  | check (code key : Nat)
  | busy (r : Resource)
  | xlate (mask : Mask) (vas : List Nat)

/-- What the lanes of an access come to: the program fault of the lowest lane, with the lanes of its code; then a machine check of a
walk, a wait, the translations that are missing; then TILEFENCED, a machine check of the access itself; or every lane's places (R91).
`addr`: the address that a lane's record carries. -/
def sortLanes (c : Ctx) (addr : Nat → Nat) (l : List (Nat × Except MemFault (List Spot))) : Resolved :=
  let progs := l.filterMap fun x => match x.2 with
    | .error (.prog code aux) => some (x.1, code, aux)
    | _ => none
  let checks := l.filterMap fun x => match x.2 with
    | .error (.check code key) => some (code, key)
    | _ => none
  let waits := l.filterMap fun x => match x.2 with
    | .error (.busy r) => some r
    | _ => none
  let xs := l.filterMap fun x => match x.2 with
    | .error (.xlate va) => some (x.1, va)
    | _ => none
  let gone := maskOf fun i => l.any fun x => x.1 == i && match x.2 with
    | .error .fenced => true
    | _ => false
  match progs, checks, waits, xs with
  | (_, code, aux) :: _, _, _, _ =>
    let mask := maskOf fun l => progs.any fun p => p.1 == l && p.2.1 == code
    .fault { ((c.fault code mask).atAddr addr) with aux := aux }
  | [], (code, key) :: _, _, _ => .check code key
  | [], [], w :: _, _ => .busy w
  | [], [], [], _ :: _ => .xlate (maskOf fun l => xs.any fun x => x.1 == l) (xs.map Prod.snd)
  | [], [], [], [] =>
    if gone != 0 then .fault ((c.fault codeTILEFENCED gone).atAddr addr)
    else .ok (l.filterMap fun x => match x.2 with
      | .ok l => some (x.1, l)
      | _ => none)

/-- Addresses checked and translated for every lane before any access (R91). `align`: MISALIGN is checked, and of one lane before its
address is (log 77). -/
def resolve (c : Ctx) (sp : Space) (n : Nat) (acc : Access) (align : Bool) (lanes : List Nat) (s : State) : State × Resolved :=
  let step := fun (r : State × List (Nat × Except MemFault (List Spot))) (l : Nat) =>
    let x := if align && laneAddr c sp l % n != 0 then (r.1, .error (.prog codeMISALIGN 0)) else laneSpots c sp n acc r.1 l
    (x.1, r.2 ++ [(l, x.2)])
  let r := lanes.foldl step (s, [])
  (r.1, sortLanes c (laneAddr c sp) r.2)

/-- The instruction in hand waits for its translations: one record for each page that has none (R45). -/
def State.waitXlate (s : State) (c : Ctx) (mask : Mask) (vas : List Nat) (aux : Nat) : State :=
  vas.foldl (fun s va => s.raiseXlate c mask aux va) s

/-- A reduction that enters Mire: ADD.F32 and the integer ADD, MIN and MAX on a HOME 00 or 10 line (R42, R53, R103). -/
def State.takesMire (s : State) (sub dt : Nat) (spots : List Spot) : Bool :=
  match spots with
  | [] => false
  | p :: _ =>
    p.window.isNone && sub ≤ 2 && ((4 ≤ dt && dt ≤ 7) || (dt = 11 && sub = 0)) &&
      (p.home = 0 || (p.home = 2 && ((s.l2Line (lineOf p.key)).pinned || s.pinnedIn (lineOf p.key) < 8)))

/-- The granules that the merges of lines write. -/
def State.mergedBy (s : State) (lines : List Nat) : List Nat :=
  (s.mire.filter fun e => lines.contains e.line).flatMap MireEntry.granules

/-- The granules that the merges of a RED at places write, lane after lane: an entry that it evicts may be one that it has opened
itself (R53). -/
def State.redMerges (s : State) (c : Ctx) (sub dt : Nat) (spots : List Spot) : List Nat :=
  ((spots.filter fun p => p.key % memBytes dt == 0).foldl (fun (r : State × List Nat) p =>
    if r.1.takesMire sub dt [p] then
      let u := r.1.fill c.t.ctx c.g.core false [p]
      (u.mireAdd c.t.ctx p.key sub dt 0, r.2 ++ u.mergedBy (u.mireMerges p.key sub dt))
    else (r.1.mergeLine (lineOf p.key), r.2 ++ r.1.mergedBy [lineOf p.key])) (s, [])).2

/-- The granules that an access writes at once or by the merges of Mire entries that it causes. LDRES writes nothing, and an addition
into a Mire entry writes nothing until its entry merges (R53, R54, R106). -/
def State.touched (s : State) (c : Ctx) (write : Bool) (spots : List Spot) : List Nat :=
  let keys := spots.map (·.key)
  match c.i with
  | .ldres _ => s.mergedBy (linesOf keys)
  | .red f =>
    sectorsOf ((spots.filter fun p => !s.takesMire (subN f) (dtN f) [p]).map (·.key)) ++ s.redMerges c (subN f) (dtN f) spots
  | _ => sectorsOf (if write then keys else []) ++ s.mergedBy (linesOf keys)

/-- STCOND, which its own hold lets through to its granule (R106). -/
def isStcond (i : Instr) : Bool := match i with
  | .stcond _ => true
  | _ => false

/-- A reservation of one of the threads of the instruction in hand. -/
def Ctx.mine (c : Ctx) (r : Reservation) : Bool := r.team == c.who.team && r.group == c.who.group && c.act.getLsbD r.lane

/-- What an access to keys waits for: the matrix engine's accesses before a release, an engine's write (R52), matrix operands (R217), another
thread's hold or writes that wait for one (R106). -/
def State.accessStall (s : State) (c : Ctx) (write : Bool) (spots : List Spot) : Option Resource :=
  let keys := spots.map (·.key)
  if bit (xmN c.f) 1 && s.matrixOwes c.who.team c.who.group then some .acks
  else match s.ownedLine keys with
  | some line => some (.line (line * 128))
  | none =>
    match keys.find? fun k => s.matrixHolds c.who.team c.who.group write k with
    | some k => some (.line k)
    | none => (s.heldOf c.mine (isStcond c.i) (s.touched c write spots)).map .hold

/-- What a shared access waits for before it issues: a completion counter, or room in the overflow buffer of the core's bank
queues (R64, R65). -/
def State.sharedStall (s : State) (c : Ctx) : Option Resource :=
  if c.g.counters.toList.all Option.isSome then some .counter
  else if 64 ≤ s.overflow c.g.core then some (.banks c.g.core)
  else none

/-! ### Accesses in two pieces (R92) -/

/-- Bytes of the lower piece of an access of n bytes at an address: it is cut at the one multiple of n inside it. -/
def lowerBytes (n a : Nat) : Nat := n - a % n

/-- Which pieces of this step's misaligned accesses go first is free: the lower ones, or the upper (log 3). -/
def State.lowerFirst (s : State) : Bool := Config.choose s.tick 2 % 2 == 0

/-- The misaligned lanes of an access with their addresses. -/
def cutLanes (c : Ctx) (sp : Space) (n : Nat) (lanes : List Nat) : List (Nat × Nat) :=
  (lanes.map fun l => (l, laneAddr c sp l)).filter fun x => x.2 % n != 0

/-- A half read is the one of the split of the instruction in hand. -/
def HalfRead.ofSplit (h : HalfRead) (w : Who) : Bool := h.team == w.team && h.group == w.group && h.split == w.split

/-- What the instruction in hand has read of its misaligned lanes before: the same lanes at the same addresses. -/
def State.halfOf (s : State) (c : Ctx) (sp : Space) (n : Nat) (lanes : List Nat) : Option HalfRead :=
  s.halves.find? fun h => h.ofSplit c.who && h.pc == c.sp.pc && h.reads.map (fun r => (r.1, r.2.1)) == cutLanes c sp n lanes

/-- The piece of a lane's places that is read first. -/
def firstPiece (n : Nat) (lower : Bool) (a : Nat) (spots : List Spot) : List Spot :=
  if lower then spots.take (lowerBytes n a) else spots.drop (lowerBytes n a)

/-- The bytes of a lane: its first piece as it was read before, the rest as it is now. -/
def State.readPieces (s : State) (h : Option HalfRead) (lane : Nat) (spots : List Spot) : List Byte :=
  match h.bind fun h => (h.reads.find? fun r => r.1 == lane).map fun r => (h.lower, r.2.2) with
  | some (true, bs) => bs ++ s.readSpots (spots.drop bs.length)
  | some (false, bs) => s.readSpots (spots.take (spots.length - bs.length)) ++ bs
  | none => s.readSpots spots

/-- The half reads of a split go. -/
def State.dropHalf (s : State) (w : Who) : State := { s with halves := s.halves.filter fun h => !h.ofSplit w }

/-- A load with misaligned lanes reads one piece of each and stays before its word; none where it has done so or has no such lane. -/
def State.readHalf (s : State) (c : Ctx) (sp : Space) (n : Nat) (l1 : Bool) (lanes : List Nat) (l : List (Nat × List Spot)) : Option State :=
  let cut := cutLanes c sp n lanes
  if cut.isEmpty || (s.halfOf c sp n lanes).isSome then none
  else
    let first := cut.map fun x => (x, firstPiece n s.lowerFirst x.2 ((l.filter fun y => y.1 == x.1).flatMap Prod.snd))
    let u := (s.beforeRead c.t.ctx c.g.core l1 (first.flatMap Prod.snd)).dropHalf c.who
    let h : HalfRead :=
      { team := c.who.team, group := c.who.group, split := c.who.split, pc := c.sp.pc, lower := s.lowerFirst,
        reads := first.map fun x => (x.1.1, x.1.2, u.readSpots x.2) }
    some (({ u with halves := u.halves ++ [h] } : State).block c.who (.depend c.i))

/-- The way of every LANE memory instruction: its sources, the ceiling and lookahead checks, the second pieces of the group's earlier
stores, its addresses, its stalls, and then its access; `before`: what it does first, without having issued. -/
def access (i : Instr) (f : Fields) (s : State) (sp : Space) (n : Nat) (acc : Access) (align : Bool)
    (generals : Ctx → Nat) (perform : Ctx → State → List (Nat × List Spot) → Res)
    (before : Ctx → State → List (Nat × List Spot) → Option Res := fun _ _ _ => none) : Res :=
  attempt i f s fun c s => gateLate c s (generals c) fun s =>
    match (if sp = .shared then s.sharedStall c else none) <|> s.pieceStall c.who.team c.who.group with
    | some r => .next (s.block c.who (.resource r))
    | none => match resolve c sp n acc align (lanesOf c.act) (s.settlePieces c.who.team c.who.group) with
      | (s, .fault info) => .next (s.raise c info)
      | (s, .check code key) => .next (s.machineCheck c.g.core c.t.ctx code key)
      | (s, .busy r) => .next (s.block c.who (.resource r))
      | (s, .xlate mask vas) => .next (s.waitXlate c mask vas (if acc = .read then 0 else 1))
      | (s, .ok l) =>
        match s.accessStall c (acc != .read) (l.flatMap Prod.snd) with
        | some r => .next (s.block c.who (.resource r))
        | none => match before c s l with
          | some r => r
          | none => perform c (s.issued c) l

/-! ### Results -/

/-- The words that a value of a type fills (R88). -/
def loadWords (dt : Nat) (bs : List Byte) : List W32 :=
  let x := leNat bs
  if dt = 0 then [BitVec.ofInt 32 (toSigned 8 x)]
  else if dt = 2 then [BitVec.ofInt 32 (toSigned 16 x)]
  else (List.range (memRegs dt)).map fun j => BitVec.ofNat 32 (x / 2 ^ (32 * j))

/-- Distinct 4-byte words of keys: the requests of a shared access (R64). -/
def wordsIn (spots : List Spot) : List Nat := dedup (spots.map fun p => p.key / 4)

/-- The tag of each destination register is fixed at issue: general, with the old lanes (R126). -/
def Group.claim (g : Group) (d : Opnd) (n : Nat) (act : Mask) : Group :=
  match d with
  | .v i _ => if act = 0 then g else
      (List.range n).foldl (fun g j => { g with v := put g.v (i.val + j) (.general (g.vreg (i.val + j)).lanes) }) g
  | _ => g

/-- An access goes on its way: its result joins the group's outstanding ones, through a completion counter where it is
shared (R65). -/
def Group.send (g : Group) (shared : Bool) (reqs : List Nat) (o : Outstanding) : Group :=
  if shared then
    match (List.range 8).find? fun k => (nth g.counters k none).isNone with
    | some k => { g with counters := put g.counters k (some { requests := reqs, out := o }) }
    | none => g
  else { g with outstanding := g.outstanding ++ [o] }

/-- Columns of words by lane as a writeback of a V block. -/
def vBack (d : Opnd) (n : Nat) (act : Mask) (w : Nat → List W32) : WriteBack :=
  { v := match d with
      | .v i _ => (List.range n).map fun j => (i.val + j, act, tab 32 fun l => (w l).getD j 0)
      | _ => [],
    s := none, p := none, uniform := false }

/-- The tiles whose slices serve the places. -/
def State.servedBy (s : State) (spots : List Spot) : List Nat :=
  dedup ((spots.filter fun p => p.key < hbmEnd).map fun p => s.sliceOf p.key / 2)

/-- The result of an access in the destination block of the instruction in hand. -/
def State.sendBack (s : State) (c : Ctx) (sp : Space) (n : Nat) (spots : List Spot) (wb : WriteBack) : State :=
  s.modGroup c.who.team c.who.group fun g =>
    (g.claim c.f.d n c.act).send (sp == .shared) (wordsIn spots)
      { split := c.who.split, regs := destSpans (groupEnv c.t c.g) c.i c.f, wb := wb, tiles := s.servedBy spots }

/-- General registers once a block becomes general. -/
def claimed (c : Ctx) (n : Nat) : Nat := (c.g.claim c.f.d n c.act).generals

/-- A machine check that the access meets, charged to the group's core (R57, R58). -/
def checked (c : Ctx) (s : State) (x : Option (Nat × Nat)) (k : State → Res) : Res :=
  match x with
  | some (code, key) => .next (s.machineCheck c.g.core c.t.ctx code key)
  | none => k s

/-! ### Loads (R95, R96, R98) -/

/-- Constant bytes: the constant cache may still hold a word's old value (R98). -/
def State.constBytes (s : State) (c : Ctx) (l : List Spot) : List Byte :=
  l.map fun p =>
    let w := p.key / 4
    match (s.core c.g.core).ccache.find? fun e => e.1 == c.t.ctx && e.2.1 == w with
    | some e => if Config.useOld s.tick w then BitVec.ofNat 8 (e.2.2.toNat / 2 ^ (8 * (p.key % 4))) else Memory.get s.mem p.key
    | none => Memory.get s.mem p.key

/-- Constant words enter the core's constant cache. -/
def State.cacheConst (s : State) (c : Ctx) (l : List Spot) : State :=
  let x := s.core c.g.core
  let ws := dedup (l.map fun p => p.key / 4)
  let new := ws.map fun w => (c.t.ctx, w, BitVec.ofNat 32 (leNat (s.constBytes c ((List.range 4).map fun i =>
    { key := 4 * w + i, home := 0, window := none }))))
  s.setCore c.g.core { x with ccache := (new ++ x.ccache.filter fun e => !(e.1 == c.t.ctx && ws.contains e.2.1)).take 4096 }

/-- The first pieces of a load's misaligned lanes, with the machine check that they meet (R57, R92); constant words enter the constant cache
then, so that a later write leaves each old or new (R98). -/
def halfLoad (f : Fields) (sp : Space) (l1 : Bool) (lanes : Ctx → List Nat) (c : Ctx) (s : State) (l : List (Nat × List Spot)) :
    Option Res :=
  (s.readHalf c sp (memBytes (dtN f)) l1 (lanes c) l).map fun u => checked c s (s.readCheck (l.flatMap Prod.snd)) fun _ =>
    .next (if sp = .const then u.cacheConst c (l.flatMap Prod.snd) else u)

/-- A LANE load of any space. -/
def load (i : Instr) (f : Fields) (s : State) (sp : Space) : Res :=
  let dt := dtN f
  let l1 := sp != .shared && subN f != 2 && subN f != 3
  access i f s sp (memBytes dt) .read false (fun c => claimed c (memRegs dt)) (before := halfLoad f sp l1 fun c => lanesOf c.act) fun c s l =>
    let spots := l.flatMap Prod.snd
    checked c s (s.readCheck spots) fun s =>
      let half := s.halfOf c sp (memBytes dt) (lanesOf c.act)
      let s := (s.beforeRead c.t.ctx c.g.core l1 spots).dropHalf c.who
      let word := fun (lane : Nat) => match l.find? fun x => x.1 == lane with
        | some x => loadWords dt (if sp = .const then s.constBytes c x.2 else s.readPieces half lane x.2)
        | none => []
      let wb := vBack f.d (memRegs dt) c.act word
      let s := if sp = .const then s.cacheConst c spots else s.policy c.g.core (subN f) (cacheLines spots)
      .next ((s.sendBack c sp (memRegs dt) spots wb).advance c.who)

/-- LD. -/
def execLd (f : Fields) (s : State) : Res := load (.ld f) f s .glob
/-- LDS. -/
def execLds (f : Fields) (s : State) : Res := load (.lds f) f s .shared
/-- LDL. -/
def execLdl (f : Fields) (s : State) : Res := load (.ldl f) f s .local_

/-- A value read once for the group into S, or uniform into V (R88, R96). -/
def uniformBack (f : Fields) (bs : List Byte) : WriteBack :=
  let ws := loadWords (dtN f) bs
  match f.d with
  | .v i _ =>
    { v := (List.range ws.length).map fun j => (i.val + j, allLanes, Vector.replicate 32 (ws.getD j 0)), s := none, p := none,
      uniform := true }
  | .s i => { v := [], s := some (i.val, wordsTo64 (dtN f == 0 || dtN f == 2) ws), p := none, uniform := false }
  | _ => { v := [], s := none, p := none, uniform := false }

/-- A load made once, at the uniform address of a GROUP-scope form. -/
def loadOnce (i : Instr) (f : Fields) (s : State) (sp : Space) : Res :=
  let n := memBytes (dtN f)
  attempt i f s fun c s => gateLate c s 0 fun s =>
    match s.pieceStall c.who.team c.who.group with
    | some r => .next (s.block c.who (.resource r))
    | none => match resolve c sp n .read false [c.designated] (s.settlePieces c.who.team c.who.group) with
    | (s, .fault info) => .next (s.raise c info)
    | (s, .check code key) => .next (s.machineCheck c.g.core c.t.ctx code key)
    | (s, .busy r) => .next (s.block c.who (.resource r))
    | (s, .xlate mask vas) => .next (s.waitXlate c mask vas 0)
    | (s, .ok l) =>
      let spots := l.flatMap Prod.snd
      match s.accessStall c false spots with
      | some r => .next (s.block c.who (.resource r))
      | none => match halfLoad f sp (subN f != 2 && subN f != 3) (fun c => [c.designated]) c s l with
      | some r => r
      | none =>
        checked c (s.issued c) (s.readCheck spots) fun s =>
          let half := s.halfOf c sp n [c.designated]
          let s := (s.beforeRead c.t.ctx c.g.core (subN f != 2 && subN f != 3) spots).dropHalf c.who
          let bs := if sp = .const then s.constBytes c spots else s.readPieces half c.designated spots
          let s := if sp = .const then s.cacheConst c spots else s.policy c.g.core (subN f) (cacheLines spots)
          let wb := uniformBack f bs
          .next ((s.modGroup c.who.team c.who.group fun g =>
            let g := wb.v.foldl (fun (g : Group) x => { g with v := put g.v x.1 (.uniform ((g.vreg x.1).at 0)) }) g
            g.send false [] { split := c.who.split, regs := destSpans (groupEnv c.t c.g) i f, wb := wb, tiles := s.servedBy spots }).advance c.who)

/-- LDUN. -/
def execLdun (f : Fields) (s : State) : Res := loadOnce (.ldun f) f s .glob
/-- LDC. -/
def execLdc (f : Fields) (s : State) : Res :=
  if f.scope = .group then loadOnce (.ldc f) f s .const else load (.ldc f) f s .const

/-! ### Stores (R97) -/

/-- The words of C in a lane. -/
def storeWords (c : Ctx) (n l : Nat) : List W32 := (List.range n).map fun j => (c.g.word .unsigned c.f.c j).at l

/-- The first n bytes of words. -/
def bytesOf (n : Nat) (ws : List W32) : List Byte := (ws.flatMap fun w => leBytes 4 w.toNat).take n

/-- What the lanes of a store write, lane by lane: each place with its byte, and whether it belongs to a second piece. -/
def stored (c : Ctx) (sp : Space) (lower : Bool) (l : List (Nat × List Spot)) : List (Spot × Byte × Bool) :=
  let n := memBytes (dtN c.f)
  l.flatMap fun x =>
    let a := laneAddr c sp x.1
    let late := fun (k : Nat) => a % n != 0 && decide (k < lowerBytes n a) != lower
    x.2.zip ((bytesOf n (storeWords c (memRegs (dtN c.f)) x.1)).zip ((List.range n).map late))

/-- The bytes of a store: for each byte the highest lane wins; the second pieces of misaligned lanes are performed in a later step
(R92, R93). -/
def State.storeLanes (s : State) (c : Ctx) (sp : Space) (l : List (Nat × List Spot)) : State :=
  let all := lastWins (stored c sp s.lowerFirst l)
  let late := all.filter fun x => x.2.2
  let s := s.storeBytes c.t.ctx ((all.filter fun x => !x.2.2).map fun x => (x.1, x.2.1))
  if late.isEmpty then s
  else
    let p : Piece :=
      { team := c.who.team, group := c.who.group, ctx := c.t.ctx, writes := late.map fun x => (x.1.key, x.1.home, x.2.1) }
    { s with secondPieces := s.secondPieces ++ [p] }

/-- A LANE store of any space; it is acknowledged in a later step. -/
def store (i : Instr) (f : Fields) (s : State) (sp : Space) : Res :=
  let dt := dtN f
  access i f s sp (memBytes dt) .write false (fun _ => 0) fun c s l =>
    let spots := l.flatMap Prod.snd
    checked c s (s.writeCheck spots) fun s =>
      let s := (s.storeLanes c sp l).keepL1 s c.g.core (cacheLines (spots.filter fun p => p.home == 0 || p.home == 2))
      let s := if sp = .shared then s else s.policy c.g.core (subN f) (cacheLines spots)
      let s := s.modGroup c.who.team c.who.group fun g =>
        if sp = .shared then g.send true (wordsIn spots)
          { split := c.who.split, regs := [], wb := { v := [], s := none, p := none, uniform := false }, tiles := [] }
        else g.await (s.servedBy spots)
      .next (s.advance c.who)

/-- ST. -/
def execSt (f : Fields) (s : State) : Res := store (.st f) f s .glob
/-- STS. -/
def execSts (f : Fields) (s : State) : Res := store (.sts f) f s .shared
/-- STL. -/
def execStl (f : Fields) (s : State) : Res := store (.stl f) f s .local_

/-! ### Atomics and reductions (R100 to R103) -/

/-- ADD, MIN or MAX of two floating codes (R101). -/
def atomFlt (F : FloatFmt) (sub x y : Nat) : Nat :=
  if sub = 0 then (F.round .rne false 0 (sumOf .rne [F.decode x, F.decode y])).code
  else minMax F 0 (sub == 2) x y

/-- The new value of an atomic, or none for a failed CAS (R101). -/
def atomNew (sub dt old v w : Nat) : Option Nat :=
  match sub with
  | 3 => some (old &&& v)
  | 4 => some (old ||| v)
  | 5 => some (old ^^^ v)
  | 6 => some v
  | 7 => if old = v then some w else none
  | 8 => some (if v ≤ old then 0 else old + 1)
  | 9 => some (if old = 0 ∨ v < old then v else old - 1)
  | _ =>
    if dt = 11 then some (atomFlt fp32 sub old v)
    else if dt = 12 ∨ dt = 13 then
      let F := if dt = 12 then fp16 else bf16
      some (atomFlt F sub (old % 2 ^ 16) (v % 2 ^ 16) + atomFlt F sub (old / 2 ^ 16) (v / 2 ^ 16) * 2 ^ 16)
    else some (intRed sub dt old v)

/-- v and w of a lane (R101). -/
def atomArgs (c : Ctx) (l : Nat) : Nat × Nat :=
  let n := memRegs (dtN c.f)
  let x := leNat (bytesOf (4 * n) (storeWords c n l))
  let w := leNat (bytesOf (4 * n) ((List.range n).map fun j => (c.g.word .unsigned c.f.c (n + j)).at l))
  (x, w)

/-- A thread's own reservation ends where it names the granule of places (R105). -/
def State.unreserve (s : State) (c : Ctx) (lane : Nat) (spots : List Spot) : State :=
  { s with reservations := s.reservations.filter fun r =>
    !(r.team == c.who.team && r.group == c.who.group && r.lane == lane && (spots.map fun p => sectorOf p.key).contains r.granule) }

/-- One atomic update at places: the state after, and the old value. A failed CAS writes nothing and ends only the
thread's own reservation there; its line enters L2 all the same (R50). -/
def State.atomic (s : State) (c : Ctx) (lane : Nat) (spots : List Spot) : State × Nat :=
  let s := s.mergeLines (linesOf ((spots.filter fun p => p.home != 1).map (·.key)))
  let old := leNat (s.readSpots spots)
  let a := atomArgs c lane
  match atomNew (subN c.f) (dtN c.f) old a.1 a.2 with
  | some x => (s.writeSpots c.t.ctx spots (leBytes spots.length x), old)
  | none => ((s.fill c.t.ctx c.g.core false spots).unreserve c lane spots, old)

/-- ATOM and ATOMS: one update after another in ascending lane order. -/
def atomOp (i : Instr) (f : Fields) (s : State) (sp : Space) : Res :=
  let dt := dtN f
  access i f s sp (memBytes dt) .readWrite true (fun c => claimed c (memRegs dt)) fun c s l =>
    let spots := l.flatMap Prod.snd
    checked c s (s.readCheck spots) fun s =>
      let r := l.foldl (fun (r : State × List (Nat × Nat)) x =>
        let y := r.1.atomic c x.1 x.2
        (y.1, r.2 ++ [(x.1, y.2)])) (s, [])
      let word := fun (lane : Nat) => match r.2.find? fun x => x.1 == lane with
        | some x => (List.range (memRegs dt)).map fun j => BitVec.ofNat 32 (x.2 / 2 ^ (32 * j))
        | none => []
      .next ((r.1.sendBack c sp (memRegs dt) spots (vBack f.d (memRegs dt) c.act word)).advance c.who)

/-- ATOM. -/
def execAtom (f : Fields) (s : State) : Res := atomOp (.atom f) f s .glob
/-- ATOMS. -/
def execAtoms (f : Fields) (s : State) : Res := atomOp (.atoms f) f s .shared

/-- The machine check that a RED meets: at the sectors of its words, and where it merges an entry, the one that it evicts among them
(R53, R57, R58). -/
def State.redCheck (s : State) (c : Ctx) (sub dt : Nat) (spots : List Spot) : Option (Nat × Nat) :=
  s.readCheck spots <|> (s.redMerges c sub dt spots).findSome? fun g => (s.sectorCheck g).map fun code => (code, g * 64)

/-- RED. -/
def execRed (f : Fields) (s : State) : Res :=
  let dt := dtN f
  access (.red f) f s .glob (memBytes dt) .readWrite true (fun _ => 0) fun c s l =>
    let spots := l.flatMap Prod.snd
    checked c s (s.redCheck c (subN f) dt spots) fun s =>
      let s := l.foldl (fun s x =>
        if s.takesMire (subN f) dt x.2 then
          ((s.fill c.t.ctx c.g.core false x.2).unreserve c x.1 x.2).mireAdd c.t.ctx ((x.2.map (·.key)).headD 0) (subN f) dt (atomArgs c x.1).1
        else (s.atomic c x.1 x.2).1) s
      .next ((s.modGroup c.who.team c.who.group fun g => g.await (s.servedBy spots)).advance c.who)

/-! ### Reservations (R104 to R106, R113) -/

/-- Where a granule's reservation is held: its home slice, or the named core of a pinned page (R113). -/
def State.reserveAt (s : State) (key : Nat) : Nat := if hbmEnd ≤ key then 2 ^ 20 + (key - 2 ^ 40) / 2 ^ 20 else s.sliceOf key

/-- 64 fc in ns (R1, R106). -/
def holdNs : Nat := 32

/-- A thread reserves a granule: its earlier reservation goes, the oldest of 64 at its place goes, and the hold falls to
the first reserver (R105, R106). -/
def State.reserve (s : State) (c : Ctx) (lane key : Nat) : State :=
  let granule := sectorOf key
  let rest := s.reservations.filter fun r => !(r.team == c.who.team && r.group == c.who.group && r.lane == lane)
  let here := rest.filter fun r => s.reserveAt (r.granule * 64) == s.reserveAt key
  let rest := if here.length < 64 then rest
    else match here.head? with
      | some r => rest.erase r
      | none => rest
  let free := !(rest.any fun r => r.granule == granule && r.hold) && !s.parkedOn granule
  { s with reservations := rest ++
      [{ team := c.who.team, group := c.who.group, lane := lane, split := c.who.split, granule := granule, hold := free, issued := 0,
         deadline := s.time + holdNs }] }

/-- LDRES. -/
def execLdres (f : Fields) (s : State) : Res :=
  let dt := dtN f
  access (.ldres f) f s .glob (memBytes dt) .readWrite true (fun c => claimed c (memRegs dt)) fun c s l =>
    let spots := l.flatMap Prod.snd
    checked c s (s.readCheck spots) fun s =>
      let s := s.beforeRead c.t.ctx c.g.core false spots
      let word := fun (lane : Nat) => match l.find? fun x => x.1 == lane with
        | some x => loadWords dt (s.readSpots x.2)
        | none => []
      let s := l.foldl (fun s x => s.reserve c x.1 ((x.2.map (·.key)).headD 0)) s
      .next ((s.sendBack c .glob (memRegs dt) spots (vBack f.d (memRegs dt) c.act word)).advance c.who)

/-- One STCOND: it writes where the thread's reservation names the sector; the reservation goes either way. The line's open
Mire entry merges first, which ends the reservation; a thread whose hold keeps that merge off writes first, and the entry merges once
its STCOND has been served (R54, R105, R106, R280; log 56). -/
def State.storeCond (s : State) (c : Ctx) (lane n : Nat) (spots : List Spot) : State × Bool :=
  let mine := fun (r : Reservation) => r.team == c.who.team && r.group == c.who.group && r.lane == lane
  let granule := sectorOf ((spots.map (·.key)).headD 0)
  let held := s.reservations.any fun r => mine r && r.granule == granule && r.hold
  let s := if held then s else s.mergeLine (granule / 2)
  let ok := s.reservations.any fun r => mine r && r.granule == granule
  let s := { s with reservations := s.reservations.filter fun r => !mine r }
  if ok then
    let s := s.putBytes c.t.ctx (spots.zip (bytesOf n (storeWords c (memRegs (dtN c.f)) lane)))
    (if held then s.mergeLine (granule / 2) else s, true)
  else (s, false)

/-- STCOND. -/
def execStcond (f : Fields) (s : State) : Res :=
  let n := memBytes (dtN f)
  access (.stcond f) f s .glob n .readWrite true (fun _ => 0) fun c s l =>
    let spots := l.flatMap Prod.snd
    checked c s (s.writeCheck spots) fun s =>
      let r := l.foldl (fun (r : State × Mask) x =>
        let y := r.1.storeCond c x.1 n x.2
        (y.1, if y.2 then r.2 ||| maskOf (· == x.1) else r.2)) (s, 0)
      let p := match f.d with
        | .p n => n.val
        | _ => 7
      .next ((r.1.modGroup c.who.team c.who.group fun g => g.send false []
        { split := c.who.split, regs := destSpans (groupEnv c.t c.g) c.i f,
          wb := { v := [], s := none, p := some (p, c.act, r.2), uniform := false }, tiles := s.servedBy spots }).advance c.who)

/-! ### Prefetch, cache control, fences (R107 to R110) -/

/-- PREF: the line enters L2, and L1 for .L1, where the address translates; it never faults by R41. An address that R36 or R37
does not admit raises ADDRBAD. -/
def execPref (f : Fields) (s : State) : Res :=
  begin_ (.pref f) f s fun c s => gate c s 0 fun s =>
    let bad := maskOf fun l => c.act.getLsbD l && match s.address (c.globalAddr l) with
      | .here _ => false
      | _ => true
    if bad != 0 then .next (s.raise c ((c.fault codeADDRBAD bad).atAddr (laneAddr c .glob)))
    else .next (((lanesOf c.act).foldl (fun s l =>
      let line : W64 := BitVec.ofNat 64 ((c.globalAddr l).toNat / 128 * 128)
      match s.reach c.g.core c.t.ctx line 128 .read with
      | (s, .ok spots) => s.fill c.t.ctx c.g.core (decide (subN f = 0)) spots
      | (s, .error _) => s) s).advance c.who)

/-- Dirty sectors of a line are written back: the line is clean (R109). -/
def State.cleanLine (s : State) (line : Nat) : State :=
  if (assoc line s.l2).isSome then { s with l2 := assocSet line { s.l2Line line with dirty0 := false, dirty1 := false } s.l2 }
  else s

/-- The line forms of CCTL, on the line of each address; a line of a gather window has no Mire entry and is never dirty (R47, R109). -/
def cacheControl (i : Instr) (f : Fields) (s : State) (op : State → List Spot → State) : Res :=
  access i f s .control 1 .read false (fun _ => 0) fun c s l =>
    checked c s (s.mergeCheck (linesOf ((l.flatMap Prod.snd).map (·.key)))) fun s =>
      .next ((l.foldl (fun s x => op s x.2) s).advance c.who)

/-- CCTL.FLUSH. -/
def execCctlFlush (f : Fields) (s : State) : Res :=
  cacheControl (.cctlFlush f) f s fun s l => (linesOf (l.map (·.key))).foldl (fun s x => (s.mergeLine x).cleanLine x) s
/-- CCTL.MERGE. -/
def execCctlMerge (f : Fields) (s : State) : Res :=
  cacheControl (.cctlMerge f) f s fun s l => s.mergeLines (linesOf (l.map (·.key)))

/-- The leaf of an address with no permission asked. -/
def State.anyLeaf (s : State) (ctx : Nat) (a : W64) : Except MemFault (Nat × Nat) :=
  match s.address a with
  | .here va => match s.walk ctx va with
    | .leaf _ e shift => .ok (e, shift)
    | .xlate => .error (.xlate va)
    | .bad => .error (.prog codeADDRBAD 0)
  | _ => .error (.prog codeADDRBAD 0)

/-- CCTL.INVW: a window line leaves the caches; it needs no permission, and a line of another page stays. -/
def execCctlInvw (f : Fields) (s : State) : Res :=
  attempt (.cctlInvw f) f s fun c s => gateLate c s 0 fun s =>
    let r := (lanesOf c.act).map fun l => (l, s.anyLeaf c.t.ctx (c.globalAddr l))
    let bad := maskOf fun l => r.any fun x => x.1 == l && match x.2 with
      | .error (.prog _ _) => true
      | _ => false
    let xs := r.filterMap fun x => match x.2 with
      | .error (.xlate va) => some (x.1, va)
      | _ => none
    if bad != 0 then .next (s.raise c ((c.fault codeADDRBAD bad).atAddr (laneAddr c .glob)))
    else if !xs.isEmpty then .next (s.waitXlate c (maskOf fun l => xs.any fun x => x.1 == l) (xs.map Prod.snd) 0)
    else
      let drop := r.filterMap fun x => match x.2 with
        | .ok (e, shift) =>
          if leafGather e then
            some ((frameOf e / 4096 * 64 + bits e 63 58) * 2 ^ 30 / 128 + (c.globalAddr x.1).toNat % 2 ^ 48 % 2 ^ shift / 128)
          else none
        | _ => none
      .next ((drop.foldl (fun s w => State.evict { s with windowLines := s.windowLines.filter fun x => x.1 != w } c.t.ctx (windowTag w))
        (s.issued c)).advance c.who)

/-- CCTL.FLUSHCTX: every open entry into which the context has added merges. -/
def execCctlFlushctx (f : Fields) (s : State) : Res :=
  attempt (.cctlFlushctx f) f s fun c s => gateLate c s 0 fun s =>
    let lines := (s.mire.filter fun e => e.ctxs.contains c.t.ctx).map (·.line)
    match s.heldAt c.mine [] lines with
    | some g => .next (s.block c.who (.resource (.hold g)))
    | none => checked c s (s.mergeCheck lines) fun s => .next (((s.issued c).mergeLines lines).advance c.who)

/-- MEMBAR: the group's earlier accesses have returned and are acknowledged; `.ACQ` does not wait for the matrix engine. -/
def execMembar (f : Fields) (s : State) : Res :=
  attempt (.membar f) f s fun c s => gateLate c s 0 fun s =>
    if (if subN f = 0 then c.g.quiet else s.quiet c.who.team c.g) then .next ((s.issued c).advance c.who) else .next (s.block c.who (.resource .acks))

/-! ### Monitors (R111 to R113) -/

/-- Lines that a core tracks: those of monitors that have no cause yet. -/
def State.armedLines (s : State) (core : Nat) : List Nat :=
  dedup ((s.monitors.filter fun m => m.core == core && m.cause.isNone).map (·.line))

/-- A thread arms its monitor; arming a 65th line drops the oldest, whose threads see tracking lost (R112). -/
def State.arm (s : State) (c : Ctx) (lane line : Nat) : State :=
  let rest := s.monitors.filter fun m => !(m.team == c.who.team && m.group == c.who.group && m.lane == lane)
  let s := { s with monitors := rest }
  let lines := s.armedLines c.g.core
  let s := if lines.contains line || lines.length < 64 then s
    else { s with monitors := s.monitors.map fun m =>
      if m.core == c.g.core && some m.line == lines.head? && m.cause.isNone then { m with cause := some 1 } else m }
  { s with monitors := s.monitors ++
      [{ team := c.who.team, group := c.who.group, lane := lane, line := line, core := c.g.core, cause := none }] }

/-- MARM. -/
def execMarm (f : Fields) (s : State) : Res :=
  access (.marm f) f s .glob 1 .read false (fun _ => 0) fun c s l =>
    .next ((l.foldl (fun s x => s.arm c x.1 (lineOf ((x.2.map (·.key)).headD 0))) s).advance c.who)

/-- The result code of a thread at the end of an MWAIT: its cause, else the given one (R112). -/
def causeOr (own : Nat) (_ : Nat) (cause : Option Nat) : Nat := cause.getD own

/-- MWAIT: it returns at once where a thread has a cause or no monitor, and suspends the split otherwise. -/
def execMwait (f : Fields) (s : State) : Res :=
  attempt (.mwait f) f s fun c s => gateLate c s (claimed c 1) fun s =>
    let s := (s.issued c).modGroup c.who.team c.who.group fun g => g.claim f.d 1 c.act
    let mine := s.monitors.filter fun m => m.team == c.who.team && m.group == c.who.group && c.act.getLsbD m.lane
    let t := (lowWord (c.g.scalar .unsigned f.a)).toNat
    if mine.any (fun m => m.cause.isSome) || mine.length < (lanesOf c.act).length then
      .next (s.finishMwait c.who f c.act (causeOr 4))
    else .next (s.block c.who (.mwait f c.act (if t = 0 then none else some (s.time + t))))

end Sys2Proof.Machine
end

