-- ==== Sys2Proof/Machine/Placing.lean ====
section
/-! DEFINITION. Launch records, the placing of teams on cores, and a group and a team as they start
(spec/14_scheduling.md R346 to R349, spec/05_registers.md R121, R128, R129, spec/03 R61, R62, R83, R85); and the team
that stands for a program loaded from outside. -/

namespace Sys2Proof.Machine

/-! ### Launch records (R346, R348) -/

/-- n bytes at offset o of a byte string, as a little-endian number. -/
def fieldAt (bs : List Byte) (o n : Nat) : Nat := leNat ((bs.drop o).take n)

/-- Bytes o to e - 1 are zero. -/
def zeroAt (bs : List Byte) (o e : Nat) : Bool := ((bs.drop o).take (e - o)).all (· == 0)

/-- Element size of a binding's format number (R84). -/
def bindBytes (fmt : Nat) : Option Nat :=
  match fmt with
  | 1 => some 4
  | 2 => some 2
  | 3 => some 2
  | 4 => some 1
  | 5 => some 1
  | 10 => some 1
  | _ => none

/-- The fields of a binding record (R83). -/
def bindSrc (b : Nat) : Nat := bits b 63 0
def bindAux (b : Nat) : Nat := bits b 127 64
def bindDst (b : Nat) : Nat := bits b 159 128
def bindLen (b : Nat) : Nat := bits b 191 160
def bindStride (b : Nat) : Nat := bits b 223 192
def bindKind (b : Nat) : Nat := bits b 231 224
def bindP0 (b : Nat) : Nat := bits b 239 232
def bindP1 (b : Nat) : Nat := bits b 247 240

/-- A binding record that R85 takes, for a team of so many shared steps. The box of a layout is checked where its shape
record is read with the launch record (log 22). -/
def bindOk (shared b : Nat) : Bool :=
  if bindKind b = 0 then b == 0
  else
    let len := bindLen b
    decide (len % 16 = 0) && decide (16 ≤ len) && decide (len ≤ 983040) && decide (bindDst b % 16 = 0) &&
      decide (bindDst b + len ≤ shared * 65536) && decide (bits b 255 248 = 0) &&
      match bindKind b with
      | 1 => bindSrc b == 0 && bindStride b == 0 && bindP0 b == 0 && bindP1 b == 0
      | 2 => bindP0 b != 0 && bindP1 b == 0 && len % (16 * bindP0 b) == 0
      | 3 => bindAux b == 0 && (bindBytes (bindP0 b)).isSome && match bindBytes (bindP1 b) with
        | some n => len % n == 0
        | none => false
      | 4 => bindAux b == 0 && bindP0 b == 0 && bindP1 b == 0
      | _ => false

/-- The first group index and the role of each group of one core, roles being runs in order (R346). -/
def Launch.roleOf (l : Launch) (g : Nat) : Nat × Nat × Nat :=
  let step := fun (acc : Nat × Nat × Option (Nat × Nat × Nat)) (r : Nat × Nat) =>
    let at_ := acc.2.1
    let found := match acc.2.2 with
      | some x => some x
      | none => if at_ ≤ g && g < at_ + r.1 then some (acc.1, g - at_, r.2) else none
    (acc.1 + 1, at_ + r.1, found)
  ((l.roles.foldl step (0, 0, none)).2.2).getD (0, g, 256)

/-- The gang of a group: its number, the member's index and the member count (R130). -/
def Launch.gangOf (l : Launch) (g : Nat) : Option (Nat × Nat × Nat) :=
  ((List.range l.gangs.length).find? fun k => (l.gangs.getD k 0).testBit g).map fun k =>
    let m := l.gangs.getD k 0
    (k, popCount g m, popCount 64 m)

def Launch.total (l : Launch) : Nat := if l.twin then 2 * l.groups else l.groups

/-- A launch record as its 512 bytes give it; no check but its shape. -/
def Launch.ofBytes (addr : Nat) (bs : List Byte) : Launch :=
  let lease := fieldAt bs 40 2
  { addr := addr, code := fieldAt bs 0 8, entry := fieldAt bs 8 4, gx := fieldAt bs 12 4, gy := fieldAt bs 16 4,
    gz := fieldAt bs 20 4, param := fieldAt bs 24 8, psize := fieldAt bs 32 4, groups := fieldAt bs 36 1,
    twin := bit (fieldAt bs 37 1) 0, shared := fieldAt bs 38 1, tiles := fieldAt bs 39 1,
    lease := if lease = 0 then 256 else lease, localB := fieldAt bs 44 4, lbase := fieldAt bs 48 8, nslot := fieldAt bs 56 4,
    gangs := (List.range 4).map fun k => fieldAt bs (64 + 8 * k) 8,
    roles := (List.range 4).map fun k => (fieldAt bs (96 + 4 * k) 1, fieldAt bs (98 + 4 * k) 2),
    binds := (List.range 8).map fun k => BitVec.ofNat 256 (fieldAt bs (256 + 32 * k) 32) }

/-- The checks of R348 that the record alone decides. -/
def Launch.ok (addr : Nat) (bs : List Byte) : Bool :=
  let l := Launch.ofBytes addr bs
  let some_ := l.gangs.filter (· != 0)
  addr % 64 == 0 && zeroAt bs 42 44 && zeroAt bs 60 64 && zeroAt bs 112 256 && fieldAt bs 37 1 < 2 &&
    ((List.range 4).all fun k => fieldAt bs (97 + 4 * k) 1 == 0) &&
    l.code % 16 == 0 && l.entry % 16 == 0 && 1 ≤ l.gx && 1 ≤ l.gy && 1 ≤ l.gz && l.gx * l.gy * l.gz ≤ 2 ^ 32 &&
    l.param % 16 == 0 && l.psize ≤ 16384 && 1 ≤ l.groups && l.groups ≤ 32 && l.shared ≤ 15 && l.tiles ≤ 16 &&
    l.localB % 4 == 0 && l.localB ≤ 65536 && l.lbase % 128 == 0 && l.nslot ≤ 65535 &&
    (l.localB == 0 || (l.nslot != 0 && l.lbase != 0)) && (l.roles.all fun r => r.2 ≤ 256) &&
    (l.roles.foldl (fun n r => n + r.1) 0 == l.groups) &&
    (some_.all fun m => (popCount 64 m == 2 || popCount 64 m == 4 || popCount 64 m == 8) && m < 2 ^ l.total) &&
    (some_.foldl (fun n m => n + popCount 64 m) 0 == popCount 64 (some_.foldl (· ||| ·) 0)) &&
    (l.binds.all fun b => bindOk l.shared b.toNat)

/-! ### Seats (R61, R62, R128, R129, R206, R347, R349) -/

/-- The cores of a team. -/
def Team.cores (t : Team) : List Nat := if t.launch.twin then [t.core, t.core + 1] else [t.core]

/-- What a team holds a place for: a team that waits for its LAUNCHQ commands alone has neither steps nor tiles (R354). -/
def Team.holding (t : Team) : Launch := if t.hollow then { t.launch with shared := 0, tiles := 0 } else t.launch

/-- Steps of a core that no pinned page and no team holds. -/
def State.freeSteps (s : State) (core : Nat) : List Nat :=
  let pinned := (s.core core).pins.toList.filterMap fun p => if p.getLsbD 63 then some (bits p.toNat 3 0) else none
  let used := s.teams.flatMap fun t => (if t.core == core then t.steps else []) ++
    (if t.launch.twin && t.core + 1 == core then t.steps2 else [])
  (List.range 15).filter fun n => !pinned.contains n && !used.contains n

def State.freeTiles (s : State) (core : Nat) : List Nat :=
  let used := s.teams.flatMap fun t => (if t.core == core then t.tiles else []) ++
    (if t.launch.twin && t.core + 1 == core then t.tiles2 else [])
  (List.range 16).filter fun n => !used.contains n

/-- The lowest free team slot of a core: R61 lets any one be taken (log 69). -/
def State.freeSlot (s : State) (core : Nat) : Option Nat :=
  (List.range 32).find? fun k => s.teams.all fun t =>
    !(t.core == core && t.slot == k) && !(t.launch.twin && t.core + 1 == core && t.slot2 == k)

/-- Slabs that a group reserves (R128). -/
def reservation (ceiling : Nat) (gang : Bool) : Nat := if gang then ceiling + 32 else ceiling

/-- The groups of a core that have not ended. -/
def State.residents (s : State) (core : Nat) : List Group :=
  s.teams.flatMap fun t => t.groups.filter fun g => g.core == core && !g.ended

/-- A matrix instruction of the group has registers still to write (R328). -/
def State.matrixWrites (s : State) (team group : Nat) : Bool :=
  s.cores.any fun c => c.2.matrix.any fun m => m.team == team && m.leader == group && !m.writes.isEmpty

/-- A group holds its slabs: it has not ended, or register writes of it are outstanding, those of the matrix engine among them (R328). -/
def State.holdsSlabs (s : State) (team : Nat) (g : Group) : Bool :=
  !g.ended || !g.outstanding.isEmpty || g.counters.toList.any Option.isSome || s.matrixWrites team g.index

/-- Groups and reserved slabs of each quarter. -/
def State.quarters (s : State) (core : Nat) : List (Nat × Nat) :=
  (List.range 4).map fun q =>
    let l := s.teams.flatMap fun t => t.groups.filter fun g => g.core == core && g.quarter == q && s.holdsSlabs t.id g
    ((l.filter fun g => !g.ended).length, l.foldl (fun n g => n + reservation g.ceiling g.gang.isSome) 0)

/-- The quarter for a group: fewer than 16 groups and room; most free slabs, then fewest groups, then the lowest
(R349). -/
def pickQuarter (qs : List (Nat × Nat)) (need : Nat) : Option Nat :=
  let ok := (List.range 4).filter fun q => let x := qs.getD q (16, 512); x.1 < 16 && x.2 + need ≤ 512
  ok.foldl (fun best q => match best with
    | none => some q
    | some b =>
      let x := qs.getD b (16, 512)
      let y := qs.getD q (16, 512)
      if y.2 < x.2 || (y.2 == x.2 && y.1 < x.1) then some q else some b) none

/-- The quarters of groups in ascending index; a group that needs none stands as quarter 0. -/
def assignQuarters : List (Nat × Nat) → List (Option Nat) → Option (List Nat)
  | _, [] => some []
  | qs, none :: rest => (assignQuarters qs rest).map (0 :: ·)
  | qs, some need :: rest =>
    match pickQuarter qs need with
    | none => none
    | some q =>
      let x := qs.getD q (16, 512)
      (assignQuarters (qs.set q (x.1 + 1, x.2 + need)) rest).map (q :: ·)

/-- What each group of a launch needs, groups that have ended apart. -/
def Launch.needs (l : Launch) (ended : Nat → Bool) : List (Option Nat) :=
  (List.range l.total).map fun g =>
    if ended g then none else some (reservation (l.roleOf (g % l.groups)).2.2 (l.gangOf g).isSome)

/-- What a team holds of its core or pair. -/
structure Seat where
  core : Nat
  slot : Nat
  slot2 : Nat
  steps : List Nat
  steps2 : List Nat
  tiles : List Nat
  tiles2 : List Nat
  quarters : List Nat
  deriving DecidableEq, Repr

/-- The share of one core: slot, steps, tiles and quarters. Of the free steps and tiles the lowest are taken (R61; log 69). -/
def State.share (s : State) (l : Launch) (needs : List (Option Nat)) (core : Nat) :
    Option (Nat × List Nat × List Nat × List Nat) :=
  if !s.coreLive core || (s.freeSteps core).length < l.shared || (s.freeTiles core).length < l.tiles then none
  else match s.freeSlot core, assignQuarters (s.quarters core) needs with
    | some k, some qs => some (k, (s.freeSteps core).take l.shared, (s.freeTiles core).take l.tiles, qs)
    | _, _ => none

/-- The seat of a launch's team on a core, or on the pair that the core begins (R349). -/
def State.seatAt (s : State) (l : Launch) (ended : Nat → Bool) (core : Nat) : Option Seat :=
  let needs := l.needs ended
  match s.share l (needs.take l.groups) core with
  | none => none
  | some a =>
    if !l.twin then
      some { core := core, slot := a.1, slot2 := 0, steps := a.2.1, steps2 := [], tiles := a.2.2.1, tiles2 := [],
             quarters := a.2.2.2 }
    else if core % 2 != 0 then none
    else match s.share l (needs.drop l.groups) (core + 1) with
      | none => none
      | some b =>
        some { core := core, slot := a.1, slot2 := b.1, steps := a.2.1, steps2 := b.2.1, tiles := a.2.2.1, tiles2 := b.2.2.1,
               quarters := a.2.2.2 ++ b.2.2.2 }

/-- The seat on the eligible core or pair with fewest resident groups; ties to die 0, then to the lower tile (R349). -/
def State.seat (s : State) (l : Launch) (ended : Nat → Bool) : Option Seat :=
  let load := fun (core : Nat) => (s.residents core).length + (if l.twin then (s.residents (core + 1)).length else 0)
  ((List.range 512).foldl (fun (best : Option (Nat × Seat)) core =>
    match s.seatAt l ended core with
    | none => best
    | some x => match best with
      | some b => if load core < b.1 then some (load core, x) else some b
      | none => some (load core, x)) none).map Prod.snd

/-- The lowest local slot that no team of the context and window holds, a team without local memory counted too; 0, which it does not
hold, where the launch names no slots (R347; log 23). -/
def State.localSlotFor (s : State) (ctx : Nat) (l : Launch) : Option Nat :=
  if l.nslot = 0 then some 0
  else
    let same := fun (t : Team) => t.ctx == ctx && t.launch.lbase == l.lbase && t.launch.nslot != 0 && !t.hollow
    let used := ((s.teams ++ s.saved.map (·.team)).filter same).map (·.localSlot)
    (List.range l.nslot).find? fun k => !used.contains k

/-! ### Starting a team (R61, R62, R98, R121, R205, R385) -/

/-- A group with every register at its start value and one split at a PC (R121, R308). -/
def freshGroup (index core quarter qslot role roleGrp ceiling : Nat) (gang : Option (Nat × Nat × Nat)) (pc : Nat) : Group :=
  { index := index, core := core, quarter := quarter, qslot := qslot, role := role, roleGrp := roleGrp, ceiling := ceiling,
    gang := gang, v := Vector.replicate 256 (.uniform 0), s := Vector.replicate 64 0, p := Vector.replicate 7 0,
    x := Vector.replicate 32 (Vector.replicate 32 0), flags := 0, lsr := 0x47800000, seeds := Vector.replicate 4 0,
    rsr := Vector.replicate 32 0, splits := put (Vector.replicate 4 none) 0 (some (handlerSplit pc allLanes)),
    records := Vector.replicate 4 { owner := 0, below := none }, exited := 0, ended := false, exst := none, openBatch := 0,
    engineFaults := [], latch := none, handler := none, trap := none, trapAt := 0, halted := false, outstanding := [],
    counters := Vector.replicate 8 none, unacked := 0 }

/-- The groups of a launch in their seat. -/
def Launch.startGroups (l : Launch) (x : Seat) : List Group :=
  (List.range l.total).map fun g =>
    let r := l.roleOf (g % l.groups)
    let second := decide (l.groups ≤ g)
    freshGroup g (if second then x.core + 1 else x.core) (x.quarters.getD g 0) 0 r.1 r.2.1 r.2.2 (l.gangOf g) (l.code + l.entry)

/-- The first free group slot of each group's quarter is taken in order (R351). -/
def State.takeSlots (s : State) (gs : List Group) : List Group :=
  gs.foldl (fun acc g =>
    let used := ((s.residents g.core) ++ acc).filter fun h => h.core == g.core && h.quarter == g.quarter && !h.ended
    acc ++ [{ g with qslot := ((List.range 16).find? fun k => used.all fun h => h.qslot != k).getD 0 }]) []

/-- A team in its seat with nothing done. -/
def Launch.startTeam (l : Launch) (x : Seat) (id : Nat) : Team :=
  { id := id, grid := 0, origin := .command 0, seq := 0, ctx := 0, core := x.core, slot := x.slot, slot2 := x.slot2,
    launch := l, x := 0, y := 0, z := 0, lin := 0, gx := l.gx, gy := l.gy, gz := l.gz, localSlot := 0, steps := x.steps,
    steps2 := x.steps2, tiles := x.tiles, tiles2 := x.tiles2, groups := l.startGroups x,
    barriers := Vector.replicate 16 { phase := 0, arrd := 0, part := 2 ^ l.total - 1 },
    guards := Vector.replicate 16 .unresolved, ringHead := 0, ringCount := 0, prologue := none, xlate := none, placed := 0,
    placedFirst := 0, halt := none, preempt := false, aborted := false }

/-- A core receives a team: its tiles are fresh, L1 gives up its steps, and the code's lines and the parameter block leave
the core's caches. -/
def State.receive (s : State) (t : Team) (core : Nat) (tiles : List Nat) : State :=
  let c := s.core core
  let params := (pieces 3 t.launch.param t.launch.psize).filterMap fun p => (s.plainKey t.ctx p.1).map fun k => (k, p.2)
  let stale := fun (w : Nat) => params.any fun p => p.1 / 4 ≤ w && w ≤ (p.1 + p.2) / 4
  s.setCore core { c with
    tiles := tab 16 (fun n => if tiles.contains n then Tile.fresh else nth c.tiles n Tile.fresh)
    l1 := if t.launch.shared = 0 then c.l1 else []
    icache := c.icache.filter fun e => !(e.1 == t.ctx && decide (t.launch.code ≤ e.2.1))
    ccache := c.ccache.filter fun e => !(e.1 == t.ctx && stale e.2.1) }

/-- A team becomes resident. -/
def State.settle (s : State) (t : Team) : State :=
  let t := { t with groups := s.takeSlots t.groups }
  let s := s.receive t t.core t.tiles
  let s := if t.launch.twin then s.receive t (t.core + 1) t.tiles2 else s
  { s with teams := s.teams ++ [t] }

/-! ### A program placed from outside (log 20) -/

/-- Memory that maps the 64 KiB page at address 0 of context 0, readable, writable and executable, onto 0x20000. -/
def slotTables : List (Nat × Byte) :=
  keyed 0x1000 (leBytes 8 0x2001) ++ keyed 0x2000 (leBytes 8 0x3001) ++ keyed 0x3000 (leBytes 8 0x4001) ++
    keyed 0x4000 (leBytes 8 0x5001) ++ keyed 0x5000 (leBytes 8 0x2007F)

/-- The launch record of the placed team. -/
def slotLaunch : Launch :=
  { addr := 0, code := 0, entry := 0, gx := 1, gy := 1, gz := 1, param := 0, psize := 0, groups := 1, twin := false,
    shared := 0, tiles := 16, lease := 256, localB := 0, lbase := 0, nslot := 0, gangs := [], roles := [(1, 256)],
    binds := [] }

/-- A team of one group on core 0. -/
def slotTeam (g : Group) : Team :=
  { id := 0, grid := 0, origin := .command 0, seq := 0, ctx := 0, core := 0, slot := 0, slot2 := 0, launch := slotLaunch,
    x := 0, y := 0, z := 0, lin := 0, gx := 1, gy := 1, gz := 1, localSlot := 0, steps := [], steps2 := [], tiles := List.range 16,
    tiles2 := [], groups := [g], barriers := Vector.replicate 16 { phase := 0, arrd := 0, part := 1 },
    guards := Vector.replicate 16 .unresolved, ringHead := 0, ringCount := 0, prologue := none, xlate := none, placed := 0,
    placedFirst := 0, halt := none, preempt := false, aborted := false }

/-- The group that runs a placed word; a word of RETT stands in a trap handler (R377). -/
def slotGroup (w : InsWord) : Group :=
  let g := freshGroup 0 0 0 0 0 0 256 none 0
  if bits w.toNat 7 0 = 0x0C then
    { g with
      handler := some
        { kv := Vector.replicate 8 (Vector.replicate 32 0), ks := Vector.replicate 8 0, frozen := g.splits, records := g.records, split := 0,
          raisedHalt := false } }
  else g

/-- The machine with a word placed where its next step fetches: the page tables and the word in memory, context 0's
entry, and one team whose only split stands at address 0. -/
def State.placeWord (s : State) (w : InsWord) : State :=
  { s.poke (slotTables ++ keyed 0x20000 (bytesOfWord w)) with
    sys := { s.sys with ctxtab := 0x1000 }, agenda := [], teams := [slotTeam (slotGroup w)] }

end Sys2Proof.Machine
end

