-- ==== Sys2Proof/Machine/Rendezvous.lean ====
section
/-! DEFINITION. The rendezvous of GANG and TEAM scope (spec/13_execution_and_control.md R316 to R319): arrival, the
party that executes, its faults, and SCOPEMIS. -/

namespace Sys2Proof.Machine

/-- A member of a rendezvous as it executes: its arriving split, its group, the splits that stand at the instruction, and
its contributors over all of them. -/
structure Member where
  who : Who
  g : Group
  standing : List Nat
  act : Mask
  deriving DecidableEq, Repr

/-- Every member that arrived, lowest first, and the leader with FMT and MODE of its arriving split and its contributors
(R316). -/
structure Party where
  lead : Ctx
  members : List Member
  deriving DecidableEq, Repr

/-! ### Arrival (R316) -/

/-- The place at which a split stands: a static instruction is a PC with a scope. -/
def standsAt (sp : Split) : Option (Nat × Scope) :=
  match sp.wait with
  | .rendezvous i => (fieldsOf i).map fun f => (sp.pc, f.scope)
  | _ => none

/-- The instruction at which a group has arrived: each live split stands there. -/
def Group.arrivedAt (g : Group) : Option (Nat × Scope) :=
  match g.liveSplits with
  | [] => none
  | x :: xs =>
    match standsAt x.2 with
    | none => none
    | some p => if xs.all fun y => standsAt y.2 == some p then some p else none

/-- A group that no longer needs to arrive. -/
def Group.gone (g : Group) : Bool := g.ended || g.live == 0

/-- The rendezvous set of an instruction that a group issues at a scope. -/
def rendezvousSet (t : Team) (g : Group) (sc : Scope) : List Group :=
  match sc with
  | .team => t.groups
  | .gang => t.groups.filter fun h => h.gang.isSome && h.gang.map Prod.fst == g.gang.map Prod.fst
  | _ => [g]

/-- A group as a member. -/
def memberOf (team : Nat) (g : Group) (f : Fields) : Member :=
  let l := g.liveSplits
  { who := { team := team, group := g.index, split := (l.map Prod.fst).headD 0 }, g := g, standing := l.map Prod.fst,
    act := l.foldl (fun m x => m ||| guardMask g x.2 f) 0 }

/-- The arriving split of a member holds a thread that is active with its guard true. -/
def Member.leads (m : Member) (f : Fields) : Bool :=
  match m.g.split? m.who.split with
  | some sp => guardMask m.g sp f != 0
  | none => false

/-- The party at the instruction where a group stands, once every member has arrived and the accesses of the matrix engine for every group
of the set are performed, since what the members did before happens before it (R283, R316; log 19). -/
def State.party? (s : State) (team group : Nat) : Option (Instr × Party) :=
  match s.team? team with
  | none => none
  | some t =>
    match t.group? group with
    | none => none
    | some g =>
      match g.liveSplits with
      | [] => none
      | (_, sp) :: _ =>
        match sp.wait with
        | .rendezvous i =>
          match fieldsOf i with
          | none => none
          | some f =>
            let all := rendezvousSet t g f.scope
            let set := all.filter fun h => !h.gone
            if all.all (fun h => !s.matrixOwes team h.index) && set.all fun h => h.handler.isNone && h.trap.isNone && !h.halted && h.arrivedAt == some (sp.pc, f.scope) then
              let ms := set.map fun h => memberOf team h f
              match (ms.find? fun m => m.leads f) <|> ms.head? with
              | none => none
              | some m =>
                match m.g.split? m.who.split with
                | none => none
                | some lsp => some (i, { lead := { who := m.who, t := t, g := m.g, sp := lsp, i := i, f := f, act := m.act }, members := ms })
            else none
        | _ => none

/-! ### Faults of a rendezvous (R318) -/

/-- The splits of a party stand ready. -/
def State.readyParty (s : State) (p : Party) : State :=
  p.members.foldl (fun s m => m.standing.foldl (fun s n => s.modSplit { m.who with split := n } fun x => { x with wait := .ready }) s) s

/-- A fault of a member at the instruction. -/
def Party.fault (p : Party) (m : Member) (code : Nat) (mask : Mask) : FaultInfo :=
  { p.lead.fault code mask with split := m.who.split }

/-- The instruction faults in some members: every other member takes GANGFAULT with the mask of its arriving split. -/
def State.failParty (s : State) (p : Party) (bad : List (Nat × FaultInfo)) : State :=
  p.members.foldl (fun s m => s.takeFault m.who.team m.who.group
    (match bad.find? fun b => b.1 == m.who.group with
      | some b => b.2
      | none => p.fault m codeGANGFAULT (((m.g.split? m.who.split).map (·.mask)).getD 0))) (s.readyParty p)

/-- The leader's fault, of its contributors. -/
def State.failLead (s : State) (p : Party) (info : FaultInfo) : State := s.failParty p [(p.lead.who.group, info)]

/-! ### Execution -/

/-- The instruction in the hands of one standing split of a member, under the leader's FMT (R134). -/
def Party.ctxOf (p : Party) (m : Member) (n : Nat) : Ctx :=
  let sp := (m.g.split? n).getD p.lead.sp
  { p.lead with who := { m.who with split := n }, g := m.g, sp := { sp with fmt := p.lead.sp.fmt }, act := guardMask m.g sp p.lead.f }

/-- Every standing split of a party. -/
def Party.ctxs (p : Party) : List Ctx := p.members.flatMap fun m => m.standing.map (p.ctxOf m)

/-- Every standing split has issued (R21, R106). -/
def State.issuedParty (s : State) (p : Party) : State := p.ctxs.foldl (fun s c => s.issued c) s

/-- Every standing split goes on (R316). -/
def State.passParty (s : State) (p : Party) : State := p.ctxs.foldl (fun s c => s.advance c.who) s

/-- The checks before an effect: each member's ceiling for its registers after the instruction, and each split's
lookahead windows (R21, R127). -/
def gateParty (p : Party) (s : State) (after : Member → Group) (k : State → Res) : Res :=
  let ceil := p.members.filterMap fun m =>
    if m.g.overCeiling (after m).generals then some (m.who.group, p.fault m codeREGCEIL m.act) else none
  let look := p.members.filterMap fun m =>
    (m.standing.find? fun n => (p.ctxOf m n).broken).map fun n => (m.who.group, { p.fault m codeLOOKAHEAD m.act with split := n })
  if !ceil.isEmpty then .next (s.failParty p ceil)
  else if !look.isEmpty then .next (s.failParty p look)
  else k s

/-- A rendezvous instruction that only reads and writes the registers of its members. -/
def partyRegisters (p : Party) (s : State) (h : Member → Group → Group) : Res :=
  gateParty p s (fun m => h m m.g) fun s =>
    let s := p.members.foldl (fun s m => s.modGroup m.who.team m.who.group (h m)) (s.issuedParty p)
    .next (s.passParty p)

/-- The way of every instruction at GANG or TEAM scope: its split arrives, and the last arrival executes it. -/
def meet (i : Instr) (f : Fields) (s : State) (body : Party → State → Res) : Res :=
  attempt i f s fun c s =>
    let s := s.block c.who (.rendezvous i)
    match s.party? c.who.team c.who.group with
    | some (_, p) => body p s
    | none => .next s

/-! ### SCOPEMIS (R317) -/

/-- The live splits of a group all wait at a rendezvous or a JOIN, at least one at a rendezvous, and not all at one. -/
def Group.mismatched (g : Group) : Bool :=
  let l := g.liveSplits
  !g.gone && g.handler.isNone && g.trap.isNone && (l.all fun x => (standsAt x.2).isSome || x.2.wait == .join) &&
    (l.any fun x => (standsAt x.2).isSome) && g.arrivedAt.isNone

/-- A group belongs to the set of an instruction at which another stands. -/
def inSet (t : Team) (g h : Group) (p : Nat × Scope) : Bool := (rendezvousSet t h p.2).any fun x => x.index == g.index

/-- Two groups have arrived at different instructions, each in the sets of both. -/
def crossed (t : Team) (g h : Group) : Bool :=
  match g.arrivedAt, h.arrivedAt with
  | some p, some q =>
    p != q && inSet t g h q && inSet t h g p && g.handler.isNone && h.handler.isNone && g.trap.isNone && h.trap.isNone
  | _, _ => false

/-- The groups of a team on which SCOPEMIS is raised. -/
def scopeMismatch (t : Team) : List Nat :=
  let bad := t.groups.filter fun g => g.mismatched || t.groups.any fun h => crossed t g h
  let places := bad.flatMap fun g => g.liveSplits.filterMap fun x => (standsAt x.2).map fun p => (g, p)
  dedup (places.flatMap fun x => ((rendezvousSet t x.1 x.2.2).filter fun h => !h.gone).map (·.index))

/-- SCOPEMIS suspends the groups. -/
def State.raiseScopeMismatch (s : State) (team : Nat) (gs : List Nat) : State :=
  gs.foldl (fun s n => match s.group? team n with
    | none => s
    | some g =>
      match g.liveSplits with
      | [] => s
      | (k, sp) :: _ =>
        let scope := match standsAt sp with
          | some (_, .gang) => 2
          | some (_, .team) => 3
          | _ => 0
        let s := s.modGroup team n fun g => { g with splits := g.splits.map fun x => x.map fun y => { y with wait := .ready } }
        s.takeFault team n (splitFault sp k codeSCOPEMIS scope)) s

end Sys2Proof.Machine
end

