-- ==== Sys2Proof/Machine/Engine.lean ====
section
/-! DEFINITION. The instructions that hand commands to the engines, batches, events and guard slots
(spec/03_core_memory_and_engines.md R68 to R73; spec/04_memory_instructions.md R114 to R120; spec/10 R256; spec/12 R303;
spec/14 R354). -/

namespace Sys2Proof.Machine

/-! ### Issue of a command (R68, R69, R114) -/

/-- The S block that starts at an operand. -/
def Group.block (g : Group) (o : Opnd) (n : Nat) : List W64 :=
  match o with
  | .s i => (List.range n).map fun j => g.sreg (i.val + j)
  | _ => []

/-- A command that a group issues. -/
def Ctx.command (c : Ctx) (id eng place : Nat) (args : List W64) : Command :=
  { id := id, eng := eng, place := place, owner := some (c.who.team, c.who.group), job := none, node := none, ctx := c.t.ctx,
    batch := c.g.openBatch, tag := lowWord (c.g.scalar .unsigned c.f.b), pc := c.sp.pc,
    guard := if xmN c.f = 8 then some (subN c.f) else none, discarded := false, form := dtN c.f, args := args, phase := .queued, saved := false,
    xlate := none, written := 0, pos := 0, next := 0, block := 0, step := 0, passes := 0, buf := [], last := false,
    owned := [], window := 0, polling := false, outbox := [] }

/-- A command joins the end of its engine's queue. -/
def State.enqueue (s : State) (c : Command) : State :=
  { s with commands := s.commands ++ [c], nextCommand := s.nextCommand + 1 }

/-- A command of n S registers from A and m from C for an engine; a full queue stalls the group. -/
def issueCommand (i : Instr) (f : Fields) (s : State) (eng : Nat) (perDie : Bool) (n m : Nat) : Res :=
  attempt i f s fun c s => gateLate c s 0 fun s =>
    let place := if perDie then dieOf c.g.core else c.g.core
    if engineRoom eng ≤ s.queuedAt eng place then .next (s.block c.who (.resource (.engine eng place)))
    else
      let s := s.issued c
      .next ((s.enqueue (c.command s.nextCommand eng place (c.g.block f.a n ++ c.g.block f.c m))).advance c.who)

/-- CPY. -/
def execCpy (f : Fields) (s : State) : Res := issueCommand (.cpy f) f s 0 false 3 0
/-- CPYT. -/
def execCpyt (f : Fields) (s : State) : Res := issueCommand (.cpyt f) f s 0 false 8 4
/-- GATHQ. -/
def execGathq (f : Fields) (s : State) : Res := issueCommand (.gathq f) f s 1 false 5 0
/-- DXQ. -/
def execDxq (f : Fields) (s : State) : Res := issueCommand (.dxq f) f s 2 false 4 0
/-- SORTQ. -/
def execSortq (f : Fields) (s : State) : Res := issueCommand (.sortq f) f s 3 true 6 0
/-- COLLQ. -/
def execCollq (f : Fields) (s : State) : Res := issueCommand (.collq f) f s 4 true 5 0
/-- LAUNCHQ. -/
def execLaunchq (f : Fields) (s : State) : Res := issueCommand (.launchq f) f s 5 true 2 0

/-! ### BATCH and WAITB (R69, R70, R117, R118, R215) -/

/-- A batch boundary of a team: a lease passes whose count has run out while another team waits (R215). -/
def State.batchBoundary (s : State) (team : Nat) : State :=
  let cut := fun (c : Core) =>
    if c.lease.holder == some team && (c.lease.grace.isSome || (c.lease.left == 0 && !c.lease.waiting.isEmpty)) then { c with lease := { c.lease with grace := some 65536 } } else c
  { s with cores := s.cores.map fun c => (c.1, cut c.2) }

/-- The open batch is closed under the next number. -/
def Group.closeBatch (g : Group) : Group := { g with openBatch := (g.openBatch + 1) % 65536 }

/-- Closing the open batch now would make a 17th closed incomplete one (R69). -/
def State.batchStall (s : State) (c : Ctx) : Bool :=
  (s.openBatches c.who.team c.who.group).contains c.g.openBatch && decide (16 ≤ s.closedIncomplete c.who.team c.g)

/-- BATCH. -/
def execBatch (f : Fields) (s : State) : Res :=
  attempt (.batch f) f s fun c s => gateLate c s 0 fun s =>
    if s.batchStall c then .next (s.block c.who (.resource .batches))
    else
      let s := (s.issued c).modGroup c.who.team c.who.group fun g =>
        (g.putGroup f.d false { w := [BitVec.ofNat 32 c.g.openBatch] }).closeBatch
      .next ((s.batchBoundary c.who.team).advance c.who)

/-- A batch number lies before or at batch n, both counted back from the open one. -/
def batchReached (open_ n b : Nat) : Bool :=
  let back := fun (x : Nat) => (open_ + 65536 - x % 65536) % 65536
  decide (back n ≤ back b) && decide (back b < 32768)

/-- Every command of batch n and of the earlier batches of a group has completed (R69). -/
def State.batchDone (s : State) (team group open_ n : Nat) : Bool :=
  !(s.openBatches team group).any fun b => batchReached open_ n b

/-- The faulted commands of the batches that a WAITB waits for: the one issued first is raised, and the others' records
are written at the exit that follows (R70, R118). -/
def State.finishWaitb (s : State) (w : Who) (n : Nat) (mask : Mask) : State :=
  match s.team? w.team, s.group? w.team w.group with
  | some t, some g =>
    match g.engineFaults.filter fun e => batchReached g.openBatch n e.batch with
    | [] => s.advance w
    | e :: _ =>
      match g.split? w.split with
      | none => s
      | some sp =>
        if isSectorCheck e.code then s.machineCheck g.core t.ctx e.code e.addr
        else
          let info := { splitFault sp w.split e.code e.scope with
            mask := mask, pc := e.pc, addr := e.addr, aux := e.aux, resume := e.pc }
          let s := s.modGroup w.team w.group fun g => { g with engineFaults := g.engineFaults.filter fun x => x != e }
          (s.modSplit w fun x => { x with wait := .ready }).takeFault w.team w.group info
  | _, _ => s

/-- WAITB: d = 0 closes the open batch first; past 32,767 it returns at once (R118). -/
def execWaitb (f : Fields) (s : State) : Res :=
  attempt (.waitb f) f s fun c s => gateLate c s 0 fun s =>
    let n := (c.g.scalar .unsigned f.a).toNat % 65536
    let d := (c.g.openBatch + 65536 - n) % 65536
    if d = 0 && s.batchStall c then .next (s.block c.who (.resource .batches))
    else
      let s := (s.issued c).batchBoundary c.who.team
      if 32768 ≤ d then .next (s.advance c.who)
      else
        let s := if d = 0 then s.modGroup c.who.team c.who.group Group.closeBatch else s
        let open_ := ((s.group? c.who.team c.who.group).map (·.openBatch)).getD 0
        if s.batchDone c.who.team c.who.group open_ n then .next (s.finishWaitb c.who n c.act)
        else .next (s.block c.who (.waitb n c.act))

/-! ### The event ring (R61, R72, R119) -/

/-- The oldest record leaves a team's ring: its four words, or the empty record (R119). -/
def State.popRing (s : State) (team : Nat) : State × List W64 :=
  match s.team? team with
  | none => (s, [])
  | some t =>
    if t.ringCount = 0 then (s, [0, BitVec.ofNat 64 (0xFF * 2 ^ 40), 0, 0])
    else
      let words := (List.range 4).map fun j => BitVec.ofNat 64 (s.load (t.ringKey t.ringHead + 8 * j) 8)
      (s.modTeam team fun t => { t with ringHead := (t.ringHead + 1) % 64, ringCount := t.ringCount - 1 }, words)

/-- Four words into Sn..Sn+3. -/
def Group.putBlock (g : Group) (o : Opnd) (ws : List W64) : Group :=
  match o with
  | .s n => (List.range ws.length).foldl (fun g j => g.putS (n.val + j) (ws.getD j 0)) g
  | _ => g

/-- A group pops a record and goes on. -/
def State.popInto (s : State) (w : Who) (f : Fields) : State :=
  let r := s.popRing w.team
  (r.1.modGroup w.team w.group fun g => g.putBlock f.d r.2).advance w

/-- No member has a contributor: the instruction has no effect (R20). -/
def Party.idle (p : Party) : Bool := p.members.all fun m => m.act == 0

/-- One record popped for every member. -/
def popParty (p : Party) (s : State) : Res :=
  if p.idle then .next ((s.issuedParty p).passParty p)
  else gateParty p s (fun m => m.g) fun s =>
    let r := (s.issuedParty p).popRing p.lead.who.team
    .next ((p.members.foldl (fun s m => s.modGroup m.who.team m.who.group fun g => g.putBlock p.lead.f.d r.2) r.1).passParty p)

/-- A team's ring holds a record. -/
def State.ringReady (s : State) (team : Nat) : Bool := (s.team? team).any fun t => t.ringCount != 0

/-- EVWAIT after its rendezvous: with an empty ring the leader waits for a record. -/
def evwaitParty (p : Party) (s : State) : Res :=
  if p.idle || s.ringReady p.lead.who.team then popParty p s else .next (s.block p.lead.who (.evwait p.lead.i))

/-- EVPOP. -/
def execEvpop (f : Fields) (s : State) : Res :=
  if f.scope = .team then meet (.evpop f) f s popParty
  else begin_ (.evpop f) f s fun c s => gate c s 0 fun s => .next (s.popInto c.who f)

/-- EVWAIT. -/
def execEvwait (f : Fields) (s : State) : Res :=
  if f.scope = .team then meet (.evwait f) f s evwaitParty
  else attempt (.evwait f) f s fun c s => gateLate c s 0 fun s =>
    if s.ringReady c.who.team then .next ((s.issued c).popInto c.who f) else .next ((s.issued c).block c.who (.evwait (.evwait f)))

/-! ### Guard slots (R71, R120) -/

/-- A state code of R120: unchanged for 3. -/
def guardOf (n : Nat) (old : GuardState) : GuardState :=
  match n with
  | 0 => .unresolved
  | 1 => .isTrue
  | 2 => .isFalse
  | _ => old

/-- The slot and the state that a GSLOT names, or none where an S register's value breaks its range. -/
def gslotOf (c : Ctx) (anyTrue : Bool) : Option (Nat × Nat) :=
  let slot := (c.g.scalar .unsigned c.f.a).toNat
  let val := match c.f.b with
    | .p _ => if anyTrue then 1 else 2
    | o => (c.g.scalar .unsigned o).toNat
  if slot < 16 && val < 4 then some (slot, val) else none

/-- A command that stands at the head of its queue is decided by a state of its guard slot (R71). -/
def Command.decided (c : Command) (x : GuardState) : Command :=
  match x with
  | .isTrue => { c with guard := none }
  | .isFalse => { c with discarded := true }
  | .unresolved => c

/-- The state of a guard slot is written: it decides the commands that stand at the head of their queues and name the slot, as a
TRUE or FALSE that stood there before has decided them (R71). -/
def State.setGuard (s : State) (team slot val : Nat) : State :=
  let old := ((s.team? team).map fun t => nth t.guards slot .unresolved).getD .unresolved
  let new := guardOf val old
  let seen := if old = .unresolved then new else old
  let waits := fun (c : Command) => c.ofTeam team && c.guard == some slot && c.phase == .queued && !c.saved && s.atHead c
  { s.modTeam team fun t => { t with guards := put t.guards slot new } with
    commands := s.commands.map fun c => if waits c && !c.discarded then c.decided seen else c }

/-- GSLOT after its rendezvous: P is true in any contributor of any member. -/
def gslotParty (p : Party) (s : State) : Res :=
  if p.idle then .next ((s.issuedParty p).passParty p)
  else gateParty p s (fun m => m.g) fun s =>
    let any := p.members.any fun m => m.act &&& m.g.predOf p.lead.f.b != 0
    match gslotOf p.lead any with
    | none => .next (s.failLead p (p.lead.fault codeADDRBAD p.lead.act))
    | some (slot, val) => .next (((s.issuedParty p).setGuard p.lead.who.team slot val).passParty p)

/-- GSLOT. -/
def execGslot (f : Fields) (s : State) : Res :=
  if f.scope = .team then meet (.gslot f) f s gslotParty
  else begin_ (.gslot f) f s fun c s => gate c s 0 fun s =>
    match gslotOf c (c.act &&& c.g.predOf f.b != 0) with
    | none => .next (s.raise c (c.fault codeADDRBAD c.act))
    | some (slot, val) => .next ((s.setGuard c.who.team slot val).advance c.who)

end Sys2Proof.Machine
end

