-- ==== Sys2Proof/Machine/Flit.lean ====
section
/-! DEFINITION. Fenlink flits and their recovery (spec/12_links_and_host.md R298 to R300): the layout, lossless exponent coding,
and the sender's replay buffer. -/

namespace Sys2Proof.Machine

/-! ### Layout (R298) -/

/-- The fields of a flit. -/
structure Flit where
  kind : Nat
  nfmt : Nat
  chan : Nat
  coded : Bool
  elems : Nat
  ack : Nat
  seq : Nat
  payload : List Byte
  deriving DecidableEq, Repr

/-- Payload bytes of a flit. -/
def payloadBytes : Nat := 240

/-- The 8 bytes of the header as a number. -/
def Flit.header (f : Flit) : Nat :=
  f.kind + f.nfmt * 2 ^ 16 + f.chan * 2 ^ 20 + b2n f.coded * 2 ^ 23 + f.elems * 2 ^ 24 + f.ack % 2 ^ 16 * 2 ^ 32 + f.seq % 2 ^ 16 * 2 ^ 48

/-- The 256 bytes of a flit. -/
def Flit.bytes (f : Flit) : List Byte :=
  let body := leBytes 8 f.header ++ f.payload ++ List.replicate (payloadBytes - f.payload.length) 0 ++ List.replicate 4 0
  body ++ leBytes 4 (crc32c body)

/-- The flit that bytes hold; none where it is damaged: a bad CRC, a reserved value, a reserved field that is not zero. -/
def Flit.parse (bs : List Byte) : Option Flit :=
  let h := leNat (bs.take 8)
  let f : Flit :=
    { kind := bits h 7 0, nfmt := bits h 19 16, chan := bits h 22 20, coded := bit h 23, elems := bits h 31 24,
      ack := bits h 47 32, seq := bits h 63 48, payload := (bs.drop 8).take payloadBytes }
  if bs.length = 256 && leNat (bs.drop 252) == crc32c (bs.take 252) && bits h 15 8 == 0 && leNat ((bs.drop 248).take 4) == 0 &&
      f.kind ≤ 4 && f.nfmt ≤ 3 && (f.nfmt != 0 || f.elems ≤ payloadBytes) then some f
  else none

/-- A control flit of a port. -/
def Port.control (p : Port) (kind : Nat) (payload : List Byte) : Flit :=
  { kind := kind, nfmt := 0, chan := 0, coded := false, elems := payload.length, ack := p.rxSeq, seq := 0, payload := payload }

/-! ### Exponent coding (R300) -/

/-- Bits of the exponent and of the mantissa of a number format of a flit, 1 to 3. -/
def expBits (nfmt : Nat) : Nat := if nfmt = 3 then 5 else 8
def manBits (nfmt : Nat) : Nat := if nfmt = 1 then 23 else if nfmt = 2 then 7 else 10
/-- Bytes of an element. -/
def elemBytes (nfmt : Nat) : Nat := if nfmt = 1 then 4 else 2

/-- The counts of a table, all 0 at its reset. -/
def tableOf (nfmt key : Nat) (m : List (Nat × List Nat)) : List Nat := (assoc key m).getD (List.replicate (2 ^ expBits nfmt) 0)
/-- The key of a channel's table for a format. -/
def tableKey (chan nfmt : Nat) : Nat := chan * 4 + nfmt

/-- The rank of an exponent value: by descending count, ties to the lower value. -/
def rankOf (counts : List Nat) (e : Nat) : Nat :=
  let c := counts.getD e 0
  ((List.range counts.length).filter fun k => decide (c < counts.getD k 0) || (counts.getD k 0 == c && decide (k < e))).length

/-- The value of a rank. -/
def valueOf (counts : List Nat) (r : Nat) : Nat := ((List.range counts.length).find? fun e => rankOf counts e == r).getD 0

/-- One exponent is added to the counts, which halve before one of them would pass 65,535. -/
def countExp (counts : List Nat) (e : Nat) : List Nat :=
  let counts := if counts.getD e 0 = 65535 then counts.map (· / 2) else counts
  counts.set e (counts.getD e 0 + 1)

/-- The exponent of an element. -/
def expOf (nfmt x : Nat) : Nat := x / 2 ^ manBits nfmt % 2 ^ expBits nfmt

/-- The low n bits of a number, lowest first. -/
def lowBits (n x : Nat) : List Bool := (List.range n).map (bit x)
/-- The number that bits spell, lowest first. -/
def ofBits : List Bool → Nat
  | [] => 0
  | b :: bs => b2n b + 2 * ofBits bs

/-- An element in coded form: sign, exponent code, mantissa. -/
def codeElem (nfmt : Nat) (counts : List Nat) (x : Nat) : List Bool :=
  let e := expOf nfmt x
  let k := rankOf counts e
  let code := if k < 4 then false :: lowBits 2 k else if k < 20 then true :: false :: lowBits 4 (k - 4) else true :: true :: lowBits (expBits nfmt) e
  bit x (expBits nfmt + manBits nfmt) :: (code ++ lowBits (manBits nfmt) x)

/-- The elements that fit into a flit's payload in coded form, and their bits. -/
def fitCoded (nfmt : Nat) (counts : List Nat) : Nat → List Nat → Nat × List Bool
  | _, [] => (0, [])
  | room, x :: xs =>
    let b := codeElem nfmt counts x
    if room < b.length then (0, [])
    else
      let r := fitCoded nfmt counts (room - b.length) xs
      (r.1 + 1, b ++ r.2)

/-- Bits packed into bytes from bit 0 upward. -/
def packBits (bs : List Bool) : List Byte := (chunks 8 (bs.length + 1) bs).map fun l => BitVec.ofNat 8 (ofBits l)
/-- The bits of bytes. -/
def unpackBits (bs : List Byte) : List Bool := bs.flatMap fun b => lowBits 8 b.toNat

/-- The exponent that a code names, and the bits after it. -/
def takeExp (nfmt : Nat) (counts : List Nat) (b : List Bool) : Nat × List Bool :=
  match b with
  | false :: rest => (valueOf counts (ofBits (rest.take 2)), rest.drop 2)
  | true :: false :: rest => (valueOf counts (ofBits (rest.take 4) + 4), rest.drop 4)
  | true :: true :: rest => (ofBits (rest.take (expBits nfmt)), rest.drop (expBits nfmt))
  | _ => (0, [])

/-- n elements of coded form. -/
def takeElems (nfmt : Nat) (counts : List Nat) : Nat → List Bool → List Nat
  | 0, _ => []
  | n + 1, b =>
    let r := takeExp nfmt counts (b.drop 1)
    let m := ofBits (r.2.take (manBits nfmt))
    (m + r.1 * 2 ^ manBits nfmt + b2n (b.headD false) * 2 ^ (expBits nfmt + manBits nfmt)) ::
      takeElems nfmt counts n (r.2.drop (manBits nfmt))

/-- The elements of a received numeric flit. -/
def Flit.elements (f : Flit) (counts : List Nat) : List Nat :=
  if f.coded then takeElems f.nfmt counts f.elems (unpackBits f.payload)
  else (chunks (elemBytes f.nfmt) f.elems f.payload).map leNat

/-! ### Sending (R299, R300) -/

/-- One more data flit of a port, from the front of a payload: coded where that carries at least as many elements; the port with
the flit in its replay buffer, the flit, and the payload left. -/
def Port.sendOne (p : Port) (cmd : Option Nat) (chan nfmt : Nat) (raw : List Byte) : Port × Sent × List Byte :=
  let seq := (p.txSeq + 1) % 2 ^ 16
  let key := tableKey chan nfmt
  let counts := tableOf nfmt key p.encode
  let xs := (chunks (elemBytes nfmt) (raw.length + 1) raw).map leNat
  let fit := fitCoded nfmt counts (8 * payloadBytes) xs
  let whole := min xs.length (payloadBytes / elemBytes nfmt)
  let coded := nfmt != 0 && decide (whole ≤ fit.1)
  let n := if nfmt = 0 then min raw.length payloadBytes else elemBytes nfmt * (if coded then fit.1 else whole)
  let elems := if nfmt = 0 then n else n / elemBytes nfmt
  let f : Flit := { kind := 1, nfmt := nfmt, chan := chan, coded := coded, elems := elems, ack := p.rxSeq, seq := seq,
                    payload := if coded then packBits fit.2 else raw.take n }
  let sent : Sent := { seq := seq, cmd := cmd, chan := chan, nfmt := nfmt, raw := raw.take n, flit := f.bytes }
  let encode := if nfmt = 0 then p.encode else assocSet key ((xs.take elems).foldl (fun c x => countExp c (expOf nfmt x)) counts) p.encode
  ({ p with txSeq := seq, replay := p.replay ++ [sent], encode := encode }, sent, raw.drop n)

/-- A payload sent in as many flits as it takes; `fuel` bounds them. -/
def Port.sendAll (cmd : Option Nat) (chan nfmt : Nat) : Nat → Port → List Byte → Port
  | 0, p, _ => p
  | fuel + 1, p, raw =>
    if raw.isEmpty then p
    else
      let r := p.sendOne cmd chan nfmt raw
      Port.sendAll cmd chan nfmt fuel r.1 r.2.2

/-- As much of a payload sent as the replay buffer of 512 flits takes: the port and what is left; `fuel` bounds the flits
(R299). -/
def Port.sendSome (cmd : Option Nat) (nfmt : Nat) : Nat → Port → List Byte → Port × List Byte
  | 0, p, raw => (p, raw)
  | fuel + 1, p, raw =>
    if raw.isEmpty || p.retraining || decide (512 ≤ p.replay.length) then (p, raw)
    else
      let r := p.sendOne cmd 0 nfmt raw
      Port.sendSome cmd nfmt fuel r.1 r.2.2

/-- The flits from the first not acknowledged are sent once more, each as it was sent. -/
def resent (port : Nat) (p : Port) : List Output := p.replay.map fun x => .flit port x.flit

/-- Flits up to an acknowledged one leave the replay buffer. -/
def ackedReplay (ack : Nat) (l : List Sent) : List Sent :=
  if l.any fun x => x.seq == ack then (l.dropWhile fun x => x.seq != ack).drop 1 else l

/-- A port takes an acknowledgement. -/
def Port.acked (p : Port) (ack time : Nat) : Port :=
  let l := ackedReplay ack p.replay
  if l.length < p.replay.length then { p with replay := l, resends := 0, since := time } else p

/-- A port resets its tables and codes every flit that is not acknowledged anew (R299). -/
def Port.retrained (p : Port) : Port :=
  let q := { p with
    txSeq := match p.replay with
      | x :: _ => (x.seq + 2 ^ 16 - 1) % 2 ^ 16
      | [] => p.txSeq
    replay := [], encode := [], decode := [] }
  p.replay.foldl (fun q x => Port.sendAll x.cmd x.chan x.nfmt (x.raw.length + 1) q x.raw) q

def State.port (s : State) (n : Nat) : Port := nth s.ports n Port.fresh
def State.setPort (s : State) (n : Nat) (p : Port) : State := { s with ports := put s.ports n p }

/-- The port on the way to a package: the first of the order that is not lost (R376). -/
def State.routePort (s : State) (pkg : Nat) : Option Nat :=
  ((List.range 16).map fun k => (Config.route pkg + k) % 16).find? fun n => !(s.port n).lost

/-- Room for a payload in the replay buffer of 512 flits of a port that is up. -/
def Port.hasRoom (p : Port) (bytes : Nat) : Bool := !p.retraining && decide (p.replay.length + ceilDiv bytes payloadBytes ≤ 512)

/-- A port has sent the flits by which its replay buffer has grown. -/
def State.sentFrom (s : State) (port : Nat) (q : Port) : State :=
  let p := s.port port
  let q := if p.replay.isEmpty then { q with since := s.time } else q
  { s.setPort port q with out := s.out ++ (q.replay.drop p.replay.length).map fun x => .flit port x.flit }

/-- Bytes for another package leave on a port as data flits of a command; the address they are for goes with them (log 28). -/
def State.sendRemote (s : State) (port : Nat) (cmd : Option Nat) (ctx pkg va : Nat) (bs : List Byte) : State :=
  ({ s with out := s.out ++ [.remoteWrite pkg va ctx bs] } : State).sentFrom port (Port.sendAll cmd 0 0 (bs.length + 1) (s.port port) bs)

/-- Messages leave as far as their ports' replay buffers take them, until one finds no port that is not lost: the messages left, none
where a port is lost (R299, R376). -/
def State.sendOut (s : State) (cmd : Nat) : List Outgoing → State × Option (List Outgoing)
  | [] => (s, some [])
  | m :: rest => match s.routePort m.pkg with
    | none => (s, none)
    | some n =>
      let r := Port.sendSome (some cmd) m.nfmt (m.bytes.length + 1) (s.port n) m.bytes
      let x := (s.sentFrom n r.1).sendOut cmd rest
      (x.1, x.2.map fun l => if r.2.isEmpty then l else { m with bytes := r.2 } :: l)

/-- A command has flits that are not acknowledged. -/
def State.flitsOut (s : State) (id : Nat) : Bool := s.ports.toList.any fun p => p.replay.any fun x => x.cmd == some id

end Sys2Proof.Machine
end

