-- ==== Sys2Proof/Machine/Splat.lean ====
section
/-! DEFINITION. The splat, record and decode instructions (spec/10_splat_pipeline.md R264 to R272) and the record queues that
EMIT writes (R245, R246). -/

namespace Sys2Proof.Machine

/-! ### FP32 steps, each rounded to nearest even (R264) -/

/-- A value rounded to FP32. -/
def r32 (x : Num) : Num := num32 (rne32 x)
/-- The canonical NaN in place of any NaN code. -/
def canon (w : Nat) : Nat := if (num32 w).isNan then 0x7FC00000 else w
/-- x < y for numbers; false where one is NaN. -/
def Num.below (x y : Num) : Bool := x.cmp y == some .lt

/-! ### Splat records (R250, R266, R272) -/

/-- The bytes of the splat record at a shared offset of the instruction in hand, as a number, or the fault they meet. -/
def Ctx.splat (c : Ctx) (s : State) (o : Nat) : Except Nat Nat :=
  if o % 32 != 0 then .error codeADDRBAD
  else match (List.range 32).mapM fun i => sharedKey c.t (onSecond c.t c.g) (o + i) with
    | none => .error codeADDRBAD
    | some ks =>
      let x := leNat (s.peek ks)
      if bits x 255 224 != 0 then .error codeDECODE else .ok x

/-- FP16 field of a record at bit lo, widened exactly. -/
def wide16 (x lo : Nat) : Num := fp16.decode (bits x (lo + 15) lo)

/-- A fault of the lanes whose record meets the same one as the lowest that meets any; `off`: each lane's offset. -/
def Ctx.splatFault (c : Ctx) (s : State) (lanes : List Nat) (off : Nat → Nat) : Option FaultInfo :=
  let bad := lanes.filterMap fun l => match c.splat s (off l) with
    | .error code => some (l, code)
    | .ok _ => none
  match bad with
  | [] => none
  | (_, code) :: _ =>
    let info := c.fault code (maskOf fun l => bad.contains (l, code))
    some (if code = codeADDRBAD then info.atAddr off else info)

/-! ### GSW (R266) -/

/-- α and the unclamped Gaussian of a record at a pixel. -/
def gswAt (x : Nat) (px py : Num) : Nat × Nat :=
  let dx := r32 (sumOf .rne [px, (num32 (bits x 31 0)).negate])
  let dy := r32 (sumOf .rne [py, (num32 (bits x 63 32)).negate])
  let e := r32 (((wide16 x 80).scale2 1).mul dy)
  let g := r32 (sumOf .rne [(wide16 x 64).mul dx, e])
  let k := r32 ((wide16 x 96).mul dy)
  let q := r32 (sumOf .rne [k.mul dy, r32 (g.mul dx)])
  if q.isNan || q.below (.fin false 0 0) then (0, 0)
  else
    let g2 := ex2 (rne32 (q.mul (num32 0xBF38AA3B)))
    let al := rne32 ((wide16 x 112).mul (num32 g2))
    let v := num32 al
    let al := if v.isNan || ((Num.fin false 255 0).mul v).below (.fin false 1 0) then 0
      else if (num32 0x3F7F0000).below v then 0x3F7F0000 else al
    (al, g2)

/-- GSW. -/
def execGsw (f : Fields) (s : State) : Res :=
  let n := subN f + 1
  begin_ (.gsw f) f s fun c s => gate c s (claimed c n) fun s =>
    let o := (lowWord (c.g.scalar .unsigned f.a)).toNat
    match c.splatFault s (lanesOf c.act) (fun _ => o), c.splat s o with
    | some info, _ => .next (s.raise c info)
    | none, .error code => .next (s.raise c (c.fault code c.act))
    | none, .ok x =>
      let out : Lanes LaneOut := tab 32 fun l =>
        let r := gswAt x (num32 ((c.g.word .unsigned f.b 0).at l).toNat) (num32 ((c.g.word .unsigned f.b 1).at l).toNat)
        { w := [BitVec.ofNat 32 r.1, BitVec.ofNat 32 r.2] }
      .next ((s.modGroup c.who.team c.who.group fun g => g.putLanes f.d n c.act (fun _ => .general) out).advance c.who)

/-! ### BLEND and UNBLEND (R267, R268) -/

/-- One splat composited under a pixel: the state block (C0, C1, C2, T, N), and whether the pixel terminates. -/
def blendAt (st : List W32) (al : Num) (col : List Num) : List W32 × Bool :=
  let v := fun (i : Nat) => num32 (st.getD i 0).toNat
  let n := st.getD 4 0 + 1
  if al.isZero then ([st.getD 0 0, st.getD 1 0, st.getD 2 0, st.getD 3 0, n], (v 3).below (.fin false 1 (-8)))
  else
    let w := r32 ((v 3).mul al)
    let ch := (List.range 3).map fun i => BitVec.ofNat 32 (rne32 (sumOf .rne [w.mul (col.getD i .nan), v i]))
    let t := rne32 ((v 3).mul (r32 (sumOf .rne [.fin false 1 0, al.negate])))
    (ch ++ [BitVec.ofNat 32 t, n], (num32 t).below (.fin false 1 (-8)))

/-- Word j of a V block in a lane as an FP32 value. -/
def Ctx.f32 (c : Ctx) (o : Opnd) (j l : Nat) : Num := num32 ((c.g.word .unsigned o j).at l).toNat

/-- BLEND. -/
def execBlend (f : Fields) (s : State) : Res :=
  begin_ (.blend f) f s fun c s =>
    let live := c.act &&& c.g.predOf f.c
    gate c s (c.g.claim f.d 5 live).generals fun s =>
      let r := fun (l : Nat) => blendAt ((List.range 5).map fun j => (c.g.word .unsigned f.d j).at l) (c.f32 f.a 0 l)
        ((List.range 3).map fun j => c.f32 f.b j l)
      let out : Lanes LaneOut := tab 32 fun l => { w := (r l).1 }
      let ended := maskOf fun l => (r l).2
      .next ((s.modGroup c.who.team c.who.group fun g =>
        let g := g.putLanes f.d 5 live (fun _ => .general) out
        match f.c with
        | .p n => g.putP n.val (live &&& ended) 0
        | _ => g).advance c.who)

/-- One step back to front: the terms, and the state block where it changes. -/
def unblendAt (st : List W32) (al : Num) (col : List Num) : List W32 × Option (List W32) :=
  let v := fun (i : Nat) => num32 (st.getD i 0).toNat
  if al.isZero then ([0, 0, 0, 0], none)
  else
    let om := r32 (sumOf .rne [.fin false 1 0, al.negate])
    let scaled := fun (x : Num) => num32 (divideFlt .rne false 0 x om).code
    let tb := (divideFlt .rne false 0 (v 3) om).code
    let w := rne32 ((num32 tb).mul al)
    let term := fun (k : Nat) => rne32 (sumOf .rne [(num32 tb).mul (col.getD k .nan), (scaled (v k)).negate])
    let next := fun (k : Nat) => rne32 (sumOf .rne [(num32 w).mul (col.getD k .nan), v k])
    ((List.range 3).map (fun k => BitVec.ofNat 32 (term k)) ++ [BitVec.ofNat 32 w],
      some ((List.range 3).map (fun k => BitVec.ofNat 32 (next k)) ++ [BitVec.ofNat 32 tb]))

/-- UNBLEND: the terms into D, and the state into A where α is not zero. A permutation on A acts on the read alone: lane l's state is
read through it and written to lane l (R18, R268; log 74). -/
def execUnblend (f : Fields) (s : State) : Res :=
  begin_ (.unblend f) f s fun c s =>
    let r := fun (l : Nat) => unblendAt ((List.range 4).map fun j => (c.g.word .unsigned f.a j).at l) (c.f32 f.b 0 l)
      ((List.range 3).map fun j => c.f32 f.c j l)
    let step := c.act &&& maskOf fun l => (r l).2.isSome
    gate c s ((c.g.claim f.d 4 c.act).claim f.a 4 step).generals fun s =>
      let terms : Lanes LaneOut := tab 32 fun l => { w := (r l).1 }
      let state : Lanes LaneOut := tab 32 fun l => { w := (r l).2.getD [] }
      .next ((s.modGroup c.who.team c.who.group fun g =>
        let g := (g.putLanes f.d 4 c.act (fun _ => .general) terms).putLanes f.a 4 step (fun _ => .general) state
        if step != 0 && spansMeet (spanOf (uV 4) f.a) g.latchSpan then { g with latch := none } else g).advance c.who)

/-! ### MASKPK, MASKUN, DECODE (R270 to R272) -/

/-- The bit of MASKPK. -/
def maskBit (sub : Nat) (w : Nat) : Bool :=
  match sub with
  | 0 => bit w 31
  | 1 => (Num.fin false 0 0).below (num32 w)
  | _ => w % 2 ^ 31 != 0

/-- MASKPK. -/
def execMaskpk (f : Fields) (s : State) : Res :=
  registers (.maskpk f) f s fun c => c.write 1 .general false 0 fun l =>
    { w := [maskOf fun i => maskBit (subN f) ((c.g.word .unsigned f.a i).at l).toNat] }

/-- The value of MASKUN. -/
def maskWord (sub : Nat) (set : Bool) (x : W32) : W32 :=
  match sub with
  | 0 => if set then x else 0
  | 1 => if set then 0 else x
  | _ => BitVec.ofNat 32 (x.toNat % 2 ^ 31 + (if set then 2 ^ 31 else 0))

/-- MASKUN. -/
def execMaskun (f : Fields) (s : State) : Res :=
  registers (.maskun f) f s fun c => c.write 32 .general false 0 fun l =>
    let m := (c.g.word .unsigned f.a 0).at l
    { w := (List.range 32).map fun i => maskWord (subN f) (m.getLsbD i) ((c.g.word .unsigned f.b i).at l) }

/-- The words of DECODE.GEO, DECODE.ID and DECODE.KEY. -/
def decodeWords (sub x : Nat) : List W32 :=
  (match sub with
    | 0 => [canon (bits x 31 0), canon (bits x 63 32)] ++ [64, 80, 96, 112, 128].map (fun lo => rne32 (wide16 x lo)) ++
        [canon (bits x 191 160)]
    | 1 => [bits x 159 144, bits x 223 192]
    | _ => [bits x 63 56, bits x 55 32, bits x 31 0]).map fun n => BitVec.ofNat 32 n

/-- Registers that DECODE writes. -/
def decodeRegs (sub : Nat) : Nat := if sub = 0 then 8 else if sub = 1 then 2 else 3

/-- DECODE. -/
def execDecode (f : Fields) (s : State) : Res :=
  let sub := subN f
  let n := decodeRegs sub
  begin_ (.decode f) f s fun c s => gate c s (if f.scope = .group then 0 else claimed c n) fun s =>
    let lanes := if f.scope = .group then [c.designated] else lanesOf c.act
    let off := fun (l : Nat) => match f.a with
      | .s _ => (lowWord (c.g.scalar .unsigned f.a)).toNat
      | _ => ((c.g.word .unsigned f.a 0).at l).toNat
    match (if sub = 2 then none else c.splatFault s lanes off) with
    | some info => .next (s.raise c info)
    | none =>
      let words := fun (l : Nat) =>
        if sub = 2 then decodeWords 2 (((c.g.word .unsigned f.a 1).at l).toNat * 2 ^ 32 + ((c.g.word .unsigned f.a 0).at l).toNat)
        else match c.splat s (off l) with
          | .ok x => decodeWords sub x
          | .error _ => []
      .next ((s.modGroup c.who.team c.who.group fun g =>
        if f.scope = .group then g.putGroup f.d false { w := words c.designated }
        else g.putLanes f.d n c.act (fun _ => .general) (tab 32 fun l => { w := words l })).advance c.who)

/-! ### Record queues (R245, R246) -/

/-- Byte offsets of the counters of a queue header. -/
def queueRESV : Nat := 16
def queueCOMMIT : Nat := 24
def queueDISP : Nat := 32
def queueSTALLS : Nat := 40

def State.graph? (s : State) (seq : Nat) : Option Graph := s.graphs.find? fun g => g.seq == seq
def State.modGraph (s : State) (seq : Nat) (h : Graph → Graph) : State :=
  { s with graphs := updateFirst (fun g => g.seq == seq) h s.graphs }
/-- Edge number i of a graph changes. -/
def State.modEdge (s : State) (seq i : Nat) (h : Edge → Edge) : State :=
  s.modGraph seq fun g => { g with edges := match g.edges[i]? with
    | some e => g.edges.set i (h e)
    | none => g.edges }

/-- Node number i of a graph changes. -/
def State.modNode (s : State) (seq i : Nat) (h : Node → Node) : State :=
  s.modGraph seq fun g => { g with nodes := match g.nodes[i]? with
    | some n => g.nodes.set i (h n)
    | none => g.nodes }

/-- A 64-bit counter of a header whose places are given. -/
def State.headerGet (s : State) (hs : List Spot) (off : Nat) : Nat := leNat (s.readSpots ((hs.drop off).take 8))

/-- A counter of a header written by the device. -/
def State.headerSet (s : State) (ctx : Nat) (hs : List Spot) (off x : Nat) : State :=
  s.writeSpots ctx ((hs.drop off).take 8) (leBytes 8 x)

/-! ### EMIT (R269) -/

/-- Output edge k of a node, with its number among the graph's edges. -/
def Graph.outEdge (g : Graph) (node k : Nat) : Option (Nat × Edge) :=
  (((List.range g.edges.length).zip g.edges).filter fun x => x.2.src == node)[k]?

/-- The edge that an EMIT in hand names. -/
def Ctx.emitEdge (c : Ctx) (s : State) : Option (Nat × Nat × Edge) :=
  match c.t.origin with
  | .node seq node =>
    let k := (c.g.scalar .unsigned c.f.a).toNat
    if 8 ≤ k then none else (s.graph? seq).bind fun g => (g.outEdge node k).map fun x => (seq, x.1, x.2)
  | _ => none

/-- The splits that were to write a reservation give it up: its positions stay reserved and unwritten. -/
def State.abandon (s : State) (seq i : Nat) (who : Who) : State :=
  s.modEdge seq i fun e => { e with pending := e.pending.map fun r => if r.owner == some who then { r with owner := none } else r }

/-- The records of an EMIT written at their positions. -/
def State.emitAt (s : State) (c : Ctx) (seq i : Nat) (e : Edge) (first : Nat) : Res :=
  let lanes := (lanesOf c.act).zip (List.range 32)
  let addr := fun (l : Nat) => e.base + (first + ((lanes.find? fun x => x.1 == l).map Prod.snd).getD 0) * e.rsize
  let r := (lanesOf c.act).foldl (fun (r : State × List (Nat × Except MemFault (List Spot))) l =>
    let x := r.1.reach c.g.core c.t.ctx (BitVec.ofNat 64 (addr l)) e.rsize .write
    (x.1, r.2 ++ [(l, x.2)])) (s, [])
  match sortLanes c addr r.2 with
  | .fault info => .next ((r.1.abandon seq i c.who).raise c info)
  | .check code key => .next (r.1.machineCheck c.g.core c.t.ctx code key)
  | .busy w => .next (r.1.block c.who (.resource w))
  | .xlate mask vas => .next (r.1.waitXlate c mask vas 1)
  | .ok l =>
    let s := r.1
    let spots := l.flatMap Prod.snd
    match s.accessStall c true spots with
      | some r => .next (s.block c.who (.resource r))
      | none => checked c s (s.writeCheck spots) fun s =>
        let bs := (lanesOf c.act).flatMap fun l =>
          (List.range (e.rsize / 4)).flatMap fun w => leBytes 4 ((c.g.word .unsigned c.f.b w).at l).toNat
        let s := (s.issued c).writeSpots c.t.ctx spots bs
        let done := fun (r : Reserved) => if r.owner == some c.who then { r with written := true, owner := none } else r
        let s := s.modEdge seq i fun e => { e with pending := e.pending.map done }
        .next ((s.modGroup c.who.team c.who.group fun g => g.await (s.servedBy spots)).advance c.who)

/-- The registers of an EMIT's record. -/
def emitSpan (f : Fields) (e : Edge) : List Span :=
  match f.b with
  | .v n _ => [{ kind := 0, first := n.val, len := e.rsize / 4 }]
  | _ => []

/-- The reservation of an EMIT, and its records. -/
def State.emitOn (s : State) (c : Ctx) (seq i : Nat) (e : Edge) : Res :=
  match s.reach c.g.core c.t.ctx (BitVec.ofNat 64 e.queue) 64 .readWrite with
  | (s, .error (.xlate va)) => .next (s.raiseXlate c c.act 1 va)
  | (s, .error (.check code key)) => .next (s.machineCheck c.g.core c.t.ctx code key)
  | (s, .error (.busy r)) => .next (s.block c.who (.resource r))
  | (s, .error (.prog code aux)) =>
    .next ((s.abandon seq i c.who).raise c { ((c.fault code c.act).atAddr fun _ => e.queue) with aux := aux, addr := e.queue })
  | (s, .error .fenced) => .next ((s.abandon seq i c.who).raise c ((c.fault codeTILEFENCED c.act).atAddr fun _ => e.queue))
  | (s, .ok hs) =>
    match s.accessStall c true hs with
    | some r => .next (s.block c.who (.resource r))
    | none => checked c s (s.writeCheck hs) fun s =>
      let s := s.beforeRead c.t.ctx c.g.core false hs
      match e.pending.find? fun r => r.owner == some c.who with
      | some r => s.emitAt c seq i e r.first
      | none =>
        let resv := s.headerGet hs queueRESV
        let k := (lanesOf c.act).length
        if e.cap < resv + k then
          .next ((s.headerSet c.t.ctx hs queueSTALLS (s.headerGet hs queueSTALLS + 1)).block c.who .emit)
        else
          let r : Reserved := { first := resv, count := k, written := false, owner := some c.who }
          ((s.headerSet c.t.ctx hs queueRESV (resv + k)).modEdge seq i fun e => { e with pending := e.pending ++ [r] }).emitAt
            c seq i e resv

/-- EMIT: a release, which waits for earlier accesses of the matrix engine for the group (R249, R269; log 19). -/
def execEmit (f : Fields) (s : State) : Res :=
  attempt (.emit f) f s fun c s => gateLate c s 0 fun s =>
    match c.emitEdge s with
    | none => .next (s.raise c (c.fault codeRECORDQ c.act))
    | some (seq, i, e) =>
      let blk := emitSpan f e
      if (blk.any fun x => decide (256 < x.first + x.len)) then .next (s.raise c (c.fault codeRECORDQ c.act))
      else if spansMeet (c.sp.windows.flatMap (·.regs)) blk then .next (s.raise c (c.fault codeLOOKAHEAD c.act))
      else if spansMeet (s.pendingSpans c.who.team c.g) blk then .next (s.block c.who (.depend (.emit f)))
      else if s.matrixOwes c.who.team c.who.group then .next (s.block c.who (.resource .acks))
      else match s.pieceStall c.who.team c.who.group with
        | some r => .next (s.block c.who (.resource r))
        | none => (s.settlePieces c.who.team c.who.group).emitOn c seq i e

end Sys2Proof.Machine
end

