-- ==== Sys2Proof/Machine/EngineWork.lean ====
section
/-! DEFINITION. What every engine command shares (spec/03_core_memory_and_engines.md R68 to R75; spec/02 R52; spec/14 R431): its
end with its event, its fault in the issuing group or in its command, the lines it owns; and the moves of the copy and gather
engines (R76 to R78, R115). -/

namespace Sys2Proof.Machine

/-! ### Commands -/

def State.command? (s : State) (id : Nat) : Option Command := s.commands.find? fun c => c.id == id
def State.modCommand (s : State) (id : Nat) (f : Command → Command) : State :=
  { s with commands := updateFirst (fun c => c.id == id) f s.commands }

/-- The core in whose name a command's accesses translate: its own, or its die's walker tile. -/
def State.commandCore (s : State) (c : Command) : Nat := if c.eng < 3 then c.place else s.walkerTile c.place

/-- The team of a command, resident or saved. -/
def State.anyTeam (s : State) (id : Nat) : Option Team :=
  match s.team? id with
  | some t => some t
  | none => (s.saved.find? fun x => x.id == id).map (·.team)

/-- A team changes where it stands, resident or saved. -/
def State.modAnyTeam (s : State) (id : Nat) (f : Team → Team) : State :=
  let g := fun (x : SavedTeam) => { x with team := f x.team }
  { s.modTeam id f with saved := updateFirst (fun (x : SavedTeam) => x.id == id) g s.saved }

/-! ### Records of work that no group issues (R431, R433) -/

/-- The fields of R431 and R433: no core, group, team or split. -/
def looseRecord (seq code addr aux : Nat) : Record :=
  { cseq := seq, addr := addr, aux := aux, code := code, cls := classOf code }

/-- The journal sequence number of a command. -/
def State.commandSeq (s : State) (c : Command) : Nat :=
  match c.owner, c.job, c.node with
  | some (t, _), _, _ => ((s.anyTeam t).map (·.seq)).getD 0
  | none, some q, _ => q
  | none, none, some (q, _) => q
  | none, none, none => 0

/-- A command waits for the translation of a virtual address, with its record (R45, R431). -/
def State.commandXlate (s : State) (c : Command) (addr : Nat) : State :=
  let r := match c.owner with
    | some (t, g) => match s.anyTeam t with
      | some tm => match tm.group? g with
        | some gr => groupRecord tm gr { splitFault (handlerSplit c.pc 0) 0xFF codeXLATE 1 with addr := addr, aux := 3 } 0xFF 0
        | none => looseRecord (s.commandSeq c) codeXLATE addr 3
      | none => looseRecord (s.commandSeq c) codeXLATE addr 3
    | none => looseRecord (s.commandSeq c) codeXLATE addr 3
  (s.postXlate c.ctx r).modCommand c.id fun x => { x with xlate := some (c.ctx, addr / 65536) }

/-! ### The end of a command (R68, R70, R72, R73) -/

/-- Engine faults stand in order of issue. -/
def insertFault (e : EngineFault) : List EngineFault → List EngineFault
  | [] => [e]
  | x :: xs => if e.order < x.order then e :: x :: xs else x :: insertFault e xs

/-- A fault of a command joins its group; a group that has ended gets its record, and its exit status where it has none, at
once (R70). -/
def State.chargeCommand (s : State) (team group : Nat) (e : EngineFault) : State :=
  match (s.anyTeam team).bind fun t => (t.group? group).map fun g => (t, g) with
  | none => s
  | some (t, g) =>
    if !g.ended then s.modAnyTeam team fun t => t.modGroup group fun g => { g with engineFaults := insertFault e g.engineFaults }
    else
      let w := exitWord e.code 0xFF group
      let first := g.exst.isNone
      let s := s.post t.ctx (engineRecord t g e (if first then w else 0))
      if first then
        (s.modAnyTeam team fun t => t.modGroup group fun g => { g with exst := some (BitVec.ofNat 32 w) }).countFault t
      else s

/-- The record of engine work that no group issues goes to its context: of a SORTBAD in the counting pass AUX is the key's index
(R431), and that of a machine check has the check's own fields. -/
def State.postLoose (s : State) (c : Command) (seq aux0 high code addr : Nat) : State :=
  s.post c.ctx (if isSectorCheck code then s.looseCheck c.ctx seq code addr
    else looseRecord seq code addr (if code = codeSORTBAD ∧ high = 0x10 then aux0 else code + high * 256))

/-- A command ends: its event, its fault, and the lines it still owns go (R52, R68, R70, R431). `aux0`: the event's AUX0;
`high`: AUX1 bits 63:8; `addr`: the faulting address. -/
def State.finishCommand (s : State) (c : Command) (status aux0 high code addr : Nat) : State :=
  let s := { s with commands := s.commands.filter fun x => x.id != c.id }
  let aux1 := code + high * 256
  match c.owner with
  | some (t, g) =>
    let s := s.postLater c status aux0 aux1
    let s := if status = 2 then
        s.chargeCommand t g { batch := c.batch, order := c.id, code := code, pc := c.pc, addr := addr, aux := aux1, scope := 1 }
      else s
    s.reap t
  | none =>
    match c.job with
    | some seq =>
      if status = 2 then (s.postLoose c seq aux0 high code addr).endJob seq 4 else s.endJob seq 0
    | none =>
      match c.node with
      | some (seq, node) =>
        if status = 2 then (s.postLoose c seq aux0 high code addr).modNode seq node fun n => { n with failed := true } else s
      | none => s

/-- A command ends by a fault at an address, which its event's AUX0 carries. -/
def State.failCommand (s : State) (c : Command) (code addr high : Nat) : State := s.finishCommand c 2 addr high code addr

/-- A machine check that a command's access meets at a key: it ends the command with its event and halts the core of the group
that issued it; work that no group issues, or whose team is saved, ends by its fault and halts nothing (R57, R58, R363, R431). -/
def State.checkCommand (s : State) (c : Command) (code key high : Nat) : State :=
  match c.owner.bind fun o => s.group? o.1 o.2 with
  | some g =>
    let s := { s with commands := s.commands.filter fun x => x.id != c.id }.postLater c 2 key (code + high * 256)
    s.machineCheck g.core c.ctx code key
  | none => s.failCommand c code key high

/-! ### Ends of a move -/

/-- One end of a run of bytes: a global address, a shared offset, or zeros. -/
inductive Wend where
  | glob (a : W64)
  | shared (o : Nat)
  | zero
  deriving DecidableEq, Repr

/-- A run of n bytes. -/
structure Haul where
  dst : Wend
  src : Wend
  n : Nat
  deriving DecidableEq, Repr

def Wend.plus (e : Wend) (k : Nat) : Wend :=
  match e with
  | .glob a => .glob (a + BitVec.ofNat 64 k)
  | .shared o => .shared (o + k)
  | .zero => .zero

/-- The end as a number. -/
def Wend.addr (e : Wend) : Nat :=
  match e with
  | .glob a => a.toNat
  | .shared o => o
  | .zero => 0

/-- Bytes up to the next 4 KiB boundary of an end. -/
def Wend.room (e : Wend) : Nat := 4096 - e.addr % 4096

/-- A run without its first k bytes. -/
def Haul.drop (r : Haul) (k : Nat) : Haul := { dst := r.dst.plus k, src := r.src.plus k, n := r.n - k }

/-- Bytes that a run moves at once: up to the next 4 KiB boundary of either end. -/
def Haul.span (r : Haul) : Nat := if r.src = .zero then r.dst.room else min r.dst.room r.src.room

/-- A run cut where either end meets a 4 KiB boundary. -/
def cutRun : Nat → Haul → List Haul
  | 0, _ => []
  | fuel + 1, r =>
    if r.n = 0 then []
    else
      let k := min r.n r.span
      { r with n := k } :: cutRun fuel (r.drop k)

/-- Runs without their first k bytes. -/
def dropRuns : List Haul → Nat → List Haul
  | [], _ => []
  | r :: rest, k => if r.n ≤ k then dropRuns rest (k - r.n) else r.drop k :: rest

/-! ### Shape records (R76, R77) -/

/-- The fields of a shape record. -/
structure ShapeRec where
  swz : Nat
  oob : Nat
  es : Nat
  stride2 : Nat
  stride1 : Nat
  box2 : Nat
  box1 : Nat
  box0 : Nat
  size2 : Nat
  size1 : Nat
  size0 : Nat
  base : Nat
  reserved : Nat
  deriving DecidableEq, Repr

def ShapeRec.ofNat (x : Nat) : ShapeRec :=
  { swz := bits x 253 252, oob := bits x 251 250, es := 2 ^ bits x 249 248, stride2 := bits x 247 208, stride1 := bits x 207 168,
    box2 := bits x 167 160, box1 := bits x 159 152, box0 := bits x 151 144, size2 := bits x 143 128, size1 := bits x 127 96,
    size0 := bits x 95 64, base := bits x 63 0, reserved := bits x 255 254 }

/-- Bytes of the box. -/
def ShapeRec.bytes (r : ShapeRec) : Nat := (r.box0 + 1) * (r.box1 + 1) * (r.box2 + 1) * r.es

/-- The record is well formed for a shared offset. -/
def ShapeRec.ok (r : ShapeRec) (dst : Nat) : Bool :=
  r.reserved == 0 && r.swz < 2 && r.oob < 2 && r.size0 != 0 && r.size1 != 0 && r.size2 != 0 && r.base % r.es == 0 &&
    r.stride1 % r.es == 0 && r.stride2 % r.es == 0 && r.size0 * r.es ≤ r.stride1 &&
    (r.size2 ≤ 1 || r.stride1 * r.size1 ≤ r.stride2) && r.bytes ≤ 262144 && !(r.swz == 1 && dst % 128 != 0)

/-- Shared byte of an element by its box byte offset (R78). -/
def swizzle (swz d : Nat) : Nat :=
  if swz = 1 then
    let row := d / 128
    row * 128 + (d / 16 % 8 ^^^ row % 8) * 16 + d % 16
  else d

/-- The runs of box row (b1, b2), element by element (R78). -/
def ShapeRec.row (r : ShapeRec) (out : Bool) (dst : Nat) (c : Int × Int × Int) (b1 b2 : Nat) : List Haul :=
  (List.range (r.box0 + 1)).filterMap fun (b0 : Nat) =>
    let x0 := c.1 + (b0 : Int)
    let x1 := c.2.1 + (b1 : Int)
    let x2 := c.2.2 + (b2 : Int)
    let d : Nat := swizzle r.swz (((b2 * (r.box1 + 1) + b1) * (r.box0 + 1) + b0) * r.es)
    let inb := decide (0 ≤ x0) && decide (x0 < r.size0) && decide (0 ≤ x1) && decide (x1 < r.size1) && decide (0 ≤ x2) &&
      decide (x2 < r.size2)
    let g : Wend := .glob (BitVec.ofInt 64 ((r.base : Int) + x2 * r.stride2 + x1 * r.stride1 + x0 * r.es))
    if out then (if inb then some { dst := g, src := .shared (dst + d), n := r.es } else none)
    else if inb then some { dst := .shared (dst + d), src := g, n := r.es }
    else if r.oob = 0 then some { dst := .shared (dst + d), src := .zero, n := r.es }
    else none

/-! ### The moves of CPY, CPYT and GATHQ (R115) -/

def Command.arg (c : Command) (k : Nat) : W64 := c.args.getD k 0
def Command.argN (c : Command) (k : Nat) : Nat := (c.arg k).toNat

/-- A CPYT, which carries its shape record and its origin. -/
def Command.tensor (c : Command) : Bool := c.eng == 0 && c.args.length == 12
/-- The shape record of a CPYT: word k is bits 31:0 of S(n + k). -/
def Command.shapeRec (c : Command) : ShapeRec :=
  ShapeRec.ofNat ((List.range 8).foldl (fun x k => x + c.argN k % 2 ^ 32 * 2 ^ (32 * k)) 0)
/-- The box origin of a CPYT. -/
def Command.origin (c : Command) : Int × Int × Int :=
  (toSigned 32 (c.argN 9), toSigned 32 (c.argN 10), toSigned 32 (c.argN 11))

/-- The parts that a command moves one after another: a CPY whole, the rows of a box, the rows of a gather. -/
def Command.parts (c : Command) : Nat :=
  if c.eng = 1 then c.argN 4
  else if c.tensor then (c.shapeRec.box1 + 1) * (c.shapeRec.box2 + 1)
  else 1

/-- Shared ends of a command are on the core of its group, or its partner's (R63). -/
def State.commandShared (s : State) (c : Command) (o : Nat) : Option Nat :=
  match c.owner with
  | some (t, g) => (s.team? t).bind fun tm => (tm.group? g).bind fun gr => sharedKey tm (onSecond tm gr) o
  | none => none

/-- n shared bytes at an offset all exist. -/
def State.sharedOk (s : State) (c : Command) (o n : Nat) : Bool :=
  (List.range n).all fun i => (s.commandShared c (o + i)).isSome

/-- The shared offset of a run, if it has one. -/
def Haul.shared (r : Haul) : Option Nat :=
  match r.dst, r.src with
  | .shared o, _ => some o
  | _, .shared o => some o
  | _, _ => none

/-- The runs of a CPYT's box (R78). -/
def Command.boxRuns (c : Command) : List Haul :=
  let r := c.shapeRec
  (List.range ((r.box1 + 1) * (r.box2 + 1))).flatMap fun j =>
    r.row (c.form == 1) (c.argN 8) c.origin (j % (r.box1 + 1)) (j / (r.box1 + 1))

/-- The checks before a copy or gather begins, with the address at fault (R77, R78, R115). -/
def State.moveCheck (s : State) (c : Command) : Option Nat :=
  if c.eng = 1 then
    let rb := c.argN 3
    let cnt := c.argN 4
    if rb % 16 != 0 || rb < 16 || 4096 < rb || cnt < 1 || 65535 < cnt then some 0
    else if s.sharedOk c (c.argN 0) (rb * cnt) then none else some (c.argN 0)
  else if c.tensor then
    let r := c.shapeRec
    if !r.ok (c.argN 8) then some 0
    else c.boxRuns.findSome? fun r => match r.shared with
      | some o => if s.sharedOk c o r.n then none else some o
      | none => none
  else
    let n := c.argN 2
    if 2 ^ 31 < n then some 0
    else if c.form = 0 && !s.sharedOk c (c.argN 0) n then some (c.argN 0)
    else if c.form = 1 && !s.sharedOk c (c.argN 1) n then some (c.argN 1)
    else none

/-- Why a move stops. -/
inductive Stop where
  | limit
  | wait
  | fault (code addr : Nat)
  | check (code key : Nat)
  | xlate (addr : Nat)
  deriving DecidableEq, Repr

/-- A line of the keys that another started command, or a peer's, owns (R52, R288). -/
def State.ownedByOther (s : State) (id : Nat) (keys : List Nat) : Bool :=
  let lines := linesOf keys
  (s.commands.any fun c => c.id != id && c.phase == .started && !c.saved && c.owned.any fun x => lines.contains x) ||
    s.peers.any fun p => p.lines.any fun x => lines.contains x.1

/-- A command's access waits: for another command's write to a line, for a hold, or for writes that wait for one (R52, R106). -/
def State.engineStall (s : State) (id : Nat) (written read : List Nat) : Bool :=
  s.ownedByOther id (written ++ read) || (s.heldAt (fun _ => false) written (linesOf (written ++ read))).isSome

/-- The places of one end, or what stands at another package. -/
inductive EndPlace where
  | here (l : List Spot)
  | remote (pkg va : Nat)
  | zero

/-- The stop of a fault at an address. -/
def stopOf (f : MemFault) (addr : Nat) : Stop :=
  match f with
  | .prog code _ => .fault code addr
  | .xlate va => .xlate va
  | .check code key => .check code key
  | .busy _ => .wait
  | .fenced => .fault codeTILEFENCED addr

/-- The copy, gather and collective engines take the address of another package (R37). -/
def Command.takesRemote (c : Command) : Bool := c.eng ≤ 1 || c.eng == 4

/-- An end of n bytes resolved (R36, R37, R63). -/
def State.endAt (s : State) (c : Command) (e : Wend) (n : Nat) (acc : Access) : State × Except Stop EndPlace :=
  match e with
  | .zero => (s, .ok .zero)
  | .shared o => match (List.range n).mapM fun i => s.commandShared c (o + i) with
    | some ks => (s, .ok (.here (ks.map fun k => { key := k, home := 1, window := none })))
    | none => (s, .error (.fault codeADDRBAD o))
  | .glob a => match s.address a with
    | .bad => (s, .error (.fault codeADDRBAD a.toNat))
    | .remote pkg va => (s, if 2 ^ 48 < va + n || !c.takesRemote then .error (.fault codeADDRBAD a.toNat) else .ok (.remote pkg va))
    | .here va => match s.spots (s.commandCore c) c.ctx va n acc with
      | (s, .error f) => (s, .error (stopOf f va))
      | (s, .ok l) => (s, .ok (.here l))

/-- The keys of an end. -/
def EndPlace.keys (e : EndPlace) : List Nat :=
  match e with
  | .here l => l.map (·.key)
  | _ => []

/-- The bytes that an end gives; those of another package are open (log 8). -/
def State.takeBytes (s : State) (ctx core n : Nat) (e : EndPlace) : State × Except Stop (List Byte) :=
  match e with
  | .zero => (s, .ok (List.replicate n 0))
  | .remote _ va => (s, .ok ((List.range n).map fun i => (Config.openWord s.tick (va + i)).setWidth 8))
  | .here l =>
    match s.readCheck l with
    | some (code, key) => (s, .error (.check code key))
    | none =>
      let s := s.beforeRead ctx core false l
      (s, .ok (s.readSpots l))

/-- Bytes reach an end; those for another package go out as flits, where the port has room for them; a collective's wait until its
own end (R299). -/
def State.giveBytes (s : State) (c : Command) (e : EndPlace) (bs : List Byte) : State × Option Stop :=
  match e with
  | .zero => (s, none)
  | .remote pkg va => match s.routePort pkg with
    | none => (s, some (.fault codeLINKLOST va))
    | some n =>
      if c.eng = 4 then
        let s : State := { s with out := s.out ++ [.remoteWrite pkg va c.ctx bs] }
        (s.modCommand c.id fun x => { x with outbox := x.outbox ++ [{ pkg := pkg, nfmt := 0, bytes := bs }] }, none)
      else if (s.port n).hasRoom bs.length then (s.sendRemote n (some c.id) c.ctx pkg va bs, none)
      else (s, some .wait)
  | .here l =>
    match s.writeCheck l with
    | some (code, key) => (s, some (.check code key))
    | none => (s.writeSpots c.ctx l bs, none)

/-- n bytes that a command reads at a global address. -/
def State.readAt (s : State) (c : Command) (a : W64) (n : Nat) : State × Except Stop (List Byte) :=
  match s.endAt c (.glob a) n .read with
  | (s, .error x) => (s, .error x)
  | (s, .ok e) => if s.engineStall c.id [] e.keys then (s, .error .wait) else s.takeBytes c.ctx (s.commandCore c) n e

/-- Bytes that a command writes at a global address. -/
def State.writeAt (s : State) (c : Command) (a : W64) (bs : List Byte) : State × Option Stop :=
  match s.endAt c (.glob a) bs.length .write with
  | (s, .error x) => (s, some x)
  | (s, .ok e) => if s.engineStall c.id e.keys [] then (s, some .wait) else s.giveBytes c e bs

/-- What a check on the way out to another package does: a DATACHK ends the command, and its group meets it at a WAITB (R297). -/
def Stop.onEgress (x : Stop) (leaves : Bool) (addr : Nat) : Stop :=
  match x, leaves with
  | .check 0x41 _, true => .fault codeDATACHK addr
  | _, _ => x

/-- The end lies in another package. -/
def EndPlace.isRemote : EndPlace → Bool
  | .remote _ _ => true
  | _ => false

/-- The bytes of a source from address a: those of a word that was read in part before are as they were then (R285). -/
def Command.sourceBytes (c : Command) (a : Nat) (bs : List Byte) : List Byte :=
  (bs.zip (List.range bs.length)).map fun x => (assoc ((a + x.2) % 2 ^ 48) c.ahead).getD x.1

/-- Places of shared bytes of a command. -/
def State.sharedSpots (s : State) (c : Command) (os : List Nat) : List Spot :=
  (os.filterMap (s.commandShared c)).map fun k => { key := k, home := 1, window := none }

/-- The shared bytes that a command holds back are written (R74). -/
def State.writeBack (s : State) (c : Command) : State × Command :=
  if c.back.isEmpty then (s, c)
  else (s.writeSpots c.ctx (s.sharedSpots c (c.back.map Prod.fst)) (c.back.map Prod.snd), { c with back := [] })

/-- One cut run moved, with the shared bytes that are then held back: those of the last destination word, until the run that fills it
has moved too, so that no word is left with a part of the command's value (R74). -/
def State.moveRun (s : State) (c : Command) (r : Haul) : State × Except Stop (List (Nat × Byte)) :=
  match s.endAt c r.dst r.n .write with
  | (s, .error x) => (s, .error x)
  | (s, .ok d) =>
    match s.endAt c r.src r.n .read with
    | (s, .error x) => (s, .error x)
    | (s, .ok a) =>
      if s.engineStall c.id d.keys a.keys then (s, .error .wait)
      else match s.takeBytes c.ctx (s.commandCore c) r.n a with
        | (s, .error x) => (s, .error (x.onEgress d.isRemote r.src.addr))
        | (s, .ok bs) =>
          let bs := c.sourceBytes r.src.addr bs
          match r.dst with
          | .shared o =>
            let all := c.back ++ keyed o bs
            let tail := (o + r.n) / 4 * 4
            let now := all.filter fun x => decide (x.1 < tail)
            match s.giveBytes c (.here (s.sharedSpots c (now.map Prod.fst))) (now.map Prod.snd) with
            | (s, some x) => (s, .error x)
            | (s, none) => (s, .ok (all.filter fun x => decide (tail ≤ x.1)))
          | _ => match s.giveBytes c d bs with
            | (s, some x) => (s, .error x)
            | (s, none) => (s, .ok c.back)

/-- A move under way: the machine, the command with its progress, the run that has moved last in this step, and why it has stopped. -/
structure Moving where
  s : State
  c : Command
  last : Option Haul
  stop : Option Stop

/-- A run begins: bytes held back of another destination word are written. -/
def Moving.enter (m : Moving) (r : Haul) : Moving :=
  match r.dst, m.c.back with
  | .shared o, x :: _ => if x.1 / 4 = o / 4 then m else
      let y := m.s.writeBack m.c
      { m with s := y.1, c := y.2 }
  | _, _ => m

/-- A run has moved: what is read ahead of the word at its end stays. -/
def Moving.pass (m : Moving) (s : State) (r : Haul) (back : List (Nat × Byte)) : Moving :=
  let c := m.c
  { m with
    s := s, last := some r
    c := { c with written := c.written + r.n, next := c.next + r.n, back := back,
                  ahead := c.ahead.filter fun x => x.1 / 4 == (r.src.addr + r.n) % 2 ^ 48 / 4 } }

/-- Runs moved one after another until one stops; `cut` says before which run to stop. -/
def moveRuns (cut : Moving → Haul → Bool) (m : Moving) (rs : List Haul) : Moving :=
  rs.foldl (fun m r =>
    if m.stop.isSome then m
    else
      let m := m.enter r
      if cut m r then { m with stop := some .limit }
      else match m.s.moveRun m.c r with
        | (s, .error x) => { m with s := s, stop := some x }
        | (s, .ok back) => m.pass s r back) m

/-- A move that stops inside a source word has read the whole word: what of it is still to move is kept (R285). -/
def Moving.readAhead (m : Moving) : Moving :=
  match m.last with
  | none => m
  | some r =>
    let n := 4 - (r.src.addr + r.n) % 4
    if r.src = .zero || n = 4 then m
    else
      let e := r.src.plus r.n
      match m.s.endAt m.c e n .read with
      | (s, .ok (.here l)) =>
        if (s.readCheck l).isSome then m
        else
          let bs := m.c.sourceBytes e.addr (s.readSpots l)
          { m with s := s, c := { m.c with ahead := keyed (e.addr % 2 ^ 48) bs } }
      | _ => m

/-- The runs of part j; a gather reads its index (R115). -/
def State.partRuns (s : State) (c : Command) (j : Nat) : State × Except Stop (List Haul) :=
  if c.eng = 1 then
    let rb := c.argN 3
    let at_ := c.arg 2 + BitVec.ofNat 64 (4 * j)
    match s.readAt c at_ 4 with
    | (s, .error x) => (s, .error x)
    | (s, .ok bs) =>
      let idx := leNat bs
      let g : Wend := .glob (c.arg 1 + BitVec.ofNat 64 (idx * rb))
      let sh : Wend := .shared (c.argN 0 + j * rb)
      (s, .ok (if c.form = 0 then [{ dst := sh, src := if idx = 0xFFFFFFFF then .zero else g, n := rb }]
        else if idx = 0xFFFFFFFF then [] else [{ dst := g, src := sh, n := rb }]))
  else if c.tensor then
    let r := c.shapeRec
    (s, .ok (r.row (c.form == 1) (c.argN 8) c.origin (j % (r.box1 + 1)) (j / (r.box1 + 1))))
  else
    let d : Wend := if c.form = 0 then .shared (c.argN 0) else .glob (c.arg 0)
    let a : Wend := if c.form = 1 then .shared (c.argN 1) else .glob (c.arg 1)
    (s, .ok [{ dst := d, src := a, n := c.argN 2 }])

/-- Part j moved from where it stood. -/
def movePart (cut : Moving → Haul → Bool) (m : Moving) (j : Nat) : Moving :=
  if m.stop.isSome then m
  else match m.s.partRuns m.c j with
    | (s, .error x) => { m with s := s, stop := some x }
    | (s, .ok rs) =>
      let cuts := (dropRuns rs m.c.next).flatMap fun r => cutRun (r.n / 1024 + 4) r
      let m := moveRuns cut { m with s := s } cuts
      if m.stop.isSome then m else { m with c := { m.c with pos := j + 1, next := 0 } }

/-- The rest of a command moved, until it stops; what it still holds back is written at its end. -/
def State.moveRest (s : State) (c : Command) (cut : Moving → Haul → Bool) : Moving :=
  let m := ((List.range c.parts).drop c.pos).foldl (movePart cut) { s := s, c := c, last := none, stop := none }
  match m.stop with
  | none =>
    let y := m.s.writeBack m.c
    { m with s := y.1, c := y.2 }
  | some _ => m.readAhead

/-! ### Ownership (R52) -/

/-- 4 MiB. -/
def windowBytes : Nat := 4194304

/-- The global lines of destinations. -/
def State.destLines (s : State) (ctx : Nat) (rs : List Haul) : List Nat :=
  dedup (rs.flatMap fun r => match r.dst with
    | .glob a => match s.address a with
      | .here va => (List.range ((va % 128 + r.n + 127) / 128)).filterMap fun k => (s.plainKey ctx (va / 128 * 128 + 128 * k)).map lineOf
      | _ => []
    | _ => [])

/-- Runs of a list that hold destination bytes lo to hi - 1, counted from its start. -/
def sliceRuns : List Haul → Nat → Nat → List Haul
  | [], _, _ => []
  | r :: rest, lo, hi =>
    let k := min lo r.n
    let n := min (r.n - k) (hi - lo)
    (if hi ≤ k then [] else [{ r.drop k with n := n }]) ++ sliceRuns rest (lo - k) (hi - min hi r.n)

/-- Every run that a copy or scatter will write, by the indices as they stand. -/
def State.allRuns (s : State) (c : Command) : List Haul :=
  (List.range c.parts).flatMap fun j => match (s.partRuns c j).2 with
    | .ok rs => rs
    | .error _ => []

/-- The lines of window w of a command's destination; none for one in shared memory. -/
def State.windowLinesOf (s : State) (c : Command) (w : Nat) : List Nat :=
  let global := if c.eng = 1 || c.tensor then c.form == 1 else c.form != 0
  if !global then [] else s.destLines c.ctx (sliceRuns (s.allRuns c) (w * windowBytes) ((w + 1) * windowBytes))

/-- The lines of window w of each of some global regions, an address and a length each (R52). -/
def State.regionLines (s : State) (ctx : Nat) (regions : List (Nat × Nat)) (w : Nat) : List Nat :=
  dedup (regions.flatMap fun r =>
    s.destLines ctx (sliceRuns [{ dst := .glob (BitVec.ofNat 64 r.1), src := .zero, n := r.2 }] (w * windowBytes) ((w + 1) * windowBytes)))

/-- Windows of the largest of some regions. -/
def windowCount (regions : List (Nat × Nat)) : Nat := regions.foldl (fun n r => max n (ceilDiv r.2 windowBytes)) 1

/-- A command owns lines, which merge first (R52, R54). -/
def State.own (s : State) (id : Nat) (lines : List Nat) : State :=
  (s.mergeLines lines).modCommand id fun c => { c with owned := dedup (c.owned ++ lines) }

/-- Ownership of lines waits: another started command owns one, or a granule of one is held (R52, R106). -/
def State.linesTaken (s : State) (id : Nat) (lines : List Nat) : Bool :=
  s.engineStall id (lines.flatMap fun x => [x * 128, x * 128 + 64]) []

/-- A command takes lines and goes on; it waits where they are taken, and a merge may meet a machine check (R52, R57). -/
def State.takeLines (s : State) (c : Command) (lines : List Nat) (k : State → State) : State :=
  if s.linesTaken c.id lines then s
  else match s.mergeCheck lines with
    | some (code, key) => s.checkCommand c code key 0
    | none => k (s.own c.id lines)

/-- Destination bytes at most. -/
def Command.destBytes (c : Command) : Nat :=
  if c.eng = 1 then (if c.form = 1 then c.argN 3 * c.argN 4 else 0)
  else if c.tensor then 0
  else if c.form = 0 then 0 else c.argN 2

/-- The lines that a stopped command still owns: those of its windows that it has yet to write. -/
def State.ownedLeft (s : State) (c : Command) : List Nat :=
  let left := ((List.range c.parts).drop c.pos).flatMap fun j => match (s.partRuns c j).2 with
    | .ok rs => if j = c.pos then dropRuns rs c.next else rs
    | .error _ => []
  let lines := s.destLines c.ctx left
  c.owned.filter fun x => lines.contains x

/-- The lines of a copy's or gather's owned windows that it has still to write; those that had no translation when the window was
taken are among them once they have one (R45, R52). -/
def State.moveLines (s : State) (c : Command) : List Nat :=
  s.ownedLeft { c with owned := s.windowLinesOf c (c.window - 1) ++ s.windowLinesOf c c.window }

/-- What follows when a move stops: its progress is kept, it waits for a translation, or it ends, once its flits are
acknowledged (R288). -/
def State.afterMove (s : State) (m : Moving) : State :=
  match m.stop with
  | none => if m.s.flitsOut m.c.id then m.s.modCommand m.c.id fun _ => m.c else m.s.finishCommand m.c 0 m.c.written 0 0 0
  | some (.fault code addr) => m.s.failCommand m.c code addr 0
  | some (.check code key) => m.s.checkCommand m.c code key 0
  | some (.xlate addr) =>
    let c := { m.c with owned := m.s.ownedLeft m.c }
    (m.s.modCommand c.id fun _ => c).commandXlate c addr
  | some .wait => if m.c.written = ((s.command? m.c.id).map (·.written)).getD 0 then s else
    m.s.modCommand m.c.id fun _ => { m.c with owned := m.s.ownedLeft m.c }
  | some .limit => m.s.modCommand m.c.id fun _ => { m.c with owned := m.s.ownedLeft m.c }

/-- The rest of a copy or gather moves, and it ends. -/
def State.completeMove (s : State) (c : Command) : State :=
  s.takeLines c (s.moveLines c) fun s' => match s'.command? c.id with
    | some c => s'.afterMove (s'.moveRest c fun _ _ => false)
    | none => s'

/-- The rest of the window moves. -/
def State.moveWindow (s : State) (c : Command) (w : Nat) : State :=
  s.takeLines c (s.moveLines c) fun s' => match s'.command? c.id with
    | some c => s'.afterMove (s'.moveRest c fun m r => (w + 1) * windowBytes < m.c.written + r.n)
    | none => s'

/-- A started copy or gather stops at its next 4 KiB destination boundary: before the first run in another 4 KiB of the destination than
the run before it, also where runs leave gaps (R75; log 76). -/
def State.moveToBoundary (s : State) (c : Command) : Moving :=
  s.moveRest c fun m r => m.last.any fun p => p.dst.addr / 4096 != r.dst.addr / 4096

end Sys2Proof.Machine
end

