-- ==== Sys2Proof/Machine/Collective.lean ====
section
/-! DEFINITION. The collective engine (spec/12_links_and_host.md R302 to R307). The other members of a group are other packages:
what each supplies to a matched collective reaches this one with the event COLLECTIVE_COMPLETE. -/

namespace Sys2Proof.Machine

/-! ### The configuration (R302, R303) -/

def Command.cfg (c : Command) : Nat := c.argN 3
def Command.collGrp (c : Command) : Nat := bits c.cfg 23 16
def Command.collType (c : Command) : Nat := bits c.cfg 10 8
def Command.collOp (c : Command) : Nat := bits c.cfg 5 4
def Command.collEF (c : Command) : Bool := bit c.cfg 11
def Command.collDstr (c : Command) : Nat := bits c.cfg 43 32

/-- Bytes of an element of a type. -/
def collBytes (ty : Nat) : Nat := if ty = 1 || ty = 2 then 2 else 4

/-- A collective group's entry: whether it is valid, its members and this package's rank. -/
structure CollGroup where
  valid : Bool
  members : Nat
  rank : Nat
  map : Nat
  deriving DecidableEq, Repr

def State.collGroup (s : State) (n : Nat) : CollGroup :=
  let x := (nth s.collGroups n 0).toNat
  { valid := bit x 0, members := bits x 12 1 + 1, rank := bits x 43 32, map := bits x 127 64 }

/-- The config word of a collective has no reserved value (R303). -/
def collWordOk (w : Nat) : Bool :=
  bits w 63 44 == 0 && bits w 31 24 == 0 && bits w 23 22 == 0 && bits w 15 12 == 0 && bits w 7 6 == 0 && bits w 3 0 == 0 &&
    decide (bits w 10 8 ≤ 4) && decide (bits w 5 4 ≤ 2)

/-- The rules of R303 and R304 that this member's command alone decides. -/
def Command.collOk (c : Command) (g : CollGroup) : Bool :=
  collWordOk c.cfg && decide (c.argN 2 < 2 ^ 31) && c.argN 2 != 0 && g.valid && !(c.form == 1 && c.argN 2 % g.members != 0) && !(c.collEF && !(c.collType == 0 && c.collOp == 0)) &&
    (if c.form = 3 then decide (c.collDstr < g.members) else c.collDstr == 0)

/-- A peer's command is sound and agrees with this member's. -/
def Command.agrees (c : Command) (p : PeerPart) : Bool :=
  !p.refused && p.form == c.form && p.ty == c.collType && p.op == c.collOp && p.ef == c.collEF && p.dstr == c.collDstr &&
    (c.form == 3 || p.n == c.argN 2)

/-! ### The tree (R304) -/

/-- The largest power of two below n, for n from 2. -/
def halfOf (n : Nat) : Nat := 2 ^ (n - 1).log2

/-- tree of a list that is not empty; `fuel` bounds its depth. -/
def treeOf {α : Type} (op : α → α → α) (d : α) : Nat → List α → α
  | 0, l => l.headD d
  | fuel + 1, l =>
    if l.length ≤ 1 then l.headD d
    else
      let h := halfOf l.length
      op (treeOf op d fuel (l.take h)) (treeOf op d fuel (l.drop h))

/-- The format of a floating type. -/
def collFmt (ty : Nat) : FloatFmt := if ty = 1 then bf16 else if ty = 2 then fp16 else fp32

/-- One element over the ranks' values, in rank order. -/
def collElement (ty op : Nat) (vs : List Nat) : Nat :=
  let F := collFmt ty
  if vs.length ≤ 1 then vs.headD 0
  else if ty ≤ 2 && op = 0 then
    let w := treeOf (fun a b => rne32 (sumOf .rne [num32 a, num32 b])) 0 13 (vs.map fun v => rne32 (F.decode v))
    if ty = 0 then w else (F.round .rne false 0 (num32 w)).code
  else if ty ≤ 2 then treeOf (fun a b => minMax F 0 (op == 2) a b) 0 13 vs
  else treeOf (fun a b => intRed op (if ty = 3 then 4 else 5) a b) 0 13 vs

/-- The elements of a byte string. -/
def elements (ty : Nat) (bs : List Byte) : List Nat := (chunks (collBytes ty) (bs.length + 1) bs).map leNat

/-! ### Error feedback (R305) -/

/-- The values of a block of at most 32 elements with its residuals, their scale, and their codes. -/
def feedbackCodes (xs res : List Nat) : List Nat × Nat × List Nat :=
  let vs := (xs.zip res).map fun x => rne32 (sumOf .rne [num32 x.1, num32 x.2])
  let e := (e8m0Scale e4m3 (vs.map num32)).code
  (vs, e, vs.map fun v => (e4m3.round .rne true 0 (if e = 255 then Num.nan else (num32 v).scale2 (127 - (e : Int)))).code)

/-- One block: the decoded values and the new residuals. -/
def feedbackBlock (xs res : List Nat) : List Nat × List Nat :=
  let (vs, e, codes) := feedbackCodes xs res
  let dec := codes.map fun y => (e4m3.decode y).mul (e8m0 e)
  (dec.map rne32, (vs.zip dec).map fun x => rne32 (sumOf .rne [num32 x.1, x.2.negate]))

/-- Every block of the source. -/
def feedback (xs res : List Nat) : List Nat × List Nat :=
  let bs := (chunks 32 (xs.length + 1) xs).zip (chunks 32 (xs.length + 1) res)
  let r := bs.map fun b => feedbackBlock b.1 b.2
  (r.flatMap Prod.fst, r.flatMap Prod.snd)

/-- The source as it is sent: the scale and the codes of each block. -/
def feedbackBytes (xs res : List Nat) : List Byte :=
  ((chunks 32 (xs.length + 1) xs).zip (chunks 32 (xs.length + 1) res)).flatMap fun b =>
    let r := feedbackCodes b.1 b.2
    leBytes 1 r.2.1 ++ r.2.2.flatMap (leBytes 1)

/-! ### Ordered compositing (R306, R307) -/

/-- A partial record with the words of its tile. -/
structure Partial where
  record : Nat
  pixels : List Nat
  deriving DecidableEq, Repr

def Partial.addr (p : Partial) : Nat := bits p.record 255 192
def Partial.key (p : Partial) : Nat := bits p.record 191 160
def Partial.shard (p : Partial) : Nat := bits p.record 159 144
def Partial.view (p : Partial) : Nat := bits p.record 143 128
def Partial.tile (p : Partial) : Nat := bits p.record 127 96

/-- The rules on one record. -/
def Partial.ok (nt : Nat) (p : Partial) : Bool :=
  bits p.record 95 0 == 0 && decide (p.view < 256) && decide (p.tile < nt) && p.addr % 128 == 0

/-- over of two pixels (C0, C1, C2, T). -/
def overPixel (f b : List Nat) : List Nat :=
  let v := fun (l : List Nat) (k : Nat) => num32 (l.getD k 0)
  (List.range 3).map (fun k => rne32 (sumOf .rne [(v f 3).mul (v b k), v f k])) ++ [rne32 ((v f 3).mul (v b 3))]

/-- over of two tiles of 256 pixels. -/
def overTile (f b : List Nat) : List Nat :=
  (List.range 256).flatMap fun i => overPixel ((f.drop (4 * i)).take 4) ((b.drop (4 * i)).take 4)

/-- Partials in order of key, then shard. -/
def insertPartial (p : Partial) : List Partial → List Partial
  | [] => [p]
  | q :: rest =>
    if p.key < q.key || (p.key == q.key && p.shard < q.shard) then p :: q :: rest else q :: insertPartial p rest

/-- The composed tiles: view, tile and pixels of each that any member supplied. -/
def composeTiles (ps : List Partial) : List (Nat × Nat × List Nat) :=
  let names := ps.foldl (fun (acc : List (Nat × Nat)) p => if acc.contains (p.view, p.tile) then acc else acc ++ [(p.view, p.tile)]) []
  names.map fun n =>
    let mine := (ps.filter fun p => p.view == n.1 && p.tile == n.2).foldr insertPartial []
    (n.1, n.2, treeOf overTile [] 13 (mine.map (·.pixels)))

/-- Two partials of one tile have the same shard. -/
def sameShard : List Partial → Bool
  | [] => false
  | p :: rest => (rest.any fun q => q.view == p.view && q.tile == p.tile && q.shard == p.shard) || sameShard rest

/-- The records of this member with their tiles; `leaves`: they go to another member (R297). -/
def State.partialsOf (s : State) (c : Command) (leaves : Bool) (records : List Nat) : State × Except Stop (List Partial) :=
  records.foldl (fun (r : State × Except Stop (List Partial)) x =>
    match r with
    | (s, .error e) => (s, .error e)
    | (s, .ok l) =>
      match s.readAt c (BitVec.ofNat 64 (bits x 255 192)) 4096 with
      | (s, .error e) => (s, .error (e.onEgress leaves (bits x 255 192)))
      | (s, .ok bs) => (s, .ok (l ++ [{ record := x, pixels := (chunks 4 1024 bs).map leNat }]))) (s, .ok [])

/-- The partials that a peer supplies. -/
def peerPartials (p : PeerPart) : List Partial :=
  p.tiles.map fun t => { record := t.1, pixels := (chunks 4 1024 t.2).map leNat }

/-- What a collective comes to: bytes for places, or the address at fault of ADDRBAD. -/
inductive CollResult where
  | writes (l : List (W64 × List Byte)) (count : Nat)
  | refused

/-- The tiles of a compositing, written by the member that receives them. -/
def composeWrites (mine : Bool) (dst nt : Nat) (ps : List Partial) : CollResult :=
  if !(ps.all (Partial.ok nt)) || sameShard ps then .refused
  else if !mine then .writes [] 0
  else
    let ts := composeTiles ps
    .writes (ts.map fun t => (BitVec.ofNat 64 (dst + (t.1 * nt + t.2.1) * 4096), t.2.2.flatMap (leBytes 4))) (ts.length * 4096)

/-! ### One collective (R304) -/

/-- The elements that each rank supplies, in rank order. -/
def byRank (g : CollGroup) (own : List Nat) (ty : Nat) (peers : List (Nat × PeerPart)) : List (List Nat) :=
  (List.range g.members).map fun r =>
    if r = g.rank then own
    else match peers.find? fun p => p.1 == r with
      | some p => elements ty p.2.bytes
      | none => []

/-- The result at this member's destination: `.ALLRED`, `.REDSC`, `.ALLGA`. -/
def collResult (c : Command) (g : CollGroup) (vs : List (List Nat)) : List Byte :=
  let ty := c.collType
  let n := c.argN 2
  let el := fun (e : Nat) => leBytes (collBytes ty) (collElement ty c.collOp (vs.map fun v => v.getD e 0))
  match c.form with
  | 0 => (List.range n).flatMap el
  | 1 => (List.range (n / g.members)).flatMap fun i => el (g.rank * (n / g.members) + i)
  | _ => vs.flatMap fun v => v.flatMap (leBytes (collBytes ty))

/-- Every other member of a group has supplied its part. -/
def allPeers (g : CollGroup) (peers : List (Nat × PeerPart)) : Bool :=
  (List.range g.members).all fun r => r == g.rank || (peers.find? fun p => p.1 == r).isSome

/-- What stopped a collective's access: it waits, replays, or ends with the fault. -/
def State.collStop (old s : State) (c : Command) (x : Stop) : State :=
  match x with
  | .fault e addr => s.failCommand c e addr 0
  | .check code key => s.checkCommand c code key 0
  | .xlate addr => s.commandXlate c addr
  | .wait => old
  | .limit => old

/-- Places written one after another. -/
def State.writeAll (s : State) (c : Command) (l : List (W64 × List Byte)) : State × Option Stop :=
  l.foldl (fun (r : State × Option Stop) w => match r.2 with
    | some _ => r
    | none => r.1.writeAt c w.1 w.2) (s, none)

/-! ### What a collective sends (R298 to R300, R302; log 61) -/

/-- Ranks of the subtree that a rank's part stands first in, at most. -/
def subtree (r : Nat) : Nat := (((List.range 12).find? (bit r)).map (2 ^ ·)).getD 4096

/-- The rank to which a rank's part goes in the tree of R304. -/
def parentOf (r : Nat) : Nat := r - subtree r

/-- The ranks to which the result goes on from a rank. -/
def childrenOf (m r : Nat) : List Nat := ((List.range 12).map (2 ^ ·)).filterMap fun k => if k < subtree r ∧ r + k < m then some (r + k) else none

/-- The number format in which flits carry a type's elements. -/
def flitFormat (ty : Nat) : Nat := if ty ≤ 2 then ty + 1 else 0

/-- Messages for ranks as messages for packages: the package of rank r stands at MAP + 2r (R302). -/
def State.addressed (s : State) (c : Command) (g : CollGroup) (l : List (Nat × Nat × List Byte)) : State × Except Stop (List Outgoing) :=
  l.foldl (fun (r : State × Except Stop (List Outgoing)) x => match r with
    | (s, .error e) => (s, .error e)
    | (s, .ok ms) => match s.readAt c (BitVec.ofNat 64 (g.map + 2 * x.1)) 2 with
      | (s, .error e) => (s, .error e)
      | (s, .ok bs) => (s, .ok (ms ++ [{ pkg := leNat bs % 4096, nfmt := x.2.1, bytes := x.2.2 }]))) (s, .ok [])

/-- A collective that has done its work sends what it owes, and ends when its flits are acknowledged (R288, R299). -/
def State.collSend (s : State) (id : Nat) : State :=
  match s.command? id with
  | none => s
  | some c => match s.sendOut id c.outbox with
    | (s, none) => s.failCommand c codeLINKLOST 0 0
    | (s, some rest) =>
      if rest.isEmpty && !s.flitsOut id then s.finishCommand c 0 c.written 0 0 0
      else s.modCommand id fun x => { x with outbox := rest }

/-- A collective has done its work: `count` bytes are written, and the messages are to go. -/
def State.endCollective (s : State) (c : Command) (count : Nat) (ms : List Outgoing) : State :=
  if ms.isEmpty && ((s.command? c.id).map (·.outbox)).getD [] == [] then s.finishCommand c 0 count 0 0 0
  else (s.modCommand c.id fun x => { x with last := true, written := count, outbox := x.outbox ++ ms }).collSend c.id

/-- `.ALLRED` and `.REDSC` with EF keep a residual; `.ALLGA` with EF sends E4M3 and keeps none (R303, R305; log 38). -/
def Command.residual (c : Command) : Bool := c.collEF && decide (c.form ≤ 1)

/-- The forms but `.COMP`: the source, the residual where there is one, the destination. -/
def State.collNumeric (s : State) (c : Command) (g : CollGroup) (peers : List (Nat × PeerPart)) : State :=
  let ty := c.collType
  let n := c.argN 2
  match s.readAt c (c.arg 0) (n * collBytes ty) with
  | (t, .error x) => State.collStop s t c (x.onEgress (g.rank != 0) (c.argN 0))
  | (t, .ok bs) =>
    match (if c.residual then t.readAt c (c.arg 4) (4 * n) else (t, .ok [])) with
    | (t, .error x) => State.collStop s t c x
    | (t, .ok rb) =>
      match (if c.residual then t.endAt c (.glob (c.arg 4)) (4 * n) .write else (t, .ok .zero)) with
      | (t, .error x) => State.collStop s t c x
      | (t, .ok _) =>
        let xs := elements ty bs
        let res := if c.residual then elements 0 rb else xs.map fun _ => 0
        let fb := feedback xs res
        let own := if c.collEF then fb.1 else xs
        let out := collResult c g (byRank g own ty peers)
        let up := if g.rank = 0 then []
          else [(parentOf g.rank, if c.collEF then 0 else flitFormat ty, if c.collEF then feedbackBytes xs res else bs)]
        let down := if c.form = 1 then [] else (childrenOf g.members g.rank).map fun r => (r, flitFormat ty, out)
        match t.addressed c g (up ++ down) with
        | (t, .error x) => State.collStop s t c x
        | (t, .ok ms) =>
          match t.writeAll c ((c.arg 1, out) :: (if c.residual then [(c.arg 4, fb.2.flatMap (leBytes 4))] else [])) with
          | (t, some x) => State.collStop s t c x
          | (t, none) => t.endCollective c out.length ms

/-- `.COMP`: the lines of every tile that is written are owned before the first write (R52, R306). -/
def State.collCompose (s : State) (c : Command) (g : CollGroup) (peers : List (Nat × PeerPart)) : State :=
  match s.readAt c (c.arg 0) (32 * c.argN 2) with
  | (t, .error x) => State.collStop s t c (x.onEgress (c.collDstr != g.rank) (c.argN 0))
  | (t, .ok rb) =>
    match t.partialsOf c (c.collDstr != g.rank) ((chunks 32 (c.argN 2) rb).map leNat) with
    | (t, .error x) => State.collStop s t c x
    | (t, .ok own) =>
      match composeWrites (c.collDstr == g.rank) (c.argN 1) (c.argN 4) (own ++ peers.flatMap fun p => peerPartials p.2) with
      | .refused => t.failCommand c codeADDRBAD 0 0
      | .writes l n =>
        let part := rb ++ own.flatMap fun p => p.pixels.flatMap (leBytes 4)
        match t.addressed c g (if c.collDstr = g.rank then [] else [(c.collDstr, 0, part)]) with
        | (t, .error x) => State.collStop s t c x
        | (t, .ok ms) =>
          t.takeLines c (t.regionLines c.ctx (l.map fun w => (w.1.toNat, w.2.length)) 0) fun t => match t.writeAll c l with
            | (t, some x) => State.collStop s t c x
            | (t, none) => t.endCollective c n ms

/-- No earlier collective of the package names the group, be it held by its guard: the k-th of each member match (R304). -/
def State.firstOfGroup (s : State) (c : Command) : Bool :=
  ((s.commands.find? fun x => x.eng == 4 && !x.saved && !x.last && x.collGrp == c.collGrp).map (·.id)) == some c.id

/-- n bytes at a virtual address as they stand, 0 where it has no translation. -/
def State.glance (s : State) (ctx va n : Nat) : List Byte :=
  (List.range n).map fun i => ((s.plainKey ctx (va + i)).map (Memory.get s.mem)).getD 0

/-- Regions that a collective writes: destination and residual (R303). Of `.COMP` the tiles that this member's own records name;
those that only its peers name are owned once the members have matched (R306; log 25). -/
def State.collRegions (s : State) (c : Command) : List (Nat × Nat) :=
  let g := s.collGroup c.collGrp
  let b := c.argN 2 * collBytes c.collType
  if !c.collOk g then []
  else if c.form = 3 then
    if c.collDstr != g.rank then []
    else match s.address (c.arg 0) with
      | .here va => (List.range (c.argN 2)).map fun i =>
          let p : Partial := { record := leNat (s.glance c.ctx (va + 32 * i) 32), pixels := [] }
          (c.argN 1 + (p.view * c.argN 4 + p.tile) * 4096, 4096)
      | _ => []
  else
    (c.argN 1, if c.form = 0 then b else if c.form = 1 then b / g.members else b * g.members) ::
      (if c.residual then [(c.argN 4, 4 * c.argN 2)] else [])

/-- The lines of the windows of a collective's regions up to the one that it has reached. -/
def State.collLines (s : State) (c : Command) : List Nat :=
  dedup ((List.range (c.window + 1)).flatMap (s.regionLines c.ctx (s.collRegions c)))

/-- COLLECTIVE_COMPLETE: a started collective whose members' parts are there does its work, or one that has done it sends on
(R304 to R307). -/
def execCollectiveComplete (id : Nat) (peers : List (Nat × PeerPart)) (s : State) : Res :=
  .next (match s.command? id with
    | none => s
    | some c =>
      let g := s.collGroup c.collGrp
      if c.eng != 4 || c.phase != .started || c.xlate.isSome then s
      else if c.last then s.collSend id
      else if !s.firstOfGroup c || c.window + 1 < windowCount (s.collRegions c) then s
      else if !c.collOk g then s.failCommand c codeADDRBAD 0 0
      else if !allPeers g peers then s
      else
        let ps := peers.filter fun p => p.1 != g.rank && p.1 < g.members
        if !(ps.all fun p => c.agrees p.2) then s.failCommand c codeADDRBAD 0 0
        else s.takeLines c (s.collLines c) fun s => if c.form = 3 then s.collCompose c g ps else s.collNumeric c g ps)

end Sys2Proof.Machine
end

