-- ==== Sys2Proof/Machine/Decompress.lean ====
section
/-! DEFINITION. The block codecs of the decompression engine (spec/03_core_memory_and_engines.md R80): stored, run, and the
Compressed_Block of RFC 8878 decoded as the first block of a frame, without Treeless literals and Repeat_Mode. The
manual names the format by its RFC; what follows is that RFC's text (log 24). -/

namespace Sys2Proof.Machine

/-! ### Bit streams -/

/-- A stream read from its last bit backward: its value, and the bits left. -/
structure BackBits where
  value : Nat
  left : Nat

/-- A backward stream ends in a set marker bit in its last byte. -/
def backOf (bs : List Byte) : Option BackBits :=
  match bs.getLast? with
  | none => none
  | some b => if b = 0 then none else
    let n := leNat bs
    some { value := n, left := n.log2 }

/-- The next n bits; past the start of the stream they read zero. -/
def BackBits.peek (s : BackBits) (n : Nat) : Nat :=
  if n ≤ s.left then s.value / 2 ^ (s.left - n) % 2 ^ n else s.value % 2 ^ s.left * 2 ^ (n - s.left)

/-- The stream after n bits, or none where they are not there. -/
def BackBits.skip (s : BackBits) (n : Nat) : Option BackBits := if n ≤ s.left then some { s with left := s.left - n } else none

/-- n bits read. -/
def BackBits.read (s : BackBits) (n : Nat) : Option (Nat × BackBits) := (s.skip n).map fun t => (s.peek n, t)

/-! ### FSE tables -/

/-- A cell: its symbol, the bits that its next state takes, and the base they are added to. -/
structure FseCell where
  symbol : Nat
  bits : Nat
  base : Nat

/-- A table of 2^log cells. -/
structure FseTable where
  log : Nat
  cells : Array FseCell

def FseTable.cell (t : FseTable) (i : Nat) : FseCell := t.cells.getD i { symbol := 0, bits := 0, base := 0 }

/-- The next place of the spread. -/
def spreadNext (size high : Nat) : Nat → Nat → Nat
  | 0, pos => pos
  | fuel + 1, pos =>
    let p := (pos + size / 2 + size / 8 + 3) % size
    if p < high then p else spreadNext size high fuel p

/-- The symbol of each cell: symbols of probability -1 from the end, the others spread. -/
def spreadSymbols (size : Nat) (norm : List Int) : Array Nat :=
  let syms := (List.range norm.length).zip norm
  let low := syms.filter fun x => x.2 == -1
  let a0 : Array Nat := Array.replicate size 0
  let a1 := (low.foldl (fun (a : Array Nat × Nat) x => (a.1.setIfInBounds (a.2 - 1) x.1, a.2 - 1)) (a0, size))
  let high := a1.2
  ((syms.filter fun x => 0 < x.2).foldl (fun (a : Array Nat × Nat) x =>
    (List.range x.2.toNat).foldl (fun (a : Array Nat × Nat) _ =>
      (a.1.setIfInBounds a.2 x.1, spreadNext size high size a.2)) a) (a1.1, 0)).1

/-- The decoding table of normalised counts. -/
def fseTable (log : Nat) (norm : List Int) : FseTable :=
  let size := 2 ^ log
  let syms := spreadSymbols size norm
  let first : Array Nat := (norm.map fun n => if n == -1 then 1 else n.toNat).toArray
  let r := syms.toList.foldl (fun (a : Array Nat × List FseCell) sym =>
    let d := a.1.getD sym 1
    let nb := log - d.log2
    (a.1.setIfInBounds sym (d + 1), { symbol := sym, bits := nb, base := d * 2 ^ nb - size } :: a.2)) (first, [])
  { log := log, cells := r.2.reverse.toArray }

/-- Repeat flags of zero counts: how many more zeros, and the bit after them. -/
def zeroRun (x : Nat) : Nat → Nat → Nat × Nat
  | 0, pos => (0, pos)
  | fuel + 1, pos =>
    let r := x / 2 ^ pos % 4
    if r = 3 then
      let y := zeroRun x fuel (pos + 2)
      (3 + y.1, y.2)
    else (r, pos + 2)

/-- The counts of a table description, from bit pos of x while `rem` of the sum remains. -/
def fseCounts (x : Nat) : Nat → Nat → Nat → List Int → Option (List Int × Nat)
  | 0, _, _, _ => none
  | fuel + 1, rem, pos, acc =>
    if rem = 0 then some (acc, pos)
    else
      let w := (rem + 1).log2 + 1
      let v := x / 2 ^ pos % 2 ^ w
      let mask := 2 ^ (w - 1) - 1
      let thr := 2 ^ w - 1 - (rem + 1)
      let short := v % 2 ^ (w - 1) < thr
      let val := if short then v % 2 ^ (w - 1) else if mask < v then v - thr else v
      let pos := pos + (if short then w - 1 else w)
      let prob : Int := (val : Int) - 1
      let rem' := rem - prob.natAbs
      if rem < prob.natAbs then none
      else if prob = 0 then
        let z := zeroRun x 256 pos
        fseCounts x fuel rem' z.2 (acc ++ List.replicate (1 + z.1) 0)
      else fseCounts x fuel rem' pos (acc ++ [prob])

/-- A table description at the head of bytes: the table, and the bytes after it. -/
def fseHeader (maxLog maxSym : Nat) (bs : List Byte) : Option (FseTable × List Byte) :=
  let x := leNat (bs.take 512)
  let log := x % 16 + 5
  if maxLog < log then none
  else
    (fseCounts x 512 (2 ^ log) 4 []).bind fun r =>
      let used := ceilDiv r.2 8
      if bs.length < used || maxSym + 1 < r.1.length then none else some (fseTable log r.1, bs.drop used)

/-! ### Literals -/

/-- Weights that two interleaved states give until the stream runs out. -/
def fseWeights (t : FseTable) : Nat → BackBits → Nat → Nat → List Nat → Option (List Nat)
  | 0, _, _, _, _ => none
  | fuel + 1, s, a, b, acc =>
    let c := t.cell a
    let acc := acc ++ [c.symbol]
    match s.read c.bits with
    | none => some (acc ++ [(t.cell b).symbol])
    | some (v, s) => fseWeights t fuel s b (c.base + v) acc

/-- Huffman weights without the last, and the bytes after the tree description. -/
def huffWeights (bs : List Byte) : Option (List Nat × List Byte) :=
  match bs with
  | [] => none
  | h :: rest =>
    let h := h.toNat
    if h < 128 then
      if rest.length < h then none
      else
        (fseHeader 6 255 (rest.take h)).bind fun x =>
          (backOf x.2).bind fun s =>
            (s.read x.1.log).bind fun i =>
              (i.2.read x.1.log).bind fun j =>
                (fseWeights x.1 256 j.2 i.1 j.1 []).map fun w => (w, rest.drop h)
    else
      let n := h - 127
      let used := (n + 1) / 2
      if rest.length < used then none
      else
        some (((rest.take used).flatMap fun b => [b.toNat / 16, b.toNat % 16]).take n, rest.drop used)

/-- A Huffman table: the most bits of a code, and for each value of so many bits the symbol and its length. -/
structure HuffTable where
  log : Nat
  cells : Array (Nat × Nat)

/-- The table of weights, the last weight being what completes the sum to a power of two. -/
def huffTable (ws : List Nat) : Option HuffTable :=
  let sum := ws.foldl (fun n w => n + if w = 0 then 0 else 2 ^ (w - 1)) 0
  if sum = 0 || ws.any (fun w => decide (11 < w)) || 255 < ws.length then none
  else
    let log := sum.log2 + 1
    let left := 2 ^ log - sum
    if 11 < log || left != 2 ^ left.log2 then none
    else
      let ws := ws ++ [left.log2 + 1]
      let cells := ((List.range log).map (· + 1)).flatMap fun w =>
        ((List.range ws.length).filter fun i => ws.getD i 0 == w).flatMap fun i => List.replicate (2 ^ (w - 1)) (i, log + 1 - w)
      some { log := log, cells := cells.toArray }

/-- n symbols of one stream, which they use up exactly. -/
def huffStream (t : HuffTable) : Nat → BackBits → List Byte → Option (List Byte)
  | 0, s, acc => if s.left = 0 then some acc.reverse else none
  | n + 1, s, acc =>
    let c := t.cells.getD (s.peek t.log) (0, 0)
    match s.skip c.2 with
    | none => none
    | some s => huffStream t n s (BitVec.ofNat 8 c.1 :: acc)

/-- One stream of bytes. -/
def huffBytes (t : HuffTable) (n : Nat) (bs : List Byte) : Option (List Byte) := (backOf bs).bind fun s => huffStream t n s []

/-- Literals in one stream or four. -/
def huffLiterals (t : HuffTable) (four : Bool) (n : Nat) (bs : List Byte) : Option (List Byte) :=
  if !four then huffBytes t n bs
  else
    let len := fun (k : Nat) => leNat ((bs.drop (2 * k)).take 2)
    let body := bs.drop 6
    let q := (n + 3) / 4
    let used := len 0 + len 1 + len 2
    if bs.length < 6 || body.length < used || n < 3 * q then none
    else
      (huffBytes t q (body.take (len 0))).bind fun a =>
        (huffBytes t q ((body.drop (len 0)).take (len 1))).bind fun b =>
          (huffBytes t q ((body.drop (len 0 + len 1)).take (len 2))).bind fun c =>
            (huffBytes t (n - 3 * q) (body.drop used)).map fun d => a ++ b ++ c ++ d

/-- The literals section: the literals, and the bytes after it. -/
def literalsSection (bs : List Byte) : Option (List Byte × List Byte) :=
  let h := leNat (bs.take 5)
  let ty := h % 4
  let sf := h / 4 % 4
  if ty < 2 then
    let hl := if sf = 1 then 2 else if sf = 3 then 3 else 1
    let n := if hl = 1 then h / 8 % 2 ^ 5 else h / 16 % 2 ^ (8 * hl - 4)
    let body := if ty = 0 then n else 1
    if bs.length < hl + body then none
    else
      let d := (bs.drop hl).take body
      some (if ty = 0 then d else List.replicate n (d.headD 0), bs.drop (hl + body))
  else if ty = 3 then none
  else
    let hl := if sf < 2 then 3 else sf + 2
    let w := if sf < 2 then 10 else if sf = 2 then 14 else 18
    let n := h / 16 % 2 ^ w
    let size := h / 2 ^ (4 + w) % 2 ^ w
    if bs.length < hl + size then none
    else
      (huffWeights ((bs.drop hl).take size)).bind fun x =>
        (huffTable x.1).bind fun t =>
          (huffLiterals t (sf != 0) n x.2).map fun lits => (lits, bs.drop (hl + size))

/-! ### Sequences -/

/-- Baseline and extra bits of the literals length codes from 16. -/
def litLenTable : List (Nat × Nat) :=
  [(16, 1), (18, 1), (20, 1), (22, 1), (24, 2), (28, 2), (32, 3), (40, 3), (48, 4), (64, 6), (128, 7), (256, 8), (512, 9),
   (1024, 10), (2048, 11), (4096, 12), (8192, 13), (16384, 14), (32768, 15), (65536, 16)]
def litLen (c : Nat) : Nat × Nat := if c < 16 then (c, 0) else litLenTable.getD (c - 16) (0, 0)

/-- Baseline and extra bits of the match length codes from 32. -/
def matchLenTable : List (Nat × Nat) :=
  [(35, 1), (37, 1), (39, 1), (41, 1), (43, 2), (47, 2), (51, 3), (59, 3), (67, 4), (83, 4), (99, 5), (131, 7), (259, 8),
   (515, 9), (1027, 10), (2051, 11), (4099, 12), (8195, 13), (16387, 14), (32771, 15), (65539, 16)]
def matchLen (c : Nat) : Nat × Nat := if c < 32 then (c + 3, 0) else matchLenTable.getD (c - 32) (0, 0)

/-- The predefined distributions. -/
def litLenNorm : List Int :=
  [4, 3, 2, 2, 2, 2, 2, 2, 2, 2, 2, 2, 2, 1, 1, 1, 2, 2, 2, 2, 2, 2, 2, 2, 2, 3, 2, 1, 1, 1, 1, 1, -1, -1, -1, -1]
def matchLenNorm : List Int :=
  [1, 4, 3, 2, 2, 2, 2, 2, 2] ++ List.replicate 37 1 ++ List.replicate 7 (-1)
def offsetNorm : List Int :=
  [1, 1, 1, 1, 1, 1, 2, 2, 2] ++ List.replicate 15 1 ++ List.replicate 5 (-1)

/-- A table by its mode: predefined, one symbol, or described; Repeat_Mode is malformed (R80). -/
def seqTable (mode log : Nat) (norm : List Int) (maxLog maxSym : Nat) (bs : List Byte) : Option (FseTable × List Byte) :=
  match mode with
  | 0 => some (fseTable log norm, bs)
  | 1 => match bs with
    | [] => none
    | b :: rest =>
      if maxSym < b.toNat then none else some ({ log := 0, cells := #[{ symbol := b.toNat, bits := 0, base := 0 }] }, rest)
  | 2 => fseHeader maxLog maxSym bs
  | _ => none

/-- One sequence: literals to copy, match length, offset value. -/
structure Seq where
  lits : Nat
  len : Nat
  off : Nat

/-- The sequences of the bit stream, which they use up exactly. -/
def seqStream (ll off ml : FseTable) : Nat → BackBits → Nat → Nat → Nat → List Seq → Option (List Seq)
  | 0, _, _, _, _, acc => some acc.reverse
  | n + 1, s, a, b, c, acc =>
    let ca := ll.cell a
    let cb := off.cell b
    let cc := ml.cell c
    let lb := litLen ca.symbol
    let mb := matchLen cc.symbol
    (s.read cb.symbol).bind fun x =>
      (x.2.read mb.2).bind fun y =>
        (y.2.read lb.2).bind fun z =>
          let q : Seq := { lits := lb.1 + z.1, len := mb.1 + y.1, off := 2 ^ cb.symbol + x.1 }
          if n = 0 then (if z.2.left = 0 then some (q :: acc).reverse else none)
          else
            (z.2.read ca.bits).bind fun u =>
              (u.2.read cc.bits).bind fun v =>
                (v.2.read cb.bits).bind fun w =>
                  seqStream ll off ml n w.2 (ca.base + u.1) (cb.base + w.1) (cc.base + v.1) (q :: acc)

/-- The offset that an offset value names after so many literals, and the three recent offsets after it. -/
def offsetOf (v lits : Nat) (r : Nat × Nat × Nat) : Option (Nat × Nat × Nat × Nat) :=
  if 3 < v then some (v - 3, v - 3, r.1, r.2.1)
  else
    match v - 1 + (if lits = 0 then 1 else 0) with
    | 0 => some (r.1, r)
    | 1 => some (r.2.1, r.2.1, r.1, r.2.2)
    | 2 => some (r.2.2, r.2.2, r.1, r.2.1)
    | _ => if r.1 ≤ 1 then none else some (r.1 - 1, r.1 - 1, r.1, r.2.1)

/-- n bytes repeated from so far back. -/
def copyBack (off : Nat) : Nat → Array Byte → Array Byte
  | 0, out => out
  | n + 1, out => copyBack off n (out.push (out.getD (out.size - off) 0))

/-- The sequences executed over the literals; the literals left over follow. -/
def runSeqs : List Seq → List Byte → Array Byte → Nat × Nat × Nat → Nat → Option (List Byte)
  | [], lits, out, _, _ => some (out ++ lits.toArray).toList
  | q :: rest, lits, out, r, limit =>
    if lits.length < q.lits then none
    else
      let out := out ++ (lits.take q.lits).toArray
      match offsetOf q.off q.lits r with
      | none => none
      | some (o, r) =>
        if o = 0 || out.size < o || limit < out.size + q.len then none
        else runSeqs rest (lits.drop q.lits) (copyBack o q.len out) r limit

/-- The sequences section over its literals. -/
def sequencesSection (lits bs : List Byte) (limit : Nat) : Option (List Byte) :=
  let b := fun (k : Nat) => (bs.getD k 0).toNat
  if bs.isEmpty then none
  else if b 0 = 0 then (if bs.length = 1 then some lits else none)
  else
    let hl := if b 0 < 128 then 1 else if b 0 < 255 then 2 else 3
    let n := if b 0 < 128 then b 0 else if b 0 < 255 then (b 0 - 128) * 256 + b 1 else b 1 + b 2 * 256 + 0x7F00
    if bs.length < hl + 1 || b hl % 4 != 0 then none
    else
      let modes := b hl
      (seqTable (modes / 64) 6 litLenNorm 9 35 (bs.drop (hl + 1))).bind fun ll =>
        (seqTable (modes / 16 % 4) 5 offsetNorm 8 31 ll.2).bind fun off =>
          (seqTable (modes / 4 % 4) 6 matchLenNorm 9 52 off.2).bind fun ml =>
            (backOf ml.2).bind fun s =>
              (s.read ll.1.log).bind fun x =>
                (x.2.read off.1.log).bind fun y =>
                  (y.2.read ml.1.log).bind fun z =>
                    (seqStream ll.1 off.1 ml.1 n z.2 x.1 y.1 z.1 []).bind fun qs => runSeqs qs lits #[] (1, 4, 8) limit

/-- The decoded bytes of a Compressed_Block, or none where it is malformed. -/
def decompress (bs : List Byte) (limit : Nat) : Option (List Byte) :=
  (literalsSection bs).bind fun x => sequencesSection x.1 x.2 limit

/-! ### Blocks (R80, R82) -/

/-- A block header, or none where it breaks R82: codec, payload and decoded sizes, LAST and CHECK. -/
structure BlockHeader where
  codec : Nat
  csize : Nat
  dsize : Nat
  last : Bool
  check : Nat
  deriving DecidableEq, Repr

/-- The header of a block. R80 bounds CSIZE by 131,072 alone, so that a compressed payload may be as long as DSIZE or longer (log 75). -/
def blockHeader (bs : List Byte) : Option BlockHeader :=
  let h := leNat bs
  let x : BlockHeader :=
    { codec := bits h 23 16, csize := bits h 63 32, dsize := bits h 95 64, last := bit h 24, check := bits h 127 96 }
  if bits h 15 0 = 0xD7C3 ∧ bits h 31 25 = 0 ∧ x.codec < 3 ∧ x.csize ≤ 131072 ∧ 1 ≤ x.dsize ∧ x.dsize ≤ 131072 ∧
      (x.codec = 0 → x.csize = x.dsize) ∧ (x.codec = 2 → x.csize = 1) then some x else none

/-- The decoded bytes of a block's payload. -/
def BlockHeader.decode (h : BlockHeader) (payload : List Byte) : Option (List Byte) :=
  let out := match h.codec with
    | 0 => some payload
    | 2 => some (List.replicate h.dsize (payload.headD 0))
    | _ => decompress payload h.dsize
  out.bind fun x => if x.length = h.dsize then some x else none

end Sys2Proof.Machine
end

