-- ==== Sys2Proof/Machine/Inflate.lean ====
section
/-! DEFINITION. The decompression engine and the prologue engine (spec/03_core_memory_and_engines.md R79 to R86). A DXQ command
keeps its block index in `block`, P in `written`, P at the block's start in `step`, the stream offset of the next header in
`pos`, that of the block in hand in `next`, the decoded bytes still to be written in `buf`, and in `passes` whether the block's check
failed; a command that has been saved inside a block takes it again, with the bytes written before in `skip`. -/

namespace Sys2Proof.Machine

/-! ### DXQ (R79 to R82, R115) -/

/-- The rules of R79 on the window and the release word, with the offset at fault. -/
def State.dxCheck (s : State) (c : Command) : Option Nat :=
  let base := c.argN 1
  let size := c.argN 2
  if base % 4096 != 0 || !s.sharedOk c base size then some base
  else if size % 4096 != 0 || size < 4096 || 262144 < size then some 0
  else if c.argN 3 % 4 != 0 || !s.sharedOk c (c.argN 3) 4 then some (c.argN 3)
  else none

/-- The next block of a stream: its header, its payload decoded, and the bytes it takes up to the next header; none where
it breaks R82. The next header stands at a multiple of 16 bytes from this one (R79; log 70). -/
def State.readBlock (s : State) (c : Command) (at_ : W64) : State × Except Stop (Option (BlockHeader × List Byte × Nat)) :=
  match s.readAt c at_ 16 with
  | (s, .error x) => (s, .error x)
  | (s, .ok hb) =>
    match blockHeader hb with
    | none => (s, .ok none)
    | some h =>
      match s.readAt c (at_ + 16) h.csize with
      | (s, .error x) => (s, .error x)
      | (s, .ok payload) => (s, .ok ((h.decode payload).map fun out => (h, out, ceilDiv (16 + h.csize) 16 * 16)))

/-- The release word Q and F := (P - Q) mod 2^32 (R81). -/
def State.dxRoom (s : State) (c : Command) : Nat :=
  let q := match (List.range 4).mapM fun i => s.commandShared c (c.argN 3 + i) with
    | some ks => leNat (s.peek ks)
    | none => 0
  (c.written + 2 ^ 32 - q % 2 ^ 32) % 2 ^ 32

/-- Decoded bytes written at their window places, at most k of them. -/
def State.dxWrite (s : State) (c : Command) (k : Nat) : State :=
  let keys := (List.range k).filterMap fun i => s.commandShared c (c.argN 1 + (c.written + i) % c.argN 2)
  s.commit c.ctx 1 (keys.zip (c.buf.take k))

/-- The block in hand ends: its event, or DXCHECK (R82); after the last the command is done. -/
def State.dxEnd (s : State) (c : Command) : State :=
  if c.passes != 0 then s.finishCommand c 2 c.step c.block codeDXCHECK 0
  else if c.last then s.finishCommand c 0 c.written c.block 0 0
  else ((s.postLater c 0 c.written (c.block * 256)).modCommand c.id fun _ => { c with block := c.block + 1 })

/-- The bytes of the block in hand go out as far as the consumers' release word lets them (R81). -/
def State.dxDrain (s : State) (c : Command) : State :=
  let f := s.dxRoom c
  let w := c.argN 2
  if w < f then s.finishCommand c 2 c.written c.block codeDXFORMAT 0
  else
    let k := min (w - f) c.buf.length
    let s := s.dxWrite c k
    let c := { c with written := c.written + k, buf := c.buf.drop k, polling := decide (k < c.buf.length) }
    if c.buf.isEmpty then s.dxEnd c else s.modCommand c.id fun _ => c

/-- DXQ_BLOCK: the engine takes the next block, or goes on with the one in hand, and finishes it or waits (R80 to R82). -/
def execDxqBlock (id : Nat) (s : State) : Res :=
  .next (match s.command? id with
    | none => s
    | some c =>
      if c.eng != 2 || c.phase != .started || c.saved || c.polling || c.xlate.isSome then s
      else if !c.buf.isEmpty then s.dxDrain c
      else match s.readBlock c (c.arg 0 + BitVec.ofNat 64 c.pos) with
        | (_, .error .wait) => s
        | (_, .error .limit) => s
        | (s, .error (.fault code addr)) => s.failCommand c code addr c.block
        | (s, .error (.check code key)) => s.checkCommand c code key c.block
        | (s, .error (.xlate addr)) => s.commandXlate c addr
        | (s, .ok none) => s.finishCommand c 2 c.written c.block codeDXFORMAT 0
        | (s, .ok (some (h, out, n))) =>
          s.dxDrain { c with
            pos := c.pos + n, next := c.pos, buf := out.drop c.skip, step := c.written - c.skip, skip := 0, last := h.last
            passes := if crc32c out = h.check then 0 else 1 })

/-- DXQ_RELEASE_POLL: a waiting engine reads the release word (R81). -/
def execDxqReleasePoll (id : Nat) (s : State) : Res :=
  .next (match s.command? id with
    | none => s
    | some c =>
      if c.eng != 2 || c.phase != .started || c.saved || !c.polling then s
      else if c.argN 2 < s.dxRoom c then s.finishCommand c 2 c.written c.block codeDXFORMAT 0
      else if s.dxRoom c < c.argN 2 then s.modCommand id fun x => { x with polling := false }
      else s)

/-! ### Prologue bindings (R83 to R86) -/

/-- The engine of a team's prologue as a command of its context: shared ends are those of the first core. -/
def prologueCommand (t : Team) : Command :=
  { id := 0, eng := 6, place := t.core, owner := none, job := none, node := none, ctx := t.ctx, batch := 0, tag := 0, pc := 0,
    guard := none, discarded := false, form := 0, args := [], phase := .started, saved := false, xlate := none, written := 0, pos := 0, next := 0,
    block := 0, step := 0, passes := 0, buf := [], last := false, owned := [], window := 0, polling := false, outbox := [] }

/-- Global bytes that the prologue reads. -/
def State.prologueRead (s : State) (t : Team) (a : W64) (n : Nat) : State × Except Stop (List Byte) :=
  match s.address a with
  | .here va => match s.spots t.core t.ctx va n .read with
    | (s, .error f) => (s, .error (stopOf f va))
    | (s, .ok l) =>
      if (s.deviceStall false (l.map (·.key))).isSome then (s, .error .wait)
      else match s.readCheck l with
        | some (code, key) => (s, .error (.check code key))
        | none =>
          let s := s.beforeRead t.ctx t.core false l
          (s, .ok (s.readSpots l))
  | .remote _ _ => (s, .error (.fault codeADDRBAD a.toNat))
  | .bad => (s, .error (.fault codeADDRBAD a.toNat))

/-- Shared bytes that the prologue writes. -/
def State.prologueWrite (s : State) (t : Team) (o : Nat) (bs : List Byte) : State :=
  let keys := (List.range bs.length).filterMap fun i => sharedKey t false (o + i)
  s.commit t.ctx 1 (keys.zip bs)

/-- A run of the prologue: its source is global or zero. -/
def State.prologueRun (t : Team) (m : State × Option Stop) (r : Haul) : State × Option Stop :=
  match m.2 with
  | some _ => m
  | none =>
    match (match r.src with
      | .glob a => m.1.prologueRead t a r.n
      | _ => (m.1, .ok (List.replicate r.n 0))) with
    | (s, .error x) => (s, some x)
    | (s, .ok bs) => (s.prologueWrite t r.dst.addr bs, none)

/-- The type of a binding's format number (R84). -/
def bindType (fmt : Nat) : CvtType :=
  match fmt with
  | 1 => .flt fp32
  | 2 => .flt fp16
  | 3 => .flt bf16
  | 4 => .flt e5m2
  | 5 => .flt e4m3
  | _ => .int 8 true

/-- Elements converted as CVT does with RNE and SAT = 0. -/
def convertBytes (from_ dest : Nat) (bs : List Byte) : List Byte :=
  let n := (bindBytes from_).getD 1
  let m := (bindBytes dest).getD 1
  (chunks n (bs.length + 1) bs).flatMap fun e =>
    leBytes m ((bindType dest).write .rne false 0 modeReset ((bindType from_).read modeReset (leNat e))).code

/-- The blocks of a stream decoded one after another, with the block index; `left`: bytes that the binding still lacks. A block that
breaks R82 is a fault at P at the block's start, and so is one with which the decoded total leaves LEN (R84; log 75). -/
def State.inflateAll (t : Team) : Nat → State → W64 → Nat → Nat → List Byte → State × Nat × Except Stop (List Byte)
  | 0, s, _, k, _, acc => (s, k, .error (.fault codeDXFORMAT acc.length))
  | fuel + 1, s, at_, k, left, acc =>
    match s.prologueRead t at_ 16 with
    | (s, .error x) => (s, k, .error x)
    | (s, .ok hb) =>
      match blockHeader hb with
      | none => (s, k, .error (.fault codeDXFORMAT acc.length))
      | some h =>
        match s.prologueRead t (at_ + 16) h.csize with
        | (s, .error x) => (s, k, .error x)
        | (s, .ok payload) =>
          match h.decode payload with
          | none => (s, k, .error (.fault codeDXFORMAT acc.length))
          | some out =>
            if crc32c out != h.check then (s, k, .error (.fault codeDXCHECK acc.length))
            else if left < out.length then (s, k, .error (.fault codeDXFORMAT acc.length))
            else if h.last then
              (if out.length = left then (s, k, .ok (acc ++ out)) else (s, k, .error (.fault codeDXFORMAT acc.length)))
            else State.inflateAll t fuel s (at_ + BitVec.ofNat 64 (ceilDiv (16 + h.csize) 16 * 16)) (k + 1) (left - out.length) (acc ++ out)

/-- The rows of a gather binding (R84). -/
def State.gatherRows (t : Team) (b : Nat) (m : State × Option Stop) (j : Nat) : State × Option Stop :=
  match m.2 with
  | some _ => m
  | none =>
    let rb := 16 * bindP0 b
    match m.1.prologueRead t (BitVec.ofNat 64 (bindAux b + t.lin * bindStride b + 4 * j)) 4 with
    | (s, .error x) => (s, some x)
    | (s, .ok ib) =>
      let idx := leNat ib
      let src : Wend := if idx = 0xFFFFFFFF then .zero else .glob (BitVec.ofNat 64 (bindSrc b + idx * rb))
      State.prologueRun t (s, none) { dst := .shared (bindDst b + j * rb), src := src, n := rb }

/-- One binding of a team: the state, the block index, and why it stops. -/
def State.runBinding (s : State) (t : Team) (b : Nat) : State × Nat × Option Stop :=
  let len := bindLen b
  let dst := bindDst b
  match bindKind b with
  | 1 =>
    match s.prologueRead t (BitVec.ofNat 64 (bindAux b)) 32 with
    | (s, .error x) => (s, 0, some x)
    | (s, .ok bs) =>
      let r := ShapeRec.ofNat (leNat bs)
      if !r.ok dst || r.bytes != len then (s, 0, some (.fault codeADDRBAD 0))
      else
        let at_ : Int × Int × Int := ((t.x * (r.box0 + 1) : Nat), (t.y * (r.box1 + 1) : Nat), (t.z * (r.box2 + 1) : Nat))
        let runs := (List.range (r.box2 + 1)).flatMap fun b2 => (List.range (r.box1 + 1)).flatMap fun b1 => r.row false dst at_ b1 b2
        let x := runs.foldl (State.prologueRun t) (s, none)
        (x.1, 0, x.2)
  | 2 =>
    let x := (List.range (len / (16 * bindP0 b))).foldl (State.gatherRows t b) (s, none)
    (x.1, 0, x.2)
  | 3 =>
    let n := len / (bindBytes (bindP1 b)).getD 1
    match s.prologueRead t (BitVec.ofNat 64 (bindSrc b + t.lin * bindStride b)) (n * (bindBytes (bindP0 b)).getD 1) with
    | (s, .error x) => (s, 0, some x)
    | (s, .ok bs) => (s.prologueWrite t dst (convertBytes (bindP0 b) (bindP1 b) bs), 0, none)
  | _ =>
    match State.inflateAll t (len + 1) s (BitVec.ofNat 64 (bindSrc b + t.lin * bindStride b)) 0 len [] with
    | (s, k, .error x) => (s, k, some x)
    | (s, k, .ok bs) => (s.prologueWrite t dst bs, k, none)

/-- A fault other than a translation fault ends a team before it starts, once the event of the prologue engine is in its ring
(R86). `p`: the event's AUX0. -/
def State.failTeam (s : State) (t : Team) (code addr p aux : Nat) : State :=
  let w := exitWord code 0xFF 0xFFFF
  let post : Post := { team := t.id, eng := 6, status := 2, tag := 0, batch := 0, aux0 := BitVec.ofNat 64 p, aux1 := BitVec.ofNat 64 aux }
  let s := ({ s with posts := s.posts ++ [post] }).flushPosts t.id
  let s := s.post t.ctx { exst := w, cseq := t.seq, aux := aux, addr := addr, core := t.core, team := t.lin,
                          cls := classOf code, code := code }
  (t.groups.filter fun g => !g.ended).foldl (fun s g => s.endGroup t.id g.index (some w)) s

/-- The records that a node hands a team stand before its bindings: the records at offset 0, their number and the first
position at the top (R247). -/
def State.placeRecords (s : State) (t : Team) : State × Option Stop :=
  let edge : Option Edge := match t.origin with
    | .node seq node => (s.graph? seq).bind fun g => g.edges.find? fun e => e.dst == node
    | _ => none
  match edge with
  | none => (s, none)
  | some e =>
    match s.prologueRead t (BitVec.ofNat 64 (e.base + t.placedFirst * e.rsize)) (t.placed * e.rsize) with
    | (s, .error x) => (s, some x)
    | (s, .ok bs) =>
      let top := t.launch.shared * 65536
      (((s.prologueWrite t 0 bs).prologueWrite t (top - 16) (leBytes 4 t.placed)).prologueWrite t (top - 8) (leBytes 8 t.placedFirst), none)

/-- The prologue step that places a node's records; steps 0 to 7 are the bindings. -/
def recordStep : Nat := 8

/-- PROLOGUE_BINDING: the next binding of a team; after the last its groups may issue (R86). One team of a core at a time. -/
def execPrologueBinding (team : Nat) (s : State) : Res :=
  .next (match s.team? team with
    | none => s
    | some t =>
      match t.prologue with
      | none => s
      | some k =>
        if t.xlate.isSome || (s.teams.find? fun x => x.core == t.core && x.prologue.isSome).map (·.id) != some team then s
        else
          let b := (t.launch.binds.getD k 0).toNat
          let after := if k = recordStep then some 0 else if k = 7 then none else some (k + 1)
          let next := fun (s : State) => s.modTeam team fun t => { t with prologue := after }
          if k != recordStep && bindKind b = 0 then next s
          else match (if k = recordStep then let x := s.placeRecords t; (x.1, 0, x.2) else s.runBinding t b) with
            | (s', _, none) => next s'
            | (_, _, some .wait) => s
            | (_, _, some .limit) => s
            | (s', _, some (.xlate addr)) =>
              (s'.postXlate t.ctx { cseq := t.seq, aux := 3, addr := addr, core := t.core, team := t.lin }).modTeam team fun t =>
                { t with xlate := some (t.ctx, addr / 65536) }
            | (s', _, some (.check code key)) => s'.machineCheck t.core t.ctx code key
            | (s', j, some (.fault code addr)) =>
              let stream := code == codeDXFORMAT || code == codeDXCHECK
              s'.failTeam t code (if stream then 0 else addr) addr (code + j * 256))

end Sys2Proof.Machine
end

