-- ==== Sys2Proof/Machine/Journal.lean ====
section
/-! DEFINITION. Taken commands and their journal (spec/14_scheduling.md R340, R344): which command holds a hardware slot, and
what the scheduler writes into the journal and the tables of physical memory. -/

namespace Sys2Proof.Machine

/-! ### Tables in physical memory -/

/-- A write of n bytes of a table waits: an engine command owns its line, or a thread holds its granule (R52, R106). -/
def State.tableBusy (s : State) (key n : Nat) : Bool := (s.deviceStall true ((List.range n).map (key + ·))).isSome

/-- Bytes written by the scheduler into a table of its own, in no context's name: no touch bit is set (R373). -/
def State.tableWrite (s : State) (key : Nat) (bs : List Byte) : State :=
  let kvs := keyed key bs
  let s' := (s.mergeLines (linesOf (kvs.map Prod.fst))).deviceWrite 0 0 kvs
  { s' with dies := tab 2 fun i => { s'.die i with touch := (s.die i).touch } }

/-- The key of the entry of a queue (R338). -/
def State.queueKey (s : State) (q : Nat) : Nat := s.sys.qtab.toNat % 2 ^ 40 + 64 * q
def State.queue (s : State) (q : Nat) : Queue := (assoc q s.queues).getD Queue.fresh
def State.setQueue (s : State) (q : Nat) (x : Queue) : State := { s with queues := assocSet q x s.queues }

/-- The fields of a queue entry (R338). -/
def entryLOG2N (e : Nat) : Nat := bits e 4 0
def entryV (e : Nat) : Bool := bit e 8
def entryPRIO (e : Nat) : Nat := bits e 11 9
def entryCTX (e : Nat) : Nat := bits e 31 24
def entrySLICE (e : Nat) : Nat := if bits e 63 32 = 0 then 100 else bits e 63 32
def entryRING (e : Nat) : Nat := bits e 391 336
def entryDBADDR (e : Nat) : Nat := bits e 447 392
def entryRDPTR (e : Nat) : Nat := bits e 511 448

/-! ### Commands and slots (R340, R342) -/

def State.job? (s : State) (seq : Nat) : Option Job := s.jobs.find? fun j => j.seq == seq
def State.modJob (s : State) (seq : Nat) (f : Job → Job) : State :=
  { s with jobs := updateFirst (fun j => j.seq == seq) f s.jobs }

/-- The hardware slot that a queue holds. -/
def State.queueSlot (s : State) (q : Nat) : Option (Nat × Slot) :=
  ((List.range 64).filterMap fun k => (nth s.slots k none).map fun x => (k, x)).find? fun x => x.2.queue == q

/-- The queue of a command holds a slot that is not being taken from it; teams placed from outside have no command
(log 20). -/
def State.jobRuns (s : State) (seq : Nat) : Bool :=
  match s.job? seq with
  | none => true
  | some j => match s.queueSlot j.queue with
    | some (_, x) => !x.displacing
    | none => false

/-- Priority of a command's slot. -/
def State.prioOf (s : State) (seq : Nat) : Nat :=
  match s.job? seq with
  | some j => entryPRIO (s.queueEntry j.queue)
  | none => 0

/-! ### The journal (R344) -/

/-- The key of the journal entry of a sequence number. -/
def State.journalKey (s : State) (seq : Nat) : Nat := s.sys.jbase.toNat % 2 ^ 40 + 64 * (seq % 2 ^ 20)

/-- The 64 bytes of an entry. -/
def journalBytes (j : Job) (status end_ : Nat) : List Byte :=
  leBytes 8 j.seq ++ leBytes 1 j.kind ++ leBytes 1 j.ctx ++ leBytes 2 j.queue ++ leBytes 1 status ++ leBytes 17 0 ++
    leBytes 2 j.tag ++ leBytes 8 j.ridx ++ leBytes 8 j.accept ++ leBytes 8 j.start ++ leBytes 8 end_

/-- A command starts: START is written, and the next one of its queue may be taken. -/
def State.startJob (s : State) (seq : Nat) : State :=
  match s.job? seq with
  | none => s
  | some j =>
    if j.started || j.ended then s
    else ((s.modJob seq fun j => { j with started := true, start := s.time }).tableWrite (s.journalKey seq + 48)
      (leBytes 8 s.time))

end Sys2Proof.Machine
end

