-- ==== Sys2Proof/Machine/Distributor.lean ====
section
/-! DEFINITION. The distributor (spec/14_scheduling.md R346 to R349, R353, R354): reading and refusing a launch record, grids, and
the placing of their teams. -/

namespace Sys2Proof.Machine

/-! ### Reading a launch record (R346, R348) -/

/-- The team fits an empty core, and a twin team finds a live pair. -/
def State.launchFits (s : State) (l : Launch) : Bool :=
  let needs := l.needs fun _ => false
  let empty := List.replicate 4 (0, 0)
  (assignQuarters empty (needs.take l.groups)).isSome && (assignQuarters empty (needs.drop l.groups)).isSome &&
    (!l.twin || (List.range 256).any fun k => s.coreLive (2 * k) && s.coreLive (2 * k + 1))

/-- The layout bindings of a launch record keep R85: LEN is the size of the box. A shape record that cannot be reached is left to the
prologue, which ends the team (R86; log 22). -/
def State.layoutsFit (ctx : Nat) : List (BitVec 256) → State → State × Except MemFault Bool
  | [], s => (s, .ok true)
  | b :: rest, s =>
    if bindKind b.toNat != 1 then State.layoutsFit ctx rest s
    else match s.deviceLoad ctx (BitVec.ofNat 64 (bindAux b.toNat)) 32 with
      | (s, .error (.prog _ _)) => State.layoutsFit ctx rest s
      | (s, .error .fenced) => State.layoutsFit ctx rest s
      | (s, .error f) => (s, .error f)
      | (s, .ok bs) => if (ShapeRec.ofNat (leNat bs)).bytes = bindLen b.toNat then State.layoutsFit ctx rest s else (s, .ok false)

/-- The launch record at an address of a context; none where R348 refuses it, for its alignment too, which is checked after its address
(R343). -/
def State.launchRead (s : State) (ctx : Nat) (a : W64) : State × Except MemFault (Option Launch) :=
  match s.deviceLoad ctx a 512 with
  | (s, .error f) => (s, .error f)
  | (s, .ok bs) =>
    let l := Launch.ofBytes a.toNat bs
    if !Launch.ok a.toNat bs then (s, .ok none)
    else match State.layoutsFit ctx l.binds s with
      | (s, .error f) => (s, .error f)
      | (s, .ok fit) => (s, .ok (if fit && s.launchFits l then some l else none))

/-! ### Grids -/

/-- A grid of n teams that begins at linear index `first`. -/
def State.newGrid (s : State) (seq : Nat) (origin : Origin) (ctx : Nat) (l : Launch) (first n : Nat) (handed : List (Nat × Nat × Nat)) :
    State :=
  { s with
    grids := s.grids ++ [{ id := s.nextGrid, seq := seq, origin := origin, ctx := ctx, launch := l, next := first,
                           total := first + n, handed := handed, ended := first, faults := 0 }]
    nextGrid := s.nextGrid + 1 }

/-- The whole grid of a launch record. -/
def State.launchGrid (s : State) (seq : Nat) (origin : Origin) (ctx : Nat) (l : Launch) : State :=
  s.newGrid seq origin ctx l 0 (l.gx * l.gy * l.gz) []

/-- Every team of a grid has ended. -/
def Grid.done (g : Grid) : Bool := g.ended == g.total

def State.dropGrid (s : State) (id : Nat) : State := { s with grids := s.grids.filter fun g => g.id != id }

/-! ### Placing (R349) -/

/-- The seat and the local slot of a grid's next team. -/
def State.seatFor (s : State) (g : Grid) : Option (Seat × Nat) :=
  if g.total ≤ g.next || !s.jobRuns g.seq then none
  else match s.seat g.launch fun _ => false, s.localSlotFor g.ctx g.launch with
    | some x, some k => some (x, k)
    | _, _ => none

/-- The grid to be served: of the highest priority of those whose next team can be placed, the first in the round. -/
def State.placePick (s : State) : Option Nat :=
  let ok := s.grids.filter fun g => (s.seatFor g).isSome
  (ok.foldl (fun (best : Option Grid) g => match best with
    | none => some g
    | some b => if s.prioOf b.seq < s.prioOf g.seq then some g else best) none).map (·.id)

/-- The queue of a grid's slot. -/
def State.gridQueue (s : State) (g : Grid) : Option Nat := (s.job? g.seq).map (·.queue)

/-- A slot that has been served goes to the end of the round; its grids keep their order. -/
def State.rotate (s : State) (g : Grid) : State :=
  let mine := fun (x : Grid) => s.gridQueue x == s.gridQueue g
  { s with grids := s.grids.filter (fun x => !mine x) ++ s.grids.filter mine }

/-- The next team of a grid in a seat. -/
def Grid.team (g : Grid) (x : Seat) (localSlot id : Nat) : Team :=
  let l := g.launch
  let n := g.next
  let handed := (g.handed.find? fun h => h.1 == n).map Prod.snd
  let binds := l.binds.any fun b => bindKind b.toNat != 0
  { l.startTeam x id with
    grid := g.id, origin := g.origin, seq := g.seq, ctx := g.ctx, x := n % l.gx, y := n / l.gx % l.gy, z := n / (l.gx * l.gy),
    lin := n, localSlot := localSlot, placed := (handed.map Prod.fst).getD 0, placedFirst := (handed.map Prod.snd).getD 0,
    prologue := if handed.isSome then some recordStep else if binds then some 0 else none }

/-- TEAM_PLACE: the next team of a grid is placed; a command whose first team it is starts (R342, R349). -/
def execTeamPlace (grid : Nat) (s : State) : Res :=
  .next (match s.grids.find? fun g => g.id == grid with
    | none => s
    | some g =>
      if s.placePick != some grid then s
      else match s.seatFor g with
        | none => s
        | some (x, k) =>
          let s := { s with
            grids := updateFirst (fun (y : Grid) => y.id == grid) (fun y => { y with next := y.next + 1 }) s.grids
            nextTeam := s.nextTeam + 1 }.settle (g.team x k s.nextTeam)
          (match g.origin with
            | .command seq => s.startJob seq
            | _ => s).rotate g)

/-! ### LAUNCHQ (R354) -/

/-- LAUNCHQ reaches the launch engine: its record is read and its grid made, or the command ends. -/
def State.startLaunchq (s : State) (c : Command) : State :=
  match s.launchRead c.ctx (c.arg 0) with
  | (s, .error (.xlate va)) => s.commandXlate c va
  | (_, .error (.busy _)) => s
  | (s, .error (.check code key)) => s.checkCommand c code key 0
  | (s, .error (.prog code _)) => s.failCommand c code (c.argN 0) 0
  | (s, .error .fenced) => s.failCommand c codeTILEFENCED (c.argN 0) 0
  | (s, .ok none) => s.failCommand c codeADDRBAD (c.argN 0) 0
  | (s, .ok (some l)) =>
    if c.argN 1 % 16 != 0 then s.failCommand c codeADDRBAD (c.argN 1) 0
    else
      let l := if c.argN 1 = 0 then l else { l with param := c.argN 1 }
      (s.modCommand c.id fun x => { x with phase := .started, guard := none }).launchGrid (s.commandSeq c) (.launchq c.id) c.ctx l

/-- LAUNCHQ_COMPLETE: every child team has ended. -/
def execLaunchqComplete (id : Nat) (s : State) : Res :=
  .next (match s.command? id, s.grids.find? fun g => g.origin == .launchq id with
    | some c, some g => if g.done then (s.dropGrid g.id).finishCommand c 0 g.total g.faults 0 0 else s
    | _, _ => s)

end Sys2Proof.Machine
end

