-- ==== Sys2Proof/Machine/Sort.lean ====
section
/-! DEFINITION. The sort engine (spec/10_splat_pipeline.md R255 to R260). A sort keeps in `last` whether its counting pass is done,
in `step` the next digit, in `passes` the digit passes and copies done, in `block` the code of its last step and in `written`
the bytes written. Its arguments are the six values of R256. -/

namespace Sys2Proof.Machine

/-! ### The configuration (R256, R257) -/

def Command.keysAt (c : Command) : W64 := c.arg 0
def Command.payAt (c : Command) : W64 := c.arg 1
def Command.scratchAt (c : Command) : W64 := c.arg 2
def Command.count (c : Command) : Nat := c.argN 3
def Command.tableAt (c : Command) : W64 := c.arg 4
def Command.dlo (c : Command) : Nat := bits (c.argN 5) 2 0
def Command.dhi (c : Command) : Nat := bits (c.argN 5) 5 3
def Command.tiles (c : Command) : Nat := bits (c.argN 5) 55 32
def Command.views (c : Command) : Nat := bits (c.argN 5) 63 56 + 1
/-- E: entries of the range table. -/
def Command.entries (c : Command) : Nat := c.views * c.tiles

/-- The four regions of a sort, each an address and its bytes. -/
def Command.regions (c : Command) : List (Nat × Nat) :=
  [(c.argN 0, 8 * c.count), (c.argN 1, 4 * c.count), (c.argN 2, 12 * c.count)] ++
    if c.argN 4 = 0 then [] else [(c.argN 4, 8 * c.entries)]

/-- Two regions of a list share a byte. -/
def regionsMeet : List (Nat × Nat) → Bool
  | [] => false
  | x :: xs =>
    (xs.any fun y => x.2 != 0 && y.2 != 0 && decide (x.1 < y.1 + y.2) && decide (y.1 < x.1 + x.2)) || regionsMeet xs

/-- Regions with the addresses that name this package as local ones (R36). -/
def State.localRegions (s : State) (l : List (Nat × Nat)) : List (Nat × Nat) :=
  l.map fun r => match s.address (BitVec.ofNat 64 r.1) with
    | .here va => (va, r.2)
    | _ => r

/-- The config word of a sort has no reserved value (R256). -/
def sortWordOk (w : Nat) : Bool := bits w 31 6 == 0 && decide (bits w 2 0 ≤ bits w 5 3) && bits w 55 32 != 0

/-- The rules of R257 that are checked before any read. -/
def State.sortOk (s : State) (c : Command) : Bool :=
  sortWordOk (c.argN 5) && c.argN 0 % 8 == 0 && c.argN 1 % 4 == 0 && c.argN 2 % 8 == 0 && c.argN 4 % 8 == 0 &&
    decide (c.count < 2 ^ 31) && !regionsMeet (s.localRegions c.regions) &&
    (c.argN 4 == 0 || (c.dhi == 7 && decide (c.dlo ≤ 4))) && decide (c.entries ≤ 2 ^ 28)

/-- Windows of the largest region. -/
def Command.sortWindows (c : Command) : Nat := windowCount c.regions

/-! ### Steps (R255, R258) -/

/-- Digit d of a key. -/
def digit (d key : Nat) : Nat := key / 2 ^ (8 * d) % 256

/-- Every key has one digit d: the pass is not performed. -/
def oneBin (d : Nat) (keys : List Nat) : Bool :=
  match keys with
  | [] => true
  | k :: rest => rest.all fun x => digit d x == digit d k

/-- A stable pass by digit d. -/
def digitPass (d : Nat) (ks : List (Nat × Nat)) : List (Nat × Nat) :=
  (List.range 256).flatMap fun b => ks.filter fun x => digit d x.1 == b

/-- The entry of a key in the range table. -/
def Command.entryOf (c : Command) (key : Nat) : Nat := bits key 63 56 * c.tiles + bits key 55 32

/-- The range table's bytes: start and count of each entry. -/
def Command.rangeTable (c : Command) (keys : List Nat) : List Byte :=
  (List.range c.entries).flatMap fun e =>
    leBytes 4 (keys.filter fun k => c.entryOf k < e).length ++ leBytes 4 (keys.filter fun k => c.entryOf k == e).length

def wordsIn8 (n : Nat) (bs : List Byte) : List Nat := (chunks 8 n bs).map leNat
def wordsIn4 (n : Nat) (bs : List Byte) : List Nat := (chunks 4 n bs).map leNat

/-- The current buffer: keys with payloads, in K and Q or, after an odd number of passes, in scratch. -/
def State.sortRead (s : State) (c : Command) (scratch : Bool) : State × Except Stop (List (Nat × Nat)) :=
  let n := c.count
  let pa := if scratch then c.scratchAt + BitVec.ofNat 64 (8 * n) else c.payAt
  match s.readAt c (if scratch then c.scratchAt else c.keysAt) (8 * n) with
  | (s, .error x) => (s, .error x)
  | (s, .ok kb) => match s.readAt c pa (4 * n) with
    | (s, .error x) => (s, .error x)
    | (s, .ok qb) => (s, .ok ((wordsIn8 n kb).zip (wordsIn4 n qb)))

/-- Keys and payloads written to one buffer. -/
def State.sortWrite (s : State) (c : Command) (scratch : Bool) (l : List (Nat × Nat)) : State × Option Stop :=
  let pa := if scratch then c.scratchAt + BitVec.ofNat 64 (8 * c.count) else c.payAt
  match s.writeAt c (if scratch then c.scratchAt else c.keysAt) (l.flatMap fun x => leBytes 8 x.1) with
  | (s, some x) => (s, some x)
  | (s, none) => s.writeAt c pa (l.flatMap fun x => leBytes 4 x.2)

/-- What follows a stop of a step: it waits, replays, or ends the sort with the step's code. -/
def State.sortStop (old s : State) (c : Command) (code : Nat) (x : Stop) : State :=
  match x with
  | .fault e addr => s.failCommand c e addr code
  | .check e key => s.checkCommand c e key code
  | .xlate addr => s.commandXlate c addr
  | .wait => old
  | .limit => old

/-- A step that goes on: its event, and the command after it. -/
def State.sortNext (s : State) (c : Command) (code bytes : Nat) (h : Command → Command) : State :=
  (s.postLater c 0 bytes (code * 256)).modCommand c.id fun x => h { x with block := code, written := x.written + bytes }

/-- The key records of a node's input queues, in ascending edge order (R260). -/
def State.nodeInput (s : State) (c : Command) (seq node : Nat) : State × Except Stop (List (Nat × Nat)) :=
  match s.graph? seq with
  | none => (s, .ok [])
  | some g => (g.edges.filter fun e => e.dst == node).foldl (fun (r : State × Except Stop (List (Nat × Nat))) e =>
    match r with
    | (s, .error x) => (s, .error x)
    | (s, .ok l) => match s.readAt c (BitVec.ofNat 64 e.base) (e.committed * 16) with
      | (s, .error x) => (s, .error x)
      | (s, .ok bs) =>
        (s, .ok (l ++ (chunks 16 e.committed bs).map fun x => (leNat (x.take 8), leNat ((x.drop 8).take 4))))) (s, .ok [])

/-- The first key of a list that the table has no entry for (R257). -/
def Command.badKey (c : Command) (l : List (Nat × Nat)) : Option Nat :=
  if c.argN 4 = 0 then none
  else (List.range l.length).find? fun i =>
    let k := (l.getD i (0, 0)).1
    decide (c.views ≤ bits k 63 56) || decide (c.tiles ≤ bits k 55 32)

/-- The counting pass: every key is checked before a byte is written; a SORTER's input is then copied into K and Q (R257,
R260). -/
def State.sortCount (s : State) (c : Command) : State :=
  let load := match c.node with
    | none => s.sortRead c false
    | some (seq, node) => s.nodeInput c seq node
  match load with
  | (t, .error x) => State.sortStop s t c 0x10 x
  | (t, .ok l) =>
    match c.badKey l with
    | some i => t.finishCommand c 2 i 0x10 codeSORTBAD 0
    | none => match (if c.node.isSome then t.sortWrite c false l else (t, none)) with
      | (t, some x) => State.sortStop s t c 0x10 x
      | (t, none) => t.sortNext c 0x10 0 fun x => { x with last := true, step := c.dlo }

/-- The range table, which is also the completion. -/
def State.sortTable (s : State) (c : Command) : State :=
  if c.argN 4 = 0 then s.finishCommand c 0 0 0x30 0 0
  else match (if c.count = 0 then (s, .ok []) else s.readAt c c.keysAt (8 * c.count)) with
    | (t, .error x) => State.sortStop s t c 0x30 x
    | (t, .ok kb) => match t.writeAt c c.tableAt (c.rangeTable (wordsIn8 c.count kb)) with
      | (t, some x) => State.sortStop s t c 0x30 x
      | (t, none) => t.finishCommand c 0 (8 * c.entries) 0x30 0 0

/-- The next digit pass that is performed, the copy-back, or the table. -/
def State.sortPass (s : State) (c : Command) : State :=
  let odd := c.passes % 2 == 1
  match s.sortRead c odd with
  | (t, .error x) => State.sortStop s t c c.step x
  | (t, .ok l) =>
    match (List.range 8).find? fun d => decide (c.step ≤ d) && decide (d ≤ c.dhi) && !oneBin d (l.map Prod.fst) with
    | some d => match t.sortWrite c (!odd) (digitPass d l) with
      | (t, some x) => State.sortStop s t c d x
      | (t, none) => t.sortNext c d (12 * c.count) fun x => { x with passes := x.passes + 1, step := d + 1 }
    | none =>
      if odd then match t.sortWrite c false l with
        | (t, some x) => State.sortStop s t c 0x20 x
        | (t, none) => t.sortNext c 0x20 (12 * c.count) fun x => { x with passes := x.passes + 1, step := 8 }
      else t.sortTable c

/-- The lines of the windows of a sort's regions up to the one that it has reached; those that had no translation when their window
was taken are among them once they have one (R52). -/
def State.sortLines (s : State) (c : Command) : List Nat :=
  dedup ((List.range (c.window + 1)).flatMap (s.regionLines c.ctx c.regions))

/-- SORT_STEP: the next step of a started sort ends (R255). -/
def execSortStep (id : Nat) (s : State) : Res :=
  .next (match s.command? id with
    | none => s
    | some c =>
      if c.eng != 3 || c.phase != .started || c.saved || c.xlate.isSome || c.window + 1 < c.sortWindows then s
      else s.takeLines c (s.sortLines c) fun s =>
        if c.count = 0 then s.sortTable c
        else if !c.last then s.sortCount c
        else s.sortPass c)

end Sys2Proof.Machine
end

