-- ==== Sys2Proof/Machine/EngineEvents.lean ====
section
/-! DEFINITION. The start and the completion of engine commands, their ownership windows, and the posting of events
(spec/02_memory_and_translation.md R52; spec/03_core_memory_and_engines.md R68, R71 to R73, R75; spec/11_memory_model.md R284). -/

namespace Sys2Proof.Machine

/-! ### Starting (R52, R68, R71, R284) -/

/-- Commands of an engine that may be active at once (R68, R256). -/
def activeLimit (eng : Nat) : Nat :=
  match eng with
  | 0 => 4
  | 1 => 2
  | 2 => 2
  | 3 => 2
  | _ => 2 ^ 32

/-- The engine has room for one more active command. -/
def State.engineFree (s : State) (c : Command) : Bool :=
  decide ((s.commands.filter fun x => x.eng == c.eng && x.place == c.place && x.phase == .started && !x.saved).length < activeLimit c.eng)

/-- The guard slot that a command at the head of its queue sees. -/
def State.guardSeen (s : State) (c : Command) : GuardState :=
  if c.discarded then .isFalse
  else match c.guard, c.owner with
    | some g, some (t, _) => match s.anyTeam t with
      | some tm => nth tm.guards g .unresolved
      | none => .isFalse
    | _, _ => .isTrue

/-- The issuing group's earlier stores, atomics, reductions and CCTL are done, and so are its earlier loads, whose data its later accesses
may not overtake: those of the matrix engine among both (R217, R277, R284; log 19). -/
def State.ownerQuiet (s : State) (c : Command) : Bool :=
  match c.owner with
  | some (t, g) => match (s.anyTeam t).bind fun tm => tm.group? g with
    | some gr => gr.unacked == 0 && !s.matrixOwes t g
    | none => true
  | none => match c.job with
    | some seq => s.jobRuns seq
    | none => match c.node with
      | some (seq, _) => s.jobRuns seq
      | none => true

/-- An event of the command's team still waits in its engine (R73). -/
def State.postWaits (s : State) (c : Command) : Bool :=
  match c.owner with
  | some (t, _) => s.posts.any fun p => p.team == t && p.eng == c.eng
  | none => false

/-- The fault that a command's own values meet before any access: its code and address. -/
def State.startCheck (s : State) (c : Command) : Option (Nat × Nat) :=
  match c.eng with
  | 0 => (s.moveCheck c).map fun a => (codeADDRBAD, a)
  | 1 => (s.moveCheck c).map fun a => (codeADDRBAD, a)
  | 2 => (s.dxCheck c).map fun a => (codeADDRBAD, a)
  | 3 => if s.sortOk c then none else some (codeSORTBAD, 0)
  | _ => none

/-- The lines of a command's first window that it has still to write. -/
def State.startLines (s : State) (c : Command) : List Nat :=
  match c.eng with
  | 0 => s.moveLines c
  | 1 => s.moveLines c
  | 3 => s.sortLines c
  | 4 => s.collLines c
  | _ => []

/-- ENGINE_COMMAND_START: the command at the head of its queue is discarded, held, refused or started (R68, R71). -/
def execEngineCommandStart (id : Nat) (s : State) : Res :=
  .next (match s.command? id with
    | none => s
    | some c =>
      if c.phase != .queued || c.saved || c.xlate.isSome || !s.atHead c || s.postWaits c then s
      else match s.guardSeen c with
        | .unresolved => s
        | .isFalse => s.finishCommand c 1 0 0 0 0
        | .isTrue =>
          let s := s.modCommand id fun x => { x with guard := none }
          if !s.engineFree c || !s.ownerQuiet c then s
          else match s.startCheck c with
            | some (code, addr) => s.failCommand c code addr 0
            | none =>
              if c.eng = 5 then s.startLaunchq c
              else
                s.takeLines c (s.startLines c) fun s => s.modCommand id fun x => { x with phase := .started })

/-! ### Windows and completion (R52, R68) -/

/-- Windows of a command's destination. -/
def State.windowsOf (s : State) (c : Command) : Nat :=
  match c.eng with
  | 0 => ceilDiv c.destBytes windowBytes
  | 1 => ceilDiv c.destBytes windowBytes
  | 3 => c.sortWindows
  | 4 => windowCount (s.collRegions c)
  | _ => 0

/-- The lines of window w. -/
def State.nextLines (s : State) (c : Command) (w : Nat) : List Nat :=
  match c.eng with
  | 0 => s.windowLinesOf c w
  | 1 => s.windowLinesOf c w
  | 3 => s.regionLines c.ctx c.regions w
  | 4 => s.regionLines c.ctx (s.collRegions c) w
  | _ => []

/-- OWNERSHIP_WINDOW: the next window is owned, and a move goes on to the end of the window before it. -/
def execOwnershipWindow (id : Nat) (s : State) : Res :=
  .next (match s.command? id with
    | none => s
    | some c =>
      if c.phase != .started || c.saved || c.xlate.isSome || s.windowsOf c ≤ c.window + 1 then s
      else
        s.takeLines c (s.nextLines c (c.window + 1)) fun s =>
          let s := s.modCommand id fun x => { x with window := x.window + 1 }
          match s.command? id with
          | some c' => if c.eng ≤ 1 then s.moveWindow c' c.window else s
          | none => s)

/-- ENGINE_COMMAND_COMPLETE: the rest of a copy or gather is moved, and its event is due (R68, R115). -/
def execEngineCommandComplete (id : Nat) (s : State) : Res :=
  .next (match s.command? id with
    | none => s
    | some c =>
      if c.phase != .started || c.saved || c.xlate.isSome || 1 < c.eng || c.window + 1 < s.windowsOf c then s
      else s.completeMove c)

/-! ### Events (R72, R73, R75) -/

/-- Offsets of a save area (R366). -/
def areaRingCount : Nat := 24
def areaRing : Nat := 1024

/-- EVENT_POST: the oldest event of a team enters its ring, or that of its save area; a full ring leaves it waiting, and so does the end of
its team, as events are never dropped (R73; log 60). -/
def execEventPost (team : Nat) (s : State) : Res :=
  .next (match s.posts.find? fun p => p.team == team with
    | none => s
    | some p =>
      let bs := p.record s.time
      match s.team? team, s.saved.find? fun x => x.id == team with
      | some _, _ => (s.pushPost team).reap team
      | none, some x =>
        let n := s.load (x.area + areaRingCount) 2
        if 64 ≤ n then s
        else { (s.tableWrite (x.area + areaRing + 32 * n) bs).tableWrite (x.area + areaRingCount) (leBytes 2 (n + 1)) with
               posts := dropPost team s.posts }
      | none, none => s)

end Sys2Proof.Machine
end

