-- ==== Sys2Proof/Machine/Digest.lean ====
section
/-! DEFINITION. SHAKE256 with a 64-byte output, which spec/15_traps_and_reliability.md R388 names for the measurements and the
report: Keccak-f[1600] with rate 136 and the domain bits 1111 of FIPS 202 (log 6). -/

namespace Sys2Proof.Machine

/-- Rotation offsets of the lanes, lane (x, y) at x + 5y. -/
def keccakRot : List Nat :=
  [0, 1, 62, 28, 27, 36, 44, 6, 55, 20, 3, 10, 43, 25, 39, 41, 45, 15, 21, 8, 18, 2, 61, 56, 14]

/-- The constants of the 24 rounds. -/
def keccakRC : List W64 :=
  [0x0000000000000001, 0x0000000000008082, 0x800000000000808A, 0x8000000080008000, 0x000000000000808B,
   0x0000000080000001, 0x8000000080008081, 0x8000000000008009, 0x000000000000008A, 0x0000000000000088,
   0x0000000080008009, 0x000000008000000A] ++
  [0x000000008000808B, 0x800000000000008B, 0x8000000000008089, 0x8000000000008003, 0x8000000000008002,
   0x8000000000000080, 0x000000000000800A, 0x800000008000000A, 0x8000000080008081, 0x8000000000008080,
   0x0000000080000001, 0x8000000080008008]

/-- One round. -/
def keccakRound (a : Vector W64 25) (rc : W64) : Vector W64 25 :=
  let at_ := fun (v : Vector W64 25) (x y : Nat) => nth v (x % 5 + 5 * (y % 5)) 0
  let c : Vector W64 5 := tab 5 fun x => at_ a x 0 ^^^ at_ a x 1 ^^^ at_ a x 2 ^^^ at_ a x 3 ^^^ at_ a x 4
  let d : Vector W64 5 := tab 5 fun x => nth c ((x + 4) % 5) 0 ^^^ (nth c ((x + 1) % 5) 0).rotateLeft 1
  let a : Vector W64 25 := tab 25 fun i => nth a i 0 ^^^ nth d (i % 5) 0
  -- lane (x, y) goes to (y, 2x + 3y); the lane that comes to (u, v) is therefore (u + 3v, u)
  let b : Vector W64 25 := tab 25 fun i =>
    let u := i % 5
    let v := i / 5
    let x := (u + 3 * v) % 5
    (at_ a x u).rotateLeft (keccakRot.getD (x + 5 * u) 0)
  let e : Vector W64 25 := tab 25 fun i => nth b i 0 ^^^ (~~~ at_ b (i % 5 + 1) (i / 5) &&& at_ b (i % 5 + 2) (i / 5))
  put e 0 (nth e 0 0 ^^^ rc)

/-- The permutation. -/
def keccakF (a : Vector W64 25) : Vector W64 25 := keccakRC.foldl keccakRound a

/-- A block of 136 bytes absorbed. -/
def absorb (a : Vector W64 25) (bs : List Byte) : Vector W64 25 :=
  keccakF (tab 25 fun i => nth a i 0 ^^^ (if i < 17 then BitVec.ofNat 64 (leNat ((bs.drop (8 * i)).take 8)) else 0))

/-- The 64-byte digest. -/
def shake256 (bs : List Byte) : BitVec 512 :=
  let n := bs.length % 136
  let pad : List Byte := if n = 135 then [0x9F] else 0x1F :: List.replicate (134 - n) 0 ++ [0x80]
  let a := (chunks 136 (bs.length / 136 + 1) (bs ++ pad)).foldl absorb (Vector.replicate 25 0)
  BitVec.ofNat 512 (leNat ((List.range 8).flatMap fun i => leBytes 8 (nth a i 0).toNat))

end Sys2Proof.Machine
end

