-- ==== Sys2Proof/Machine/Area.lean ====
section
/-! DEFINITION. The save area of a team: the bytes that pre-emption writes and what a resume reads from them
(spec/15_traps_and_reliability.md R366 to R368, spec/05_registers.md R136, spec/08_matrix_instructions.md R207). -/

namespace Sys2Proof.Machine

/-! ### Writing (R136, R207, R366, R367) -/

def zeros (n : Nat) : List Byte := List.replicate n 0
/-- Bytes padded with zeros to a multiple of n. -/
def padTo (n : Nat) (bs : List Byte) : List Byte := bs ++ zeros (ceilDiv bs.length n * n - bs.length)
def maskBytes (m : Mask) : List Byte := leBytes 4 m.toNat
def wordBytes (w : W32) : List Byte := leBytes 4 w.toNat
def longBytes (w : W64) : List Byte := leBytes 8 w.toNat
def laneBytes (l : Lanes W32) : List Byte := l.toList.flatMap wordBytes

/-- The tag of a register in the tag vector (R136). -/
def VReg.tag : VReg → Nat
  | .uniform u => if u = 0 then 3 else 0
  | .affine _ _ => 1
  | .general _ => 2

/-- What a register puts into the narrow section. -/
def VReg.narrow : VReg → List Byte
  | .uniform u => if u = 0 then [] else wordBytes u
  | .affine b s => wordBytes b ++ wordBytes s
  | .general _ => []

/-- The group register record (R136). -/
def Group.registerRecord (g : Group) : List Byte :=
  let tags := leBytes 64 ((g.v.toList.zip (List.range 256)).foldl (fun x r => x + r.1.tag * 4 ^ r.2) 0)
  let narrow := padTo 16 (g.v.toList.flatMap VReg.narrow)
  let head := tags ++ leBytes 2 g.generals ++ leBytes 2 narrow.length ++ g.p.toList.flatMap maskBytes ++ zeros 32 ++
    g.s.toList.flatMap longBytes ++ narrow
  padTo 128 head ++ (g.v.toList.flatMap fun r => if r.isGeneral then laneBytes r.lanes else []) ++
    (if g.gang.isSome then g.x.toList.flatMap laneBytes else [])

/-- State byte of a split (R367). -/
def Split.stateByte (x : Split) : Nat :=
  match x.wait with
  | .join => 2
  | .rendezvous _ => 3
  | _ => 1

/-- The 64 bytes of split s (R367). -/
def splitBytes : Option Split → List Byte
  | none => zeros 64
  | some x => leBytes 8 x.pc ++ leBytes 8 x.jr ++ maskBytes x.mask ++ wordBytes x.fmt ++ wordBytes x.mode ++
      leBytes 1 x.stack.length ++ leBytes 1 x.fairness ++ leBytes 1 x.stateByte ++ zeros 33

/-- The hardware stack of a split, entry 0 at its bottom. -/
def stackBytes : Option Split → List Byte
  | none => zeros 512
  | some x =>
    let bs := (x.stack.reverse.take 16).flatMap Entry.bytes
    bs ++ zeros (512 - bs.length)

/-- The oldest batch of a group that is not complete; its open batch where there is none. -/
def State.oldestBatch (s : State) (team : Nat) (g : Group) : Nat :=
  let back := fun (b : Nat) => (g.openBatch + 65536 - b) % 65536
  (s.openBatches team g.index).foldl (fun best b => if back best < back b then b else best) g.openBatch

/-- The group control record (R367), for a section of n bytes. -/
def State.controlRecord (s : State) (team : Nat) (g : Group) (n : Nat) : List Byte :=
  g.splits.toList.flatMap splitBytes ++ g.splits.toList.flatMap stackBytes ++ g.rsr.toList.flatMap longBytes ++
    g.seeds.toList.flatMap longBytes ++ longBytes g.lsr ++ wordBytes g.flags ++
    leBytes 4 (g.openBatch + s.oldestBatch team g * 65536) ++ maskBytes g.exited ++ zeros 452 ++ leBytes 8 n

/-- A group's section. -/
def State.groupSection (s : State) (team : Nat) (g : Group) : List Byte :=
  let regs := padTo 128 g.registerRecord
  s.controlRecord team g (3072 + regs.length) ++ regs

/-- A tile record (R207). -/
def Tile.record (t : Tile) : List Byte :=
  (t.data.toList.flatMap fun r => r.toList.flatMap wordBytes) ++ t.m.toList.flatMap wordBytes ++ t.l.toList.flatMap wordBytes ++
    wordBytes t.ovf ++ zeros 4 ++ longBytes t.ecnt

/-- The tile section: T0 upward, the first core first. -/
def State.tileSection (s : State) (t : Team) : List Byte :=
  (t.tiles.flatMap fun n => (nth (s.core t.core).tiles n Tile.fresh).record) ++
    (t.tiles2.flatMap fun n => (nth (s.core (t.core + 1)).tiles n Tile.fresh).record)

/-- The shared section: shared-offset order, the first core first. -/
def State.sharedSection (s : State) (t : Team) : List Byte :=
  (t.steps.flatMap fun n => s.bytesAt (sramKey t.core (n * 65536)) 65536) ++
    (t.steps2.flatMap fun n => s.bytesAt (sramKey (t.core + 1) (n * 65536)) 65536)

/-- A barrier's 32 bytes. -/
def Barrier.bytes (b : Barrier) : List Byte := leBytes 8 b.part ++ leBytes 8 b.arrd ++ leBytes 2 b.phase ++ zeros 14

def GuardState.code : GuardState → Nat
  | .unresolved => 0
  | .isTrue => 1
  | .isFalse => 2

/-- The address and the bytes of what a command has read ahead. -/
def Command.aheadBytes (c : Command) : List Byte :=
  leBytes 6 ((c.ahead.map Prod.fst).headD 0) ++ c.ahead.map Prod.snd ++ zeros (3 - c.ahead.length)

/-- The progress of a command: of a CPYT, whose twelve S values leave 16 bytes, its bytes written, row, bytes of the row and what it has
read ahead; of another, its counts in full. A decompression that stands inside a block takes the block again (R75; log 7). -/
def Command.progressBytes (c : Command) : List Byte :=
  if c.tensor then leBytes 3 c.written ++ leBytes 2 c.pos ++ leBytes 2 c.next ++ c.aheadBytes
  else
    let open_ := c.eng == 2 && !c.buf.isEmpty
    leBytes 8 c.written ++ leBytes 8 (if open_ then c.next else c.pos) ++ leBytes 8 c.next ++ leBytes 8 c.block ++ leBytes 8 c.step ++
      leBytes 4 c.passes ++ leBytes 4 (if open_ then c.written - c.step else c.skip) ++ c.aheadBytes

/-- The 128 bytes of a saved engine command: the engine byte, its form with what is known of it, its batch and tag, the PC and the group
that issued it, its guard slot, the copied S values, and its progress (R366; log 7). -/
def Command.record (c : Command) : List Byte :=
  padTo 128 (leBytes 1 c.eng ++
    leBytes 1 (c.form % 16 + b2n c.discarded * 16 + b2n c.last * 32 + b2n c.tensor * 64) ++ leBytes 2 c.batch ++ wordBytes c.tag ++
    leBytes 6 c.pc ++ leBytes 1 ((c.owner.map Prod.snd).getD 0) ++ leBytes 1 (c.guard.getD 0xFF) ++ c.args.flatMap longBytes ++ c.progressBytes)

/-- The whole area of a team with its saved commands (R366). -/
def State.areaBytes (s : State) (t : Team) (cs : List Command) : List Byte :=
  let n := cs.length
  let groups := t.groups.flatMap (s.groupSection t.id)
  let tiles := s.tileSection t
  let shared := s.sharedSection t
  let first := 3072 + 128 * n
  let tileAt := first + groups.length
  let sharedAt := tileAt + tiles.length
  let ring := (List.range t.ringCount).flatMap fun k => s.bytesAt (t.ringKey (t.ringHead + k)) 32
  leBytes 4 (sharedAt + shared.length) ++ leBytes 1 t.launch.groups ++ leBytes 1 t.holding.shared ++ leBytes 1 t.holding.tiles ++
    leBytes 1 (b2n t.launch.twin) ++ leBytes 1 t.ctx ++ leBytes 7 t.seq ++ leBytes 4 t.lin ++ leBytes 4 t.localSlot ++
    leBytes 2 t.ringCount ++ leBytes 2 n ++ zeros 4 ++ leBytes 8 t.launch.addr ++ leBytes 8 tileAt ++ leBytes 8 sharedAt ++
    leBytes 8 first ++ zeros 192 ++ t.barriers.toList.flatMap Barrier.bytes ++
    leBytes 4 ((t.guards.toList.zip (List.range 16)).foldl (fun x g => x + g.1.code * 4 ^ g.2) 0) ++ zeros 252 ++
    ring ++ zeros (2048 - ring.length) ++ cs.flatMap Command.record ++ groups ++ tiles ++ shared

/-! ### The save pool (R365) -/

/-- The units of the pool that no saved team holds. -/
def State.freeUnits (s : State) : List Nat :=
  let first := s.sys.savebase.toNat
  (List.range s.sys.savesize.toNat).filter fun k =>
    decide ((first + k + 1) * 65536 ≤ hbmEnd) && s.saved.all fun x => !(decide (x.area / 65536 ≤ first + k) && decide (first + k < x.area / 65536 + x.units))

/-- The lowest run of n free units, counted from the pool's start. -/
def runOf (free : List Nat) (n : Nat) : Option Nat :=
  free.find? fun k => (List.range n).all fun i => free.contains (k + i)

/-- Units of an area. -/
def areaUnits (bytes : Nat) : Nat := ceilDiv bytes 65536

/-- Room for areas of the given units, placed one after another. -/
def roomFor : List Nat → List Nat → Bool
  | _, [] => true
  | free, n :: rest =>
    match runOf free n with
    | none => false
    | some k => roomFor (free.filter fun x => !(k ≤ x && x < k + n)) rest

/-! ### Reading (R136, R366 to R368) -/

/-- n bytes at offset o as a mask or a word. -/
def wordAt (bs : List Byte) (o : Nat) : W32 := BitVec.ofNat 32 (fieldAt bs o 4)
def longAt (bs : List Byte) (o : Nat) : W64 := BitVec.ofNat 64 (fieldAt bs o 8)
/-- A lane table at an offset. -/
def lanesAt (bs : List Byte) (o : Nat) : Lanes W32 := tab 32 fun l => wordAt bs (o + 4 * l)

/-- The registers of a tag vector from their narrow and general sections; none where the sections run out. `ts`: tags
still to be read; `no`, `go`: offsets of the next narrow and general item. -/
def readTags (bs : List Byte) (nEnd gEnd : Nat) : List Nat → Nat → Nat → Option (List VReg × Nat × Nat)
  | [], no, go => some ([], no, go)
  | t :: rest, no, go =>
    let next := fun (r : VReg) (no go : Nat) =>
      (readTags bs nEnd gEnd rest no go).map fun x => (r :: x.1, x.2)
    match t with
    | 3 => next (.uniform 0) no go
    | 0 => if nEnd < no + 4 then none else next (.uniform (wordAt bs no)) (no + 4) go
    | 1 => if nEnd < no + 8 then none else next (.affine (wordAt bs no) (wordAt bs (no + 4))) (no + 8) go
    | _ => if gEnd < go + 128 then none else next (.general (lanesAt bs go)) no (go + 128)

/-- A register record read into a group; none where it breaks R136. -/
def Group.readRegisters (g : Group) (bs : List Byte) : Option Group :=
  let tags := (List.range 256).map fun k => fieldAt bs (k / 4) 1 / 4 ^ (k % 4) % 4
  let count := fieldAt bs 64 2
  let narrow := fieldAt bs 66 2
  let gAt := ceilDiv (640 + narrow) 128 * 128
  let xAt := gAt + 128 * count
  let len := ceilDiv (xAt + (if g.gang.isSome then 4096 else 0)) 128 * 128
  if narrow % 16 != 0 || !zeroAt bs 96 128 || (tags.filter (· == 2)).length != count || g.ceiling < count || bs.length != len ||
      !zeroAt bs (640 + narrow) gAt then none
  else match readTags bs (640 + narrow) xAt tags 640 gAt with
    | none => none
    | some (vs, no, _) =>
      if ceilDiv (no - 640) 16 * 16 != narrow || !zeroAt bs no (640 + narrow) then none
      else some { g with
        v := tab 256 fun k => vs.getD k (.uniform 0)
        p := tab 7 fun k => wordAt bs (68 + 4 * k)
        s := tab 64 fun k => longAt bs (128 + 8 * k)
        x := if g.gang.isSome then tab 32 (fun k => lanesAt bs (xAt + 128 * k)) else g.x }

/-- An entry of which only the spilled copy is known. -/
def Entry.unread : Entry := { mode := 0, fmt := 0, pmask := 0, mask := 0, ppc := 0, kind := 0, prid := 0, jpc := 0 }

/-- The stack of a saved split: its hardware entries, and above them those that spilled, as they were kept where the team
was saved here. -/
def readStack (bs : List Byte) (n depth : Nat) (old : List Entry) : Option (List Entry) :=
  let low := (List.range (min depth 16)).mapM fun k =>
    let e := Entry.ofBytes ((bs.drop (256 + 512 * n + 32 * k)).take 32)
    if e.2 then none else some e.1
  let high := if old.length = depth then old.take (depth - 16) else List.replicate (depth - 16) Entry.unread
  low.map fun l => high ++ l.reverse

/-- Split n of a control record; none where it breaks R367. -/
def readSplit (bs : List Byte) (n : Nat) (old : Option Split) : Option (Option Split) :=
  let o := 64 * n
  match fieldAt bs (o + 30) 1 with
  | 0 => if zeroAt bs o (o + 64) then some none else none
  | k =>
    if 3 < k || !zeroAt bs (o + 31) (o + 64) || fieldAt bs o 8 ≥ 2 ^ 56 || fieldAt bs (o + 8) 8 ≥ 2 ^ 56 then none
    else
      (readStack bs n (fieldAt bs (o + 28) 1) ((old.map (·.stack)).getD [])).map fun st =>
        some { pc := fieldAt bs o 8, mask := wordAt bs (o + 16), fmt := wordAt bs (o + 20), mode := wordAt bs (o + 24),
               jr := fieldAt bs (o + 8) 8, stack := st, fairness := fieldAt bs (o + 29) 1, wait := .ready, windows := [],
               burst := 0, last := (old.map (·.last)).getD 0 }

/-- A control record read into a group. -/
def Group.readControl (g : Group) (bs : List Byte) : Option Group :=
  if !zeroAt bs 2612 3064 then none
  else match (List.range 4).mapM fun n => readSplit bs n (g.split? n) with
    | none => none
    | some sp =>
      let exited := wordAt bs 2608
      some { g with
        splits := tab 4 fun n => sp.getD n none
        rsr := tab 32 fun l => longAt bs (2304 + 8 * l)
        seeds := tab 4 fun k => longAt bs (2560 + 8 * k)
        lsr := longAt bs 2592
        flags := wordAt bs 2600
        openBatch := fieldAt bs 2604 2
        exited := exited
        ended := exited == allLanes }

/-- The groups of an area, from an offset on; none where a section breaks its form or runs past `stop`. -/
def readGroups (bs : List Byte) (stop : Nat) : List Group → Nat → Option (List Group)
  | [], at_ => if at_ = stop then some [] else none
  | g :: rest, at_ =>
    let n := fieldAt bs (at_ + 3064) 8
    if n < 3072 || stop < at_ + n then none
    else match (g.readControl ((bs.drop at_).take 3072)).bind fun g => g.readRegisters ((bs.drop (at_ + 3072)).take (n - 3072)) with
      | none => none
      | some g => (readGroups bs stop rest (at_ + n)).map (g :: ·)

/-- A tile record read; none where it breaks R207. -/
def Tile.ofRecord (bs : List Byte) : Option Tile :=
  if !zeroAt bs 16900 16904 then none
  else some
    { data := tab 64 fun i => tab 64 fun j => wordAt bs (256 * i + 4 * j), m := tab 64 fun i => wordAt bs (16384 + 4 * i),
      l := tab 64 fun i => wordAt bs (16640 + 4 * i), ovf := wordAt bs 16896, ecnt := longAt bs 16904 }

/-- S values of a command by its engine; a CPYT has twelve. -/
def savedArgs (eng : Nat) (tensor : Bool) : Nat := if tensor then 12 else [3, 5, 4, 6, 5, 2].getD eng 0

/-- A saved command read from its record; none where that names no engine or no group (R366; log 7). -/
def Team.readCommand (t : Team) (bs : List Byte) : Option Command :=
  let f := fieldAt bs
  let eng := f 0 1
  let form := f 1 1
  let tensor := bit form 6
  let at_ := 16 + 8 * savedArgs eng tensor
  let far := if tensor then at_ + 7 else at_ + 48
  let a := f far 6
  if 5 < eng || t.launch.total ≤ f 14 1 || (tensor && eng != 0) then none
  else some
    { id := 0, eng := eng, place := 0, owner := some (t.id, f 14 1), job := none, node := none, ctx := t.ctx, batch := f 2 2,
      tag := wordAt bs 4, pc := f 8 6, guard := if f 15 1 < 16 then some (f 15 1) else none, discarded := bit form 4, form := form % 16,
      args := (List.range (savedArgs eng tensor)).map fun k => longAt bs (16 + 8 * k), phase := .queued, saved := false, xlate := none,
      written := f at_ (if tensor then 3 else 8), pos := if tensor then f (at_ + 3) 2 else f (at_ + 8) 8,
      next := if tensor then f (at_ + 5) 2 else f (at_ + 16) 8, block := if tensor then 0 else f (at_ + 24) 8,
      step := if tensor then 0 else f (at_ + 32) 8, passes := if tensor then 0 else f (at_ + 40) 4, buf := [], last := bit form 5,
      owned := [], window := if eng ≤ 1 then f at_ (if tensor then 3 else 8) / windowBytes else 0, polling := false, outbox := [],
      ahead := if a % 4 = 0 then [] else keyed a ((bs.drop (far + 6)).take (4 - a % 4)), skip := if tensor then 0 else f (at_ + 44) 4 }

/-- Where each live split of a group section stands: at a rendezvous, its PC. -/
def splitStands (bs : List Byte) : List (Option Nat) :=
  (List.range 4).filterMap fun n => match fieldAt bs (64 * n + 30) 1 with
    | 0 => none
    | 3 => some (some (fieldAt bs (64 * n) 8))
    | _ => some none

/-- Where the live splits of some group sections stand. -/
def areaStands (bs : List Byte) : Nat → Nat → List (Option Nat)
  | 0, _ => []
  | k + 1, at_ => splitStands (bs.drop at_) ++ areaStands bs k (at_ + fieldAt bs (at_ + 3064) 8)

/-- The one place at which all stand. -/
def meetingPoint (l : List (Option Nat)) : Option Nat :=
  match l with
  | some p :: rest => if rest.all (· == some p) then some p else none
  | _ => none

/-- What a resume takes from an area beside the header: the team with its groups, barriers and guards and the rendezvous at which it was
saved, its saved commands, its tiles in order, its shared bytes and its ring. -/
structure Resumed where
  team : Team
  commands : List Command
  tiles : List Tile
  shared : List Byte
  ring : List Byte

/-- An area read over a team; none where it breaks R136, R366 or R367. -/
def Team.readArea (t : Team) (bs : List Byte) : Option Resumed :=
  let cores := if t.launch.twin then 2 else 1
  let nTiles := cores * t.holding.tiles
  let nShared := cores * t.holding.shared * 65536
  let count := fieldAt bs 24 2
  let first := fieldAt bs 56 8
  let tileAt := fieldAt bs 40 8
  let sharedAt := fieldAt bs 48 8
  let guards := (List.range 16).mapM fun k => match fieldAt bs (768 + k / 4) 1 / 4 ^ (k % 4) % 4 with
    | 0 => some GuardState.unresolved
    | 1 => some GuardState.isTrue
    | 2 => some GuardState.isFalse
    | _ => none
  if fieldAt bs 0 4 != bs.length || fieldAt bs 4 1 != t.launch.groups || fieldAt bs 5 1 != t.holding.shared ||
      fieldAt bs 6 1 != t.holding.tiles || fieldAt bs 7 1 != b2n t.launch.twin || 64 < count || !zeroAt bs 28 32 ||
      !zeroAt bs 64 256 || !zeroAt bs 772 1024 || first != 3072 + 128 * fieldAt bs 26 2 || sharedAt != tileAt + 16912 * nTiles ||
      bs.length != sharedAt + nShared || !((List.range 16).all fun k => zeroAt bs (274 + 32 * k) (288 + 32 * k)) then none
  else match guards, readGroups bs tileAt t.groups first, (List.range nTiles).mapM (fun k =>
      Tile.ofRecord ((bs.drop (tileAt + 16912 * k)).take 16912)),
      (List.range (fieldAt bs 26 2)).mapM fun k => t.readCommand ((bs.drop (3072 + 128 * k)).take 128) with
    | some gs, some groups, some tiles, some commands => some
        { team := { t with
            lin := fieldAt bs 16 4, localSlot := fieldAt bs 20 4, groups := groups, ringHead := 0, ringCount := count
            barriers := tab 16 fun k =>
              { part := fieldAt bs (256 + 32 * k) 8, arrd := fieldAt bs (264 + 32 * k) 8, phase := fieldAt bs (272 + 32 * k) 2 }
            guards := tab 16 fun k => gs.getD k .unresolved
            offered := meetingPoint (areaStands bs t.groups.length first) }
          commands := commands
          tiles := tiles
          shared := bs.drop sharedAt
          ring := (bs.drop areaRing).take (32 * count) }
    | _, _, _, _ => none

end Sys2Proof.Machine
end

