-- ==== Sys2Proof/Machine/Save.lean ====
section
/-! DEFINITION. Pre-emption and resume (spec/15_traps_and_reliability.md R364 to R368; spec/03_core_memory_and_engines.md R75;
spec/14_scheduling.md R340, R352, R353). -/

namespace Sys2Proof.Machine

/-! ### Coming to rest (R75, R364) -/

/-- A group between instructions: its results are in, its accesses acknowledged, its waits given up but for the state that
the area records; a lookahead window ends, for which the area has no place (R21, R366; log 63). -/
def Group.rest (g : Group) : Group :=
  let still := fun (x : Split) => { x with windows := [], wait := (match x.wait with
    | .join => .join
    | .rendezvous i => .rendezvous i
    | _ => .ready) }
  let g := g.drain
  { g with unacked := 0, acking := [], latch := none, splits := g.splits.map fun x => x.map still }

/-- The groups of a team come to rest. -/
def State.settleTeam (s : State) (id : Nat) : State :=
  match s.team? id with
  | none => s
  | some t =>
    (t.groups.foldl (fun s g => (s.endReservations id g.index).endMonitors id g.index) s).modTeam id fun t =>
      { t with groups := t.groups.map Group.rest }

/-- A command stops where it stands, with its progress, and posts status 3; shared bytes that it holds back are written. -/
def State.stopCommand (s : State) (c : Command) : State :=
  let y := s.writeBack c
  let s := y.1
  let c := y.2
  (s.postLater c 3 c.written (if c.eng = 2 || c.eng = 3 then c.block * 256 else 0)).modCommand c.id fun _ =>
    { c with phase := .queued, saved := true, guard := none, xlate := none, owned := [], polling := false,
             window := if c.eng ≤ 1 then c.written / windowBytes else 0 }

/-- A COLLQ or LAUNCHQ that its engine has accepted runs on. -/
def State.runsOn (s : State) (c : Command) : Bool :=
  (c.eng == 4 || c.eng == 5) && !(c.phase == .queued && c.guard.isSome && s.guardSeen c == .unresolved)

/-- A started copy or gather that nothing has stopped: it goes on to its next 4 KiB boundary (R75). -/
def Command.moving (c : Command) : Bool := c.eng ≤ 1 && c.phase == .started && c.xlate.isNone && !c.saved

/-- A command can come to rest: a copy or gather does not wait on its way to its next 4 KiB boundary (R75). -/
def State.canDrain (s : State) (c : Command) : Bool := !(c.moving && (s.moveToBoundary c).stop == some .wait)

/-- A team may be saved: between instructions, its matrix instructions complete, its commands able to come to rest. -/
def State.canSave (s : State) (t : Team) : Bool :=
  t.halt.isNone && t.prologue.isNone && (t.groups.all fun g => g.handler.isNone && g.trap.isNone && !s.matrixBusy t.id g.index) &&
    (s.commands.filter fun c => c.ofTeam t.id).all s.canDrain

/-- A command of a team or a queue that is pre-empted: a copy or gather goes on to its next 4 KiB destination boundary, but for one
that a translation fault has stopped already; a decompression finishes its block, or stops where the release word holds it back
(R45, R75). -/
def State.drainCommand (s : State) (c : Command) : State :=
  if s.runsOn c || c.saved then s
  else if c.phase = .queued then s.modCommand c.id fun x => { x with saved := true, xlate := none }
  else if c.moving then
    let m := s.moveToBoundary c
    match m.stop with
    | none => if m.s.flitsOut c.id then m.s.stopCommand m.c else m.s.finishCommand m.c 0 m.c.written 0 0 0
    | some (.fault code addr) => m.s.failCommand m.c code addr 0
    | some (.check code key) => m.s.checkCommand m.c code key 0
    | some _ => m.s.stopCommand m.c
  else if c.eng = 2 && !c.buf.isEmpty && !c.polling then
    let s := s.dxDrain c
    match s.command? c.id with
    | some c => s.stopCommand c
    | none => s
  else s.stopCommand c

/-- Units that a team's area takes at most. -/
def State.teamUnits (s : State) (t : Team) : Nat :=
  let n := (s.commands.filter fun c => c.ofTeam t.id && !s.runsOn c).length
  let cores := if t.launch.twin then 2 else 1
  areaUnits (3072 + 128 * n + t.groups.foldl (fun k g => k + 3072 + ceilDiv g.registerRecord.length 128 * 128) 0 +
    cores * (t.holding.tiles * 16912 + t.holding.shared * 65536))

/-- A team leaves its core: its lease and its place in the arbiter's order go (R352). -/
def State.leaveCore (s : State) (id : Nat) : State :=
  let noLease := fun (c : Core) => { c with lease := c.lease.without id }
  { s with teams := s.teams.filter fun t => t.id != id, cores := s.cores.map fun c => (c.1, noLease c.2) }

/-- A team at rest is written into an area of the pool with its commands, and leaves its core; none where the pool is too small (R365,
R366). -/
def State.saveTeam (s : State) (id : Nat) : Option State :=
  match s.team? id with
  | none => none
  | some t =>
    if (runOf s.freeUnits (s.teamUnits t)).isNone then none
    else
      let s := ((s.commands.filter fun c => c.ofTeam id).foldl State.drainCommand s).flushPosts id
      match s.team? id with
      | none => some s
      | some t =>
        let bs := s.areaBytes t (s.commands.filter fun c => c.ofTeam id && c.saved)
        match runOf s.freeUnits (areaUnits bs.length) with
        | none => none
        | some k =>
          let area := (s.sys.savebase.toNat + k) * 65536
          let s := (s.tableWrite area bs).leaveCore id
          some { s with
            commands := s.commands.filter fun c => !(c.ofTeam id && c.saved)
            saved := s.saved ++ [{ id := id, area := area, units := areaUnits bs.length, seq := t.seq, ctx := t.ctx,
                                   team := { t with preempt := false } }] }

/-- A displacement or a PREEMPT that the pool cannot take (R365, R381). -/
def State.countSaveFull (s : State) : State := { s with sys := { s.sys with savefull := min (s.sys.savefull + 1) (2 ^ 64 - 1) } }

/-! ### Displacement (R340, R353, R365) -/

/-- The queue of a command's sequence number. -/
def State.queueOf (s : State) (seq : Nat) : Option Nat := (s.job? seq).map (·.queue)

/-- The resident teams of a queue. -/
def State.queueTeams (s : State) (q : Nat) : List Team := s.teams.filter fun t => s.queueOf t.seq == some q

/-- The commands that the scheduler gave engines for a queue. -/
def State.queueCommands (s : State) (q : Nat) : List Command :=
  s.commands.filter fun c => c.owner.isNone && s.queueOf (s.commandSeq c) == some q

/-- A slot changes. -/
def State.setSlot (s : State) (k : Nat) (x : Option Slot) : State := { s with slots := put s.slots k x }

/-- A slot whose queue has no resident team left is free; the queue waits from now on. -/
def State.vacate (s : State) : State :=
  (List.range 64).foldl (fun (s : State) k => match nth s.slots k none with
    | some x =>
      if x.displacing && (s.queueTeams x.queue).isEmpty then (s.setSlot k none).setQueue x.queue { s.queue x.queue with since := s.time }
      else s
    | none => s) s

/-- The displacement of a slot: its teams are pre-empted and its engine commands drain, unless the pool is too small. -/
def State.displace (s : State) (k : Nat) (x : Slot) : State :=
  let ts := s.queueTeams x.queue
  let rested := ts.foldl (fun (s : State) t => s.settleTeam t.id) s
  let need := ts.filterMap fun t => (rested.team? t.id).map fun t => rested.teamUnits t
  if !(s.queueCommands x.queue).all s.canDrain then s
  else if !roomFor s.freeUnits need then (s.setSlot k (some { x with refused := some s.freeUnits.length })).countSaveFull
  else
    let s := (s.queueCommands x.queue).foldl State.drainCommand s
    let s := ts.foldl (fun (s : State) t => s.modTeam t.id fun t => { t with preempt := true }) s
    (s.setSlot k (some { x with displacing := true, refused := none })).vacate

/-- A displacement that turns out not to fit is given up. -/
def State.callOff (s : State) (team : Nat) : State :=
  match s.team? team with
  | none => s
  | some t =>
    let s := (s.modTeam team fun t => { t with preempt := false }).countSaveFull
    match (s.queueOf t.seq).bind s.queueSlot with
    | some (k, x) =>
      let s := (s.queueTeams x.queue).foldl (fun (s : State) t => s.modTeam t.id fun t => { t with preempt := false }) s
      let s := s.setSlot k (some { x with displacing := false, refused := some s.freeUnits.length })
      (s.queueCommands x.queue).foldl (fun (s : State) c => s.modCommand c.id fun x => { x with saved := false }) s
    | none => s

/-- PREEMPTION_SAVE: a team that is being pre-empted comes to rest and is saved (R364). -/
def execPreemptionSave (team : Nat) (s : State) : Res :=
  .next (match s.team? team with
    | none => s
    | some t =>
      if !t.preempt || !s.canSave t then s
      else match (s.settleTeam team).saveTeam team with
        | some s => s.vacate
        | none => s.callOff team)

/-! ### Resume (R368) -/

/-- The bytes of an area, none where its size is not that of its units. -/
def State.areaRead (s : State) (x : SavedTeam) : Option (List Byte) :=
  let n := s.load x.area 4
  if n < 3072 || x.units * 65536 < n then none else some (s.bytesAt x.area n)

/-- A team whose area is malformed ends (R368). -/
def State.endSaved (s : State) (x : SavedTeam) : State :=
  let w := exitWord codeADDRBAD 0xFF 0xFFFF
  let s := s.post x.ctx { exst := w, cseq := x.seq, team := x.team.lin, code := codeADDRBAD }
  let s := (x.team.groups.filter fun g => !g.ended).foldl (fun (s : State) _ => s.countFault x.team) s
  let s := s.countEnded x.team
  { s with
    saved := s.saved.filter fun y => y.area != x.area
    commands := s.commands.filter fun c => !c.ofTeam x.id }

/-- A team that another package saved: what its launch record gives, before its area is read over it. -/
def foreignTeam (x : SavedTeam) (bs : List Byte) (l : Launch) : Team :=
  let seat : Seat := { core := 0, slot := 0, slot2 := 0, steps := [], steps2 := [], tiles := [], tiles2 := [], quarters := [] }
  let n := fieldAt bs 16 4
  { l.startTeam seat x.id with
    origin := .command (2 ^ 64), seq := x.seq, ctx := x.ctx, x := n % l.gx, y := n / l.gx % l.gy, z := n / (l.gx * l.gy), lin := n }

/-- The entries of a foreign team's stacks that spilled, read from local memory, or the page that is not there. -/
def State.fillStacks (s : State) (t : Team) : State × Except SpillFault Team :=
  let places := t.groups.flatMap fun g => g.liveSplits.flatMap fun x =>
    ((List.range x.2.stack.length).drop 16).map fun k => (g, x.1, x.2.stack.length - 1 - k, k)
  places.foldl (fun (r : State × Except SpillFault Team) p => match r with
    | (s, .error f) => (s, .error f)
    | (s, .ok t') => match s.spillSpots t p.1 p.2.1 p.2.2.2 .read with
      | (s, .error (.xlate w va)) => (s, .error (.xlate w va))
      | (s, .error (.busy x)) => (s, .error (.busy x))
      | (s, .error _) => (s, .ok t')
      | (s, .ok l) =>
        let e := (Entry.ofBytes (s.readSpots l)).1
        (s, .ok (t'.modGroup p.1.index fun g => g.modSplit p.2.1 fun x => { x with stack := x.stack.set p.2.2.1 e }))) (s, .ok t)

/-- A team's tiles set on a core. -/
def Core.setTiles (c : Core) (names : List Nat) (tiles : List Tile) : Core :=
  { c with tiles := tab 16 fun n => match (names.zip tiles).find? fun x => x.1 == n with
      | some x => x.2
      | none => nth c.tiles n Tile.fresh }

/-- A step's bytes for each step of a core. -/
def stepBytes (core : Nat) (steps : List Nat) (bs : List Byte) : List (Nat × Byte) :=
  (steps.zip (List.range steps.length)).flatMap fun x => keyed (sramKey core (x.1 * 65536)) ((bs.drop (65536 * x.2)).take 65536)

/-- A resumed team takes its seat: its registers, tiles, shared bytes, ring and saved commands follow it, the commands from its area
(R75, R368). -/
def State.reseat (s : State) (x : SavedTeam) (r : Resumed) (seat : Seat) : State :=
  let l := r.team.holding
  let place := fun (g : Group) =>
    { g with core := if l.groups ≤ g.index then seat.core + 1 else seat.core, quarter := seat.quarters.getD g.index 0 }
  let t := { r.team with
    core := seat.core, slot := seat.slot, slot2 := seat.slot2, steps := seat.steps, steps2 := seat.steps2, tiles := seat.tiles,
    tiles2 := seat.tiles2, preempt := false, groups := s.takeSlots (r.team.groups.map place) }
  let noL1 := fun (c : Core) => if l.shared = 0 then c else { c with l1 := [] }
  let s := s.setCore t.core (noL1 ((s.core t.core).setTiles t.tiles (r.tiles.take l.tiles)))
  let s := if l.twin then s.setCore (t.core + 1) (noL1 ((s.core (t.core + 1)).setTiles t.tiles2 (r.tiles.drop l.tiles))) else s
  let s := s.poke (stepBytes t.core t.steps r.shared ++ stepBytes (t.core + 1) t.steps2 (r.shared.drop (65536 * l.shared)) ++
    keyed (t.ringKey 0) r.ring)
  let seated := fun (c : Command) (k : Nat) =>
    let core := match c.owner with
      | some (_, g) => ((t.group? g).map (·.core)).getD t.core
      | none => t.core
    { c with id := s.nextCommand + k, place := if c.eng < 3 then core else dieOf core }
  { s with
    teams := s.teams ++ [t]
    saved := s.saved.filter fun y => y.area != x.area
    commands := s.commands ++ r.commands.zipWith seated (List.range r.commands.length)
    nextCommand := s.nextCommand + r.commands.length }

/-- A team read from its area resumes where it finds a seat. -/
def State.resumeWith (s : State) (x : SavedTeam) (t : Team) (bs : List Byte) : State :=
  match t.readArea bs with
  | none => s.endSaved x
  | some r =>
    match s.fillStacks r.team with
    | (s, .error (.xlate _ va)) => s.postXlate x.ctx { cseq := x.seq, aux := 3, addr := va }
    | (_, .error _) => s
    | (s', .ok t') =>
      match s.seat t.holding fun g => (t'.group? g).any (·.ended) with
      | none => s
      | some seat => s'.reseat x { r with team := t' } seat

/-- TEAM_RESUME: a saved team whose queue holds a slot resumes on any core that takes it (R368). -/
def execTeamResume (area : Nat) (s : State) : Res :=
  .next (match s.saved.find? fun x => x.area == area with
    | none => s
    | some x =>
      if !s.jobRuns x.seq then s
      else match s.areaRead x with
        | none => s.endSaved x
        | some bs =>
          if !x.team.groups.isEmpty then s.resumeWith x x.team bs
          else match s.launchRead x.ctx (longAt bs 32) with
            | (s, .error (.xlate va)) => s.postXlate x.ctx { cseq := x.seq, aux := 3, addr := va }
            | (_, .error (.busy _)) => s
            | (s, .error _) => s.endSaved x
            | (s, .ok none) => s.endSaved x
            | (s, .ok (some l)) => s.resumeWith x (foreignTeam x bs l) bs)

end Sys2Proof.Machine
end

