-- ==== Sys2Proof/Machine/Scheduler.lean ====
section
/-! DEFINITION. The scheduler (spec/14_scheduling.md R338 to R345, R433, R437): doorbells, hardware slots, the taking of commands,
their starts but for GRAPH's, and their completion. -/

namespace Sys2Proof.Machine

/-! ### Queues (R339, R340, R433) -/

/-- The context of a queue. -/
def State.queueCtx (s : State) (q : Nat) : Nat := entryCTX (s.queueEntry q)

/-- A scheduler access of a queue meets a translation fault: the queue stalls. -/
def State.stallQueue (s : State) (q va seq : Nat) : State :=
  let ctx := s.queueCtx q
  let s := s.postXlate ctx (looseRecord seq codeXLATE va 3)
  s.setQueue q { s.queue q with xlate := some (ctx, va / 65536) }

/-- The tables into which the scheduler writes for a queue keep it waiting: the queue's entry and the next journal entry (R52, R106). -/
def State.tablesBusy (s : State) (q seq : Nat) : Bool := s.tableBusy (s.queueKey q) 64 || s.tableBusy (s.journalKey seq) 64

/-- An entry that is journalled whole at once: an overrun, a ring slot or consumed word that cannot be reached. -/
def State.journalNote (s : State) (q ridx status : Nat) : State :=
  let j : Job := { seq := s.nextSeq, queue := q, ctx := s.queueCtx q, kind := 0, ridx := ridx, tag := 0, arg := 0, sigaddr := 0,
                   sigval := 0, accept := s.time, start := 0, started := false, ended := true, faulted := false,
                   status := status, written := 0 }
  { s.tableWrite (s.journalKey s.nextSeq) (journalBytes j status s.time) with nextSeq := s.nextSeq + 1 }

/-- V of a queue is cleared. -/
def State.clearV (s : State) (q : Nat) : State :=
  s.tableWrite (s.queueKey q + 1) [BitVec.ofNat 8 (bits (s.queueEntry q) 15 8 / 2 * 2)]

/-- A doorbell or ring slot that cannot be taken: one entry, V cleared, and nothing taken (R339, R433). -/
def State.overrun (s : State) (q status : Nat) : State :=
  let rd := entryRDPTR (s.queueEntry q)
  ((s.journalNote q rd status).clearV q).setQueue q { s.queue q with wrptr := rd }

/-- A queue is runnable (R340). -/
def State.runnable (s : State) (q : Nat) : Bool :=
  let e := s.queueEntry q
  (entryV e && decide (entryRDPTR e < (s.queue q).wrptr)) || s.jobs.any (fun j => j.queue == q) || (s.queue q).owes != 0

/-- DOORBELL: the scheduler reads the new WRPTR of a queue whose doorbell word was written (R339). -/
def execDoorbell (q : Nat) (s : State) : Res :=
  .next (if !s.bells.contains q || (s.queue q).xlate.isSome || s.tablesBusy q s.nextSeq then s
    else
      let e := s.queueEntry q
      match s.deviceLoad (entryCTX e) (BitVec.ofNat 64 (entryDBADDR e)) 8 with
      | (s, .error (.xlate va)) => s.stallQueue q va s.nextSeq
      | (_, .error (.busy _)) => s
      | (s, .error _) => { s with bells := s.bells.filter (· != q) }.overrun q 1
      | (s, .ok bs) =>
        let s := { s with bells := s.bells.filter (· != q) }
        let wr := leNat bs
        let rd := entryRDPTR e
        if wr < rd || 2 ^ entryLOG2N e < wr - rd then s.overrun q 7
        else
          let since := if s.runnable q then (s.queue q).since else s.time
          s.setQueue q { s.queue q with wrptr := wr, since := since })

/-! ### Slots (R340) -/

/-- A queue comes before another in the order of priority and waiting. -/
def State.queueBefore (s : State) (a b : Nat) : Bool :=
  let pa := entryPRIO (s.queueEntry a)
  let pb := entryPRIO (s.queueEntry b)
  decide (pb < pa) || (pa == pb && decide ((s.queue a).since < (s.queue b).since))

def State.insertQueue (s : State) (q : Nat) : List Nat → List Nat
  | [] => [q]
  | x :: xs => if s.queueBefore q x then q :: x :: xs else x :: s.insertQueue q xs

/-- The runnable queues without a slot, highest priority and longest wait first. -/
def State.waitingQueues (s : State) : List Nat :=
  (s.queues.filter fun q => s.runnable q.1 && (s.queueSlot q.1).isNone).foldl (fun l q => s.insertQueue q.1 l) []

def State.slotList (s : State) : List (Nat × Slot) :=
  (List.range 64).filterMap fun k => (nth s.slots k none).map fun x => (k, x)

/-- A slot is given to a queue, whose drained commands go on. -/
def State.giveSlot (s : State) (k q : Nat) : State :=
  let s := s.setSlot k (some { queue := q, since := s.time, displacing := false, refused := none })
  (s.queueCommands q).foldl (fun (s : State) c => s.modCommand c.id fun x => { x with saved := false }) s

/-- The waiting queue for which no displacement is under way yet. -/
def State.nextWaiting (s : State) : Option Nat :=
  s.waitingQueues[(s.slotList.filter fun x => x.2.displacing).length]?

/-- The holder of lowest priority, of those the one that has held longest. -/
def State.lowestHolder (s : State) : Option (Nat × Slot) :=
  let prio := fun (x : Nat × Slot) => entryPRIO (s.queueEntry x.2.queue)
  (s.slotList.filter fun x => !x.2.displacing).foldl (fun (best : Option (Nat × Slot)) x => match best with
    | none => some x
    | some b => if prio x < prio b || (prio x == prio b && x.2.since < b.2.since) then some x else some b) none

/-- A displacement that the pool refused is tried again when its room has changed. -/
def State.mayDisplace (s : State) (x : Slot) : Bool := !x.displacing && x.refused != some s.freeUnits.length

/-- SLOT_ASSIGN: a slot whose queue is no longer runnable is freed; a free slot goes to the first waiting queue; with none
free, the lowest holder below a waiting queue's priority is displaced (R340). -/
def execSlotAssign (s : State) : Res :=
  .next (match s.slotList.find? fun x => !x.2.displacing && !s.runnable x.2.queue with
    | some (k, _) => s.setSlot k none
    | none =>
      match s.waitingQueues, (List.range 64).find? fun k => (nth s.slots k none).isNone with
      | q :: _, some k => s.giveSlot k q
      | _, _ => match s.nextWaiting, s.lowestHolder with
        | some q, some (k, x) =>
          if entryPRIO (s.queueEntry x.queue) < entryPRIO (s.queueEntry q) && s.mayDisplace x then s.displace k x else s
        | _, _ => s)

/-- SLICE_EXPIRY: a holder whose slice has run out is displaced where a queue of its priority or above waits (R340). -/
def execSliceExpiry (k : Nat) (s : State) : Res :=
  .next (match nth s.slots k none with
    | none => s
    | some x =>
      let e := s.queueEntry x.queue
      if s.time < x.since + entrySLICE e * 1000 || !s.mayDisplace x || s.slotList.length < 64 then s
      else match s.nextWaiting with
        | some q => if entryPRIO e ≤ entryPRIO (s.queueEntry q) then s.displace k x else s
        | none => s)

/-! ### Taking (R339, R341, R342, R433) -/

/-- One bit of a context's tag bitmap written by the scheduler. -/
def State.tagBit (s : State) (ctx t : Nat) (on : Bool) : State × Option MemFault :=
  let va := BitVec.ofNat 64 (bits (s.ctxEntry ctx) 255 192 + t / 8)
  match s.deviceReach ctx va 1 true with
  | (s, .error f) => (s, some f)
  | (s, .ok l) =>
    let s := s.beforeRead ctx 0 false l
    let old := leNat (s.readSpots l)
    let new := if on then old ||| 2 ^ (t % 8) else old - (if old.testBit (t % 8) then 2 ^ (t % 8) else 0)
    (s.writeSpots ctx l (leBytes 1 new), none)

/-- The tag bit of a command is written where it names one: none where the write is done or has met a fault that leaves it unmade,
or the translation fault or the wait that it has met (R433). -/
def State.tagStep (s : State) (j : Job) (on : Bool) : State × Option MemFault :=
  if j.tag = 0 then (s, none)
  else match s.tagBit j.ctx j.tag on with
    | (s, some (.xlate va)) => (s, some (.xlate va))
    | (s, some (.busy r)) => (s, some (.busy r))
    | (s, _) => (s, none)

/-- What the last take of a queue still owes: the clearing of the tag bit, then the consumed word. -/
def State.payTake (s : State) (q : Nat) (j : Job) : State :=
  match (if (s.queue q).owes < 2 then (s, none) else s.tagStep j false) with
  | (s, some (.xlate va)) => s.stallQueue q va j.seq
  | (_, some _) => s
  | (s, none) =>
    let s := s.setQueue q { s.queue q with owes := 1 }
    let e := s.queueEntry q
    match s.deviceStore (entryCTX e) (BitVec.ofNat 64 (entryDBADDR e + 8)) (leBytes 8 (entryRDPTR e)) with
    | (s, some (.xlate va)) => s.stallQueue q va j.seq
    | (_, some (.busy _)) => s
    | (s, some _) => ((s.setQueue q { s.queue q with owes := 0 }).journalNote q j.ridx 1).clearV q
    | (s, none) => s.setQueue q { s.queue q with owes := 0 }

/-- A command record breaks the layout of R341. -/
def badRecord (bs : List Byte) : Bool :=
  let kind := fieldAt bs 0 1
  kind = 0 || 8 < kind || !zeroAt bs 1 12 || !zeroAt bs 14 16 || !zeroAt bs 24 48 ||
    (kind == 6 && (fieldAt bs 16 2 == 0 || !zeroAt bs 18 24)) || ((kind == 7 || kind == 8) && !zeroAt bs 16 24)

/-- The command of a ring record; one that R343 refuses for its record has ended. -/
def State.jobOf (s : State) (q ridx : Nat) (bs : List Byte) : Job :=
  { seq := s.nextSeq, queue := q, ctx := s.queueCtx q, kind := fieldAt bs 0 1, ridx := ridx, tag := fieldAt bs 12 2,
    arg := longAt bs 16, sigaddr := fieldAt bs 56 8, sigval := longAt bs 48, accept := s.time, start := 0, started := false,
    ended := badRecord bs, faulted := false, status := if badRecord bs then 1 else 0, written := 0 }

/-- The last command of a queue has started or ended, so that the next may be taken. -/
def State.mayTake (s : State) (q : Nat) : Bool :=
  let e := s.queueEntry q
  (s.queue q).xlate.isNone && (s.queueSlot q).any (fun x => !x.2.displacing) && entryV e &&
    decide (entryRDPTR e < (s.queue q).wrptr) && s.jobs.all fun j => j.queue != q || j.started || j.ended

/-- COMMAND_TAKE: the next command of a queue is taken, or a take that stalled goes on. -/
def execCommandTake (q : Nat) (s : State) : Res :=
  .next (if (s.queue q).xlate.isSome || s.tablesBusy q s.nextSeq then s
    else if (s.queue q).owes != 0 then
      (match (s.jobs.filter fun j => j.queue == q).getLast? with
        | some j => s.payTake q j
        | none => s.setQueue q { s.queue q with owes := 0 })
    else if !s.mayTake q then s
    else
      let e := s.queueEntry q
      let rd := entryRDPTR e
      let va := entryRING e + 64 * (rd % 2 ^ entryLOG2N e)
      match s.deviceLoad (entryCTX e) (BitVec.ofNat 64 va) 64 with
      | (s, .error (.xlate va)) => s.stallQueue q va s.nextSeq
      | (_, .error (.busy _)) => s
      | (s, .error _) => s.overrun q 1
      | (s, .ok bs) =>
        let j := s.jobOf q rd bs
        let s := { s with jobs := s.jobs ++ [j], nextSeq := s.nextSeq + 1 }
        let s := (s.tableWrite (s.journalKey j.seq) (journalBytes j 255 0)).tableWrite (s.queueKey q + 56) (leBytes 8 (rd + 1))
        (s.setQueue q { s.queue q with owes := 2 }).payTake q j)

/-! ### Starting (R342, R343, R437) -/

/-- The command of a kind whose turn it is to start: its queue holds a slot and stalls at nothing. -/
def State.starting (s : State) (kind seq : Nat) : Option Job :=
  match s.job? seq with
  | none => none
  | some j =>
    let q := s.queue j.queue
    if j.kind = kind && !j.started && !j.ended && q.xlate.isNone && q.owes = 0 && s.jobRuns seq then some j else none

/-- A command is refused and never starts. -/
def State.refuse (s : State) (seq status : Nat) : State := s.endJob seq status

/-- LAUNCH: its record is read, and refused or turned into a grid; it starts when its first team is placed (R342, R348). -/
def execCmdLaunch (seq : Nat) (s : State) : Res :=
  .next (match s.starting 1 seq with
    | none => s
    | some j =>
      if s.grids.any fun g => g.origin == .command seq then s
      else match s.launchRead j.ctx j.arg with
        | (s, .error (.xlate va)) => s.stallQueue j.queue va seq
        | (_, .error (.busy _)) => s
        | (s, .error _) => s.refuse seq 1
        | (s, .ok none) => s.refuse seq 2
        | (s, .ok (some l)) => s.launchGrid seq (.command seq) j.ctx l)

/-- The words of a control block, or what its read meets: the queue stalls, or the command is refused. -/
def State.controlBlock (s : State) (j : Job) (n : Nat) : Except State (State × List W64) :=
  match s.deviceLoad j.ctx j.arg (8 * n) with
  | (s, .error (.xlate va)) => .error (s.stallQueue j.queue va j.seq)
  | (_, .error (.busy _)) => .error s
  | (s, .error _) => .error (s.refuse j.seq 1)
  | (s, .ok bs) => .ok (s, (List.range n).map fun k => longAt bs (8 * k))

/-- The die of the byte at an offset of a leaf's page: that of the core of a HOME 01 page, or of the memory (R47, R437). -/
def State.leafDie (s : State) (e shift off : Nat) : Nat :=
  if leafHome e = 1 && !leafGather e then bits e 54 54
  else match s.leafSpot e shift off with
    | .ok p => keyDie p.key
    | .error _ => 0

/-- The die whose memory holds the byte at an address; die 0 where it has no translation (R437). -/
def State.dieHolding (s : State) (ctx : Nat) (a : W64) : Nat :=
  match s.address a with
  | .here va => match s.walk ctx va with
    | .leaf _ e shift => s.leafDie e shift (va % 2 ^ shift)
    | _ => 0
  | _ => 0

/-- The work of a command handed to an engine. -/
def Job.command (j : Job) (id eng place form : Nat) (args : List W64) : Command :=
  { id := id, eng := eng, place := place, owner := none, job := some j.seq, node := none, ctx := j.ctx, batch := 0, tag := 0, pc := 0,
    guard := none, discarded := false, form := form, args := args, phase := .queued, saved := false, xlate := none, written := 0, pos := 0, next := 0,
    block := 0, step := 0, passes := 0, buf := [], last := false, owned := [], window := 0, polling := false, outbox := [] }

/-- The work joins its engine's queue when that has room, and the command starts. -/
def State.handOver (s : State) (j : Job) (eng place form : Nat) (args : List W64) : State :=
  if engineRoom eng ≤ s.queuedAt eng place then s
  else (s.enqueue (j.command s.nextCommand eng place form args)).startJob j.seq

/-- COPY, as CPY.GLB on the copy engine of the walker's tile of the destination's die (R341, R437). -/
def execCmdCopy (seq : Nat) (s : State) : Res :=
  .next (match s.starting 3 seq with
    | none => s
    | some j => match s.controlBlock j 4 with
      | .error s => s
      | .ok (s, ws) =>
        if ws.getD 3 0 != 0 then s.refuse seq 1
        else s.handOver j 0 (s.walkerTile (s.dieHolding j.ctx (ws.getD 0 0))) 2 (ws.take 3))

/-- SORT, on the sort engines of the die that holds K; a control block with a reserved field that is not zero is refused (R256, R341,
R343, R437). -/
def execCmdSort (seq : Nat) (s : State) : Res :=
  .next (match s.starting 4 seq with
    | none => s
    | some j => match s.controlBlock j 6 with
      | .error s => s
      | .ok (s, ws) =>
        if bits (ws.getD 3 0).toNat 63 32 != 0 || bits (ws.getD 5 0).toNat 31 6 != 0 then s.refuse seq 1
        else s.handOver j 3 (s.dieHolding j.ctx (ws.getD 0 0)) 0 ws)

/-- COLL, as `.ALLRED` (log 26), on the collective engine of the die that holds the destination; a control block with a reserved
field or value is refused (R303, R341, R343, R437). -/
def execCmdColl (seq : Nat) (s : State) : Res :=
  .next (match s.starting 5 seq with
    | none => s
    | some j => match s.controlBlock j 6 with
      | .error s => s
      | .ok (s, ws) =>
        if ws.getD 5 0 != 0 || bits (ws.getD 2 0).toNat 63 32 != 0 || !collWordOk (ws.getD 3 0).toNat then s.refuse seq 1
        else s.handOver j 4 (s.dieHolding j.ctx (ws.getD 1 0)) 0 (ws.take 5))

/-- A command that completes when it starts. -/
def State.startAndEnd (s : State) (seq : Nat) : State := (s.startJob seq).endJob seq 0

/-- WAITEV: it starts when the bit of the tag it waits for is set (R342). -/
def execCmdWaitev (seq : Nat) (s : State) : Res :=
  .next (match s.starting 6 seq with
    | none => s
    | some j =>
      let w := bits j.arg.toNat 15 0
      let va := bits (s.ctxEntry j.ctx) 255 192 + w / 8
      match s.deviceLoad j.ctx (BitVec.ofNat 64 va) 1 with
      | (s, .error (.xlate va)) => s.stallQueue j.queue va seq
      | (_, .error _) => s
      | (s', .ok bs) => if (leNat bs).testBit (w % 8) then s'.startAndEnd seq else s)

/-- Every earlier command of the queue has completed. -/
def State.earlierDone (s : State) (j : Job) : Bool := s.jobs.all fun x => x.queue != j.queue || j.seq ≤ x.seq

/-- SIGNAL: it starts, and completes, when every earlier command of the queue has completed (R342). -/
def execCmdSignal (seq : Nat) (s : State) : Res :=
  .next (match s.starting 7 seq with
    | none => s
    | some j => if s.earlierDone j then s.startAndEnd seq else s)

/-- FENCE (R342). -/
def execCmdFence (seq : Nat) (s : State) : Res :=
  .next (match s.starting 8 seq with
    | none => s
    | some j => if s.earlierDone j then s.startAndEnd seq else s)

/-! ### Completion (R342 to R345, R433) -/

/-- Every node of a graph has finished or failed. -/
def Graph.done (g : Graph) : Bool := g.nodes.all fun n => n.finished || n.failed

/-- The work of a started command is done; engine commands end it themselves. -/
def State.workDone (s : State) (j : Job) : Bool :=
  match j.kind with
  | 1 => j.started && (s.grids.find? fun g => g.origin == .command j.seq).any Grid.done
  | 2 => j.started && (s.graph? j.seq).any Graph.done
  | _ => false

/-- A command that has done its work ends DONE or FAULTED (R343). -/
def State.endWork (s : State) (j : Job) : State :=
  let failed := j.faulted || (s.graph? j.seq).any fun g => g.nodes.any (·.failed)
  let s := s.endJob j.seq (if failed then 4 else 0)
  { s with
    grids := s.grids.filter fun g => g.seq != j.seq
    graphs := s.graphs.filter fun g => g.seq != j.seq }

/-- The completion writes of an ended command, from where they stand, each done before the next: END and STATUS, the tag bit, the
completion word. -/
def State.completeWrites (s : State) (j : Job) : State :=
  let s := if j.written = 0 then
      (s.tableWrite (s.journalKey j.seq + 12) (leBytes 1 j.status)).tableWrite (s.journalKey j.seq + 56) (leBytes 8 s.time)
    else s
  let s := s.modJob j.seq fun x => { x with written := max x.written 1 }
  match (if j.written = 2 then (s, none) else s.tagStep j true) with
  | (s, some (.xlate va)) => s.stallQueue j.queue va j.seq
  | (_, some _) => s
  | (s, none) =>
    let s := s.modJob j.seq fun x => { x with written := 2 }
    match (if j.sigaddr = 0 then (s, none) else s.deviceStore j.ctx (BitVec.ofNat 64 j.sigaddr) (leBytes 8 j.sigval.toNat)) with
    | (s, some (.xlate va)) => s.stallQueue j.queue va j.seq
    | (_, some (.busy _)) => s
    | (s, _) => { s with jobs := s.jobs.filter fun x => x.seq != j.seq }

/-- COMMAND_COMPLETE: a command whose work is done, or that was refused or stopped, completes. -/
def execCommandComplete (seq : Nat) (s : State) : Res :=
  .next (match s.job? seq with
    | none => s
    | some j =>
      if (s.queue j.queue).xlate.isSome || (s.queue j.queue).owes != 0 || s.tableBusy (s.journalKey seq) 64 then s
      else if j.ended then s.completeWrites j
      else if s.workDone j then
        let s := s.endWork j
        match s.job? seq with
        | some j => s.completeWrites j
        | none => s
      else s)

end Sys2Proof.Machine
end

