-- ==== Sys2Proof/Machine/Graph.lean ====
section
/-! DEFINITION. Work graphs (spec/10_splat_pipeline.md R243 to R254, R260 to R263, R432): the GRAPH command, the commit of record
queues, program nodes, and the fixed-function nodes. -/

namespace Sys2Proof.Machine

/-! ### Reading a descriptor (R243 to R245) -/

/-- Why a descriptor's reading stops: the queue stalls at a virtual address, the read waits, or the command is refused with a
status. -/
inductive GraphStop where
  | stall (va : Nat)
  | wait
  | refuse (status : Nat)
  deriving DecidableEq, Repr

/-- n bytes of a control block; a fault refuses with a status. -/
def State.graphRead (s : State) (ctx a n status : Nat) : State × Except GraphStop (List Byte) :=
  match s.deviceLoad ctx (BitVec.ofNat 64 a) n with
  | (s, .error (.xlate va)) => (s, .error (.stall va))
  | (s, .error (.busy _)) => (s, .error .wait)
  | (s, .error _) => (s, .error (.refuse status))
  | (s, .ok bs) => (s, .ok bs)

/-- Bytes of a node's configuration record. -/
def configBytes (kind : Nat) : Nat := if kind = 2 then 48 else 32

/-- A node record with what its TARGET names; a fault of the record itself is told last (R343). -/
def State.readNode (s : State) (ctx : Nat) (bs : List Byte) : State × Except GraphStop Node :=
  let kind := fieldAt bs 0 1
  let target := fieldAt bs 8 8
  let n : Node := { kind := kind, target := target, batch := fieldAt bs 6 2, launch := none, config := [], started := false,
                    finished := false, failed := false, taken := 0, batches := 0, cleared := false, xlate := none }
  let sound := zeroAt bs 1 6 && zeroAt bs 16 32
  if 4 < kind then (s, .error (.refuse 3))
  else if kind = 0 then match s.launchRead ctx (BitVec.ofNat 64 target) with
    | (s, .error (.xlate va)) => (s, .error (.stall va))
    | (s, .error (.busy _)) => (s, .error .wait)
    | (s, .error _) => (s, .error (.refuse 1))
    | (s, .ok none) => (s, .error (.refuse 3))
    | (s, .ok (some l)) => (s, if sound then .ok { n with launch := some l } else .error (.refuse 3))
  else match s.graphRead ctx target (configBytes kind) 3 with
    | (s, .error x) => (s, .error x)
    | (s, .ok bs) => (s, if sound then .ok { n with config := bs } else .error (.refuse 3))

/-- Some page of n bytes at an address is a HOME 01 page. -/
def State.home01 (s : State) (ctx a n : Nat) : Bool :=
  (List.range (ceilDiv (a % 65536 + n) 65536)).any fun k => match s.walk ctx (a / 65536 * 65536 + 65536 * k) with
    | .leaf _ e _ => leafHome e == 1
    | _ => false

/-- The page of an address is a HOME 10 page. -/
def State.home10 (s : State) (ctx a : Nat) : Bool :=
  match s.walk ctx a with
  | .leaf _ e _ => leafHome e == 2
  | _ => false

/-- A queue header keeps R245. -/
def headerOk (bs : List Byte) : Bool :=
  let rsize := fieldAt bs 12 2
  let cap := fieldAt bs 8 4
  zeroAt bs 48 64 && zeroAt bs 14 16 && decide (16 ≤ rsize) && decide (rsize ≤ 256) && rsize % 16 == 0 && decide (1 ≤ cap) &&
    decide (cap ≤ 2 ^ 31) && fieldAt bs 0 8 % 128 == 0

/-- The virtual address that a number names in this package: the global form of an own address is its local form (R36). -/
def State.localForm (s : State) (a : Nat) : Nat :=
  match s.address (BitVec.ofNat 64 a) with
  | .here va => va
  | _ => a

/-- An edge record with its queue header. -/
def State.readEdge (s : State) (ctx : Nat) (bs : List Byte) : State × Except GraphStop Edge :=
  let q := s.localForm (fieldAt bs 8 8)
  if !zeroAt bs 2 8 || q % 64 != 0 then (s, .error (.refuse 3))
  else match s.graphRead ctx q 64 3 with
    | (s, .error x) => (s, .error x)
    | (s, .ok h) =>
      let e : Edge := { queue := q, src := fieldAt bs 0 1, dst := fieldAt bs 1 1, rsize := fieldAt h 12 2, cap := fieldAt h 8 4,
                        base := fieldAt h 0 8, committed := 0, pending := [] }
      (s, if headerOk h && s.home10 ctx q && !s.home01 ctx (s.localForm e.base) (e.cap * e.rsize) then .ok e else .error (.refuse 3))

/-- Two readings one after the other. A refusal as BADGRAPH yields to whatever the later reading stops at, for the checks are made in the
order of R343's table: every control block is reached first. -/
def bothRead {α β γ : Type} (f : α → β → γ) (a : Except GraphStop α) (b : Except GraphStop β) : Except GraphStop γ :=
  match a, b with
  | .error (.refuse 3), .error x => .error x
  | .error x, _ => .error x
  | _, .error x => .error x
  | .ok a, .ok b => .ok (f a b)

/-- Records of n bytes read one after another. -/
def readRecords {α : Type} (f : State → List Byte → State × Except GraphStop α) :
    List (List Byte) → State → State × Except GraphStop (List α)
  | [], s => (s, .ok [])
  | r :: rest, s => match f s r with
    | (s, .error (.stall va)) => (s, .error (.stall va))
    | (s, .error .wait) => (s, .error .wait)
    | (s, a) =>
      let x := readRecords f rest s
      (x.1, bothRead List.cons a x.2)

/-! ### The rules of R244 -/

def Graph.inputs (g : Graph) (n : Nat) : List Edge := g.edges.filter fun e => e.dst == n
def Graph.outputs (g : Graph) (n : Nat) : List Edge := g.edges.filter fun e => e.src == n
def Graph.node? (g : Graph) (n : Nat) : Option Node := g.nodes[n]?
def Graph.kindOf (g : Graph) (n : Nat) : Nat := ((g.node? n).map (·.kind)).getD 5

/-- Edges without those whose source no remaining edge enters. -/
def peel (es : List (Nat × Nat)) : List (Nat × Nat) := es.filter fun e => es.any fun f => f.2 == e.1
def peelAll : Nat → List (Nat × Nat) → List (Nat × Nat)
  | 0, es => es
  | fuel + 1, es => peelAll fuel (peel es)
/-- The edges form no cycle. -/
def Graph.acyclic (g : Graph) : Bool := (peelAll (g.nodes.length + 1) (g.edges.map fun e => (e.src, e.dst))).isEmpty

/-- Fields of a BINNER's configuration (R252). -/
def Node.width (n : Node) : Nat := fieldAt n.config 0 2
def Node.height (n : Node) : Nat := fieldAt n.config 2 2
def Node.maxTiles (n : Node) : Nat := fieldAt n.config 4 2
def Node.stats (n : Node) : Nat := fieldAt n.config 8 8
def Node.tilesX (n : Node) : Nat := ceilDiv n.width 16
def Node.tilesY (n : Node) : Nat := ceilDiv n.height 16
/-- The config word of a SORTER (R260). -/
def Node.sortConfig (n : Node) : Nat := fieldAt n.config 32 8
def Node.sortTableAt (n : Node) : Nat := fieldAt n.config 24 8
/-- E of a SORTER. -/
def Node.sortEntries (n : Node) : Nat := (bits n.sortConfig 63 56 + 1) * bits n.sortConfig 55 32

/-- A fixed-function node's own configuration record. -/
def Node.configOk (n : Node) : Bool :=
  match n.kind with
  | 1 => zeroAt n.config 6 8 && zeroAt n.config 16 32 && n.stats % 32 == 0 && n.width != 0 && n.height != 0 && n.maxTiles != 0 &&
      decide (n.maxTiles ≤ 4096) && decide (n.tilesX * n.tilesY ≤ 2 ^ 24 - 1)
  | 2 => zeroAt n.config 40 48
  | 3 => zeroAt n.config 4 8 && zeroAt n.config 24 32 && fieldAt n.config 8 8 % 8 == 0
  | 4 => zeroAt n.config 13 14 && zeroAt n.config 16 32
  | _ => true

/-- Record bytes that a fixed-function node takes (R244, R306). -/
def inputBytes (kind : Nat) : Option Nat :=
  match kind with
  | 1 => some 32
  | 2 => some 16
  | 3 => some 48
  | 4 => some 32
  | _ => none

/-- A program node's batch, and its bindings beside the records placed with it. -/
def Graph.batchOk (g : Graph) (i : Nat) (n : Node) : Bool :=
  match g.inputs i, n.launch with
  | e :: _, some l =>
    let top := l.shared * 65536
    let bytes := n.batch * e.rsize
    let placed := !(g.kindOf e.src == 2 || g.kindOf e.src == 3)
    let clear := fun (b : BitVec 256) => bindKind b.toNat = 0 ||
      (decide (bytes ≤ bindDst b.toNat) && decide (bindDst b.toNat + bindLen b.toNat ≤ top - 16))
    decide (1 ≤ n.batch) && decide (n.batch ≤ 4096) && decide (bytes + 16 ≤ top) && (!placed || l.binds.all clear)
  | [], _ => n.batch == 0
  | _, none => false

/-- The rules of R244 on one node. -/
def Graph.nodeOk (g : Graph) (i : Nat) (n : Node) : Bool :=
  let ins := g.inputs i
  let outs := g.outputs i
  n.configOk && (n.kind == 0 || n.batch == 0) &&
    (if n.kind = 0 then decide (ins.length ≤ 1) && g.batchOk i n
     else if n.kind = 2 then !ins.isEmpty else ins.length == 1) &&
    (match inputBytes n.kind with
      | some k => ins.all fun e => e.rsize == k
      | none => true) &&
    (match n.kind with
      | 1 => decide (outs.length ≤ 1) && outs.all fun e => g.kindOf e.dst == 2 && (match g.node? e.dst with
          | some m => n.tilesX * n.tilesY == bits m.sortConfig 55 32
          | none => false)
      | 2 => (outs.all fun e => g.kindOf e.dst == 0) && (outs.isEmpty || n.sortTableAt != 0)
      | 3 => decide (outs.length ≤ 1) && outs.all fun e => g.kindOf e.dst == 0
      | _ => true)

/-- No two edges name one header. -/
def distinctQueues : List Edge → Bool
  | [] => true
  | e :: rest => (rest.all fun f => f.queue != e.queue) && distinctQueues rest

/-- A descriptor that R244 takes. -/
def Graph.ok (g : Graph) : Bool :=
  let n := g.nodes.length
  (g.edges.all fun e => decide (e.src < n) && decide (e.dst < n)) && g.acyclic && distinctQueues g.edges &&
    ((List.range n).all fun i => match g.node? i with
      | some x => g.nodeOk i x
      | none => false)

/-- The graph of a descriptor. -/
def State.readGraph (s : State) (j : Job) : State × Except GraphStop Graph :=
  let a := j.arg.toNat
  match s.graphRead j.ctx a 16 1 with
  | (s, .error x) => (s, .error x)
  | (s, .ok h) =>
    let n := fieldAt h 0 2
    let m := fieldAt h 2 2
    if !zeroAt h 4 16 || n = 0 || 64 < n || 256 < m then (s, .error (.refuse 3))
    else match s.graphRead j.ctx (a + 16) (32 * n + 16 * m) 1 with
      | (s, .error x) => (s, .error x)
      | (s, .ok bs) =>
        let ns := readRecords (fun s r => s.readNode j.ctx r) (chunks 32 n (bs.take (32 * n))) s
        let es := readRecords (fun s r => s.readEdge j.ctx r) (chunks 16 m (bs.drop (32 * n))) ns.1
        match bothRead (fun nodes edges => ({ seq := j.seq, ctx := j.ctx, nodes := nodes, edges := edges } : Graph)) ns.2 es.2 with
        | .error x => (es.1, .error x)
        | .ok g => (es.1, if g.ok then .ok g else .error (.refuse 3))

/-! ### Accesses of a graph (R246, R432) -/

/-- The work of a node as a command of its graph's context, on the engines of a die. -/
def nodeCommand (seq node ctx die : Nat) (args : List W64) : Command :=
  { id := 2 ^ 64, eng := 3, place := die, owner := none, job := none, node := some (seq, node), ctx := ctx, batch := 0, tag := 0,
    pc := 0, guard := none, discarded := false, form := 0, args := args, phase := .queued, saved := false, xlate := none, written := 0, pos := 0,
    next := 0, block := 0, step := 0, passes := 0, buf := [], last := false, owned := [], window := 0, polling := false, outbox := [] }

/-- A node ends failed, with its record: AUX is AUX1 of an engine's event, the code and no step, or a machine check's own (R431,
R432). -/
def State.failNode (s : State) (seq node ctx code addr : Nat) : State :=
  (s.post ctx (if isSectorCheck code then s.looseCheck ctx seq code addr else looseRecord seq code addr code)).modNode seq node fun n => { n with failed := true }

/-- What a stop of a node's access leads to: it waits, stalls, or fails. -/
def State.nodeStop (old s : State) (seq node ctx : Nat) (x : Stop) : State :=
  match x with
  | .xlate addr =>
    (s.postXlate ctx (looseRecord seq codeXLATE addr 3)).modNode seq node fun n => { n with xlate := some (ctx, addr / 65536) }
  | .fault code addr => s.failNode seq node ctx code addr
  | .check code key => s.failNode seq node ctx code key
  | .wait => old
  | .limit => old

/-- Writes of a node, one after another. -/
def State.nodeWrites (s : State) (c : Command) (l : List (Nat × List Byte)) : State × Option Stop :=
  l.foldl (fun (r : State × Option Stop) w => match r.2 with
    | some _ => r
    | none => r.1.writeAt c (BitVec.ofNat 64 w.1) w.2) (s, none)

/-- Positions of an edge of a graph. -/
def Graph.edgeIndex (g : Graph) (e : Edge) : Nat := ((List.range g.edges.length).find? fun i => g.edges[i]? == some e).getD 0

/-- The die of a SORTER that a BINNER feeds, or of its statistics. -/
def State.binnerDie (s : State) (g : Graph) (n : Node) (out : Option Edge) : Nat :=
  match out.bind fun e => g.node? e.dst with
  | some m => s.dieHolding g.ctx (longAt m.config 0)
  | none => s.dieHolding g.ctx (BitVec.ofNat 64 n.stats)

/-- A node's work has the die that was chosen when it started (R437). -/
def State.settleDie (s : State) (seq i die : Nat) : State := s.modNode seq i fun n => { n with die := n.die.or (some die) }

/-- The statistics of a BINNER are set to 0 at the graph's start, or where that met a translation fault or a wait, before its first
record (R252, R432). -/
def State.clearStats (s : State) (g : Graph) (i : Nat) (n : Node) : State :=
  if n.kind != 1 || n.cleared then s
  else
    let die := n.die.getD (s.binnerDie g n (g.outputs i).head?)
    let s := s.settleDie g.seq i die
    match s.writeAt (nodeCommand g.seq i g.ctx die []) (BitVec.ofNat 64 n.stats) (zeros 32) with
    | (s', some x) => State.nodeStop s s' g.seq i g.ctx x
    | (s, none) => s.modNode g.seq i fun n => { n with cleared := true }

/-- GRAPH: its descriptor is read and refused, or its counters and statistics are set to 0 and its nodes may start. -/
def execCmdGraph (seq : Nat) (s : State) : Res :=
  .next (match s.starting 2 seq with
    | none => s
    | some j =>
      if (s.graph? seq).isSome then s
      else match s.readGraph j with
        | (s, .error (.stall va)) => s.stallQueue j.queue va seq
        | (_, .error .wait) => s
        | (s, .error (.refuse status)) => s.refuse seq status
        | (s, .ok g) =>
          let c := nodeCommand seq 0 j.ctx 0 []
          match s.nodeWrites c (g.edges.map fun e => (e.queue + queueRESV, zeros 32)) with
          | (s, some (.xlate va)) => s.stallQueue j.queue va seq
          | (_, some .wait) => s
          | (s, some _) => s.refuse seq 3
          | (s', none) =>
            let start : State := { s' with graphs := s'.graphs ++ [g] }
            ((List.range g.nodes.length).zip g.nodes).foldl (fun (s : State) x => s.clearStats g x.1 x.2) start)

/-! ### Commit (R246, R249) -/

/-- A context waits for the replay of a page of an address. -/
def State.awaits (s : State) (ctx a : Nat) : Bool := s.xlates.contains (ctx, a % 2 ^ 48 / 65536)

/-- QUEUE_COMMIT: COMMIT passes the oldest reservation once its records are written (R246). -/
def execQueueCommit (seq i : Nat) (s : State) : Res :=
  .next (match s.graph? seq with
    | none => s
    | some g => match g.edges[i]? with
      | none => s
      | some e => match e.pending with
        | [] => s
        | r :: rest =>
          if !r.written || s.awaits g.ctx (e.queue + queueCOMMIT) then s
          else match s.writeAt (nodeCommand seq e.src g.ctx 0 []) (BitVec.ofNat 64 (e.queue + queueCOMMIT)) (leBytes 8 (r.first + r.count)) with
            | (s, some (.xlate va)) => s.postXlate g.ctx (looseRecord seq codeXLATE va 3)
            | (_, some .wait) => s
            | (s, _) => s.modEdge seq i fun e => { e with committed := r.first + r.count, pending := rest })

/-- No further record will be committed to an edge: its producer has ended, and COMMIT has reached the end, or positions that a faulted
EMIT leaves unwritten for ever (R247, R269). -/
def Graph.spent (g : Graph) (e : Edge) : Bool :=
  (g.node? e.src).any (fun n => n.finished || n.failed) && e.pending.head?.all fun r => !r.written

/-- An edge whose every record has been committed: positions that a faulted EMIT leaves unwritten keep it open (R269). -/
def Graph.settled (g : Graph) (e : Edge) : Bool :=
  (g.node? e.src).any (fun n => n.finished || n.failed) && e.pending.isEmpty

/-- A node that may go on: its graph's queue holds a slot, and it is neither done nor stalled. -/
def State.nodeTurn (s : State) (seq i kind : Nat) : Option (Graph × Node) :=
  match s.graph? seq with
  | none => none
  | some g => match g.node? i with
    | none => none
    | some n => if n.kind = kind && !n.finished && !n.failed && n.xlate.isNone && s.jobRuns seq then some (g, n) else none

/-! ### Program nodes (R247) -/

/-- Extents of a node whose grid has no end. -/
def Launch.unbounded (l : Launch) : Launch := { l with gx := 0xFFFFFFFF, gy := 1, gz := 1 }

/-- Records for the next team of a queue-fed node. -/
def Graph.nextBatch (g : Graph) (n : Node) (e : Edge) : Nat :=
  let k := e.committed - n.taken
  if n.batch ≤ k then n.batch else if g.spent e then k else 0

/-- A node that is launched once. -/
def State.launchNode (s : State) (seq i ctx : Nat) (l : Launch) : State :=
  (((s.launchGrid seq (.node seq i) ctx l).modNode seq i fun n => { n with started := true }).startJob seq)

/-- PROGRAM_NODE_LAUNCH: a node without input at the graph's start, a node fed by SORTER or RASTER after it, or the next
team of a queue-fed node. -/
def execProgramNodeLaunch (seq i : Nat) (s : State) : Res :=
  .next (match s.nodeTurn seq i 0 with
    | none => s
    | some (g, n) => match n.launch, g.inputs i with
      | none, _ => s
      | some l, [] => if n.started then s else s.launchNode seq i g.ctx l
      | some l, e :: _ => match g.node? e.src with
        | none => s
        | some p =>
          if p.kind = 2 then
            (if p.finished && !n.started then s.launchNode seq i g.ctx { l with gx := p.sortEntries, gy := 1, gz := 1 } else s)
          else if p.kind = 3 then (if p.finished && !n.started then s.launchNode seq i g.ctx l else s)
          else
            let k := g.nextBatch n e
            if k = 0 then s
            else match s.writeAt (nodeCommand seq i g.ctx 0 []) (BitVec.ofNat 64 (e.queue + queueDISP)) (leBytes 8 (n.taken + k)) with
              | (s', some x) => State.nodeStop s s' seq i g.ctx x
              | (s, none) =>
                (s.newGrid seq (.node seq i) g.ctx l.unbounded n.batches 1 [(n.batches, k, n.taken)]).modNode seq i fun n =>
                  { n with started := true, taken := n.taken + k, batches := n.batches + 1 })

/-! ### BINNER (R252 to R254) -/

/-- A value on the grid of the smallest FP32 step. -/
def fixed149 (x : Num) : Int :=
  match x with
  | .fin neg m e => scaleTo (if neg then -(m : Int) else m) e (-149)
  | _ => 0

/-- What becomes of a splat record: dropped as invalid, dropped by MAXT, or its keys. -/
inductive Binned where
  | invalid
  | tooMany
  | keys (l : List Nat)
  deriving DecidableEq, Repr

/-- R253 for a splat record. -/
def Node.bin (n : Node) (x : Nat) : Binned :=
  let r := wide16 x 128
  let cx := num32 (bits x 31 0)
  let cy := num32 (bits x 63 32)
  let depth := num32 (bits x 191 160)
  let zero : Num := .fin false 0 0
  let nan := [r, cx, cy, depth, wide16 x 64, wide16 x 80, wide16 x 96, wide16 x 112].any Num.isNan
  if nan || bits x 255 224 != 0 || 255 < bits x 159 144 || !zero.below depth || depth.isInf || !zero.below r || cx.isInf ||
      cy.isInf then .invalid
  else
    let lx := r32 (sumOf .rne [cx, r.negate])
    let hx := r32 (sumOf .rne [cx, r])
    let ly := r32 (sumOf .rne [cy, r.negate])
    let hy := r32 (sumOf .rne [cy, r])
    let atLeast := fun (a : Num) (k : Nat) => !(a.below (Num.ofInt k))
    if hx.below zero || atLeast lx n.width || hy.below zero || atLeast ly n.height then .invalid
    else
      let tile := fun (a : Num) (top : Nat) => match a with
        | .inf neg => if neg then 0 else top
        | _ => min (fixed149 a / (16 * 2 ^ 149 : Nat)).toNat top
      let tx0 := tile lx (n.tilesX - 1)
      let tx1 := tile hx (n.tilesX - 1)
      let ty0 := tile ly (n.tilesY - 1)
      let ty1 := tile hy (n.tilesY - 1)
      if n.maxTiles < (tx1 - tx0 + 1) * (ty1 - ty0 + 1) then .tooMany
      else .keys ((List.range (ty1 - ty0 + 1)).flatMap fun dy => (List.range (tx1 - tx0 + 1)).map fun dx =>
        bits x 159 144 * 2 ^ 56 + ((ty0 + dy) * n.tilesX + tx0 + dx) * 2 ^ 32 + bits x 191 160)

/-- The 16 bytes of a key record (R251). -/
def keyRecord (key payload : Nat) : List Byte := leBytes 8 key ++ leBytes 4 payload ++ zeros 4

/-- BINNER_RECORD: the next committed splat record is dropped or gives its keys, as far as the key queue has room. Its counts are
written last: every write before them is the same when it is made again after a replay (R432). -/
def execBinnerRecord (seq i : Nat) (s : State) : Res :=
  .next (match s.nodeTurn seq i 1 with
    | none => s
    | some (g, n) => match g.inputs i with
      | [] => s
      | e :: _ =>
        let out := (g.outputs i).head?
        let c := nodeCommand seq i g.ctx (n.die.getD (s.binnerDie g n out)) []
        let p := n.taken
        if !n.cleared then s.clearStats g i n
        else if e.committed ≤ p then s
        else match s.readAt c (BitVec.ofNat 64 (e.base + p * 32)) 32 with
          | (s', .error x) => State.nodeStop s s' seq i g.ctx x
          | (s', .ok rb) =>
            let b := n.bin (leNat rb)
            let keys := match b with
              | .keys l => l
              | _ => []
            let done := n.batches - 1
            let room := match out with
              | some o => o.cap - o.committed
              | none => keys.length
            let k := min room (keys.length - done)
            let whole := done + k == keys.length
            if k = 0 && !whole && n.batches != 0 then s
            else match s'.readAt c (BitVec.ofNat 64 n.stats) 32 with
              | (s', .error x) => State.nodeStop s s' seq i g.ctx x
              | (s', .ok st) =>
                let add := fun (o : Nat) (d : Nat) => leBytes 8 ((fieldAt st o 8 + d) % 2 ^ 64)
                let stats := add 0 (if n.batches = 0 then 1 else 0) ++ add 8 k ++ add 16 (b2n (b == .invalid)) ++
                  add 24 (b2n (b == .tooMany))
                let recs := match out with
                  | some o => (List.range k).map fun t => (o.base + (o.committed + t) * 16, keyRecord (keys.getD (done + t) 0) p)
                  | none => []
                let heads := match out with
                  | some o => if k = 0 then [] else [(o.queue + queueRESV, leBytes 8 (o.committed + k) ++ leBytes 8 (o.committed + k))]
                  | none => []
                let disp := if whole then [(e.queue + queueDISP, leBytes 8 (p + 1))] else []
                match s'.nodeWrites c (recs ++ heads ++ disp ++ [(n.stats, stats)]) with
                | (s', some x) => State.nodeStop s s' seq i g.ctx x
                | (s', none) =>
                  let s := s'.modNode seq i fun n =>
                    if whole then { n with started := true, taken := p + 1, batches := 0 } else { n with started := true, batches := done + k + 1 }
                  match out with
                  | some o => s.modEdge seq (g.edgeIndex o) fun o => { o with committed := o.committed + k }
                  | none => s)

/-! ### SORTER (R260) -/

/-- SORTER_START: when its producers have finished, the sort of a node joins the sort engine's queue. -/
def execSorterStart (seq i : Nat) (s : State) : Res :=
  .next (match s.nodeTurn seq i 2 with
    | none => s
    | some (g, n) =>
      let ins := g.inputs i
      if n.started || !(ins.all fun e => g.settled e && (g.node? e.src).any (·.finished)) then s
      else
        let total := ins.foldl (fun k e => k + e.committed) 0
        let die := s.dieHolding g.ctx (longAt n.config 0)
        let c := { nodeCommand seq i g.ctx die
          [longAt n.config 0, longAt n.config 8, longAt n.config 16, BitVec.ofNat 64 total, longAt n.config 24, longAt n.config 32] with
          id := s.nextCommand }
        if engineRoom 3 ≤ s.queuedAt 3 die then s
        else match s.nodeWrites c (ins.map fun e => (e.queue + queueDISP, leBytes 8 e.committed)) with
          | (s', some x) => State.nodeStop s s' seq i g.ctx x
          | (s, none) => (s.enqueue c).modNode seq i fun n => { n with started := true, taken := total })

/-! ### RASTER (R261, R262) -/

/-- A triangle record. -/
structure Triangle where
  x : List Int
  y : List Int
  z : List Num
  id : Nat
  view : Nat

/-- A triangle record that is not dropped for a field of it. -/
def triangleOf (bs : List Byte) : Option Triangle :=
  let v := fun (o : Nat) => num32 (fieldAt bs o 4)
  let all := (List.range 9).map fun k => v (4 * k)
  let at_ := fun (o : Nat) => (List.range 3).map fun k => v (12 * k + o)
  if (all.any fun a => a.isNan || a.isInf) || 255 ≤ fieldAt bs 40 2 || !zeroAt bs 42 48 then none
  else some { x := (at_ 0).map fixed149, y := (at_ 4).map fixed149, z := at_ 8, id := fieldAt bs 36 4, view := fieldAt bs 40 2 }

/-- The edge function of the edge opposite vertex k at a point, before its sign is set. -/
def Triangle.edge (t : Triangle) (k : Nat) (px py : Int) : Int :=
  let i := (k + 1) % 3
  let j := (k + 2) % 3
  (t.x.getD j 0 - t.x.getD i 0) * (py - t.y.getD i 0) - (t.y.getD j 0 - t.y.getD i 0) * (px - t.x.getD i 0)

/-- Twice the signed area. -/
def Triangle.area (t : Triangle) : Int := t.edge 0 (t.x.getD 0 0) (t.y.getD 0 0)

/-- The edge functions at a point, positive at their vertices. -/
def Triangle.edges (t : Triangle) (px py : Int) : List Int :=
  (List.range 3).map fun k => if t.area < 0 then -(t.edge k px py) else t.edge k px py

/-- The edge opposite vertex k is a top edge or a left edge. -/
def Triangle.topLeft (t : Triangle) (k : Nat) : Bool :=
  let i := (k + 1) % 3
  let j := (k + 2) % 3
  let dy := t.y.getD j 0 - t.y.getD i 0
  if dy = 0 then decide (t.y.getD i 0 < t.y.getD k 0) else decide (if t.area < 0 then 0 < dy else dy < 0)

/-- The candidate of a pixel: its depth code, where the triangle covers its centre and the depth is positive and finite. -/
def Triangle.candidate (t : Triangle) (u v : Nat) : Option Nat :=
  let px : Int := (2 * u + 1) * (2 ^ 148 : Nat)
  let py : Int := (2 * v + 1) * (2 ^ 148 : Nat)
  let es := t.edges px py
  if !((List.range 3).all fun k => decide (0 < es.getD k 0) || (es.getD k 0 == 0 && t.topLeft k)) then none
  else
    let num := sumOf .rne ((List.range 3).map fun k => (Num.ofInt (es.getD k 0)).mul (t.z.getD k .nan))
    let z := (divideFlt .rne false 0 num (Num.ofInt (es.foldl (· + ·) 0))).code
    if (Num.fin false 0 0).below (num32 z) && !(num32 z).isInf then some z else none

/-- The pixels of an image that a triangle's box meets. -/
def Triangle.pixels (t : Triangle) (w h : Nat) : List (Nat × Nat) :=
  let unit : Int := (2 ^ 149 : Nat)
  let lo := fun (l : List Int) => ((l.foldl min (l.headD 0)) / unit).toNat
  let hi := fun (l : List Int) (n : Nat) => min ((l.foldl max (l.headD 0)) / unit + 1).toNat n
  let us := (List.range (hi t.x w)).drop (lo t.x)
  (List.range (hi t.y h)).drop (lo t.y) |>.flatMap fun v => us.map fun u => (u, v)

/-- The addresses and the words that a triangle record sends to the visibility buffer. -/
def Node.fragments (n : Node) (bs : List Byte) : List (Nat × Nat) :=
  match triangleOf bs with
  | none => []
  | some t =>
    if t.area = 0 then []
    else (t.pixels n.width n.height).filterMap fun (q : Nat × Nat) => (t.candidate q.1 q.2).map fun z =>
      (fieldAt n.config 8 8 + t.view * fieldAt n.config 16 8 + 8 * (q.2 * n.width + q.1), z * 2 ^ 32 + t.id)

/-- One ATOM.MIN.N64 of the node. -/
def State.atomicMin (s : State) (c : Command) (a : Nat) (w : Nat) : State × Option Stop :=
  if a % 8 != 0 then (s, some (.fault codeMISALIGN a))
  else match s.endAt c (.glob (BitVec.ofNat 64 a)) 8 .readWrite with
    | (s, .error x) => (s, some x)
    | (s, .ok e) =>
      if s.engineStall c.id e.keys [] then (s, some .wait)
      else match s.takeBytes c.ctx (s.commandCore c) 8 e with
        | (s, .error x) => (s, some x)
        | (s, .ok bs) => s.giveBytes c e (leBytes 8 (min (leNat bs) w))

/-- RASTER_RECORD: the next committed triangle is dropped, or its candidates join the visibility buffer. -/
def execRasterRecord (seq i : Nat) (s : State) : Res :=
  .next (match s.nodeTurn seq i 3 with
    | none => s
    | some (g, n) => match g.inputs i with
      | [] => s
      | e :: _ =>
        let base := fieldAt n.config 8 8
        let die := n.die.getD (s.dieHolding g.ctx (BitVec.ofNat 64 base))
        let c := nodeCommand seq i g.ctx die []
        let p := n.taken
        if e.committed ≤ p then s
        else
          let s := s.settleDie seq i die
          match s.readAt c (BitVec.ofNat 64 (e.base + p * 48)) 48 with
          | (s', .error x) => State.nodeStop s s' seq i g.ctx x
          | (s', .ok bs) =>
            let px := n.fragments bs
            let r := px.foldl (fun (r : State × Option Stop) x => match r.2 with
              | some _ => r
              | none => r.1.atomicMin c x.1 x.2) (s', none)
            match r with
            | (s', some x) => State.nodeStop s s' seq i g.ctx x
            | (s', none) => match s'.writeAt c (BitVec.ofNat 64 (e.queue + queueDISP)) (leBytes 8 (p + 1)) with
              | (s', some x) => State.nodeStop s s' seq i g.ctx x
              | (s, none) => s.modNode seq i fun n => { n with started := true, taken := p + 1 })

/-! ### COMPOSE (R263, R306, R307) -/

/-- What a COMPOSE node sends to the member that composes leaves by the collective engine; the node is busy until it is acknowledged
(R263, R288, R306; log 61). -/
def State.composeSend (s : State) (c : Command) (ms : List Outgoing) : State :=
  if ms.isEmpty then s
  else (s.enqueue { c with id := s.nextCommand, eng := 4, phase := .started, last := true, outbox := ms }).collSend s.nextCommand

/-- COMPOSE_NODE: when its producers have finished, the partials of every member are joined, or go to the member that joins them (R263,
R306, R307). -/
def execComposeNode (seq i : Nat) (peers : List (Nat × PeerPart)) (s : State) : Res :=
  .next (match s.nodeTurn seq i 4 with
    | none => s
    | some (g, n) => match g.inputs i with
      | [] => s
      | e :: _ =>
        let grp := s.collGroup (fieldAt n.config 12 1)
        let nt := fieldAt n.config 8 4
        let rank := fieldAt n.config 14 2
        let c := nodeCommand seq i g.ctx (s.dieHolding g.ctx (longAt n.config 0)) []
        if n.started || !g.settled e || !(g.node? e.src).any (·.finished) then s
        else if 64 ≤ fieldAt n.config 12 1 || !grp.valid || grp.members ≤ rank then s.failNode seq i g.ctx codeADDRBAD 0
        else if !allPeers grp peers then s
        else
          let ps := peers.filter fun p => p.1 != grp.rank && p.1 < grp.members
          if !(ps.all fun p => !p.2.refused && p.2.form == 3 && p.2.dstr == rank) then s.failNode seq i g.ctx codeADDRBAD 0
          else match s.readAt c (BitVec.ofNat 64 e.base) (32 * e.committed) with
            | (s', .error x) => State.nodeStop s s' seq i g.ctx (x.onEgress (rank != grp.rank) e.base)
            | (s', .ok rb) => match s'.partialsOf c (rank != grp.rank) ((chunks 32 e.committed rb).map leNat) with
              | (s', .error x) => State.nodeStop s s' seq i g.ctx x
              | (s', .ok own) => match composeWrites (rank == grp.rank) (fieldAt n.config 0 8) nt (own ++ ps.flatMap fun p => peerPartials p.2) with
                | .refused => s'.failNode seq i g.ctx codeADDRBAD 0
                | .writes l _ =>
                  let part := rb ++ own.flatMap fun p => p.pixels.flatMap (leBytes 4)
                  match s'.addressed c grp (if rank = grp.rank then [] else [(rank, 0, part)]) with
                  | (s', .error x) => State.nodeStop s s' seq i g.ctx x
                  | (s', .ok ms) =>
                    match s'.nodeWrites c (l.map (fun w => (w.1.toNat, w.2)) ++ [(e.queue + queueDISP, leBytes 8 e.committed)]) with
                    | (s', some x) => State.nodeStop s s' seq i g.ctx x
                    | (s, none) => (s.modNode seq i fun n => { n with started := true, taken := e.committed }).composeSend c ms)

/-! ### Finishing (R248, R432) -/

/-- The grids of a node whose teams have not all ended. -/
def State.nodeBusy (s : State) (seq i : Nat) : Bool :=
  (s.grids.any fun x => x.origin == .node seq i && !x.done) || s.commands.any fun c => c.node == some (seq, i)

/-- A node that does not start because a producer has failed: every kind but a program node fed by a queue. -/
def Graph.spoiled (g : Graph) (i : Nat) (n : Node) : Bool :=
  !n.started && (g.inputs i).any fun e => (g.node? e.src).any (·.failed) && (n.kind != 0 || g.kindOf e.src == 2 || g.kindOf e.src == 3)

/-- A node has done all its work. -/
def State.nodeDone (s : State) (g : Graph) (i : Nat) (n : Node) : Bool :=
  let ins := g.inputs i
  !s.nodeBusy g.seq i && match n.kind with
    | 0 => match ins with
      | [] => n.started
      | e :: _ =>
        if g.kindOf e.src = 2 || g.kindOf e.src = 3 then n.started else g.settled e && n.taken == e.committed
    | 2 => n.started
    | 4 => n.started
    | 1 => n.cleared && ins.all fun e => g.settled e && n.taken == e.committed
    | _ => ins.all fun e => g.settled e && n.taken == e.committed

/-- NODE_FINISH: a node whose work is done finishes; one whose producer has failed before it started fails in turn. -/
def execNodeFinish (seq i : Nat) (s : State) : Res :=
  .next (match s.graph? seq with
    | none => s
    | some g => match g.node? i with
      | none => s
      | some n =>
        if n.finished || n.failed then s
        else if g.spoiled i n then s.modNode seq i fun n => { n with failed := true }
        else if s.nodeDone g i n then
          { s with grids := s.grids.filter fun (x : Grid) => x.origin != Origin.node seq i }.modNode seq i fun n => { n with finished := true }
        else s)

end Sys2Proof.Machine
end

