-- ==== Sys2Proof/Machine/Array.lean ====
section
/-! DEFINITION. What the array and the tile unit compute: the elements of an operand, the operations on a tile, and the
conversion epilogue (spec/06_number_formats.md R143 to R162; spec/08_matrix_instructions.md R208 to R232;
spec/09_distance_instructions.md R235 to R240). -/

namespace Sys2Proof.Machine

/-! ### Formats (R132, R145, R150) -/

/-- The floating format of a format number. -/
def fmtFloat (n : Nat) : FloatFmt :=
  match n with
  | 2 => fp16
  | 3 => bf16
  | 4 => e5m2
  | 5 => e4m3
  | 6 => e3m2
  | 7 => e2m3
  | 8 => e2m1
  | _ => fp32

def fmtWidth (n : Nat) : Nat :=
  if n = 1 then 32 else if n ≤ 3 then 16 else if n ≤ 5 then 8 else if n ≤ 7 then 6 else if n ≤ 9 then 4
  else if n = 10 then 8 else if n = 11 then 4 else 1

/-- A format whose tile words are INT32 (R159). -/
def fmtInt (n : Nat) : Bool := 10 ≤ n

/-- K of a format's class. -/
def fmtK (n : Nat) : Nat :=
  if n = 1 then 16 else if n ≤ 3 then 32 else if n ≤ 5 then 64 else if n ≤ 7 then 96 else if n ≤ 9 then 128
  else if n = 10 then 64 else if n = 11 then 128 else 512

/-- Row bytes RB (R208). -/
def rowBytes (n : Nat) : Nat := if n = 6 ∨ n = 7 then 72 else 64

/-- Element k of a row of bytes read as one number (R145). -/
def elemCode (n row k : Nat) : Nat := row / 2 ^ (fmtWidth n * k) % 2 ^ fmtWidth n

/-- An element of an integer format. -/
def elemInt (n code : Nat) : Int :=
  if n = 10 then toSigned 8 code else if n = 11 then toSigned 4 code else if code = 1 then 1 else -1

/-- An element unscaled. -/
def elemNum (n code : Nat) : Num :=
  if n = 9 then nq4Unscaled code else if fmtInt n then Num.ofInt (elemInt n code) else (fmtFloat n).decode code

/-- The formats of an operation, its scale mode and its E8M0 block size (R221, R222, R151). -/
structure Formats where
  a : Nat
  b : Nat
  scm : Nat := 0
  blk : Nat := 32
  deriving DecidableEq, Repr

/-- AFMT, BFMT, SCM and BLK of FMT. -/
def formatsOf (fmt : W32) : Formats :=
  { a := bits fmt.toNat 3 0, b := bits fmt.toNat 11 8, scm := bits fmt.toNat 17 16,
    blk := if bits fmt.toNat 19 18 = 2 then 64 else 32 }

/-- DT of MMA and DIST (R221). -/
def mmaFormats (dt : Nat) (fmt : W32) : Formats :=
  if dt = 15 then formatsOf fmt
  else
    let n := [1, 3, 2, 5, 4, 10, 7, 6, 8, 11, 12, 9].getD dt 1
    { a := n, b := n }

/-- DT of MMAQ (R222). -/
def mmaqFormats (dt : Nat) (fmt : W32) : Formats :=
  if dt = 15 then formatsOf fmt
  else
    let x := [(5, 5, 1), (4, 4, 1), (5, 4, 1), (8, 8, 1), (7, 7, 1), (6, 6, 1), (8, 9, 2), (9, 9, 2)].getD dt (5, 5, 1)
    { a := x.1, b := x.2.1, scm := x.2.2 }

/-- DT of DKACC (R239). -/
def dkaccFormat (dt : Nat) : Nat := [1, 3, 2, 5, 4, 10].getD dt 1
/-- DT of MMASM (R225). -/
def mmasmFormat (dt : Nat) : Nat := [3, 2, 5].getD dt 3

/-! ### Scales (R212) -/

/-- An operand takes NQ4 scales. -/
def Formats.nq4 (x : Formats) (n : Nat) : Bool := x.scm == 2 && n == 9
/-- Block size of an operand. -/
def Formats.block (x : Formats) (n : Nat) : Nat := if x.nq4 n then 64 else x.blk
/-- NB of an operand. -/
def Formats.blocks (x : Formats) (n : Nat) : Nat := fmtK n / x.block n
/-- Bytes of an operand's scale area. -/
def Formats.areaBytes (x : Formats) (n : Nat) : Nat :=
  if x.scm = 0 then 0 else 64 * x.blocks n + (if x.nq4 n then 256 else 0)

/-- Element k of row (or column) i of an operand with its scale. -/
def Formats.value (x : Formats) (n : Nat) (area : List Byte) (row i k : Nat) : Num :=
  let code := elemCode n row k
  if x.scm = 0 then elemNum n code
  else
    let s := ((area.drop (i * x.blocks n + k / x.block n)).headD 0).toNat
    if x.nq4 n then nq4Value code s (num32 (leNat ((area.drop (64 * x.blocks n + 4 * i)).take 4)))
    else Num.mul (elemNum n code) (e8m0 s)

/-! ### Tiles -/

/-- Word (i, j) of a tile. -/
def Tile.at (t : Tile) (i j : Nat) : W32 := nth (nth t.data i (Vector.replicate 64 0)) j 0

/-- A new word of a tile, the flags it raises and its count into OVF. -/
structure TileCell where
  w : W32
  flags : Nat := 0
  ovf : Nat := 0
  deriving DecidableEq, Repr

/-- A table of new words. -/
abbrev Cells := Vector (Vector (Option TileCell) 64) 64

def cellsOf (f : Nat → Nat → Option TileCell) : Cells := tab 64 fun i => tab 64 fun j => f i j

def cellList (c : Cells) : List TileCell := c.toList.flatMap fun r => r.toList.filterMap id

/-- The tile's overflow counter after so many counts; it stops at 2^32 - 1 (R162). -/
def countOvf (t : Tile) (n : Nat) : Tile := { t with ovf := BitVec.ofNat 32 (min (t.ovf.toNat + n) (2 ^ 32 - 1)) }

/-- A tile with its new words, its counter, and ECNT after a rounding in RSR (R156, R162); and the flags raised. -/
def Tile.write (t : Tile) (rsr : Bool) (c : Cells) : Tile × Nat :=
  let l := cellList c
  let word := fun (i j : Nat) => match nth (nth c i (Vector.replicate 64 none)) j none with
    | some x => x.w
    | none => t.at i j
  let t' := { t with data := tab 64 (fun i => tab 64 (word i)) }
  let t' := countOvf t' (l.foldl (fun n x => n + x.ovf) 0)
  (if rsr && !l.isEmpty then { t' with ecnt := t'.ecnt + 4096 } else t', l.foldl (fun n x => n ||| x.flags) 0)

/-- What an operation of the engine rounds with: the mode, and the random value of element (i, j) of a tile (R156). -/
structure Rounding where
  md : RMode
  seed : W64
  lin : Nat
  deriving DecidableEq, Repr

def Rounding.rand (x : Rounding) (tile : Nat) (t : Tile) (i j : Nat) : Nat :=
  if x.md == .rsr then randomOf x.seed x.lin (0x8000 ||| tile * 256) (t.ecnt.toNat + 64 * i + j) else 0

/-- OF and IV of a rounded element, IV where NaN arose from no NaN input (R161). -/
def engineFlags (nanIn : Bool) (r : Rounded) : Nat :=
  b2n r.of * flagOF + b2n ((r.iv || (fp32.decode r.code).isNan) && !nanIn) * flagIV

/-- A word rounded to FP32 (R158). -/
def roundCell (x : Rounding) (r : Nat) (nanIn : Bool) (v : Num) : TileCell :=
  let y := fp32.round x.md false r v
  { w := BitVec.ofNat 32 y.code, flags := engineFlags nanIn y }

/-- A word of an exact integer sum (R159). -/
def intCell (sat : Bool) (v : Int) : TileCell :=
  let c := clamp (-(2 ^ 31 : Nat)) ((2 ^ 31 : Nat) - 1) v
  if sat && c != v then { w := BitVec.ofInt 32 c, flags := flagOF, ovf := 1 } else { w := BitVec.ofInt 32 v }

/-! ### Operands (R209 to R211) -/

/-- A row of words as one number. -/
def rowNat (ws : List W32) : Nat := ws.foldr (fun w acc => w.toNat + 2 ^ 32 * acc) 0

/-- Column j of the B bytes as one number. -/
def columnNat (n : Nat) (bs : List Byte) (j : Nat) : Nat := leNat ((bs.drop (j * rowBytes n)).take (rowBytes n))

/-- Values of an operand, by row or column. -/
def Formats.values (x : Formats) (n : Nat) (area : List Byte) (rows : List Nat) : List (List Num) :=
  (rows.zip (List.range rows.length)).map fun r => (List.range (fmtK n)).map fun k => x.value n area r.1 r.2 k

/-- Integer elements of an operand. -/
def intValues (n : Nat) (rows : List Nat) : List (List Int) :=
  rows.map fun r => (List.range (fmtK n)).map fun k => elemInt n (elemCode n r k)

/-- What an operation adds into element (i, j): a term for each k. -/
inductive Metric where
  | product (neg : Bool)
  | l1 | l2sq | negdot | hamming
  deriving DecidableEq, Repr

/-- The exact difference (R236). -/
def numSub (a b : Num) : Num := sumOf .rne [a, b.negate]

/-- A floating term. -/
def Metric.term (m : Metric) (a b : Num) : Num :=
  match m with
  | .product neg => if neg then (a.mul b).negate else a.mul b
  | .l1 => (numSub a b).abs
  | .l2sq => let d := numSub a b; d.mul d
  | .negdot => (a.mul b).negate
  | .hamming => .fin false 0 0

/-- An integer term. -/
def Metric.intTerm (m : Metric) (a b : Int) : Int :=
  match m with
  | .product neg => if neg then -(a * b) else a * b
  | .l1 => (a - b).natAbs
  | .l2sq => (a - b) * (a - b)
  | .negdot => -(a * b)
  | .hamming => if a = b then 0 else 1

/-- MMA, MMAQ and DIST on one tile (R223, R236). -/
def accumulate (x : Formats) (m : Metric) (rd : Rounding) (sat : Bool) (tile : Nat) (live : Nat → Bool)
    (rows cols : List Nat) (aArea bArea : List Byte) (t : Tile) : Tile × Nat :=
  if fmtInt x.a then
    let a := intValues x.a rows
    let b := intValues x.b cols
    t.write false (cellsOf fun i j =>
      if !live i then none
      else some (intCell sat (((a.getD i []).zip (b.getD j [])).foldl (fun acc p => acc + m.intTerm p.1 p.2) (t.at i j).toInt)))
  else
    let a := x.values x.a aArea rows
    let b := x.values x.b bArea cols
    t.write (rd.md == .rsr) (cellsOf fun i j =>
      if !live i then none
      else
        let u := a.getD i []
        let v := b.getD j []
        let acc := num32 (t.at i j).toNat
        let nan := acc.isNan || u.any Num.isNan || v.any Num.isNan
        some (roundCell rd (rd.rand tile t i j) nan (sumOf rd.md (acc :: (u.zip v).map fun p => m.term p.1 p.2))))

/-! ### MMASM (R225) -/

/-- sc × Σ, an exact zero signed as R158 signs it. -/
def scaledSum (md : RMode) (sc : Num) (ps : List Num) : Num :=
  let x := sc.mul (sumOf .rne ps)
  if x.isZero then sumOf md (ps.map sc.mul) else x

/-- One row of the softmax step: the scores, and L, O and M where the row has seen a score. -/
structure SoftRow where
  scores : List TileCell
  l : Option TileCell
  o : List TileCell
  m : W32
  deriving DecidableEq, Repr

/-- Row i of MMASM. -/
def softRow (rd : Rounding) (sc : Num) (dst scratch : Nat) (o p : Tile) (q : List Num) (keys vals : List (List Num)) (i : Nat) :
    SoftRow :=
  let scores := (List.range 64).map fun j =>
    let k := keys.getD j []
    let ps := (q.zip k).map fun x => x.1.mul x.2
    roundCell rd (rd.rand scratch p i j) (sc.isNan || q.any Num.isNan || k.any Num.isNan) (scaledSum rd.md sc ps)
  let m0 := (nth o.m i 0).toNat
  let mn := scores.foldl (fun acc x => minMax fp32 0 true acc x.w.toNat) m0
  let top := num32 mn
  if top.isNan || top == .inf true then { scores := scores, l := none, o := [], m := nth o.m i 0 }
  else
    let al := num32 (ex2 (rne32 (numSub (num32 m0) top)))
    -- ∞ − ∞ of inputs that are no NaN (R161)
    let made := top == .inf false && (num32 m0 == .inf false || scores.any fun x => num32 x.w.toNat == .inf false)
    let ps := scores.map fun x => num32 (ex2 (rne32 (numSub (num32 x.w.toNat) top)))
    let cell := fun (j : Nat) (old : Num) (xs : List Num) (nan : Bool) =>
      roundCell rd (rd.rand dst o i j) (old.isNan || al.isNan || nan) (sumOf rd.md (old.mul al :: xs))
    let pn := ps.any Num.isNan
    let sum := cell 64 (num32 (nth o.l i 0).toNat) ps pn
    { scores := scores, l := some { sum with flags := sum.flags ||| b2n made * flagIV },
      o := (List.range 64).map fun c =>
        let v := (List.range 64).map fun j => (vals.getD c []).getD j (.fin false 0 0)
        cell c (num32 (o.at i c).toNat) ((ps.zip v).map fun x => x.1.mul x.2) (pn || v.any Num.isNan)
      m := BitVec.ofNat 32 mn }

/-- MMASM on the output tile and the scratch tile, two tiles of one core. -/
def softmaxStep (fmt : Nat) (rd : Rounding) (sc : Num) (dst scratch : Nat) (live : Nat → Bool) (rows keys vals : List Nat)
    (o p : Tile) : Tile × Tile × Nat :=
  let x : Formats := { a := fmt, b := fmt }
  let q := x.values fmt [] rows
  let ks := x.values fmt [] keys
  let es := fmtWidth fmt
  let vs := vals.map fun r => (List.range 64).map fun k => elemNum fmt (r / 2 ^ (es * k) % 2 ^ es)
  let out : Vector (Option SoftRow) 64 := tab 64 fun i => if live i then some (softRow rd sc dst scratch o p (q.getD i []) ks vs i) else none
  let row := fun (i : Nat) => nth out i none
  let rsr := rd.md == .rsr
  let p' := p.write rsr (cellsOf fun i j => (row i).bind fun r => r.scores[j]?)
  let o' := o.write rsr (cellsOf fun i j => (row i).bind fun r => r.o[j]?)
  let side := { o'.1 with
    m := tab 64 fun i => match row i with
      | some r => r.m
      | none => nth o.m i 0
    l := tab 64 fun i => match (row i).bind (·.l) with
      | some c => c.w
      | none => nth o.l i 0 }
  let lf := (List.range 64).foldl (fun n i => match (row i).bind (·.l) with
    | some c => n ||| c.flags
    | none => n) 0
  (side, p'.1, p'.2 ||| o'.2 ||| lf)

/-! ### The tile unit (R226 to R232) -/

/-- TZERO by SUB. -/
def Tile.zero (t : Tile) (sub : Nat) : Tile :=
  let data := Vector.replicate 64 (Vector.replicate 64 (0 : W32))
  let m := Vector.replicate 64 0xFF800000#32
  let l := Vector.replicate 64 (0 : W32)
  match sub with
  | 0 => { t with data := data, m := m, l := l, ovf := 0 }
  | 1 => { t with data := data }
  | _ => { t with m := m, l := l }

/-- Element bytes of TLD and TST (R227, R228). -/
def tileElemBytes (dt : Nat) : Nat := if dt = 0 then 4 else if dt ≤ 2 then 2 else 1

/-- A word that TLD forms from an element. -/
def tldWord (dt x : Nat) : W32 :=
  match dt with
  | 0 => BitVec.ofNat 32 x
  | 1 => BitVec.ofNat 32 (rne32 (fp16.decode x))
  | _ => BitVec.ofNat 32 (rne32 (bf16.decode x))

/-- TLD: the rows of the tile, 64 elements each, one after the other. -/
def Tile.load (t : Tile) (dt : Nat) (bs : List Byte) : Tile :=
  let es := tileElemBytes dt
  let row := fun (i : Nat) => (bs.drop (i * 64 * es)).take (64 * es)
  { t with data := tab 64 (fun i => tab 64 (fun j => tldWord dt (leNat (((row i).drop (j * es)).take es)))) }

/-- An element that TST stores: its code, flags and count into OVF (R162, R228). -/
def tstElem (dt : Nat) (md : RMode) (sat : Bool) (r : Nat) (w : W32) : Nat × Nat × Nat :=
  match dt with
  | 0 => (w.toNat, 0, 0)
  | 5 =>
    let c := clamp (-128) 127 w.toInt
    (wrap 8 c, if c != w.toInt then flagIV else 0, if c != w.toInt then 1 else 0)
  | _ =>
    let F := if dt = 1 then fp16 else if dt = 2 then bf16 else if dt = 3 then e4m3 else e5m2
    let y := F.round md (sat || dt == 3) r (num32 w.toNat)
    (y.code, engineFlags true y, if y.of && !(F.decode y.code).isInf then 1 else 0)

/-- TST: the bytes of the 64 rows, the tile with its counters, the flags. `md` is the epilogue's mode. -/
def Tile.store (t : Tile) (dt : Nat) (rd : Rounding) (sat : Bool) (tile : Nat) : List Byte × Tile × Nat :=
  let es := tileElemBytes dt
  let cells := (List.range 64).flatMap fun i => (List.range 64).map fun j => tstElem dt rd.md sat (rd.rand tile t i j) (t.at i j)
  let t' := countOvf t (cells.foldl (fun n x => n + x.2.2) 0)
  (cells.flatMap fun x => leBytes es x.1,
   if rd.md == .rsr && dt != 0 && dt != 5 then { t' with ecnt := t'.ecnt + 4096 } else t',
   cells.foldl (fun n x => n ||| x.2.1) 0)

/-- Strip s of a tile in lane l, word w (R229). -/
def stripAt (strip l w : Nat) : Nat × Nat := (16 * strip + l / 2, 32 * (l % 2) + w)

/-- TMOV.FROMV: the words of contributors' lanes enter the tile. -/
def Tile.fromV (t : Tile) (strip : Nat) (act : Mask) (regs : List (Lanes W32)) : Tile :=
  let word := fun (i j : Nat) =>
    let l := 2 * (i % 16) + j / 32
    if i / 16 = strip && act.getLsbD l then nth (regs.getD (j % 32) (Vector.replicate 32 0)) l 0 else t.at i j
  { t with data := tab 64 (fun i => tab 64 (word i)) }

/-- TSIDE.WR: contributors' lanes of four registers enter M and L. -/
def Tile.setSide (t : Tile) (act : Mask) (regs : List (Lanes W32)) : Tile :=
  let pick := fun (lo hi : Nat) (old : Vector W32 64) => (tab 64 fun i =>
    let l := i % 32
    if act.getLsbD l then nth (regs.getD (if i < 32 then lo else hi) (Vector.replicate 32 0)) l 0 else nth old i 0 : Vector W32 64)
  { t with m := pick 0 1 t.m, l := pick 2 3 t.l }

/-- TSCAL by a factor for each row; none leaves the row (R231). -/
def Tile.scale (t : Tile) (rd : Rounding) (tile : Nat) (factor : Nat → Option W32) : Tile × Nat :=
  t.write (rd.md == .rsr) (cellsOf fun i j => (factor i).map fun w =>
    let x := num32 (t.at i j).toNat
    let y := num32 w.toNat
    roundCell rd (rd.rand tile t i j) (x.isNan || y.isNan) (x.mul y))

/-- The quotient of a word as a cell (R187). -/
def divCell (rd : Rounding) (r : Nat) (x y : Num) : TileCell :=
  let q := divideFlt rd.md false r x y
  { w := BitVec.ofNat 32 q.code, flags := engineFlags (x.isNan || y.isNan) q }

/-- TSCAL.DIVL. -/
def Tile.divL (t : Tile) (rd : Rounding) (tile : Nat) : Tile × Nat :=
  let rounds := t.l.toList.any fun n => !(num32 n.toNat).isZero
  t.write (rd.md == .rsr && rounds) (cellsOf fun i j =>
    let n := num32 (nth t.l i 0).toNat
    some (if n.isZero then { w := 0 } else divCell rd (rd.rand tile t i j) (num32 (t.at i j).toNat) n))

/-- TACC (R232). -/
def Tile.accumulate (t a : Tile) (rd : Rounding) (tile dt : Nat) (sat : Bool) : Tile × Nat :=
  if dt = 0 then
    t.write (rd.md == .rsr) (cellsOf fun i j =>
      let x := num32 (t.at i j).toNat
      let y := num32 (a.at i j).toNat
      some (roundCell rd (rd.rand tile t i j) (x.isNan || y.isNan) (sumOf rd.md [x, y])))
  else t.write false (cellsOf fun i j => some (intCell sat ((t.at i j).toInt + (a.at i j).toInt)))

/-! ### Distance (R237 to R240) -/

/-- d is strictly less than the best, or equal. -/
def distCmp (s32 : Bool) (d b : W32) : Option Ordering :=
  if s32 then some (if d.toInt < b.toInt then .lt else if d.toInt = b.toInt then .eq else .gt)
  else (num32 d.toNat).cmp (num32 b.toNat)

def distNan (s32 : Bool) (d : W32) : Bool := !s32 && (num32 d.toNat).isNan

/-- Row i drained through the comparator chain: the running best. -/
def drainRow (t : Tile) (s32 init hi : Bool) (n o i : Nat) : Option (W32 × Nat) :=
  let m := nth t.m i 0
  let l := (nth t.l i 0).toNat
  let start := if init || l == 0xFFFF || distNan s32 m then none else some (m, l % 65536)
  (List.range n).foldl (fun (best : Option (W32 × Nat)) j =>
    let d := t.at i j
    let x := o + j
    if distNan s32 d then best
    else match best with
      | none => some (d, x)
      | some (bd, bx) =>
        match distCmp s32 d bd with
        | some .lt => some (d, x)
        | some .eq => if (if hi then decide (bx < x) else decide (x < bx)) then some (d, x) else best
        | _ => best) start

/-- DARGM. -/
def Tile.drain (t : Tile) (s32 init clr hi : Bool) (n o : Nat) : Tile :=
  let out : Vector (Option (W32 × Nat)) 64 := tab 64 fun i => drainRow t s32 init hi n o i
  let t' := { t with
    m := tab 64 fun i => match nth out i none with
      | some x => x.1
      | none => 0x7FC00000#32
    l := tab 64 fun i => match nth out i none with
      | some x => BitVec.ofNat 32 x.2
      | none => 0x0000FFFF#32 }
  if clr then { t' with data := Vector.replicate 64 (Vector.replicate 64 0) } else t'

/-- DKACC: rows of A into the rows of the sum tile that the assignment tile names. -/
def Tile.addRows (t b : Tile) (fmt : Nat) (rd : Rounding) (sat : Bool) (tile base count : Nat) (live : Nat → Bool)
    (rows : List Nat) : Tile × Nat :=
  let member := fun (c i : Nat) =>
    let l := (nth b.l i 0).toNat
    decide (i < count) && live i && decide (l < 65536) && l != 0xFFFF && decide (base ≤ l) && l - base == c
  let sets : Vector (List Nat) 64 := tab 64 fun c => (List.range 64).filter (member c)
  let x : Formats := { a := fmt, b := fmt }
  let nums := if fmtInt fmt then [] else x.values fmt [] rows
  let ints := if fmtInt fmt then intValues fmt rows else []
  let y := t.write (rd.md == .rsr && !fmtInt fmt) (cellsOf fun c k =>
    let q := nth sets c []
    if q.isEmpty || fmtK fmt ≤ k then none
    else if fmtInt fmt then some (intCell sat (q.foldl (fun acc i => acc + (ints.getD i []).getD k 0) (t.at c k).toInt))
    else
      let xs := q.map fun i => (nums.getD i []).getD k (.fin false 0 0)
      let acc := num32 (t.at c k).toNat
      some (roundCell rd (rd.rand tile t c k) (acc.isNan || xs.any Num.isNan) (sumOf rd.md (acc :: xs))))
  ({ y.1 with l := tab 64 fun c =>
      let q := nth sets c []
      if q.isEmpty then nth t.l c 0
      else BitVec.ofNat 32 (rne32 (sumOf .rne [num32 (nth t.l c 0).toNat, Num.ofInt q.length])) }, y.2)

/-- DCNT. -/
def Tile.means (t : Tile) (rd : Rounding) (tile : Nat) (s32 : Bool) : Tile × Nat :=
  t.write (rd.md == .rsr) (cellsOf fun c k =>
    let n := num32 (nth t.l c 0).toNat
    if n.isZero || n.isNan then none
    else some (divCell rd (rd.rand tile t c k) (if s32 then Num.ofInt (t.at c k).toInt else num32 (t.at c k).toNat) n))

end Sys2Proof.Machine
end

