-- ==== Sys2Proof/Machine/Matrix.lean ====
section
/-! DEFINITION. The matrix engine (spec/08_matrix_instructions.md R205 to R233, R429; spec/09_distance_instructions.md R234
to R241): the checks and stalls at issue, acceptance, leases, and the start and completion of accepted instructions. -/

namespace Sys2Proof.Machine

/-! ### Shapes of the instructions of the class -/

/-- An instruction that occupies the array and its count against the lease (R215, R241); none for the tile unit. -/
def leaseCost (i : Instr) : Option Nat :=
  match i with
  | .mma _ => some 1
  | .mmaq _ => some 1
  | .mmasm _ => some 2
  | .dist _ => some 1
  | .dargm _ => some 1
  | .dkacc _ => some 1
  | _ => none

/-- Formats of an array instruction under FMT. -/
def arrayFormats (i : Instr) (f : Fields) (fmt : W32) : Formats :=
  match i with
  | .mma _ => mmaFormats (dtN f) fmt
  | .mmaq _ => mmaqFormats (dtN f) fmt
  | .mmasm _ => { a := mmasmFormat (dtN f), b := mmasmFormat (dtN f) }
  | .dist _ => mmaFormats (dtN f) fmt
  | .dkacc _ => { a := dkaccFormat (dtN f), b := dkaccFormat (dtN f) }
  | _ => { a := 1, b := 1 }

/-- An instruction that reads an A block. -/
def readsA (i : Instr) : Bool :=
  match i with
  | .mma _ => true
  | .mmaq _ => true
  | .mmasm _ => true
  | .dist _ => true
  | .dkacc _ => true
  | _ => false

/-- Tile index of an operand. -/
def tileOf (o : Opnd) : Nat :=
  match o with
  | .t n => n.val
  | _ => 0

/-- The mode that an instruction of the class rounds in; a conversion epilogue with RND 000 follows FMT.SRE (R156,
R158). -/
def engineMode (i : Instr) (f : Fields) (fmt mode : W32) : RMode :=
  match i with
  | .tst _ => if f.rnd = 0 && fmt.getLsbD 20 then .rsr else roundMode f mode
  | _ => roundMode f mode

/-! ### The A block (R209, R210, R213) -/

/-- The member groups of the leader's gang in member order. -/
def gangMembers (t : Team) (g : Group) : List Group :=
  match g.gang with
  | none => [g]
  | some (k, _, m) => (List.range m).filterMap fun j => t.groups.find? fun h => match h.gang with
    | some (k', j', _) => k' == k && j' == j
    | none => false

/-- Registers of an A block: its kind, first index and length in registers. -/
def blockSpan (p : Party) (fmt : Nat) : Nat × Nat × Nat :=
  let bytes := 64 * rowBytes fmt
  match p.lead.f.a with
  | .v n _ => (0, n.val, bytes / 128)
  | .x n => (3, n.val, ceilDiv bytes (128 * (gangMembers p.lead.t p.lead.g).length))
  | _ => (0, 0, 0)

/-- The permutation of the A operand (R18). -/
def permOf (o : Opnd) : Perm :=
  match o with
  | .v _ q => q
  | _ => .id

/-- Registers of a V block through their permutation (R18). -/
def Group.vBlock (g : Group) (o : Opnd) (n : Nat) : List (Lanes W32) :=
  match o with
  | .v k q => (List.range n).map fun j => ((g.vreg (k.val + j)).permute q).lanes
  | _ => []

/-- The registers of the A block as read: for an X block, each register's slices in member order. -/
def blockRegs (p : Party) (fmt : Nat) : List (Lanes W32) :=
  let sp := blockSpan p fmt
  match p.lead.f.a with
  | .v _ _ => p.lead.g.vBlock p.lead.f.a sp.2.2
  | .x n => (List.range sp.2.2).flatMap fun j =>
      (gangMembers p.lead.t p.lead.g).map fun g => nth g.x (n.val + j) (Vector.replicate 32 0)
  | _ => []

/-- Word w of row i of a block. -/
def blockWord (vBlock : Bool) (perRow : Nat) (regs : List (Lanes W32)) (i w : Nat) : W32 :=
  let none_ : Lanes W32 := Vector.replicate 32 0
  if vBlock then nth (regs.getD ((i % 2) * perRow + w) none_) (i / 2) 0
  else
    let n := i * perRow + w
    nth (regs.getD (n / 32) none_) (n % 32) 0

/-- A latch holds the block that an instruction names: the same kind, first index, length and A format, and the same
permutation, as its values are those that the registers would give (R213; log 54). -/
def Latch.serves (l : Latch) (p : Party) (fmt : Nat) : Bool :=
  let sp := blockSpan p fmt
  l.kind == sp.1 && l.first == sp.2.1 && l.len == sp.2.2 && l.fmt == fmt && l.perm == permOf p.lead.f.a

/-- The words of A by row, from the latch where it matches. -/
def blockRows (p : Party) (fmt : Nat) : List (List W32) :=
  let sp := blockSpan p fmt
  let regs := match p.lead.g.latch with
    | some l => if l.serves p fmt then l.words else blockRegs p fmt
    | none => blockRegs p fmt
  let w := rowBytes fmt / 4
  (List.range 64).map fun i => (List.range w).map fun j => blockWord (sp.1 == 0) w regs i j

/-- The leader's latch after an instruction of the class: filled with REUSE, released without (R22, R213). -/
def nextLatch (p : Party) (fmt : Nat) : Option Latch :=
  let sp := blockSpan p fmt
  if p.lead.f.reuse then
    some { kind := sp.1, first := sp.2.1, perm := permOf p.lead.f.a, len := sp.2.2, fmt := fmt, words := blockRegs p fmt }
  else none

/-- The latches of the members after an instruction of the class. -/
def State.passLatches (s : State) (p : Party) (fmt : Nat) : State :=
  p.members.foldl (fun s m => s.modGroup m.who.team m.who.group fun g =>
    { g with latch := if m.who == p.lead.who then nextLatch p fmt else none }) s

/-- The rows that are live: all under GANG scope, those of contributors otherwise (R209, R210). -/
def liveRows (p : Party) : Vector Bool 64 :=
  tab 64 fun i => p.lead.f.scope == .gang || p.lead.act.getLsbD (i / 2)

/-! ### Checks at issue (R211, R212, R225, R227, R429) -/

/-- What the checks find. -/
inductive Check where
  | ok (runs : List Run)
  | fault (code aux addr : Nat)
  | xlate (va : Nat) (write : Bool)
  | check (code key : Nat)
  | busy (r : Resource)
  deriving DecidableEq, Repr

/-- A shared region of a team, from the first or the second core's side. -/
def sharedRange (t : Team) (second : Bool) (off n : Nat) : Check :=
  match (List.range n).mapM fun i => sharedKey t second (off + i) with
  | some ks => .ok (runsOf (ks.map fun k => { key := k, home := 1, window := none }))
  | none => .fault codeADDRBAD 0 off

/-- A global region. -/
def globalRange (s : State) (core ctx : Nat) (a : W64) (n : Nat) (acc : Access) : State × Check :=
  match s.reach core ctx a n acc with
  | (s, .error (.prog code aux)) => (s, .fault code aux a.toNat)
  | (s, .error (.xlate va)) => (s, .xlate va (acc == .write))
  | (s, .error (.check code key)) => (s, .check code key)
  | (s, .error (.busy r)) => (s, .busy r)
  | (s, .error .fenced) => (s, .fault codeTILEFENCED 0 a.toNat)
  | (s, .ok l) => (s, .ok (runsOf l))

/-- The first breach of several checks, or all their runs. -/
def Check.all : List Check → Check
  | [] => .ok []
  | .ok a :: rest => match Check.all rest with
    | .ok b => .ok (a ++ b)
    | x => x
  | x :: _ => x

/-- A shared region at a required alignment. -/
def alignedShared (t : Team) (second : Bool) (al off n : Nat) : Check :=
  if off % al != 0 then .fault codeADDRBAD 0 off else sharedRange t second off n

/-- The group issues on the second core of its team. -/
def Party.second (p : Party) : Bool := onSecond p.lead.t p.lead.g

/-- The B operand and the scale areas in the order in which they are read: B, the follower's B, A's area, B's area, the
follower's B area (R211, R212, R214). -/
def operandSpans (p : Party) (x : Formats) (s : State) : State × Check :=
  let f := p.lead.f
  let t := p.lead.t
  let twin := isTwin p.lead.i f
  let n := 64 * rowBytes x.b
  let a := p.lead.g.scalar .unsigned f.b
  let side := if twin then false else p.second
  let shared := fun (sec : Bool) (al off len : Nat) => alignedShared t sec al off len
  let b : State × Check :=
    if bit (subN f) (match p.lead.i with
      | .dist _ => 2
      | _ => 0) then
      (if a.toNat % 128 != 0 then (s, .fault codeADDRBAD 0 a.toNat) else globalRange s p.lead.g.core t.ctx a n .read)
    else (s, shared side 128 (lowWord a).toNat n)
  let b2 := if twin then [shared true 128 (lowWord a).toNat n] else []
  let sc := p.lead.g.scalar .unsigned f.c
  let areas :=
    if x.scm = 0 then []
    else [shared side 4 (lowWord sc).toNat (x.areaBytes x.a), shared side 4 (highWord sc).toNat (x.areaBytes x.b)] ++
      (if twin then [shared true 4 (highWord sc).toNat (x.areaBytes x.b)] else [])
  (b.1, Check.all ([b.2] ++ b2 ++ areas))

/-- The keys and values of MMASM and its scratch tile (R225). -/
def softmaxSpans (p : Party) : Check :=
  let fmt := mmasmFormat (dtN p.lead.f)
  let b := p.lead.g.scalar .unsigned p.lead.f.b
  let scratch := bits (p.lead.g.scalar .unsigned p.lead.f.c).toNat 35 32
  let es := fmtWidth fmt / 8
  if p.lead.t.launch.tiles ≤ scratch || scratch = tileOf p.lead.f.d then .fault codeADDRBAD 0 0
  else Check.all [alignedShared p.lead.t p.second 128 (lowWord b).toNat 4096,
    alignedShared p.lead.t p.second 128 (highWord b).toNat (64 * 64 * es)]

/-- The rows of TLD and TST, and the word that TST.CNT adds (R227, R228). -/
def tileSpans (p : Party) (s : State) (acc : Access) (cnt : Bool) : State × Check :=
  let f := p.lead.f
  let es := tileElemBytes (dtN f)
  let a := p.lead.g.scalar .unsigned f.a
  let pitch := match f.b with
    | .special _ => 64 * es
    | o => (p.lead.g.scalar .unsigned o).toNat
  let glob := bit (subN f) 0
  let base := if glob then a.toNat else (lowWord a).toNat
  if base % 16 != 0 || pitch % 16 != 0 || pitch < 64 * es then (s, .fault codeADDRBAD 0 base)
  else
    let rows := (List.range 64).map (fun i => (i * pitch, 64 * es)) ++ (if cnt then [(63 * pitch + 64 * es, 4)] else [])
    rows.foldl (fun (r : State × Check) x => match r.2 with
      | .ok l =>
        let y := if glob then globalRange r.1 p.lead.g.core p.lead.t.ctx (a + BitVec.ofNat 64 x.1) x.2 acc
          else (r.1, sharedRange p.lead.t p.second (base + x.1) x.2)
        (y.1, match y.2 with
          | .ok m => .ok (l ++ m)
          | z => z)
      | _ => r) (s, .ok [])

/-- n and o of DARGM (R238). -/
def drainArgs (c : Ctx) : Nat × Nat :=
  ((lowWord (c.g.scalar .unsigned c.f.a)).toNat, (lowWord (c.g.scalar .unsigned c.f.b)).toNat)

/-- The memory of an instruction, checked. -/
def memoryCheck (p : Party) (x : Formats) (s : State) : State × Check :=
  match p.lead.i with
  | .mma _ => operandSpans p x s
  | .mmaq _ => operandSpans p x s
  | .dist _ => operandSpans p x s
  | .mmasm _ => (s, softmaxSpans p)
  | .tld _ => tileSpans p s .read false
  | .tst _ => tileSpans p s .write (bit (subN p.lead.f) 1)
  | .dargm _ =>
    let d := drainArgs p.lead
    (s, if d.1 = 0 || 64 < d.1 || 0xFFFE < d.2 + d.1 - 1 then .fault codeADDRBAD 0 0 else .ok [])
  | _ => (s, .ok [])

/-- The checks that depend on FMT: true where they pass (R429; log 15). -/
def fmtCheck (p : Party) (x : Formats) : Bool :=
  let f := p.lead.f
  let sp := blockSpan p x.a
  let fits := if sp.1 = 0 then decide (sp.2.1 + sp.2.2 ≤ 256) else decide (sp.2.1 + sp.2.2 ≤ 32)
  if dtN f != 15 then true
  else match p.lead.i with
    | .mma _ => x.scm == 0 && fits && (if fmtInt x.a then f.rnd == 0 else !f.sat)
    | .mmaq _ => x.scm != 0 && fits
    | .dist _ => x.scm == 0 && fits && ((subN f % 4 == 3) == (x.a == 12)) && (if fmtInt x.a then f.rnd == 0 else !f.sat)
    | _ => true

/-! ### Leases (R215) -/

/-- A request for the array: granted at once where nobody holds it or waits, and queued otherwise. -/
def State.askLease (s : State) (core : Nat) (t : Team) : State :=
  let c := s.core core
  if s.holdsLease core t then s
  else if c.lease.holder.isNone && c.lease.waiting.isEmpty then
    s.setCore core { c with lease := { c.lease with holder := some t.id, left := t.launch.lease, grace := none } }
  else if c.lease.waiting.contains t.id || (c.lease.holder == some t.id && c.lease.grace.isNone) then s
  else s.setCore core { c with lease := { c.lease with waiting := c.lease.waiting ++ [t.id] } }

/-- A twin team that asks for both cores while it holds one gives that one up at once where another twin team waits for it,
as its own request, which carries one time for both, is the later one: so that no two twin teams hold one core each (R215;
log 55). -/
def State.yieldTwin (s : State) (core : Nat) (t : Team) : State :=
  let c := s.core core
  let rival := c.lease.waiting.any fun w => w != t.id && (s.team? w).any fun u => u.launch.twin
  if c.lease.holder == some t.id && rival then
    s.setCore core { c with lease := { c.lease with
      grace := some 65536
      waiting := if c.lease.waiting.contains t.id then c.lease.waiting else c.lease.waiting ++ [t.id] } }
  else s

/-- A request for every core that an operation needs. -/
def State.askLeases (s : State) (cores : List Nat) (t : Team) : State :=
  let s := cores.foldl (fun (s : State) k => s.askLease k t) s
  if cores.length ≤ 1 || cores.all (fun k => s.holdsLease k t) then s
  else cores.foldl (fun (s : State) k => s.yieldTwin k t) s

/-- An accepted operation counts against the lease. -/
def State.countLease (s : State) (core cost : Nat) : State :=
  let c := s.core core
  s.setCore core { c with lease := { c.lease with left := c.lease.left - cost, grace := c.lease.grace.map (· + cost) } }

/-! ### Acceptance (R213, R216 to R218) -/

/-- Tiles that an instruction reads or writes. -/
def opTiles (i : Instr) (f : Fields) (args : List W64) : List Nat :=
  match i with
  | .mmasm _ => [tileOf f.d, bits ((args.getD 1 0).toNat) 35 32]
  | .tst _ => [tileOf f.c]
  | .tmovTov _ => [tileOf f.a]
  | .tmovTt _ => [tileOf f.d, tileOf f.a]
  | .tsideRd _ => [tileOf f.a]
  | .tacc _ => [tileOf f.d, tileOf f.a]
  | .dkacc _ => [tileOf f.d, tileOf f.b]
  | _ => [tileOf f.d]

/-- Scalar arguments captured at issue. -/
def opArgs (c : Ctx) (i : Instr) : List W64 :=
  let sc := fun (o : Opnd) => c.g.scalar .unsigned o
  match i with
  | .mmasm _ => [sc c.f.b, sc c.f.c]
  | .dargm _ => [sc c.f.a, sc c.f.b]
  | .dkacc _ => [sc c.f.c]
  | .tscalS _ => [sc c.f.a]
  | _ => []

/-- Registers captured at issue by the tile unit: a strip, four side registers, a pair of factors. -/
def opRegs (c : Ctx) (i : Instr) : List (List W32) :=
  (c.g.vBlock c.f.a (match i with
    | .tmovFromv _ => 32
    | .tsideWr _ => 4
    | .tscalRow _ => 2
    | _ => 0)).map Vector.toList

/-- The accepted instruction. -/
def Party.op (p : Party) (x : Formats) (runs : List Run) : MatrixOp :=
  let c := p.lead
  { team := c.who.team, members := p.members.map fun m => (m.who.group, m.who.split), leader := c.who.group, i := c.i,
    mode := c.sp.mode, fmt := c.sp.fmt, seed := nth c.g.seeds (modeSSEL c.sp.mode) 0, contrib := c.act, live := liveRows p,
    a := if readsA c.i then blockRows p x.a else opRegs c c.i, args := opArgs c c.i, tiles := opTiles c.i c.f (opArgs c c.i),
    reads := runs, writes := destSpans (groupEnv c.t c.g) c.i c.f, bytes := [], running := false,
    second := !isTwin c.i c.f && p.second, shadow := false }

/-- The standing of a twin operation in the second core's queue (R214). -/
def MatrixOp.follower (m : MatrixOp) : MatrixOp := { m with reads := [], writes := [], second := true, shadow := true }

/-- An instruction that reads or writes memory after its acceptance. -/
def usesMemory (i : Instr) : Bool :=
  match i with
  | .mma _ => true
  | .mmaq _ => true
  | .mmasm _ => true
  | .dist _ => true
  | .tld _ => true
  | .tst _ => true
  | _ => false

/-- Registers that the tag of the destination becomes general for (R126, R229, R230). -/
def tovRegs (i : Instr) : Nat :=
  match i with
  | .tmovTov _ => 32
  | .tsideRd _ => 4
  | _ => 0

/-- Cores in whose queues an instruction stands: its group's, or both of a twin's (R214, R216). -/
def Party.cores (p : Party) : List Nat :=
  if isTwin p.lead.i p.lead.f then [p.lead.t.core, p.lead.t.core + 1] else [p.lead.g.core]

/-- The members' shared accesses are acknowledged, their TST to shared memory among them (R217). -/
def Party.quiet (p : Party) (s : State) : Bool :=
  p.members.all fun m => m.g.counters.toList.all Option.isNone && !s.storing m.who.team m.who.group true

/-- The instruction stores to memory. -/
def writesMemory (i : Instr) : Bool :=
  match i with
  | .tst _ => true
  | _ => false

/-- A byte at which the instruction waits: on a line that an engine command owns (R52), or in which an accepted instruction of a
member is still to act (R217, R277). -/
def Party.busyByte (p : Party) (s : State) (runs : List Run) : Option Nat :=
  let keys := runKeys runs
  match s.ownedLine keys with
  | some line => some (line * 128)
  | none => keys.find? fun k => p.members.any fun m => s.matrixHolds m.who.team m.who.group (writesMemory p.lead.i) k

/-- The stall before a request for the array: the members' shared accesses, busy bytes, the queues, the follower array. -/
def Party.stall (p : Party) (s : State) (runs : List Run) : Option Resource :=
  if usesMemory p.lead.i && !p.quiet s then some .acks
  else match p.busyByte s runs with
    | some k => some (.line k)
    | none =>
      match p.cores.find? fun k => 16 ≤ (s.core k).matrix.length with
      | some k => some (.matrix k)
      | none => if (leaseCost p.lead.i).isSome then (p.cores.find? s.follows).map .follower else none

/-- The instruction enters its queues. -/
def State.enterQueues (s : State) (p : Party) (m : MatrixOp) : State :=
  let join := fun (s : State) (k : Nat) (m : MatrixOp) => s.setCore k { s.core k with matrix := (s.core k).matrix ++ [m] }
  match p.cores with
  | [a, b] => join (join s a m) b m.follower
  | l => l.foldl (fun s k => join s k m) s

/-- The engine takes the instruction, or its group stalls: registers of its block that are outstanding under the leader's
FMT, what Party.stall names, the lease (R213 to R217). -/
def State.accept (s : State) (p : Party) (x : Formats) (runs : List Run) : State :=
  let c := p.lead
  if p.ctxs.any fun d => s.depends d then s.block c.who (.depend c.i)
  else match p.stall s runs with
  | some r => s.block c.who (.resource r)
  | none =>
    let s := if (leaseCost c.i).isSome then s.askLeases p.cores c.t else s
    match (if (leaseCost c.i).isSome then p.cores.find? fun k => !s.holdsLease k c.t else none) with
    | some k => s.block c.who (.resource (.lease k))
    | none =>
      let s := s.issuedParty p
      let s := match leaseCost c.i with
        | some n => p.cores.foldl (fun (s : State) (k : Nat) => s.countLease k n) s
        | none => s
      let s := (s.enterQueues p (p.op x runs)).modGroup c.who.team c.who.group fun g => g.claim c.f.d (tovRegs c.i) c.act
      (s.passLatches p x.a).passParty p

/-- The way of every instruction of the class once its party stands: no effect where no member has a contributor, the
checks, and acceptance. -/
def enginePass (p : Party) (s : State) : Res :=
  if p.idle then .next ((s.issuedParty p).passParty p)
  else
    let x := arrayFormats p.lead.i p.lead.f p.lead.sp.fmt
    gateParty p s (fun m => if m.who == p.lead.who then m.g.claim p.lead.f.d (tovRegs p.lead.i) p.lead.act else m.g) fun s =>
      if !fmtCheck p x then .next (s.failLead p (p.lead.fault codeILLENC p.lead.act))
      else match memoryCheck p x s with
        | (s, .fault code aux addr) =>
          .next (s.failLead p { ((p.lead.fault code p.lead.act).atAddr fun _ => addr) with aux := aux, addr := addr })
        | (s, .xlate va write) => .next (s.raiseXlate p.lead p.lead.act (if write then 1 else 0) va)
        | (s, .check code key) => .next (s.machineCheck p.lead.g.core p.lead.t.ctx code key)
        | (s, .busy r) => .next (s.block p.lead.who (.resource r))
        | (s, .ok runs) => .next (s.accept p x runs)

/-- A GROUP-scope instruction as a party of one member. -/
def soloParty (c : Ctx) : Party :=
  { lead := c, members := [{ who := c.who, g := c.g, standing := [c.who.split], act := c.act }] }

/-- An instruction of the class at any scope. -/
def engineOp (i : Instr) (f : Fields) (s : State) : Res :=
  if f.scope = .group then attempt i f s fun c s => enginePass (soloParty c) s else meet i f s enginePass

/-- MMA. -/
def execMma (f : Fields) (s : State) : Res := engineOp (.mma f) f s
/-- MMAQ. -/
def execMmaq (f : Fields) (s : State) : Res := engineOp (.mmaq f) f s
/-- MMASM. -/
def execMmasm (f : Fields) (s : State) : Res := engineOp (.mmasm f) f s
/-- TZERO. -/
def execTzero (f : Fields) (s : State) : Res := engineOp (.tzero f) f s
/-- TLD. -/
def execTld (f : Fields) (s : State) : Res := engineOp (.tld f) f s
/-- TST. -/
def execTst (f : Fields) (s : State) : Res := engineOp (.tst f) f s
/-- TMOV.TOV. -/
def execTmovTov (f : Fields) (s : State) : Res := engineOp (.tmovTov f) f s
/-- TMOV.FROMV. -/
def execTmovFromv (f : Fields) (s : State) : Res := engineOp (.tmovFromv f) f s
/-- TMOV.TT. -/
def execTmovTt (f : Fields) (s : State) : Res := engineOp (.tmovTt f) f s
/-- TSIDE.RD. -/
def execTsideRd (f : Fields) (s : State) : Res := engineOp (.tsideRd f) f s
/-- TSIDE.WR. -/
def execTsideWr (f : Fields) (s : State) : Res := engineOp (.tsideWr f) f s
/-- TSIDE.INIT. -/
def execTsideInit (f : Fields) (s : State) : Res := engineOp (.tsideInit f) f s
/-- TSCAL.S. -/
def execTscalS (f : Fields) (s : State) : Res := engineOp (.tscalS f) f s
/-- TSCAL.ROW. -/
def execTscalRow (f : Fields) (s : State) : Res := engineOp (.tscalRow f) f s
/-- TSCAL.DIVL. -/
def execTscalDivl (f : Fields) (s : State) : Res := engineOp (.tscalDivl f) f s
/-- TACC. -/
def execTacc (f : Fields) (s : State) : Res := engineOp (.tacc f) f s
/-- DIST. -/
def execDist (f : Fields) (s : State) : Res := engineOp (.dist f) f s
/-- DARGM. -/
def execDargm (f : Fields) (s : State) : Res := engineOp (.dargm f) f s
/-- DKACC. -/
def execDkacc (f : Fields) (s : State) : Res := engineOp (.dkacc f) f s
/-- DCNT. -/
def execDcnt (f : Fields) (s : State) : Res := engineOp (.dcnt f) f s

/-! ### MLEASE (R233) -/

/-- The lease word that a team reads at a core. -/
def State.leaseWord (s : State) (core team : Nat) : Nat :=
  let l := (s.core core).lease
  let mine := l.holder == some team
  (if mine then l.left % 65536 else 0) + b2n mine * 2 ^ 16 + b2n (l.waiting.any (· != team)) * 2 ^ 17

/-- MLEASE once for its party; REL is a batch boundary where another team waits. -/
def leaseParty (rel : Bool) (p : Party) (s : State) : Res :=
  if p.idle then .next ((s.issuedParty p).passParty p)
  else
    gateParty p s (fun m => m.g) fun s =>
      let core := p.lead.g.core
      let team := p.lead.who.team
      let w := s.leaseWord core team
      let s := s.issuedParty p
      let s := if rel && bit w 16 && bit w 17 then
          (let c := s.core core
           s.setCore core { c with lease := { c.lease with grace := some 65536 } })
        else s
      let s := p.members.foldl (fun s m => s.modGroup m.who.team m.who.group fun g =>
        g.putGroup p.lead.f.d false { w := [BitVec.ofNat 32 w] }) s
      .next ((s.passLatches p 0).passParty p)

/-- MLEASE at its scope. -/
def leaseOp (i : Instr) (f : Fields) (rel : Bool) (s : State) : Res :=
  if f.scope = .group then attempt i f s fun c s => leaseParty rel (soloParty c) s else meet i f s (leaseParty rel)

/-- MLEASE.RD. -/
def execMleaseRd (f : Fields) (s : State) : Res := leaseOp (.mleaseRd f) f false s
/-- MLEASE.REL. -/
def execMleaseRel (f : Fields) (s : State) : Res := leaseOp (.mleaseRel f) f true s

/-- The remaining count has reached 0: the lease renews where no other team waits, and expires otherwise (R215). -/
def execLeaseExhausted (core : Nat) (s : State) : Res :=
  let c := s.core core
  match c.lease.holder with
  | none => .next s
  | some h =>
    if c.lease.left != 0 then .next s
    else if c.lease.waiting.isEmpty then
      let n := ((s.team? h).map fun t => t.launch.lease).getD 256
      .next (s.setCore core { c with lease := { c.lease with left := n, grace := none } })
    else if c.lease.grace.isSome then .next s
    else .next (s.setCore core { c with lease := { c.lease with grace := some 0 } })

/-- The word at a split's PC is an array instruction, as the instruction cache has it; one that has left the cache may be. -/
def State.arrayNext (s : State) (t : Team) (g : Group) (sp : Split) : Bool :=
  match (s.core g.core).icache.find? fun e => e.1 == t.ctx && e.2.1 == sp.pc % 2 ^ 48 with
  | none => true
  | some e => match decode (groupEnv t g) e.2.2 with
    | .ok i => (leaseCost i).isSome
    | .error _ => false

/-- An array instruction of the holder waits at issue, whatever it waits for (R215). -/
def State.arrayWaiting (s : State) (core : Nat) (team : Option Nat) : Bool :=
  s.teams.any fun t => some t.id == team && t.groups.any fun g => g.core == core && g.liveSplits.any fun x =>
    (match x.2.wait with
      | .resource _ => true
      | _ => false) && s.arrayNext t g x.2

/-- The lease passes: the array has no instruction of the holder left, its further operations are used up or it stands at a
batch boundary, and the team that has waited longest is granted (R215). -/
def execLeasePass (core : Nat) (s : State) : Res :=
  let c := s.core core
  let busy := c.matrix.any fun m => some m.team == c.lease.holder && (leaseCost m.i).isSome
  match c.lease.waiting with
  | [] => .next s
  | w :: ws =>
    let more := (s.teams.find? fun t => some t.id == c.lease.holder).any (s.holdsLease core) && s.arrayWaiting core c.lease.holder
    if busy || more || (c.lease.holder.isSome && c.lease.grace.isNone) then .next s
    else
      let n := ((s.team? w).map fun t => t.launch.lease).getD 256
      .next (s.setCore core { c with lease := { holder := some w, left := n, grace := none, waiting := ws } })

/-! ### Start and completion (R216, R217, R220) -/

/-- Nothing before an operation in its queue holds it back: no earlier one on its tiles is left, and its unit is free. -/
def unhindered (before : List MatrixOp) (m : MatrixOp) : Bool :=
  before.all fun b =>
    !(b.team == m.team && b.second == m.second && b.tiles.any fun t => m.tiles.contains t) &&
      ((leaseCost b.i).isSome != (leaseCost m.i).isSome || (!b.running && (leaseCost m.i).isNone))

/-- An operation may start as far as its queue goes; a twin's standing in the second queue starts with its twin. -/
def mayStart (before : List MatrixOp) (m : MatrixOp) : Bool := !m.running && !m.shadow && unhindered before m

/-- An operation of the first core is a twin's (R214). -/
def MatrixOp.twin (m : MatrixOp) : Bool := (fieldsOf m.i).any fun f => isTwin m.i f

/-- The first standing of a team's twin operation in a queue, with what stands before it. -/
def firstShadow (team : Nat) : List MatrixOp → List MatrixOp → Option (List MatrixOp × MatrixOp)
  | _, [] => none
  | before, m :: rest => if m.shadow && m.team == team then some (before, m) else firstShadow team (before ++ [m]) rest

/-- A reservation of a thread of an operation's groups. -/
def MatrixOp.mine (m : MatrixOp) (r : Reservation) : Bool := m.ofGroup r.team r.group

/-- What an operation needs beside its queue: for a twin, that nothing holds it back on the second core; and that no
engine command owns a line it reads, and no thread holds a granule into which its reads would merge (R52, R54, R106). -/
def State.opReady (s : State) (core : Nat) (m : MatrixOp) : Bool :=
  (m.stores || ((s.ownedLine (runKeys m.reads)).isNone && (s.heldAt m.mine [] (linesOf (runKeys m.reads))).isNone)) &&
    (!m.twin || (firstShadow m.team [] (s.core (core + 1)).matrix).any fun x => unhindered x.1 x.2)

/-- The first operation of a queue that may start, with its place. -/
def firstStart (ready : MatrixOp → Bool) : List MatrixOp → List MatrixOp → Option Nat
  | _, [] => none
  | before, m :: rest => if mayStart before m && ready m then some before.length else firstStart ready (before ++ [m]) rest

/-- A change of the first standing of a team's twin operation in a queue. -/
def modShadow (team : Nat) (f : MatrixOp → MatrixOp) (l : List MatrixOp) : List MatrixOp :=
  updateFirst (fun m => m.shadow && m.team == team) f l

/-- An operation of a core runs, with what it has read; a twin's standing with it. -/
def State.runOp (s : State) (core k : Nat) (m : MatrixOp) : State :=
  let s := s.setCore core { s.core core with matrix := (s.core core).matrix.set k { m with running := true } }
  if m.twin then
    s.setCore (core + 1) { s.core (core + 1) with matrix := modShadow m.team (fun x => { x with running := true }) (s.core (core + 1)).matrix }
  else s

/-- The next operation of a core starts: what it reads from memory is read, and a machine check it meets is charged to
the core; a group that has ended leaves its barriers once its last read is performed (R211, R217, R321). -/
def execMatrixOpStart (core : Nat) (s : State) : Res :=
  match firstStart (s.opReady core) [] (s.core core).matrix with
  | none => .next s
  | some k =>
    match (s.core core).matrix[k]? with
    | none => .next s
    | some m =>
      if m.stores then .next (s.runOp core k m)
      else
        let spots := m.reads.flatMap Run.spots
        let ctx := ((s.team? m.team).map (·.ctx)).getD 0
        match s.readCheck spots with
        | some (code, key) => .next (s.machineCheck core ctx code key)
        | none =>
          let s := s.beforeRead ctx core true spots
          let s := s.runOp core k { m with bytes := s.readSpots spots, reads := [] }
          .next (m.members.foldl (fun s x => s.leaveBarriers m.team x.1) s)

/-- Physical tile of a team's tile index at a core. -/
def Team.tileAt (t : Team) (second : Bool) (n : Nat) : Nat := (if second then t.tiles2 else t.tiles).getD n n

/-- A tile of a core. -/
def State.tile (s : State) (core n : Nat) : Tile := nth (s.core core).tiles n Tile.fresh
def State.setTile (s : State) (core n : Nat) (t : Tile) : State :=
  s.setCore core { s.core core with tiles := put (s.core core).tiles n t }

/-- An operation of the array and one side of the twin's second tile: D after it, and the flags. -/
def mmaSide (m : MatrixOp) (f : Fields) (x : Formats) (rd : Rounding) (bs aArea bArea : List Byte) (t : Tile) : Tile × Nat :=
  let metric : Metric := match m.i with
    | .dist _ => [Metric.l1, .l2sq, .negdot, .hamming].getD (subN f % 4) .l1
    | _ => .product (bit (xmN f) 0)
  accumulate x metric rd f.sat (tileOf f.d) (fun i => nth m.live i false) (m.a.map rowNat)
    ((List.range 64).map (columnNat x.b bs)) aArea bArea t

/-- The memory bytes that TST writes, at its spans (R228). -/
def tstBytes (f : Fields) (rows : List Byte) (t : Tile) : List Byte := if bit (subN f) 1 then rows ++ leBytes 4 t.ovf.toNat else rows

/-- What an operation does as it completes: the new state but for its leaving the queue, and the flags it raises. -/
def finishOp (s : State) (core : Nat) (tm : Team) (m : MatrixOp) (f : Fields) : State × Nat :=
  let phys := fun (n : Nat) => tm.tileAt m.second n
  let get := fun (n : Nat) => s.tile core (phys n)
  let rd : Rounding := { md := engineMode m.i f m.fmt m.mode, seed := m.seed, lin := tm.lin }
  let d := tileOf f.d
  let onD := fun (r : Tile × Nat) => (s.setTile core (phys d) r.1, r.2)
  let x := arrayFormats m.i f m.fmt
  let n := 64 * rowBytes x.b
  let regs := m.a.map fun l => (tab 32 fun i => l.getD i 0 : Lanes W32)
  let live := fun (i : Nat) => nth m.live i false
  let mma := fun (_ : Unit) =>
    let twin := isTwin m.i f
    let rest := m.bytes.drop (if twin then 2 * n else n)
    let aArea := rest.take (x.areaBytes x.a)
    let bArea := (rest.drop (x.areaBytes x.a)).take (x.areaBytes x.b)
    let bArea2 := (rest.drop (x.areaBytes x.a + x.areaBytes x.b)).take (x.areaBytes x.b)
    if twin then
      let t1 := tm.tiles.getD d d
      let t2 := tm.tiles2.getD d d
      let r1 := mmaSide m f x rd (m.bytes.take n) aArea bArea (s.tile tm.core t1)
      let r2 := mmaSide m f x rd ((m.bytes.drop n).take n) aArea bArea2 (s.tile (tm.core + 1) t2)
      ((s.setTile tm.core t1 r1.1).setTile (tm.core + 1) t2 r2.1, r1.2 ||| r2.2)
    else onD (mmaSide m f x rd (m.bytes.take n) aArea bArea (get d))
  match m.i with
  | .mma _ => mma ()
  | .mmaq _ => mma ()
  | .dist _ => mma ()
  | .mmasm _ =>
    let fmt := mmasmFormat (dtN f)
    let es := fmtWidth fmt / 8
    let k := bits ((m.args.getD 1 0).toNat) 35 32
    let keys := (List.range 64).map fun j => leNat ((m.bytes.drop (64 * j)).take 64)
    let vals := (List.range 64).map fun c => leNat ((m.bytes.drop (4096 + c * 64 * es)).take (64 * es))
    let r := softmaxStep fmt rd (num32 (lowWord (m.args.getD 1 0)).toNat) d k live (m.a.map rowNat) keys vals (get d) (get k)
    ((s.setTile core (phys d) r.1).setTile core (phys k) r.2.1, r.2.2)
  | .tzero _ => onD ((get d).zero (subN f), 0)
  | .tsideInit _ => onD ((get d).zero 2, 0)
  | .tld _ => onD ((get d).load (dtN f) m.bytes, 0)
  | .tst _ =>
    let c := tileOf f.c
    let r := (get c).store (dtN f) rd f.sat c
    let bs := tstBytes f r.1 r.2.1
    let s := s.storeBytes tm.ctx ((m.reads.flatMap Run.spots).zip bs)
    (s.setTile core (phys c) (if bit (subN f) 2 then { r.2.1 with ovf := 0 } else r.2.1), r.2.2)
  | .tmovTov _ =>
    let t := get (tileOf f.a)
    let strip := immVal f.b
    let col := fun (w : Nat) => (tab 32 fun l => let p := stripAt strip l w; t.at p.1 p.2 : Lanes W32)
    (s.modGroup m.team m.leader fun g => g.deliver (vBack f.d 32 m.contrib fun l => (List.range 32).map fun w => nth (col w) l 0), 0)
  | .tmovFromv _ => onD ((get d).fromV (immVal f.b) m.contrib regs, 0)
  | .tmovTt _ => onD ({ get d with data := (get (tileOf f.a)).data }, 0)
  | .tsideRd _ =>
    let t := get (tileOf f.a)
    let word := fun (l : Nat) => [nth t.m l 0, nth t.m (32 + l) 0, nth t.l l 0, nth t.l (32 + l) 0]
    (s.modGroup m.team m.leader fun g => g.deliver (vBack f.d 4 m.contrib word), 0)
  | .tsideWr _ => onD ((get d).setSide m.contrib regs, 0)
  | .tscalS _ => onD ((get d).scale rd d fun _ => some (lowWord (m.args.getD 0 0)))
  | .tscalRow _ =>
    onD ((get d).scale rd d fun i =>
      if m.contrib.getLsbD (i % 32) then some (nth (regs.getD (i / 32) (Vector.replicate 32 0)) (i % 32) 0) else none)
  | .tscalDivl _ => onD ((get d).divL rd d)
  | .tacc _ =>
    let a := tileOf f.a
    let r := (get d).accumulate (get a) rd d (dtN f) f.sat
    let s := s.setTile core (phys d) r.1
    (if bit (subN f) 0 then s.setTile core (phys a) { get a with data := Vector.replicate 64 (Vector.replicate 64 0) } else s, r.2)
  | .dargm _ =>
    let o := (lowWord (m.args.getD 1 0)).toNat
    onD ((get d).drain (dtN f == 1) (bit (subN f) 0) (bit (subN f) 1) (bit (subN f) 3) (lowWord (m.args.getD 0 0)).toNat o, 0)
  | .dkacc _ =>
    let c := (m.args.getD 0 0).toNat
    let r := bits c 22 16
    onD ((get d).addRows (get (tileOf f.b)) (dkaccFormat (dtN f)) rd f.sat d (bits c 15 0) (if r = 0 then 64 else r) live
      (m.a.map rowNat))
  | .dcnt _ => onD ((get d).means rd d (dtN f == 1))
  | _ => (s, 0)

/-- A running operation may complete: a TST waits where an engine command owns a line or another thread holds writers off a
granule that it, or the merge of an open Mire entry before it, writes (R52, R54, R106, R217). -/
def State.mayFinish (s : State) (m : MatrixOp) : Bool :=
  let keys := runKeys m.reads
  m.running && !m.shadow && (!m.stores || ((s.ownedLine keys).isNone && (s.heldAt m.mine keys (linesOf keys)).isNone))

/-- An operation leaves its queue; a twin's standing leaves the second core's with it. -/
def State.retireOp (s : State) (core : Nat) (m : MatrixOp) : State :=
  let s := s.setCore core { s.core core with matrix := (s.core core).matrix.erase m }
  if m.twin then
    s.setCore (core + 1) { s.core (core + 1) with matrix := (s.core (core + 1)).matrix.eraseP fun x => x.shadow && x.team == m.team }
  else s

/-- The first running operation of a core completes: its results are written, its flags join those of every member, and
it leaves the queue; a group that has ended leaves its barriers once its last TST is performed (R321). A machine check that
TST meets is charged to the core. -/
def execMatrixOpComplete (core : Nat) (s : State) : Res :=
  match (s.core core).matrix.find? s.mayFinish with
  | none => .next s
  | some m =>
    match s.team? m.team, fieldsOf m.i with
    | some t, some f =>
      match if m.stores then s.writeCheck (m.reads.flatMap Run.spots) else none with
      | some (code, key) => .next (s.machineCheck core t.ctx code key)
      | none =>
        let r := finishOp s core t m f
        let s := r.1.retireOp core m
        let s := m.members.foldl (fun s x => (s.modGroup m.team x.1 fun g => g.raiseFlags r.2).leaveBarriers m.team x.1) s
        .next (s.reap m.team)
    | _, _ => .next (s.retireOp core m)

end Sys2Proof.Machine
end

