-- ==== Sys2Proof/Machine/Sync.lean ====
section
/-! DEFINITION. VOTE and ELECT at every scope, SYNC, and the barriers (spec/07_vector_instructions.md R190;
spec/13_execution_and_control.md R320, R321, R332 to R336). -/

namespace Sys2Proof.Machine

/-! ### VOTE (R190) -/

/-- The vote of contributors, given as the masks of threads that contribute and of those whose A is true. -/
def voteOf (sub : Nat) (xs : List (Mask × Mask)) : Bool :=
  let all := xs.all fun x => x.1 &&& ~~~ x.2 == 0
  let any := xs.any fun x => x.1 &&& x.2 != 0
  match sub with
  | 0 => all
  | 1 => any
  | _ => all || !any

/-- VOTE after its rendezvous: every member receives the result. -/
def voteParty (p : Party) (s : State) : Res :=
  let r := voteOf (subN p.lead.f) (p.members.map fun m => (m.act, m.g.predNeg (bit (xmN p.lead.f) 0) p.lead.f.a))
  partyRegisters p s fun _ g => g.putGroup p.lead.f.d false { w := [], p := r }

/-- VOTE at GROUP scope: the P result is written even where no thread contributes. -/
def voteGroup (f : Fields) (s : State) : Res :=
  begin_ (.vote f) f s fun c s =>
    let a := c.g.predNeg (bit (xmN f) 0) f.a
    let o : LaneOut := if subN f = 3 then { w := [c.act &&& a] } else { w := [], p := voteOf (subN f) [(c.act, a)] }
    let h := fun (g : Group) => g.putGroup f.d false o
    if subN f = 3 then gate c s (h c.g).generals fun s => .next ((s.modGroup c.who.team c.who.group h).advance c.who)
    else if c.broken then .next (s.raise c (c.fault codeLOOKAHEAD c.act))
    else .next ((s.modGroup c.who.team c.who.group h).advance c.who)

/-- VOTE. -/
def execVote (f : Fields) (s : State) : Res := if f.scope = .group then voteGroup f s else meet (.vote f) f s voteParty

/-! ### ELECT (R336) -/

/-- ELECT after its rendezvous: the lowest contributor of the lowest member that has one. -/
def electParty (p : Party) (s : State) : Res :=
  let chosen := (p.members.find? fun m => m.act != 0).map fun m => (m.who.group, (lowest m.act).getD 0)
  partyRegisters p s fun m g => match p.lead.f.d with
    | .p n => g.putP n.val allLanes (match chosen with
        | some (k, l) => if k = m.who.group then maskOf (· == l) else 0
        | none => 0)
    | _ => g

/-- ELECT at GROUP scope. -/
def electGroup (f : Fields) (s : State) : Res :=
  registers (.elect f) f s fun c => .done fun g => match f.d with
    | .p n => g.putP n.val allLanes (maskOf (· == c.designated))
    | _ => g.putGroup f.d false { w := [BitVec.ofNat 32 c.designated] }

/-- ELECT. -/
def execElect (f : Fields) (s : State) : Res := if f.scope = .group then electGroup f s else meet (.elect f) f s electParty

/-- SYNC has no effect beyond its rendezvous (R332). -/
def syncParty (p : Party) (s : State) : Res := gateParty p s (fun m => m.g) fun s => .next ((s.issuedParty p).passParty p)

/-- SYNC. -/
def execSync (f : Fields) (s : State) : Res := meet (.sync f) f s syncParty

/-! ### Barriers -/

/-- Barrier n of a team. -/
def Team.barrier (t : Team) (n : Nat) : Barrier := nth t.barriers n { phase := 0, arrd := 0, part := 0 }
def Team.setBarrier (t : Team) (n : Nat) (b : Barrier) : Team := { t with barriers := put t.barriers n b }

/-- A group's bit of a group mask. -/
def hasGroup (mask g : Nat) : Bool := mask.testBit g

/-- The barrier number of the instruction in hand, checked whole (R323); none where it is above 15. -/
def Ctx.barrierNo (c : Ctx) : Option Nat :=
  let n := (c.g.scalar .unsigned c.f.a).toNat
  if n < 16 then some n else none

/-- An instruction on one barrier: ADDRBAD above 15, and the ceiling for a general destination. -/
def onBarrier (i : Instr) (f : Fields) (s : State) (k : Ctx → Nat → State → Res) : Res :=
  attempt i f s fun c s => gateLate c s (c.g.putGroup f.d false { w := [0] }).generals fun s =>
    match c.barrierNo with
    | none => .next (s.raise c (c.fault codeADDRBAD c.act))
    | some n => k c n s

/-- A group arrives: its bit is set and the phase completes where the arrival is the last; D receives the phase (R321,
R333). -/
def State.arriveOn (s : State) (w : Who) (f : Fields) (n : Nat) (phase : Nat) : State :=
  let s := s.modTeam w.team fun t =>
    let b := t.barrier n
    if hasGroup b.part w.group then t.setBarrier n ({ b with arrd := b.arrd ||| 2 ^ w.group } : Barrier).settle else t
  (s.modGroup w.team w.group fun g => g.putGroup f.d false { w := [BitVec.ofNat 32 phase] }).advance w

/-- ARRIVE: it releases the group's accesses, those of the matrix engine among them, and a group that has arrived in the phase waits
for the next (R283, R321; log 19). -/
def execArrive (f : Fields) (s : State) : Res :=
  onBarrier (.arrive f) f s fun c n s =>
    let b := c.t.barrier n
    if s.matrixOwes c.who.team c.who.group then .next (s.block c.who (.resource .acks))
    else if hasGroup b.part c.who.group && hasGroup b.arrd c.who.group then .next ((s.issued c).block c.who (.arrive (.arrive f) n b.phase))
    else .next ((s.issued c).arriveOn c.who f n b.phase)

/-- WAITBAR has nothing to wait for: the phase p of the barrier has completed or lies ahead. -/
def phaseOver (b : Barrier) (p : Nat) : Bool := (b.phase + 65536 - p % 65536) % 65536 != 0

/-- WAITBAR. -/
def execWaitbar (f : Fields) (s : State) : Res :=
  onBarrier (.waitbar f) f s fun c n s =>
    let p := (c.g.scalar .unsigned f.b).toNat % 65536
    let s := s.issued c
    if phaseOver (c.t.barrier n) p then .next (s.advance c.who) else .next (s.block c.who (.waitbar n p))

/-- A read of a barrier into D. -/
def readBarrier (i : Instr) (f : Fields) (s : State) (x : Barrier → Nat) : Res :=
  onBarrier i f s fun c n s =>
    let v := x (c.t.barrier n)
    .next (((s.issued c).modGroup c.who.team c.who.group fun g =>
      g.putGroup f.d false { w := [BitVec.ofNat 32 v, BitVec.ofNat 32 (v / 2 ^ 32)] }).advance c.who)

/-- BARQ.PHASE. -/
def execBarqPhase (f : Fields) (s : State) : Res :=
  readBarrier (.barqPhase f) f s fun b => b.phase + popCount 64 b.arrd * 2 ^ 16 + popCount 64 b.part * 2 ^ 24
/-- BARQ.PART. -/
def execBarqPart (f : Fields) (s : State) : Res := readBarrier (.barqPart f) f s fun b => b.part
/-- BARQ.ARRD. -/
def execBarqArrd (f : Fields) (s : State) : Res := readBarrier (.barqArrd f) f s fun b => b.arrd

/-- BARQ.SET: D takes PART, then PART is B and ARRD keeps the bits of B. -/
def execBarqSet (f : Fields) (s : State) : Res :=
  onBarrier (.barqSet f) f s fun c n s =>
    let b := c.t.barrier n
    let x := (c.g.scalar .unsigned f.b).toNat
    let s := s.issued c
    if 2 ^ c.t.launch.total ≤ x then .next (s.raise c (c.fault codeADDRBAD c.act))
    else
      let s := s.modTeam c.who.team fun t => t.setBarrier n ({ b with part := x, arrd := b.arrd &&& x } : Barrier).settle
      .next ((s.modGroup c.who.team c.who.group fun g =>
        g.putGroup f.d false { w := [BitVec.ofNat 32 b.part, BitVec.ofNat 32 (b.part / 2 ^ 32)] }).advance c.who)

end Sys2Proof.Machine
end

