-- ==== Sys2Proof/Machine/MemEvents.lean ====
section
/-! DEFINITION. Events of the memory system and of waiting splits (spec/02_memory_and_translation.md R44, R57, R58;
spec/03 R65; spec/04 R97, R106, R112, R118, R119; spec/13 R315 to R317, R321; spec/15 R359). -/

namespace Sys2Proof.Machine

/-! ### Walks and fills (R35, R44, R57, R58) -/

/-- WALK_COMPLETE: a walk of a die that finds a leaf which permits the access sets A, and D for a write, and the die's TLB
takes the translation; what it does not find is raised by the access that asked (R41, R45). -/
def execWalkComplete (die ctx : Nat) (va : W64) (acc : Access) (s : State) : Res :=
  .next (match s.address va with
    | .here a => match (if 2 ≤ die then (s, .error (.xlate a)) else s.walkFor ctx a acc) with
      | (_, .error _) => s
      | (u, .ok (e, shift)) =>
        let t : TlbEntry := { ctx := ctx, page := a / 2 ^ shift * 2 ^ shift, size := shift, leaf := BitVec.ofNat 64 e }
        let d := u.die die
        u.setDie die { d with
          tlb := (t :: d.tlb.filter fun x => !(x.ctx == ctx && x.page == t.page && x.size == shift)).take 16384 }
    | _ => s)

/-- The 512-byte block of a physical address, counted from the start of its die's HBM (R34). -/
def blockOf (pa : Nat) : Nat := (if pa < die1Base then pa else pa - die1Base) / 512
/-- The stack of a physical address (R34). -/
def stackOf (pa : Nat) : Nat := blockOf pa % 6 + if pa < die1Base then 0 else 6
/-- The pseudo-channel of a physical address in its stack (R34). -/
def channelOf (pa : Nat) : Nat := blockOf pa / 6 % 64
/-- The offset of a physical address in its pseudo-channel (R34). -/
def channelOffset (pa : Nat) : Nat := blockOf pa / 384 * 512 + pa % 512

/-- A check charged to a core, for the contexts that stand on it. -/
def State.chargeFill (s : State) (core code pa : Nat) : State :=
  match s.contextsOn core with
  | [] => s.resetCore core
  | ctx :: _ => s.machineCheck core ctx code pa

/-- Both sectors of a line enter L2. -/
def State.fillLine (s : State) (line : Nat) : State := s.install 0 0 [line * 128, line * 128 + 64] false

/-- FILL_COMPLETE: a fill of a line from HBM, as the controller found it, for an access of a core or for none. The count of
corrected errors stops at 2^64 - 1 (log 65); a sector poisoned by a fill, which evicts nothing, names context 0 (log 68). -/
def execFillComplete (line : Nat) (res : FillResult) (core : Option Nat) (s : State) : Res :=
  .next (if hbmEnd ≤ line * 128 then s
    else match res, core with
      | .clean, _ => s.fillLine line
      | .corrected, _ =>
        let k := stackOf (line * 128)
        { s with sys := { s.sys with hbmce := put s.sys.hbmce k (min (nth s.sys.hbmce k 0 + 1) (2 ^ 64 - 1)) } }.fillLine line
      | .uncorrectable, some c => s.chargeFill c codeUE (line * 128)
      | .uncorrectable, none =>
        let bad := [2 * line, 2 * line + 1].filter fun sec => s.poison.all fun p => p.1 != sec
        { s with poison := s.poison ++ bad.map fun sec => (sec, 0) }.fillLine line
      | .checkMismatch, some c => s.chargeFill c codeDATACHK (line * 128)
      | .checkMismatch, none =>
        let bad := [2 * line, 2 * line + 1].filter fun sec => !s.badCheck.contains sec
        { s with badCheck := s.badCheck ++ bad }.fillLine line)

/-! ### Returns and acknowledgements (R59, R65, R97) -/

/-- The first outstanding access of a split leaves a group, its result delivered. -/
def Group.returnFor (g : Group) (split : Nat) : Group :=
  match g.outstanding.find? fun o => o.split == split with
  | some o => { g.deliver o.wb with outstanding := g.outstanding.erase o }
  | none => g

/-- ACCESS_RETURN: the oldest outstanding access of a split returns. -/
def execAccessReturn (w : Who) (s : State) : Res :=
  .next ((s.modGroup w.team w.group fun g => g.returnFor w.split).reap w.team)

/-- STORE_ACK: one access of a group is acknowledged, once the second pieces of the group's misaligned stores are performed; while one of
them must wait, nothing happens (R92, R97). -/
def execStoreAck (team group : Nat) (s : State) : Res :=
  .next (if (s.pieceStall team group).isSome then s
    else ((s.settlePieces team group).modGroup team group Group.acknowledged).reap team)

/-- One request of a completion counter completes, the first that is left (log 3); the last delivers (R65). -/
def Group.countDown (g : Group) (k : Nat) : Group :=
  match nth g.counters k none with
  | none => g
  | some c =>
    if c.requests.length ≤ 1 then { g.deliver c.out.wb with counters := put g.counters k none }
    else { g with counters := put g.counters k (some { c with requests := c.requests.drop 1 }) }

/-- SHARED_REQUEST_COMPLETE, after the second pieces of the group's misaligned stores (R65, R92). -/
def execSharedRequestComplete (team group k : Nat) (s : State) : Res :=
  .next (if (s.pieceStall team group).isSome then s
    else ((s.settlePieces team group).modGroup team group fun g => g.countDown k).reap team)

/-! ### Holds (R106) -/

/-- RESERVATION_HOLD_EXPIRY: a hold on a granule whose time is up ends; the writes that wait at granules that are no longer closed
are applied, in arrival order (R52, R106). -/
def execReservationHoldExpiry (granule : Nat) (s : State) : Res :=
  let past := fun (r : Reservation) => r.granule == granule && r.hold && decide (r.deadline ≤ s.time)
  let s := { s with reservations := s.reservations.map fun r => if past r then { r with hold := false } else r }
  .next (State.applyHeld s.heldWrites.length s)

/-! ### Monitors (R112) -/

/-- A split's wait in MWAIT. -/
def State.mwaitOf (s : State) (w : Who) : Option (Fields × Mask × Option Nat) :=
  match (s.group? w.team w.group).bind fun g => g.split? w.split with
  | some x => match x.wait with
    | .mwait f m d => some (f, m, d)
    | _ => none
  | none => none

/-- A monitor of the waiting threads has a cause. -/
def State.monitorFired (s : State) (w : Who) (mask : Mask) : Bool :=
  s.monitors.any fun m => m.team == w.team && m.group == w.group && mask.getLsbD m.lane && m.cause.isSome

/-- MONITOR_WAKE: a waiting thread has a cause. -/
def execMonitorWake (w : Who) (s : State) : Res :=
  .next (match s.mwaitOf w with
    | some (f, mask, _) => if s.monitorFired w mask then s.finishMwait w f mask (causeOr 4) else s
    | none => s)

/-- MWAIT_TIMEOUT: the deadline has passed. -/
def execMwaitTimeout (w : Who) (s : State) : Res :=
  .next (match s.mwaitOf w with
    | some (f, mask, some d) => if d ≤ s.time then s.finishMwait w f mask (causeOr 2) else s
    | _ => s)

/-- SPURIOUS_WAKE: the hardware wakes a split without a cause. -/
def execSpuriousWake (w : Who) (s : State) : Res :=
  .next (match s.mwaitOf w with
    | some (f, mask, _) => s.finishMwait w f mask (causeOr 4)
    | none => s)

/-! ### Fairness (R315) -/

/-- FAIRNESS_LIMIT: a split whose count has reached 64 gives up its burst while a sibling is ready. -/
def execFairnessLimit (w : Who) (s : State) : Res :=
  .next (match (s.group? w.team w.group).bind fun g => g.split? w.split with
    | some x =>
      if 64 ≤ x.fairness && siblingReady s.readySplits w then s.modSplit w fun x => { x with burst := 4 } else s
    | none => s)

/-! ### Waits (R118, R119, R321, R334) -/

/-- WAIT_RETURN: what a split waits for has come. -/
def execWaitReturn (w : Who) (s : State) : Res :=
  match s.team? w.team, s.group? w.team w.group with
  | some t, some g => match (if g.halted || t.preempt then none else g.split? w.split) with
    | none => .next s
    | some x => match x.wait with
      | .waitb n mask => .next (if s.batchDone w.team w.group g.openBatch n then s.finishWaitb w n mask else s)
      | .waitbar b p => .next (if phaseOver (t.barrier b) p then s.advance w else s)
      | .arrive i b p => match fieldsOf i with
        | some f =>
          let y := t.barrier b
          .next (if y.phase = p || s.matrixOwes w.team w.group then s
            else if hasGroup y.part w.group && hasGroup y.arrd w.group then s.modSplit w fun x => { x with wait := .arrive i b y.phase }
            else s.arriveOn w f b y.phase)
        | none => .next s
      | .evwait i =>
        if !s.ringReady w.team then .next s
        else match fieldsOf i with
          | some f =>
            if f.scope = .team then
              let s' := s.block w (.rendezvous i)
              match s'.party? w.team w.group with
              | some (_, p) => popParty p s'
              | none => .next s
            else .next (s.popInto w f)
          | none => .next s
      | _ => .next s
  | _, _ => .next s

end Sys2Proof.Machine
end

