-- ==== Sys2Proof/Machine/System.lean ====
section
/-! DEFINITION. Traps and system instructions (spec/15_traps_and_reliability.md R359, R362, R377 to R386; spec/03 R66, R67), and the
completion of a rendezvous (spec/13_execution_and_control.md R316, R317). -/

namespace Sys2Proof.Machine

/-! ### TRAP, BPT, RETT, HALTT (R377 to R380) -/

/-- The threads that TRAP and BPT fault in. -/
def Ctx.trapMask (c : Ctx) : Mask := if c.f.scope = .group then maskOf (· == c.designated) else c.act

/-- A trap with its number; it resumes past its instruction. -/
def Ctx.trapInfo (c : Ctx) (code : Nat) : FaultInfo :=
  { c.fault code c.trapMask with trapNo := immVal c.f.a % 2 ^ 16, resume := c.sp.pc + 12 }

/-- TRAP. -/
def execTrap (f : Fields) (s : State) : Res :=
  begin_ (.trap f) f s fun c s => gate c s 0 fun s => .next (s.raise c (c.trapInfo codeTRAPI))

/-- BPT: where a handler is installed the group's siblings halt too, also for a BPT in the handler, whose termination ends the halt
(R361, R362, R378). -/
def execBpt (f : Fields) (s : State) : Res :=
  begin_ (.bpt f) f s fun c s => gate c s 0 fun s =>
    let s := if s.handler c.t.ctx != 0 then s.haltTeam c.who.team c.who.group 1 false else s
    .next (s.raise c (c.trapInfo codeBPT))

/-- The frozen splits whose threads all exited in the handler go on to their JOINs. -/
def State.thawEmpty (s : State) (team group : Nat) : State :=
  (List.range 4).foldl (fun (s : State) n => match (s.group? team group).bind fun g => g.split? n with
    | some x => if x.mask = 0 then s.joins { team := team, group := group, split := n } else s
    | none => s) s

/-- RETT: the frozen state is restored (R379). -/
def execRett (f : Fields) (s : State) : Res :=
  begin_ (.rett f) f s fun c s => gate c s 0 fun s =>
    .next ((s.returnTrap c.who.team c.who.group).thawEmpty c.who.team c.who.group)

/-- What RETT.KILL ends the group with: the handler's K registers as they stand. -/
def Handler.killInfo (h : Handler) : FaultInfo :=
  let k := fun (i : Nat) => (nth h.ks i 0).toNat
  { code := k 1 % 256, split := h.split, scope := bits (k 1) 25 24, mask := BitVec.ofNat 32 (k 0), pc := k 2, addr := k 3, aux := k 4,
    trapNo := 0, laneAddr := Vector.replicate 32 0, resume := 0 }

/-- RETT.KILL: the group is terminated with the code in K9. -/
def execRettKill (f : Fields) (s : State) : Res :=
  begin_ (.rettKill f) f s fun c s => gate c s 0 fun s =>
    match c.g.handler with
    | some h => .next (s.terminate c.who.team c.who.group h.killInfo h.split)
    | none => .next (s.advance c.who)

/-- HALTT: outside a handler the whole team halts, inside one its siblings (R380). -/
def execHaltt (f : Fields) (s : State) : Res :=
  begin_ (.haltt f) f s fun c s => gate c s 0 fun s =>
    let s := s.advance c.who
    match c.g.handler with
    | none => .next (s.haltTeam c.who.team c.who.group 2 true)
    | some _ =>
      let s := if c.t.halt.isSome then s else s.modGroup c.who.team c.who.group fun g =>
        { g with handler := g.handler.map fun h => { h with raisedHalt := true } }
      .next (s.haltTeam c.who.team c.who.group 2 false)

/-! ### System registers (R381, R382) -/

/-- Device identity (R381). -/
def devId : Nat := 0x9600010000000000

/-- Touch vector word w. -/
def State.touchWord (s : State) (w : Nat) : Nat := (s.die (w / 4)).touch.toNat / 2 ^ (64 * (w % 4)) % 2 ^ 64

/-- Indices of a table of n registers of `size` bytes at a base. -/
def regIndex (a base size n : Nat) : Option Nat :=
  if base ≤ a && a < base + size * n && (a - base) % size = 0 then some ((a - base) / size) else none

/-- The value of the register at an address; none where no register stands there. -/
def State.sysReg (s : State) (a : Nat) : Option Nat :=
  let r := s.sys
  let look := fun (m : List (Nat × Nat)) (k : Nat) => (assoc k m).getD 0
  match a with
  | 0x0000 => some devId
  | 0x0008 => some r.pkgnum.toNat
  | 0x0010 => some r.ctxtab.toNat
  | 0x0018 => some r.qtab.toNat
  | 0x0020 => some r.jbase.toNat
  | 0x0028 => some r.savebase.toNat
  | 0x0030 => some r.savesize.toNat
  | 0x0038 => some r.savefull
  | _ =>
    ((regIndex a 0x0100 8 12).map fun k => nth r.hbmce k 0) <|> ((regIndex a 0x0800 8 256).map fun c => look r.fqcount c) <|>
      ((regIndex a 0x1000 16 256).map fun c => look r.mepis c) <|> ((regIndex a 0x1008 16 256).map fun c => look r.mevic c) <|>
      ((regIndex a 0x3000 8 8).map s.touchWord) <|> ((regIndex a 0x4000 8 1024).map fun i => look r.pinmiss i) <|>
      ((regIndex a 0x6000 8 256).map fun c => look r.fqdrop c)

/-- A register of access RC is cleared by its read. -/
def State.clearOnRead (s : State) (a : Nat) : State :=
  let r := s.sys
  let r := if a = 0x0038 then { r with savefull := 0 } else r
  let r := match regIndex a 0x0100 8 12 with
    | some k => { r with hbmce := put r.hbmce k 0 }
    | none => r
  let r := match regIndex a 0x4000 8 1024 with
    | some i => { r with pinmiss := r.pinmiss.filter fun x => x.1 != i }
    | none => r
  let r := match regIndex a 0x6000 8 256 with
    | some c => { r with fqdrop := r.fqdrop.filter fun x => x.1 != c }
    | none => r
  { s with sys := r }

/-- The bases of the tables and of the save pool name memory (log 27). -/
def baseOk (base size : Nat) : Bool := decide (base + size ≤ hbmEnd)

/-- A register written, with the status of R383; writes to read-only registers are ignored (R8). -/
def State.setSysReg (s : State) (a : Nat) (x : W64) : Option (State × Nat) :=
  let r := s.sys
  let n := x.toNat
  let keep := fun (ok : Bool) (r : SysRegs) => some (if ok then ({ s with sys := r }, 0) else (s, 1))
  match a with
  | 0x0008 => keep true { r with pkgnum := BitVec.ofNat 64 (n % 4096) }
  | 0x0010 => keep (baseOk n (64 * 256)) { r with ctxtab := x }
  | 0x0018 => keep (baseOk n (64 * 4096)) { r with qtab := x }
  | 0x0020 => keep (baseOk n (64 * 2 ^ 20)) { r with jbase := x }
  | 0x0028 => keep (baseOk (n * 65536) 0) { r with savebase := x }
  | 0x0030 => keep (baseOk (n * 65536) 0) { r with savesize := x }
  | _ => (s.sysReg a).map fun _ => (s, 0)

/-- SYSR and SYSW outside context 0 raise PERM (R377). -/
def systemOnly (c : Ctx) (s : State) (k : State → Res) : Res :=
  if c.t.ctx != 0 then .next (s.raise c (c.fault codePERM c.act)) else k s

/-- A 64-bit value into D, and on. -/
def State.answer (s : State) (c : Ctx) (n : Nat) : State :=
  (s.modGroup c.who.team c.who.group fun g =>
    g.putGroup c.f.d false { w := [BitVec.ofNat 32 n, BitVec.ofNat 32 (n / 2 ^ 32)] }).advance c.who

/-- The value of A. -/
def Ctx.sysA (c : Ctx) : Nat := (c.g.scalar .unsigned c.f.a).toNat
/-- The value of B. -/
def Ctx.sysB (c : Ctx) : W64 := c.g.scalar .unsigned c.f.b

/-- SYSR.REG. -/
def execSysrReg (f : Fields) (s : State) : Res :=
  begin_ (.sysrReg f) f s fun c s => gate c s 0 fun s => systemOnly c s fun s =>
    match s.sysReg c.sysA with
    | some x => .next ((s.clearOnRead c.sysA).answer c x)
    | none => .next (s.raise c { c.fault codeADDRBAD c.act with addr := c.sysA })

/-- SYSW.REG. -/
def execSyswReg (f : Fields) (s : State) : Res :=
  begin_ (.syswReg f) f s fun c s => gate c s 0 fun s => systemOnly c s fun s =>
    match s.setSysReg c.sysA c.sysB with
    | some (s, st) => .next (s.answer c st)
    | none => .next (s.raise c { c.fault codeADDRBAD c.act with addr := c.sysA })

/-! ### Tables (R382, R383) -/

/-- Bytes and entries of a table. -/
def tableSize (t : Nat) : Option (Nat × Nat) :=
  match t with
  | 1 => some (16, 64)
  | 2 => some (8, 2048)
  | 3 => some (64, 256)
  | 4 => some (64, 4096)
  | 5 => some (16, 64)
  | 6 => some (16, 4096)
  | 7 => some (2, 1024)
  | _ => none

/-- The table number and the index of A; none where there is no such entry. -/
def tableEntry (a : Nat) : Option (Nat × Nat × Nat) :=
  let t := bits a 39 32
  let i := bits a 15 0
  match tableSize t with
  | some (size, n) => if i < n then some (t, i, size) else none
  | none => none

def State.region (s : State) (i : Nat) : BitVec 128 := (assoc i s.regions).getD 0

/-- The bytes of an entry. -/
def State.entryBytes (s : State) (t i : Nat) : List Byte :=
  match t with
  | 1 => leBytes 16 (nth s.patterns i 0).toNat
  | 2 => leBytes 8 (nth (s.core (i / 4)).pins (i % 4) 0).toNat
  | 3 => leBytes 64 (s.ctxEntry i)
  | 4 => leBytes 64 (s.queueEntry i)
  | 5 => leBytes 16 (nth s.collGroups i 0).toNat
  | 6 => leBytes 16 (s.region i).toNat
  | _ => leBytes 2 (nth (s.die (i / 512)).sliceMap (i % 512) 0).toNat

/-- A page pinned into a step: loaded from memory; or written back from it (R67). -/
def State.loadPin (s : State) (core : Nat) (p : Nat) : State :=
  let pa := bits p 39 16 * 65536
  let s := s.mergeLines ((s.mire.filter fun e => e.line / 512 == pa / 65536).map (·.line))
  let c := s.core core
  let s := s.setCore core { c with l1 := [] }
  s.poke (keyed (sramKey core (bits p 3 0 * 65536)) (s.bytesAt pa 65536))

def State.storePin (s : State) (core : Nat) (p : Nat) : State :=
  s.tableWrite (bits p 39 16 * 65536) (s.bytesAt (sramKey core (bits p 3 0 * 65536)) 65536)

/-- Steps of a core that hold shared memory of a resident team. -/
def State.sharedSteps (s : State) (core : Nat) : List Nat :=
  s.teams.flatMap fun t => (if t.core == core then t.steps else []) ++ (if t.launch.twin && t.core + 1 == core then t.steps2 else [])

/-- A pin entry that R66 refuses, whatever its V; one whose V is 1 is refused too where its FRAME names no memory (log 62). -/
def State.pinRefused (s : State) (core k : Nat) (p : Nat) : Bool :=
  let others := (List.range 4).filterMap fun j => if j = k then none else
    let q := nth (s.core core).pins j 0
    if q.getLsbD 63 then some q.toNat else none
  bits p 62 40 != 0 || bits p 15 4 != 0 || bits p 3 0 == 15 || (s.sharedSteps core).contains (bits p 3 0) ||
    (bit p 63 && decide (hbmEnd ≤ bits p 39 16 * 65536)) ||
    others.any fun q => bits q 3 0 == bits p 3 0 || bits q 39 16 == bits p 39 16

/-- The first byte of each sector of the page of a pin entry. -/
def pinSectors (p : Nat) : List Nat := (List.range 1024).map fun k => bits p 39 16 * 65536 + 64 * k

/-- The pages that a write of a pin entry moves: the one that goes back to memory, and the one that is loaded (R67). -/
def State.pinMoves (s : State) (core k p : Nat) : Option Nat × Option Nat :=
  let old := (nth (s.core core).pins k 0).toNat
  if old = p then (none, none) else (if bit old 63 then some old else none, if bit p 63 then some p else none)

/-- What a write of a pin entry waits for at the two pages (R52, R106). -/
def State.pinStall (s : State) (core k p : Nat) : Option Resource :=
  let m := s.pinMoves core k p
  (m.1.bind fun q => s.deviceStall true (pinSectors q)) <|> m.2.bind fun q => s.deviceStall false (pinSectors q)

/-- The machine check that the transfer of a page from L2 into a step meets, at a sector or at the merge of an open Mire entry
(R57, R58). -/
def State.pinCheck (s : State) (core k p : Nat) : Option (Nat × Nat) :=
  (s.pinMoves core k p).2.bind fun q =>
    s.mergeCheck (linesOf (pinSectors q)) <|> (pinSectors q).findSome? fun a => (s.sectorCheck (a / 64)).map (·, a)

/-- A pin entry written: the page it held goes back to memory, the page it names is loaded. -/
def State.writePin (s : State) (core k : Nat) (p : Nat) : State :=
  let old := (nth (s.core core).pins k 0).toNat
  let same := bit old 63 && bit p 63 && old == p
  let s := if bit old 63 && !same then s.storePin core old else s
  let c := s.core core
  let s := s.setCore core { c with pins := put c.pins k (BitVec.ofNat 64 p) }
  if bit p 63 && !same then s.loadPin core p else s

/-- A context entry that R337 refuses: a reserved field of it or of its translation entry, an address that is not aligned, or an
FQLOG out of range where it is valid (R9, R38, R383). -/
def contextRefused (e : Nat) : Bool :=
  bits e 511 320 != 0 || bits e 198 192 != 0 || bits e 133 128 != 0 || bits e 63 40 != 0 || bits e 11 1 != 0 ||
    (bit e 0 && (decide (bits e 69 64 < 6) || decide (20 < bits e 69 64)))

/-- A context entry written; a context that loses its V ends, and its Mire entries merge (R54). -/
def State.writeContext (s : State) (i e : Nat) : State :=
  let s := if s.ctxValid i && !bit e 0 then s.endContextMire i else s
  s.tableWrite (s.sys.ctxtab.toNat % 2 ^ 40 + 64 * i) (leBytes 64 e)

/-- A queue entry that breaks the ranges of R338. -/
def queueRefused (e : Nat) : Bool :=
  let slice := bits e 63 32
  bits e 335 64 != 0 || bits e 23 12 != 0 || bits e 7 5 != 0 || entryRING e % 64 != 0 || entryDBADDR e % 8 != 0 ||
    (entryV e && (decide (entryLOG2N e < 6) || decide (16 < entryLOG2N e))) ||
    (slice != 0 && (decide (slice < 10) || decide (10000 < slice)))

/-- A queue entry written; RDPTR is read-only and stays (R8, R338). -/
def State.writeQueue (s : State) (i e : Nat) : State :=
  let rd := entryRDPTR (s.queueEntry i)
  (s.tableWrite (s.queueKey i) (leBytes 64 (setBits e 511 448 rd))).setQueue i (s.queue i)

/-- A collective group that R302 refuses. -/
def groupRefused (e : Nat) : Bool := bits e 63 44 != 0 || bits e 31 13 != 0 || decide (bits e 12 1 < bits e 43 32)

/-- A mailbox region that breaks the layout of R295. -/
def regionRefused (e : Nat) : Bool := bits e 67 48 != 0 || bits e 15 3 != 0 || (bit e 0 && bits e 99 68 == 0)

/-- An entry written whole, with its status (R383). -/
def State.writeEntry (s : State) (t i e : Nat) : State × Nat :=
  match t with
  | 1 => if bits e 127 104 != 0 || bits e 31 3 != 0 || bits e 2 1 == 3 then (s, 1)
    else ({ s with patterns := put s.patterns i (BitVec.ofNat 128 e) }, 0)
  | 2 => if s.pinRefused (i / 4) (i % 4) e then (s, 1) else (s.writePin (i / 4) (i % 4) e, 0)
  | 3 => if contextRefused e then (s, 1) else (s.writeContext i e, 0)
  | 4 => if queueRefused e then (s, 1) else (s.writeQueue i e, 0)
  | 5 => if groupRefused e then (s, 1) else ({ s with collGroups := put s.collGroups i (BitVec.ofNat 128 e) }, 0)
  | 6 => if regionRefused e then (s, 1) else ({ s with regions := assocSet i (BitVec.ofNat 128 e) s.regions }, 0)
  | _ => (s, 1)

/-- An access of the designated thread at an address of the instruction in hand. -/
def Ctx.reachOne (c : Ctx) (s : State) (a : W64) (n : Nat) (acc : Access) (k : List Spot → State → Res) : Res :=
  match s.pieceStall c.who.team c.who.group with
  | some r => .next (s.block c.who (.resource r))
  | none => match (s.settlePieces c.who.team c.who.group).reach c.g.core c.t.ctx a n acc with
  | (s, .error (.xlate va)) => .next (s.raiseXlate c c.act (if acc == .write then 1 else 0) va)
  | (s, .error (.check code key)) => .next (s.machineCheck c.g.core c.t.ctx code key)
  | (s, .error (.busy r)) => .next (s.block c.who (.resource r))
  | (s, .error (.prog code aux)) =>
    .next (s.raise c { c.fault code c.act with addr := a.toNat, aux := aux, laneAddr := Vector.replicate 32 a })
  | (s, .error .fenced) => .next (s.raise c { c.fault codeTILEFENCED c.act with addr := a.toNat, laneAddr := Vector.replicate 32 a })
  | (s, .ok l) => match s.accessStall c (acc == .write) l with
    | some r => .next (s.block c.who (.resource r))
    | none => k l s

/-- SYSR.TBL: an entry is copied to the address in B, and D receives its size. -/
def execSysrTbl (f : Fields) (s : State) : Res :=
  attempt (.sysrTbl f) f s fun c s => gateLate c s 0 fun s => systemOnly c s fun s =>
    match tableEntry c.sysA with
    | none => .next (s.raise c { c.fault codeADDRBAD c.act with addr := c.sysA })
    | some (t, i, n) => c.reachOne s c.sysB n .write fun l s => checked c s (s.writeCheck l) fun s =>
      let bs := s.entryBytes t i
      let s := (s.issued c).writeSpots c.t.ctx l bs
      .next ((s.modGroup c.who.team c.who.group fun g => g.await (s.servedBy l)).answer c n)

/-- What the write of an entry of a table of physical memory, or of a pin, waits for. -/
def State.entryStall (s : State) (t i e : Nat) : Option Resource :=
  let at_ := fun (key : Nat) => s.deviceStall true ((List.range 64).map (key + ·))
  match t with
  | 2 => s.pinStall (i / 4) (i % 4) e
  | 3 => at_ (s.sys.ctxtab.toNat % 2 ^ 40 + 64 * i)
  | 4 => at_ (s.queueKey i)
  | _ => none

/-- The machine check that the write of an entry meets. -/
def State.entryCheck (s : State) (t i e : Nat) : Option (Nat × Nat) :=
  if t = 2 && !s.pinRefused (i / 4) (i % 4) e then s.pinCheck (i / 4) (i % 4) e else none

/-- SYSW.TBL: an entry is written whole from the image at the address in B. -/
def execSyswTbl (f : Fields) (s : State) : Res :=
  attempt (.syswTbl f) f s fun c s => gateLate c s 0 fun s => systemOnly c s fun s =>
    match tableEntry c.sysA with
    | none => .next ((s.issued c).answer c 2)
    | some (t, i, n) => c.reachOne s c.sysB n .read fun l s =>
      checked c s (s.readCheck l) fun s =>
        let s := s.beforeRead c.t.ctx c.g.core false l
        let e := leNat (s.readSpots l)
        match s.entryStall t i e with
        | some r => .next (s.block c.who (.resource r))
        | none => checked c s (s.entryCheck t i e) fun s =>
          let r := (s.issued c).writeEntry t i e
          .next (r.1.answer c r.2)

/-! ### TLBI, REPLAY (R383) -/

/-- The cached translations that an invalidation leaves. -/
def keepTlb (a : Nat) (va : Nat) (t : TlbEntry) : Bool :=
  !(bit a 9 || (t.ctx == a % 256 && (bit a 8 || va / 2 ^ t.size == t.page / 2 ^ t.size)))

/-- Every TLB of the package is invalidated. -/
def State.invalidate (s : State) (a va : Nat) : State :=
  let cut := fun (c : Core) => { c with tlb1 := c.tlb1.filter (keepTlb a va), tlb2 := c.tlb2.filter (keepTlb a va) }
  let cutDie := fun (d : Die) => { d with tlb := d.tlb.filter (keepTlb a va) }
  { s with cores := s.cores.map fun c => (c.1, cut c.2), dies := s.dies.map cutDie }

/-- SYSW.TLBI. -/
def execSyswTlbi (f : Fields) (s : State) : Res :=
  begin_ (.syswTlbi f) f s fun c s => gate c s 0 fun s => systemOnly c s fun s =>
    .next ((s.invalidate c.sysA (c.sysB.toNat % 2 ^ 48)).answer c 0)

/-- A split that waits for a page of a context is ready to try again. -/
def Split.replay (ctx : Nat) (x : Split) : Split :=
  match x.wait with
  | .xlate c _ => if c = ctx then { x with wait := .ready } else x
  | _ => x

/-- A wait for a page of another context stays. -/
def keepPage (ctx : Nat) (p : Option (Nat × Nat)) : Option (Nat × Nat) := if p.map Prod.fst == some ctx then none else p

/-- Every agent that waits for a page of a context retries (R45). -/
def State.replay (s : State) (ctx : Nat) : State :=
  let group := fun (g : Group) => { g with
    splits := g.splits.map fun x => x.map (Split.replay ctx)
    handler := g.handler.map fun h => { h with frozen := h.frozen.map fun x => x.map (Split.replay ctx) } }
  let node := fun (n : Node) => { n with xlate := keepPage ctx n.xlate }
  let queue := fun (q : Queue) => { q with xlate := keepPage ctx q.xlate }
  { s with
    xlates := s.xlates.filter fun x => x.1 != ctx
    teams := s.teams.map fun t => { t with xlate := keepPage ctx t.xlate, groups := t.groups.map group }
    commands := s.commands.map fun c => { c with xlate := keepPage ctx c.xlate }
    queues := s.queues.map fun q => (q.1, queue q.2)
    graphs := s.graphs.map fun g => { g with nodes := g.nodes.map node } }

/-- SYSW.REPLAY. -/
def execSyswReplay (f : Fields) (s : State) : Res :=
  begin_ (.syswReplay f) f s fun c s => gate c s 0 fun s => systemOnly c s fun s =>
    .next (if c.sysA < 256 then (s.replay c.sysA).answer c 0 else s.answer c 2)

/-! ### CTL (R383) -/

/-- RESUME: a halted team of a context runs on. -/
def State.resumeHalt (s : State) (b : Nat) : State × Nat :=
  match s.teams.find? fun t => t.ctx == bits b 39 32 && t.lin == bits b 31 0 && t.halt.isSome with
  | some t => (s.endHalt t.id none, 0)
  | none => (s, 3)

/-- READMIT: an appealing tile of a die with no resident team (R374). -/
def State.readmitTile (s : State) (b : Nat) : State × Nat :=
  if 512 ≤ b then (s, 2)
  else if (s.tileHealth b).status != .appealing || s.teams.any fun t => t.onDie (dieOf b) then (s, 3)
  else (s.readmit b, 0)

/-- CANCEL: a command that has not ended. -/
def State.cancel (s : State) (b : Nat) : State × Nat :=
  if s.nextSeq ≤ b then (s, 2)
  else match s.job? b with
    | some j => if j.ended then (s, 3) else (s.cancelJob b, 0)
    | none => (s, 3)

/-- FENCE a tile that is not fenced yet. -/
def State.fenceNow (s : State) (b : Nat) : State × Nat :=
  if 512 ≤ b then (s, 2) else if s.fenced b then (s, 3) else (s.fenceTile b, 0)

/-- PLACE: a save area of another package's team joins the saved teams (R368). -/
def State.placeArea (s : State) (b : Nat) : State × Nat :=
  let first := s.sys.savebase.toNat * 65536
  let bytes := s.load b 4
  if b % 65536 != 0 || b < first || first + s.sys.savesize.toNat * 65536 ≤ b || hbmEnd ≤ b then (s, 1)
  else if s.saved.any fun x => x.area ≤ b && b < x.area + x.units * 65536 then (s, 3)
  else
    let head := s.bytesAt b 64
    let seat : Seat := { core := 0, slot := 0, slot2 := 0, steps := [], steps2 := [], tiles := [], tiles2 := [], quarters := [] }
    let shell := slotLaunch.startTeam seat s.nextTeam
    let seq := fieldAt head 9 7
    let ctx := fieldAt head 8 1
    let t := { shell with groups := [], seq := seq, ctx := ctx, lin := fieldAt head 16 4, localSlot := fieldAt head 20 4 }
    ({ s with
        saved := s.saved ++ [{ id := s.nextTeam, area := b, units := max 1 (areaUnits bytes), seq := seq, ctx := ctx, team := t }]
        nextTeam := s.nextTeam + 1 }, 0)

/-- An action of SYSW.CTL with its operand, and its status. -/
def State.control (s : State) (action : Nat) (b : Nat) : State × Nat :=
  match action with
  | 1 => s.resumeHalt b
  | 2 => s.readmitTile b
  | 3 => s.cancel b
  | 4 => s.fenceNow b
  | 5 => if b < 256 then (s.clearTouch b, 0) else (s, 2)
  | 6 => s.placeArea b
  | 7 => if b < 256 then (s.abortContext b, 0) else (s, 2)
  | _ => (s, 2)

/-- A SYSW.CTL form: D receives the status of its acceptance, and the action follows. -/
def controlOp (i : Instr) (f : Fields) (s : State) : Res :=
  begin_ i f s fun c s => gate c s 0 fun s => systemOnly c s fun s =>
    let st := (s.control (c.sysA % 256) c.sysB.toNat).2
    .next ((s.answer c st).control (c.sysA % 256) c.sysB.toNat).1

/-- SYSW.CTL RESUME, and every action in an S register (log 12). -/
def execSyswCtlResume (f : Fields) (s : State) : Res := controlOp (.syswCtlResume f) f s
/-- SYSW.CTL READMIT. -/
def execSyswCtlReadmit (f : Fields) (s : State) : Res := controlOp (.syswCtlReadmit f) f s
/-- SYSW.CTL CANCEL. -/
def execSyswCtlCancel (f : Fields) (s : State) : Res := controlOp (.syswCtlCancel f) f s
/-- SYSW.CTL FENCE. -/
def execSyswCtlFence (f : Fields) (s : State) : Res := controlOp (.syswCtlFence f) f s
/-- SYSW.CTL CKPT. -/
def execSyswCtlCkpt (f : Fields) (s : State) : Res := controlOp (.syswCtlCkpt f) f s
/-- SYSW.CTL PLACE. -/
def execSyswCtlPlace (f : Fields) (s : State) : Res := controlOp (.syswCtlPlace f) f s
/-- SYSW.CTL ABORT. -/
def execSyswCtlAbort (f : Fields) (s : State) : Res := controlOp (.syswCtlAbort f) f s

/-! ### PREEMPT (R384) -/

/-- A team at PREEMPT. One that has just been saved at this instruction receives 1, on its resume. Where a displacement is pending it waits
here until it is saved, and so does the team of a FORCE that the pool has room for; otherwise every member receives 0, and a FORCE
without room counts in SAVEFULL (R384; log 43). -/
def preemptParty (force : Bool) (p : Party) (s : State) : Res :=
  if p.idle then .next ((s.issuedParty p).passParty p)
  else gateParty p s (fun m => m.g) fun s =>
    let id := p.lead.who.team
    let give := fun (x : Nat) =>
      let s := (s.issuedParty p).modTeam id fun t => { t with offered := none }
      (p.members.foldl (fun s m => s.modGroup m.who.team m.who.group fun g =>
        g.putGroup p.lead.f.d false { w := [BitVec.ofNat 32 x] }) s).passParty p
    let rested := s.settleTeam id
    let fits := (rested.team? id).any fun t => (runOf rested.freeUnits (rested.teamUnits t)).isSome
    if p.lead.t.offered == some p.lead.sp.pc then .next (give 1)
    else if p.lead.t.preempt then .next s
    else if !force then .next (give 0)
    else if fits then .next (s.modTeam id fun t => { t with preempt := true })
    else .next (give 0).countSaveFull

/-- PREEMPT.OFFER. -/
def execPreemptOffer (f : Fields) (s : State) : Res := meet (.preemptOffer f) f s (preemptParty false)
/-- PREEMPT.FORCE. -/
def execPreemptForce (f : Fields) (s : State) : Res := meet (.preemptForce f) f s (preemptParty true)

/-! ### FLUSHI, TILEQ (R385, R386) -/

/-- An instruction that waits for the acknowledgement of the group's stores and then changes the core's instruction
cache (R385). -/
def flushOp (i : Instr) (f : Fields) (s : State) (bad : Ctx → Bool) (gone : Ctx → Nat × Nat × InsWord → Bool) : Res :=
  attempt i f s fun c s => gateLate c s 0 fun s =>
    if bad c then .next (s.raise c ((c.fault codeADDRBAD c.act).atAddr fun _ => (c.globalAddr c.designated).toNat))
    else if !s.storesDone c.who.team c.g then .next (s.block c.who (.resource .stores))
    else
      let s := s.issued c
      let k := s.core c.g.core
      .next ((s.setCore c.g.core { k with icache := k.icache.filter fun e => !gone c e }).advance c.who)

/-- FLUSHI.ALL. -/
def execFlushiAll (f : Fields) (s : State) : Res :=
  flushOp (.flushiAll f) f s (fun _ => false) fun c e => e.1 == c.t.ctx

/-- The 128-byte line of an address of the package. -/
def Ctx.flushLine (c : Ctx) (s : State) : Option Nat :=
  match s.address (c.globalAddr c.designated) with
  | .here va => some (va / 128)
  | _ => none

/-- FLUSHI.LINE: every instruction with a byte in the line. -/
def execFlushiLine (f : Fields) (s : State) : Res :=
  flushOp (.flushiLine f) f s (fun c => (c.flushLine s).isNone) fun c e => e.1 == c.t.ctx && match c.flushLine s with
    | some l => e.2.1 / 128 == l || (e.2.1 + 11) / 128 == l
    | none => false

/-- The state of a tile (R386). -/
def State.tileWord (s : State) (t : Nat) : Nat :=
  let h := s.tileHealth t
  let state := match h.status with
    | .live => 0
    | .testing => 1
    | .appealing => 2
    | .retired => 3
  let last := h.fences.headD 0
  state + min (s.recentFences h) 3 * 16 + bits last 63 16 * 65536

/-- TILEQ. -/
def execTileq (f : Fields) (s : State) : Res :=
  begin_ (.tileq f) f s fun c s => gate c s 0 fun s =>
    if 0x1FF < c.sysA then .next (s.raise c (c.fault codeADDRBAD c.act)) else .next (s.answer c (s.tileWord c.sysA))

/-! ### TRAP_ENTRY, RENDEZVOUS_COMPLETE (R135, R316, R317, R359) -/

/-- TRAP_ENTRY: a group whose fault waits for a trap-store place or for a windowed result enters its handler. -/
def execTrapEntry (team group : Nat) (s : State) : Res := .next (s.tryTrap team group)

/-- What the instruction of a rendezvous does. -/
def partyBody (i : Instr) (p : Party) (s : State) : Res :=
  match i with
  | .vote _ => voteParty p s
  | .elect _ => electParty p s
  | .sync _ => syncParty p s
  | .evpop _ => popParty p s
  | .evwait _ => evwaitParty p s
  | .gslot _ => gslotParty p s
  | .preemptOffer _ => preemptParty false p s
  | .preemptForce _ => preemptParty true p s
  | .mleaseRd _ => leaseParty false p s
  | .mleaseRel _ => leaseParty true p s
  | _ => enginePass p s

/-- RENDEZVOUS_COMPLETE: every member of a rendezvous has arrived, so it executes; members that stand at different ones
are suspended (R316, R317). -/
def execRendezvousComplete (w : Who) (s : State) : Res :=
  match s.team? w.team with
  | none => .next s
  | some t =>
    if t.preempt then .next s
    else match scopeMismatch t with
      | [] => match s.party? w.team w.group with
        | some (i, p) => partyBody i p s
        | none => .next (mergeAll 400 s w.team w.group)
      | gs => .next (s.raiseScopeMismatch w.team gs)

end Sys2Proof.Machine
end

