-- ==== Sys2Proof/Machine/HostPort.lean ====
section
/-! DEFINITION. The host port and the mailbox (spec/12_links_and_host.md R293 to R297), management and attestation
(spec/15_traps_and_reliability.md R387, R388). -/

namespace Sys2Proof.Machine

/-! ### Frames and queue pairs (R293) -/

/-- The host port is open: bring-up has ended and the device is not in recovery (R387). -/
def State.hostOpen (s : State) : Bool := s.booted && !s.recovery

/-- A frame of the data VLAN at the open port. -/
def State.takesData (s : State) (fr : Frame) : Bool := s.hostOpen && fr.vlan == s.vlanData

/-- A frame of the management VLAN, which answers in recovery too (R387). -/
def State.takesMgmt (s : State) (fr : Frame) : Bool := (s.booted || s.recovery) && fr.vlan == s.vlanMgmt

def State.emit (s : State) (o : Output) : State := { s with out := s.out ++ [o] }
def State.qp (s : State) (n : Nat) : QueuePair := nth s.qps n QueuePair.fresh
def State.setQp (s : State) (n : Nat) (q : QueuePair) : State := { s with qps := put s.qps n q }

/-- A queue pair that carries traffic. -/
def QueuePair.up (q : QueuePair) : Bool := q.open_ && !q.error

/-- The rate of a new queue pair in Mbit/s: that of the port (R293). -/
def fullRate : Nat := 1600000

/-- An ECN mark is answered with a CNP (R293). -/
def State.echoEcn (s : State) (fr : Frame) (qp : Nat) : State := if fr.ecn then s.emit (.cnp qp) else s

/-- The path MTUs that the port supports (R293). -/
def pathMtus : List Nat := [1024, 2048, 4096]

/-- CONNECTION_REQUEST: RC takes a queue pair that is free or in error, up to 64; every other transport is refused, and so is a
path MTU that the port does not support (log 46). -/
def execConnectionRequest (fr : Frame) (transport : Connection) (s : State) : Res :=
  .next (if !s.takesData fr then s
    else if !pathMtus.contains transport.mtu then s.emit .connectionRefused
    else match transport.transport with
      | .rc => match (List.range 64).find? fun n => !(s.qp n).up with
        | some n => (s.setQp n { QueuePair.fresh with open_ := true, rate := fullRate, mtu := transport.mtu }).emit (.connectionAccepted n)
        | none => s.emit .connectionRefused
      | _ => s.emit .connectionRefused)

/-- UNSUPPORTED_RDMA_OPCODE: NAK Invalid Request. -/
def execUnsupportedRdmaOpcode (fr : Frame) (qp : Nat) (_ : RdmaOther) (s : State) : Res :=
  .next (if s.takesData fr && (s.qp qp).up then (s.echoEcn fr qp).emit (.nakInvalidRequest qp) else s)

/-- CNP: the port lowers its rate by an amount that the manual leaves open (log 9). -/
def execCnp (fr : Frame) (qp : Nat) (s : State) : Res :=
  let q := s.qp qp
  .next (if s.takesData fr && q.up then s.setQp qp { q with rate := Config.loweredRate q.rate s.tick % max 1 q.rate } else s)

/-! ### The mailbox (R294 to R296) -/

/-- Fields of a mailbox region (R295). -/
def regionGen (e : Nat) : Nat := bits e 127 108
def regionCtx (e : Nat) : Nat := bits e 107 100
def regionLen (e : Nat) : Nat := bits e 99 68 * 65536
def regionBase (e : Nat) : Nat := bits e 47 16 * 65536

/-- The region that an rkey names permits an access of n bytes at an offset (R295, R296). -/
def regionTakes (e : Nat) (rkey : W32) (off n : Nat) (write : Bool) : Bool :=
  bit e 0 && regionGen e == bits rkey.toNat 31 12 && decide (off + n ≤ regionLen e) && bit e (if write then 2 else 1)

/-- What the checks of R296 come to: the places of the bytes, a refusal, a refusal for a page that is not mapped, a machine check, or
a wait. -/
inductive Mailbox where
  | ok (s : State) (l : List Spot)
  | refused
  | xlate (ctx va : Nat)
  | check (code key : Nat)
  | wait

/-- Every check of R296 but for the region's own. -/
def State.mailboxSpots (s : State) (e off n : Nat) (write : Bool) : Mailbox :=
  let ctx := regionCtx e
  match s.spots (s.walkerTile 0) ctx (regionBase e + off) n (if write then .write else .read) with
  | (_, .error (.xlate va)) => .xlate ctx va
  | (_, .error (.prog _ _)) => .refused
  | (_, .error (.check code key)) => .check code key
  | (_, .error (.busy _)) => .wait
  | (_, .error .fenced) => .refused
  | (s, .ok l) =>
    if l.any fun p => p.home == 1 || p.window.isSome then .refused
    else if (s.deviceStall write (l.map (·.key))).isSome then .wait
    else match if write then s.writeCheck l else s.readCheck l with
      | some (code, key) => .check code key
      | none => .ok s l

/-- A refusal by NAK Remote Access Error; a page that is not mapped is also reported (R45, R296). -/
def State.refuseXlate (s : State) (qp ctx va aux : Nat) : State :=
  (s.postXlate ctx { addr := va, aux := aux }).emit (.nakRemoteAccess qp)

/-- A machine check at the host port: the pair goes into its error state, and the context of the region gets a record (R297). -/
def State.hostCheck (s : State) (qp ctx code key : Nat) : State :=
  let s := s.post ctx (s.looseCheck ctx 0 code (key / 64 * 64))
  (s.setQp qp { s.qp qp with error := true, message := none }).emit (.nakRemoteOperational qp)

/-- An RDMA operation on the mailbox: `whole` bytes at `off` are checked, and what the packet does follows. One that must wait
changes nothing: it stays the next event from outside (R52, R106, R287). -/
def mailboxOp (fr : Frame) (qp : Nat) (rkey : W32) (off whole : Nat) (write : Bool) (s : State)
    (k : Nat → List Spot → State → State) : State :=
  let e := (s.region (rkey.toNat % 4096)).toNat
  let ecn := fun (s : State) => s.echoEcn fr qp
  let closed := fun (s : State) => s.setQp qp { s.qp qp with message := none }
  if !regionTakes e rkey off whole write then (closed (ecn s)).emit (.nakRemoteAccess qp)
  else match s.mailboxSpots e off whole write with
    | .refused => (closed (ecn s)).emit (.nakRemoteAccess qp)
    | .xlate ctx va => (closed (ecn s)).refuseXlate qp ctx va (if write then 4 else 5)
    | .check code key => (ecn s).hostCheck qp (regionCtx e) code key
    | .wait => s
    | .ok s l => k (regionCtx e) l (ecn s)

/-- The bytes of a packet reach memory, with their check values, but for those that the rest of the message keeps; the last is
acknowledged (R56, R287, R296). -/
def State.mailboxWrite (s : State) (ctx qp : Nat) (l : List Spot) (data : List Byte) (rest : Option Underway) : State :=
  let n := data.length - ((rest.map (·.tail)).getD []).length
  let s := (s.writeSpots ctx (l.take n) (data.take n)).setQp qp { s.qp qp with message := rest }
  if rest.isNone then s.emit (.rdmaAck qp) else s

/-- A packet keeps the order of its message and the path MTU: a first or middle packet is full, a last one goes on where the message
stands and ends it (R293; log 46). -/
def QueuePair.inOrder (q : QueuePair) (seg : Segment) (n : Nat) : Bool :=
  match seg, q.message with
  | .only, none => decide (n ≤ q.mtu)
  | .first len, none => n == q.mtu && decide (n < len)
  | .middle, some m => n == q.mtu && decide (n < m.left)
  | .last, some m => decide (n ≤ q.mtu) && n == m.left
  | _, _ => false

/-- The bytes in hand of a message with a packet: what the last packet kept, then the packet's own. -/
def QueuePair.inHand (q : QueuePair) (data : List Byte) : List Byte := ((q.message.map (·.tail)).getD []) ++ data

/-- The bytes that a packet keeps for the next: those of a block of 16, aligned in memory, that the message goes on to fill (R287). A
region is aligned by 65,536, so that an offset's place in its block is the address's. `off`: the offset of the first byte in hand. -/
def keptBytes (off : Nat) (hand : List Byte) : List Byte :=
  let end_ := off + hand.length
  hand.drop (max off (end_ / 16 * 16) - off)

/-- What is left of a message after a packet. `off`: the offset of the first byte in hand. -/
def QueuePair.after (q : QueuePair) (seg : Segment) (rkey : W32) (off : Nat) (data : List Byte) : Option Underway :=
  let tail := keptBytes off (q.inHand data)
  match seg, q.message with
  | .first len, _ => some { rkey := rkey, next := off + data.length, left := len - data.length, tail := tail }
  | .middle, some m => some { m with next := m.next + data.length, left := m.left - data.length, tail := tail }
  | _, _ => none

/-- The rkey, the offset and the bytes that a packet's check covers: those of its message that memory has not taken. -/
def QueuePair.covers (q : QueuePair) (seg : Segment) (rkey : W32) (off n : Nat) : W32 × Nat × Nat :=
  match q.message, seg with
  | some m, _ => (m.rkey, m.next - m.tail.length, m.left + m.tail.length)
  | none, .first len => (rkey, off, len)
  | none, _ => (rkey, off, n)

/-- RDMA_WRITE: one packet of a message. The first, or only, packet names the region and the offset, and the whole message is
checked with it; each packet's bytes reach memory in arrival order (R287, R293, R296). -/
def execRdmaWrite (fr : Frame) (qp : Nat) (rkey : W32) (off : Nat) (data : Packet) (s : State) : Res :=
  let q := s.qp qp
  let seg := data.seg
  let data := data.bytes
  .next (if !s.takesData fr || !q.up then s
    else if !q.inOrder seg data.length then
      (s.setQp qp { q with message := none }).emit (.nakInvalidRequest qp)
    else
      let m := q.covers seg rkey off data.length
      mailboxOp fr qp m.1 m.2.1 m.2.2 true s fun ctx l s =>
        s.mailboxWrite ctx qp l (q.inHand data) (q.after seg rkey m.2.1 data))

/-- RDMA_READ: the region's bytes in packets of the path MTU, but for a sector that fails its check on the way out (R57, R293, R296,
R297). -/
def execRdmaRead (fr : Frame) (qp : Nat) (rkey : W32) (off len : Nat) (s : State) : Res :=
  .next (if !s.takesData fr || !(s.qp qp).up then s
    else mailboxOp fr qp rkey off len false s fun ctx l s =>
      let s := s.beforeRead ctx 0 false l
      let mtu := (s.qp qp).mtu
      (List.range (max 1 (ceilDiv len mtu))).foldl (fun s k => s.emit (.rdmaData qp ((s.readSpots l).drop (mtu * k) |>.take mtu))) s)

/-- An RDMA operation waits for an owned line or a held granule (R52, R106). -/
def State.mailboxWaits (s : State) (rkey : W32) (off n : Nat) (write : Bool) : Bool :=
  let e := (s.region (rkey.toNat % 4096)).toNat
  regionTakes e rkey off n write && match s.mailboxSpots e off n write with
    | .wait => true
    | _ => false

/-- A packet of the host port that cannot act yet. -/
def State.packetWaits (s : State) (i : Instr) : Bool :=
  match i with
  | .rdmaWrite fr qp rkey off ⟨seg, data⟩ =>
    let m := (s.qp qp).covers seg rkey off data.length
    s.takesData fr && (s.qp qp).up && (s.qp qp).inOrder seg data.length && s.mailboxWaits m.1 m.2.1 m.2.2 true
  | .rdmaRead fr qp rkey off len => s.takesData fr && (s.qp qp).up && s.mailboxWaits rkey off len false
  | _ => false

/-! ### Management (R294, R387) -/

/-- MANAGEMENT_REQUEST: context 0, queue 0 or a mailbox region is written; what the table's own rules refuse is refused, and so
is every write in recovery. -/
def execManagementRequest (fr : Frame) (req : MgmtReq) (s : State) : Res :=
  .next (if !s.takesMgmt fr then s
    else if s.recovery then s.emit .managementRefused
    else
      let done := fun (r : State × Nat) => r.1.emit (if r.2 = 0 then .managementDone else .managementRefused)
      match req with
      | .context0 image => done (s.writeEntry 3 0 image.toNat)
      | .queue0 image => done (s.writeEntry 4 0 image.toNat)
      | .region index image => done (s.writeEntry 6 index.val image.toNat))

/-! ### Attestation (R388) -/

/-- The addresses of the system registers, rising (R381). -/
def sysRegAddrs : List Nat :=
  ((List.range 8).map fun k => 8 * k) ++ ((List.range 12).map fun k => 0x0100 + 8 * k) ++ ((List.range 256).map fun c => 0x0800 + 8 * c) ++
    ((List.range 512).map fun c => 0x1000 + 8 * c) ++ ((List.range 8).map fun w => 0x3000 + 8 * w) ++
    ((List.range 1024).map fun i => 0x4000 + 8 * i) ++ ((List.range 256).map fun c => 0x6000 + 8 * c)

/-- A map of the tiles, one bit each. -/
def tileMap (f : Nat → Bool) : List Byte := packBits ((List.range 512).map f)

/-- What the digest of bytes 360 to 423 covers: the live map, the retirement map and the system registers (log 6). -/
def State.reportState (s : State) : List Byte :=
  tileMap (fun t => s.coreLive t) ++ tileMap (fun t => (s.tileHealth t).status == .retired) ++
    sysRegAddrs.flatMap fun a => leBytes 8 ((s.sysReg a).getD 0)

/-- Bytes 0 to 423 of the report. -/
def State.reportBody (s : State) (nonce : BitVec 256) : List Byte :=
  leBytes 4 1704 ++ leBytes 4 1 ++ leBytes 32 nonce.toNat ++ leBytes 64 (shake256 Config.identityKey).toNat ++
    ((List.range 4).flatMap fun k => leBytes 64 (Config.stageMeasurement k).toNat) ++ leBytes 64 (shake256 s.reportState).toNat

/-- ATTESTATION_REQUEST: the report with its signature. -/
def execAttestationRequest (fr : Frame) (nonce : BitVec 256) (s : State) : Res :=
  .next (if s.takesMgmt fr then
      let body := s.reportBody nonce
      s.emit (.attestation (body ++ leBytes 1280 (Config.falconSign body).toNat))
    else s)

end Sys2Proof.Machine
end

