-- ==== Sys2Proof/Machine/Fenlink.lean ====
section
/-! DEFINITION. Events of the Fenlink ports (spec/12_links_and_host.md R298 to R301; spec/15_traps_and_reliability.md R376) and the
sources of device time. -/

namespace Sys2Proof.Machine

/-! ### Device time (R301) -/

/-- Device time follows a source: it steps at the first lock after bring-up, though not backward, and slews afterwards (R301, R331;
log 2). -/
def State.follow (s : State) (now : Int) : State :=
  if s.locked then { s with slew := now - (s.time : Int) }
  else
    let time := max s.time now.toNat
    { s with time := time, slew := now - (time : Int), locked := true }

/-- How far device time is ahead of the master: half of what the way here seems longer than the way there, with the master's
receipt of the delay request (R301; log 2). -/
def Exchange.offset (x : Exchange) (received : Nat) : Int :=
  (((x.came : Int) - (x.sent : Int)) - ((received : Int) - (x.asked : Int))) / 2

/-- IEEE_1588_MESSAGE: the master on the management VLAN. A Sync is answered with a delay request, and its response ends the
exchange, by which device time is disciplined (R301). -/
def execIeee1588Message (fr : Frame) (msg : Timing) (s : State) : Res :=
  .next (if !(s.hostOpen && s.takesMgmt fr) then s
    else match msg, s.exchange with
      | .sync sent, _ =>
        { s with exchange := some { sent := sent.toNat, came := s.time, asked := s.time }, disciplined := true }.emit .delayRequest
      | .delayResponse received, some x =>
        { s with exchange := none, disciplined := true }.follow ((s.time : Int) - x.offset received.toNat)
      | .delayResponse _, none => s)

/-- The port whose neighbour has the least hop count, ties to the lower number. -/
def bestPort : List (Nat × Port) → Option (Nat × Nat)
  | [] => none
  | (n, p) :: rest => match p.hops, bestPort rest with
    | none, r => r
    | some h, none => some (n, h)
    | some h, some (m, k) => if h ≤ k then some (n, h) else some (m, k)

def State.timePort (s : State) : Option (Nat × Nat) := bestPort ((List.range 16).map fun n => (n, s.port n))

/-- The hop count that this package declares: 0 with a master of its own, otherwise one more than that of its source. -/
def State.ownHops (s : State) : Nat :=
  if s.disciplined then 0
  else match s.timePort with
    | some (_, h) => min (h + 1) 0xFFFF
    | none => 0xFFFF

/-- A gust flit of a neighbour at a port; how long it was on its way is open (log 2). -/
def State.gustFlit (s : State) (port sent hops : Nat) : State :=
  let s := s.setPort port { s.port port with hops := some hops }
  if !s.hostOpen || s.disciplined || s.timePort.map Prod.fst != some port then s
  else s.follow (sent + (Config.openWord s.tick port).toNat : Nat)

/-- FENLINK_GUST. -/
def execFenlinkGust (port : Nat) (sent : W64) (hops : Nat) (s : State) : Res :=
  .next (if (s.port port).lost || 16 ≤ port then s else s.gustFlit port sent.toNat (hops % 65536))

/-! ### Recovery of lost flits (R299) -/

/-- Answers of a port leave as far as its replay buffer takes them. -/
def Port.answering : Port → List (List Byte) → Port × List (List Byte)
  | p, [] => (p, [])
  | p, bs :: rest =>
    let r := p.sendSome none 0 (bs.length + 1) bs
    if r.2.isEmpty then r.1.answering rest else (r.1, r.2 :: rest)

/-- What a port owes its peer leaves, once acknowledgements have made room (R299). -/
def State.pump (s : State) (port : Nat) : State :=
  let p := s.port port
  if p.answers.isEmpty || p.lost then s
  else
    let r := p.answering p.answers
    s.sentFrom port { r.1 with answers := r.2 }

/-- The flits from the first that is not acknowledged are sent again. -/
def State.resend (s : State) (port : Nat) : State :=
  let p := s.port port
  if p.replay.isEmpty || p.retraining || p.lost then s
  else { s.setPort port { p with resends := p.resends + 1, since := s.time } with out := s.out ++ resent port p }

/-- A NAK names the last good sequence number. -/
def State.takeNak (s : State) (port : Nat) (ack : Nat) : State :=
  ((s.setPort port ((s.port port).acked ack s.time)).resend port).pump port

/-- NAK_RECEIVE. -/
def execNakReceive (port : Nat) (ack : BitVec 16) (s : State) : Res := .next (s.takeNak port ack.toNat)

/-- ACK_TIMEOUT: 2 µs without an acknowledgement. -/
def execAckTimeout (port : Nat) (s : State) : Res := .next (if (s.port port).since + 2000 ≤ s.time then s.resend port else s)

/-- A port begins to retrain: its tables are reset and what is not acknowledged is coded anew. -/
def State.beginRetrain (s : State) (port : Nat) : State :=
  let p := s.port port
  s.setPort port { p.retrained with retraining := true, since := s.time }

/-- A retrain has not succeeded within 10 ms. The commands with flits on the port end, the port leaves every route and is no
source of time, what its peers' commands own here is released, and the contexts are aborted (R52, R299, R301, R376). -/
def State.loseLink (s : State) (port : Nat) : State :=
  let p := s.port port
  if !p.retraining || p.lost || s.time < p.since + 10000000 then s
  else
    let ids := dedup (p.replay.filterMap (·.cmd))
    let hit := s.commands.filter fun c => ids.contains c.id
    let s := { s.setPort port { p with lost := true, retraining := false, replay := [], answers := [], hops := none } with
      peers := s.peers.filter fun x => x.port != port }
    let s := hit.foldl (fun (s : State) c => s.failCommand c codeLINKLOST 0 0) s
    s.abortContexts (dedup (hit.map (·.ctx)))

/-- RETRAIN: after eight consecutive resends of one sequence number; the peer is told. A retrain that has not succeeded within 10 ms
ends in LINKLOST (R299). -/
def execRetrain (port : Nat) (s : State) : Res :=
  let p := s.port port
  .next (if p.retraining then s.loseLink port
    else if p.resends < 8 || p.lost then s
    else (s.beginRetrain port).emit (.flit port (p.control 4 []).bytes))

/-- RETRAIN_COMPLETE: a retrain succeeds within 10 ms, and the flits go out again. -/
def execRetrainComplete (port : Nat) (s : State) : Res :=
  let p := s.port port
  .next (if !p.retraining || p.lost || p.since + 10000000 ≤ s.time then s
    else ({ s.setPort port { p with retraining := false, resends := 0, nakSent := false, since := s.time } with
            out := s.out ++ resent port p } : State).pump port)

/-- LINKLOST: a retrain has not succeeded within 10 ms (R299). -/
def execLinklost (port : Nat) (s : State) : Res := .next (s.loseLink port)

/-! ### Receiving (R298 to R300) -/

/-- A damaged flit or a gap: a NAK, once until the missing flit has come. -/
def State.sendNak (s : State) (port : Nat) : State :=
  let p := s.port port
  if p.nakSent then s else (s.setPort port { p with nakSent := true }).emit (.flit port (p.control 2 []).bytes)

/-- The record of a peer's access that meets a fault here, and no core is halted (R431; log 28). -/
def State.peerRecord (s : State) (ctx code addr : Nat) : State :=
  s.post ctx (if isSectorCheck code then s.looseCheck ctx 0 code addr else looseRecord 0 code addr code)

/-- Bytes of a destination of `len` bytes at `base` in each line of its window w: the lines of the window with the bytes that are to
come. -/
def State.peerLines (s : State) (ctx base len w : Nat) : List (Nat × Nat) :=
  let lo := base + w * windowBytes
  let hi := base + min len ((w + 1) * windowBytes)
  (List.range (ceilDiv (lo % 128 + (hi - lo)) 128)).filterMap fun k =>
    let at_ := lo / 128 * 128 + 128 * k
    (s.plainKey ctx at_).map fun key => (lineOf key, min (at_ + 128) hi - max at_ lo)

/-- A window of a peer's command. -/
def PeerWindow.is (x : PeerWindow) (port cmd w : Nat) : Bool := x.port == port && x.cmd == cmd && x.window == w

/-- The machine but for the windows of a peer's command. -/
def State.withoutPeer (s : State) (port cmd : Nat) : State := { s with peers := s.peers.filter fun x => !(x.port == port && x.cmd == cmd) }

/-- The first write to a window takes it for its command, once no other owns a line of it and no granule is held (R52, R288). -/
def State.takeWindow (s : State) (port cmd ctx base len w : Nat) : Option State :=
  if s.peers.any fun x => x.is port cmd w then some s
  else
    let ls := s.peerLines ctx base len w
    let keys := ls.flatMap fun x => [x.1 * 128, x.1 * 128 + 64]
    if ((s.withoutPeer port cmd).deviceStall true keys).isSome || (s.mergeCheck (ls.map Prod.fst)).isSome then none
    else some { s.mergeLines (ls.map Prod.fst) with peers := s.peers ++ [{ port := port, cmd := cmd, window := w, lines := ls }] }

/-- The windows in which n bytes at an offset of a destination lie. -/
def writeWindows (off n : Nat) : List Nat := (List.range ((off + n - 1) / windowBytes + 1 - off / windowBytes)).map (· + off / windowBytes)

/-- A command takes each of some windows at its first write there. -/
def State.takeWindows (s : State) (port cmd ctx base len : Nat) (ws : List Nat) : Option State :=
  ws.foldl (fun r w => r.bind fun s => s.takeWindow port cmd ctx base len w) (some s)

/-- A window has its bytes of a write at an offset, and each line whose last byte is written is released. -/
def PeerWindow.wrote (x : PeerWindow) (off : Nat) (keys : List Nat) : PeerWindow :=
  let mine := ((List.range keys.length).zip keys).filterMap fun k => if (off + k.1) / windowBytes = x.window then some k.2 else none
  { x with lines := (x.lines.map fun l => (l.1, l.2 - (mine.filter fun k => lineOf k == l.1).length)).filter fun l => l.2 != 0 }

/-- A peer's write at the home slices: none where it waits, so that the flit is not accepted and its sender sends it again; a fault
leaves it unmade, with a record (R52, R106, R274, R288, R299; log 28). -/
def State.peerWrite (s : State) (port cmd ctx base len off : Nat) (data : List Byte) : Option State :=
  match s.spots (s.walkerTile 0) ctx (base + off) data.length .write with
  | (s, .error (.prog code _)) => some (s.peerRecord ctx code (base + off))
  | (s, .error (.check code key)) => some (s.peerRecord ctx code key)
  | (s, .error .fenced) => some (s.peerRecord ctx codeTILEFENCED (base + off))
  | (_, .error _) => none
  | (s, .ok l) =>
    match s.takeWindows port cmd ctx base len (writeWindows off data.length) with
    | none => none
    | some s =>
      let keys := l.map (·.key)
      if ((s.withoutPeer port cmd).deviceStall true keys).isSome then none
      else match s.writeCheck l with
        | some (code, key) => some (s.peerRecord ctx code key)
        | none =>
          let s := s.writeSpots ctx l data
          some { s with peers := s.peers.map fun x => if x.port == port && x.cmd == cmd then x.wrote off keys else x }

/-- A peer's read at the home slices; its bytes go back on the port as flits, as its replay buffer takes them. None where it waits. -/
def State.peerRead (s : State) (port ctx va n : Nat) : Option State :=
  match s.spots (s.walkerTile 0) ctx va n .read with
  | (s, .error (.prog code _)) => some (s.peerRecord ctx code va)
  | (s, .error (.check code key)) => some (s.peerRecord ctx code key)
  | (s, .error .fenced) => some (s.peerRecord ctx codeTILEFENCED va)
  | (_, .error _) => none
  | (s, .ok l) =>
    if (s.deviceStall false (l.map (·.key))).isSome then none
    else match s.readCheck l with
      | some (code, key) => some (s.peerRecord ctx code key)
      | none =>
        let s := s.beforeRead ctx 0 false l
        let p := s.port port
        some ((s.setPort port { p with answers := p.answers ++ [s.readSpots l] }).pump port)

/-- A page that a peer's access needs is not mapped: its record is posted (R45). -/
def State.peerXlate (s : State) (ctx va n : Nat) (acc : Access) : State :=
  match s.spots (s.walkerTile 0) ctx va n acc with
  | (s, .error (.xlate a)) => s.postXlate ctx (looseRecord 0 codeXLATE a 3)
  | _ => s

/-- What a data flit asks for: the machine after it; where it must wait, the machine with the record of a page that is not there, and
false. -/
def State.peerAccess (s : State) (port : Nat) (data : List Byte) (req : PeerAccess) : State × Bool :=
  match req with
  | .nothing => (s, true)
  | .ended cmd => ({ s with peers := s.peers.filter fun x => !(x.port == port && x.cmd == cmd) }, true)
  | .write cmd ctx base len off => match s.peerWrite port cmd ctx base len off data with
    | some s => (s, true)
    | none => (s.peerXlate ctx (base + off) data.length .write, false)
  | .read ctx va n => match s.peerRead port ctx va n with
    | some s => (s, true)
    | none => (s.peerXlate ctx va n .read, false)

/-- The payload of a data flit. -/
def Flit.data (f : Flit) (p : Port) : List Byte :=
  if f.nfmt = 0 then f.payload.take f.elems
  else (f.elements (tableOf f.nfmt (tableKey f.chan f.nfmt) p.decode)).flatMap (leBytes (elemBytes f.nfmt))

/-- A data flit accepted in order: its table moves on, its payload is delivered, and it is acknowledged. -/
def State.acceptFlit (s : State) (port : Nat) (f : Flit) : State :=
  let p := s.port port
  let key := tableKey f.chan f.nfmt
  let counts := tableOf f.nfmt key p.decode
  let xs := if f.nfmt = 0 then [] else f.elements counts
  let q := { p with
    rxSeq := f.seq, nakSent := false
    decode := if f.nfmt = 0 then p.decode else assocSet key (xs.foldl (fun c x => countExp c (expOf f.nfmt x)) counts) p.decode }
  ((s.setPort port q).emit (.delivered port f.chan f.nfmt (f.data p))).emit (.flit port (q.control 0 []).bytes)

/-- A data flit: the next in order is accepted with what it asks for, one received before is dropped, any other shows a gap. -/
def State.dataFlit (s : State) (port : Nat) (f : Flit) (req : PeerAccess) : State :=
  let p := s.port port
  if f.seq = (p.rxSeq + 1) % 2 ^ 16 then
    let r := s.peerAccess port (f.data p) req
    if r.2 then r.1.acceptFlit port f else r.1
  else if (p.rxSeq + 2 ^ 16 - f.seq) % 2 ^ 16 < 2 ^ 15 then s
  else s.sendNak port

/-- The peer has begun to retrain: what it has not acknowledged is coded anew (R299). -/
def State.peerRetrains (s : State) (port : Nat) : State :=
  let p := s.port port
  if p.retraining then s.setPort port p.retrained else s.beginRetrain port

/-- What a whole flit does beside its acknowledgement. -/
def State.flitKind (s : State) (port : Nat) (f : Flit) (req : PeerAccess) : State :=
  match f.kind with
  | 1 => s.dataFlit port f req
  | 2 => s.resend port
  | 3 => s.gustFlit port (leNat (f.payload.take 8)) (leNat ((f.payload.drop 8).take 2))
  | 4 => s.peerRetrains port
  | _ => s

/-- FLIT_RECEIVE: a flit arrives at a port. Each names what its sender has received in order (R298, R299). -/
def execFlitReceive (port : Nat) (flit : ArrivingFlit) (s : State) : Res :=
  let p := s.port port
  .next (if p.lost || 16 ≤ port then s
    else match Flit.parse flit.bytes with
      | none => if p.retraining then s else s.sendNak port
      | some f =>
        if p.retraining && f.kind != 4 then s
        else ((s.setPort port (p.acked f.ack s.time)).flitKind port f flit.req).pump port)

end Sys2Proof.Machine
end

