-- ==== Sys2Proof/Machine/Watch.lean ====
section
/-! DEFINITION. Neighbour watch, fencing and appeal (spec/15_traps_and_reliability.md R369 to R374). -/

namespace Sys2Proof.Machine

/-! ### Gusts (R369) -/

/-- A gust flit between tiles of a die. -/
def gustBits (src gseq demand vkind vtile : Nat) : BitVec 128 :=
  BitVec.ofNat 128 (3 + src % 256 * 2 ^ 48 + gseq % 65536 * 2 ^ 56 + demand % 65536 * 2 ^ 72 + vkind * 2 ^ 94 + vtile % 256 * 2 ^ 96)

def gustKind (g : Nat) : Nat := bits g 7 0
def gustSrc (g : Nat) : Nat := bits g 55 48
def gustSeq (g : Nat) : Nat := bits g 71 56
def gustDemand (g : Nat) : Nat := bits g 87 72
def gustVkind (g : Nat) : Nat := bits g 95 94
def gustVtile (g : Nat) : Nat := bits g 103 96

/-- The layout of a gust from a tile. -/
def gustOk (g src : Nat) : Bool :=
  gustKind g == 3 && bits g 47 8 == 0 && bits g 93 88 == 0 && bits g 127 104 == 0 && gustSrc g == src % 256

/-- One tile sends a gust to each neighbour; what it will inject towards each is open (log 29). -/
def State.sendGusts (s : State) (tile : Nat) : State :=
  let h := s.tileHealth tile
  let n := (h.gseq + 1) % 65536
  let dest := dirs.filter fun d => (meshNeighbour tile d).isSome
  { s with
    tiles := assocSet tile { h with gseq := n } s.tiles
    out := s.out ++ dest.map fun d =>
      .gust tile d (gustBits tile n ((Config.openWord s.tick (watchKey tile d)).toNat % 65536) 0 0) }

/-- GUST_PERIOD: every live tile sends, the counts of a period begin anew, and each port that is up sends its time. -/
def execGustPeriod (s : State) : Res :=
  let live := (List.range 512).filter fun t => !s.fenced t
  let ports := (List.range 16).filter fun n => !(s.port n).lost && !(s.port n).retraining
  let time := ports.map fun n => Output.flit n ((s.port n).control 3 (leBytes 8 s.time ++ leBytes 2 s.ownHops)).bytes
  let s := live.foldl State.sendGusts s
  .next { s with watches := s.watches.map (fun w => (w.1, { w.2 with malformed := 0 })), out := s.out ++ time }

/-! ### Votes (R371, R372) -/

/-- The neighbours of a tile that are neither fenced nor retired. -/
def State.liveNeighbours (s : State) (tile : Nat) : List Nat := (watchers tile).map Prod.fst |>.filter fun t => !s.fenced t

/-- The votes that fence a tile with n live neighbours. -/
def threshold (n : Nat) : Nat := if n = 4 then 3 else 2

/-- A tile holds another in TRUST, as it does every tile that is no neighbour of it. -/
def State.trusts (s : State) (tile other : Nat) : Bool :=
  match dirs.find? fun d => meshNeighbour tile d == some other with
  | some d => (s.watch tile d).vote == .trust
  | none => true

/-- The count of R372 at a tile about its neighbour: its own vote and those of the suspect's other neighbours it trusts. -/
def State.voteCount (s : State) (tile suspect : Nat) (w : Watch) : Nat :=
  1 + (w.votes.filter fun v => v != tile && (watchers suspect).any (fun x => x.1 == v) && s.trusts tile v).length

/-- A tile that has voted and counts enough votes fences. -/
def State.tryFence (s : State) (tile : Nat) (d : Dir) : State :=
  match meshNeighbour tile d with
  | none => s
  | some suspect =>
    let w := s.watch tile d
    let n := (s.liveNeighbours suspect).length
    if w.vote != .voted || n ≤ 1 || s.voteCount tile suspect w < threshold n then s
    else
      let s := s.setWatch tile d { w with vote := .fenced }
      if s.fenced suspect then s else s.fenceTile suspect

/-- A vote gust goes to each other live neighbour of the suspect; it stands in the agenda while it is on its way. -/
def State.sendVote (s : State) (tile suspect vkind : Nat) : State :=
  let g := gustBits tile (s.tileHealth tile).gseq 0 vkind suspect
  { s with agenda := s.agenda ++ ((s.liveNeighbours suspect).filter (· != tile)).map fun t => Instr.voteGustReceive t g }

/-- A cause against a neighbour: TRUST becomes SUSPECT, and with a judgement VOTED (kind 1 SILENT, 2 BABBLING). -/
def State.accuse (s : State) (tile : Nat) (d : Dir) (w : Watch) (judged : Option Nat) : State :=
  let w := { w with good := 0, vote := if w.vote = .trust then .suspect else w.vote }
  match judged, meshNeighbour tile d with
  | some k, some suspect =>
    if w.vote = .suspect then ((s.setWatch tile d { w with vote := .voted }).sendVote tile suspect k).tryFence tile d
    else s.setWatch tile d w
  | _, _ => s.setWatch tile d w

/-- A tile that watches: it and the neighbour stand, and neither is fenced. -/
def State.watches? (s : State) (tile : Nat) (d : Dir) : Bool :=
  !s.fenced tile && tile < 512 && match meshNeighbour tile d with
    | some n => !s.fenced n
    | none => false

/-! ### The events of a neighbour (R370, R371) -/

/-- MISSED_GUST. -/
def execMissedGust (tile : Nat) (dir : Dir) (s : State) : Res :=
  let w := s.watch tile dir
  let m := w.missed + 1
  .next (if s.watches? tile dir then s.accuse tile dir { w with missed := m } (if 3 ≤ m then some 1 else none) else s)

/-- A malformed flit of a neighbour; 16 in one period are BABBLING. -/
def State.malformedFrom (s : State) (tile : Nat) (dir : Dir) : State :=
  let w := s.watch tile dir
  let m := w.malformed + 1
  s.accuse tile dir { w with malformed := m } (if 16 ≤ m then some 2 else none)

/-- MALFORMED_FLIT. -/
def execMalformedFlit (tile : Nat) (dir : Dir) (s : State) : Res :=
  .next (if s.watches? tile dir then s.malformedFrom tile dir else s)

/-- The flits that a neighbour may send in a window of 16 periods: 16 for each unit of DEMAND in its gusts of the window, and 1,024
(R369, R370; log 29). -/
def Watch.bound (w : Watch) : Nat := 16 * w.demands.foldl (· + ·) 0 + 1024

/-- BABBLE_WINDOW: injection above 95 % is a cause that stands until a window without it, and with more flits than the demand declared
allows a judgement. -/
def execBabbleWindow (tile : Nat) (dir : Dir) (rep : BabbleReport) (s : State) : Res :=
  let w := s.watch tile dir
  .next (if !s.watches? tile dir then s
    else if rep.flits ≤ rep.limit95 then s.setWatch tile dir { w with hot := false }
    else s.accuse tile dir { w with hot := true } (if w.bound < rep.flits then some 2 else none))

/-- A valid gust in sequence. -/
def State.goodGust (s : State) (tile : Nat) (dir : Dir) (w : Watch) : State :=
  let w := { w with missed := 0 }
  match w.vote with
  | .suspect => s.setWatch tile dir (if w.malformed = 0 && !w.hot then { w with vote := .trust } else w)
  | .voted =>
    let w := { w with good := w.good + 1 }
    if w.good < 2 then s.setWatch tile dir w
    else match meshNeighbour tile dir with
      | some suspect => (s.setWatch tile dir { w with vote := .trust, good := 0 }).sendVote tile suspect 3
      | none => s.setWatch tile dir w
  | _ => s.setWatch tile dir w

/-- GUST_RECEIVE: a gust is judged. -/
def execGustReceive (tile : Nat) (dir : Dir) (gust : BitVec 128) (s : State) : Res :=
  let w := s.watch tile dir
  let g := gust.toNat
  .next (if !s.watches? tile dir then s
    else if !gustOk g ((meshNeighbour tile dir).getD 0) then s.malformedFrom tile dir
    else
      let w' := { w with seq := some (gustSeq g), demands := (gustDemand g :: w.demands).take 16 }
      if w.seq.all fun q => gustSeq g == (q + 1) % 65536 then s.goodGust tile dir w'
      else s.accuse tile dir { w' with missed := 0 } (some 2))

/-- VOTE_GUST_RECEIVE: a vote, or the withdrawal of one, about a neighbour of the tile by another neighbour of it. -/
def execVoteGustReceive (tile : Nat) (gust : BitVec 128) (s : State) : Res :=
  let g := gust.toNat
  let suspect := dieOf tile * 256 + gustVtile g
  let voter := dieOf tile * 256 + gustSrc g
  .next (if s.fenced tile || 512 ≤ tile || gustVkind g = 0 then s
    else match dirs.find? fun d => meshNeighbour tile d == some suspect with
      | none => s
      | some d =>
        if voter = tile || !((watchers suspect).any fun x => x.1 == voter) || s.fenced voter then s
        else
          let w := s.watch tile d
          let rest := w.votes.filter (· != voter)
          (s.setWatch tile d { w with votes := if gustVkind g = 3 then rest else rest ++ [voter] }).tryFence tile d)

/-! ### Self-tests (R372, R374) -/

/-- SUSPECT_SELF_TEST: a suspect with one live neighbour, which has voted, is fenced where its test fails. -/
def execSuspectSelfTest (tile : Nat) (pass : Bool) (s : State) : Res :=
  .next (if pass || s.fenced tile || 512 ≤ tile then s
    else match s.liveNeighbours tile with
      | [n] => match (watchers tile).find? fun x => x.1 == n with
        | some (n, d) =>
          if (s.watch n d).vote = .voted then (s.setWatch n d { s.watch n d with vote := .fenced }).fenceTile tile else s
        | none => s
      | _ => s)

/-- SELF_TEST_COMPLETE: a fenced tile appeals, or is retired. -/
def execSelfTestComplete (tile : Nat) (pass : Bool) (s : State) : Res :=
  let h := s.tileHealth tile
  .next (if h.status = .testing then
      { s with tiles := assocSet tile { h with status := if pass then .appealing else .retired } s.tiles }
    else s)

/-- The split of a group's request that is pending at a tile: of a load its own, and 0xFF for an access that only waits for its
acknowledgement (R373). -/
def Group.pendingAt (g : Group) (tile : Nat) : Option Nat :=
  match g.outstanding.find? fun o => o.tiles.contains tile with
  | some o => some o.split
  | none => if g.acking.any fun l => l.contains tile then some 0xFF else none

/-- Requests pending at a fenced tile end ORPHAN, each charged to its group or to its engine command (R355, R373). -/
def State.endOrphans (s : State) (tile : Nat) : State :=
  let hit := s.teams.flatMap fun t => t.groups.filterMap fun g => (g.pendingAt tile).map fun split => (t.id, g.index, split)
  let s := hit.foldl (fun s x =>
    s.terminate x.1 x.2.1 { splitFault (handlerSplit 0 0) x.2.2 codeORPHAN 0 with resume := 0 } x.2.2) s
  let s := (s.commands.filter fun c => c.xlate == some (256 + tile, 0)).foldl (fun s c => s.failCommand c codeORPHAN 0 0) s
  { s with tiles := assocSet tile { s.tileHealth tile with orphans := false } s.tiles }

/-- ORPHAN_TIMEOUT: 10 µs after a fence. -/
def execOrphanTimeout (tile : Nat) (s : State) : Res :=
  let h := s.tileHealth tile
  .next (if h.orphans && decide (h.fences.headD 0 + 10000 ≤ s.time) then s.endOrphans tile else s)

/-- CORE_SELF_TEST_COMPLETE: a core reset after a machine check returns to the live map, or its tile is retired (R363). -/
def execCoreSelfTestComplete (core : Nat) (pass : Bool) (s : State) : Res :=
  .next (if !(s.core core).rested then s
    else
      let s := s.setCore core { s.core core with rested := false }
      if pass then s else { s with tiles := assocSet core { s.tileHealth core with status := .retired } s.tiles })

end Sys2Proof.Machine
end

