-- ==== Sys2Proof/Machine/Power.lean ====
section
/-! DEFINITION. Bring-up, power and reset (spec/15_traps_and_reliability.md R387, R389, R390). -/

namespace Sys2Proof.Machine

/-! ### Resets (R390) -/

/-- The machine with everything cleared; what is no state of the device stays: the number of the step, the events under way from
outside, and what has left the device. -/
def State.cleared (s : State) : State := { State.reset with tick := s.tick, agenda := s.agenda, out := s.out }

/-- The live-slice maps are built from identity (R49, R374). -/
def State.freshMaps (s : State) : State := (s.remap 0 id).remap 1 id

/-- POWER_ON: a firmware stage that fails its signature leaves the device in recovery; otherwise HBM is zero, the tiles that fail
are retired, time is locked where a source answers, and the host port opens (R387). -/
def execPowerOn (rep : BootReport) (s : State) : Res :=
  let s := { s.cleared with vlanData := rep.dataVlan, vlanMgmt := rep.mgmtVlan }
  .next (if !rep.verified then { s with recovery := true }
    else
      let bad := (List.range 512).filter rep.failedTiles.contains
      let s := { s with tiles := bad.map fun t => (t, { TileHealth.fresh with status := .retired }) }.freshMaps
      let s := match rep.time with
        | some t => s.follow t.toNat
        | none => s
      { s with booted := true })

/-- What a device reset keeps of a tile: retirement and the fences. -/
def TileHealth.afterReset (h : TileHealth) : TileHealth :=
  { TileHealth.fresh with status := if h.status = .retired then .retired else .live, fences := h.fences }

/-- A device reset; bring-up follows it, with the VLANs and device time as they are. -/
def State.deviceReset (s : State) : State :=
  let kept : State := { s.cleared with
    time := s.time, slew := s.slew, locked := s.locked, disciplined := s.disciplined, vlanData := s.vlanData, vlanMgmt := s.vlanMgmt
    booted := s.booted, recovery := s.recovery, tiles := s.tiles.map fun x => (x.1, x.2.afterReset) }
  kept.freshMaps

/-- DEVICE_RESET: asked for over the management VLAN. -/
def execDeviceReset (s : State) : Res := .next (if s.booted || s.recovery then s.deviceReset else s)

/-! ### Heat (R389) -/

/-- THERMAL_LIMIT: a tile reads 105 °C, and its die's clock begins to fall. -/
def execThermalLimit (tile : Nat) (s : State) : Res :=
  .next (if 512 ≤ tile then s else s.setDie (dieOf tile) { s.die (dieOf tile) with hot := true })

/-- CLOCK_STEP: the clock of a die falls by 250 MHz while some tile of it is not below 100 °C, and returns in the same steps. -/
def execClockStep (die : Nat) (allBelow100 : Bool) (s : State) : Res :=
  let d := s.die die
  .next (if 2 ≤ die then s
    else if d.hot && !allBelow100 then s.setDie die { d with mhz := d.mhz - 250 }
    else s.setDie die { d with hot := false, mhz := min 2500 (d.mhz + 250) })

/-- THERMAL_TRIP: at 115 °C every context is aborted and the device resets. -/
def execThermalTrip (tile : Nat) (s : State) : Res :=
  .next (if 512 ≤ tile then s else (s.abortContexts (List.range 256)).deviceReset)

end Sys2Proof.Machine
end

