-- ==== Sys2Proof/Machine/Dispatch.lean ====
section
/-! DEFINITION. One arm for each constructor of Instr: the direct call of its meaning. -/

namespace Sys2Proof.Machine

/-- What an instruction does to the machine. -/
def exec (i : Instr) (s : State) : Host.Outcome State Fault Refusal :=
  match i with
  | .nop f => Sys2Proof.Machine.execNop f s
  | .bra f => Sys2Proof.Machine.execBra f s
  | .brx f => Sys2Proof.Machine.execBrx f s
  | .call f => Sys2Proof.Machine.execCall f s
  | .callx f => Sys2Proof.Machine.execCallx f s
  | .ret f => Sys2Proof.Machine.execRet f s
  | .join f => Sys2Proof.Machine.execJoin f s
  | .joinAt f => Sys2Proof.Machine.execJoinAt f s
  | .joinClr f => Sys2Proof.Machine.execJoinClr f s
  | .exit f => Sys2Proof.Machine.execExit f s
  | .yield f => Sys2Proof.Machine.execYield f s
  | .trap f => Sys2Proof.Machine.execTrap f s
  | .bpt f => Sys2Proof.Machine.execBpt f s
  | .rett f => Sys2Proof.Machine.execRett f s
  | .rettKill f => Sys2Proof.Machine.execRettKill f s
  | .haltt f => Sys2Proof.Machine.execHaltt f s
  | .sysrReg f => Sys2Proof.Machine.execSysrReg f s
  | .sysrTbl f => Sys2Proof.Machine.execSysrTbl f s
  | .syswReg f => Sys2Proof.Machine.execSyswReg f s
  | .syswTlbi f => Sys2Proof.Machine.execSyswTlbi f s
  | .syswReplay f => Sys2Proof.Machine.execSyswReplay f s
  | .syswTbl f => Sys2Proof.Machine.execSyswTbl f s
  | .syswCtlResume f => Sys2Proof.Machine.execSyswCtlResume f s
  | .syswCtlReadmit f => Sys2Proof.Machine.execSyswCtlReadmit f s
  | .syswCtlCancel f => Sys2Proof.Machine.execSyswCtlCancel f s
  | .syswCtlFence f => Sys2Proof.Machine.execSyswCtlFence f s
  | .syswCtlCkpt f => Sys2Proof.Machine.execSyswCtlCkpt f s
  | .syswCtlPlace f => Sys2Proof.Machine.execSyswCtlPlace f s
  | .syswCtlAbort f => Sys2Proof.Machine.execSyswCtlAbort f s
  | .preemptOffer f => Sys2Proof.Machine.execPreemptOffer f s
  | .preemptForce f => Sys2Proof.Machine.execPreemptForce f s
  | .flushiAll f => Sys2Proof.Machine.execFlushiAll f s
  | .flushiLine f => Sys2Proof.Machine.execFlushiLine f s
  | .tileq f => Sys2Proof.Machine.execTileq f s
  | .time f => Sys2Proof.Machine.execTime f s
  | .clock f => Sys2Proof.Machine.execClock f s
  | .movsr f => Sys2Proof.Machine.execMovsr f s
  | .iadd f => Sys2Proof.Machine.execIadd f s
  | .isub f => Sys2Proof.Machine.execIsub f s
  | .imul f => Sys2Proof.Machine.execImul f s
  | .imulh f => Sys2Proof.Machine.execImulh f s
  | .imad f => Sys2Proof.Machine.execImad f s
  | .imadw f => Sys2Proof.Machine.execImadw f s
  | .idiv f => Sys2Proof.Machine.execIdiv f s
  | .irem f => Sys2Proof.Machine.execIrem f s
  | .iabs f => Sys2Proof.Machine.execIabs f s
  | .ineg f => Sys2Proof.Machine.execIneg f s
  | .imin f => Sys2Proof.Machine.execImin f s
  | .imax f => Sys2Proof.Machine.execImax f s
  | .shl f => Sys2Proof.Machine.execShl f s
  | .shr f => Sys2Proof.Machine.execShr f s
  | .sar f => Sys2Proof.Machine.execSar f s
  | .rot f => Sys2Proof.Machine.execRot f s
  | .lop3 f => Sys2Proof.Machine.execLop3 f s
  | .and f => Sys2Proof.Machine.execAnd f s
  | .or f => Sys2Proof.Machine.execOr f s
  | .xor f => Sys2Proof.Machine.execXor f s
  | .andn f => Sys2Proof.Machine.execAndn f s
  | .popc f => Sys2Proof.Machine.execPopc f s
  | .clz f => Sys2Proof.Machine.execClz f s
  | .ctz f => Sys2Proof.Machine.execCtz f s
  | .brev f => Sys2Proof.Machine.execBrev f s
  | .bfx f => Sys2Proof.Machine.execBfx f s
  | .bfi f => Sys2Proof.Machine.execBfi f s
  | .bilv f => Sys2Proof.Machine.execBilv f s
  | .bdil f => Sys2Proof.Machine.execBdil f s
  | .icmp f => Sys2Proof.Machine.execIcmp f s
  | .sel f => Sys2Proof.Machine.execSel f s
  | .iaddc f => Sys2Proof.Machine.execIaddc f s
  | .fadd f => Sys2Proof.Machine.execFadd f s
  | .fsub f => Sys2Proof.Machine.execFsub f s
  | .fmul f => Sys2Proof.Machine.execFmul f s
  | .ffma f => Sys2Proof.Machine.execFfma f s
  | .fmin f => Sys2Proof.Machine.execFmin f s
  | .fmax f => Sys2Proof.Machine.execFmax f s
  | .fcmp f => Sys2Proof.Machine.execFcmp f s
  | .fclass f => Sys2Proof.Machine.execFclass f s
  | .frnd f => Sys2Proof.Machine.execFrnd f s
  | .fdiv f => Sys2Proof.Machine.execFdiv f s
  | .fsqrt f => Sys2Proof.Machine.execFsqrt f s
  | .frcp f => Sys2Proof.Machine.execFrcp f s
  | .frsq f => Sys2Proof.Machine.execFrsq f s
  | .fex2 f => Sys2Proof.Machine.execFex2 f s
  | .flg2 f => Sys2Proof.Machine.execFlg2 f s
  | .fsin f => Sys2Proof.Machine.execFsin f s
  | .fcos f => Sys2Proof.Machine.execFcos f s
  | .ftanh f => Sys2Proof.Machine.execFtanh f s
  | .fscale f => Sys2Proof.Machine.execFscale f s
  | .ffrx f => Sys2Proof.Machine.execFfrx f s
  | .fdot2 f => Sys2Proof.Machine.execFdot2 f s
  | .plop f => Sys2Proof.Machine.execPlop f s
  | .pmovTov f => Sys2Proof.Machine.execPmovTov f s
  | .pmovFromv f => Sys2Proof.Machine.execPmovFromv f s
  | .pmovPack f => Sys2Proof.Machine.execPmovPack f s
  | .pmovUnpk f => Sys2Proof.Machine.execPmovUnpk f s
  | .vote f => Sys2Proof.Machine.execVote f s
  | .actm f => Sys2Proof.Machine.execActm f s
  | .mov f => Sys2Proof.Machine.execMov f s
  | .movi f => Sys2Proof.Machine.execMovi f s
  | .perm f => Sys2Proof.Machine.execPerm f s
  | .lred f => Sys2Proof.Machine.execLred f s
  | .lscan f => Sys2Proof.Machine.execLscan f s
  | .matchLanes f => Sys2Proof.Machine.execMatchLanes f s
  | .tagq f => Sys2Proof.Machine.execTagq f s
  | .tagg f => Sys2Proof.Machine.execTagg f s
  | .relv f => Sys2Proof.Machine.execRelv f s
  | .cvt f => Sys2Proof.Machine.execCvt f s
  | .pack f => Sys2Proof.Machine.execPack f s
  | .unpk f => Sys2Proof.Machine.execUnpk f s
  | .qblkScale f => Sys2Proof.Machine.execQblkScale f s
  | .qblkCode f => Sys2Proof.Machine.execQblkCode f s
  | .qblkSuper f => Sys2Proof.Machine.execQblkSuper f s
  | .dqblk f => Sys2Proof.Machine.execDqblk f s
  | .setfmt f => Sys2Proof.Machine.execSetfmt f s
  | .getfmt f => Sys2Proof.Machine.execGetfmt f s
  | .setmode f => Sys2Proof.Machine.execSetmode f s
  | .getmode f => Sys2Proof.Machine.execGetmode f s
  | .setseed f => Sys2Proof.Machine.execSetseed f s
  | .flagsRd f => Sys2Proof.Machine.execFlagsRd f s
  | .flagsClr f => Sys2Proof.Machine.execFlagsClr f s
  | .flagsSet f => Sys2Proof.Machine.execFlagsSet f s
  | .lscaleStep f => Sys2Proof.Machine.execLscaleStep f s
  | .lscaleRd f => Sys2Proof.Machine.execLscaleRd f s
  | .lscaleWr f => Sys2Proof.Machine.execLscaleWr f s
  | .ld f => Sys2Proof.Machine.execLd f s
  | .st f => Sys2Proof.Machine.execSt f s
  | .lds f => Sys2Proof.Machine.execLds f s
  | .sts f => Sys2Proof.Machine.execSts f s
  | .ldc f => Sys2Proof.Machine.execLdc f s
  | .ldl f => Sys2Proof.Machine.execLdl f s
  | .stl f => Sys2Proof.Machine.execStl f s
  | .ldun f => Sys2Proof.Machine.execLdun f s
  | .atom f => Sys2Proof.Machine.execAtom f s
  | .atoms f => Sys2Proof.Machine.execAtoms f s
  | .red f => Sys2Proof.Machine.execRed f s
  | .ldres f => Sys2Proof.Machine.execLdres f s
  | .stcond f => Sys2Proof.Machine.execStcond f s
  | .pref f => Sys2Proof.Machine.execPref f s
  | .cctlFlush f => Sys2Proof.Machine.execCctlFlush f s
  | .cctlMerge f => Sys2Proof.Machine.execCctlMerge f s
  | .cctlInvw f => Sys2Proof.Machine.execCctlInvw f s
  | .cctlFlushctx f => Sys2Proof.Machine.execCctlFlushctx f s
  | .membar f => Sys2Proof.Machine.execMembar f s
  | .marm f => Sys2Proof.Machine.execMarm f s
  | .mwait f => Sys2Proof.Machine.execMwait f s
  | .cpy f => Sys2Proof.Machine.execCpy f s
  | .cpyt f => Sys2Proof.Machine.execCpyt f s
  | .gathq f => Sys2Proof.Machine.execGathq f s
  | .dxq f => Sys2Proof.Machine.execDxq f s
  | .sortq f => Sys2Proof.Machine.execSortq f s
  | .collq f => Sys2Proof.Machine.execCollq f s
  | .launchq f => Sys2Proof.Machine.execLaunchq f s
  | .batch f => Sys2Proof.Machine.execBatch f s
  | .waitb f => Sys2Proof.Machine.execWaitb f s
  | .evpop f => Sys2Proof.Machine.execEvpop f s
  | .evwait f => Sys2Proof.Machine.execEvwait f s
  | .gslot f => Sys2Proof.Machine.execGslot f s
  | .sync f => Sys2Proof.Machine.execSync f s
  | .arrive f => Sys2Proof.Machine.execArrive f s
  | .waitbar f => Sys2Proof.Machine.execWaitbar f s
  | .barqPhase f => Sys2Proof.Machine.execBarqPhase f s
  | .barqPart f => Sys2Proof.Machine.execBarqPart f s
  | .barqArrd f => Sys2Proof.Machine.execBarqArrd f s
  | .barqSet f => Sys2Proof.Machine.execBarqSet f s
  | .elect f => Sys2Proof.Machine.execElect f s
  | .mma f => Sys2Proof.Machine.execMma f s
  | .mmaq f => Sys2Proof.Machine.execMmaq f s
  | .mmasm f => Sys2Proof.Machine.execMmasm f s
  | .tzero f => Sys2Proof.Machine.execTzero f s
  | .tld f => Sys2Proof.Machine.execTld f s
  | .tst f => Sys2Proof.Machine.execTst f s
  | .tmovTov f => Sys2Proof.Machine.execTmovTov f s
  | .tmovFromv f => Sys2Proof.Machine.execTmovFromv f s
  | .tmovTt f => Sys2Proof.Machine.execTmovTt f s
  | .tsideRd f => Sys2Proof.Machine.execTsideRd f s
  | .tsideWr f => Sys2Proof.Machine.execTsideWr f s
  | .tsideInit f => Sys2Proof.Machine.execTsideInit f s
  | .tscalS f => Sys2Proof.Machine.execTscalS f s
  | .tscalRow f => Sys2Proof.Machine.execTscalRow f s
  | .tscalDivl f => Sys2Proof.Machine.execTscalDivl f s
  | .tacc f => Sys2Proof.Machine.execTacc f s
  | .mleaseRd f => Sys2Proof.Machine.execMleaseRd f s
  | .mleaseRel f => Sys2Proof.Machine.execMleaseRel f s
  | .dist f => Sys2Proof.Machine.execDist f s
  | .dargm f => Sys2Proof.Machine.execDargm f s
  | .dkacc f => Sys2Proof.Machine.execDkacc f s
  | .dcnt f => Sys2Proof.Machine.execDcnt f s
  | .gsw f => Sys2Proof.Machine.execGsw f s
  | .blend f => Sys2Proof.Machine.execBlend f s
  | .unblend f => Sys2Proof.Machine.execUnblend f s
  | .emit f => Sys2Proof.Machine.execEmit f s
  | .maskpk f => Sys2Proof.Machine.execMaskpk f s
  | .maskun f => Sys2Proof.Machine.execMaskun f s
  | .decode f => Sys2Proof.Machine.execDecode f s
  | .unassignedOpcode w => Sys2Proof.Machine.execUnassignedOpcode w s
  | .doorbell queue => Sys2Proof.Machine.execDoorbell queue s
  | .sliceExpiry slot => Sys2Proof.Machine.execSliceExpiry slot s
  | .commandTake queue => Sys2Proof.Machine.execCommandTake queue s
  | .cmdLaunch seq => Sys2Proof.Machine.execCmdLaunch seq s
  | .cmdGraph seq => Sys2Proof.Machine.execCmdGraph seq s
  | .cmdCopy seq => Sys2Proof.Machine.execCmdCopy seq s
  | .cmdSort seq => Sys2Proof.Machine.execCmdSort seq s
  | .cmdColl seq => Sys2Proof.Machine.execCmdColl seq s
  | .cmdWaitev seq => Sys2Proof.Machine.execCmdWaitev seq s
  | .cmdSignal seq => Sys2Proof.Machine.execCmdSignal seq s
  | .cmdFence seq => Sys2Proof.Machine.execCmdFence seq s
  | .commandComplete seq => Sys2Proof.Machine.execCommandComplete seq s
  | .teamPlace grid => Sys2Proof.Machine.execTeamPlace grid s
  | .prologueBinding team => Sys2Proof.Machine.execPrologueBinding team s
  | .engineCommandStart cmd => Sys2Proof.Machine.execEngineCommandStart cmd s
  | .ownershipWindow cmd => Sys2Proof.Machine.execOwnershipWindow cmd s
  | .engineCommandComplete cmd => Sys2Proof.Machine.execEngineCommandComplete cmd s
  | .eventPost team => Sys2Proof.Machine.execEventPost team s
  | .dxqReleasePoll cmd => Sys2Proof.Machine.execDxqReleasePoll cmd s
  | .dxqBlock cmd => Sys2Proof.Machine.execDxqBlock cmd s
  | .sortStep cmd => Sys2Proof.Machine.execSortStep cmd s
  | .collectiveComplete cmd peers => Sys2Proof.Machine.execCollectiveComplete cmd peers s
  | .launchqComplete cmd => Sys2Proof.Machine.execLaunchqComplete cmd s
  | .accessReturn who => Sys2Proof.Machine.execAccessReturn who s
  | .storeAck team group => Sys2Proof.Machine.execStoreAck team group s
  | .sharedRequestComplete team group counter => Sys2Proof.Machine.execSharedRequestComplete team group counter s
  | .reservationHoldExpiry granule => Sys2Proof.Machine.execReservationHoldExpiry granule s
  | .monitorWake who => Sys2Proof.Machine.execMonitorWake who s
  | .mwaitTimeout who => Sys2Proof.Machine.execMwaitTimeout who s
  | .rendezvousComplete who => Sys2Proof.Machine.execRendezvousComplete who s
  | .waitReturn who => Sys2Proof.Machine.execWaitReturn who s
  | .matrixOpStart core => Sys2Proof.Machine.execMatrixOpStart core s
  | .matrixOpComplete core => Sys2Proof.Machine.execMatrixOpComplete core s
  | .leaseExhausted core => Sys2Proof.Machine.execLeaseExhausted core s
  | .leasePass core => Sys2Proof.Machine.execLeasePass core s
  | .trapEntry team group => Sys2Proof.Machine.execTrapEntry team group s
  | .preemptionSave team => Sys2Proof.Machine.execPreemptionSave team s
  | .teamResume area => Sys2Proof.Machine.execTeamResume area s
  | .queueCommit graph edge => Sys2Proof.Machine.execQueueCommit graph edge s
  | .programNodeLaunch graph node => Sys2Proof.Machine.execProgramNodeLaunch graph node s
  | .binnerRecord graph node => Sys2Proof.Machine.execBinnerRecord graph node s
  | .sorterStart graph node => Sys2Proof.Machine.execSorterStart graph node s
  | .rasterRecord graph node => Sys2Proof.Machine.execRasterRecord graph node s
  | .composeNode graph node peers => Sys2Proof.Machine.execComposeNode graph node peers s
  | .nodeFinish graph node => Sys2Proof.Machine.execNodeFinish graph node s
  | .ackTimeout port => Sys2Proof.Machine.execAckTimeout port s
  | .retrain port => Sys2Proof.Machine.execRetrain port s
  | .orphanTimeout tile => Sys2Proof.Machine.execOrphanTimeout tile s
  | .voteGustReceive tile gust => Sys2Proof.Machine.execVoteGustReceive tile gust s
  | .gustPeriod => Sys2Proof.Machine.execGustPeriod s
  | .deviceReset => Sys2Proof.Machine.execDeviceReset s
  | .rdmaWrite fr qp rkey off data => Sys2Proof.Machine.execRdmaWrite fr qp rkey off data s
  | .rdmaRead fr qp rkey off len => Sys2Proof.Machine.execRdmaRead fr qp rkey off len s
  | .unsupportedRdmaOpcode fr qp op => Sys2Proof.Machine.execUnsupportedRdmaOpcode fr qp op s
  | .cnp fr qp => Sys2Proof.Machine.execCnp fr qp s
  | .managementRequest fr req => Sys2Proof.Machine.execManagementRequest fr req s
  | .attestationRequest fr nonce => Sys2Proof.Machine.execAttestationRequest fr nonce s
  | .ieee1588Message fr msg => Sys2Proof.Machine.execIeee1588Message fr msg s
  | .fillComplete line res core => Sys2Proof.Machine.execFillComplete line res core s
  | .flitReceive port flit => Sys2Proof.Machine.execFlitReceive port flit s
  | .nakReceive port ack => Sys2Proof.Machine.execNakReceive port ack s
  | .fenlinkGust port sent hops => Sys2Proof.Machine.execFenlinkGust port sent hops s
  | .gustReceive tile dir gust => Sys2Proof.Machine.execGustReceive tile dir gust s
  | .missedGust tile dir => Sys2Proof.Machine.execMissedGust tile dir s
  | .babbleWindow tile dir rep => Sys2Proof.Machine.execBabbleWindow tile dir rep s
  | .selfTestComplete tile pass => Sys2Proof.Machine.execSelfTestComplete tile pass s
  | .thermalLimit tile => Sys2Proof.Machine.execThermalLimit tile s
  | .clockStep die allBelow100 => Sys2Proof.Machine.execClockStep die allBelow100 s
  | .thermalTrip tile => Sys2Proof.Machine.execThermalTrip tile s
  | .powerOn rep => Sys2Proof.Machine.execPowerOn rep s
  | .spuriousWake who => Sys2Proof.Machine.execSpuriousWake who s
  | .retrainComplete port => Sys2Proof.Machine.execRetrainComplete port s
  | .coreSelfTestComplete core pass => Sys2Proof.Machine.execCoreSelfTestComplete core pass s
  | .suspectSelfTest tile pass => Sys2Proof.Machine.execSuspectSelfTest tile pass s
  | .connectionRequest fr transport => Sys2Proof.Machine.execConnectionRequest fr transport s
  | .malformedFlit tile dir => Sys2Proof.Machine.execMalformedFlit tile dir s
  | .walkComplete die ctx va acc => Sys2Proof.Machine.execWalkComplete die ctx va acc s
  | .slotAssign => Sys2Proof.Machine.execSlotAssign s
  | .fairnessLimit who => Sys2Proof.Machine.execFairnessLimit who s
  | .linklost port => Sys2Proof.Machine.execLinklost port s

end Sys2Proof.Machine
end

