-- ==== Sys2Proof/Machine/Auto.lean ====
section
/-! DEFINITION. What one step does beside its instruction: the clocks, and which machine events are due
(spec/95_what_each_step_holds.md). -/

namespace Sys2Proof.Machine

/-- The clocks of a step: device time slews by at most 100 ppm (R301, R331; log 2). -/
def State.tickOn (s : State) : State :=
  let dt := Config.stepNs s.tick
  let k := clamp (-((dt / 10000 : Nat) : Int)) ((dt / 10000 : Nat) : Int) s.slew
  { s with
    tick := s.tick + 1
    time := ((s.time + dt : Nat) + k).toNat
    slew := s.slew - k
    dies := tab 2 fun d => let x := s.die d; { x with cc := x.cc + Config.stepCc s.tick d } }

/-! ### Events that may be due

Each list names the events that the state may call for; whether one has anything to do is its meaning's to say. The events
that something outside decides (a peer, the host, a sensor, a test, a walk or a fill) are in none of them: they reach the
machine through `agenda`. -/

/-- The end of what a split waits for. -/
def splitEvents (w : Who) (x : Split) : List Instr :=
  match x.wait with
  | .rendezvous _ => [.rendezvousComplete w]
  | .join => [.rendezvousComplete w]
  | .waitb _ _ => [.waitReturn w]
  | .waitbar _ _ => [.waitReturn w]
  | .evwait _ => [.waitReturn w]
  | .arrive _ _ _ => [.waitReturn w]
  | .mwait _ _ _ => [.monitorWake w, .mwaitTimeout w]
  | _ => []

/-- A group: its trap, the accesses and counters it has out, its waits. -/
def groupEvents (team : Nat) (g : Group) : List Instr :=
  (if g.trap.isSome then [.trapEntry team g.index] else []) ++
    (dedup (g.outstanding.map (·.split))).map (fun n => .accessReturn { team := team, group := g.index, split := n }) ++
    (if g.unacked = 0 then [] else [.storeAck team g.index]) ++
    ((List.range 8).filter fun k => (nth g.counters k none).isSome).map (fun k => .sharedRequestComplete team g.index k) ++
    g.liveSplits.flatMap fun x => splitEvents { team := team, group := g.index, split := x.1 } x.2

/-- A team: its pre-emption, its prologue, its groups. -/
def teamEvents (t : Team) : List Instr :=
  (if t.preempt then [.preemptionSave t.id] else []) ++ (if t.prologue.isSome then [.prologueBinding t.id] else []) ++
    t.groups.flatMap (groupEvents t.id)

/-- A command of an engine. -/
def commandEvents (c : Command) : List Instr :=
  match c.phase, c.eng with
  | .queued, _ => [.engineCommandStart c.id]
  | .started, 0 => [.ownershipWindow c.id, .engineCommandComplete c.id]
  | .started, 1 => [.ownershipWindow c.id, .engineCommandComplete c.id]
  | .started, 2 => [if c.polling then .dxqReleasePoll c.id else .dxqBlock c.id]
  | .started, 3 => [.ownershipWindow c.id, .sortStep c.id]
  | .started, 4 => [.ownershipWindow c.id, .collectiveComplete c.id []]
  | .started, _ => [.launchqComplete c.id]

/-- A command that a queue has given: its start, or its end. -/
def jobEvents (j : Job) : List Instr :=
  if j.started || j.ended then [.commandComplete j.seq]
  else match j.kind with
    | 1 => [.cmdLaunch j.seq]
    | 2 => [.cmdGraph j.seq]
    | 3 => [.cmdCopy j.seq]
    | 4 => [.cmdSort j.seq]
    | 5 => [.cmdColl j.seq]
    | 6 => [.cmdWaitev j.seq]
    | 7 => [.cmdSignal j.seq]
    | _ => [.cmdFence j.seq]

/-- A core: its matrix engine and its lease. -/
def coreEvents (n : Nat) (c : Core) : List Instr :=
  (if c.matrix.isEmpty then [] else [.matrixOpComplete n, .matrixOpStart n]) ++
    (if c.lease.holder.isSome || !c.lease.waiting.isEmpty then [.leaseExhausted n, .leasePass n] else [])

/-- A node of a work graph by its kind, and its end. -/
def nodeEvents (seq i kind : Nat) : List Instr :=
  (match kind with
    | 0 => [.programNodeLaunch seq i]
    | 1 => [.binnerRecord seq i]
    | 2 => [.sorterStart seq i]
    | 3 => [.rasterRecord seq i]
    | _ => [.composeNode seq i []]) ++ [.nodeFinish seq i]

/-- A work graph: its edges and its nodes. -/
def graphEvents (g : Graph) : List Instr :=
  (List.range g.edges.length).map (fun i => .queueCommit g.seq i) ++
    ((List.range g.nodes.length).zip g.nodes).flatMap fun x => nodeEvents g.seq x.1 x.2.kind

/-- The slots and queues of the scheduler. -/
def State.queueEvents (s : State) : List Instr :=
  s.bells.map .doorbell ++ (if s.queues.isEmpty then [] else [.slotAssign]) ++ s.slotList.map (fun x => .sliceExpiry x.1) ++
    s.queues.map fun q => .commandTake q.1

/-- A Fenlink port that waits for acknowledgement, whose resends call for a retrain, or whose retrain has run out of time: RETRAIN then
does what LINKLOST does (R299). -/
def portEvents (n : Nat) (p : Port) : List Instr :=
  (if p.replay.isEmpty then [] else [.ackTimeout n]) ++ if p.replay.isEmpty && !p.retraining then [] else [.retrain n]

/-- Every event that the state may call for. -/
def State.mayBeDue (s : State) : List Instr :=
  s.queueEvents ++ s.jobs.flatMap jobEvents ++ s.teams.flatMap teamEvents ++ s.saved.map (fun x => .teamResume x.area) ++
    s.grids.map (fun g => .teamPlace g.id) ++ s.commands.flatMap commandEvents ++
    (dedup (s.posts.map (·.team))).map .eventPost ++
    (dedup ((s.reservations.filter (·.hold)).map (·.granule) ++ s.heldWrites.flatMap (·.granules))).map .reservationHoldExpiry ++
    s.cores.flatMap (fun c => coreEvents c.1 c.2) ++ s.graphs.flatMap graphEvents ++
    ((List.range 16).zip s.ports.toList).flatMap (fun x => portEvents x.1 x.2) ++
    (s.tiles.filter fun t => t.2.orphans).map fun t => .orphanTimeout t.1

/-- An event has something to do. -/
def State.stirs (s : State) (i : Instr) : Bool :=
  match exec i s with
  | .next t => t != s
  | _ => true

/-- The events that have something to do. -/
def State.due (s : State) : List Instr := s.mayBeDue.filter s.stirs

/-- The event or split whose turn it is, when nothing from outside waits: any event that is due or the split that the schedulers
pick; which of them is free (log 3). -/
def State.turn (s : State) : Option (Instr ⊕ Who) :=
  match s.due, s.pick with
  | [], none => none
  | [], some w => some (.inr w)
  | i :: rest, none => ((i :: rest)[Config.choose s.tick 1 % (rest.length + 1)]?).map .inl
  | i :: rest, some w => some (match (i :: rest)[Config.choose s.tick 1 % (rest.length + 2)]? with
    | some j => .inl j
    | none => .inr w)

/-- A split whose word has only met something to wait for: it has not issued (R315). -/
def Wait.stalls (x : Wait) : Bool :=
  match x with
  | .depend _ => true
  | .resource _ => true
  | .xlate _ _ => true
  | .emit => true
  | _ => false

/-- The split stands before its word in a state. -/
def State.stallsAt (s : State) (w : Who) : Bool := ((s.group? w.team w.group).bind fun g => g.split? w.split).any fun x => x.wait.stalls

/-- The word of a split is offered for issue: where it issues, the counts of its group change; where it only meets something to wait
for, they stay (R315, R351). -/
def State.offer (s : State) (w : Who) (i : Instr) : State :=
  let here : State := { s with focus := w }
  match exec i here with
  | .next t => if t.stallsAt w then here else s.issuing w (yieldsAfter i)
  | _ => s.issuing w (yieldsAfter i)

/-- The mask of a split has emptied while its top entry is serial, and it has waited to read the entry: it goes on as though it stood at
the entry's JOIN (R312). -/
def State.emptied (s : State) (w : Who) : Bool := ((s.group? w.team w.group).bind fun g => g.split? w.split).any fun x => x.mask == 0

/-- The instruction of a step without one from outside: the event whose turn it is, or the word of the split that issues; or the state
after a step that runs none. -/
def State.nextInside (s : State) : Except State (State × Instr) :=
  match s.turn with
  | none => .error s
  | some (.inl i) => .ok (s, i)
  | some (.inr w) =>
    if s.emptied w then .error (s.joins w)
    else match s.fetchDecode w with
    | .error s => .error s
    | .ok (s, i) => .ok (s.offer w i, i)

/-- The instruction of a step: the next event from outside, but for a packet that must wait, or what the machine does by itself. -/
def State.nextInstr (s : State) : Except State (State × Instr) :=
  match s.agenda with
  | i :: rest => if s.packetWaits i then s.nextInside else .ok ({ s with agenda := rest }, i)
  | [] => s.nextInside

end Sys2Proof.Machine
end

