-- ==== Sys2Proof/Machine/Step.lean ====
section
/-! DEFINITION. One step of the machine, and the placing of one word for its next step. -/

namespace Sys2Proof.Machine

/-- One step: the clocks, and then the event or instruction whose turn it is. -/
def step (s : State) : Host.Outcome State Fault Refusal :=
  match s.tickOn.nextInstr with
  | .error s => .next s
  | .ok (s, i) => exec i s

/-- The state with the word of `nbits` bits placed so that the next step runs it (log 20). -/
def State.withFetchWord (s : State) (nbits w : Nat) : State := s.placeWord (BitVec.ofNat 96 (w % 2 ^ nbits))

end Sys2Proof.Machine
end

