-- ==== Sys2Proof/Safety.lean ====
section
/-! DEFINITION. The terms in which claims are stated: the form that every state of a run has, a word that issues, what it
may leave changed, and the values that a reader sees in a register. -/

namespace Sys2Proof.Machine

/-! ### Good states -/

/-- Memory lists its bytes in their canonical form. -/
def State.canonical (s : State) : Prop := Memory.wf s.mem = true

/-! ### A word that issues -/

/-- A word is in the hands of the split in focus and nothing keeps it back: the results it reads have returned (R21), a
thread contributes (R20), and it keeps every promise of a lookahead window (R21). -/
structure Issues (s : State) (i : Instr) (f : Fields) (c : Ctx) : Prop where
  inHand : s.ctx i f = some c
  sources : s.depends c = false
  active : c.act ≠ 0
  kept : c.broken = false

/-- k more registers of the group may become general (R127). -/
def Ctx.room (c : Ctx) (k : Nat) : Prop := c.g.generals + k ≤ c.g.ceiling

/-! ### What a word leaves unchanged -/

/-- Register n of a kind of R15 is among the registers of a list. -/
def covers (d : List Span) (kind n : Nat) : Bool := d.any fun x => x.kind == kind && decide (x.first ≤ n) && decide (n < x.first + x.len)

/-- From g to h a group keeps everything but the registers of d and what stochastic rounding counts; flags only rise. -/
structure RegsKept (d : List Span) (g h : Group) : Prop where
  rest : h = { g with v := h.v, s := h.s, p := h.p, x := h.x, flags := h.flags, rsr := h.rsr, handler := h.handler }
  v : ∀ n, covers d 0 n = false → h.vreg n = g.vreg n
  s : ∀ n, n < 64 → covers d 1 n = false → h.sreg n = g.sreg n
  p : ∀ n, covers d 2 n = false → h.pred n = g.pred n
  x : ∀ n, covers d 3 n = false → nth h.x n (Vector.replicate 32 0) = nth g.x n (Vector.replicate 32 0)
  kv : ∀ n, n < 8 → covers d 7 n = false → h.kreg n = g.kreg n
  ks : ∀ n, 8 ≤ n → n < 16 → covers d 7 n = false → h.sreg (64 + n) = g.sreg (64 + n)
  handler : h.handler.map (fun k => (k.frozen, k.records, k.split, k.raisedHalt)) =
    g.handler.map fun k => (k.frozen, k.records, k.split, k.raisedHalt)
  flags : ∀ i, g.flags.getLsbD i = true → h.flags.getLsbD i = true

/-- A reservation but for what counts its thread's instructions (R106). -/
def Reservation.claim (r : Reservation) : Reservation := { r with issued := 0, hold := false }

/-- From s to t nothing changes but group w.group of team w.team, the A latches of the other groups of that team (R213), and
the counts of reservations: all of memory, the cores with their tiles, every system register and every queue stand as they
were. -/
structure OnlyGroup (s t : State) (w : Who) : Prop where
  rest : t = { s with teams := t.teams, reservations := t.reservations }
  claims : t.reservations.map Reservation.claim = s.reservations.map Reservation.claim
  others : ∀ id, id ≠ w.team → t.team? id = s.team? id
  team : ∀ x, s.team? w.team = some x → ∃ gs, t.team? w.team = some { x with groups := gs }
  members : ∀ n g, n ≠ w.group → s.group? w.team n = some g → ∃ l, t.group? w.team n = some { g with latch := l }

/-- The split of the instruction in hand goes on at the next word, and its group keeps all but the registers of d, its latch
and its lookahead windows. -/
structure NextWord (s t : State) (c : Ctx) (d : List Span) : Prop where
  only : OnlyGroup s t c.who
  group : ∃ h, t.group? c.who.team c.who.group = some h ∧
    RegsKept d c.g { h with splits := c.g.splits, latch := c.g.latch } ∧
    h.split? c.who.split = some { c.sp with pc := c.sp.pc + 12, wait := .ready, windows := c.windows } ∧
    ∀ n, n ≠ c.who.split → h.split? n = c.g.split? n

/-- The registers that a word writes: those of D. -/
def Ctx.written (c : Ctx) : List Span := destSpans (groupEnv c.t c.g) c.i c.f

/-- The group of the instruction in hand as it stands in t. -/
def State.groupOf (t : State) (c : Ctx) : Group := (t.group? c.who.team c.who.group).getD c.g

/-! ### Values that a reader sees -/

/-- The value of n words of an operand in a lane, as it is presented (R124, R168). -/
def Group.value (g : Group) (k : ImmKind) (o : Opnd) (n l : Nat) : Nat :=
  if n = 1 then ((g.word k o 0).at l).toNat else ((g.word k o 1).at l ++ (g.word k o 0).at l : W64).toNat

/-- An operand that one 64-bit register of the scalar pipeline supplies. -/
def isScalar : Opnd → Bool
  | .s _ => true
  | .k n => decide (8 ≤ n.val)
  | _ => false

/-- The lane in which a source is read for a result in lane l: the designated thread's at GROUP scope (R167). -/
def Ctx.from_ (c : Ctx) (l : Nat) : Nat := if c.f.scope = .group then c.designated else l

/-- Lane l of a destination is written: every lane at GROUP scope (R126, R167), else a contributor's. -/
def Ctx.puts (c : Ctx) (l : Nat) : Bool := decide (c.f.scope = .group) || c.act.getLsbD l

/-- The destination holds the n-word value x in every lane that the instruction writes and what it held in the others; a
32-bit value fills an S register by its sign where `signed` says so (R167). -/
def Ctx.gives (c : Ctx) (t : State) (n : Nat) (signed : Bool) (x : Nat → Nat) : Prop :=
  if isScalar c.f.d then
    (t.groupOf c).scalar .unsigned c.f.d =
      if n = 1 && signed then sext64 32 (x c.designated) else BitVec.ofNat 64 (x c.designated)
  else match c.f.d with
    | .special _ => True
    | d => ∀ l, l < 32 → (t.groupOf c).value .unsigned d n l =
      if c.puts l then x (c.from_ l) else c.g.value .unsigned d n l

/-- The destination predicate is x in every lane that the instruction writes and as before in the others; P7 is discarded
(R16). -/
def Ctx.givesPred (c : Ctx) (t : State) (x : Nat → Bool) : Prop :=
  ∀ l, l < 32 → (match c.f.d with
    | .p n => n.val = 7 ∨ ((t.groupOf c).pred n.val).getLsbD l = if c.puts l then x (c.from_ l) else (c.g.pred n.val).getLsbD l
    | _ => True)

/-- Some thread whose result the instruction computes satisfies p: the designated one at GROUP scope, else a contributor. -/
def Ctx.some_ (c : Ctx) (p : Nat → Bool) : Bool :=
  if c.f.scope = .group then p c.designated else (lanesOf c.act).any p

/-- The V registers among the registers of a list. -/
def vRegs (d : List Span) : Nat := d.foldl (fun n x => if x.kind = 0 then n + x.len else n) 0

/-- The instruction has joined a flag word to its group's: that of each lane whose result it computes (R161). -/
def Ctx.flagged (c : Ctx) (t : State) (x : Nat → Nat) : Prop :=
  (t.groupOf c).flags = c.g.flags ||| BitVec.ofNat 32
    (if c.f.scope = .group then x c.designated else (lanesOf c.act).foldl (fun acc l => acc ||| x l) 0)

/-! ### Exact values and the special functions (R164) -/

/-- The magnitude of a finite number. -/
def Num.size : Num → Rat
  | .fin _ m e => (m : Rat) * (2 : Rat) ^ e
  | _ => 0

/-- The value of a finite number. -/
def Num.val (x : Num) : Rat := if x.neg? then -x.size else x.size

/-- y lies within n ulp of v, an ulp that of v's binade in FP32. -/
def withinUlps (n : Nat) (v y : Rat) : Prop :=
  ∃ k : Int, -126 ≤ k ∧ ((2 : Rat) ^ k ≤ v ∨ (2 : Rat) ^ k ≤ -v ∨ k = -126) ∧
    y - v ≤ n * (2 : Rat) ^ (k - 23) ∧ v - y ≤ n * (2 : Rat) ^ (k - 23)

/-- The result is a code with no flag. -/
def Rounded.plain (r : Rounded) (code : Nat) : Prop := r = { code := code }

/-- What R164 fixes of FRCP: a reciprocal from 2^128 on is infinite (log 16). -/
def rcpResult (x : Num) (r : Rounded) : Prop :=
  match x with
  | .nan => r.plain 0x7FC00000
  | .inf neg => r.plain (fp32.sign neg)
  | .fin neg m e =>
    (m = 0 → r = { code := fp32.sign neg + 0x7F800000, dz := true }) ∧
    (m ≠ 0 → (Num.fin neg m e).size ≤ (2 : Rat) ^ (-128 : Int) → r.plain (fp32.sign neg + 0x7F800000)) ∧
    ((2 : Rat) ^ (-128 : Int) < (Num.fin neg m e).size → r.plain r.code ∧ (∃ n k, num32 r.code = .fin neg n k) ∧
      withinUlps 1 (1 / (Num.fin neg m e).val) (num32 r.code).val ∧
      (m = 2 ^ m.log2 → (num32 r.code).val = 1 / (Num.fin neg m e).val))

/-- What R164 fixes of FRSQ: within 2 ulp, told by squares, with k the binade of the exact value. -/
def rsqResult (x : Num) (r : Rounded) : Prop :=
  match x with
  | .nan => r.plain 0x7FC00000
  | .inf true => r = { code := 0x7FC00000, iv := true }
  | .inf false => r.plain 0
  | .fin neg m e =>
    let v := (Num.fin neg m e).size
    let y := (num32 r.code).size
    (m = 0 → r = { code := fp32.sign neg + 0x7F800000, dz := true }) ∧
    (m ≠ 0 → neg = true → r = { code := 0x7FC00000, iv := true }) ∧
    (m ≠ 0 → neg = false → r.plain r.code ∧ (∃ n k, num32 r.code = .fin false n k) ∧
      (∃ k : Int, (4 : Rat) ^ k * v ≤ 1 ∧ 1 < (4 : Rat) ^ (k + 1) * v ∧ 1 ≤ (y + (2 : Rat) ^ (k - 22)) * (y + (2 : Rat) ^ (k - 22)) * v ∧
        (y ≤ (2 : Rat) ^ (k - 22) ∨ (y - (2 : Rat) ^ (k - 22)) * (y - (2 : Rat) ^ (k - 22)) * v ≤ 1)) ∧
      (∀ j : Int, v = (4 : Rat) ^ j → y = (2 : Rat) ^ (-j)))

/-- What R164 fixes of FEX2 where 2^x is a power of two or out of range. -/
def ex2Result (x : Num) (r : Rounded) : Prop :=
  match x with
  | .nan => r.plain 0x7FC00000
  | .inf true => r.plain 0
  | .inf false => r.plain 0x7F800000
  | x =>
    (128 ≤ x.val → r = { code := 0x7F800000, of := true }) ∧ (x.val ≤ -150 → r.plain 0) ∧
    ∀ n : Int, x.val = n → -149 ≤ n → n ≤ 127 → r.plain r.code ∧ (∃ m k, num32 r.code = .fin false m k) ∧ (num32 r.code).val = (2 : Rat) ^ n

/-- What R164 fixes of FLG2 where its value is exact or defined. -/
def log2Result (x : Num) (r : Rounded) : Prop :=
  match x with
  | .nan => r.plain 0x7FC00000
  | .inf true => r = { code := 0x7FC00000, iv := true }
  | .inf false => r.plain 0x7F800000
  | .fin neg m e =>
    (m = 0 → r = { code := 0xFF800000, dz := true }) ∧ (m ≠ 0 → neg = true → r = { code := 0x7FC00000, iv := true }) ∧
    (m ≠ 0 → neg = false → r.plain r.code ∧
      ∀ n : Int, (Num.fin neg m e).val = (2 : Rat) ^ n → (num32 r.code).val = n ∧ (n = 0 → r.code = 0))

/-- What R164 fixes of FSIN and FCOS where their value is defined. -/
def trigResult (cosine : Bool) (x : Num) (r : Rounded) : Prop :=
  match x with
  | .nan => r.plain 0x7FC00000
  | .inf _ => r = { code := 0x7FC00000, iv := true }
  | .fin neg m _ => r.plain r.code ∧ (m = 0 → r.code = if cosine then 0x3F800000 else fp32.sign neg)

/-- What R164 fixes of FTANH where its value is exact. -/
def tanhResult (x : Num) (r : Rounded) : Prop :=
  match x with
  | .nan => r.plain 0x7FC00000
  | .inf neg => r.plain (fp32.sign neg + 0x3F800000)
  | .fin neg m e => r.plain r.code ∧ (m = 0 → r.code = fp32.sign neg) ∧
    ((91 : Rat) / 10 ≤ (Num.fin neg m e).size → r.code = fp32.sign neg + 0x3F800000)

/-- A word that its split may issue: its encoding is one that decode accepts, and were every V register it writes to become
general, its group would stand within its ceiling (R127). -/
structure Runs (s : State) (i : Instr) (f : Fields) (c : Ctx) : Prop where
  issues : Issues s i f c
  wf : i.wf (groupEnv c.t c.g) = true
  room : c.room (vRegs c.written)

/-- An integer source with its modifiers: |x| before negation, two's complement in w bits (R172). -/
def modified (w : Nat) (neg abs : Bool) (x : Nat) : Nat :=
  let y := if abs && x.testBit (w - 1) then (2 ^ w - x) % 2 ^ w else x
  if neg then (2 ^ w - y) % 2 ^ w else y

/-- Source A of an integer form in a lane. -/
def Ctx.srcA (c : Ctx) (l : Nat) : Nat :=
  modified (intWidth (dtN c.f)) (bit (xmN c.f) 0) (bit (xmN c.f) 3)
    (c.g.value (intImm (dtN c.f)) c.f.a (intRegs (dtN c.f)) l)

/-- Source B of an integer form in a lane. -/
def Ctx.srcB (c : Ctx) (l : Nat) : Nat :=
  modified (intWidth (dtN c.f)) (bit (xmN c.f) 1) false (c.g.value (intImm (dtN c.f)) c.f.b (intRegs (dtN c.f)) l)

/-- Source C of an integer form in a lane. -/
def Ctx.srcC (c : Ctx) (l : Nat) : Nat :=
  modified (intWidth (dtN c.f)) (bit (xmN c.f) 2) false (c.g.value (intImm (dtN c.f)) c.f.c (intRegs (dtN c.f)) l)

/-! ### Exact effects -/

/-- The split of the instruction in hand has issued and stands at the next word changed by k, its group has become h of what it
was but for its splits and its latch, and nothing else has changed. -/
structure Became (s t : State) (c : Ctx) (h : Group → Group) (k : Split → Split) : Prop where
  only : OnlyGroup s t c.who
  group : ∃ x, t.group? c.who.team c.who.group = some x ∧
    ({ x with splits := c.g.splits, latch := c.g.latch } : Group) = h c.g ∧
    x.split? c.who.split = some (k { c.sp with pc := c.sp.pc + 12, wait := .ready, windows := c.windows }) ∧
    ∀ n, n ≠ c.who.split → x.split? n = c.g.split? n

/-- A word that its split may issue and whose encoding decode accepts, of an instruction that writes no V register. -/
structure RunsNarrow (s : State) (i : Instr) (f : Fields) (c : Ctx) : Prop where
  issues : Issues s i f c
  wf : i.wf (groupEnv c.t c.g) = true

/-! ### Accesses to memory -/

/-- The fault records of a context that stand in its ring or wait at their place (R357). -/
def State.posted (s : State) (ctx : Nat) : Nat :=
  (assoc ctx s.sys.fqcount).getD 0 + (s.heldWrites.filter fun x => x.posts == some ctx).length

/-- No thread holds a granule, no write waits and nothing owns a line: whatever is to be written is written at once (R52, R106). -/
def State.unheld (s : State) : Prop :=
  (∀ r ∈ s.reservations, r.hold = false) ∧ s.heldWrites = [] ∧ ∀ keys, s.ownedLine keys = none

/-- A memory word whose access goes ahead: the second pieces of its group's earlier stores are performed (R92), every contributor's
places are reached without a fault, `s1` is the state after the translations and `l` the places by lane; nothing of another agent
holds the access back, and where the access is shared a completion counter is free and the overflow buffer has room (R64, R65,
R91). -/
structure Accesses (s : State) (i : Instr) (f : Fields) (c : Ctx) (sp : Space) (n : Nat) (acc : Access) (align : Bool) (s1 : State)
    (l : List (Nat × List Spot)) : Prop where
  runs : Runs s i f c
  counter : sp = .shared → s.sharedStall c = none
  pieces : s.pieceStall c.who.team c.who.group = none
  reached : resolve c sp n acc align (lanesOf c.act) (s.settlePieces c.who.team c.who.group) = (s1, .ok l)
  free : s1.accessStall c (acc != .read) (l.flatMap Prod.snd) = none

/-- The places of all lanes. -/
def places (l : List (Nat × List Spot)) : List Spot := l.flatMap Prod.snd

/-- The keys of places. -/
def keysOf (l : List Spot) : List Nat := l.map (·.key)

/-- The address of each of the lanes is a multiple of the access's size: no lane's access is made in two pieces (R92). -/
abbrev Ctx.aligned (c : Ctx) (sp : Space) (n : Nat) (lanes : List Nat) : Prop := ∀ l ∈ lanes, laneAddr c sp l % n = 0

/-- The words that lane `lane` loads, once s holds the bytes (R88, R96). -/
def loaded (s : State) (dt : Nat) (l : List (Nat × List Spot)) (lane : Nat) : List W32 :=
  match l.find? fun x => x.1 == lane with
  | some x => loadWords dt (s.readSpots x.2)
  | none => []

/-- The bytes that a store of C writes, lane by lane in ascending order (R93, R97). -/
def storedBytes (c : Ctx) (l : List (Nat × List Spot)) : List (Nat × Byte) :=
  l.flatMap fun x => (keysOf x.2).zip (bytesOf (memBytes (dtN c.f)) (storeWords c (memRegs (dtN c.f)) x.1))

/-- The byte at an address once the writes of a list have landed on memory m: the last one for each byte wins (R93). -/
def afterWrites (m : List Host.Cell) (kvs : List (Nat × Byte)) (a : Nat) : Byte :=
  ((kvs.reverse.find? fun x => x.1 == a).map Prod.snd).getD (Memory.get m a)

/-- What an atomic operation makes of `old` with the operands v and w, by the table of R101; none where CAS fails. -/
def newValue (sub dt old v w : Nat) : Option Nat :=
  let bits := 8 * memBytes dt
  let read := fun (x : Nat) => if dt = 4 ∨ dt = 6 then toSigned bits x else (x : Int)
  let flt := fun (F : FloatFmt) (x y : Nat) =>
    -- codes in the order of their values, -0 below +0
    let key := fun (z : Nat) => if z < 2 ^ (F.bits - 1) then (z : Int) else 2 ^ (F.bits - 1) - 1 - (z : Int)
    if sub = 0 then (F.round .rne false 0 (sumOf .rne [F.decode x, F.decode y])).code
    else if (F.decode x).isNan && (F.decode y).isNan then F.nan.getD 0
    else if (F.decode x).isNan then y
    else if (F.decode y).isNan then x
    else if (key x < key y) ↔ (sub = 1) then x else y
  let pair := fun (F : FloatFmt) => flt F (old % 2 ^ 16) (v % 2 ^ 16) + flt F (old / 2 ^ 16) (v / 2 ^ 16) * 2 ^ 16
  if sub < 3 ∧ dt = 11 then some (flt fp32 old v)
  else if sub < 3 ∧ dt = 12 then some (pair fp16)
  else if sub < 3 ∧ dt = 13 then some (pair bf16)
  else match sub with
    | 0 => some ((old + v) % 2 ^ bits)
    | 1 => some (if read v < read old then v else old)
    | 2 => some (if read old < read v then v else old)
    | 3 => some (old &&& v)
    | 4 => some (old ||| v)
    | 5 => some (old ^^^ v)
    | 6 => some v
    | 7 => if old = v then some w else none
    | 8 => some (if v ≤ old then 0 else old + 1)
    | _ => some (if old = 0 ∨ v < old then v else old - 1)

/-- What an access does to teams: the split stands at the next word, and of its group nothing changes but the registers of d,
the latch, and the accounts of accesses under way; no other team changes. -/
structure AccessFrame (s t : State) (c : Ctx) (d : List Span) : Prop where
  teams : ∀ id, id ≠ c.who.team → t.team? id = s.team? id
  group : ∃ x, t.group? c.who.team c.who.group = some x ∧
    RegsKept d c.g { x with splits := c.g.splits, latch := c.g.latch, outstanding := c.g.outstanding, counters := c.g.counters,
                            unacked := c.g.unacked, acking := c.g.acking } ∧
    x.split? c.who.split = some { c.sp with pc := c.sp.pc + 12, wait := .ready, windows := c.windows } ∧
    ∀ n, n ≠ c.who.split → x.split? n = c.g.split? n

end Sys2Proof.Machine
end

