-- ==== Sys2Proof/Certificates/Slice0/Obligations.lean ====
section
/-! DEFINITION. The statements for the provers. Each docstring names the rules or sections of spec/ that it formalises. -/

section

open Sys2Proof Sys2Proof.Machine

/-! ### Encoding -/

/-- Decoding the encoding of a well-formed instruction gives the instruction back (spec/01_instruction_word.md, The 96-bit word; spec/01_instruction_word.md, The fate of every encoding; spec/01_instruction_word.md, The opcode map). -/
def Obligations.EncodeThenDecode : Prop := ∀ (e : Env) (i : Instr), i.wf e = true → decode e (encode i) = .ok i

/-- A word that decodes is the encoding of what it decodes to (spec/01_instruction_word.md, The 96-bit word; spec/01_instruction_word.md, The fate of every encoding). -/
def Obligations.DecodeThenEncode : Prop :=
  ∀ (e : Env) (w : InsWord) (i : Instr), decode e w = .ok i → encode i = w ∧ i.wf e = true

/-- Words that the spec writes out decode to the instructions they stand for (spec/01_instruction_word.md, Three instructions down to the bit; spec/07_vector_instructions.md, The integer class, 0x20–0x3F; spec/05_registers.md, TAGQ, TAGG and RELV). -/
def Obligations.SpecWordsDecode : Prop :=
  let e : Env := { kRegs := false, rett := false, noRdv := false, gang := 0, tiles := 16, twin := false }
  let f : Fields := { (default : Fields) with gp := 7 }
  decode e 0x0001401900180201_20001C3D#96 = .ok (.icmp { f with sub := 2, d := .p 1, a := .v 3 .id, b := .imm 100#16 }) ∧
  decode e 0x0000004000000005_04001C3B#96 = .ok (.bilv { f with dt := 4, d := .v 5 .id, a := .v 0 .id, b := .v 1 .id }) ∧
  decode e 0x0000000000480103_00001D6A#96 = .ok (.tagq { f with scope := .group, d := .s 3, a := .v 9 .id }) ∧
  decode e 0x0000000028002008_00001D6C#96 = .ok (.relv { f with scope := .group, d := .v 8 .id, a := .imm 4#16 }) ∧
  -- the loop of three instructions: FFMA.F32.RNE V4, V1.rot(5), V2, -V3; IADD.S32.GP S5, S5, 16; ?!P2 BRA with offset -3
  decode e 0x4006008000092804_00101C43#96 = .ok (.ffma { f with rnd := 1, xm := 4, d := .v 4 .id, a := .v 1 (.rot 5), b := .v 2 .id, c := .v 3 .id }) ∧
  decode e 0x0001400408280105_00001D20#96 = .ok (.iadd { f with scope := .group, d := .s 5, a := .s 5, b := .imm 16#16 }) ∧
  decode e 0x00017FFFEFFFE800_00002802#96 = .ok (.bra { f with gp := 2, gn := true, a := .imm 0xFFFD#16, b := .imm 0xFFFF#16 }) ∧
  ∀ g, decode e 0x00017FFFEFFFE800_00002802#96 = .ok (.bra g) → branchTarget 0x1018 g = 0x1000

/-! ### The step -/

/-- A step runs the instruction that the bytes at the program counter decode to; how the instruction cache is organised is the model's choice (log 66) (spec/01_instruction_word.md, The 96-bit word; spec/14_scheduling.md; spec/95_what_each_step_holds.md). -/
def Obligations.StepRunsTheDecodedWord : Prop :=
  (∀ (s s0 : State) (w : Who) (t : Team) (g : Group) (sp : Split) (l : List Spot) (i : Instr),
    (∀ j rest, s.agenda = j :: rest → s.tickOn.packetWaits j = true) → s.tickOn.turn = some (.inr w) →
    s.tickOn.team? w.team = some t → t.group? w.group = some g → g.split? w.split = some sp →
    sp.mask ≠ 0 → s.tickOn.reach g.core t.ctx (BitVec.ofNat 64 sp.pc) 12 .fetch = (s0, .ok l) → s0.readCheck l = none →
    let s1 := s0.beforeRead t.ctx g.core false l
    let word := wordOfBytes (s1.readSpots l)
    let old := (s1.core g.core).icache
    let va := sp.pc % 2 ^ 48
    (∀ e ∈ old, e.1 = t.ctx → e.2.1 = va → e.2.2 = word) →
    decode (groupEnv t g) word = .ok i →
    -- the instruction cache takes the word in, under its context and address, and the word fetched longest ago leaves a full one
    let ic := ((t.ctx, va, word) :: old.filter fun e => !(e.1 == t.ctx && e.2.1 == va)).take 10922
    step s = exec i ((s1.setCore g.core { s1.core g.core with icache := ic }).offer w i)) ∧
  -- the offer puts the split in focus and changes nothing but the counts of its group's splits
  ∀ (s : State) (w : Who) (i : Instr), ∃ h : Group → Group, s.offer w i = { s.modGroup w.team w.group h with focus := w } ∧
    ∀ g, ({ h g with splits := g.splits } : Group) = g ∧
      ∀ n, ((h g).split? n).map (fun x => { x with fairness := 0, burst := 0, last := 0 }) =
        (g.split? n).map fun x => { x with fairness := 0, burst := 0, last := 0 }

/-- A step runs the event from outside that waits first, else, and while that event is a packet that must wait, the event that is due, else nothing but the clocks (spec/95_what_each_step_holds.md; spec/13_execution_and_control.md). -/
def Obligations.StepRunsTheEvent : Prop :=
  (∀ (s : State) (i : Instr) (rest : List Instr), s.agenda = i :: rest → s.tickOn.packetWaits i = false →
    step s = exec i { s.tickOn with agenda := rest }) ∧
  (∀ (s : State), (∀ j rest, s.agenda = j :: rest → s.tickOn.packetWaits j = true) →
    (∀ i, s.tickOn.turn = some (.inl i) → step s = exec i s.tickOn) ∧ (s.tickOn.turn = none → step s = .next s.tickOn)) ∧
  ∀ (s : State), s.tickOn = { s with tick := s.tick + 1, time := s.tickOn.time, slew := s.tickOn.slew, dies := s.tickOn.dies } ∧
    s.time ≤ s.tickOn.time ∧
    ∀ d, d < 2 → s.tickOn.die d = { s.die d with cc := (s.tickOn.die d).cc } ∧ (s.die d).cc ≤ (s.tickOn.die d).cc

/-- Every step keeps memory in its canonical form (spec/02_memory_and_translation.md; spec/00_scope.md). -/
def Obligations.MemoryStaysCanonical : Prop := ∀ (s t : State), s.canonical → step s = .next t → t.canonical

/-- What reset leaves (spec/15_traps_and_reliability.md; spec/05_registers.md, The register files; spec/02_memory_and_translation.md). -/
def Obligations.ResetState : Prop :=
  let s := State.reset
  s.teams = [] ∧ s.commands = [] ∧ s.queues = [] ∧ s.saved = [] ∧ s.jobs = [] ∧ s.grids = [] ∧ s.reservations = [] ∧ s.monitors = [] ∧
  s.l2 = [] ∧ s.mire = [] ∧ s.heldWrites = [] ∧ s.secondPieces = [] ∧ s.halves = [] ∧ s.peers = [] ∧ s.exchange = none ∧ s.agenda = [] ∧
  s.sys.ctxtab = 0 ∧ s.sys.qtab = 0 ∧ s.sys.jbase = 0 ∧ s.sys.savebase = 0 ∧ s.sys.savesize = 0 ∧ s.sys.pkgnum = 0 ∧
  (∀ d, d < 2 → (nth s.dies d Die.fresh).mhz = 2500 ∧ ∀ k, k < 512 → nth (nth s.dies d Die.fresh).sliceMap k 0 = BitVec.ofNat 16 k) ∧
  (∀ n k, k < 16 → nth (s.core n).tiles k Tile.fresh = Tile.fresh ∧ ∀ r, r < 64 → nth Tile.fresh.m r 0 = 0xFF800000#32 ∧ nth Tile.fresh.l r 0 = 0) ∧
  (∀ n k, nth (s.core n).pins k 0 = 0) ∧ s.canonical

/-! ### Issue -/

/-- What comes before the effect of a word of the vector classes (spec/01_instruction_word.md, Guard, lookahead, reuse and yield; spec/05_registers.md, The ceiling; spec/05_registers.md, Propagation). -/
def Obligations.IssueChecks : Prop :=
  ∀ (s : State) (i : Instr) (opc : Nat) (f : Fields) (c : Ctx),
    head i = some (opc, f) → 0x20 ≤ opc → opc < 0x7A → opc ≠ 0x62 → s.ctx i f = some c →
    (s.depends c = true → exec i s = .next (s.block c.who (.depend i))) ∧
    (s.depends c = false → c.act = 0 → ∃ t, exec i s = .next t ∧ Became s t c id id) ∧
    (∀ n q, s.depends c = false → c.act ≠ 0 → c.act ≠ allLanes → f.scope = .lane → f.d = .v n q → i.wf (groupEnv c.t c.g) = true →
      let fresh := ((List.range 256).filter fun m => covers c.written 0 m && !(c.g.vreg m).isGeneral).length
      0 < fresh → c.g.ceiling < c.g.generals + fresh → exec i s = .next ((s.issued c).raise c (c.fault codeREGCEIL c.act))) ∧
    (s.depends c = false → c.act ≠ 0 → c.broken = true → i.wf (groupEnv c.t c.g) = true → c.room (vRegs c.written) →
      exec i s = .next ((s.issued c).raise c (c.fault codeLOOKAHEAD c.act)))

/-! ### The integer class -/

/-- Every integer form completes and changes only its destination (spec/07_vector_instructions.md, The integer class, 0x20–0x3F; spec/01_instruction_word.md, Guard, lookahead, reuse and yield; spec/05_registers.md, The ceiling). -/
def Obligations.IntegerFormsComplete : Prop :=
  ∀ (s : State) (f : Fields) (i : Instr) (c : Ctx),
    i ∈ [.iadd f, .isub f, .imul f, .imulh f, .imad f, .imadw f, .idiv f, .irem f, .iabs f, .ineg f, .imin f, .imax f, .shl f, .shr f,
      .sar f, .rot f, .lop3 f, .and f, .or f, .xor f, .andn f, .popc f, .clz f, .ctz f, .brev f, .bfx f, .bfi f, .bilv f, .bdil f,
      .icmp f, .sel f, .iaddc f] →
    Runs s i f c →
    ∃ t, exec i s = .next t ∧ NextWord s t c (c.written ++ if i = .iaddc f then spanOf uP f.c else []) ∧
      (t.groupOf c).rsr = c.g.rsr ∧
      (if i = .idiv f ∨ i = .irem f then (t.groupOf c).flags ||| 2 = c.g.flags ||| 2 else (t.groupOf c).flags = c.g.flags)

/-- The arithmetic forms write the exact value, wrapped or saturated once (spec/07_vector_instructions.md, The integer class, 0x20–0x3F; spec/05_registers.md, Propagation). -/
def Obligations.IntegerArithmeticResults : Prop :=
  ∀ (s : State) (f : Fields) (i : Instr) (op : Int → Int → Int → Int) (c : Ctx),
    (i, op) ∈ [(Instr.iadd f, fun a b _ => a + b), (.isub f, fun a b _ => a - b), (.imul f, fun a b _ => a * b),
      (.imulh f, fun a b _ => a * b / 2 ^ intWidth (dtN f)), (.imad f, fun a b d => a * b + d), (.iabs f, fun a _ _ => a.natAbs),
      (.ineg f, fun a _ _ => -a), (.imin f, fun a b _ => min a b), (.imax f, fun a b _ => max a b)] →
    Runs s i f c →
    ∃ t, exec i s = .next t ∧
      c.gives t (intRegs (dtN f)) (dtN f == 0) fun l =>
        let w := intWidth (dtN f)
        let read := fun (x : Nat) => if dtSigned (dtN f) then toSigned w x else (x : Int)
        let x := op (read (c.srcA l)) (read (c.srcB l)) (read (c.srcC l))
        wrap w (if f.sat then (if dtSigned (dtN f) then clamp (-2 ^ (w - 1)) (2 ^ (w - 1) - 1) x else clamp 0 (2 ^ w - 1) x) else x)

/-- IDIV and IREM truncate toward zero, with fixed results for a zero divisor and the one overflow (R175). -/
def Obligations.DivisionResults : Prop :=
  ∀ (s : State) (f : Fields) (i : Instr) (c : Ctx), i ∈ [Instr.idiv f, .irem f] → Runs s i f c →
    let w := intWidth (dtN f)
    let read := fun (x : Nat) => if dtSigned (dtN f) then toSigned w x else (x : Int)
    ∃ t, exec i s = .next t ∧
      (t.groupOf c).flags = c.g.flags ||| (if c.some_ (fun l => c.srcB l == 0) then 2 else 0) ∧
      c.gives t (intRegs (dtN f)) (dtN f == 0) fun l =>
        let a := read (c.srcA l)
        let b := read (c.srcB l)
        if i = .idiv f then
          if b = 0 then 2 ^ w - 1
          else if dtSigned (dtN f) ∧ a = -2 ^ (w - 1) ∧ b = -1 then (if f.sat then 2 ^ (w - 1) - 1 else 2 ^ (w - 1))
          else wrap w (a.tdiv b)
        else if b = 0 then c.srcA l
        else wrap w (a - b * a.tdiv b)

/-- Shifts and rotates by any 32-bit amount (R176). -/
def Obligations.ShiftResults : Prop :=
  ∀ (s : State) (f : Fields) (i : Instr) (op : Nat → Nat → Nat → Nat) (c : Ctx),
    (i, op) ∈ [(Instr.shl f, fun w a n => if w ≤ n then 0 else a * 2 ^ n % 2 ^ w), (.shr f, fun w a n => if w ≤ n then 0 else a / 2 ^ n),
      (.sar f, fun w a n => if w ≤ n then (if a.testBit (w - 1) then 2 ^ w - 1 else 0) else wrap w (toSigned w a / 2 ^ n)),
      (.rot f, fun w a n => if subN f = 0 then a * 2 ^ (n % w) % 2 ^ w + a / 2 ^ (w - n % w)
        else a / 2 ^ (n % w) + a * 2 ^ (w - n % w) % 2 ^ w)] →
    Runs s i f c →
    ∃ t, exec i s = .next t ∧
      c.gives t (intRegs (dtN f)) (dtN f == 0) fun l =>
        op (intWidth (dtN f)) (c.srcA l) (c.g.value (intImm (dtN f)) f.b 1 l)

/-- Bit counts, field extraction and field insertion (R178). -/
def Obligations.BitFieldResults : Prop :=
  (∀ (s : State) (f : Fields) (i : Instr) (op : Nat → Nat → Nat) (c : Ctx),
    (i, op) ∈ [(Instr.popc f, fun w a => ((List.range w).filter fun j => a.testBit j).length),
      (.clz f, fun w a => ((List.range w).find? fun j => a.testBit (w - 1 - j)).getD w),
      (.ctz f, fun w a => ((List.range w).find? fun j => a.testBit j).getD w)] →
    Runs s i f c →
    ∃ t, exec i s = .next t ∧ c.gives t 1 false fun l => op (intWidth (dtN f)) (c.srcA l)) ∧
  ∀ (s : State) (f : Fields) (i : Instr) (c : Ctx), i ∈ [Instr.bfx f, .bfi f] → Runs s i f c →
    let w := intWidth (dtN f)
    ∃ t, exec i s = .next t ∧ c.gives t (intRegs (dtN f)) (dtN f == 0) fun l =>
      let b := c.g.value (intImm (dtN f)) f.b 1 l
      let pos := b % 256
      let len := b / 256 % 256
      let field := c.srcA l / 2 ^ pos % 2 ^ min len (w - pos)
      let d := c.g.value .unsigned f.c (intRegs (dtN f)) l
      if i = .bfx f then
        if w ≤ pos ∨ len = 0 then 0
        else if dtSigned (dtN f) ∧ field.testBit (min len (w - pos) - 1) then field + 2 ^ w - 2 ^ min len (w - pos)
        else field
      else if w ≤ pos ∨ len = 0 then d
      else d - (d / 2 ^ pos % 2 ^ min len (w - pos)) * 2 ^ pos + (c.srcA l % 2 ^ min len (w - pos)) * 2 ^ pos

/-- The bitwise forms, selection and bit interleaving, bit by bit (spec/07_vector_instructions.md, The integer class, 0x20–0x3F). -/
def Obligations.BitwiseResults : Prop :=
  ∀ (s : State) (f : Fields) (i : Instr) (op : Nat → Nat → Nat → Bool → Nat → Bool) (c : Ctx),
    let w := intWidth (dtN f)
    (i, op) ∈ [(Instr.and f, fun a b _ _ j => a.testBit j && b.testBit j), (.or f, fun a b _ _ j => a.testBit j || b.testBit j),
      (.xor f, fun a b _ _ j => a.testBit j ^^ b.testBit j), (.andn f, fun a b _ _ j => a.testBit j && !b.testBit j),
      (.lop3 f, fun a b d _ j => (subN f * 16 + xmN f).testBit (4 * (a.testBit j).toNat + 2 * (b.testBit j).toNat + (d.testBit j).toNat)),
      (.brev f, fun a _ _ _ j => a.testBit (w - 1 - j)), (.sel f, fun a b _ p j => if p then a.testBit j else b.testBit j),
      (.bilv f, fun a b d _ j =>
        if subN f = 0 then (if j % 2 = 0 then a else b).testBit (j / 2)
        else decide (j < w / 3 * 3) && (if j % 3 = 0 then a else if j % 3 = 1 then b else d).testBit (j / 3)),
      (.bdil f, fun a _ _ _ j =>
        if subN f < 2 then decide (j < w / 2) && a.testBit (2 * j + subN f)
        else decide (j < w / 3) && a.testBit (3 * j + (subN f - 2)))] →
    Runs s i f c →
    ∃ (t : State) (x : Nat → Nat), exec i s = .next t ∧ c.gives t (intRegs (dtN f)) (dtN f == 0) x ∧
      ∀ l j, x l < 2 ^ w ∧ (j < w → (x l).testBit j =
        op (c.g.value .unsigned f.a (intRegs (dtN f)) l) (c.g.value .unsigned f.b (intRegs (dtN f)) l)
          (c.g.value .unsigned f.c (intRegs (dtN f)) l) ((c.g.predOf f.c).getLsbD l) j)

/-- ICMP writes a relation of A and B by DT's sign (R180). -/
def Obligations.IntegerComparison : Prop :=
  (∀ (s : State) (f : Fields) (c : Ctx), Runs s (.icmp f) f c →
    let read := fun (x : Nat) => if dtSigned (dtN f) then toSigned (intWidth (dtN f)) x else (x : Int)
    ∃ t, exec (.icmp f) s = .next t ∧ c.givesPred t fun l =>
      let a := read (c.srcA l)
      let b := read (c.srcB l)
      (subN f = 0 ∧ a = b) ∨ (subN f = 1 ∧ a ≠ b) ∨ (subN f = 2 ∧ a < b) ∨ (subN f = 3 ∧ a ≤ b) ∨ (subN f = 4 ∧ b < a) ∨
        (subN f = 5 ∧ b ≤ a)) ∧
  ∀ (e : Env) (f : Fields), 6 ≤ subN f → (Instr.icmp f).wf e = false

/-- IADDC adds with the carry of a predicate and writes the carry back, and IMADW accumulates into a pair (spec/07_vector_instructions.md, The integer class, 0x20–0x3F). -/
def Obligations.CarryAddition : Prop :=
  (∀ (s : State) (f : Fields) (n : Fin 8) (c : Ctx), f.c = .p n → Runs s (.iaddc f) f c →
    let sum := fun (l : Nat) => c.g.value .unsigned f.a 1 l +
      (if subN f = 0 then c.g.value .unsigned f.b 1 l else 2 ^ 32 - 1 - c.g.value .unsigned f.b 1 l) + ((c.g.pred n.val).getLsbD l).toNat
    ∃ t, exec (.iaddc f) s = .next t ∧ c.gives t 1 false (fun l => sum l % 2 ^ 32) ∧
      (n.val = 7 ∨ ∀ l, l < 32 → ((t.groupOf c).pred n.val).getLsbD l =
        if c.puts l then decide (2 ^ 32 ≤ sum (c.from_ l)) else (c.g.pred n.val).getLsbD l)) ∧
  ∀ (s : State) (f : Fields) (c : Ctx), Runs s (.imadw f) f c →
    let sg := dtSigned (dtN f)
    let read := fun (w x : Nat) => if sg then toSigned w x else (x : Int)
    ∃ t, exec (.imadw f) s = .next t ∧ c.gives t 2 false fun l =>
      let x := read 32 (c.srcA l) * read 32 (c.srcB l) +
        read 64 (modified 64 (bit (xmN f) 2) false (c.g.value (intImm (dtN f)) f.c 2 l))
      wrap 64 (if f.sat then (if sg then clamp (-2 ^ 63) (2 ^ 63 - 1) x else clamp 0 (2 ^ 64 - 1) x) else x)

/-! ### The floating class -/

/-- Every floating form completes and changes only its destination (spec/07_vector_instructions.md, The floating class, 0x40–0x54; spec/06_number_formats.md, Flags, the overflow counter and the loss scale). -/
def Obligations.FloatFormsComplete : Prop :=
  ∀ (s : State) (f : Fields) (i : Instr) (c : Ctx),
    i ∈ [.fadd f, .fsub f, .fmul f, .ffma f, .fmin f, .fmax f, .fcmp f, .fclass f, .frnd f, .fdiv f, .fsqrt f, .frcp f, .frsq f, .fex2 f,
      .flg2 f, .fsin f, .fcos f, .ftanh f, .fscale f, .ffrx f, .fdot2 f] →
    Runs s i f c →
    ∃ t, exec i s = .next t ∧ NextWord s t c c.written ∧
      (t.groupOf c).flags &&& ~~~0x1F#32 = c.g.flags &&& ~~~0x1F#32 ∧
      (i ∈ [.fmin f, .fmax f, .fcmp f, .fclass f] → (t.groupOf c).flags = c.g.flags ∧ (t.groupOf c).rsr = c.g.rsr)

/-- FMIN, FMAX, FCMP and FCLASS on every operand (R185). -/
def Obligations.FloatSelection : Prop :=
  (∀ (s : State) (f : Fields) (i : Instr) (larger : Bool) (c : Ctx),
    (i, larger) ∈ [(Instr.fmin f, false), (.fmax f, true)] → Runs s i f c →
    let F := fltFmt (dtN f)
    -- codes in the order of their values, -0 below +0
    let key := fun (x : Nat) => if x < 2 ^ (F.bits - 1) then (x : Int) else 2 ^ (F.bits - 1) - 1 - (x : Int)
    let pick := fun (x y : Nat) =>
      if (F.decode x).isNan && (F.decode y).isNan then F.nan.getD 0
      else if (F.decode x).isNan then (if modeNANP c.sp.mode = 0 then y else F.nan.getD 0)
      else if (F.decode y).isNan then (if modeNANP c.sp.mode = 0 then x else F.nan.getD 0)
      else if (key x < key y) != larger then x else y
    ∃ t, exec i s = .next t ∧ (t.groupOf c).flags = c.g.flags ∧
      c.gives t (fltRegs (dtN f)) false fun l =>
        pick (c.fltA.code l 0) (c.fltB.code l 0) +
          if fltElems (dtN f) = 2 then pick (c.fltA.code l 1) (c.fltB.code l 1) * 2 ^ F.bits else 0) ∧
  (∀ (s : State) (f : Fields) (c : Ctx), Runs s (.fcmp f) f c →
    ∃ t, exec (.fcmp f) s = .next t ∧ (t.groupOf c).flags = c.g.flags ∧
      c.givesPred t fun l =>
        let x := c.fltA.code l 0
        let y := c.fltB.code l 0
        let nan := (num32 x).isNan || (num32 y).isNan
        let key := fun (x : Nat) => if x < 2 ^ 31 then (x : Int) else 2 ^ 31 - (x : Int)
        (nan && (subN f == 1 || subN f == 7)) || (!nan && ((subN f == 0 && key x == key y) || (subN f == 1 && key x != key y) ||
          (subN f == 2 && decide (key x < key y)) || (subN f == 3 && decide (key x ≤ key y)) || (subN f == 4 && decide (key y < key x)) ||
          (subN f == 5 && decide (key y ≤ key x)) || subN f == 6))) ∧
  (∀ (e : Env) (f : Fields), 8 ≤ subN f → (Instr.fcmp f).wf e = false) ∧
  ∀ (s : State) (f : Fields) (c : Ctx), Runs s (.fclass f) f c →
    ∃ t, exec (.fclass f) s = .next t ∧ (t.groupOf c).flags = c.g.flags ∧
      c.gives t 1 false fun l =>
        let x := signMod fp32 (bit (xmN f) 0) (bit (xmN f) 3) (c.g.value .upper f.a 1 l)
        let mag := x % 2 ^ 31
        if 0x7F800000 < mag then 256
        else if x < 2 ^ 31 then (if mag = 0 then 16 else if mag < 2 ^ 23 then 32 else if mag < 0x7F800000 then 64 else 128)
        else if mag = 0 then 8 else if mag < 2 ^ 23 then 4 else if mag < 0x7F800000 then 2 else 1

/-- The floating forms round one exact value, element by element, and raise its flags; FFRX takes a value apart, and a special function
keeps its exact and defined cases, with the bounds of FRCP and FRSQ (spec/07_vector_instructions.md, The floating class, 0x40–0x54;
spec/06_number_formats.md, Rounding order in the vector unit; Special functions). A reciprocal from 2^128 on is the model's own infinity
(log 16). -/
def Obligations.FloatResultsRoundOnce : Prop :=
  (∀ (s : State) (f : Fields) (i : Instr) (exact : RMode → Nat → Machine.Num → Machine.Num → Machine.Num → Rounded) (c : Ctx),
    let F := fltFmt (dtN f)
    let new := fun (md : RMode) (r : Nat) (nan : Bool) (x : Machine.Num) => roundNew F md f.sat r nan x
    -- the integer next to a magnitude that the mode chooses, with the value's sign
    let whole := fun (md : RMode) (r : Nat) (x : Machine.Num) => match x with
      | .fin neg m e =>
        let u := unitsOf m 1 e 0
        if m = 0 then ({ code := F.sign neg } : Rounded)
        else { F.round .rtz false 0 (.fin neg (if roundUp md neg (cutOf u.1 u.2) r then u.1 / u.2 + 1 else u.1 / u.2) 0) with
               nx := decide (u.1 % u.2 ≠ 0) }
      | x => F.round .rne false 0 x
    (i, exact) ∈ [(Instr.fadd f, fun md r x y _ => new md r (x.isNan || y.isNan) (sumOf md [x, y])),
      (.fsub f, fun md r x y _ => new md r (x.isNan || y.isNan) (sumOf md [x, y.negate])),
      (.fmul f, fun md r x y _ => new md r (x.isNan || y.isNan) (x.mul y)),
      (.ffma f, fun md r x y z => new md r (x.isNan || y.isNan || z.isNan) (sumOf md [x.mul y, z])),
      (.fdiv f, fun md r x y _ => divideFlt md f.sat r x y), (.fsqrt f, fun md r x _ _ => sqrtFlt md r x),
      (.frnd f, fun md r x _ _ => whole md r x)] →
    Runs s i f c →
    let md := roundMode f c.sp.mode
    let one := fun (l e : Nat) => ftz F c.sp.mode (exact md (if md = .rsr then c.draw l e else 0) (F.decode (c.fltA.code l e))
      (F.decode (c.fltB.code l e)) (F.decode (c.fltC.code l e)))
    let el := fun (l e : Nat) => (one l e).code
    ∃ t, exec i s = .next t ∧
      (c.gives t (fltRegs (dtN f)) false fun l =>
        if dtN f = 3 then el l 0 % 2 ^ 32 + el l 1 % 2 ^ 32 * 2 ^ 32
        else (el l 0 + if fltElems (dtN f) = 2 then el l 1 * 2 ^ 16 else 0) % 2 ^ 32) ∧
      c.flagged t fun l => (one l 0).flags ||| if fltElems (dtN f) = 2 then (one l 1).flags else 0) ∧
  (∀ (s : State) (f : Fields) (c : Ctx), Runs s (.fscale f) f c →
    let F := fltFmt (dtN f)
    let md := roundMode f c.sp.mode
    let one := fun (l e : Nat) => ftz F c.sp.mode (F.round md f.sat (if md = .rsr then c.draw l e else 0)
      ((F.decode (c.fltA.code l e)).scale2 (toSigned 32 (c.g.value .signed f.b 1 l))))
    let el := fun (l e : Nat) => (one l e).code
    ∃ t, exec (.fscale f) s = .next t ∧
      (c.gives t (fltRegs (dtN f)) false fun l =>
        if dtN f = 3 then el l 0 % 2 ^ 32 + el l 1 % 2 ^ 32 * 2 ^ 32
        else (el l 0 + if fltElems (dtN f) = 2 then el l 1 * 2 ^ 16 else 0) % 2 ^ 32) ∧
      c.flagged t fun l => (one l 0).flags ||| if fltElems (dtN f) = 2 then (one l 1).flags else 0) ∧
  (∀ (s : State) (f : Fields) (c : Ctx), Runs s (.fdot2 f) f c →
    let F := fltFmt (dtN f)
    let md := roundMode f c.sp.mode
    let one := fun (l : Nat) =>
      let a := fun (e : Nat) => F.decode (c.fltA.code l e)
      let b := fun (e : Nat) => F.decode (c.fltB.code l e)
      let z := num32 ((c.fltSrc 0 f.c (bit (xmN f) 2) false true).code l 0)
      ftz fp32 c.sp.mode (roundNew fp32 md f.sat (if md = .rsr then c.draw l 0 else 0)
        ([a 0, a 1, b 0, b 1, z].any Num.isNan) (sumOf md [(a 0).mul (b 0), (a 1).mul (b 1), z]))
    ∃ t, exec (.fdot2 f) s = .next t ∧ c.gives t 1 false (fun l => (one l).code) ∧ c.flagged t fun l => (one l).flags) ∧
  (∀ (s : State) (f : Fields) (c : Ctx), Runs s (.ffrx f) f c →
    let part := fun (x : Machine.Num) => match x with
      | .fin neg m e => if m = 0 then (fp32.sign neg, 0, 0) else (rne32 (.fin neg m (-(m.log2 : Int))), wrap 32 ((m.log2 : Int) + e), 0)
      | .inf neg => (fp32.sign neg + 0x7F800000, 0x80000000, 1)
      | .nan => (0x7FC00000, 0x80000000, 1)
    let of := fun (l : Nat) => part (num32 (c.fltA.code l 0))
    ∃ t, exec (.ffrx f) s = .next t ∧ c.gives t 1 (subN f == 1) (fun l => if subN f = 0 then (of l).1 else (of l).2.1) ∧
      c.flagged t fun l => if subN f = 0 then 0 else (of l).2.2) ∧
  ∀ (s : State) (f : Fields) (i : Instr) (spec : Machine.Num → Rounded → Prop) (c : Ctx),
    (i, spec) ∈ [(Instr.frcp f, rcpResult), (.frsq f, rsqResult), (.fex2 f, ex2Result), (.flg2 f, log2Result), (.fsin f, trigResult false),
      (.fcos f, trigResult true), (.ftanh f, tanhResult)] →
    Runs s i f c →
    ∃ (t : State) (r : Nat → Rounded), exec i s = .next t ∧
      (∀ l, spec (num32 (c.fltA.code l 0)) (r l) ∧ (r l).nx = false ∧ (r l).uf = false) ∧
      c.gives t 1 false (fun l => (ftz fp32 c.sp.mode (r l)).code) ∧ c.flagged t fun l => (ftz fp32 c.sp.mode (r l)).flags

/-! ### The predicate and lane class, and the tag instructions -/

/-- Every predicate, lane and tag form completes and changes only its destination (spec/07_vector_instructions.md, The predicate and lane class, 0x60–0x69; spec/05_registers.md, TAGQ, TAGG and RELV). -/
def Obligations.LaneFormsComplete : Prop :=
  ∀ (s : State) (f : Fields) (i : Instr) (c : Ctx),
    i ∈ [.plop f, .pmovTov f, .pmovFromv f, .pmovPack f, .pmovUnpk f, .actm f, .mov f, .movi f, .perm f, .lred f, .lscan f,
      .matchLanes f, .tagq f, .tagg f, .relv f] →
    Runs s i f c →
    ∃ t, exec i s = .next t ∧ NextWord s t c c.written ∧
      ((i ∈ [.lred f, .lscan f] ∧ subN f % 8 = 0 ∧ dtN f = 4) ∨
        ((t.groupOf c).flags = c.g.flags ∧ (t.groupOf c).rsr = c.g.rsr))

/-- PLOP and PMOV (R189). -/
def Obligations.PredicateResults : Prop :=
  (∀ (s : State) (f : Fields) (c : Ctx), Runs s (.plop f) f c →
    ∃ t, exec (.plop f) s = .next t ∧ c.givesPred t fun l =>
      let a := (c.g.predOf f.a).getLsbD l ^^ (xmN f).testBit 0
      let b := (c.g.predOf f.b).getLsbD l ^^ (xmN f).testBit 1
      if subN f = 0 then a && b else if subN f = 1 then a || b else if subN f = 2 then a ^^ b else a) ∧
  (∀ (s : State) (f : Fields) (c : Ctx), Runs s (.pmovTov f) f c →
    ∃ t, exec (.pmovTov f) s = .next t ∧ c.gives t 1 false (fun l => if (c.g.predOf f.a).getLsbD l then 1 else 0) ∧
      ∀ n q, f.d = .v n q → ∃ x, (t.groupOf c).vreg n.val = .general x) ∧
  (∀ (s : State) (f : Fields) (c : Ctx), Runs s (.pmovFromv f) f c →
    ∃ t, exec (.pmovFromv f) s = .next t ∧ c.givesPred t fun l => c.g.value .unsigned f.a 1 l != 0) ∧
  (∀ (s : State) (f : Fields) (c : Ctx), Runs s (.pmovPack f) f c →
    ∃ t, exec (.pmovPack f) s = .next t ∧ c.gives t 1 false fun _ => (c.g.predOf f.a).toNat) ∧
  (∀ (s : State) (f : Fields) (n : Fin 8) (c : Ctx), f.d = .p n → n.val < 7 → Runs s (.pmovUnpk f) f c →
    ∃ t, exec (.pmovUnpk f) s = .next t ∧ ((t.groupOf c).pred n.val).toNat = c.g.value .unsigned f.a 1 c.designated) ∧
  (∀ (e : Env) (f : Fields), 4 ≤ subN f → (Instr.plop f).wf e = false) ∧
  ∀ (e : Env) (w : InsWord) (i : Instr), w.toNat % 256 = 0x61 → 4 ≤ w.toNat / 2 ^ 28 % 16 → decode e w ≠ .ok i

/-- ACTM, MOV, MOVI, PERM and MATCH (R191; R192; R193; R195). -/
def Obligations.LaneResults : Prop :=
  (∀ (s : State) (f : Fields) (c : Ctx), Runs s (.actm f) f c →
    ∃ t, exec (.actm f) s = .next t ∧ (∀ n q, f.d = .v n q → ∃ x, (t.groupOf c).vreg n.val = .uniform x) ∧
      c.gives t 1 false fun _ =>
        (if subN f = 0 then c.sp.mask else if subN f = 1 then ~~~ c.g.exited else c.act).toNat) ∧
  (∀ (s : State) (f : Fields) (c : Ctx), Runs s (.mov f) f c →
    ∃ t, exec (.mov f) s = .next t ∧ c.gives t (dtN f + 1) false fun l => c.g.value .unsigned f.a (dtN f + 1) l) ∧
  (∀ (s : State) (f : Fields) (x y : BitVec 16) (c : Ctx), f.a = .imm x → f.b = .imm y → Runs s (.movi f) f c →
    ∃ t, exec (.movi f) s = .next t ∧ c.gives t 1 (subN f == 1) fun _ => x.toNat + y.toNat * 2 ^ 16) ∧
  (∀ (s : State) (f : Fields) (c : Ctx), Runs s (.perm f) f c →
    ∃ t, exec (.perm f) s = .next t ∧ c.gives t (dtN f + 1) false fun l =>
      let j := c.g.value .unsigned f.b 1 l
      if subN f = 0 then c.g.value .unsigned f.a (dtN f + 1) (j % 32)
      else if j < 32 then c.g.value .unsigned f.a (dtN f + 1) j else 0) ∧
  (∀ (s : State) (f : Fields) (c : Ctx), Runs s (.matchLanes f) f c →
    let val := c.g.value .unsigned f.a (dtN f + 1)
    ∃ t, exec (.matchLanes f) s = .next t ∧
      if subN f = 0 then
        c.gives t 1 false fun l => ((List.range 32).filter fun k => c.act.getLsbD k && val k == val l).foldl (fun n k => n + 2 ^ k) 0
      else c.givesPred t fun _ => (lanesOf c.act).all fun j => (lanesOf c.act).all fun k => val j == val k) ∧
  (∀ (e : Env) (f : Fields), 3 ≤ subN f → (Instr.actm f).wf e = false) ∧
  (∀ (e : Env) (f : Fields), 1 ≤ subN f → (Instr.mov f).wf e = false) ∧
  (∀ (e : Env) (f : Fields), (2 ≤ subN f ∨ (subN f = 1 ∧ isScalar f.d = false)) → (Instr.movi f).wf e = false) ∧
  ∀ (e : Env) (f : Fields), 2 ≤ subN f → (Instr.perm f).wf e = false ∧ (Instr.matchLanes f).wf e = false

/-- LRED and LSCAN reduce the contributors' values in lane order (spec/07_vector_instructions.md, The predicate and lane class, 0x60–0x69). -/
def Obligations.ReductionResults : Prop :=
  (∀ (s : State) (f : Fields) (i : Instr) (c : Ctx), i ∈ [Instr.lred f, .lscan f] → dtN f ≠ 4 → Runs s i f c →
    let val := fun (l : Nat) => modified 32 false (dtN f == 2 && (xmN f).testBit 3) (c.g.value .unsigned f.a 1 l)
    let least := fun (x y : Nat) => if dtN f = 2 then (if toSigned 32 y < toSigned 32 x then y else x) else min x y
    let greatest := fun (x y : Nat) => if dtN f = 2 then (if toSigned 32 x < toSigned 32 y then y else x) else max x y
    let total := fun (ls : List Nat) => ls.foldl (fun acc l => match subN f % 8 with
        | 0 => (acc + val l) % 2 ^ 32
        | 1 => least acc (val l)
        | 2 => greatest acc (val l)
        | 3 => acc &&& val l
        | 4 => acc ||| val l
        | _ => acc ^^^ val l)
      (match subN f % 8 with
        | 1 => if dtN f = 2 then 0x7FFFFFFF else 0xFFFFFFFF
        | 2 => if dtN f = 2 then 0x80000000 else 0
        | 3 => 0xFFFFFFFF
        | _ => 0)
    ∃ t, exec i s = .next t ∧
      c.gives t 1 (i == .lred f && dtN f == 2) fun l =>
        total ((lanesOf c.act).filter fun k => i = .lred f || (if subN f < 8 then k ≤ l else k < l))) ∧
  ∀ (s : State) (f : Fields) (i : Instr) (c : Ctx), i ∈ [Instr.lred f, .lscan f] → dtN f = 4 → Runs s i f c →
    let md := roundMode f c.sp.mode
    let term := fun (l : Nat) => signMod fp32 false (bit (xmN f) 3) (daz fp32 c.sp.mode (c.g.value .unsigned f.a 1 l))
    let lanes := fun (l : Nat) => (lanesOf c.act).filter fun k => i = .lred f || (if subN f < 8 then k ≤ l else k < l)
    let nan := fun (k : Nat) => (num32 (term k)).isNan
    -- codes in the order of their values, -0 below +0
    let key := fun (x : Nat) => if x < 2 ^ 31 then (x : Int) else 2 ^ 31 - 1 - (x : Int)
    ∃ (t : State) (r : Nat → Rounded), exec i s = .next t ∧ c.gives t 1 false (fun l => (r l).code) ∧ (c.flagged t fun l => (r l).flags) ∧
      ∀ l, l < 32 →
        (lanes l = [] → (r l).plain (if subN f % 8 = 0 then 0 else if subN f % 8 = 1 then 0x7F800000 else 0xFF800000)) ∧
        (subN f % 8 = 0 → lanes l ≠ [] → r l = ftz fp32 c.sp.mode (roundNew fp32 md false (if md = .rsr then c.draw l 0 else 0)
          ((lanes l).any nan) (sumOf md ((lanes l).map fun k => num32 (term k))))) ∧
        (subN f % 8 ≠ 0 → lanes l ≠ [] →
          ((modeNANP c.sp.mode ≠ 0 ∧ ∃ k ∈ lanes l, nan k = true) ∨ (∀ k ∈ lanes l, nan k = true) → (r l).plain 0x7FC00000) ∧
          (∀ k ∈ lanes l, nan k = false → (modeNANP c.sp.mode = 0 ∨ ∀ j ∈ lanes l, nan j = false) →
            (∀ j ∈ lanes l, nan j = false → if subN f % 8 = 1 then key (term k) ≤ key (term j) else key (term j) ≤ key (term k)) →
            (r l).plain (term k)))

/-- The tag instructions report, force and release shapes (R138; R139; R140). -/
def Obligations.TagResults : Prop :=
  (∀ (s : State) (f : Fields) (c : Ctx), Runs s (.tagq f) f c →
    ∃ t, exec (.tagq f) s = .next t ∧ (t.groupOf c).flags = c.g.flags ∧ c.gives t 2 false fun _ =>
      (match c.g.word .unsigned f.a 0 with
        | .uniform _ => 0
        | .affine _ _ => 1
        | .general _ => 2) + c.g.generals * 2 ^ 16 + c.g.ceiling * 2 ^ 32) ∧
  (∀ (s : State) (f : Fields) (c : Ctx), s.ctx (.tagq f) f = some c → spansMeet (s.pendingSpans c.who.team c.g) (spanOf (uV 1) f.a) = true →
    exec (.tagq f) s = .next (s.block c.who (.depend (.tagq f)))) ∧
  (∀ (s : State) (f : Fields) (i : Instr) (n : Fin 256) (q : Perm) (c : Ctx), i ∈ [Instr.tagg f, .relv f] → f.d = .v n q →
    Issues s i f c → i.wf (groupEnv c.t c.g) = true →
    let inside := fun (m : Nat) => decide (n.val ≤ m) && decide (m < n.val + immVal f.a)
    let fresh := ((List.range 256).filter fun m => inside m && !(c.g.vreg m).isGeneral).length
    if i = .tagg f ∧ c.g.ceiling < c.g.generals + fresh ∧ 0 < fresh then
      exec i s = .next ((s.issued c).raise c (c.fault codeREGCEIL c.act))
    else ∃ t, exec i s = .next t ∧ NextWord s t c c.written ∧
      (∀ l, c.g.latch = some l → spansMeet c.written [⟨l.kind, l.first, l.len⟩] = true → (t.groupOf c).latch = none) ∧
      ∀ m, m < 256 → (t.groupOf c).vreg m =
        if inside m then (if i = .tagg f then .general (c.g.vreg m).lanes else .uniform 0) else c.g.vreg m)

/-! ### The conversion, format and mode class -/

/-- Every conversion form and every read of FMT, MODE, the flags and the loss scale completes and changes only its destination; and what
CVT, PACK, UNPK, QBLK and DQBLK write (spec/07_vector_instructions.md, The conversion, format and mode class, 0x70–0x7B;
spec/06_number_formats.md, NQ4). Of QBLK.CODE the statement leaves open what log 8 does. -/
def Obligations.ConversionFormsComplete : Prop :=
  (∀ (s : State) (f : Fields) (i : Instr) (c : Ctx),
    i ∈ [.cvt f, .pack f, .unpk f, .qblkScale f, .qblkCode f, .qblkSuper f, .dqblk f] → Runs s i f c →
    ∃ t, exec i s = .next t ∧ NextWord s t c c.written ∧ (t.groupOf c).flags &&& ~~~0x1F#32 = c.g.flags &&& ~~~0x1F#32) ∧
  (∀ (s : State) (f : Fields) (i : Instr) (n : Nat) (x : Group → Split → Nat) (c : Ctx),
    (i, n, x) ∈ [(Instr.getfmt f, 1, fun (_ : Group) (sp : Split) => sp.fmt.toNat), (.getmode f, 1, fun _ sp => sp.mode.toNat),
      (.flagsRd f, 1, fun g _ => g.flags.toNat), (.lscaleRd f, 2, fun g _ => g.lsr.toNat)] →
    Runs s i f c → (i = .flagsRd f → s.matrixBusy c.who.team c.who.group = false) →
    ∃ t, exec i s = .next t ∧ NextWord s t c c.written ∧ c.gives t n false (fun _ => x c.g c.sp) ∧
      (t.groupOf c).flags = c.g.flags ∧ (t.groupOf c).rsr = c.g.rsr) ∧
  (let wide := [fp32, fp16, bf16, e5m2, e4m3, e3m2, e2m3, e2m1]
  let read := fun (mode : W32) (F : FloatFmt) (x : Nat) => F.decode (if F ∈ [fp32, fp16, bf16] then daz F mode x else x)
  let cast := fun (mode : W32) (md : RMode) (sat : Bool) (r : Nat) (F : FloatFmt) (x : Machine.Num) =>
    if F ∈ [fp32, fp16, bf16] then ftz F mode (F.round md sat r x) else F.round md sat r x
  let toInt := fun (md : RMode) (r w : Nat) (signed : Bool) (x : Machine.Num) =>
    if signed then roundToInt md r w (-2 ^ (w - 1)) (2 ^ (w - 1) - 1) x else roundToInt md r w 0 (2 ^ w - 1) x
  let draw := fun (c : Ctx) (md : RMode) (l e : Nat) => if md = .rsr then c.draw l e else 0
  let element := fun (c : Ctx) (o : Opnd) (j l : Nat) => num32 (daz fp32 c.sp.mode ((c.g.word .unsigned o j).at l).toNat)
  (∀ (s : State) (f : Fields) (c : Ctx), Runs s (.cvt f) f c →
    let md := roundMode f c.sp.mode
    let bits := fun (k : Nat) => if k < 10 then 32 else if k < 12 then 64 else if k < 14 then 16 else 8
    let value := fun (l : Nat) =>
      let x := c.g.value (cvtImm (subN f)) f.a (if subN f = 10 ∨ subN f = 11 then 2 else 1) l
      match wide[subN f]? with
      | some F => read c.sp.mode F x
      | none => Num.ofInt (if subN f % 2 = 0 then toSigned (bits (subN f)) x else ((x % 2 ^ bits (subN f) : Nat) : Int))
    let one := fun (l : Nat) => match wide[dtN f]? with
      | some F => cast c.sp.mode md f.sat (draw c md l 0) F (value l)
      | none => toInt md (draw c md l 0) (bits (dtN f)) (dtN f % 2 == 0) (value l)
    ∃ t, exec (.cvt f) s = .next t ∧ (c.flagged t fun l => (one l).flags) ∧
      c.gives t (if dtN f = 10 ∨ dtN f = 11 then 2 else 1) (dtN f == 8) fun l =>
        if dtN f = 12 ∨ dtN f = 14 then wrap 32 (toSigned (bits (dtN f)) (one l).code) else (one l).code) ∧
  (∀ (s : State) (f : Fields) (c : Ctx), Runs s (.pack f) f c →
    let md := roundMode f c.sp.mode
    let n := [2, 2, 4, 4, 4, 4, 8, 4, 8].getD (dtN f) 0
    let w := [16, 16, 8, 8, 6, 6, 4, 8, 4].getD (dtN f) 0
    let one := fun (l j : Nat) =>
      let x := ((c.g.word .upper (if dtN f ≤ 1 ∧ j ≠ 0 then f.b else f.a) (if dtN f ≤ 1 then 0 else j)).at l).toNat
      match wide[dtN f + 1]? with
      | some F => cast c.sp.mode md f.sat (draw c md l j) F (read c.sp.mode fp32 x)
      | none => toInt md 0 w true (Num.ofInt (toSigned 32 x))
    ∃ t, exec (.pack f) s = .next t ∧
      (c.flagged t fun l => (List.range n).foldl (fun acc j => acc ||| (one l j).flags) 0) ∧
      c.gives t 1 false fun l => (List.range n).foldl (fun acc j => acc + (one l j).code % 2 ^ w * 2 ^ (w * j)) 0) ∧
  (∀ (s : State) (f : Fields) (c : Ctx), Runs s (.unpk f) f c →
    let n := [2, 2, 4, 4, 4, 4, 8, 4, 8].getD (dtN f) 0
    let w := [16, 16, 8, 8, 6, 6, 4, 8, 4].getD (dtN f) 0
    let one := fun (l j : Nat) =>
      let x := ((c.g.word (if dtN f ≤ 1 then .both else .unsigned) f.a 0).at l).toNat / 2 ^ (w * j)
      match wide[dtN f + 1]? with
      | some F => rne32 (F.decode x)
      | none => wrap 32 (toSigned w x)
    ∃ t, exec (.unpk f) s = .next t ∧ (t.groupOf c).flags = c.g.flags ∧
      ∀ j l, j < n → l < 32 → (∀ x, f.d ≠ .special x) → (((t.groupOf c).word .unsigned f.d j).at l).toNat =
        if c.puts l then one (c.from_ l) j else ((c.g.word .unsigned f.d j).at l).toNat) ∧
  (∀ (s : State) (f : Fields) (c : Ctx), Runs s (.qblkScale f) f c →
    let xs := (List.range (if dtN f = 9 then 2 else 1)).flatMap fun j => (List.range 32).map fun l => element c f.a j l
    let odd := ∃ x ∈ xs, x.isNan = true ∨ x.isInf = true
    let zero := ∀ x ∈ xs, x.isZero = true
    let largest := fun (x : Machine.Num) => x ∈ xs ∧ 0 < x.size ∧ ∀ y ∈ xs, y.size ≤ x.size
    ∃ (t : State) (code fl : Nat), exec (.qblkScale f) s = .next t ∧ c.gives t 1 false (fun _ => code) ∧ (c.flagged t fun _ => fl) ∧
      (dtN f ≠ 9 → (odd → code = 255 ∧ fl = 1) ∧ (zero → code = 0 ∧ fl = 0) ∧
        ∀ x k, ¬ odd → largest x → (2 : Rat) ^ (k : Int) ≤ x.size → x.size < (2 : Rat) ^ (k + 1) →
          code = (clamp 0 254 (k - ([15, 8, 4, 2, 2].getD (dtN f - 4) 0 : Nat) + 127)).toNat ∧ fl = 0) ∧
      (dtN f = 9 →
        let F := num32 (lowWord (c.g.scalar .unsigned f.b)).toNat
        let sound := ∃ m e, F = .fin false m e ∧ 0 < m
        (¬ sound → code = 0 ∧ fl = 1) ∧ (sound → odd → code = 255 ∧ fl = 1) ∧ (sound → zero → code = 0 ∧ fl = 0) ∧
        ∀ x n, sound → ¬ odd → largest x → 256 * x.size ≤ (n : Rat) * F.size → ((n : Rat) - 1) * F.size < 256 * x.size →
          code = min n 255 ∧ fl = if 255 < n then 4 else 0)) ∧
  (∀ (s : State) (f : Fields) (c : Ctx), Runs s (.qblkSuper f) f c →
    let r := match element c f.a 0 c.designated with
      | .fin neg m e => if m = 0 then (0x3F800000, 0)
        else if neg then (0x3F800000, 1)
        else
          let y := fp32.roundMag .rup false 0 false (m * 256) 255 e
          (y.code, y.flags)
      | _ => (0x3F800000, 1)
    ∃ t, exec (.qblkSuper f) s = .next t ∧ c.gives t 1 false (fun _ => r.1) ∧ c.flagged t fun _ => r.2) ∧
  (∀ (s : State) (f : Fields) (c : Ctx), Runs s (.qblkCode f) f c →
    let md := roundMode f c.sp.mode
    let value := fun (l : Nat) => num32 (daz fp32 c.sp.mode ((c.g.word .upper f.a 0).at l).toNat)
    let scale := fun (l : Nat) => ((c.g.word .unsigned f.b 0).at l).toNat % 256
    let F := num32 (highWord (c.g.scalar .unsigned f.b)).toNat
    ∃ (t : State) (code fl : Nat → Nat), exec (.qblkCode f) s = .next t ∧ c.gives t 1 false code ∧ c.flagged t fl ∧ ∀ l, l < 32 →
      let x := value l
      (dtN f ≠ 9 →
        let r := ([e5m2, e4m3, e3m2, e2m3].getD (dtN f - 4) e2m1).round md false (draw c md l 0)
          (if scale l = 255 then .nan else x.scale2 (127 - (scale l : Int)))
        code l = r.code ∧ fl l = r.flags) ∧
      (dtN f = 9 →
        let sign := fun (sx : Bool) => if sx != F.neg? then 8 else 0
        (scale l = 0 → code l = 0 ∧ fl l = 0) ∧ (scale l ≠ 0 → x = .nan → code l = 0 ∧ fl l = 1) ∧
        (∀ sx, scale l ≠ 0 → x = .inf sx → F ≠ .nan → code l = sign sx + 7 ∧ fl l = 4) ∧
        (∀ sx m e, scale l ≠ 0 → x = .fin sx m e → F.isInf = true → code l = sign sx ∧ fl l = 24) ∧
        ∀ sx m e fs fm fe, scale l ≠ 0 → x = .fin sx m e → F = .fin fs fm fe → fm ≠ 0 →
          let levels := [43, 130, 221, 318, 427, 555, 725, 1024]
          let y := 1024 * x.size / ((scale l : Rat) / 256 * F.size)
          (y < 43 → code l = sign sx ∧ fl l = 24) ∧ (1024 < y → code l = sign sx + 7 ∧ fl l = 20) ∧
          (∀ j, j < 8 → y = (levels.getD j 0 : Nat) → code l = sign sx + j ∧ fl l = 0) ∧
          ∀ j, j < 7 → ((levels.getD j 0 : Nat) : Rat) < y → y < (levels.getD (j + 1) 0 : Nat) →
            let lo : Rat := (levels.getD j 0 : Nat)
            let hi : Rat := (levels.getD (j + 1) 0 : Nat)
            let up := (md = .rne ∧ lo + hi < 2 * y) ∨ (md = .rna ∧ lo + hi ≤ 2 * y) ∨ (md = .rup ∧ sign sx = 0) ∨ (md = .rdn ∧ sign sx = 8) ∨
              (md = .rsr ∧ (draw c md l 0 : Rat) * (hi - lo) < (y - lo) * 2 ^ 32)
            (up → code l = sign sx + j + 1) ∧ (¬ up → code l = sign sx + j) ∧ fl l = 16)) ∧
  ∀ (s : State) (f : Fields) (c : Ctx), Runs s (.dqblk f) f c →
    let md := roundMode f c.sp.mode
    let one := fun (l : Nat) =>
      let code := ((c.g.word .unsigned f.a 0).at l).toNat
      let scale := ((c.g.word .unsigned f.b 0).at l).toNat % 256
      let v := if dtN f = 9 then
          if scale = 0 then Num.fin false 0 0
          else ((Num.fin (code.testBit 3) ([43, 130, 221, 318, 427, 555, 725, 1024].getD (code % 8) 0) (-10)).mul (.fin false scale (-8))).mul
            (num32 (highWord (c.g.scalar .unsigned f.b)).toNat)
        else if scale = 255 then .nan
        else (([e5m2, e4m3, e3m2, e2m3].getD (dtN f - 4) e2m1).decode code).scale2 ((scale : Int) - 127)
      ftz fp32 c.sp.mode (fp32.round md false (draw c md l 0) v)
    ∃ t, exec (.dqblk f) s = .next t ∧ c.gives t 1 false (fun l => (one l).code) ∧ c.flagged t fun l => (one l).flags)

/-- SETFMT, SETMODE, GETFMT, GETMODE and SETSEED (R201; R202). -/
def Obligations.ModeAndSeedWrites : Prop :=
  (∀ (s : State) (f : Fields) (c : Ctx), RunsNarrow s (.setfmt f) f c →
    let x := (c.g.scalar .unsigned f.a).setWidth 32
    (fmtOk x.toNat = true → ∃ t, exec (.setfmt f) s = .next t ∧ Became s t c id fun sp => { sp with fmt := x &&& 0x1F0F0F#32 }) ∧
    (fmtOk x.toNat = false → exec (.setfmt f) s = .next ((s.issued c).raise c (c.fault codeADDRBAD (maskOf (· == c.designated)))))) ∧
  (∀ (s : State) (f : Fields) (c : Ctx), RunsNarrow s (.setmode f) f c →
    let x := (c.g.scalar .unsigned f.a).setWidth 32
    let ok := x.toNat % 8 ≠ 0 ∧ x.toNat % 8 ≠ 7 ∧ x.toNat / 32 % 4 < 2
    (ok → ∃ t, exec (.setmode f) s = .next t ∧ Became s t c id fun sp => { sp with mode := x &&& 0x37F#32 }) ∧
    (¬ ok → exec (.setmode f) s = .next ((s.issued c).raise c (c.fault codeADDRBAD (maskOf (· == c.designated)))))) ∧
  (∀ (s : State) (f : Fields) (i : Instr) (x : Split → W32) (c : Ctx), (i, x) ∈ [(Instr.getfmt f, Split.fmt), (.getmode f, Split.mode)] →
    Runs s i f c → ∃ t, exec i s = .next t ∧ NextWord s t c c.written ∧ c.gives t 1 false fun _ => (x c.sp).toNat) ∧
  (∀ (s : State) (f : Fields) (c : Ctx), RunsNarrow s (.setseed f) f c →
    ∃ t, exec (.setseed f) s = .next t ∧ Became s t c
      (fun g => { g with
        seeds := put g.seeds (subN f % 4) (c.g.scalar .unsigned f.a)
        rsr := if (subN f).testBit 2 then Vector.replicate 32 0 else g.rsr }) id) ∧
  ∀ (e : Env) (f : Fields) (i : Instr), i ∈ [Instr.setfmt f, .setmode f, .getfmt f, .getmode f, .setseed f] →
    f.scope ≠ .group ∨ dtN f ≠ 0 ∨ xmN f ≠ 0 ∨ (if i = .setseed f then 8 ≤ subN f else subN f ≠ 0) → i.wf e = false

/-- FLAGS and LSCALE read and change their registers in one step (spec/07_vector_instructions.md, The conversion, format and mode class, 0x70–0x7B; spec/06_number_formats.md, Flags, the overflow counter and the loss scale). -/
def Obligations.FlagsAndLossScale : Prop :=
  (∀ (s : State) (f : Fields) (i : Instr) (op : W32 → W32 → W32) (c : Ctx),
    (i, op) ∈ [(Instr.flagsClr f, fun w a => w &&& ~~~a), (.flagsSet f, fun w a => w ||| a)] → Runs s i f c →
    s.matrixBusy c.who.team c.who.group = false →
    let a := BitVec.ofNat 32 (c.g.value .unsigned f.a 1 c.designated)
    (a.toNat < 32 →
      ∃ t, exec i s = .next t ∧ c.gives t 1 false (fun _ => c.g.flags.toNat) ∧
        Became s t c (fun g => { g.putGroup f.d false { w := [g.flags] } with flags := op g.flags a }) id) ∧
    (32 ≤ a.toNat → exec i s = .next ((s.issued c).raise c (c.fault codeADDRBAD (maskOf (· == c.designated)))))) ∧
  (∀ (s : State) (f : Fields) (c : Ctx), Runs s (.lscaleStep f) f c → s.matrixBusy c.who.team c.who.group = false →
    let n := (c.g.scalar .unsigned f.a).toNat % 2 ^ 32
    let val := c.g.lsr.toNat % 2 ^ 32
    let run := min (c.g.lsr.toNat / 2 ^ 32 + 1) (2 ^ 32 - 1)
    let skipped := c.g.flags.getLsbD 2
    -- halving and doubling an FP32 value of this range moves its exponent field by one
    let val' := if skipped then max (val - 2 ^ 23) 0x3F800000 else if n ≤ run then min (val + 2 ^ 23) 0x4B800000 else val
    let run' := if skipped ∨ n ≤ run then 0 else run
    (0 < n → ∃ t, exec (.lscaleStep f) s = .next t ∧
      Became s t c (fun g => { g.putGroup f.d false { w := [if skipped then 1 else 0, BitVec.ofNat 32 val'] } with
        lsr := BitVec.ofNat 64 (val' + run' * 2 ^ 32), flags := g.flags &&& ~~~4#32 }) id ∧
      c.gives t 2 false (fun _ => (if skipped then 1 else 0) + val' * 2 ^ 32)) ∧
    (n = 0 → exec (.lscaleStep f) s = .next ((s.issued c).raise c (c.fault codeADDRBAD (maskOf (· == c.designated)))))) ∧
  (∀ (s : State) (f : Fields) (c : Ctx), RunsNarrow s (.lscaleWr f) f c →
    let x := c.g.scalar .unsigned f.a
    let ok := 0x3F800000 ≤ x.toNat % 2 ^ 32 ∧ x.toNat % 2 ^ 32 ≤ 0x4B800000
    (ok → ∃ t, exec (.lscaleWr f) s = .next t ∧ Became s t c (fun g => { g with lsr := x }) id) ∧
    (¬ ok → exec (.lscaleWr f) s = .next ((s.issued c).raise c (c.fault codeADDRBAD (maskOf (· == c.designated)))))) ∧
  ∀ (s : State) (f : Fields) (i : Instr) (c : Ctx), i ∈ [Instr.flagsRd f, .flagsClr f, .flagsSet f, .lscaleStep f] →
    s.ctx i f = some c → c.act ≠ 0 → s.matrixBusy c.who.team c.who.group = true →
    exec i s = .next (s.block c.who (.resource .matrixDone))

/-! ### Memory -/

/-- LD, LDS, LDL and LDC read their bytes and deliver them to D. A load with misaligned lanes reads one piece of each in a first step and the rest in a later one (the two steps are the model's, log 3) (spec/04_memory_instructions.md; spec/03_core_memory_and_engines.md). -/
def Obligations.LoadsComplete : Prop :=
  (∀ (s s1 : State) (f : Fields) (i : Instr) (sp : Space) (l : List (Nat × List Spot)) (c : Ctx),
    (i, sp) ∈ [(Instr.ld f, Space.glob), (.lds f, .shared), (.ldl f, .local_), (.ldc f, .const)] → f.scope = .lane →
    Accesses s i f c sp (memBytes (dtN f)) .read false s1 l → (s1.issued c).readCheck (places l) = none →
    let half := (s1.issued c).halfOf c sp (memBytes (dtN f)) (lanesOf c.act)
    -- every lane's address is aligned, or the split has read one piece of each misaligned lane in an earlier step
    c.aligned sp (memBytes (dtN f)) (lanesOf c.act) ∨ half.isSome = true →
    let s2 := ((s1.issued c).beforeRead c.t.ctx c.g.core (sp != .shared && subN f != 2 && subN f != 3) (places l)).dropHalf c.who
    let read := fun (lane : Nat) (p : List Spot) => if sp = .const then s2.constBytes c p else s2.readPieces half lane p
    let word := fun (lane : Nat) => match l.find? fun x => x.1 == lane with
      | some x => loadWords (dtN f) (read lane x.2)
      | none => []
    ∃ t, exec i s = .next t ∧ AccessFrame s t c c.written ∧ t.mem = s2.mem ∧ (s1.mire = [] → t.mem = s1.mem) ∧
      (∀ h ∈ t.halves, h.ofSplit c.who = false) ∧
      (c.aligned sp (memBytes (dtN f)) (lanesOf c.act) → (sp = .const → ∀ e ∈ (s2.core c.g.core).ccache, e.1 ≠ c.t.ctx) →
        ∀ (lane : Nat) (p : List Spot), (∀ x ∈ p, x.window = none) → read lane p = s2.peek (keysOf p)) ∧
      (∀ n q, f.d = .v n q → (if sp = .shared then ∃ k o, nth c.g.counters k none = none ∧ nth (t.groupOf c).counters k none = some o ∧
            o.requests = wordsIn (places l) ∧ 0 < o.requests.length ∧ o.out.split = c.who.split ∧ o.out.wb = vBack f.d (memRegs (dtN f)) c.act word
          else ∃ o, (t.groupOf c).outstanding = c.g.outstanding ++ [o] ∧ o.split = c.who.split ∧
            o.wb = vBack f.d (memRegs (dtN f)) c.act word)) ∧
      (sp ≠ .shared → c.g.ended = false → c.g.outstanding = [] → ∀ n q, f.d = .v n q →
        ∃ u, exec (.accessReturn c.who) t = .next u ∧ u.mem = t.mem ∧
          ∀ lane j, lane < 32 → j < memRegs (dtN f) → ((u.groupOf c).vreg (n.val + j)).at lane =
            if c.act.getLsbD lane then (word lane).getD j 0 else (c.g.vreg (n.val + j)).at lane)) ∧
  -- the first step of a load with misaligned lanes
  ∀ (s s1 : State) (f : Fields) (i : Instr) (sp : Space) (l : List (Nat × List Spot)) (c : Ctx),
    (i, sp) ∈ [(Instr.ld f, Space.glob), (.lds f, .shared), (.ldl f, .local_)] →
    let n := memBytes (dtN f)
    Accesses s i f c sp n .read false s1 l → s1.readCheck (places l) = none →
    ¬ c.aligned sp n (lanesOf c.act) → (∀ h ∈ s1.halves, h.ofSplit c.who = false) →
    ∃ u h, exec i s = .next u ∧ u.teams = (s1.block c.who (.depend i)).teams ∧ (s1.mire = [] → u.mem = s1.mem) ∧
      u.halves = s1.halves ++ [h] ∧ h.ofSplit c.who = true ∧ h.pc = c.sp.pc ∧
      h.reads.map (fun r => (r.1, r.2.1)) = ((lanesOf c.act).map fun x => (x, laneAddr c sp x)).filter (fun x => x.2 % n != 0) ∧
      -- a piece ends, or begins, at the one multiple of the access's size inside it
      ∀ r ∈ h.reads, ∀ p, (r.1, p) ∈ l → r.2.2 = u.readSpots (if h.lower then p.take (n - r.2.1 % n) else p.drop (n - r.2.1 % n))

/-- LDUN and LDC at GROUP scope read once for the group and deliver to S, or uniform to V (spec/04_memory_instructions.md; spec/05_registers.md, Propagation). -/
def Obligations.UniformLoadsComplete : Prop :=
  ∀ (s s1 : State) (f : Fields) (i : Instr) (sp : Space) (l : List (Nat × List Spot)) (c : Ctx),
    (i, sp) ∈ [(Instr.ldun f, Space.glob), (.ldc f, .const)] → f.scope = .group → Runs s i f c →
    s.pieceStall c.who.team c.who.group = none →
    resolve c sp (memBytes (dtN f)) .read false [c.designated] (s.settlePieces c.who.team c.who.group) = (s1, .ok l) →
    s1.accessStall c false (places l) = none → s1.readCheck (places l) = none →
    let half := (s1.issued c).halfOf c sp (memBytes (dtN f)) [c.designated]
    c.aligned sp (memBytes (dtN f)) [c.designated] ∨ half.isSome = true →
    let s2 := ((s1.issued c).beforeRead c.t.ctx c.g.core (subN f != 2 && subN f != 3) (places l)).dropHalf c.who
    let ws := loadWords (dtN f) (if sp = .const then s2.constBytes c (places l) else s2.readPieces half c.designated (places l))
    let signed := dtN f == 0 || dtN f == 2
    ∃ t, exec i s = .next t ∧ AccessFrame s t c c.written ∧ t.mem = s2.mem ∧
      (c.aligned sp (memBytes (dtN f)) [c.designated] → s2.readPieces half c.designated (places l) = s2.readSpots (places l)) ∧
      (∃ o, (t.groupOf c).outstanding = c.g.outstanding ++ [o] ∧ o.split = c.who.split ∧
        (∀ n, f.d = .s n → o.wb.s = some (n.val, wordsTo64 signed ws)) ∧
        ∀ n q, f.d = .v n q → o.wb.uniform = true ∧
          o.wb.v = (List.range ws.length).map fun j => (n.val + j, allLanes, Vector.replicate 32 (ws.getD j 0))) ∧
      (c.g.ended = false → c.g.outstanding = [] → ∃ u, exec (.accessReturn c.who) t = .next u ∧ u.mem = t.mem ∧
        (∀ n, f.d = .s n → (u.groupOf c).sreg n.val = wordsTo64 signed ws) ∧
        ∀ n q j, f.d = .v n q → j < ws.length → n.val + j < 256 → (u.groupOf c).vreg (n.val + j) = .uniform (ws.getD j 0))

/-- ST, STS and STL write the low bytes of C at their addresses and nothing else; of a misaligned lane one piece is written at once and the other in a later step (the steps are the model's, log 3) (spec/04_memory_instructions.md; spec/02_memory_and_translation.md). -/
def Obligations.StoresComplete : Prop :=
  ∀ (s s1 : State) (f : Fields) (i : Instr) (sp : Space) (l : List (Nat × List Spot)) (c : Ctx),
    (i, sp) ∈ [(Instr.st f, Space.glob), (.sts f, .shared), (.stl f, .local_)] →
    let n := memBytes (dtN f)
    Accesses s i f c sp n .write false s1 l → s1.canonical →
    (s1.issued c).writeCheck (places l) = none →
    let s2 := (s1.issued c).mergeLines (linesOf (((lastWins (stored c sp true l)).filter fun x => x.1.home != 1).map (·.1.key)))
    ∃ t, exec i s = .next t ∧ AccessFrame s t c [] ∧
      (c.aligned sp n (lanesOf c.act) → t.secondPieces = s1.secondPieces ∧
        (∀ a, Memory.get t.mem a = afterWrites s2.mem (storedBytes c l) a) ∧
        ∀ r ∈ t.reservations, ∀ k ∈ (storedBytes c l).map Prod.fst, r.granule ≠ sectorOf k) ∧
      (s1.mire = [] → ∃ (lower : Bool) (first second : List (Nat × Byte)),
        -- both pieces together are the store, and each byte of a misaligned lane goes with its side of the multiple of n
        (∀ m a, afterWrites m (first ++ second) a = afterWrites m (storedBytes c l) a) ∧
        (∀ a, Memory.get t.mem a = afterWrites s1.mem first a) ∧
        (∀ e ∈ first, ∃ x ∈ l, ∃ k, k < n ∧ (keysOf x.2)[k]? = some e.1 ∧
          (laneAddr c sp x.1 % n = 0 ∨ decide (k < n - laneAddr c sp x.1 % n) = lower)) ∧
        (∀ e ∈ second, ∃ x ∈ l, ∃ k, k < n ∧ (keysOf x.2)[k]? = some e.1 ∧
          laneAddr c sp x.1 % n ≠ 0 ∧ decide (k < n - laneAddr c sp x.1 % n) = !lower) ∧
        (second = [] → t.secondPieces = s1.secondPieces) ∧
        (second ≠ [] → ∃ p, t.secondPieces = s1.secondPieces ++ [p] ∧ p.team = c.who.team ∧ p.group = c.who.group ∧ p.ctx = c.t.ctx ∧
          p.writes.map (fun w => (w.1, w.2.2)) = second) ∧
        ∀ r ∈ t.reservations, ∀ e ∈ first, r.granule ≠ sectorOf e.1) ∧
      (s1.mire = [] → ∀ a, a ∉ keysOf (places l) → Memory.get t.mem a = Memory.get s1.mem a) ∧
      (if sp = .shared then ∃ k o, nth c.g.counters k none = none ∧ nth (t.groupOf c).counters k none = some o ∧ o.requests = wordsIn (places l)
        else (t.groupOf c).unacked = c.g.unacked + 1)

/-- ATOM, ATOMS and RED update memory lane by lane (spec/04_memory_instructions.md). -/
def Obligations.AtomicsComplete : Prop :=
  (∀ (s s1 : State) (f : Fields) (i : Instr) (sp : Space) (l : List (Nat × List Spot)) (c : Ctx),
    (i, sp) ∈ [(Instr.atom f, Space.glob), (.atoms f, .shared)] →
    Accesses s i f c sp (memBytes (dtN f)) .readWrite true s1 l → (s1.issued c).readCheck (places l) = none →
    let done := l.foldl (fun (r : State × List (Nat × Nat)) x => ((r.1.atomic c x.1 x.2).1, r.2 ++ [(x.1, (r.1.atomic c x.1 x.2).2)]))
      (s1.issued c, [])
    let word := fun (lane : Nat) => match done.2.find? fun x => x.1 == lane with
      | some x => (List.range (memRegs (dtN f))).map fun j => BitVec.ofNat 32 (x.2 / 2 ^ (32 * j))
      | none => []
    exec i s = .next ((done.1.sendBack c sp (memRegs (dtN f)) (places l) (vBack f.d (memRegs (dtN f)) c.act word)).advance c.who)) ∧
  (∀ (s s1 : State) (f : Fields) (l : List (Nat × List Spot)) (c : Ctx),
    Accesses s (.red f) f c .glob (memBytes (dtN f)) .readWrite true s1 l →
    (s1.issued c).redCheck c (subN f) (dtN f) (places l) = none →
    ∃ t, exec (.red f) s = .next t ∧ AccessFrame s t c [] ∧ (t.groupOf c).unacked = c.g.unacked + 1 ∧
      ((∀ p ∈ places l, p.home = 1 ∨ p.home = 3) → (∀ p ∈ places l, p.window = none) →
        t.mem = (l.foldl (fun u x => (u.atomic c x.1 x.2).1) (s1.issued c)).mem) ∧
      ∀ x, l = [x] → (s1.issued c).takesMire (subN f) (dtN f) x.2 = true →
        let key := (keysOf x.2).headD 0
        -- a new entry, and an addition to the entry that the line has
        (s1.mire = [] → t.mem = s1.mem ∧ ∃ e w, t.mire = [e] ∧ e.line = lineOf key ∧ e.ctxs = [c.t.ctx] ∧ e.words = [(key % 128 / 4, w)] ∧
          some w.result = newValue (subN f) (dtN f) (s1.load key (memBytes (dtN f))) (atomArgs c x.1).1 0) ∧
        ∀ (e0 : MireEntry) (w0 : MireWord), s1.mire = [e0] → e0.line = lineOf key → e0.words = [(key % 128 / 4, w0)] →
          w0.sub = subN f → w0.dt = dtN f →
          t.mem = s1.mem ∧ ∃ e w, t.mire = [e] ∧ e.line = e0.line ∧ e.words = [(key % 128 / 4, w)] ∧ (∀ k, k ∈ e.ctxs ↔ k = c.t.ctx ∨ k ∈ e0.ctxs) ∧
            (dtN f ≠ 11 → some w.value = newValue (subN f) (dtN f) w0.value (atomArgs c x.1).1 0) ∧
            (dtN f = 11 → w = w0.addF (atomArgs c x.1).1)) ∧
  -- an ADD.F32 episode merges as the exact sum of its starting value and its addends, rounded once
  (∀ (s : State) (key : Nat) (vs : List Nat), vs.length < 2 ^ 40 →
    (vs.foldl MireWord.addF (s.openWord key 0 11)).result = rne32 (sumOf .rne ((s.load key 4 :: vs).map num32))) ∧
  (∀ (w : MireWord) (v m : Nat) (neg : Bool) (e : Int), num32 v = .fin neg m e →
    let acc := w.acc + (if neg then -1 else 1) * (m * 2 ^ (e + 149).toNat : Nat)
    (w.addF v).acc = acc ∧
      (w.addF v).beyond = (w.beyond <|> if (2 ^ 319 : Nat) ≤ acc.natAbs then some (decide (acc < 0)) else none)) ∧
  (∀ (w : MireWord) (neg : Bool), w.dt = 11 → w.nan = false → w.pinf = false → w.ninf = false → w.beyond = some neg →
    w.result = if neg then 0xFF800000 else 0x7F800000) ∧
  ∀ (s : State) (c : Ctx) (lane key : Nat), s.canonical → s.mire = [] → subN c.f < 10 →
    (subN c.f < 3 → dtN c.f ∈ [4, 5, 6, 7, 11, 12, 13]) → (3 ≤ subN c.f → dtN c.f ∈ [5, 8, 9]) →
    let n := memBytes (dtN c.f)
    let spots := (List.range n).map fun k => ({ key := key + k, home := 0, window := none } : Spot)
    let old := s.load key n
    let r := s.atomic c lane spots
    r.2 = old ∧ (∀ a, a < key ∨ key + n ≤ a → Memory.get r.1.mem a = Memory.get s.mem a) ∧
      (match newValue (subN c.f) (dtN c.f) old (atomArgs c lane).1 (atomArgs c lane).2 with
        | some x => r.1.load key n = x % 2 ^ (8 * n)
        | none => r.1.mem = s.mem)

/-- LDRES and STCOND, MARM and MWAIT (spec/04_memory_instructions.md). -/
def Obligations.ReservationsAndMonitors : Prop :=
  (∀ (s s1 : State) (f : Fields) (l : List (Nat × List Spot)) (c : Ctx),
    Accesses s (.ldres f) f c .glob (memBytes (dtN f)) .readWrite true s1 l → (s1.issued c).readCheck (places l) = none →
    let s2 := (s1.issued c).beforeRead c.t.ctx c.g.core false (places l)
    ∃ t, exec (.ldres f) s = .next t ∧ AccessFrame s t c c.written ∧ t.mem = s2.mem ∧
      (∃ o, (t.groupOf c).outstanding = c.g.outstanding ++ [o] ∧ o.wb = vBack f.d (memRegs (dtN f)) c.act (loaded s2 (dtN f) l)) ∧
      ∀ x ∈ l, ∃ r ∈ t.reservations, r.team = c.who.team ∧ r.group = c.who.group ∧ r.lane = x.1 ∧
        r.granule = sectorOf ((keysOf x.2).headD 0)) ∧
  (∀ (s s1 : State) (f : Fields) (l : List (Nat × List Spot)) (c : Ctx),
    Accesses s (.stcond f) f c .glob (memBytes (dtN f)) .readWrite true s1 l → (s1.issued c).writeCheck (places l) = none →
    ∃ t, exec (.stcond f) s = .next t ∧ AccessFrame s t c [] ∧
      (∀ r ∈ t.reservations, r.team = c.who.team → r.group = c.who.group → c.act.getLsbD r.lane = false) ∧
      (∀ n, f.d = .p n → ∃ o ok, (t.groupOf c).outstanding = c.g.outstanding ++ [o] ∧ o.wb.p = some (n.val, c.act, ok) ∧
        ((∀ r ∈ s1.reservations, r.team = c.who.team → r.group = c.who.group → c.act.getLsbD r.lane = false) → ok = 0 ∧ (s1.mire = [] → t.mem = s1.mem)) ∧
        ∀ x r, l = [x] → s1.canonical → s1.mire = [] → r ∈ s1.reservations → r.team = c.who.team → r.group = c.who.group → r.lane = x.1 →
          r.granule = sectorOf ((keysOf x.2).headD 0) →
          ok.getLsbD x.1 = true ∧ ∀ a, Memory.get t.mem a = afterWrites s1.mem (storedBytes c l) a)) ∧
  (∀ (s s1 : State) (f : Fields) (l : List (Nat × List Spot)) (c : Ctx), Accesses s (.marm f) f c .glob 1 .read false s1 l →
    ∃ t, exec (.marm f) s = .next t ∧ AccessFrame s t c [] ∧ t.mem = s1.mem ∧
      (∀ x ∈ l, ∃ m ∈ t.monitors, m.team = c.who.team ∧ m.group = c.who.group ∧ m.lane = x.1 ∧ m.core = c.g.core ∧
        m.line = lineOf ((keysOf x.2).headD 0) ∧ (m.cause = none ∨ m.cause = some 1) ∧
        ((s1.armedLines c.g.core).length + l.length ≤ 64 → m.cause = none)) ∧
      ∀ x, l.getLast? = some x → ∃ m ∈ t.monitors, m.team = c.who.team ∧ m.group = c.who.group ∧ m.lane = x.1 ∧
        m.line = lineOf ((keysOf x.2).headD 0) ∧ m.cause = none) ∧
  ∀ (s : State) (f : Fields) (c : Ctx), Runs s (.mwait f) f c →
    let mine := s.monitors.filter fun m => m.team == c.who.team && m.group == c.who.group && c.act.getLsbD m.lane
    let limit := (c.g.scalar .unsigned f.a).toNat % 2 ^ 32
    ∃ t, exec (.mwait f) s = .next t ∧ t.mem = s.mem ∧
      if (mine.any fun m => m.cause.isSome) || mine.length < (lanesOf c.act).length then
        AccessFrame s t c c.written ∧ (∀ m ∈ t.monitors, m ∉ mine) ∧ ∀ n q lane, f.d = .v n q → lane < 32 → c.act.getLsbD lane →
          ((t.groupOf c).vreg n.val).at lane =
            match s.monitors.find? fun m => m.team == c.who.team && m.group == c.who.group && m.lane == lane with
            | none => 5
            | some m => BitVec.ofNat 32 (m.cause.getD 4)
      else t.monitors = s.monitors ∧ ∃ x, (t.groupOf c).split? c.who.split = some x ∧ x.pc = c.sp.pc ∧
        x.wait = .mwait f c.act (if limit = 0 then none else some (s.time + limit))

/-- PREF, CCTL and MEMBAR change no register; PREF and CCTL name an address or a context, an open Mire entry merges where R54 has it merge and nothing holds the merge back, and a window line that CCTL.INVW names leaves the caches under the name that the model gives it (log 59) (spec/04_memory_instructions.md; spec/02_memory_and_translation.md). -/
def Obligations.CacheControlAndFences : Prop :=
  (∀ (s : State) (f : Fields) (c : Ctx), Runs s (.pref f) f c →
    let bad := maskOf fun l => c.act.getLsbD l && match s.address (c.globalAddr l) with
      | .here _ => false
      | _ => true
    (bad = 0 → ∃ t, exec (.pref f) s = .next t ∧ AccessFrame s t c []) ∧
    (bad ≠ 0 → exec (.pref f) s = .next ((s.issued c).raise c ((c.fault codeADDRBAD bad).atAddr fun l => (c.globalAddr l).toNat)))) ∧
  (∀ (s s1 : State) (f : Fields) (l : List (Nat × List Spot)) (i : Instr) (c : Ctx), i ∈ [Instr.cctlFlush f, .cctlMerge f] →
    Accesses s i f c .control 1 .read false s1 l → (s1.issued c).mergeCheck (linesOf (keysOf (places l))) = none →
    ∃ t, exec i s = .next t ∧ AccessFrame s t c [] ∧ (s1.unheld → ∀ e ∈ t.mire, e.line ∉ linesOf (keysOf (places l))) ∧
      (s1.mire = [] → t.mem = s1.mem) ∧
      (i = .cctlFlush f → s1.mire = [] → ∀ n ∈ linesOf (keysOf (places l)), (t.l2Line n).dirty0 = false ∧ (t.l2Line n).dirty1 = false)) ∧
  (∀ (s : State) (f : Fields) (c : Ctx), Runs s (.cctlInvw f) f c →
    (∀ lane, lane < 32 → c.act.getLsbD lane → ∃ x, s.anyLeaf c.t.ctx (c.globalAddr lane) = .ok x) →
    ∃ t, exec (.cctlInvw f) s = .next t ∧ AccessFrame s t c [] ∧ t.mem = s.mem ∧ (∀ w ∈ t.windowLines, w ∈ s.windowLines) ∧
      ∀ lane e shift, lane < 32 → c.act.getLsbD lane → s.anyLeaf c.t.ctx (c.globalAddr lane) = .ok (e, shift) → leafGather e = true →
        ∀ w ∈ t.windowLines, w.1 ≠ (frameOf e / 4096 * 64 + bits e 63 58) * 2 ^ 30 / 128 +
          (c.globalAddr lane).toNat % 2 ^ 48 % 2 ^ shift / 128) ∧
  (∀ (s : State) (f : Fields) (c : Ctx), Runs s (.cctlFlushctx f) f c →
    let lines := (s.mire.filter fun e => e.ctxs.contains c.t.ctx).map (·.line)
    (s.heldAt c.mine [] lines = none → s.mergeCheck lines = none →
      ∃ t, exec (.cctlFlushctx f) s = .next t ∧ AccessFrame s t c [] ∧ (s.unheld → ∀ e ∈ t.mire, e.ctxs.contains c.t.ctx = false)) ∧
    ∀ g, s.heldAt c.mine [] lines = some g → exec (.cctlFlushctx f) s = .next (s.block c.who (.resource (.hold g)))) ∧
  ∀ (s : State) (f : Fields) (c : Ctx), Runs s (.membar f) f c →
    let ready := if subN f = 0 then c.g.quiet else s.quiet c.who.team c.g
    (ready = true → ∃ t, exec (.membar f) s = .next t ∧ Became s t c id id) ∧
    (ready = false → exec (.membar f) s = .next (s.block c.who (.resource .acks)))

/-- Faults and waits that come before an access (spec/04_memory_instructions.md; spec/02_memory_and_translation.md). -/
def Obligations.AddressTraps : Prop :=
  ∀ (s : State) (f : Fields) (i : Instr) (n : Nat) (acc : Access) (align : Bool) (c : Ctx),
    (i, n, acc, align) ∈ [(Instr.ld f, memBytes (dtN f), Access.read, false), (.st f, memBytes (dtN f), .write, false),
      (.atom f, memBytes (dtN f), .readWrite, true), (.ldres f, memBytes (dtN f), .readWrite, true),
      (.stcond f, memBytes (dtN f), .readWrite, true), (.red f, memBytes (dtN f), .readWrite, true), (.marm f, 1, .read, false)] →
    Runs s i f c → s.pieceStall c.who.team c.who.group = none →
    -- the second pieces of the group's earlier stores are performed first
    let s0 := s.settlePieces c.who.team c.who.group
    let addr := fun (l : Nat) => (c.globalAddr l).toNat
    let all := fun (p : Nat → Prop) => ∀ l, l < 32 → c.act.getLsbD l → p l
    (align = true → all (fun l => addr l % n ≠ 0) →
      exec i s = .next (s0.raise c ((c.fault codeMISALIGN c.act).atAddr addr))) ∧
    -- no address of R36, or one of another package (R37)
    (all (fun l => addr l % n = 0 ∧ 2 ^ 48 ≤ addr l ∧ (addr l / 2 ^ 60 ≠ 8 ∨ addr l / 2 ^ 48 % 2 ^ 12 ≠ s.sys.pkgnum.toNat % 2 ^ 12)) →
      exec i s = .next (s0.raise c ((c.fault codeADDRBAD c.act).atAddr addr))) ∧
    -- every lane's leaf is cached, is that of its tables and does not permit the access
    (all (fun l => addr l % n = 0 ∧ addr l < 2 ^ 48 ∧ ∃ t at_, s0.cached c.g.core c.t.ctx (addr l) = some t ∧
        s0.walk c.t.ctx (addr l) = .leaf at_ t.leaf.toNat t.size ∧ permits t.leaf.toNat acc = false) →
      exec i s = .next (s0.raise c ((c.fault codePERM c.act).atAddr addr))) ∧
    -- the context has no table and nothing is cached
    (all (fun l => addr l % n = 0 ∧ addr l < 2 ^ 48 ∧ s0.cached c.g.core c.t.ctx (addr l) = none) → bit (s0.ctxEntry c.t.ctx) 0 = false →
      resolve c .glob n acc align (lanesOf c.act) s0 = (s0, .xlate c.act ((lanesOf c.act).map addr))) ∧
    -- a missing translation: the word waits, with a record for each page; REPLAY makes it ready again
    (∀ s1 mask vas, resolve c .glob n acc align (lanesOf c.act) s0 = (s1, .xlate mask vas) →
      ∃ t va, exec i s = .next t ∧ va ∈ vas ∧ (∀ v ∈ vas, (c.t.ctx, v / 65536) ∈ t.xlates) ∧
        (t.groupOf c).split? c.who.split = some { c.sp with wait := .xlate c.t.ctx (va / 65536), burst := 4 } ∧
        ((∀ v ∈ vas, (c.t.ctx, v / 65536) ∈ s1.xlates) → t = s1.block c.who (.xlate c.t.ctx (va / 65536)))) ∧
    (∀ s1 l r, resolve c .glob n acc align (lanesOf c.act) s0 = (s1, .ok l) → s1.accessStall c (acc != .read) (places l) = some r →
      exec i s = .next (s1.block c.who (.resource r)))

/-! ### Engine commands, batches, events and guard slots -/

/-- CPY, CPYT, GATHQ, DXQ, SORTQ, COLLQ and LAUNCHQ hand one command to their engine (spec/03_core_memory_and_engines.md; spec/04_memory_instructions.md; spec/10_splat_pipeline.md; spec/12_links_and_host.md; spec/14_scheduling.md). -/
def Obligations.EngineCommandsJoinTheirQueue : Prop :=
  ∀ (s : State) (f : Fields) (i : Instr) (eng room n m : Nat) (die : Bool) (c : Ctx),
    (i, eng, room, die, n, m) ∈ [(Instr.cpy f, 0, 64, false, 3, 0), (.cpyt f, 0, 64, false, 8, 4), (.gathq f, 1, 32, false, 5, 0),
      (.dxq f, 2, 16, false, 4, 0), (.sortq f, 3, 32, true, 6, 0), (.collq f, 4, 64, true, 5, 0), (.launchq f, 5, 64, true, 2, 0)] →
    RunsNarrow s i f c →
    let place := if die then c.g.core / 256 else c.g.core
    (s.queuedAt eng place < room →
      ∃ t cmd, exec i s = .next t ∧ t.commands = s.commands ++ [cmd] ∧
        Became s { t with commands := s.commands, nextCommand := s.nextCommand } c id id ∧
        cmd.id = s.nextCommand ∧ t.nextCommand = s.nextCommand + 1 ∧ cmd.eng = eng ∧ cmd.place = place ∧
        cmd.owner = some (c.who.team, c.who.group) ∧ cmd.ctx = c.t.ctx ∧ cmd.batch = c.g.openBatch ∧
        cmd.tag = (c.g.scalar .unsigned f.b).setWidth 32 ∧ cmd.pc = c.sp.pc ∧ cmd.phase = .queued ∧ cmd.form = dtN f ∧
        cmd.guard = (if xmN f = 8 then some (subN f) else none) ∧ cmd.args.length = n + m ∧
        ∀ a k, f.a = .s a → k < n → cmd.args.getD k 0 = c.g.sreg (a.val + k)) ∧
    (room ≤ s.queuedAt eng place → exec i s = .next (s.block c.who (.resource (.engine eng place))))

/-- BATCH closes the open batch and WAITB waits for a batch, where the engine fault of the command issued first is raised (spec/03_core_memory_and_engines.md; spec/04_memory_instructions.md). -/
def Obligations.BatchesAndWaits : Prop :=
  (∀ (s : State) (f : Fields) (c : Ctx), RunsNarrow s (.batch f) f c →
    (s.batchStall c = true → exec (.batch f) s = .next (s.block c.who (.resource .batches))) ∧
    (s.batchStall c = false →
      let close := fun (g : Group) => { g.putGroup f.d false { w := [BitVec.ofNat 32 c.g.openBatch] } with openBatch := (g.openBatch + 1) % 65536 }
      ∃ t, exec (.batch f) s = .next t ∧ Became s { t with cores := s.cores } c close id ∧ (∀ n, (t.core n).tiles = (s.core n).tiles) ∧
        c.gives t 1 false fun _ => c.g.openBatch % 2 ^ 32)) ∧
  ∀ (s : State) (f : Fields) (c : Ctx), RunsNarrow s (.waitb f) f c →
    let n := (c.g.scalar .unsigned f.a).toNat % 65536
    let d := (c.g.openBatch + 65536 - n) % 65536
    let now := if d = 0 then (c.g.openBatch + 1) % 65536 else c.g.openBatch
    (32768 ≤ d → ∃ t, exec (.waitb f) s = .next t ∧ AccessFrame s t c [] ∧ t.mem = s.mem ∧ t.commands = s.commands) ∧
    (d < 32768 → (d = 0 → s.batchStall c = false) → (∀ b ∈ s.openBatches c.who.team c.who.group, batchReached now n b = false) →
      (∀ e ∈ c.g.engineFaults, batchReached now n e.batch = false) →
      ∃ t x, exec (.waitb f) s = .next t ∧ t.mem = s.mem ∧ t.commands = s.commands ∧ (t.groupOf c).openBatch = now ∧
        (t.groupOf c).split? c.who.split = some x ∧ x.pc = c.sp.pc + 12 ∧ x.wait = .ready) ∧
    (d < 32768 → (d = 0 → s.batchStall c = false) → (∃ b ∈ s.openBatches c.who.team c.who.group, batchReached now n b = true) →
      ∃ t x, exec (.waitb f) s = .next t ∧ t.mem = s.mem ∧ (t.groupOf c).openBatch = now ∧
        (t.groupOf c).split? c.who.split = some x ∧ x.pc = c.sp.pc ∧ x.wait = .waitb n c.act) ∧
    -- the faults of the batches waited for stand in order of issue: the first is raised with the PC of its command
    ∀ e rest, d < 32768 → (d = 0 → s.batchStall c = false) → (∀ b ∈ s.openBatches c.who.team c.who.group, batchReached now n b = false) →
      c.g.engineFaults.filter (fun x => batchReached now n x.batch) = e :: rest →
      let sector := decide (0x40 ≤ e.code ∧ e.code ≤ 0x42)
      let info : FaultInfo :=
        { code := e.code, split := c.who.split, scope := e.scope, mask := c.act, pc := e.pc, addr := e.addr, aux := e.aux, trapNo := 0,
          laneAddr := Vector.replicate 32 0, resume := e.pc }
      ∃ (u : State) (x : Group), exec (.waitb f) s = .next (if sector then u.machineCheck c.g.core c.t.ctx e.code e.addr else u.takeFault c.who.team c.who.group info) ∧
        u.mem = s.mem ∧ u.sys = s.sys ∧ u.commands = s.commands ∧ u.group? c.who.team c.who.group = some x ∧
        ({ x with splits := c.g.splits, latch := c.g.latch } : Group) = { c.g with
          openBatch := now, engineFaults := if sector then c.g.engineFaults else c.g.engineFaults.filter fun y => y != e } ∧
        (sector = false → x.split? c.who.split = some { c.sp with wait := .ready, windows := c.windows }) ∧
        ∀ m, m ≠ c.who.split → x.split? m = c.g.split? m

/-- EVPOP, EVWAIT and GSLOT at GROUP scope (spec/03_core_memory_and_engines.md; spec/04_memory_instructions.md). -/
def Obligations.EventsAndGuards : Prop :=
  (∀ (s : State) (f : Fields) (i : Instr) (n : Fin 64) (c : Ctx), i ∈ [Instr.evpop f, .evwait f] → f.scope = .group → f.d = .s n →
    RunsNarrow s i f c → (0 < c.t.ringCount ∨ i = .evpop f) →
    let word := fun (j : Nat) => if 0 < c.t.ringCount then BitVec.ofNat 64 (s.load (c.t.ringKey c.t.ringHead + 8 * j) 8)
      else if j = 1 then 0xFF0000000000#64 else 0
    ∃ t, exec i s = .next t ∧ AccessFrame s t c c.written ∧ t.mem = s.mem ∧
      (∀ j, j < 4 → (t.groupOf c).sreg (n.val + j) = word j) ∧
      (t.team? c.who.team).map (·.ringCount) = some (c.t.ringCount - 1) ∧
      (0 < c.t.ringCount → (t.team? c.who.team).map (·.ringHead) = some ((c.t.ringHead + 1) % 64))) ∧
  (∀ (s : State) (f : Fields) (c : Ctx), f.scope = .group → RunsNarrow s (.evwait f) f c → c.t.ringCount = 0 →
    exec (.evwait f) s = .next ((s.issued c).block c.who (.evwait (.evwait f)))) ∧
  ∀ (s : State) (f : Fields) (c : Ctx), f.scope = .group → RunsNarrow s (.gslot f) f c →
    let slot := (c.g.scalar .unsigned f.a).toNat
    let code := match f.b with
      | .p p => if c.act &&& c.g.pred p.val = 0 then 2 else 1
      | b => (c.g.scalar .unsigned b).toNat
    (slot < 16 → code < 4 →
      ∃ t, exec (.gslot f) s = .next t ∧ AccessFrame s t c [] ∧ t.mem = s.mem ∧
        ∃ x, t.team? c.who.team = some x ∧ ∀ k, k < 16 → nth x.guards k .unresolved =
          if k = slot then (if code = 0 then .unresolved else if code = 1 then .isTrue else if code = 2 then .isFalse
            else nth c.t.guards k .unresolved) else nth c.t.guards k .unresolved) ∧
    (16 ≤ slot ∨ 4 ≤ code → exec (.gslot f) s = .next ((s.issued c).raise c (c.fault codeADDRBAD c.act)))

/-! ### Synchronisation -/

/-- ARRIVE, WAITBAR and BARQ; that ARRIVE waits for the accesses of the matrix engine is the model's reading (log 19) (spec/13_execution_and_control.md, Barriers; spec/13_execution_and_control.md, ARRIVE, WAITBAR and BARQ). -/
def Obligations.BarrierInstructions : Prop :=
  let settled := fun (b : Barrier) => if b.arrd = b.part then ({ b with phase := (b.phase + 1) % 65536, arrd := 0 } : Barrier) else b
  let after := fun (s t : State) (c : Ctx) (n : Nat) (b : Barrier) => AccessFrame s t c c.written ∧ t.mem = s.mem ∧
    ∃ x, t.team? c.who.team = some x ∧ ∀ k, k < 16 → x.barrier k = if k = n then b else c.t.barrier k
  (∀ (s : State) (f : Fields) (i : Instr) (c : Ctx),
    i ∈ [Instr.arrive f, .waitbar f, .barqPhase f, .barqPart f, .barqArrd f, .barqSet f] → Runs s i f c →
    let n := (c.g.scalar .unsigned f.a).toNat
    let b := c.t.barrier n
    let mine := fun (m : Nat) => m.testBit c.who.group
    (16 ≤ n → exec i s = .next (s.raise c (c.fault codeADDRBAD c.act))) ∧
    (n < 16 → i = .arrive f →
      (s.matrixOwes c.who.team c.who.group = true → exec i s = .next (s.block c.who (.resource .acks))) ∧
      (s.matrixOwes c.who.team c.who.group = false → (mine b.part && mine b.arrd) = true →
        exec i s = .next ((s.issued c).block c.who (.arrive i n b.phase))) ∧
      (s.matrixOwes c.who.team c.who.group = false → (mine b.part && mine b.arrd) = false →
        ∃ t, exec i s = .next t ∧ c.gives t 1 false (fun _ => b.phase % 2 ^ 32) ∧
          after s t c n (if mine b.part then settled { b with arrd := b.arrd ||| 2 ^ c.who.group } else b))) ∧
    (n < 16 → i = .waitbar f →
      let p := (c.g.scalar .unsigned f.b).toNat % 65536
      ((b.phase + 65536 - p) % 65536 = 0 → exec i s = .next ((s.issued c).block c.who (.waitbar n p))) ∧
      ((b.phase + 65536 - p) % 65536 ≠ 0 → ∃ t, exec i s = .next t ∧ Became s t c id id)) ∧
    (n < 16 → i ∈ [Instr.barqPhase f, .barqPart f, .barqArrd f] →
      ∃ t, exec i s = .next t ∧ after s t c n b ∧ c.gives t 2 false fun _ =>
        (if i = .barqPhase f then b.phase + popCount 64 b.arrd * 2 ^ 16 + popCount 64 b.part * 2 ^ 24
        else if i = .barqPart f then b.part else b.arrd) % 2 ^ 64) ∧
    (n < 16 → i = .barqSet f →
      let x := (c.g.scalar .unsigned f.b).toNat
      (x < 2 ^ c.t.launch.total →
        ∃ t, exec i s = .next t ∧ c.gives t 2 false (fun _ => b.part % 2 ^ 64) ∧
          after s t c n (settled { b with part := x, arrd := b.arrd &&& x })) ∧
      (2 ^ c.t.launch.total ≤ x → exec i s = .next ((s.issued c).raise c (c.fault codeADDRBAD c.act))))) ∧
  ∀ (e : Env) (w : InsWord) (i : Instr), w.toNat % 256 = 0xB3 → 4 ≤ w.toNat / 2 ^ 28 % 16 → decode e w ≠ .ok i

/-- VOTE and ELECT at GROUP scope (spec/07_vector_instructions.md, The predicate and lane class, 0x60–0x69; spec/13_execution_and_control.md). -/
def Obligations.GroupVotesAndElections : Prop :=
  (∀ (s : State) (f : Fields) (c : Ctx), f.scope = .group → s.ctx (.vote f) f = some c → s.depends c = false → c.broken = false →
    (Instr.vote f).wf (groupEnv c.t c.g) = true → subN f ≠ 3 →
    let a := fun (l : Nat) => (c.g.predOf f.a).getLsbD l ^^ (xmN f).testBit 0
    let all := (lanesOf c.act).all a
    let any := (lanesOf c.act).any a
    ∃ t, exec (.vote f) s = .next t ∧ NextWord s t c c.written ∧
      ∀ n l, f.d = .p n → n.val < 7 → l < 32 → ((t.groupOf c).pred n.val).getLsbD l =
        if subN f = 0 then all else if subN f = 1 then any else all || !any) ∧
  (∀ (s : State) (f : Fields) (c : Ctx), f.scope = .group → subN f = 3 → Runs s (.vote f) f c →
    ∃ t, exec (.vote f) s = .next t ∧ NextWord s t c c.written ∧
      c.gives t 1 false fun _ => (c.act &&& (if (xmN f).testBit 0 then ~~~ c.g.predOf f.a else c.g.predOf f.a)).toNat) ∧
  ∀ (s : State) (f : Fields) (c : Ctx), f.scope = .group → Runs s (.elect f) f c →
    ∃ t, exec (.elect f) s = .next t ∧ NextWord s t c c.written ∧
      (∀ n l, f.d = .p n → n.val < 7 → l < 32 → ((t.groupOf c).pred n.val).getLsbD l = (c.act.getLsbD l && decide (∀ k, k < l → c.act.getLsbD k = false))) ∧
      ∀ n, f.d = .s n → ((t.groupOf c).sreg n.val).toNat < 32 ∧ c.act.getLsbD ((t.groupOf c).sreg n.val).toNat = true ∧
        ∀ k, k < ((t.groupOf c).sreg n.val).toNat → c.act.getLsbD k = false

/-- At GANG and TEAM scope a split arrives, and the last arrival executes for every member; that PREEMPT waits at its word until its team is saved, and that a FORCE without room counts and writes 0, is the model's reading (log 43), and so is the wait for the matrix engine before a party executes (log 19) (spec/13_execution_and_control.md; spec/07_vector_instructions.md, The predicate and lane class, 0x60–0x69; spec/04_memory_instructions.md). -/
def Obligations.TeamRendezvous : Prop :=
  ∀ (s : State) (f : Fields) (i : Instr) (c : Ctx),
    i ∈ [Instr.sync f, .vote f, .elect f, .evpop f, .evwait f, .gslot f, .preemptOffer f, .preemptForce f] → f.scope = .team ∨ f.scope = .gang →
    s.ctx i f = some c → i.wf (groupEnv c.t c.g) = true → s.depends c = false →
    let s1 := s.block c.who (.rendezvous i)
    (s1.party? c.who.team c.who.group = none → exec i s = .next s1) ∧
    ∀ j p, s1.party? c.who.team c.who.group = some (j, p) → (∀ x ∈ p.ctxs, x.broken = false) →
      let s2 := s1.issuedParty p
      -- where no member has a contributor only the votes have an effect (R20, R190, R336)
      (p.idle = true → i ≠ .vote f → i ≠ .elect f → exec i s = .next (s2.passParty p)) ∧
      let each := fun (h : Member → Group → Group) => (p.members.foldl (fun s m => s.modGroup m.who.team m.who.group (h m)) s2).passParty p
      (i = .sync f → exec i s = .next (s2.passParty p)) ∧
      let tally := voteOf (subN p.lead.f) (p.members.map fun m => (m.act, m.g.predNeg (bit (xmN p.lead.f) 0) p.lead.f.a))
      let team := p.lead.who.team
      let told := fun (n : Nat) => (p.members.foldl (fun s m => s.modGroup m.who.team m.who.group fun g =>
        g.putGroup p.lead.f.d false { w := [BitVec.ofNat 32 n] }) (s2.modTeam team fun t => { t with offered := none })).passParty p
      let rested := s1.settleTeam team
      let fits := (rested.team? team).any fun t => (runOf rested.freeUnits (rested.teamUnits t)).isSome
      (i = .vote f → exec i s = .next (each fun _ g => g.putGroup p.lead.f.d false { w := [], p := tally })) ∧
      (i = .elect f → ∀ n, p.lead.f.d = .p n → exec i s = .next (each fun m g => g.putP n.val allLanes
        (match p.members.find? fun m => m.act != 0 with
          | some k => if k.who.group = m.who.group then maskOf (· == (lowest k.act).getD 0) else 0
          | none => 0))) ∧
      (i = .elect f → (∀ n, p.lead.f.d ≠ .p n) → exec i s = .next (each fun _ g => g)) ∧
      (p.idle = false → i = .gslot f → ∀ slot val, gslotOf p.lead (p.members.any fun m => m.act &&& m.g.predOf p.lead.f.b != 0) = some (slot, val) →
        exec i s = .next ((s2.setGuard p.lead.who.team slot val).passParty p)) ∧
      (p.idle = false → i = .evpop f ∨ (i = .evwait f ∧ s1.ringReady team = true) →
        exec i s = .next ((p.members.foldl (fun s m => s.modGroup m.who.team m.who.group fun g =>
          g.putBlock p.lead.f.d (s2.popRing p.lead.who.team).2) (s2.popRing p.lead.who.team).1).passParty p)) ∧
      (p.idle = false → i = .preemptOffer f ∨ i = .preemptForce f → exec i s = .next
        -- saved at this word and resumed; a displacement pending, which its save follows; else by the form
        (if p.lead.t.offered = some p.lead.sp.pc then told 1
        else if p.lead.t.preempt then s1
        else if i = .preemptOffer f then told 0
        else if fits then s1.modTeam team fun t => { t with preempt := true }
        else (told 0).countSaveFull))

/-! ### Control flow -/

/-- Where BRA, CALL, BRX, CALLX and RET send the threads of a split (spec/13_execution_and_control.md, Divergence; spec/13_execution_and_control.md, BRA and CALL; spec/13_execution_and_control.md, BRX, CALLX and RET; spec/13_execution_and_control.md, JOIN). -/
def Obligations.ControlTransfers : Prop :=
  (∀ (s : State) (f : Fields) (i : Instr) (c : Ctx) (target : Nat → Nat), f.scope = .lane → Runs s i f c → c.sp.stack.length < 16 →
    (i ∈ [Instr.bra f, .call f] ∧ 0 ≤ branchTarget c.sp.pc f ∧ branchTarget c.sp.pc f < 2 ^ 48 ∧
        (∀ l, target l = (branchTarget c.sp.pc f).toNat) ∨
      i ∈ [Instr.brx f, .callx f, .ret f] ∧ (∀ l, target l = c.g.value .unsigned f.a 2 l) ∧
        ∀ l, c.act.getLsbD l = true → target l < 2 ^ 48 ∧ target l % 4 = 0) →
    let dest := fun (l : Nat) => if c.act.getLsbD l then target l else c.sp.pc + 12
    let first := dest ((lowest c.sp.mask).getD 0)
    let partX := maskOf fun l => c.sp.mask.getLsbD l && dest l == first
    let rest := c.sp.mask &&& ~~~ partX
    let next := dest ((lowest rest).getD 0)
    let restPc := if (lanesOf rest).all (fun l => dest l == next) then next else c.sp.pc
    let linked := if i = .call f ∨ i = .callx f then c.link c.g else c.g
    let entry : Entry := { mode := c.sp.mode, fmt := c.sp.fmt, pmask := 0, mask := c.sp.mask, ppc := 0, kind := 1, prid := 0, jpc := c.sp.jr }
    (rest = 0 → ∃ t, exec i s = .next t ∧ Became s t c (fun _ => linked) fun x => { x with pc := first }) ∧
    (∀ n r, rest ≠ 0 → c.g.freeSplit = some n → c.g.freeRecord = some r →
      ∃ t x, exec i s = .next t ∧ OnlyGroup s t c.who ∧ t.group? c.who.team c.who.group = some x ∧
        ({ x with splits := c.g.splits, records := c.g.records, latch := c.g.latch } : Group) = { linked with latch := c.g.latch } ∧
        x.split? c.who.split = some { c.sp with
          mask := rest, pc := restPc, stack := { entry with prid := r } :: c.sp.stack, wait := .ready, windows := c.windows } ∧
        x.split? n = some { c.sp with
          mask := partX, pc := first, stack := [{ entry with prid := r }], wait := .ready, fairness := 0, windows := c.windows, burst := 0 } ∧
        (∀ m, m ≠ n → m ≠ c.who.split → x.split? m = c.g.split? m) ∧
        ∀ m, m < 4 → nth x.records m { owner := 0, below := none } =
          if m = r then { owner := c.who.split, below := none } else nth c.g.records m { owner := 0, below := none }) ∧
    (rest ≠ 0 → (c.g.freeSplit = none ∨ c.g.freeRecord = none) →
      ∃ t, exec i s = .next t ∧ Became s t c (fun _ => linked) fun x => { x with
        mask := partX, pc := first, stack := { entry with kind := 0, pmask := rest, ppc := restPc } :: x.stack })) ∧
  (∀ (s : State) (f : Fields) (c : Ctx), f.scope = .group → RunsNarrow s (.bra f) f c → 0 ≤ branchTarget c.sp.pc f → branchTarget c.sp.pc f < 2 ^ 48 →
    ∃ t, exec (.bra f) s = .next t ∧ Became s t c id fun x => { x with pc := (branchTarget c.sp.pc f).toNat }) ∧
  (∀ (s : State) (f : Fields) (i : Instr) (c : Ctx), i ∈ [Instr.call f, .callx f] → Runs s i f c →
    let h := c.link c.g
    ∀ n l, f.d = .v n .id → l < 32 → h.value .unsigned f.d 2 l = if c.act.getLsbD l then (c.sp.pc + 12) % 2 ^ 64 else c.g.value .unsigned f.d 2 l) ∧
  (∀ (s : State) (f : Fields) (i : Instr) (c : Ctx), i ∈ [Instr.bra f, .call f, .joinAt f] → Runs s i f c →
    branchTarget c.sp.pc f < 0 ∨ 2 ^ 48 ≤ branchTarget c.sp.pc f →
    ∃ info : FaultInfo, info.code = codeADDRBAD ∧ info.mask = c.act ∧ info.pc = c.sp.pc ∧ info.resume = c.sp.pc ∧ info.split = c.who.split ∧
      info.addr = wrap 64 (branchTarget c.sp.pc f) ∧ exec i s = .next ((s.issued c).takeFault c.who.team c.who.group info)) ∧
  ∀ (s : State) (f : Fields) (i : Instr) (c : Ctx), i ∈ [Instr.brx f, .callx f, .ret f] → Runs s i f c →
    let t := fun (l : Nat) => c.g.value .unsigned f.a 2 l
    let bad := maskOf fun l => c.act.getLsbD l && (decide (2 ^ 48 ≤ t l) || t l % 4 != 0)
    bad ≠ 0 → ∃ info : FaultInfo, info.code = codeADDRBAD ∧ info.mask = bad ∧ info.pc = c.sp.pc ∧ info.resume = c.sp.pc ∧
      info.split = c.who.split ∧ info.addr = t ((lowest bad).getD 0) ∧ exec i s = .next ((s.issued c).takeFault c.who.team c.who.group info)

/-- What a split meets at a JOIN (spec/13_execution_and_control.md, Merging). -/
def Obligations.JoinsAndMerges : Prop :=
  ∀ (s : State) (f : Fields) (c : Ctx), s.ctx (.join f) f = some c → (Instr.join f).wf (groupEnv c.t c.g) = true → s.depends c = false →
    c.sp.mask ≠ 0 → c.g.mergeable = none → c.sp.stack.length ≤ 16 →
    (c.sp.stack.head?.map (·.jpc) ≠ some c.sp.pc → ∃ t, exec (.join f) s = .next t ∧ Became s t c id id) ∧
    ∀ e below, c.sp.stack = e :: below → e.jpc = c.sp.pc →
      let left := fun (m : Mask) => m &&& ~~~ c.g.exited
      (e.kind = 0 → left e.pmask ≠ 0 → ∃ t, exec (.join f) s = .next t ∧ Became s t c id fun x => { x with
        mask := left e.pmask, pc := e.ppc, fmt := e.fmt, mode := e.mode, jr := e.jpc, stack := { e with pmask := 0 } :: below }) ∧
      (e.kind = 0 → left e.pmask = 0 → left e.mask ≠ 0 → below.head?.map (·.jpc) ≠ some c.sp.pc →
        ∃ t, exec (.join f) s = .next t ∧ Became s t c id fun x => { x with
          mask := left e.mask, fmt := e.fmt, mode := e.mode, jr := e.jpc, stack := below }) ∧
      (e.kind = 1 → (∃ n x, n ≠ c.who.split ∧ c.g.split? n = some x ∧ (x.stack.any fun y => y.kind == 1 && y.prid == e.prid) = true ∧
          standsAtJoin e.prid x = false) →
        ∃ t, exec (.join f) s = .next t ∧ Became s t c id fun x => { x with pc := c.sp.pc, wait := .join }) ∧
      ∀ n x own, e.kind = 1 → e.prid < 4 → n ≠ c.who.split → below = [] → c.g.split? n = some x → x.stack = e :: own → standsAtJoin e.prid x = true →
        nth c.g.records e.prid { owner := 0, below := none } = { owner := n, below := none } →
        (∀ m y, m ≠ n → m ≠ c.who.split → c.g.split? m = some y → (y.stack.any fun z => z.kind == 1 && z.prid == e.prid) = false) →
        s.windowedBusy c.who.team c.who.group = false → own.length ≤ 15 → own.head?.map (·.jpc) ≠ some c.sp.pc → c.g.outstanding = [] → c.g.counters = Vector.replicate 8 none →
        (∀ r, r < 4 → r ≠ e.prid → ∀ m y, c.g.split? m = some y → standsAtJoin r y = false) →
        ∃ t g y, exec (.join f) s = .next t ∧ t.mem = s.mem ∧ t.group? c.who.team c.who.group = some g ∧
          ({ g with splits := c.g.splits, records := c.g.records, latch := c.g.latch } : Group) = c.g ∧ g.split? c.who.split = none ∧ g.split? n = some y ∧
          { y with windows := x.windows } = { x with
            mask := x.mask ||| c.sp.mask, pc := c.sp.pc + 12, stack := own, fmt := e.fmt, mode := e.mode, jr := e.jpc, wait := .ready } ∧
          ∀ m, m ≠ n → m ≠ c.who.split → g.split? m = c.g.split? m

/-- EXIT ends its threads; the last one of a split ends the split, which its stack or a merge follows, and the last one of a group ends the group; that it waits for the accesses of the matrix engine is the model's reading (log 19), and so is what a record keeps of an ended split (log 53) (spec/13_execution_and_control.md, EXIT; spec/13_execution_and_control.md, Merging; spec/13_execution_and_control.md, Barriers). -/
def Obligations.ThreadsExit : Prop :=
  ∀ (s : State) (f : Fields) (c : Ctx), RunsNarrow s (.exit f) f c →
    let mine := fun (team group lane : Nat) => team == c.who.team && group == c.who.group && c.act.getLsbD lane
    (c.g.exited ||| c.act ≠ allLanes → c.sp.mask &&& ~~~ c.act ≠ 0 →
      ∃ t x, exec (.exit f) s = .next t ∧ t.mem = s.mem ∧ t.group? c.who.team c.who.group = some x ∧ x.exited = c.g.exited ||| c.act ∧
        ({ x with splits := c.g.splits, exited := c.g.exited, handler := c.g.handler, latch := c.g.latch } : Group) = c.g ∧
        x.split? c.who.split = some { c.sp with
          mask := c.sp.mask &&& ~~~ c.act, pc := c.sp.pc + 12, wait := .ready, windows := c.windows } ∧
        t.reservations.map Reservation.claim = (s.reservations.filter fun r => !mine r.team r.group r.lane).map Reservation.claim ∧
        t.monitors = s.monitors.filter fun m => !mine m.team m.group m.lane) ∧
    -- the last thread of a split whose group goes on: its top entry switches or pops, or the split is gone, and a record may merge at once
    (c.g.exited ||| c.act ≠ allLanes → c.sp.mask &&& ~~~ c.act = 0 → c.g.mergeable = none → c.sp.stack.length ≤ 16 →
      (∀ n x, n ≠ c.who.split → c.g.split? n = some x → x.mask &&& c.act = 0) →
      let left := fun (m : Mask) => m &&& ~~~ (c.g.exited ||| c.act)
      let goes := fun (own : Option Split) (other : Nat → Option Split) =>
        ∃ t x, exec (.exit f) s = .next t ∧ t.mem = s.mem ∧ t.group? c.who.team c.who.group = some x ∧ x.exited = c.g.exited ||| c.act ∧
          ({ x with splits := c.g.splits, records := c.g.records, exited := c.g.exited, handler := c.g.handler, latch := c.g.latch } : Group) = c.g ∧
          x.split? c.who.split = own ∧ (∀ n, n ≠ c.who.split → x.split? n = other n) ∧
          t.reservations.map Reservation.claim = (s.reservations.filter fun r => !mine r.team r.group r.lane).map Reservation.claim ∧
          t.monitors = (s.monitors.filter fun m => !mine m.team m.group m.lane) ∧
          ∀ e below, c.sp.stack = e :: below → e.kind = 1 → e.prid < 4 → own = none →
            nth c.g.records e.prid { owner := 0, below := none } = { owner := c.who.split, below := none } →
            nth x.records e.prid { owner := 0, below := none } = { owner := c.who.split, below := some below }
      let stays := { c.sp with wait := .ready, windows := c.windows }
      (c.sp.stack = [] → goes none c.g.split?) ∧
      ∀ e below, c.sp.stack = e :: below →
        (e.kind = 0 → left e.pmask ≠ 0 → goes (some { stays with
          mask := left e.pmask, pc := e.ppc, fmt := e.fmt, mode := e.mode, jr := e.jpc, stack := { e with pmask := 0 } :: below }) c.g.split?) ∧
        (e.kind = 0 → left e.pmask = 0 → left e.mask ≠ 0 → below.head?.map (·.jpc) ≠ some e.jpc → goes (some { stays with
          mask := left e.mask, pc := e.jpc + 12, fmt := e.fmt, mode := e.mode, jr := e.jpc, stack := below }) c.g.split?) ∧
        (e.kind = 1 → (∀ r n x, r < 4 → n ≠ c.who.split → c.g.split? n = some x → standsAtJoin r x = false) → goes none c.g.split?) ∧
        -- the only sibling left stands at the JOIN
        ∀ n x top own, e.kind = 1 → e.prid < 4 → n ≠ c.who.split → c.g.split? n = some x → x.mask ≠ 0 → x.stack = top :: own →
          standsAtJoin e.prid x = true → (∀ m y, m ≠ n → m ≠ c.who.split → c.g.split? m = some y →
            (y.stack.any fun z => z.kind == 1 && z.prid == e.prid) = false ∧ ∀ r, r < 4 → standsAtJoin r y = false) →
          nth c.g.records e.prid { owner := 0, below := none } = { owner := n, below := none } →
          s.windowedBusy c.who.team c.who.group = false → own.length ≤ 15 → own.head?.map (·.jpc) ≠ some x.pc → c.g.outstanding = [] →
          c.g.counters = Vector.replicate 8 none →
          goes none fun m => if m = n then some { x with
            pc := x.pc + 12, stack := own, fmt := top.fmt, mode := top.mode, jr := top.jpc, wait := .ready } else c.g.split? m) ∧
    (c.g.exited ||| c.act = allLanes → s.matrixOwes c.who.team c.who.group = true →
      exec (.exit f) s = .next (s.block c.who (.resource .acks))) ∧
    ((c.g.exited ||| c.act) = allLanes → s.matrixOwes c.who.team c.who.group = false → c.g.engineFaults = [] → c.g.left = false →
      (∃ h ∈ c.t.groups, h.index ≠ c.who.group ∧ h.ended = false) →
      ∃ t x, exec (.exit f) s = .next t ∧ t.mem = s.mem ∧ t.group? c.who.team c.who.group = some x ∧ x.ended = true ∧ x.exst = none ∧ x.left = true ∧
        x.openBatch = (c.g.openBatch + 1) % 65536 ∧ (∀ n, x.split? n = none) ∧ (∀ r ∈ t.reservations, r.team = c.who.team → r.group ≠ c.who.group) ∧
        ∃ y, t.team? c.who.team = some y ∧ ∀ b, b < 16 →
          (y.barrier b).part.testBit c.who.group = false ∧ (y.barrier b).arrd.testBit c.who.group = false)

/-- NOP, YIELD, JOIN.AT, JOIN.CLR, MOVSR, TIME, CLOCK, FLUSHI and TILEQ; that FLUSHI counts the group's TST, RED and EMIT among its stores is the model's reading (log 19) (spec/13_execution_and_control.md; spec/15_traps_and_reliability.md; spec/05_registers.md, Propagation). -/
def Obligations.StraightWords : Prop :=
  (∀ (s : State) (f : Fields) (c : Ctx), RunsNarrow s (.nop f) f c → ∃ t, exec (.nop f) s = .next t ∧ Became s t c id id) ∧
  (∀ (s : State) (f : Fields) (c : Ctx), RunsNarrow s (.yield f) f c →
    ∃ t, exec (.yield f) s = .next t ∧ Became s t c id fun x => if f.scope = .group then x else { x with fairness := 64 }) ∧
  (∀ (s : State) (f : Fields) (i : Instr) (c : Ctx), i ∈ [Instr.nop f, .yield f] → s.ctx i f = some c → s.depends c = false → c.act = 0 →
    ∃ t, exec i s = .next t ∧ Became s t c id id) ∧
  (∀ (s : State) (f : Fields) (c : Ctx), RunsNarrow s (.joinAt f) f c → 0 ≤ branchTarget c.sp.pc f → branchTarget c.sp.pc f < 2 ^ 48 →
    ∃ t, exec (.joinAt f) s = .next t ∧ Became s t c id fun x => { x with jr := (branchTarget c.sp.pc f).toNat }) ∧
  (∀ (s : State) (f : Fields) (c : Ctx), RunsNarrow s (.joinClr f) f c →
    ∃ t, exec (.joinClr f) s = .next t ∧ Became s t c id fun x => { x with jr := 0xFFFFFFFFFFFFFF }) ∧
  (∀ (s : State) (f : Fields) (c : Ctx) (n : Fin 256), f.a = .special n → Runs s (.movsr f) f c →
    let none_ := 0xFFFFFFFF
    let values : List (Nat → Nat) := [fun _ => 0, fun l => l, fun l => 32 * c.g.index + l, fun _ => c.g.index,
      fun _ => if c.t.launch.twin then 2 * c.t.launch.groups else c.t.launch.groups, fun _ => c.who.split, fun _ => c.g.role,
      fun _ => c.g.roleGrp, fun _ => (c.g.gang.map (·.1)).getD none_, fun _ => (c.g.gang.map (·.2.1)).getD none_, fun _ => c.t.x,
      fun _ => c.t.y, fun _ => c.t.z, fun _ => c.t.gx, fun _ => c.t.gy, fun _ => c.t.gz,
      fun _ => c.t.x + c.t.gx * (c.t.y + c.t.gy * c.t.z), fun _ => if c.t.launch.twin && decide (c.t.launch.groups ≤ c.g.index) then 1 else 0,
      fun _ => c.g.core, fun _ => c.g.quarter, fun _ => c.t.ctx, fun _ => c.t.nodeIndex, fun _ => c.t.launch.localB]
    ∃ t, exec (.movsr f) s = .next t ∧ NextWord s t c c.written ∧ c.gives t 1 false fun l => (values.getD n.val fun _ => 0) l % 2 ^ 32) ∧
  (∀ (s : State) (f : Fields) (i : Instr) (x : Nat) (c : Ctx), (i, x) ∈ [(Instr.time f, s.time), (.clock f, (s.die (c.g.core / 256)).cc - (s.core c.g.core).since)] → Runs s i f c →
    ∃ t, exec i s = .next t ∧ NextWord s t c c.written ∧ c.gives t 2 false fun _ => x % 2 ^ 64) ∧
  (∀ (s : State) (f : Fields) (i : Instr) (c : Ctx) (gone : Nat → Bool), RunsNarrow s i f c →
    (i = .flushiAll f ∧ (∀ pc, gone pc = true) ∨ ∃ va, i = .flushiLine f ∧ s.address (c.globalAddr c.designated) = .here va ∧
      ∀ pc, gone pc = (pc / 128 == va / 128 || (pc + 11) / 128 == va / 128)) →
    -- every store is acknowledged: the single accesses, the shared stores, whose counters deliver to no register, and TST
    let acked := c.g.unacked = 0 ∧ (∀ k o, k < 8 → nth c.g.counters k none = some o → o.out.regs ≠ []) ∧ s.storing c.who.team c.who.group false = false
    (¬ acked → exec i s = .next (s.block c.who (.resource .stores))) ∧
    (acked →
      ∃ t, exec i s = .next t ∧ Became s { t with cores := s.cores } c id id ∧ ∀ n, t.core n =
        if n = c.g.core then { s.core n with icache := (s.core n).icache.filter fun e => !(e.1 == c.t.ctx && gone e.2.1) } else s.core n)) ∧
  (∀ (s : State) (f : Fields) (c : Ctx), RunsNarrow s (.flushiLine f) f c → (∀ va, s.address (c.globalAddr c.designated) ≠ .here va) →
    ∃ info : FaultInfo, info.code = codeADDRBAD ∧ info.mask = c.act ∧ exec (.flushiLine f) s = .next (s.takeFault c.who.team c.who.group info)) ∧
  ∀ (s : State) (f : Fields) (c : Ctx), RunsNarrow s (.tileq f) f c →
    let a := (c.g.scalar .unsigned f.a).toNat
    let h := s.tileHealth a
    let code := match h.status with
      | .live => 0
      | .testing => 1
      | .appealing => 2
      | .retired => 3
    let recent := (h.fences.filter fun x => decide (s.time < x + 86400000000000)).length
    (a ≤ 0x1FF → ∃ t, exec (.tileq f) s = .next t ∧ NextWord s t c c.written ∧
      c.gives t 2 false fun _ => (code + min recent 3 * 16 + bits (h.fences.headD 0) 63 16 * 65536) % 2 ^ 64) ∧
    (0x1FF < a → ∃ info : FaultInfo, info.code = codeADDRBAD ∧ info.mask = c.act ∧ exec (.tileq f) s = .next ((s.issued c).takeFault c.who.team c.who.group info))

/-! ### Faults, traps and the system -/

/-- A fault that no handler takes ends its group with an exit status word, one record of its own and one for each engine fault that no WAITB has raised; that it leaves its barriers once the matrix engine's accesses for it are performed is the model's reading (log 19) (spec/03_core_memory_and_engines.md; spec/15_traps_and_reliability.md; spec/13_execution_and_control.md). -/
def Obligations.FaultsEndTheGroup : Prop :=
  ∀ (s : State) (team group : Nat) (info : FaultInfo) (t : Team) (g : Group),
    s.team? team = some t → t.group? group = some g → (0x40 ≤ info.code ∨ g.handler.isSome = true ∨ s.handler t.ctx = 0) →
    (∃ h ∈ t.groups, h.index ≠ group ∧ h.ended = false) →
    let u := s.takeFault team group info
    let split := if g.handler.isSome then 0xFE else info.split
    ∃ x y, u.group? team group = some x ∧ x.ended = true ∧ (∀ n, x.split? n = none) ∧
      x.exst = some (BitVec.ofNat 32 (info.code + split % 256 * 2 ^ 8 + group % 2 ^ 16 * 2 ^ 16)) ∧ x.openBatch = (g.openBatch + 1) % 65536 ∧
      (∀ r ∈ u.reservations, r.team = team → r.group ≠ group) ∧
      u.posted t.ctx = s.posted t.ctx + 1 + g.engineFaults.length ∧
      (s.unheld → (assoc t.ctx u.sys.fqcount).getD 0 = (assoc t.ctx s.sys.fqcount).getD 0 + 1 + g.engineFaults.length) ∧
      u.team? team = some y ∧ (s.matrixOwes team group = false → g.left = false → ∀ b, b < 16 → (y.barrier b).part.testBit group = false ∧ (y.barrier b).arrd.testBit group = false)

/-- What the K registers hold when a group enters its handler; that the entry waits for every accepted matrix instruction of the group, and for the second pieces of its stores, is the model's reading (log 33) (spec/15_traps_and_reliability.md, The trap handler). -/
def Obligations.HandlerEntry : Prop :=
  let entered := fun (s u : State) (team group : Nat) (g : Group) (pc : Nat) (info : FaultInfo) =>
    u.mem = s.mem ∧ u.sys = s.sys ∧ ∃ x h, u.group? team group = some x ∧ x.handler = some h ∧ x.trap = none ∧ h.frozen = g.splits ∧
      h.records = g.records ∧ h.split = info.split ∧
      x.split? 0 = some { pc := pc, mask := ~~~ g.exited, fmt := 0x303#32, mode := 1#32, jr := 0xFFFFFFFFFFFFFF, stack := [], fairness := 0,
                          wait := .ready, windows := [], burst := 0, last := 0 } ∧
      (∀ n, 1 ≤ n → x.split? n = none) ∧
      (∀ l, l < 32 → (x.kreg 0).at l = (nth info.laneAddr l 0).setWidth 32 ∧ (x.kreg 1).at l = (nth info.laneAddr l 0 >>> (32 : Nat)).setWidth 32 ∧
        ∀ n, 2 ≤ n → n < 8 → (x.kreg n).at l = 0) ∧
      x.sreg (64 + 8) = info.mask.setWidth 64 ∧
      x.sreg (64 + 9) = BitVec.ofNat 64 (info.code + (if info.code = 0x0A then 1 else if 0x40 ≤ info.code then 2 else 0) * 2 ^ 8 +
        info.split * 2 ^ 16 + info.scope * 2 ^ 24 + info.trapNo * 2 ^ 32) ∧
      x.sreg (64 + 10) = BitVec.ofNat 64 info.pc ∧ x.sreg (64 + 11) = BitVec.ofNat 64 info.addr ∧ x.sreg (64 + 12) = BitVec.ofNat 64 info.aux ∧
      x.sreg (64 + 13) = (~~~ g.exited).setWidth 64 ∧ x.sreg (64 + 14) = BitVec.ofNat 64 info.resume ∧ x.sreg (64 + 15) = 0
  (∀ (s : State) (team group : Nat) (info : FaultInfo) (t : Team) (g : Group),
    s.team? team = some t → t.group? group = some g → info.code < 0x40 → g.handler = none → s.handler t.ctx ≠ 0 →
    (∀ n x f m d, g.split? n = some x → x.wait ≠ .mwait f m d) →
    let u := s.takeFault team group info
    (∀ r ∈ u.reservations, r.team = team → r.group ≠ group) ∧ (∀ m ∈ u.monitors, m.team = team → m.group ≠ group) ∧
    (u.group? team group).map (·.latch) = some none ∧
    let ready := s.trapPlaces g.core g.quarter < 4 ∧ s.matrixBusy team group = false ∧ s.trapBefore team { g with trapAt := s.tick } = false
    (ready → s.piecesOf team group = [] → entered s u team group g (s.handler t.ctx) info) ∧
    (¬ ready → u.mem = s.mem ∧
      ∃ x, u.group? team group = some x ∧ x.trap = some info ∧ x.trapAt = s.tick ∧ x.splits = g.splits ∧ x.handler = none)) ∧
  ∀ (s : State) (team group : Nat) (info : FaultInfo) (t : Team) (g : Group),
    s.team? team = some t → t.group? group = some g → g.trap = some info →
    let ready := s.trapPlaces g.core g.quarter < 4 ∧ s.matrixBusy team group = false ∧ s.trapBefore team g = false
    (ready → s.pieceStall team group = none → ∃ u, exec (.trapEntry team group) s = .next u ∧
      entered (s.settlePieces team group) u team group g (s.handler t.ctx) info) ∧
    (¬ ready ∨ s.pieceStall team group ≠ none → exec (.trapEntry team group) s = .next s)

/-- TRAP, BPT, HALTT, RETT, RETT.KILL and words of unassigned opcodes (spec/15_traps_and_reliability.md; spec/01_instruction_word.md, The fate of every encoding). -/
def Obligations.TrapsHaltsAndReturns : Prop :=
  let trapped := fun (c : Ctx) (code : Nat) (info : FaultInfo) =>
    info.code = code ∧ info.split = c.who.split ∧ info.pc = c.sp.pc ∧ info.resume = c.sp.pc + 12 ∧ info.addr = 0 ∧ info.aux = 0 ∧
      info.mask = (if c.f.scope = .group then maskOf (· == c.designated) else c.act) ∧ info.scope = (if c.f.scope = .group then 1 else 0) ∧
      ∀ n, c.f.a = .imm n → info.trapNo = n.toNat
  let halts := fun (s u : State) (c : Ctx) (cause : Nat) (self : Bool) =>
    ∃ y, u.team? c.who.team = some y ∧ y.halt = some (c.who.group, cause) ∧
      (∀ n g, c.t.group? n = some g → (y.group? n).map (·.halted) = some (if !g.ended && (self || n != c.who.group) then true else g.halted)) ∧
      u.posted c.t.ctx = s.posted c.t.ctx + (c.t.groups.filter fun g => !g.ended && (self || g.index != c.who.group)).length
  (∀ (s : State) (f : Fields) (c : Ctx), RunsNarrow s (.trap f) f c →
    ∃ info, trapped c 0x10 info ∧ exec (.trap f) s = .next ((s.issued c).takeFault c.who.team c.who.group info)) ∧
  (∀ (s : State) (f : Fields) (c : Ctx), RunsNarrow s (.bpt f) f c →
    ∃ u info, trapped c 0x11 info ∧ exec (.bpt f) s = .next (u.takeFault c.who.team c.who.group info) ∧
      (s.handler c.t.ctx = 0 → u = s.issued c) ∧
      (s.handler c.t.ctx ≠ 0 → c.t.halt = none → halts s u c 1 false)) ∧
  (∀ (s : State) (f : Fields) (c : Ctx), RunsNarrow s (.haltt f) f c → c.t.halt = none →
    ∃ u x, exec (.haltt f) s = .next u ∧ halts s u c 2 c.g.handler.isNone ∧ (u.groupOf c).split? c.who.split = some x ∧
      x.pc = c.sp.pc + 12 ∧ x.wait = .ready) ∧
  (∀ (s : State) (f : Fields) (h : Handler) (c : Ctx), RunsNarrow s (.rett f) f c → c.g.handler = some h →
    (∀ n x, nth h.frozen n none = some x → x.mask ≠ 0) →
    ∃ u x y, exec (.rett f) s = .next u ∧ u.mem = s.mem ∧ u.sys = s.sys ∧ u.group? c.who.team c.who.group = some x ∧ x.handler = none ∧
      ({ x with splits := c.g.splits, records := c.g.records, handler := c.g.handler, latch := c.g.latch, halted := c.g.halted } : Group) = c.g ∧
      x.records = h.records ∧ (∀ n, x.split? n = if n = h.split then (nth h.frozen n none).map fun y => { y with pc := (c.g.sreg (64 + 14)).toNat, wait := .ready, burst := 4 }
        else (nth h.frozen n none).map fun y => { y with burst := 4 }) ∧
      u.team? c.who.team = some y ∧
      y.halt = (if h.raisedHalt && c.t.halt.map Prod.fst == some c.who.group then none else c.t.halt)) ∧
  (∀ (s : State) (f : Fields) (h : Handler) (c : Ctx), RunsNarrow s (.rettKill f) f c → c.g.handler = some h →
    (∃ k ∈ c.t.groups, k.index ≠ c.who.group ∧ k.ended = false) →
    ∃ u x, exec (.rettKill f) s = .next u ∧ u.group? c.who.team c.who.group = some x ∧ x.ended = true ∧ x.handler = none ∧
      x.exst = some (BitVec.ofNat 32 ((c.g.sreg (64 + 9)).toNat % 256 + h.split % 256 * 2 ^ 8 + c.who.group % 2 ^ 16 * 2 ^ 16))) ∧
  ∀ (s : State) (w : InsWord) (c : Ctx), s.ctx (.unassignedOpcode w) default = some c →
    ∃ info, info.code = 0x01 ∧ info.mask = c.sp.mask ∧ info.pc = c.sp.pc ∧ info.resume = c.sp.pc ∧ info.split = c.who.split ∧
      exec (.unassignedOpcode w) s = .next (s.takeFault c.who.team c.who.group info)

/-- SYSR.REG and SYSW.REG over the registers of the system register table (spec/15_traps_and_reliability.md). -/
def Obligations.SystemRegisters : Prop :=
  let stat := fun (s : State) => [(0x0000, 0x9600010000000000), (0x0008, s.sys.pkgnum.toNat), (0x0010, s.sys.ctxtab.toNat), (0x0018, s.sys.qtab.toNat),
    (0x0020, s.sys.jbase.toNat), (0x0028, s.sys.savebase.toNat), (0x0030, s.sys.savesize.toNat)]
  let look := fun (m : List (Nat × Nat)) (k : Nat) => (assoc k m).getD 0
  let kept := fun (s : State) => stat s ++ ((List.range 256).map fun k => (0x0800 + 8 * k, look s.sys.fqcount k)) ++
    ((List.range 256).map fun k => (0x1000 + 16 * k, look s.sys.mepis k)) ++ ((List.range 256).map fun k => (0x1008 + 16 * k, look s.sys.mevic k)) ++
    (List.range 8).map fun w => (0x3000 + 8 * w, (s.die (w / 4)).touch.toNat / 2 ^ (64 * (w % 4)) % 2 ^ 64)
  let cleared := fun (s : State) => (0x0038, s.sys.savefull) :: ((List.range 12).map fun k => (0x0100 + 8 * k, nth s.sys.hbmce k 0)) ++
    ((List.range 1024).map fun k => (0x4000 + 8 * k, look s.sys.pinmiss k)) ++ (List.range 256).map fun k => (0x6000 + 8 * k, look s.sys.fqdrop k)
  (∀ (s : State) (f : Fields) (c : Ctx), RunsNarrow s (.sysrReg f) f c → c.t.ctx = 0 →
    let a := (c.g.scalar .unsigned f.a).toNat
    (∀ x, (a, x) ∈ kept s → ∃ t, exec (.sysrReg f) s = .next t ∧ NextWord s t c c.written ∧ c.gives t 2 false fun _ => x % 2 ^ 64) ∧
    (∀ x, (a, x) ∈ cleared s → ∃ t, exec (.sysrReg f) s = .next t ∧ NextWord s { t with sys := s.sys } c c.written ∧
      c.gives t 2 false (fun _ => x % 2 ^ 64) ∧ (a, 0) ∈ cleared t ∧ (∀ b y, (b, y) ∈ cleared s → b ≠ a → (b, y) ∈ cleared t) ∧
      ∀ y, y ∈ kept s → y ∈ kept t) ∧
    ((∀ x, (a, x) ∉ kept s ++ cleared s) → ∃ info : FaultInfo, info.code = codeADDRBAD ∧ info.mask = c.act ∧ info.addr = a ∧ info.pc = c.sp.pc ∧
      exec (.sysrReg f) s = .next ((s.issued c).takeFault c.who.team c.who.group info))) ∧
  (∀ (s : State) (f : Fields) (c : Ctx), RunsNarrow s (.syswReg f) f c → c.t.ctx = 0 →
    let a := (c.g.scalar .unsigned f.a).toNat
    let b := (c.g.scalar .unsigned f.b).toNat
    let fits := a = 0x0008 ∨ (a = 0x0010 ∧ b + 64 * 256 ≤ hbmEnd) ∨ (a = 0x0018 ∧ b + 64 * 4096 ≤ hbmEnd) ∨ (a = 0x0020 ∧ b + 64 * 2 ^ 20 ≤ hbmEnd) ∨
      ((a = 0x0028 ∨ a = 0x0030) ∧ b * 65536 ≤ hbmEnd)
    let named := a ∈ [0x0008, 0x0010, 0x0018, 0x0020, 0x0028, 0x0030]
    ((∃ x, (a, x) ∈ kept s ++ cleared s) → ∃ t, exec (.syswReg f) s = .next t ∧ NextWord s { t with sys := s.sys } c c.written ∧
      c.gives t 2 false (fun _ => if named ∧ ¬ fits then 1 else 0) ∧
      (named → fits → (a, if a = 0x0008 then b % 4096 else b) ∈ stat t ∧ ∀ d y, (d, y) ∈ kept s ++ cleared s → d ≠ a → (d, y) ∈ kept t ++ cleared t) ∧
      (¬ (named ∧ fits) → t.sys = s.sys)) ∧
    ((∀ x, (a, x) ∉ kept s ++ cleared s) → ∃ info : FaultInfo, info.code = codeADDRBAD ∧ info.mask = c.act ∧ info.addr = a ∧ info.pc = c.sp.pc ∧
      exec (.syswReg f) s = .next ((s.issued c).takeFault c.who.team c.who.group info))) ∧
  ∀ (s : State) (f : Fields) (i : Instr) (c : Ctx),
    i ∈ [Instr.sysrReg f, .sysrTbl f, .syswReg f, .syswTlbi f, .syswReplay f, .syswTbl f, .syswCtlResume f, .syswCtlReadmit f, .syswCtlCancel f,
      .syswCtlFence f, .syswCtlCkpt f, .syswCtlPlace f, .syswCtlAbort f] → RunsNarrow s i f c → c.t.ctx ≠ 0 →
    ∃ info : FaultInfo, info.code = codePERM ∧ info.mask = c.act ∧ info.pc = c.sp.pc ∧ info.resume = c.sp.pc ∧
      exec i s = .next ((if i = .sysrTbl f ∨ i = .syswTbl f then s else s.issued c).takeFault c.who.team c.who.group info)

/-- SYSR.TBL copies a table entry to memory and SYSW.TBL writes one whole or refuses it, and what neither admits is a fault or status 2; the refusal of a misaligned STATUS or TAGS is the model's reading (log 41), that of a step 15 and the comparison of pin entries within their table (log 44), that of a FRAME above HBM (log 62), and ADDRBAD for a table or index that does not exist (log 41) (spec/15_traps_and_reliability.md; spec/02_memory_and_translation.md; spec/03_core_memory_and_engines.md; spec/12_links_and_host.md; spec/14_scheduling.md). -/
def Obligations.SystemTables : Prop :=
  let tables := [(1, 16, 64), (2, 8, 2048), (3, 64, 256), (4, 64, 4096), (5, 16, 64), (6, 16, 4096), (7, 2, 1024)]
  (∀ (s : State) (f : Fields) (i : Instr) (c : Ctx), i ∈ [Instr.sysrTbl f, .syswTbl f] → RunsNarrow s i f c → c.t.ctx = 0 →
    let a := (c.g.scalar .unsigned f.a).toNat
    (∀ size count, (a / 2 ^ 32 % 256, size, count) ∈ tables → count ≤ a % 65536) →
      (i = .sysrTbl f → ∃ info : FaultInfo, info.code = codeADDRBAD ∧ info.mask = c.act ∧ info.addr = a ∧
        exec i s = .next (s.takeFault c.who.team c.who.group info)) ∧
      (i = .syswTbl f → ∃ t, exec i s = .next t ∧ NextWord s t c c.written ∧ c.gives t 2 false fun _ => 2)) ∧
  (∀ (s s1 : State) (f : Fields) (c : Ctx) (k n size count : Nat) (l : List Spot), RunsNarrow s (.sysrTbl f) f c → c.t.ctx = 0 →
    k = (c.g.scalar .unsigned f.a).toNat / 2 ^ 32 % 256 → n = (c.g.scalar .unsigned f.a).toNat % 65536 → (k, size, count) ∈ tables → n < count →
    s.pieceStall c.who.team c.who.group = none →
    (s.settlePieces c.who.team c.who.group).reach c.g.core c.t.ctx (c.g.scalar .unsigned f.b) size .write = (s1, .ok l) → s1.accessStall c true l = none → s1.writeCheck l = none →
    s1.canonical → s1.mire = [] →
    ∃ t, exec (.sysrTbl f) s = .next t ∧ AccessFrame s t c c.written ∧ c.gives t 2 false (fun _ => size) ∧
      (t.groupOf c).unacked = c.g.unacked + 1 ∧ ∀ b, Memory.get t.mem b = afterWrites s1.mem ((keysOf l).zip (s1.entryBytes k n)) b) ∧
  ∀ (s s1 : State) (f : Fields) (c : Ctx) (k n size count : Nat) (l : List Spot), RunsNarrow s (.syswTbl f) f c → c.t.ctx = 0 →
    k = (c.g.scalar .unsigned f.a).toNat / 2 ^ 32 % 256 → n = (c.g.scalar .unsigned f.a).toNat % 65536 → (k, size, count) ∈ tables → n < count →
    s.pieceStall c.who.team c.who.group = none →
    (s.settlePieces c.who.team c.who.group).reach c.g.core c.t.ctx (c.g.scalar .unsigned f.b) size .read = (s1, .ok l) → s1.accessStall c false l = none → s1.readCheck l = none →
    s1.canonical → s1.mire = [] →
    let s2 := s1.beforeRead c.t.ctx c.g.core false l
    let e := leNat (s2.readSpots l)
    let at_ := if k = 3 then s.sys.ctxtab.toNat % 2 ^ 40 + 64 * n else s.sys.qtab.toNat % 2 ^ 40 + 64 * n
    (∀ r, s2.entryStall k n e = some r → exec (.syswTbl f) s = .next (s2.block c.who (.resource r))) ∧
    (s2.entryStall k n e = none → s2.entryCheck k n e = none →
      ∃ t st, exec (.syswTbl f) s = .next t ∧ AccessFrame s t c c.written ∧ c.gives t 2 false (fun _ => st) ∧ st ≤ 1 ∧ (k = 7 → st = 1) ∧
        (k = 1 → (st = 1 ↔ bits e 127 104 ≠ 0 ∨ bits e 31 3 ≠ 0 ∨ bits e 2 1 = 3)) ∧
        (k = 2 → bits e 62 40 ≠ 0 ∨ bits e 15 4 ≠ 0 ∨ bits e 3 0 = 15 ∨ bits e 3 0 ∈ s2.sharedSteps (n / 4) ∨
            (∃ j, j < 4 ∧ j ≠ n % 4 ∧ let q := nth (s2.core (n / 4)).pins j 0
              q.getLsbD 63 = true ∧ (bits q.toNat 3 0 = bits e 3 0 ∨ bits q.toNat 39 16 = bits e 39 16)) → st = 1) ∧
        (k = 3 → (st = 1 ↔ bits e 511 320 ≠ 0 ∨ bits e 198 192 ≠ 0 ∨ bits e 133 128 ≠ 0 ∨ bits e 63 40 ≠ 0 ∨ bits e 11 1 ≠ 0 ∨
          (e.testBit 0 = true ∧ (bits e 69 64 < 6 ∨ 20 < bits e 69 64)))) ∧
        (k = 5 → (st = 1 ↔ bits e 63 44 ≠ 0 ∨ bits e 31 13 ≠ 0 ∨ bits e 12 1 < bits e 43 32)) ∧
        (st = 1 ∨ k ∉ [2, 3, 4] → t.mem = s2.mem) ∧
        (st = 1 → t.patterns = s.patterns ∧ t.collGroups = s.collGroups ∧ t.regions = s.regions ∧ ∀ m, (t.core m).pins = (s.core m).pins) ∧
        (st = 0 →
          (k = 1 → ∀ j, j < 64 → nth t.patterns j 0 = if j = n then BitVec.ofNat 128 e else nth s.patterns j 0) ∧
          (k = 2 → nth (t.core (n / 4)).pins (n % 4) 0 = BitVec.ofNat 64 e) ∧
          (k = 3 → t.ctxEntry n = e) ∧
          (k = 4 → bits (t.queueEntry n) 447 0 = bits e 447 0 ∧ bits (t.queueEntry n) 511 448 = bits (s2.queueEntry n) 511 448) ∧
          (k = 3 ∨ k = 4 → ∀ b, b < at_ ∨ at_ + 64 ≤ b → Memory.get t.mem b = Memory.get s2.mem b) ∧
          (k = 5 → ∀ j, j < 64 → nth t.collGroups j 0 = if j = n then BitVec.ofNat 128 e else nth s.collGroups j 0) ∧
          (k = 6 → (assoc n t.regions).getD 0 = BitVec.ofNat 128 e)))

/-- SYSW.TLBI, SYSW.REPLAY and the SYSW.CTL actions; FENCE of a tile that is not live and RESUME without a halted team answer 3, and CANCEL of an unknown number 2, by the model's reading (log 44) (spec/15_traps_and_reliability.md). -/
def Obligations.SystemOperations : Prop :=
  (∀ (s : State) (f : Fields) (c : Ctx), RunsNarrow s (.syswTlbi f) f c → c.t.ctx = 0 →
    let a := (c.g.scalar .unsigned f.a).toNat
    let va := (c.g.scalar .unsigned f.b).toNat % 2 ^ 48
    let keep := fun (x : TlbEntry) => !(a.testBit 9 || (x.ctx == a % 256 && (a.testBit 8 || va / 2 ^ x.size == x.page / 2 ^ x.size)))
    ∃ t, exec (.syswTlbi f) s = .next t ∧ NextWord s { t with cores := s.cores, dies := s.dies } c c.written ∧ c.gives t 2 false (fun _ => 0) ∧
      (∀ n, t.core n = { s.core n with tlb1 := (s.core n).tlb1.filter keep, tlb2 := (s.core n).tlb2.filter keep }) ∧
      ∀ d, d < 2 → t.die d = { s.die d with tlb := (s.die d).tlb.filter keep }) ∧
  (∀ (s : State) (f : Fields) (c : Ctx), RunsNarrow s (.syswReplay f) f c → c.t.ctx = 0 →
    let a := (c.g.scalar .unsigned f.a).toNat
    ∃ t, exec (.syswReplay f) s = .next t ∧ t.mem = s.mem ∧ t.sys = s.sys ∧ c.gives t 2 false (fun _ => if a < 256 then 0 else 2) ∧
      (256 ≤ a → NextWord s t c c.written) ∧
      (a < 256 → t.xlates = s.xlates.filter (fun x => x.1 != a) ∧
        (∀ id n g m x p, t.group? id n = some g → g.split? m = some x → x.wait ≠ .xlate a p) ∧
        (∀ k ∈ t.commands, k.xlate.map Prod.fst ≠ some a) ∧ (∀ x ∈ t.teams, x.xlate.map Prod.fst ≠ some a) ∧ (∀ q ∈ t.queues, q.2.xlate.map Prod.fst ≠ some a) ∧
        ∀ y ∈ t.graphs, ∀ n ∈ y.nodes, n.xlate.map Prod.fst ≠ some a)) ∧
  ∀ (s : State) (f : Fields) (i : Instr) (c : Ctx),
    i ∈ [Instr.syswCtlResume f, .syswCtlReadmit f, .syswCtlCancel f, .syswCtlFence f, .syswCtlCkpt f, .syswCtlPlace f, .syswCtlAbort f] →
    RunsNarrow s i f c → c.t.ctx = 0 →
    let action := (c.g.scalar .unsigned f.a).toNat % 256
    let b := (c.g.scalar .unsigned f.b).toNat
    let mine := fun (x : Team) => x.ctx == b / 2 ^ 32 % 256 && x.lin == b % 2 ^ 32 && x.halt.isSome
    let pool := s.sys.savebase.toNat * 65536
    let st :=
      match action with
      | 1 => if s.teams.any mine then 0 else 3
      | 2 => if 512 ≤ b then 2 else if (s.tileHealth b).status != .appealing || s.teams.any (fun x => x.core / 256 == b / 256) then 3 else 0
      | 3 => if s.nextSeq ≤ b then 2 else if (s.job? b).all (·.ended) then 3 else 0
      | 4 => if 512 ≤ b then 2 else if (s.tileHealth b).status != .live then 3 else 0
      | 5 => if b < 256 then 0 else 2
      | 6 => if b % 65536 != 0 || b < pool || pool + s.sys.savesize.toNat * 65536 ≤ b || hbmEnd ≤ b then 1
        else if s.saved.any (fun x => x.area ≤ b && b < x.area + x.units * 65536) then 3 else 0
      | 7 => if b < 256 then 0 else 2
      | _ => 2
    ∃ t, exec i s = .next t ∧ ((t.group? c.who.team c.who.group).isSome → c.gives t 2 false fun _ => st) ∧
      (st ≠ 0 → NextWord s t c c.written) ∧
      (st = 0 →
        (action = 1 → ∀ id x, s.team? id = some x → mine x = true → (∀ y ∈ s.teams, mine y = true → y.id = id) →
          ∃ y, t.team? id = some y ∧ y.halt = none ∧ ∀ g ∈ y.groups, g.halted = false) ∧
        (action = 2 → (t.tileHealth b).status = .live) ∧
        (action = 3 → (∀ x ∈ t.teams, x.seq ≠ b) ∧ (∀ x ∈ t.saved, x.seq ≠ b) ∧ (t.job? b).map (fun j => (j.ended, j.status)) = some (true, 6)) ∧
        (action = 4 → (t.tileHealth b).fences = s.time :: (s.tileHealth b).fences ∧ (t.tileHealth b).status ≠ .live ∧
          ∀ x ∈ t.teams, (s.die (b / 256)).touch.getLsbD x.ctx = false) ∧
        (action = 5 → NextWord s { t with dies := s.dies } c c.written ∧
          ∀ d n, d < 2 → (t.die d).touch.getLsbD n = (decide (n ≠ b) && (s.die d).touch.getLsbD n)) ∧
        (action = 6 → NextWord s { t with saved := s.saved, nextTeam := s.nextTeam } c c.written ∧ ∃ x, t.saved = s.saved ++ [x] ∧ x.area = b) ∧
        (action = 7 → (∀ x ∈ t.teams, x.ctx ≠ b) ∧ (∀ x ∈ t.saved, x.ctx ≠ b) ∧ (∀ k ∈ t.commands, k.ctx ≠ b) ∧ ∀ j ∈ t.jobs, j.ctx = b → j.ended = true))

/-! ### The matrix engine -/

/-- Matrix, tile and distance instructions join their core's queue, and the queue's first free one starts (spec/08_matrix_instructions.md; spec/09_distance_instructions.md). -/
def Obligations.MatrixInstructionsAreAccepted : Prop :=
  let engine := fun (f : Fields) => [Instr.mma f, .mmaq f, .mmasm f, .tzero f, .tld f, .tst f, .tmovTov f, .tmovFromv f, .tmovTt f, .tsideRd f,
    .tsideWr f, .tsideInit f, .tscalS f, .tscalRow f, .tscalDivl f, .tacc f, .dist f, .dargm f, .dkacc f, .dcnt f]
  let cost := fun (i : Instr) => match i with
    | .mma _ | .mmaq _ | .dist _ | .dargm _ | .dkacc _ => 1
    | .mmasm _ => 2
    | _ => 0
  let counted := fun (l : Lease) (n : Nat) => if n = 0 then l else { l with left := l.left - n, grace := l.grace.map (· + n) }
  (∀ (s s1 : State) (f : Fields) (i : Instr) (c : Ctx) (runs : List Run), i ∈ engine f → f.scope = .group → Runs s i f c →
    let p := soloParty c
    let x := arrayFormats i f c.sp.fmt
    let k := c.g.core
    fmtCheck p x = true → memoryCheck p x s = (s1, .ok runs) →
    (∀ r, p.stall s1 runs = some r → exec i s = .next (s1.block c.who (.resource r))) ∧
    (p.stall s1 runs = none → (cost i ≠ 0 → s1.holdsLease k c.t = true) →
      ∃ t op, exec i s = .next t ∧ AccessFrame s t c c.written ∧ t.mem = s1.mem ∧ (t.core k).matrix = (s1.core k).matrix ++ [op] ∧
        (t.core k).lease = counted (s1.core k).lease (cost i) ∧ (∀ n, (t.core n).tiles = (s.core n).tiles) ∧
        op.i = i ∧ op.team = c.who.team ∧ op.members = [(c.who.group, c.who.split)] ∧ op.mode = c.sp.mode ∧ op.fmt = c.sp.fmt ∧
        op.contrib = c.act ∧ op.reads = runs ∧ op.running = false ∧ op.shadow = false ∧
        (∀ r, r < 64 → nth op.live r false = c.act.getLsbD (r / 2)) ∧
        ∀ n q r w, readsA i = true → f.a = .v n q → c.g.latch = none → r < 64 → w < rowBytes x.a / 4 →
          (op.a.getD r []).getD w 0 = ((c.g.vreg (n.val + r % 2 * (rowBytes x.a / 4) + w)).permute q).at (r / 2))) ∧
  (∀ (s : State) (f : Fields) (i : Instr) (c : Ctx), i ∈ Instr.mleaseRd f :: .mleaseRel f :: engine f → f.scope = .gang ∨ f.scope = .team →
    s.ctx i f = some c → i.wf (groupEnv c.t c.g) = true → s.depends c = false →
    let s1 := s.block c.who (.rendezvous i)
    (s1.party? c.who.team c.who.group = none → exec i s = .next s1) ∧
    ∀ p s2 runs, s1.party? c.who.team c.who.group = some (i, p) → p.idle = false → (∀ x ∈ p.ctxs, x.broken = false) → i ∈ engine f →
      let x := arrayFormats p.lead.i p.lead.f p.lead.sp.fmt
      let cores := if isTwin i p.lead.f then [p.lead.t.core, p.lead.t.core + 1] else [p.lead.g.core]
      fmtCheck p x = true → memoryCheck p x s1 = (s2, .ok runs) → (∀ m ∈ p.members, m.g.generals + tovRegs i ≤ m.g.ceiling) →
      (∀ x ∈ p.ctxs, s2.depends x = false) → p.stall s2 runs = none → (cost i ≠ 0 → ∀ n ∈ cores, s2.holdsLease n p.lead.t = true) →
      ∃ t op, exec i s = .next t ∧ t.mem = s2.mem ∧ (∀ n, (t.core n).matrix = (s2.core n).matrix ++
          (if cores.head? = some n then [op] else if n ∈ cores then [op.follower] else [])) ∧ (∀ n, (t.core n).tiles = (s.core n).tiles) ∧
        op.i = i ∧ op.members = p.members.map (fun m => (m.who.group, m.who.split)) ∧ op.mode = p.lead.sp.mode ∧ op.contrib = p.lead.act ∧
        (∀ r, r < 64 → nth op.live r false = (decide (f.scope = .gang) || p.lead.act.getLsbD (r / 2)))) ∧
  (∀ (s : State) (f : Fields) (i : Instr) (c : Ctx), i ∈ [Instr.mleaseRd f, .mleaseRel f] → f.scope = .group → Runs s i f c →
    let l := (s.core c.g.core).lease
    let mine := decide (l.holder = some c.who.team)
    let others := l.waiting.any (· != c.who.team)
    ∃ t, exec i s = .next t ∧ NextWord s { t with cores := s.cores } c c.written ∧
      c.gives t 1 false (fun _ => (if mine then l.left % 65536 else 0) + (if mine then 2 ^ 16 else 0) + (if others then 2 ^ 17 else 0)) ∧
      ∀ n, t.core n = if n = c.g.core ∧ i = .mleaseRel f ∧ mine ∧ others then { s.core n with lease := { l with grace := some 65536 } } else s.core n) ∧
  (∀ (s : State) (core : Nat), (s.core core).matrix.length = 0 → exec (.matrixOpStart core) s = .next s) ∧
  ∀ (s : State) (core k : Nat) (m : MatrixOp) (u : Team), (s.core core).matrix[k]? = some m → s.team? m.team = some u → s.mire = [] →
    m.running = false → m.shadow = false → s.opReady core m = true →
    (∀ j b, j < k → (s.core core).matrix[j]? = some b →
      ((b.team = m.team ∧ b.second = m.second) → ∀ x ∈ b.tiles, x ∉ m.tiles) ∧
      ((leaseCost b.i).isSome ≠ (leaseCost m.i).isSome ∨ (b.running = false ∧ leaseCost m.i = none))) →
    (∀ j b, j < k → (s.core core).matrix[j]? = some b → (mayStart ((s.core core).matrix.take j) b && s.opReady core b) = false) →
    let spots : List Spot := m.reads.flatMap Run.spots
    let s1 := s.beforeRead u.ctx core true spots
    (m.stores = false → s.readCheck spots = none) →
    ∃ t, exec (.matrixOpStart core) s = .next t ∧ t.mem = s.mem ∧ t.teams = s.teams ∧ (t.core core).tiles = (s.core core).tiles ∧
      (t.core core).matrix = (s.core core).matrix.set k
        (if m.stores then { m with running := true } else { m with running := true, reads := [], bytes := s1.readSpots spots }) ∧
      ((∀ x ∈ spots, x.window = none) → s1.readSpots spots = s.peek (keysOf spots))

/-- What an accepted matrix, tile or distance instruction writes as it completes, TST's conversion with OVF, ECNT and the flags among it (spec/08_matrix_instructions.md; spec/09_distance_instructions.md; spec/06_number_formats.md). -/
def Obligations.MatrixResults : Prop :=
  ∀ (s : State) (core : Nat) (m : MatrixOp) (t : Team) (f : Fields), (s.core core).matrix.find? s.mayFinish = some m → s.team? m.team = some t →
    fieldsOf m.i = some f → (m.stores = true → s.writeCheck (m.reads.flatMap Run.spots) = none) → (∃ g ∈ t.groups, g.ended = false) →
    let phys := fun (o : Opnd) => t.tileAt m.second (tileOf o)
    let x := arrayFormats m.i f m.fmt
    let rd : Rounding := { md := roundMode f m.mode, seed := m.seed, lin := t.lin }
    let old := s.tile core (phys f.d)
    let live := fun (r : Nat) => nth m.live r false
    ∃ u, exec (.matrixOpComplete core) s = .next u ∧ (u.core core).matrix = (s.core core).matrix.erase m ∧
      (m.stores = false → u.mem = s.mem) ∧
      (phys f.d < 16 → isTwin m.i f = false → ∀ i j, i < 64 → j < 64 →
        let new := (u.tile core (phys f.d)).at i j
        (∀ (metric : Metric), (m.i = .mma f ∧ metric = .product ((xmN f).testBit 0)) ∨ (m.i = .mmaq f ∧ metric = .product ((xmN f).testBit 0)) ∨
            (m.i = .dist f ∧ metric = [Metric.l1, .l2sq, .negdot, .hamming].getD (subN f % 4) .l1) →
          let n := 64 * rowBytes x.b
          let aArea := (m.bytes.drop n).take (x.areaBytes x.a)
          let bArea := (m.bytes.drop (n + x.areaBytes x.a)).take (x.areaBytes x.b)
          let row := rowNat (m.a.getD i [])
          let col := leNat ((m.bytes.drop (j * rowBytes x.b)).take (rowBytes x.b))
          let ks := List.range (min (fmtK x.a) (fmtK x.b))
          m.a.length = 64 → n ≤ m.bytes.length →
          (live i = false → new = old.at i j) ∧
          (live i = true → 10 ≤ x.a → new.toInt =
            let v := ks.foldl (fun acc k => acc + metric.intTerm (elemInt x.a (elemCode x.a row k)) (elemInt x.b (elemCode x.b col k))) (old.at i j).toInt
            if f.sat then clamp (-2 ^ 31) (2 ^ 31 - 1) v else (BitVec.ofInt 32 v).toInt) ∧
          (live i = true → x.a < 10 → new.toNat = (fp32.round rd.md false (rd.rand (tileOf f.d) old i j) (sumOf rd.md
            (num32 (old.at i j).toNat :: ks.map fun k => metric.term (x.value x.a aArea row i k) (x.value x.b bArea col j k)))).code % 2 ^ 32)) ∧
        (m.i = .tzero f → new = (if subN f ≤ 1 then 0 else old.at i j)) ∧
        (m.i = .tmovTt f → new = (s.tile core (phys f.a)).at i j) ∧
        (m.i = .tld f → dtN f ≤ 2 → new = BitVec.ofNat 32 (if dtN f = 0 then leNat ((m.bytes.drop (256 * i + 4 * j)).take 4)
          else rne32 ((if dtN f = 1 then fp16 else bf16).decode (leNat ((m.bytes.drop (128 * i + 2 * j)).take 2))))) ∧
        (∀ factor : Nat, (m.i = .tscalS f ∧ factor = (lowWord (m.args.getD 0 0)).toNat) ∨
            (m.i = .tscalRow f ∧ m.contrib.getLsbD (i % 32) = true ∧ factor = ((m.a.getD (i / 32) []).getD (i % 32) 0).toNat) →
          new.toNat = (fp32.round rd.md false (rd.rand (tileOf f.d) old i j) ((num32 (old.at i j).toNat).mul (num32 factor))).code % 2 ^ 32) ∧
        (m.i = .tscalRow f → m.contrib.getLsbD (i % 32) = false → new = old.at i j) ∧
        (m.i = .tscalDivl f →
          let n := num32 (nth old.l i 0).toNat
          (n.isZero = true → new = 0) ∧ (n.isZero = false → new.toNat =
            (divideFlt rd.md false (rd.rand (tileOf f.d) old i j) (num32 (old.at i j).toNat) n).code % 2 ^ 32)) ∧
        (m.i = .tmovFromv f → new = if i / 16 = immVal f.b ∧ m.contrib.getLsbD (2 * (i % 16) + j / 32) = true
          then (m.a.getD (j % 32) []).getD (2 * (i % 16) + j / 32) 0 else old.at i j) ∧
        (m.i = .tacc f → dtN f = 1 → subN f = 0 → f.sat = false → new = old.at i j + (s.tile core (phys f.a)).at i j)) ∧
      (phys f.d < 16 → ∀ i, i < 64 →
        let new := u.tile core (phys f.d)
        (m.i = .tzero f ∨ m.i = .tsideInit f → nth new.m i 0 = (if m.i = .tzero f ∧ subN f = 1 then nth old.m i 0 else 0xFF800000#32) ∧
          nth new.l i 0 = (if m.i = .tzero f ∧ subN f = 1 then nth old.l i 0 else 0)) ∧
        (m.i = .tsideWr f → nth new.m i 0 = (if m.contrib.getLsbD (i % 32) = true then (m.a.getD (i / 32) []).getD (i % 32) 0 else nth old.m i 0) ∧
          nth new.l i 0 = (if m.contrib.getLsbD (i % 32) = true then (m.a.getD (2 + i / 32) []).getD (i % 32) 0 else nth old.l i 0)) ∧
        (m.i = .dargm f → dtN f = 1 → subN f = 1 →
          let n := (lowWord (m.args.getD 0 0)).toNat
          let o := (lowWord (m.args.getD 1 0)).toNat
          1 ≤ n → n ≤ 64 → o + n ≤ 0xFFFF →
          (∀ j, j < n → (nth new.m i 0).toInt ≤ (old.at i j).toInt) ∧ ∃ j, j < n ∧ nth new.m i 0 = old.at i j ∧ (nth new.l i 0).toNat = o + j)) ∧
      (∀ n g, m.i = .tsideRd f → f.d = .v n .id → n.val + 4 ≤ 256 → t.group? m.leader = some g → g.ended = false →
        ∃ h, u.group? m.team m.leader = some h ∧ ∀ l, l < 32 →
          let tile := s.tile core (phys f.a)
          (h.vreg n.val).at l = (if m.contrib.getLsbD l = true then nth tile.m l 0 else (g.vreg n.val).at l) ∧
          (h.vreg (n.val + 3)).at l = (if m.contrib.getLsbD l = true then nth tile.l (32 + l) 0 else (g.vreg (n.val + 3)).at l)) ∧
      (∀ n g, m.i = .tmovTov f → f.d = .v n .id → n.val + 32 ≤ 256 → t.group? m.leader = some g → g.ended = false →
        ∃ h, u.group? m.team m.leader = some h ∧ ∀ l w, l < 32 → w < 32 →
          (h.vreg (n.val + w)).at l = if m.contrib.getLsbD l = true
            then (s.tile core (phys f.a)).at (16 * immVal f.b + l / 2) (32 * (l % 2) + w) else (g.vreg (n.val + w)).at l) ∧
      (let k := bits (m.args.getD 1 0).toNat 35 32
        let kt := t.tileAt m.second k
        m.i = .mmasm f → phys f.d < 16 → kt < 16 → kt ≠ phys f.d → m.a.length = 64 → ∀ i, i < 64 →
        let p := s.tile core kt
        let o' := u.tile core (phys f.d)
        let p' := u.tile core kt
        let fmt := [3, 2, 5].getD (dtN f) 3
        let es := fmtWidth fmt / 8
        let sc := num32 (lowWord (m.args.getD 1 0)).toNat
        let q := fun (n : Nat) => elemNum fmt (elemCode fmt (rowNat (m.a.getD i [])) n)
        let key := fun (j n : Nat) => elemNum fmt (elemCode fmt (leNat ((m.bytes.drop (64 * j)).take 64)) n)
        let value := fun (j c : Nat) => elemNum fmt (elemCode fmt (leNat ((m.bytes.drop (4096 + c * 64 * es)).take (64 * es))) j)
        let score := fun (j : Nat) =>
          let ps := (List.range (fmtK fmt)).map fun n => (q n).mul (key j n)
          let x := sc.mul (sumOf .rne ps)
          (fp32.round rd.md false (rd.rand k p i j) (if x.isZero then sumOf rd.md (ps.map sc.mul) else x)).code % 2 ^ 32
        let mn := (List.range 64).foldl (fun acc j => minMax fp32 0 true acc (score j)) (nth old.m i 0).toNat
        let exp := fun (x : Nat) => num32 (ex2 (rne32 (sumOf .rne [num32 x, (num32 mn).negate])))
        let al := exp (nth old.m i 0).toNat
        let ps := (List.range 64).map fun j => exp (score j)
        let cell := fun (n : Nat) (w : W32) (xs : List Machine.Num) =>
          (fp32.round rd.md false (rd.rand (tileOf f.d) old i n) (sumOf rd.md ((num32 w.toNat).mul al :: xs))).code % 2 ^ 32
        let kept := (∀ c, c < 64 → o'.at i c = old.at i c) ∧ nth o'.m i 0 = nth old.m i 0 ∧ nth o'.l i 0 = nth old.l i 0
        let seen := (num32 mn).isNan = false ∧ num32 mn ≠ .inf true
        (live i = false → kept ∧ ∀ j, j < 64 → p'.at i j = p.at i j) ∧
        (live i = true → (∀ j, j < 64 → (p'.at i j).toNat = score j) ∧ (¬ seen → kept) ∧
          (seen → (nth o'.m i 0).toNat = mn % 2 ^ 32 ∧ (nth o'.l i 0).toNat = cell 64 (nth old.l i 0) ps ∧
            ∀ c, c < 64 → (o'.at i c).toNat = cell c (old.at i c) ((ps.zip ((List.range 64).map fun j => value j c)).map fun x => x.1.mul x.2)))) ∧
      (m.i = .tst f →
        let tile := s.tile core (phys f.c)
        let es := [4, 2, 2, 1, 1, 1].getD (dtN f) 1
        let md := if f.rnd = 0 ∧ m.fmt.getLsbD 20 = true then .rsr else roundMode f m.mode
        let F := [fp16, bf16, e4m3].getD (dtN f - 1) e5m2
        let rounded := fun (i j : Nat) => F.round md (f.sat || dtN f == 3) (({ rd with md := md } : Rounding).rand (tileOf f.c) tile i j)
          (num32 (tile.at i j).toNat)
        let short := fun (i j : Nat) => clamp (-128) 127 (tile.at i j).toInt
        let code := fun (i j : Nat) => if dtN f = 0 then (tile.at i j).toNat
          else if dtN f = 5 then wrap 8 (short i j) else (rounded i j).code
        let counts := fun (i j : Nat) => dtN f ≠ 0 ∧ if dtN f = 5 then short i j ≠ (tile.at i j).toInt
          else (rounded i j).of = true ∧ (F.decode (rounded i j).code).isInf = false
        let cells := (List.range 64).flatMap fun i => (List.range 64).map fun j => (i, j)
        let ovf := min (tile.ovf.toNat + (cells.filter fun x => counts x.1 x.2).length) (2 ^ 32 - 1)
        (s.mire = [] → s.canonical →
          let keys := m.reads.flatMap fun x => (List.range x.len).map (x.first + ·)
          let bytes := cells.flatMap (fun x => leBytes es (code x.1 x.2)) ++ if (subN f).testBit 1 then leBytes 4 ovf else []
          ∀ a, Memory.get u.mem a = afterWrites s.mem (keys.zip bytes) a) ∧
        (phys f.c < 16 → u.tile core (phys f.c) = { tile with
          ovf := BitVec.ofNat 32 (if (subN f).testBit 2 then 0 else ovf)
          ecnt := if md = .rsr ∧ dtN f ≠ 0 ∧ dtN f ≠ 5 then tile.ecnt + 4096 else tile.ecnt }) ∧
        ∀ x ∈ m.members, ∀ g, t.group? x.1 = some g →
          let clamped := ∃ c ∈ cells, short c.1 c.2 ≠ (tile.at c.1 c.2).toInt
          let tooBig := ∃ c ∈ cells, (rounded c.1 c.2).of = true
          ∃ h, u.group? m.team x.1 = some h ∧ (dtN f = 0 → h.flags = g.flags) ∧
            (dtN f = 5 → (clamped → h.flags = g.flags ||| 1) ∧ (¬ clamped → h.flags = g.flags)) ∧
            (dtN f ≠ 0 → dtN f ≠ 5 → (tooBig → h.flags = g.flags ||| 4) ∧ (¬ tooBig → h.flags = g.flags)))

/-! ### The splat pipeline -/

/-- What GSW, BLEND, UNBLEND, MASKPK and MASKUN write (spec/10_splat_pipeline.md). -/
def Obligations.SplatArithmetic : Prop :=
  let r := fun (x : Machine.Num) => num32 (rne32 x)
  let zero := Num.fin false 0 0
  let one := Num.fin false 1 0
  let fma := fun (a b d : Machine.Num) => r (sumOf .rne [a.mul b, d])
  let minus := fun (a b : Machine.Num) => r (sumOf .rne [a, b.negate])
  let small := fun (x : Machine.Num) => x.below (.fin false 1 (-8))
  let word := fun (g : Group) (n l : Nat) => (g.vreg n).at l
  let val := fun (g : Group) (n l : Nat) => num32 (word g n l).toNat
  let done := fun (s t : State) (i : Instr) (c : Ctx) (d : List Span) => exec i s = .next t ∧ NextWord s t c d ∧ (t.groupOf c).flags = c.g.flags
  (∀ (s : State) (f : Fields) (n p : Fin 256) (c : Ctx) (x : Nat) (ks : List Nat), f.d = .v n .id → f.b = .v p .id → Runs s (.gsw f) f c →
    let o := (c.g.scalar .unsigned f.a).toNat % 2 ^ 32
    (o % 32 ≠ 0 → ∃ info : FaultInfo, info.code = codeADDRBAD ∧ info.mask = c.act ∧ info.addr = o ∧
      exec (.gsw f) s = .next ((s.issued c).takeFault c.who.team c.who.group info)) ∧
    (o % 32 = 0 → (List.range 32).mapM (fun i => sharedKey c.t (onSecond c.t c.g) (o + i)) = some ks → leNat (s.peek ks) = x →
      (bits x 255 224 ≠ 0 → ∃ info : FaultInfo, info.code = codeDECODE ∧ info.mask = c.act ∧
        exec (.gsw f) s = .next ((s.issued c).takeFault c.who.team c.who.group info)) ∧
      (bits x 255 224 = 0 → ∃ t, done s t (.gsw f) c c.written ∧ ∀ l, l < 32 →
        let dx := minus (val c.g p.val l) (num32 (bits x 31 0))
        let dy := minus (val c.g (p.val + 1) l) (num32 (bits x 63 32))
        let e := r (((wide16 x 80).scale2 1).mul dy)
        let q := fma (r ((wide16 x 96).mul dy)) dy (r ((fma (wide16 x 64) dx e).mul dx))
        let none_ := q.isNan || q.below zero
        let g2 := if none_ then 0 else ex2 (rne32 (q.mul (num32 0xBF38AA3B)))
        let al := rne32 ((wide16 x 112).mul (num32 g2))
        let v := num32 al
        let alpha := if none_ || v.isNan || ((Num.fin false 255 0).mul v).below one then 0
          else if (num32 0x3F7F0000).below v then 0x3F7F0000 else al
        (word (t.groupOf c) n.val l = if c.act.getLsbD l then BitVec.ofNat 32 alpha else word c.g n.val l) ∧
        (subN f = 1 → word (t.groupOf c) (n.val + 1) l = if c.act.getLsbD l then BitVec.ofNat 32 g2 else word c.g (n.val + 1) l)))) ∧
  (∀ (s : State) (f : Fields) (n a b : Fin 256) (p : Fin 8) (c : Ctx), f.d = .v n .id → f.a = .v a .id → f.b = .v b .id → f.c = .p p →
    Runs s (.blend f) f c → ∃ t, done s t (.blend f) c (c.written ++ spanOf uP f.c) ∧ ∀ l, l < 32 →
      let live := c.act.getLsbD l && (c.g.pred p.val).getLsbD l
      let al := val c.g a.val l
      let tr := val c.g (n.val + 3) l
      let w := r (tr.mul al)
      let left := if al.isZero then tr else r (tr.mul (minus one al))
      (∀ k, k < 3 → word (t.groupOf c) (n.val + k) l = if live && !al.isZero
        then BitVec.ofNat 32 (rne32 (sumOf .rne [w.mul (val c.g (b.val + k) l), val c.g (n.val + k) l])) else word c.g (n.val + k) l) ∧
      (word (t.groupOf c) (n.val + 3) l = if live && !al.isZero then BitVec.ofNat 32 (rne32 (tr.mul (minus one al))) else word c.g (n.val + 3) l) ∧
      (word (t.groupOf c) (n.val + 4) l = if live then word c.g (n.val + 4) l + 1 else word c.g (n.val + 4) l) ∧
      (p.val ≠ 7 → ((t.groupOf c).pred p.val).getLsbD l = ((c.g.pred p.val).getLsbD l && !(live && small left)))) ∧
  (∀ (s : State) (f : Fields) (n a b k : Fin 256) (c : Ctx), f.d = .v n .id → f.a = .v a .id → f.b = .v b .id → f.c = .v k .id →
    Runs s (.unblend f) f c → c.room 8 → ∃ t, done s t (.unblend f) c (c.written ++ spanOf (uV 4) f.a) ∧ ∀ l, l < 32 →
      let al := val c.g b.val l
      let om := minus one al
      let scaled := fun (x : Machine.Num) => num32 (divideFlt .rne false 0 x om).code
      let tb := scaled (val c.g (a.val + 3) l)
      let w := r (tb.mul al)
      let term := fun (i : Nat) => rne32 (sumOf .rne [tb.mul (val c.g (k.val + i) l), (scaled (val c.g (a.val + i) l)).negate])
      let behind := fun (i : Nat) => rne32 (sumOf .rne [w.mul (val c.g (k.val + i) l), val c.g (a.val + i) l])
      (∀ i, i < 4 → word (t.groupOf c) (n.val + i) l = if c.act.getLsbD l
        then (if al.isZero then 0 else if i = 3 then BitVec.ofNat 32 (rne32 (tb.mul al)) else BitVec.ofNat 32 (term i))
        else word c.g (n.val + i) l) ∧
      ∀ i, i < 4 → word (t.groupOf c) (a.val + i) l = if c.act.getLsbD l && !al.isZero
        then BitVec.ofNat 32 (if i = 3 then (divideFlt .rne false 0 (val c.g (a.val + 3) l) om).code else behind i) else word c.g (a.val + i) l) ∧
  (∀ (s : State) (f : Fields) (n a : Fin 256) (c : Ctx), f.d = .v n .id → f.a = .v a .id → Runs s (.maskpk f) f c →
    ∃ t, done s t (.maskpk f) c c.written ∧ ∀ l, l < 32 →
      (c.act.getLsbD l = false → word (t.groupOf c) n.val l = word c.g n.val l) ∧
      (c.act.getLsbD l = true → ∀ i, i < 32 → (word (t.groupOf c) n.val l).getLsbD i =
        if subN f = 0 then (word c.g (a.val + i) l).getLsbD 31
        else if subN f = 1 then zero.below (val c.g (a.val + i) l)
        else decide ((word c.g (a.val + i) l).toNat % 2 ^ 31 ≠ 0))) ∧
  ∀ (s : State) (f : Fields) (n a b : Fin 256) (c : Ctx), f.d = .v n .id → f.a = .v a .id → f.b = .v b .id → Runs s (.maskun f) f c →
    ∃ t, done s t (.maskun f) c c.written ∧ ∀ l i, l < 32 → i < 32 →
      let set := (word c.g a.val l).getLsbD i
      let x := word c.g (b.val + i) l
      word (t.groupOf c) (n.val + i) l = if c.act.getLsbD l
        then (if subN f = 0 then (if set then x else 0) else if subN f = 1 then (if set then 0 else x)
          else BitVec.ofNat 32 (x.toNat % 2 ^ 31 + (if set then 2 ^ 31 else 0)))
        else word c.g (n.val + i) l

/-- EMIT reserves, writes and leaves to commit; DECODE unpacks a record or a key (spec/10_splat_pipeline.md). -/
def Obligations.RecordsEmittedAndDecoded : Prop :=
  (∀ (s : State) (f : Fields) (c : Ctx), Runs s (.emit f) f c →
    (c.emitEdge s = none → exec (.emit f) s = .next (s.raise c (c.fault codeRECORDQ c.act))) ∧
    ((∀ seq node, c.t.origin ≠ .node seq node) → c.emitEdge s = none) ∧
    ∀ (seq i : Nat) (e : Edge) (n : Fin 256), c.emitEdge s = some (seq, i, e) → f.b = .v n .id →
      (256 < n.val + e.rsize / 4 → exec (.emit f) s = .next (s.raise c (c.fault codeRECORDQ c.act))) ∧
      ∀ (s1 : State) (hs : List Spot), n.val + e.rsize / 4 ≤ 256 → spansMeet (c.sp.windows.flatMap (·.regs)) (emitSpan f e) = false →
        spansMeet (s.pendingSpans c.who.team c.g) (emitSpan f e) = false → s.storing c.who.team c.who.group false = false →
        (∀ q ∈ e.pending, q.owner ≠ some c.who) →
        s.reach c.g.core c.t.ctx (BitVec.ofNat 64 e.queue) 64 .readWrite = (s1, .ok hs) →
        s1.accessStall c true hs = none → s1.writeCheck hs = none →
        let s2 := s1.beforeRead c.t.ctx c.g.core false hs
        let resv := s2.headerGet hs 16
        let lanes := lanesOf c.act
        (e.cap < resv + lanes.length →
          exec (.emit f) s = .next ((s2.headerSet c.t.ctx hs 40 (s2.headerGet hs 40 + 1)).block c.who .emit)) ∧
        (resv + lanes.length ≤ e.cap → ∀ (s4 : State) (l : List (Nat × List Spot)),
          let rec_ : Reserved := { first := resv, count := lanes.length, written := false, owner := some c.who }
          let s3 := (s2.headerSet c.t.ctx hs 16 (resv + lanes.length)).modEdge seq i fun e => { e with pending := e.pending ++ [rec_] }
          lanes.foldl (fun (r : State × List (Nat × Except MemFault (List Spot))) x =>
              let y := r.1.reach c.g.core c.t.ctx (BitVec.ofNat 64 (e.base + (resv + lanes.idxOf x) * e.rsize)) e.rsize .write
              (y.1, r.2 ++ [(x, y.2)])) (s3, []) = (s4, l.map fun x => (x.1, .ok x.2)) →
          s4.accessStall c true (places l) = none → s4.writeCheck (places l) = none → s4.canonical →
          let s5 := (s4.issued c).mergeLines (linesOf (((places l).filter fun p => p.home != 1).map (·.key)))
          let bytes := lanes.flatMap fun x => (List.range (e.rsize / 4)).flatMap fun w => leBytes 4 ((c.g.vreg (n.val + w)).at x).toNat
          ∃ t, exec (.emit f) s = .next t ∧ AccessFrame s t c [] ∧ (t.groupOf c).unacked = c.g.unacked + 1 ∧
            (∀ a, Memory.get t.mem a = afterWrites s5.mem ((keysOf (places l)).zip bytes) a) ∧
            ((t.graph? seq).bind fun g => g.edges[i]?) = some { e with pending := e.pending ++ [{ rec_ with written := true, owner := none }] })) ∧
  ∀ (s : State) (f : Fields) (n : Fin 256) (c : Ctx), f.d = .v n .id → Runs s (.decode f) f c →
    let off := fun (l : Nat) => match f.a with
      | .s _ => (c.g.scalar .unsigned f.a).toNat % 2 ^ 32
      | _ => ((c.g.word .unsigned f.a 0).at l).toNat
    let lanes := if f.scope = .group then [c.designated] else lanesOf c.act
    let canonical := fun (w : Nat) => if (num32 w).isNan then 0x7FC00000 else w
    let gives := fun (t : State) (j : Nat) (x : Nat → Nat) => ∀ l, l < 32 →
      ((t.groupOf c).vreg (n.val + j)).at l = if c.puts l then BitVec.ofNat 32 (x (c.from_ l)) else (c.g.vreg (n.val + j)).at l
    (subN f = 2 → ∃ t, exec (.decode f) s = .next t ∧ NextWord s t c c.written ∧ (t.groupOf c).flags = c.g.flags ∧
      let key := fun (l : Nat) => c.g.value .unsigned f.a 2 l
      gives t 0 (fun l => bits (key l) 63 56) ∧ gives t 1 (fun l => bits (key l) 55 32) ∧ gives t 2 fun l => bits (key l) 31 0) ∧
    (subN f ≤ 1 → ∀ rec : Nat → Nat, (∀ l ∈ lanes, c.splat s (off l) = .ok (rec l)) →
      ∃ t, exec (.decode f) s = .next t ∧ NextWord s t c c.written ∧ (t.groupOf c).flags = c.g.flags ∧
        (subN f = 0 → gives t 0 (fun l => canonical (bits (rec l) 31 0)) ∧ gives t 1 (fun l => canonical (bits (rec l) 63 32)) ∧
          (∀ j, j < 5 → gives t (2 + j) fun l => rne32 (wide16 (rec l) (64 + 16 * j))) ∧
          gives t 7 fun l => canonical (bits (rec l) 191 160)) ∧
        (subN f = 1 → gives t 0 (fun l => bits (rec l) 159 144) ∧ gives t 1 fun l => bits (rec l) 223 192)) ∧
    (subN f ≤ 1 → ∀ code : Nat, (∀ l ∈ lanes, c.splat s (off l) = .error code) →
      ∃ info : FaultInfo, info.code = code ∧ info.mask = maskOf (fun l => lanes.contains l) ∧
        exec (.decode f) s = .next ((s.issued c).takeFault c.who.team c.who.group info)) ∧
    ∀ (o : Nat) (ks : List Nat), o % 32 = 0 → (List.range 32).mapM (fun i => sharedKey c.t (onSecond c.t c.g) (o + i)) = some ks →
      c.splat s o = if bits (leNat (s.peek ks)) 255 224 ≠ 0 then .error codeDECODE else .ok (leNat (s.peek ks))

/-! ### Machine events -/

/-- Walks, fills, returns, acknowledgements, holds, wakes, waits and leases end as the spec says. The model's readings: a walk enters the TLB of its die alone (log 58), HBMCE stops at 2^64 - 1 (log 65), FILL_COMPLETE makes both sectors of its line valid or bad (log 49), the oldest access or request returns first (log 3), and the accesses of the matrix engine hold an arrival back (log 19) (spec/02_memory_and_translation.md; spec/03_core_memory_and_engines.md; spec/04_memory_instructions.md; spec/08_matrix_instructions.md; spec/13_execution_and_control.md). -/
def Obligations.MemoryAndWaitEvents : Prop :=
  (∀ (s s1 : State) (die ctx a at_ e shift : Nat) (va : W64) (acc : Access), s.address va = .here a → die < 2 →
    let root := bits (s.ctxEntry ctx) 63 0
    bit root 0 = true → s.readTables ctx a (frameOf root) [39, 30, 21, 16] = (s1, none) → s1.walk ctx a = .leaf at_ e shift →
    (permits e acc = false → exec (.walkComplete die ctx va acc) s = .next s) ∧
    (permits e acc = true → s1.deviceStall true ((List.range 8).map (at_ + ·)) = none → s1.canonical →
      let e' := e ||| 0x20 ||| (if acc = .write ∨ acc = .readWrite then 0x40 else 0)
      ∃ t, exec (.walkComplete die ctx va acc) s = .next t ∧ t.teams = s1.teams ∧ t.cores.map Prod.fst = s1.cores.map Prod.fst ∧
        (t.die die).tlb.head? = some { ctx := ctx, page := a / 2 ^ shift * 2 ^ shift, size := shift, leaf := BitVec.ofNat 64 e' } ∧
        ∀ b, Memory.get t.mem b = afterWrites s1.mem (keyed at_ (leBytes 8 e')) b)) ∧
  (∀ (s : State) (line : Nat) (res : FillResult) (core : Option Nat), line * 128 < hbmEnd → (res = .clean ∨ res = .corrected ∨ core = none) →
    ∃ t, exec (.fillComplete line res core) s = .next t ∧ t.mem = s.mem ∧ t.teams = s.teams ∧
      (∀ k, ∃ l, t.core k = { s.core k with l1 := l }) ∧
      t.l2Line line = { s.l2Line line with valid0 := true, valid1 := true, used := s.tick } ∧
      (∀ k, k < 12 → nth t.sys.hbmce k 0 = if res = .corrected ∧ k = stackOf (line * 128) then min (nth s.sys.hbmce k 0 + 1) (2 ^ 64 - 1)
        else nth s.sys.hbmce k 0) ∧
      (res = .uncorrectable → ∀ sec, sec / 2 = line → ∃ p ∈ t.poison, p.1 = sec) ∧
      (res = .checkMismatch → ∀ sec, sec / 2 = line → sec ∈ t.badCheck)) ∧
  (∀ (s : State) (line k : Nat) (res : FillResult), line * 128 < hbmEnd → (res = .uncorrectable ∨ res = .checkMismatch) →
    (s.contextsOn k = [] → exec (.fillComplete line res (some k)) s = .next (s.resetCore k)) ∧
    ∀ (ctx : Nat) (rest : List Nat), s.contextsOn k = ctx :: rest →
      exec (.fillComplete line res (some k)) s = .next (s.machineCheck k ctx (if res = .uncorrectable then 0x40 else 0x41) (line * 128))) ∧
  (∀ (s : State) (w : Who) (t : Team) (g : Group), s.team? w.team = some t → t.group? w.group = some g → (∃ x ∈ t.groups, x.ended = false) →
    (∀ o, g.outstanding.find? (fun o => o.split == w.split) = some o →
      ∃ u h, exec (.accessReturn w) s = .next u ∧ u = s.modGroup w.team w.group (fun _ => h) ∧ h.outstanding = g.outstanding.erase o ∧
        ∀ n m x, o.wb.v = [(n, m, x)] → n < 256 → ∀ l, l < 32 →
          (h.vreg n).at l = if o.wb.uniform then nth x 0 0 else if m.getLsbD l then nth x l 0 else (g.vreg n).at l) ∧
    -- the second pieces of the group's misaligned stores come first, and wait where they must
    (s.pieceStall w.team w.group ≠ none → exec (.storeAck w.team w.group) s = .next s ∧
      ∀ k, exec (.sharedRequestComplete w.team w.group k) s = .next s) ∧
    (s.pieceStall w.team w.group = none → exec (.storeAck w.team w.group) s =
      .next ((s.settlePieces w.team w.group).modGroup w.team w.group fun g => { g with unacked := g.unacked - 1, acking := g.acking.drop 1 })) ∧
    ∀ k c, k < 8 → nth g.counters k none = some c → s.pieceStall w.team w.group = none →
      ∃ u h, exec (.sharedRequestComplete w.team w.group k) s = .next u ∧ u = (s.settlePieces w.team w.group).modGroup w.team w.group (fun _ => h) ∧
        (2 ≤ c.requests.length → h = { g with counters := put g.counters k (some { c with requests := c.requests.drop 1 }) }) ∧
        (c.requests.length ≤ 1 → nth h.counters k none = none ∧
          ∀ n m x, c.out.wb.v = [(n, m, x)] → n < 256 → ∀ l, l < 32 →
            (h.vreg n).at l = if c.out.wb.uniform then nth x 0 0 else if m.getLsbD l then nth x l 0 else (g.vreg n).at l)) ∧
  -- second pieces that nothing holds back are written, oldest store first
  (∀ (s : State) (team group : Nat), s.canonical → s.mire = [] → s.pieceStall team group = none →
    (s.settlePieces team group).secondPieces = s.secondPieces.filter (fun p => !(p.team == team && p.group == group)) ∧
      ∀ a, Memory.get (s.settlePieces team group).mem a =
        afterWrites s.mem ((s.piecesOf team group).flatMap fun p => p.writes.map fun w => (w.1, w.2.2)) a) ∧
  (∀ (s : State) (granule : Nat), s.canonical → (∀ r ∈ s.reservations, r.granule = granule → r.hold = true → r.deadline ≤ s.time) →
    let open_ : State := { s with reservations := s.reservations.map fun r => if r.granule = granule then { r with hold := false } else r }
    ∃ t, exec (.reservationHoldExpiry granule) s = .next t ∧ t.heldBy granule = none ∧ t.teams = s.teams ∧
      (∀ h ∈ s.heldWrites, (∃ x ∈ open_.writesOf h, open_.closedTo x = true) → h ∈ t.heldWrites) ∧
      ((∀ h ∈ s.heldWrites, h.merge = none ∧ ∀ x ∈ h.granules, open_.closedTo x = false) →
        t.heldWrites = [] ∧ (∀ a, Memory.get t.mem a = afterWrites s.mem (s.heldWrites.flatMap (·.bytes)) a) ∧
        -- a fault record counts once its bytes stand
        ∀ ctx, (assoc ctx t.sys.fqcount).getD 0 = s.posted ctx) ∧
      -- the merge of a Mire entry that waited
      ∀ h e evict, s.heldWrites = [h] → s.mire = [e] → h.merge = some (e.line, evict) → (∀ x ∈ e.granules, open_.closedTo x = false) →
        t = ({ open_ with heldWrites := [] } : State).mergeNow e evict) ∧
  (∀ (s : State) (w : Who) (f : Fields) (n : Fin 256) (g : Group) (x : Split) (mask : Mask) (d : Option Nat) (i : Instr) (own : Nat),
    f.d = .v n .id → s.group? w.team w.group = some g → g.split? w.split = some x → x.wait = .mwait f mask d →
    (i, own) ∈ [(Instr.monitorWake w, 4), (.mwaitTimeout w, 2), (.spuriousWake w, 4)] →
    (i = .monitorWake w → s.monitorFired w mask = true) → (i = .mwaitTimeout w → ∃ k, d = some k ∧ k ≤ s.time) →
    let mine := fun (m : Monitor) => m.team == w.team && m.group == w.group
    ∃ t h, exec i s = .next t ∧ t.mem = s.mem ∧ t.monitors = s.monitors.filter (fun m => !(mine m && mask.getLsbD m.lane)) ∧
      t.group? w.team w.group = some h ∧ h.split? w.split = some { x with pc := x.pc + 12, wait := .ready } ∧
      ∀ l, l < 32 → (h.vreg n.val).at l = if mask.getLsbD l then (match s.monitors.find? fun m => mine m && m.lane == l with
        | some m => BitVec.ofNat 32 (m.cause.getD own)
        | none => 5) else (g.vreg n.val).at l) ∧
  (∀ (s : State) (w : Who) (g : Group) (x : Split), s.group? w.team w.group = some g → g.split? w.split = some x → 64 ≤ x.fairness →
    siblingReady s.readySplits w = true → exec (.fairnessLimit w) s = .next (s.modSplit w fun x => { x with burst := 4 })) ∧
  (∀ (s : State) (w : Who) (t : Team) (g : Group) (x : Split), s.team? w.team = some t → t.group? w.group = some g →
    g.halted = false → t.preempt = false → g.split? w.split = some x →
    (∀ n m, x.wait = .waitb n m → (∀ e ∈ g.engineFaults, batchReached g.openBatch n e.batch = false) →
      exec (.waitReturn w) s = .next (if s.batchDone w.team w.group g.openBatch n then s.advance w else s)) ∧
    (∀ n m e rest, x.wait = .waitb n m → s.batchDone w.team w.group g.openBatch n = true →
      g.engineFaults.filter (fun e => batchReached g.openBatch n e.batch) = e :: rest →
      let info : FaultInfo :=
        { code := e.code, split := w.split, scope := e.scope, mask := m, pc := e.pc, addr := e.addr, aux := e.aux, trapNo := 0,
          laneAddr := Vector.replicate 32 0, resume := e.pc }
      exec (.waitReturn w) s = .next (if 0x40 ≤ e.code ∧ e.code ≤ 0x42 then s.machineCheck g.core t.ctx e.code e.addr
        else ((s.modGroup w.team w.group fun g => { g with engineFaults := g.engineFaults.filter fun y => y != e }).modSplit w
          fun y => { y with wait := .ready }).takeFault w.team w.group info)) ∧
    (∀ b p, x.wait = .waitbar b p →
      exec (.waitReturn w) s = .next (if phaseOver (t.barrier b) p then s.advance w else s) ∧
      (phaseOver (t.barrier b) p = false ↔ ((t.barrier b).phase + 65536 - p % 65536) % 65536 = 0)) ∧
    (∀ f b p, x.wait = .arrive (.arrive f) b p →
      let y := t.barrier b
      -- an early arrival waits until the phase has completed, and then arrives in the new one or waits in it
      (y.phase = p ∨ s.matrixOwes w.team w.group = true → exec (.waitReturn w) s = .next s) ∧
      (y.phase ≠ p → s.matrixOwes w.team w.group = false → exec (.waitReturn w) s = .next
        (if hasGroup y.part w.group && hasGroup y.arrd w.group then s.modSplit w fun x => { x with wait := .arrive (.arrive f) b y.phase }
        else s.arriveOn w f b y.phase))) ∧
    ∀ f, x.wait = .evwait (.evwait f) → f.scope ≠ .team →
      exec (.waitReturn w) s = .next (if 0 < t.ringCount then s.popInto w f else s)) ∧
  (∀ (s : State) (w : Who) (t : Team), s.team? w.team = some t →
    (t.preempt = true → exec (.rendezvousComplete w) s = .next s) ∧
    (t.preempt = false → scopeMismatch t ≠ [] → exec (.rendezvousComplete w) s = .next (s.raiseScopeMismatch w.team (scopeMismatch t))) ∧
    ∀ i p, t.preempt = false → scopeMismatch t = [] → s.party? w.team w.group = some (i, p) →
      exec (.rendezvousComplete w) s = partyBody i p s ∧
      ∀ f, i = .sync f → p.idle = false → (∀ x ∈ p.ctxs, x.broken = false) →
        exec (.rendezvousComplete w) s = .next ((s.issuedParty p).passParty p)) ∧
  ∀ (s : State) (core h : Nat) (t : Team), s.team? h = some t →
    let c := s.core core
    let set := fun (l : Lease) => Host.Outcome.next (s.setCore core { c with lease := l })
    (c.lease.holder = some h → c.lease.left ≠ 0 → exec (.leaseExhausted core) s = .next s) ∧
    (c.lease.holder = some h → c.lease.left = 0 → c.lease.waiting = [] →
      exec (.leaseExhausted core) s = set { c.lease with left := t.launch.lease, grace := none }) ∧
    (c.lease.holder = some h → c.lease.left = 0 → c.lease.waiting ≠ [] → c.lease.grace = none →
      exec (.leaseExhausted core) s = set { c.lease with grace := some 0 }) ∧
    (c.lease.holder = some h → c.lease.left = 0 → c.lease.grace ≠ none → c.lease.waiting ≠ [] →
      exec (.leaseExhausted core) s = .next s) ∧
    (c.lease.waiting = [] → exec (.leasePass core) s = .next s) ∧
    ∀ rest, c.lease.waiting = h :: rest → (c.lease.holder = none ∨ c.lease.grace ≠ none) →
      (∀ m ∈ c.matrix, some m.team = c.lease.holder → leaseCost m.i = none) →
      ((∀ x, c.lease.holder = some x → ∀ y, s.team? x = some y → s.holdsLease core y = false) ∨ s.arrayWaiting core c.lease.holder = false) →
      exec (.leasePass core) s = set { holder := some h, left := t.launch.lease, grace := none, waiting := rest }

/-- Engine commands start, move, decompress, sort, combine and launch, and their events reach the ring. The model's readings: a command waits for the accesses of the matrix engine for its group (log 19), the die whose walker carries a command (log 40), what a collective sends and its end on acknowledgement (log 61) (spec/02_memory_and_translation.md; spec/03_core_memory_and_engines.md; spec/10_splat_pipeline.md; spec/11_memory_model.md; spec/12_links_and_host.md; spec/14_scheduling.md). -/
def Obligations.EngineEvents : Prop :=
  let lives := fun (s : State) (c : Command) => ∀ team g t, c.owner = some (team, g) → s.team? team = some t → ∃ x ∈ t.groups, x.ended = false
  let post := fun (c : Command) (status aux0 aux1 : Nat) => match c.owner with
    | some (team, _) => [({ team := team, eng := c.eng, status := status, tag := c.tag, batch := c.batch, aux0 := BitVec.ofNat 64 aux0,
                            aux1 := BitVec.ofNat 64 aux1 } : Post)]
    | none => []
  let finished := fun (s t : State) (c : Command) (status aux0 aux1 : Nat) =>
    t.commands = s.commands.filter (fun x => x.id != c.id) ∧ t.posts = s.posts ++ post c status aux0 aux1
  let quiet := fun (s : State) => s.mire = [] ∧ (∀ r ∈ s.reservations, r.hold = false) ∧ s.canonical
  (∀ (s : State) (id : Nat) (c : Command), s.command? id = some c → c.phase = .queued → c.saved = false → c.xlate = none → s.atHead c = true →
    s.postWaits c = false → lives s c →
    let s1 := s.modCommand id fun x => { x with guard := none }
    let lines := s1.startLines c
    (s.guardSeen c = .unresolved → exec (.engineCommandStart id) s = .next s) ∧
    (s.guardSeen c = .isFalse → ∃ t, exec (.engineCommandStart id) s = .next t ∧ t.mem = s.mem ∧ finished s t c 1 0 0) ∧
    (s.guardSeen c = .isTrue → (s1.engineFree c && s1.ownerQuiet c) = false → exec (.engineCommandStart id) s = .next s1) ∧
    (s.guardSeen c = .isTrue → s1.engineFree c = true → s1.ownerQuiet c = true →
      (∀ code addr, s1.startCheck c = some (code, addr) → exec (.engineCommandStart id) s = .next (s1.failCommand c code addr 0)) ∧
      (s1.startCheck c = none → c.eng ≠ 5 → s1.linesTaken id lines = true → exec (.engineCommandStart id) s = .next s1) ∧
      (s1.startCheck c = none → c.eng ≠ 5 → s1.linesTaken id lines = false → s.mire = [] →
        ∃ t, exec (.engineCommandStart id) s = .next t ∧ t.mem = s.mem ∧ t.posts = s.posts ∧ (∀ n, n ≠ id → t.command? n = s.command? n) ∧
          t.command? id = some { c with guard := none, phase := .started, owned := dedup (c.owned ++ lines) }) ∧
      ∀ s2 l, c.eng = 5 → s1.launchRead c.ctx (c.arg 0) = (s2, .ok (some l)) → c.argN 1 % 16 = 0 →
        ∃ t, exec (.engineCommandStart id) s = .next t ∧ t.command? id = some { c with guard := none, phase := .started } ∧
          t.grids = s2.grids ++ [{ id := s2.nextGrid, seq := s2.commandSeq c, origin := .launchq id, ctx := c.ctx,
                                   launch := if c.argN 1 = 0 then l else { l with param := c.argN 1 }, next := 0,
                                   total := l.gx * l.gy * l.gz, handed := [], ended := 0, faults := 0 }])) ∧
  (∀ (s : State) (id : Nat) (c : Command), s.command? id = some c → c.phase = .started → c.saved = false → c.xlate = none →
    let lines := s.nextLines c (c.window + 1)
    let c' := { c with owned := dedup (c.owned ++ lines), window := c.window + 1 }
    let s1 := (s.own id lines).modCommand id fun x => { x with window := x.window + 1 }
    (c.window + 1 < s.windowsOf c → s.linesTaken id lines = true → exec (.ownershipWindow id) s = .next s) ∧
    (c.window + 1 < s.windowsOf c → s.linesTaken id lines = false → s.mergeCheck lines = none → s1.command? id = some c' ∧
      exec (.ownershipWindow id) s = .next (if c.eng ≤ 1 then s1.moveWindow c' c.window else s1)) ∧
    ∀ m : Moving, c.eng ≤ 1 → s.windowsOf c ≤ c.window + 1 → s.linesTaken id (s.moveLines c) = false → s.mergeCheck (s.moveLines c) = none →
      (s.own id (s.moveLines c)).moveRest { c with owned := dedup (c.owned ++ s.moveLines c) } (fun _ _ => false) = m →
      (m.stop = none → m.s.flitsOut m.c.id = false → lives m.s m.c →
        ∃ t, exec (.engineCommandComplete id) s = .next t ∧ t.mem = m.s.mem ∧ finished m.s t m.c 0 m.c.written 0) ∧
      (m.stop = none → m.s.flitsOut m.c.id = true →
        exec (.engineCommandComplete id) s = .next (m.s.modCommand m.c.id fun _ => m.c)) ∧
      (∀ code key, m.stop = some (.check code key) → exec (.engineCommandComplete id) s = .next (m.s.checkCommand m.c code key 0)) ∧
      ∀ code addr, m.stop = some (.fault code addr) → exec (.engineCommandComplete id) s = .next (m.s.failCommand m.c code addr 0)) ∧
  -- the fault of a command stands among its group's in order of issue, until a WAITB raises it
  (∀ (s : State) (c : Command) (code addr high team n : Nat) (t : Team) (g : Group), c.owner = some (team, n) → s.team? team = some t →
    t.group? n = some g → g.ended = false →
    let e : EngineFault := { batch := c.batch, order := c.id, code := code, pc := c.pc, addr := addr, aux := code + high * 256, scope := 1 }
    let u := s.failCommand c code addr high
    finished s u c 2 addr (code + high * 256) ∧ ∃ x, u.group? team n = some x ∧ ({ x with engineFaults := g.engineFaults } : Group) = g ∧
      x.engineFaults.Perm (e :: g.engineFaults) ∧
      (g.engineFaults.Pairwise (fun a b => a.order ≤ b.order) → x.engineFaults.Pairwise fun a b => a.order ≤ b.order)) ∧
  (∀ (s s1 s2 : State) (c : Command) (r : Haul) (d a : List Spot), s.endAt c r.dst r.n .write = (s1, .ok (.here d)) →
    s1.endAt c r.src r.n .read = (s2, .ok (.here a)) → s2.ownedByOther c.id (keysOf d ++ keysOf a) = false → quiet s2 →
    s2.heldWrites = [] → s2.readCheck a = none → (s2.beforeRead c.ctx (s2.commandCore c) false a).writeCheck d = none →
    (∀ p ∈ a, p.window = none) → c.ahead = [] → c.back = [] →
    (∀ o, r.dst = .shared o → ∀ p ∈ d, (s2.beforeRead c.ctx (s2.commandCore c) false a).badSector (sectorOf p.key) = false) →
    -- of a shared destination the bytes of the last word are held back until the word is whole (R74)
    let held := match r.dst with
      | .shared o => min r.n ((o + r.n) % 4)
      | _ => 0
    let bytes := s2.peek (keysOf a)
    ∃ t back, s.moveRun c r = (t, .ok back) ∧ back = (keyed r.dst.addr bytes).drop (r.n - held) ∧
      ∀ b, Memory.get t.mem b = afterWrites s2.mem (((keysOf d).zip bytes).take (r.n - held)) b) ∧
  (∀ (s : State) (team : Nat) (t : Team) (p : Post), s.posts.find? (fun p => p.team == team) = some p → s.team? team = some t →
    (∃ x ∈ t.groups, x.ended = false) → s.canonical →
    (64 ≤ t.ringCount → exec (.eventPost team) s = .next s) ∧
    (t.ringCount < 64 → ∃ u, exec (.eventPost team) s = .next u ∧ u.posts = dropPost team s.posts ∧ u.commands = s.commands ∧
      u.team? team = some { t with ringCount := t.ringCount + 1 } ∧
      ∀ a, Memory.get u.mem a = afterWrites s.mem (keyed (t.ringKey (t.ringHead + t.ringCount))
        (leBytes 8 s.time ++ leBytes 4 p.tag.toNat ++ leBytes 1 p.eng ++ leBytes 1 p.status ++ leBytes 2 p.batch ++ leBytes 8 p.aux0.toNat ++
          leBytes 8 p.aux1.toNat)) a)) ∧
  (∀ (s s1 : State) (id n : Nat) (c : Command) (h : BlockHeader) (out : List Byte), s.command? id = some c → c.eng = 2 → c.phase = .started →
    c.saved = false → c.polling = false → c.xlate = none → c.buf = [] →
    s.readBlock c (c.arg 0 + BitVec.ofNat 64 c.pos) = (s1, .ok (some (h, out, n))) → s1.command? id = some c → lives s1 c → quiet s1 →
    s1.sharedOk c (c.argN 1) (c.argN 2) = true → 0 < c.argN 2 →
    let room := c.argN 2 - s1.dxRoom c
    -- a command that was saved inside the block has written its first bytes before
    let rest := out.drop c.skip
    let start := c.written - c.skip
    let k := min room rest.length
    let keys := (List.range k).filterMap fun i => s1.commandShared c (c.argN 1 + (c.written + i) % c.argN 2)
    let good := crc32c out = h.check
    (c.argN 2 < s1.dxRoom c → ∃ t, exec (.dxqBlock id) s = .next t ∧ finished s1 t c 2 c.written (codeDXFORMAT + c.block * 256)) ∧
    (s1.dxRoom c ≤ c.argN 2 → ∃ t, exec (.dxqBlock id) s = .next t ∧
      ((good ∨ room < rest.length → ∀ a, Memory.get t.mem a = afterWrites s1.mem (keys.zip (rest.take k)) a) ∧
      (room < rest.length → t.posts = s1.posts ∧ t.command? id = some { c with
        pos := c.pos + n, next := c.pos, buf := rest.drop k, step := start, skip := 0, last := h.last, passes := if good then 0 else 1,
        written := c.written + k, polling := true }) ∧
      (rest.length ≤ room → ¬ good → finished s1 t c 2 start (codeDXCHECK + c.block * 256)) ∧
      (rest.length ≤ room → good → h.last = true → finished s1 t c 0 (c.written + k) (c.block * 256)) ∧
      (rest.length ≤ room → good → h.last = false → t.posts = s1.posts ++ post c 0 (c.written + k) (c.block * 256) ∧
        t.command? id = some { c with
          pos := c.pos + n, next := c.pos, buf := [], step := start, skip := 0, last := false, passes := 0, written := c.written + k,
          polling := false, block := c.block + 1 })))) ∧
  (∀ (s : State) (id : Nat) (c : Command), s.command? id = some c → c.eng = 2 → c.phase = .started → c.saved = false → c.polling = true → lives s c →
    (s.dxRoom c < c.argN 2 → exec (.dxqReleasePoll id) s = .next (s.modCommand id fun x => { x with polling := false })) ∧
    (s.dxRoom c = c.argN 2 → exec (.dxqReleasePoll id) s = .next s) ∧
    (c.argN 2 < s.dxRoom c → ∃ t, exec (.dxqReleasePoll id) s = .next t ∧ finished s t c 2 c.written (codeDXFORMAT + c.block * 256))) ∧
  (∀ (s s1 s2 : State) (id : Nat) (c : Command) (l : List (Nat × Nat)), s.command? id = some c → c.eng = 3 → c.phase = .started →
    c.saved = false → c.xlate = none → c.sortWindows ≤ c.window + 1 → c.count ≠ 0 →
    s.linesTaken id (s.sortLines c) = false → s.mergeCheck (s.sortLines c) = none →
    let s0 := s.own id (s.sortLines c)
    let mine := dedup (c.owned ++ s.sortLines c)
    let c0 := { c with owned := mine }
    (c.last = false → c.node = none → s0.sortRead c false = (s1, .ok l) → s1.command? id = some c0 → lives s1 c →
      ∃ t, exec (.sortStep id) s = .next t ∧ match c.badKey l with
        | some i => finished s1 t c 2 i (codeSORTBAD + 0x10 * 256)
        | none => t.mem = s1.mem ∧ t.posts = s1.posts ++ post c 0 0 (0x10 * 256) ∧
          t.command? id = some { c with owned := mine, last := true, step := c.dlo, block := 0x10 }) ∧
    (c.last = true → s0.sortRead c (c.passes % 2 == 1) = (s1, .ok l) →
      let next := (List.range 8).find? fun d => decide (c.step ≤ d) && decide (d ≤ c.dhi) && !oneBin d (l.map Prod.fst)
      (∀ d, next = some d → s1.sortWrite c (c.passes % 2 != 1) (digitPass d l) = (s2, none) → s2.command? id = some c0 →
        ∃ t, exec (.sortStep id) s = .next t ∧ t.mem = s2.mem ∧ t.posts = s2.posts ++ post c 0 (12 * c.count) (d * 256) ∧
          t.command? id = some { c with owned := mine, passes := c.passes + 1, step := d + 1, block := d, written := c.written + 12 * c.count }) ∧
      (next = none → c.passes % 2 = 1 → s1.sortWrite c false l = (s2, none) → s2.command? id = some c0 →
        ∃ t, exec (.sortStep id) s = .next t ∧ t.mem = s2.mem ∧ t.posts = s2.posts ++ post c 0 (12 * c.count) (0x20 * 256) ∧
          t.command? id = some { c with owned := mine, passes := c.passes + 1, step := 8, block := 0x20, written := c.written + 12 * c.count }) ∧
      (∀ (s3 : State) (kb : List Byte), next = none → c.passes % 2 = 0 → c.argN 4 ≠ 0 → s1.readAt c c.keysAt (8 * c.count) = (s2, .ok kb) →
        s2.writeAt c c.tableAt (c.rangeTable (wordsIn8 c.count kb)) = (s3, none) → lives s3 c →
        ∃ t, exec (.sortStep id) s = .next t ∧ t.mem = s3.mem ∧ finished s3 t c 0 (8 * c.entries) (0x30 * 256)) ∧
      (next = none → c.passes % 2 = 0 → c.argN 4 = 0 → lives s1 c →
        ∃ t, exec (.sortStep id) s = .next t ∧ t.mem = s1.mem ∧ finished s1 t c 0 0 (0x30 * 256)))) ∧
  (∀ (d : Nat) (l : List (Nat × Nat)), (digitPass d l).Perm l ∧ (digitPass d l).Pairwise (fun x y => digit d x.1 ≤ digit d y.1) ∧
    ∀ b, (digitPass d l).filter (fun x => digit d x.1 == b) = l.filter fun x => digit d x.1 == b) ∧
  (∀ (s s1 : State) (id : Nat) (peers : List (Nat × PeerPart)) (c : Command), s.command? id = some c → c.eng = 4 → c.phase = .started →
    c.xlate = none → c.last = true →
    (s.sendOut id c.outbox = (s1, none) → exec (.collectiveComplete id peers) s = .next (s1.failCommand c codeLINKLOST 0 0)) ∧
    ∀ rest, s.sendOut id c.outbox = (s1, some rest) →
      (rest = [] → s1.flitsOut id = false → lives s1 c →
        ∃ t, exec (.collectiveComplete id peers) s = .next t ∧ t.mem = s1.mem ∧ finished s1 t c 0 c.written 0) ∧
      ((rest ≠ [] ∨ s1.flitsOut id = true) →
        exec (.collectiveComplete id peers) s = .next (s1.modCommand id fun x => { x with outbox := rest }))) ∧
  (∀ (s s1 s2 s3 : State) (id : Nat) (peers : List (Nat × PeerPart)) (c : Command) (bs : List Byte), s.command? id = some c → c.eng = 4 →
    c.phase = .started → c.xlate = none → c.last = false → s.firstOfGroup c = true → windowCount (s.collRegions c) ≤ c.window + 1 →
    let g := s.collGroup c.collGrp
    let ps := peers.filter fun p => p.1 != g.rank && p.1 < g.members
    c.collOk g = true →
    (allPeers g peers = false → exec (.collectiveComplete id peers) s = .next s) ∧
    (allPeers g peers = true → (∃ p ∈ ps, c.agrees p.2 = false) → exec (.collectiveComplete id peers) s = .next (s.failCommand c codeADDRBAD 0 0)) ∧
    (allPeers g peers = true → (∀ p ∈ ps, c.agrees p.2 = true) → s.linesTaken id (s.collLines c) = false → s.mergeCheck (s.collLines c) = none →
      let s0 := s.own id (s.collLines c)
      (c.form = 3 → exec (.collectiveComplete id peers) s = .next (s0.collCompose c g ps)) ∧
      ∀ ms : List Outgoing, c.form ≠ 3 → c.collEF = false → s0.readAt c (c.arg 0) (c.argN 2 * collBytes c.collType) = (s1, .ok bs) →
        let out := collResult c g (byRank g (elements c.collType bs) c.collType ps)
        let up := if g.rank = 0 then [] else [(parentOf g.rank, flitFormat c.collType, bs)]
        let down := if c.form = 1 then [] else (childrenOf g.members g.rank).map fun r => (r, flitFormat c.collType, out)
        s1.addressed c g (up ++ down) = (s2, .ok ms) → s2.writeAt c (c.arg 1) out = (s3, none) →
        exec (.collectiveComplete id peers) s = .next (s3.endCollective c out.length ms))) ∧
  ∀ (s : State) (id : Nat) (c : Command) (g : Grid), s.command? id = some c → c.id = id →
    s.grids.find? (fun g => g.origin == .launchq id) = some g → lives s c →
    (g.ended ≠ g.total → exec (.launchqComplete id) s = .next s) ∧
    (g.ended = g.total → ∃ t, exec (.launchqComplete id) s = .next t ∧ t.mem = s.mem ∧ t.grids = s.grids.filter (fun x => x.id != g.id) ∧
      finished s t c 0 g.total (g.faults * 256))

/-- Doorbells, slots, commands, teams, bindings and pre-emption (spec/14_scheduling.md; spec/15_traps_and_reliability.md;
spec/03_core_memory_and_engines.md; spec/05_registers.md). The model's own: the tag bit before the consumed word and the refusals of
control blocks (log 41), COLL as `.ALLRED` (log 26), and a prologue or an engine's wait that holds pre-emption back (log 40). -/
def Obligations.SchedulerEvents : Prop :=
  let quiet := fun (s : State) => s.mire = [] ∧ (∀ r ∈ s.reservations, r.hold = false) ∧ s.canonical
  (∀ (s s1 : State) (q : Nat) (bs : List Byte), q ∈ s.bells → (s.queue q).xlate = none → s.tablesBusy q s.nextSeq = false →
    let e := s.queueEntry q
    let wr := leNat bs
    let rd := entryRDPTR e
    s.deviceLoad (entryCTX e) (BitVec.ofNat 64 (entryDBADDR e)) 8 = (s1, .ok bs) →
    let s2 : State := { s1 with bells := s1.bells.filter (· != q) }
    (wr < rd ∨ 2 ^ entryLOG2N e < wr - rd → exec (.doorbell q) s = .next (s2.overrun q 7)) ∧
    (rd ≤ wr → wr - rd ≤ 2 ^ entryLOG2N e → ∃ t, exec (.doorbell q) s = .next t ∧ t = s2.setQueue q (t.queue q) ∧ (t.queue q).wrptr = wr ∧
      (t.queue q).since = if s2.runnable q then (s1.queue q).since else s1.time)) ∧
  (∀ (s : State),
    let idle := s.slotList.find? fun x => !x.2.displacing && !s.runnable x.2.queue
    let free := (List.range 64).find? fun k => (nth s.slots k none).isNone
    (∀ k x, idle = some (k, x) → ∃ t, exec .slotAssign s = .next t ∧ t = { s with slots := t.slots } ∧ nth t.slots k none = none ∧
      ∀ n, n ≠ k → nth t.slots n none = nth s.slots n none) ∧
    (∀ q rest k, idle = none → s.waitingQueues = q :: rest → free = some k → ∃ t, exec .slotAssign s = .next t ∧
      t = { s with slots := t.slots, commands := t.commands } ∧
      nth t.slots k none = some { queue := q, since := s.time, displacing := false, refused := none } ∧
      ∀ n, n ≠ k → nth t.slots n none = nth s.slots n none) ∧
    (∀ q k x, idle = none → free = none → s.nextWaiting = some q → s.lowestHolder = some (k, x) →
      entryPRIO (s.queueEntry x.queue) < entryPRIO (s.queueEntry q) → s.mayDisplace x = true →
      exec .slotAssign s = .next (s.displace k x)) ∧
    ∀ k x q, nth s.slots k none = some x → s.mayDisplace x = true → s.slotList.length = 64 → s.nextWaiting = some q →
      entryPRIO (s.queueEntry x.queue) ≤ entryPRIO (s.queueEntry q) →
      exec (.sliceExpiry k) s = .next (if x.since + entrySLICE (s.queueEntry x.queue) * 1000 ≤ s.time then s.displace k x else s)) ∧
  (∀ (s s1 : State) (q : Nat) (bs : List Byte), (s.queue q).xlate = none → (s.queue q).owes = 0 → s.mayTake q = true →
    s.tablesBusy q s.nextSeq = false →
    let e := s.queueEntry q
    let rd := entryRDPTR e
    s.deviceLoad (entryCTX e) (BitVec.ofNat 64 (entryRING e + 64 * (rd % 2 ^ entryLOG2N e))) 64 = (s1, .ok bs) →
    ∃ t, exec (.commandTake q) s = .next t ∧ t.teams = s1.teams ∧ t.jobs = s1.jobs ++ [{
      seq := s1.nextSeq, queue := q, ctx := entryCTX (s1.queueEntry q), kind := fieldAt bs 0 1, ridx := rd, tag := fieldAt bs 12 2,
      arg := longAt bs 16, sigaddr := fieldAt bs 56 8, sigval := longAt bs 48, accept := s1.time, start := 0, started := false,
      ended := badRecord bs, faulted := false, status := if badRecord bs then 1 else 0, written := 0 }]) ∧
  (∀ (s s1 : State) (seq : Nat) (j : Job), s.starting 1 seq = some j → (∀ g ∈ s.grids, g.origin ≠ .command seq) →
    (∀ l, s.launchRead j.ctx j.arg = (s1, .ok (some l)) → ∃ t, exec (.cmdLaunch seq) s = .next t ∧
      t = { s1 with grids := t.grids, nextGrid := s1.nextGrid + 1 } ∧
      t.grids = s1.grids ++ [{ id := s1.nextGrid, seq := seq, origin := .command seq, ctx := j.ctx, launch := l, next := 0,
                               total := l.gx * l.gy * l.gz, handed := [], ended := 0, faults := 0 }]) ∧
    (s.launchRead j.ctx j.arg = (s1, .ok none) → exec (.cmdLaunch seq) s = .next (s1.endJob seq 2)) ∧
    (∀ code key, s.launchRead j.ctx j.arg = (s1, .error (.check code key)) → exec (.cmdLaunch seq) s = .next (s1.endJob seq 1)) ∧
    ∀ code aux, s.launchRead j.ctx j.arg = (s1, .error (.prog code aux)) → exec (.cmdLaunch seq) s = .next (s1.endJob seq 1)) ∧
  (∀ (s s1 : State) (seq n m eng form kind : Nat) (i : Instr) (j : Job) (ws : List W64),
    (i, kind, eng, form, n, m) ∈ [(Instr.cmdCopy seq, 3, 0, 2, 4, 3), (.cmdSort seq, 4, 3, 0, 6, 6), (.cmdColl seq, 5, 4, 0, 6, 5)] →
    s.starting kind seq = some j → s.controlBlock j n = .ok (s1, ws) → s1.job? seq = some j →
    let place := if eng = 0 then s1.walkerTile (s1.dieHolding j.ctx (ws.getD 0 0))
      else s1.dieHolding j.ctx (ws.getD (if eng = 4 then 1 else 0) 0)
    let reserved := (kind = 3 ∧ ws.getD 3 0 ≠ 0) ∨
      (kind = 4 ∧ (bits (ws.getD 3 0).toNat 63 32 ≠ 0 ∨ bits (ws.getD 5 0).toNat 31 6 ≠ 0)) ∨
      (kind = 5 ∧ (ws.getD 5 0 ≠ 0 ∨ bits (ws.getD 2 0).toNat 63 32 ≠ 0 ∨ collWordOk (ws.getD 3 0).toNat = false))
    (reserved → exec i s = .next (s1.endJob seq 1)) ∧
    (¬ reserved → engineRoom eng ≤ s1.queuedAt eng place → exec i s = .next s1) ∧
    (¬ reserved → s1.queuedAt eng place < engineRoom eng → ∃ t, exec i s = .next t ∧ t.teams = s1.teams ∧
      t.commands = s1.commands ++ [j.command s1.nextCommand eng place form (ws.take m)] ∧
      t.job? seq = some { j with started := true, start := s1.time })) ∧
  (∀ (s s1 : State) (seq kind : Nat) (i : Instr) (j : Job) (bs : List Byte), s.starting kind seq = some j → s1.job? seq = some j →
    (i, kind) ∈ [(Instr.cmdWaitev seq, 6), (.cmdSignal seq, 7), (.cmdFence seq, 8)] →
    let w := j.arg.toNat % 65536
    (kind = 6 → s.deviceLoad j.ctx (BitVec.ofNat 64 (bits (s.ctxEntry j.ctx) 255 192 + w / 8)) 1 = (s1, .ok bs)) → (kind ≠ 6 → s1 = s) →
    let holds := if kind = 6 then (leNat bs).testBit (w % 8) = true else ∀ x ∈ s.jobs, x.queue = j.queue → j.seq ≤ x.seq
    (¬ holds → exec i s = .next s) ∧
    (holds → ∃ t, exec i s = .next t ∧ t.teams = s1.teams ∧
      t.job? seq = some { j with started := true, start := s1.time, ended := true, status := 0 })) ∧
  (∀ (s : State) (seq : Nat) (j : Job), s.job? seq = some j → (s.queue j.queue).xlate = none → (s.queue j.queue).owes = 0 →
    s.tableBusy (s.journalKey seq) 64 = false →
    (j.ended = false → s.workDone j = false → exec (.commandComplete seq) s = .next s) ∧
    (j.ended = false → s.workDone j = true → ∃ k, exec (.commandComplete seq) s = .next ((s.endWork j).completeWrites k) ∧ k.ended = true ∧
      k.seq = seq ∧ k.status = if j.faulted = true ∨ ∃ g, s.graph? seq = some g ∧ ∃ n ∈ g.nodes, n.failed = true then 4 else 0) ∧
    (j.ended = true → j.tag = 0 → j.sigaddr = 0 → j.written = 0 → quiet s → ∃ t, exec (.commandComplete seq) s = .next t ∧
      t.jobs = s.jobs.filter (fun x => x.seq != seq) ∧
      let key := s.sys.jbase.toNat % 2 ^ 40 + 64 * (seq % 2 ^ 20)
      ∀ a, Memory.get t.mem a = afterWrites s.mem (keyed (key + 12) (leBytes 1 j.status) ++ keyed (key + 56) (leBytes 8 s.time)) a)) ∧
  (∀ (s : State) (grid k : Nat) (g : Grid) (x : Seat), s.grids.find? (fun g => g.id == grid) = some g →
    (s.placePick ≠ some grid → exec (.teamPlace grid) s = .next s) ∧
    (s.placePick = some grid → s.seatFor g = some (x, k) → ∃ t u, exec (.teamPlace grid) s = .next t ∧ t.teams = s.teams ++ [u] ∧
      t.nextTeam = s.nextTeam + 1 ∧ u.id = s.nextTeam ∧ u.grid = grid ∧ u.seq = g.seq ∧ u.ctx = g.ctx ∧ u.lin = g.next ∧ u.core = x.core ∧
      u.x = g.next % g.launch.gx ∧ u.y = g.next / g.launch.gx % g.launch.gy ∧ u.z = g.next / (g.launch.gx * g.launch.gy) ∧ u.localSlot = k ∧
      (∃ y ∈ t.grids, y = { g with next := g.next + 1 }) ∧ u.groups.length = g.launch.total ∧
      ∀ n, n < g.launch.total → ∃ h, u.group? n = some h ∧ h.ended = false ∧ h.exited = 0 ∧
        h.split? 0 = some (handlerSplit (g.launch.code + g.launch.entry) allLanes) ∧ (∀ p, 1 ≤ p → h.split? p = none) ∧
        (∀ r l, r < 256 → l < 32 → (h.vreg r).at l = 0) ∧ (∀ r, r < 64 → h.sreg r = 0) ∧ ∀ r, r < 7 → h.pred r = 0)) ∧
  (∀ (s s1 : State) (team k n : Nat) (t : Team), s.team? team = some t → t.prologue = some k → t.xlate = none →
    (s.teams.find? fun x => x.core == t.core && x.prologue.isSome).map (·.id) = some team →
    let b := (t.launch.binds.getD k 0).toNat
    let after := if k = 8 then some 0 else if k = 7 then none else some (k + 1)
    let goOn := fun (s : State) => s.modTeam team fun t => { t with prologue := after }
    (k ≠ 8 → bindKind b = 0 → exec (.prologueBinding team) s = .next (goOn s)) ∧
    (k ≠ 8 → bindKind b ≠ 0 → s.runBinding t b = (s1, n, none) → exec (.prologueBinding team) s = .next (goOn s1)) ∧
    (k = 8 → s.placeRecords t = (s1, none) → exec (.prologueBinding team) s = .next (goOn s1)) ∧
    (k ≠ 8 → bindKind b ≠ 0 → s.runBinding t b = (s1, n, some .wait) → exec (.prologueBinding team) s = .next s) ∧
    (∀ code key, k ≠ 8 → bindKind b ≠ 0 → s.runBinding t b = (s1, n, some (.check code key)) →
      exec (.prologueBinding team) s = .next (s1.machineCheck t.core t.ctx code key)) ∧
    ∀ code addr, k ≠ 8 → bindKind b ≠ 0 → s.runBinding t b = (s1, n, some (.fault code addr)) →
      exec (.prologueBinding team) s = .next (s1.failTeam t code (if code = codeDXFORMAT ∨ code = codeDXCHECK then 0 else addr) addr
        (code + n * 256))) ∧
  (∀ (s : State) (t : Team) (code addr p aux : Nat), s.canonical → t.ringCount < 64 → s.posts.find? (fun x => x.team == t.id) = none →
    s.team? t.id = some t →
    let x : Post := { team := t.id, eng := 6, status := 2, tag := 0, batch := 0, aux0 := BitVec.ofNat 64 p, aux1 := BitVec.ofNat 64 aux }
    ∃ u : State, u.team? t.id = some { t with ringCount := t.ringCount + 1 } ∧ u.posts = s.posts ∧
      (∀ a, Memory.get u.mem a = afterWrites s.mem (keyed (t.ringKey (t.ringHead + t.ringCount)) (x.record s.time)) a) ∧
      s.failTeam t code addr p aux = (t.groups.filter fun g => !g.ended).foldl
        (fun s g => s.endGroup t.id g.index (some (exitWord code 0xFF 0xFFFF)))
        (u.post t.ctx { exst := exitWord code 0xFF 0xFFFF, cseq := t.seq, aux := aux, addr := addr, core := t.core, team := t.lin,
                        cls := classOf code, code := code })) ∧
  (∀ (s : State) (team : Nat) (t : Team), s.team? team = some t →
    ((t.preempt && s.canSave t) = false → exec (.preemptionSave team) s = .next s) ∧
    (t.preempt = true → s.canSave t = true →
      (∀ s1, (s.settleTeam team).saveTeam team = some s1 → ∃ u, exec (.preemptionSave team) s = .next u ∧ u.teams = s1.teams ∧
        u.saved = s1.saved ∧ u.team? team = none) ∧
      ((s.settleTeam team).saveTeam team = none → exec (.preemptionSave team) s = .next (s.callOff team)))) ∧
  ∀ (s s1 : State) (area : Nat) (x : SavedTeam) (bs : List Byte), s.saved.find? (fun x => x.area == area) = some x →
    s.jobRuns x.seq = true →
    (s.areaRead x = none → exec (.teamResume area) s = .next (s.endSaved x)) ∧
    (s.areaRead x = some bs → x.team.groups ≠ [] → x.team.readArea bs = none → exec (.teamResume area) s = .next (s.endSaved x)) ∧
    ∀ (r : Resumed) (t' : Team), s.areaRead x = some bs → x.team.groups ≠ [] → x.team.readArea bs = some r → s.fillStacks r.team = (s1, .ok t') →
      (s.seat x.team.holding (fun g => (t'.group? g).any (·.ended)) = none → exec (.teamResume area) s = .next s) ∧
      ∀ y, s.seat x.team.holding (fun g => (t'.group? g).any (·.ended)) = some y → s1.teams = s.teams → ∃ t u, exec (.teamResume area) s = .next t ∧
        t.teams = s.teams ++ [u] ∧ t.saved = s1.saved.filter (fun z => z.area != area) ∧ u.core = y.core ∧ u.preempt = false ∧
        u.groups.length = t'.groups.length ∧ t.commands.length = s1.commands.length + r.commands.length ∧
        ∀ k c, r.commands[k]? = some c → ∃ place, t.commands[s1.commands.length + k]? = some { c with id := s1.nextCommand + k, place := place }

/-- A work graph starts, commits records in order, runs its nodes and finishes them (spec/10_splat_pipeline.md; spec/12_links_and_host.md;
spec/14_scheduling.md). The model's own: what BINNER and RASTER do with a record, DISP, and the record size of COMPOSE (log 42);
COMPOSE owns no lines (log 25), and its bytes leave by the collective engine (log 61). -/
def Obligations.GraphEvents : Prop :=
  let quiet := fun (s : State) => s.mire = [] ∧ (∀ r ∈ s.reservations, r.hold = false) ∧ s.canonical
  (∀ (s s1 s2 : State) (seq : Nat) (j : Job), s.starting 2 seq = some j → s.graph? seq = none →
    (∀ status, s.readGraph j = (s1, .error (.refuse status)) → exec (.cmdGraph seq) s = .next (s1.endJob seq status)) ∧
    ∀ g, s.readGraph j = (s1, .ok g) →
      s1.nodeWrites (nodeCommand seq 0 j.ctx 0 []) (g.edges.map fun e => (e.queue + 16, zeros 32)) = (s2, none) →
      (∀ n ∈ g.nodes, n.kind ≠ 1) → exec (.cmdGraph seq) s = .next { s2 with graphs := s2.graphs ++ [g] }) ∧
  (∀ (s s1 : State) (seq i : Nat) (g : Graph) (e : Edge) (r : Reserved) (rest : List Reserved), s.graph? seq = some g →
    g.edges[i]? = some e → e.pending = r :: rest →
    (r.written = false → exec (.queueCommit seq i) s = .next s) ∧
    (r.written = true → s.awaits g.ctx (e.queue + 24) = false →
      s.writeAt (nodeCommand seq e.src g.ctx 0 []) (BitVec.ofNat 64 (e.queue + 24)) (leBytes 8 (r.first + r.count)) = (s1, none) →
      exec (.queueCommit seq i) s = .next (s1.modEdge seq i fun e => { e with committed := r.first + r.count, pending := rest }))) ∧
  (∀ (s s1 : State) (seq i : Nat) (g : Graph) (n : Node) (l : Launch), s.nodeTurn seq i 0 = some (g, n) → n.launch = some l →
    (∀ (m : Node) e p, g.node? e.src = some p →
      let last := (p.finished = true ∨ p.failed = true) ∧ ∀ r rest, e.pending = r :: rest → r.written = false
      (m.batch ≤ e.committed - m.taken → g.nextBatch m e = m.batch) ∧
      (e.committed - m.taken < m.batch → last → g.nextBatch m e = e.committed - m.taken) ∧
      (e.committed - m.taken < m.batch → ¬ last → g.nextBatch m e = 0)) ∧
    let grid := fun (s : State) (l : Launch) (first count : Nat) (handed : List (Nat × Nat × Nat)) =>
      ({ id := s.nextGrid, seq := seq, origin := .node seq i, ctx := g.ctx, launch := l, next := first, total := first + count,
         handed := handed, ended := first, faults := 0 } : Grid)
    (g.inputs i = [] → n.started = false → ∃ t, exec (.programNodeLaunch seq i) s = .next t ∧ t.teams = s.teams ∧
      t.grids = s.grids ++ [grid s l 0 (l.gx * l.gy * l.gz) []]) ∧
    ∀ e rest p, g.inputs i = e :: rest → g.node? e.src = some p →
      (p.kind = 2 → p.finished = true → n.started = false → ∃ t, exec (.programNodeLaunch seq i) s = .next t ∧ t.teams = s.teams ∧
        t.grids = s.grids ++ [grid s { l with gx := p.sortEntries, gy := 1, gz := 1 } 0 p.sortEntries []]) ∧
      (p.kind = 3 → p.finished = true → n.started = false → ∃ t, exec (.programNodeLaunch seq i) s = .next t ∧ t.teams = s.teams ∧
        t.grids = s.grids ++ [grid s l 0 (l.gx * l.gy * l.gz) []]) ∧
      (p.kind ≠ 2 → p.kind ≠ 3 →
        let k := g.nextBatch n e
        (k = 0 → exec (.programNodeLaunch seq i) s = .next s) ∧
        (0 < k → s.writeAt (nodeCommand seq i g.ctx 0 []) (BitVec.ofNat 64 (e.queue + 32)) (leBytes 8 (n.taken + k)) = (s1, none) →
          ∃ t, exec (.programNodeLaunch seq i) s = .next t ∧ t.mem = s1.mem ∧
            t.grids = s1.grids ++ [grid s1 { l with gx := 0xFFFFFFFF, gy := 1, gz := 1 } n.batches 1 [(n.batches, k, n.taken)]] ∧
            t = (s1.modNode seq i fun n => { n with started := true, taken := n.taken + k, batches := n.batches + 1 }).newGrid seq (.node seq i)
              g.ctx { l with gx := 0xFFFFFFFF, gy := 1, gz := 1 } n.batches 1 [(n.batches, k, n.taken)]))) ∧
  (∀ (s s1 s2 s3 : State) (seq i : Nat) (g : Graph) (n : Node) (e : Edge) (rest : List Edge) (rb st : List Byte),
    s.nodeTurn seq i 1 = some (g, n) → g.inputs i = e :: rest →
    let out := (g.outputs i).head?
    let die := n.die.getD (s.binnerDie g n out)
    let c := nodeCommand seq i g.ctx die []
    (n.cleared = false → exec (.binnerRecord seq i) s = .next (s.clearStats g i n)) ∧
    (n.cleared = false →
      (s.modNode seq i fun n => { n with die := some (n.die.getD die) }).writeAt c (BitVec.ofNat 64 n.stats) (zeros 32) = (s1, none) →
      s.clearStats g i n = s1.modNode seq i fun n => { n with cleared := true }) ∧
    (n.cleared = true → n.batches = 0 →
    let p := n.taken
    let b := n.bin (leNat rb)
    (e.committed ≤ p → exec (.binnerRecord seq i) s = .next s) ∧
    (p < e.committed → s.readAt c (BitVec.ofNat 64 (e.base + p * 32)) 32 = (s1, .ok rb) →
      s1.readAt c (BitVec.ofNat 64 n.stats) 32 = (s2, .ok st) →
      let stat := fun (keys : Nat) => (n.stats, leBytes 8 ((fieldAt st 0 8 + 1) % 2 ^ 64) ++ leBytes 8 ((fieldAt st 8 8 + keys) % 2 ^ 64) ++
        leBytes 8 ((fieldAt st 16 8 + b2n (b == .invalid)) % 2 ^ 64) ++ leBytes 8 ((fieldAt st 24 8 + b2n (b == .tooMany)) % 2 ^ 64))
      let disp := (e.queue + 32, leBytes 8 (p + 1))
      let kept := fun (s : State) => s.modNode seq i fun n => { n with started := true, taken := p + 1, batches := 0 }
      ((b = .invalid ∨ b = .tooMany) → s2.nodeWrites c [disp, stat 0] = (s3, none) →
        exec (.binnerRecord seq i) s = .next (match out with
          | some o => (kept s3).modEdge seq (g.edgeIndex o) fun o => { o with committed := o.committed + 0 }
          | none => kept s3)) ∧
      ∀ keys o, b = .keys keys → keys ≠ [] → out = some o → keys.length ≤ o.cap - o.committed →
        s2.nodeWrites c ((List.range keys.length).map (fun t => (o.base + (o.committed + t) * 16, leBytes 8 (keys.getD t 0) ++ leBytes 4 p ++ zeros 4)) ++
          [(o.queue + 16, leBytes 8 (o.committed + keys.length) ++ leBytes 8 (o.committed + keys.length)), disp, stat keys.length]) = (s3, none) →
        exec (.binnerRecord seq i) s = .next ((kept s3).modEdge seq (g.edgeIndex o) fun o => { o with committed := o.committed + keys.length })))) ∧
  (∀ (s s1 : State) (seq i : Nat) (g : Graph) (n : Node), s.nodeTurn seq i 2 = some (g, n) →
    let ins := g.inputs i
    let ready := n.started = false ∧ ∀ e ∈ ins, g.settled e = true ∧ ∃ p, g.node? e.src = some p ∧ p.finished = true
    let total := ins.foldl (fun k e => k + e.committed) 0
    let die := s.dieHolding g.ctx (longAt n.config 0)
    let c := { nodeCommand seq i g.ctx die [longAt n.config 0, longAt n.config 8, longAt n.config 16, BitVec.ofNat 64 total, longAt n.config 24, longAt n.config 32] with id := s.nextCommand }
    (¬ ready → exec (.sorterStart seq i) s = .next s) ∧
    (ready → s.queuedAt 3 die < 32 → s.nodeWrites c (ins.map fun e => (e.queue + 32, leBytes 8 e.committed)) = (s1, none) →
      ∃ t, exec (.sorterStart seq i) s = .next t ∧ t.mem = s1.mem ∧ t.commands = s1.commands ++ [c] ∧
        t.graphs = (s1.modNode seq i fun n => { n with started := true, taken := total }).graphs)) ∧
  (∀ (s s1 s2 s3 : State) (seq i : Nat) (g : Graph) (n : Node) (e : Edge) (rest : List Edge) (bs : List Byte),
    s.nodeTurn seq i 3 = some (g, n) → g.inputs i = e :: rest → n.taken < e.committed →
    let die := n.die.getD (s.dieHolding g.ctx (BitVec.ofNat 64 (fieldAt n.config 8 8)))
    let c := nodeCommand seq i g.ctx die []
    (s.modNode seq i fun n => { n with die := some (n.die.getD die) }).readAt c (BitVec.ofNat 64 (e.base + n.taken * 48)) 48 = (s1, .ok bs) →
    (n.fragments bs).foldl (fun (r : State × Option Stop) x => match r.2 with
      | some _ => r
      | none => r.1.atomicMin c x.1 x.2) (s1, none) = (s2, none) →
    s2.writeAt c (BitVec.ofNat 64 (e.queue + 32)) (leBytes 8 (n.taken + 1)) = (s3, none) →
    exec (.rasterRecord seq i) s = .next (s3.modNode seq i fun m => { m with started := true, taken := n.taken + 1 })) ∧
  (∀ (s s1 : State) (c : Command) (a w : Nat) (l : List Spot), a % 8 = 0 → s.endAt c (.glob (BitVec.ofNat 64 a)) 8 .readWrite = (s1, .ok (.here l)) →
    s1.ownedByOther c.id (keysOf l) = false → quiet s1 → s1.heldWrites = [] → s1.readCheck l = none →
    (s1.beforeRead c.ctx (s1.commandCore c) false l).writeCheck l = none → (∀ p ∈ l, p.window = none) →
    ∃ t, s.atomicMin c a w = (t, none) ∧ ∀ b, Memory.get t.mem b =
      afterWrites s1.mem ((keysOf l).zip (leBytes 8 (min (leNat (s1.peek (keysOf l))) w))) b) ∧
  (∀ (s s1 s2 s3 : State) (seq i k : Nat) (peers : List (Nat × PeerPart)) (g : Graph) (n : Node) (e : Edge) (rest : List Edge) (rb : List Byte)
      (own : List Partial) (l : List (W64 × List Byte)),
    s.nodeTurn seq i 4 = some (g, n) → g.inputs i = e :: rest → n.started = false → g.settled e = true →
    (∃ p, g.node? e.src = some p ∧ p.finished = true) →
    let grp := s.collGroup (fieldAt n.config 12 1)
    let rank := fieldAt n.config 14 2
    let c := nodeCommand seq i g.ctx (s.dieHolding g.ctx (longAt n.config 0)) []
    let ps := peers.filter fun p => p.1 != grp.rank && p.1 < grp.members
    fieldAt n.config 12 1 < 64 → grp.valid = true → rank < grp.members →
    (allPeers grp peers = false → exec (.composeNode seq i peers) s = .next s) ∧
    (allPeers grp peers = true → (∃ p ∈ ps, p.2.refused = true ∨ p.2.form ≠ 3 ∨ p.2.dstr ≠ rank) →
      exec (.composeNode seq i peers) s = .next (s.failNode seq i g.ctx codeADDRBAD 0)) ∧
    (allPeers grp peers = true → (∀ p ∈ ps, p.2.refused = false ∧ p.2.form = 3 ∧ p.2.dstr = rank) →
      s.readAt c (BitVec.ofNat 64 e.base) (32 * e.committed) = (s1, .ok rb) →
      s1.partialsOf c (rank != grp.rank) ((chunks 32 e.committed rb).map leNat) = (s2, .ok own) →
      composeWrites (rank == grp.rank) (fieldAt n.config 0 8) (fieldAt n.config 8 4) (own ++ ps.flatMap fun p => peerPartials p.2) = .writes l k →
      let write := fun (s : State) => s.nodeWrites c (l.map (fun w => (w.1.toNat, w.2)) ++ [(e.queue + 32, leBytes 8 e.committed)])
      let done := fun (s : State) => s.modNode seq i fun n => { n with started := true, taken := e.committed }
      (rank = grp.rank → write s2 = (s3, none) → exec (.composeNode seq i peers) s = .next (done s3)) ∧
      ∀ s4 ms, rank ≠ grp.rank → s2.addressed c grp [(rank, 0, rb ++ own.flatMap fun p => p.pixels.flatMap (leBytes 4))] = (s4, .ok ms) →
        write s4 = (s3, none) → exec (.composeNode seq i peers) s = .next (((done s3).enqueue
          { c with id := s3.nextCommand, eng := 4, phase := .started, last := true, outbox := ms }).collSend s3.nextCommand))) ∧
  ∀ (s : State) (seq i : Nat) (g : Graph) (n : Node), s.graph? seq = some g → g.node? i = some n →
    (n.finished = true ∨ n.failed = true → exec (.nodeFinish seq i) s = .next s) ∧
    (n.finished = false → n.failed = false → g.spoiled i n = true →
      exec (.nodeFinish seq i) s = .next (s.modNode seq i fun n => { n with failed := true })) ∧
    (n.finished = false → n.failed = false → g.spoiled i n = false → s.nodeDone g i n = true →
      ∃ t, exec (.nodeFinish seq i) s = .next t ∧ t.grids = s.grids.filter (fun x => x.origin != .node seq i) ∧ t.teams = s.teams ∧
        t.graphs = (s.modNode seq i fun n => { n with finished := true }).graphs) ∧
    (n.finished = false → n.failed = false → g.spoiled i n = false → s.nodeDone g i n = false → exec (.nodeFinish seq i) s = .next s)

/-- Flits are coded, recovered and delivered in order, and the host port answers what it takes (spec/12_links_and_host.md;
spec/15_traps_and_reliability.md). The model's own: the half of the round trip and the step that is never backward (log 2), the bytes of
a peer's write as the payload of a flit and a flit that waits (log 28), the order of a message's packets, the MTU and the answer to an ECN mark
(log 46), the first SEQ, one NAK for a gap and the coding after a retrain (log 47), and the rate after a CNP (log 9). -/
def Obligations.LinkAndHostEvents : Prop :=
  (∀ f : Flit, f.kind ≤ 4 → f.nfmt ≤ 3 → f.chan < 8 → f.elems < 256 → (f.nfmt = 0 → f.elems ≤ 240) → f.ack < 2 ^ 16 → f.seq < 2 ^ 16 →
    f.payload.length = 240 → f.bytes.length = 256 ∧ Flit.parse f.bytes = some f) ∧
  (∀ (nfmt : Nat) (counts xs : List Nat), 1 ≤ nfmt → nfmt ≤ 3 → counts.length = 2 ^ expBits nfmt → (∀ x ∈ xs, x < 2 ^ (8 * elemBytes nfmt)) →
    (nfmt = 3 → ∀ x ∈ xs, x < 2 ^ 16) → takeElems nfmt counts xs.length (xs.flatMap (codeElem nfmt counts)) = xs) ∧
  (∀ (s : State) (port : Nat) (bytes : List Byte) (req : PeerAccess), port < 16 → (s.port port).lost = false →
    (s.port port).retraining = false →
    let p := s.port port
    let nak := fun (t : State) => t.mem = s.mem ∧ (t.port port).nakSent = true ∧ (t.port port).rxSeq = p.rxSeq ∧
      t.out = s.out ++ if p.nakSent then [] else [.flit port (p.control 2 []).bytes]
    let taken := fun (f : Flit) => s.setPort port (p.acked f.ack s.time)
    (Flit.parse bytes = none → ∃ t, exec (.flitReceive port ⟨bytes, req⟩) s = .next t ∧ nak t) ∧
    ∀ f, Flit.parse bytes = some f →
      (f.kind = 0 → exec (.flitReceive port ⟨bytes, req⟩) s = .next ((taken f).pump port)) ∧
      (f.kind = 1 → f.seq = (p.rxSeq + 1) % 2 ^ 16 → f.nfmt = 0 → req = .nothing → ∃ t : State, exec (.flitReceive port ⟨bytes, req⟩) s = .next (t.pump port) ∧
        t.mem = s.mem ∧ (t.port port).rxSeq = f.seq ∧ (t.port port).replay = ackedReplay f.ack p.replay ∧
        ∃ ack : Flit, ack.kind = 0 ∧ ack.ack = f.seq ∧ t.out = s.out ++ [.delivered port f.chan 0 (f.payload.take f.elems), .flit port ack.bytes]) ∧
      (let s0 := taken f;
        f.kind = 1 → f.seq = (p.rxSeq + 1) % 2 ^ 16 →
        (∀ t, s0.peerAccess port (f.data (s0.port port)) req = (t, false) → exec (.flitReceive port ⟨bytes, req⟩) s = .next (t.pump port)) ∧
        ∀ (cmd ctx base len off : Nat) (s1 s2 : State) (l : List Spot), req = .write cmd ctx base len off → f.nfmt = 0 →
          s0.spots (s0.walkerTile 0) ctx (base + off) (f.payload.take f.elems).length .write = (s1, .ok l) →
          s1.takeWindows port cmd ctx base len (writeWindows off (f.payload.take f.elems).length) = some s2 →
          ({ s2 with peers := s2.peers.filter fun x => !(x.port == port && x.cmd == cmd) } : State).deviceStall true (keysOf l) = none →
          s2.writeCheck l = none → s2.mire = [] → s2.canonical →
          ∃ t, exec (.flitReceive port ⟨bytes, req⟩) s = .next t ∧ (t.port port).rxSeq = f.seq ∧
            ∀ a, Memory.get t.mem a = afterWrites s2.mem ((keysOf l).zip (f.payload.take f.elems)) a) ∧
      (f.kind = 1 → f.seq ≠ (p.rxSeq + 1) % 2 ^ 16 → (p.rxSeq + 2 ^ 16 - f.seq) % 2 ^ 16 < 2 ^ 15 →
        exec (.flitReceive port ⟨bytes, req⟩) s = .next ((taken f).pump port)) ∧
      (f.kind = 1 → f.seq ≠ (p.rxSeq + 1) % 2 ^ 16 → 2 ^ 15 ≤ (p.rxSeq + 2 ^ 16 - f.seq) % 2 ^ 16 →
        ∃ t : State, exec (.flitReceive port ⟨bytes, req⟩) s = .next (t.pump port) ∧ nak t) ∧
      (f.kind = 3 → exec (.flitReceive port ⟨bytes, req⟩) s =
        .next (((taken f).gustFlit port (leNat (f.payload.take 8)) (leNat ((f.payload.drop 8).take 2))).pump port)) ∧
      (f.kind = 4 → exec (.flitReceive port ⟨bytes, req⟩) s = .next (((taken f).beginRetrain port).pump port))) ∧
  (∀ (s : State) (port : Nat), port < 16 →
    let p := s.port port
    let t := s.pump port
    let q := t.port port
    (p.answers = [] → t = s) ∧ t.mem = s.mem ∧ ∃ l : List Sent, q.replay = p.replay ++ l ∧
      t.out = s.out ++ l.map (fun x => .flit port x.flit) ∧ p.answers.flatten = l.flatMap (·.raw) ++ q.answers.flatten ∧
      (q.answers ≠ [] → p.retraining = false → p.lost = false → 512 ≤ q.replay.length)) ∧
  (∀ (s : State) (port : Nat) (ack : BitVec 16), port < 16 →
    let p := s.port port
    let left := ackedReplay ack.toNat p.replay
    let again := fun (t : State) (l : List Sent) => t.mem = s.mem ∧ (t.port port).replay = l ∧ (t.port port).since = s.time ∧
      t.out = s.out ++ l.map fun x => .flit port x.flit
    (p.retraining = false → p.lost = false → left ≠ [] →
      ∃ t : State, exec (.nakReceive port ack) s = .next (t.pump port) ∧ again t left ∧
        (t.port port).resends = (if left.length < p.replay.length then 0 else p.resends) + 1) ∧
    (p.retraining = false → p.lost = false → p.replay ≠ [] → p.since + 2000 ≤ s.time →
      ∃ t, exec (.ackTimeout port) s = .next t ∧ again t p.replay ∧ (t.port port).resends = p.resends + 1) ∧
    (s.time < p.since + 2000 → exec (.ackTimeout port) s = .next s) ∧
    (p.retraining = false → p.resends < 8 → exec (.retrain port) s = .next s) ∧
    (p.retraining = true → exec (.retrain port) s = exec (.linklost port) s) ∧
    (8 ≤ p.resends → p.retraining = false → p.lost = false → ∃ t, exec (.retrain port) s = .next t ∧ t.mem = s.mem ∧
      (t.port port).retraining = true ∧ (t.port port).since = s.time ∧
      (t.port port).replay.flatMap (·.raw) = p.replay.flatMap (·.raw) ∧ t.out = s.out ++ [.flit port (p.control 4 []).bytes]) ∧
    (p.retraining = true → p.lost = false → s.time < p.since + 10000000 → exec (.linklost port) s = .next s ∧
      ∃ t : State, exec (.retrainComplete port) s = .next (t.pump port) ∧ again t p.replay ∧ (t.port port).retraining = false ∧ (t.port port).resends = 0) ∧
    (p.retraining = true → p.lost = false → p.since + 10000000 ≤ s.time → exec (.retrainComplete port) s = .next s ∧
      ((∀ x ∈ p.replay, x.cmd = none) →
        exec (.linklost port) s = .next { s.setPort port { p with lost := true, retraining := false, replay := [], answers := [], hops := none } with
          peers := s.peers.filter fun x => x.port != port }) ∧
      ∃ t, exec (.linklost port) s = .next t ∧ (t.port port).lost = true ∧ (t.port port).replay = [] ∧
        ∀ x ∈ p.replay, ∀ c ∈ t.commands, x.cmd ≠ some c.id)) ∧
  (∀ (s : State) (port hops : Nat) (sent : W64), port < 16 → (s.port port).lost = false →
    let s1 := s.setPort port { s.port port with hops := some (hops % 65536) }
    let now := sent.toNat + (Config.openWord s.tick port).toNat
    let mine := s.hostOpen = true ∧ s.disciplined = false ∧ s1.timePort.map Prod.fst = some port
    (¬ mine → exec (.fenlinkGust port sent hops) s = .next s1) ∧
    (mine → s.locked = false → exec (.fenlinkGust port sent hops) s =
      .next { s1 with time := max s.time now, slew := (now : Int) - ((max s.time now : Nat) : Int), locked := true }) ∧
    (mine → s.locked = true → exec (.fenlinkGust port sent hops) s = .next { s1 with slew := (now : Int) - (s.time : Int) })) ∧
  (∀ (s : State) (fr : Frame) (sent received : W64) (x : Exchange), s.hostOpen = true → fr.vlan = s.vlanMgmt →
    exec (.ieee1588Message fr (.sync sent)) s = .next { s with
      exchange := some { sent := sent.toNat, came := s.time, asked := s.time }, disciplined := true, out := s.out ++ [.delayRequest] } ∧
    (s.exchange = none → exec (.ieee1588Message fr (.delayResponse received)) s = .next s) ∧
    (s.exchange = some x →
      let ahead := (((x.came : Int) - (x.sent : Int)) - ((received.toNat : Int) - (x.asked : Int))) / 2
      let now := (s.time : Int) - ahead
      (s.locked = false → exec (.ieee1588Message fr (.delayResponse received)) s = .next { s with
        exchange := none, disciplined := true, locked := true, time := max s.time now.toNat,
        slew := now - ((max s.time now.toNat : Nat) : Int) }) ∧
      (s.locked = true → exec (.ieee1588Message fr (.delayResponse received)) s =
        .next { s with exchange := none, disciplined := true, slew := now - (s.time : Int) }))) ∧
  (∀ (s : State) (fr : Frame) (qp : Nat) (seg : Segment) (rkey : W32) (off n : Nat) (data : List Byte) (kind : RdmaOther),
    s.takesData fr = true → (s.qp qp).up = true →
    let q := s.qp qp
    let ecn : List Output := if fr.ecn then [.cnp qp] else []
    let m := q.covers seg rkey off data.length
    let hand := ((q.message.map (·.tail)).getD []) ++ data
    let after := q.after seg rkey m.2.1 data
    let kept := ((after.map (·.tail)).getD []).length
    let entry := fun (k : W32) => (s.region (k.toNat % 4096)).toNat
    let gives := fun (i : Instr) (l : List Output) => ∃ t, exec i s = .next t ∧ t.mem = s.mem ∧ t.teams = s.teams ∧ t.out = s.out ++ l
    gives (.unsupportedRdmaOpcode fr qp kind) (ecn ++ [.nakInvalidRequest qp]) ∧
    (q.inOrder seg data.length = false → gives (.rdmaWrite fr qp rkey off ⟨seg, data⟩) [.nakInvalidRequest qp]) ∧
    (q.inOrder seg data.length = true →
      (regionTakes (entry m.1) m.1 m.2.1 m.2.2 true = false → gives (.rdmaWrite fr qp rkey off ⟨seg, data⟩) (ecn ++ [.nakRemoteAccess qp])) ∧
      ∀ s1 l, regionTakes (entry m.1) m.1 m.2.1 m.2.2 true = true → s.mailboxSpots (entry m.1) m.2.1 m.2.2 true = .ok s1 l → s1.mire = [] →
        s1.canonical → ∃ t, exec (.rdmaWrite fr qp rkey off ⟨seg, data⟩) s = .next t ∧ t.teams = s1.teams ∧
          (t.qp qp).message = after ∧ (∀ u, after = some u → u.tail = hand.drop ((m.2.1 + hand.length) / 16 * 16 - m.2.1)) ∧
          t.out = s1.out ++ ecn ++ (if after = none then [.rdmaAck qp] else []) ∧
          ∀ a, Memory.get t.mem a = afterWrites s1.mem ((keysOf l).zip (hand.take (hand.length - kept))) a) ∧
    (regionTakes (entry rkey) rkey off n false = false → gives (.rdmaRead fr qp rkey off n) (ecn ++ [.nakRemoteAccess qp])) ∧
    (∀ s1 l, regionTakes (entry rkey) rkey off n false = true → s.mailboxSpots (entry rkey) off n false = .ok s1 l → s1.mire = [] →
      ∃ t, exec (.rdmaRead fr qp rkey off n) s = .next t ∧ t.mem = s1.mem ∧ t.out = s1.out ++ ecn ++
        (List.range (max 1 (ceilDiv n q.mtu))).map fun k => .rdmaData qp (((s1.peek (keysOf l)).drop (q.mtu * k)).take q.mtu)) ∧
    (qp < 64 → ∃ t r, exec (.cnp fr qp) s = .next t ∧ t = s.setQp qp { s.qp qp with rate := r } ∧ ((s.qp qp).rate ≠ 0 → r < (s.qp qp).rate))) ∧
  (∀ (s : State) (fr : Frame) (tr : Transport) (mtu : Nat), s.takesData fr = true →
    (tr ≠ .rc ∨ mtu ∉ [1024, 2048, 4096] → exec (.connectionRequest fr ⟨tr, mtu⟩) s = .next { s with out := s.out ++ [.connectionRefused] }) ∧
    ((∀ n, n < 64 → (s.qp n).up = true) → exec (.connectionRequest fr ⟨tr, mtu⟩) s = .next { s with out := s.out ++ [.connectionRefused] }) ∧
    ∀ n, mtu ∈ [1024, 2048, 4096] → n < 64 → (s.qp n).up = false → (∀ k, k < n → (s.qp k).up = true) →
      ∃ t, exec (.connectionRequest fr ⟨.rc, mtu⟩) s = .next t ∧ (t.qp n).up = true ∧ (t.qp n).mtu = mtu ∧ (t.qp n).message = none ∧ (∀ k, k ≠ n → t.qp k = s.qp k) ∧ t.out = s.out ++ [.connectionAccepted n]) ∧
  ∀ (s : State) (fr : Frame) (req : MgmtReq) (nonce : BitVec 256), s.takesMgmt fr = true →
    (s.recovery = true → exec (.managementRequest fr req) s = .next { s with out := s.out ++ [.managementRefused] }) ∧
    (s.recovery = false →
      let r := match req with
        | .context0 image => s.writeEntry 3 0 image.toNat
        | .queue0 image => s.writeEntry 4 0 image.toNat
        | .region index image => s.writeEntry 6 index.val image.toNat
      exec (.managementRequest fr req) s = .next { r.1 with out := r.1.out ++ [if r.2 = 0 then .managementDone else .managementRefused] }) ∧
    ∃ report, exec (.attestationRequest fr nonce) s = .next { s with out := s.out ++ [.attestation report] } ∧ report.length = 1704 ∧
      report.take 4 = leBytes 4 1704 ∧ (report.drop 8).take 32 = leBytes 32 nonce.toNat ∧
      report.drop 424 = leBytes 1280 (Config.falconSign (report.take 424)).toNat

/-- Tiles watch their neighbours, a fence takes enough votes, and power and heat act on the whole device (spec/15_traps_and_reliability.md).
The model's own: the demand that a tile declares and the way of a vote gust (log 29), TRUST that passes through SUSPECT to VOTED at one
judgement, one neighbour that fences and the retirement of a core's self-test (log 48), and what a device reset keeps and the order of
THERMAL_TRIP (log 49). -/
def Obligations.WatchAndPowerEvents : Prop :=
  let suspected := fun (s : State) (tile : Nat) (dir : Dir) (w : Watch) =>
    s.setWatch tile dir { w with good := 0, vote := if w.vote = .trust then .suspect else w.vote }
  let voted := fun (s t : State) (tile suspect : Nat) (dir : Dir) (w : Watch) (kind : Nat) =>
    t.watches = (s.setWatch tile dir { w with good := 0, vote := .voted }).watches ∧ t.tiles = s.tiles ∧ t.teams = s.teams ∧
    t.agenda = s.agenda ++ ((s.liveNeighbours suspect).filter (· != tile)).map fun n =>
      Instr.voteGustReceive n (gustBits tile (s.tileHealth tile).gseq 0 kind suspect)
  (∀ (s : State), ∃ t l, exec .gustPeriod s = .next t ∧ t.mem = s.mem ∧ t.teams = s.teams ∧ t.out = s.out ++ l ∧
    (∀ w ∈ t.watches, w.2.malformed = 0) ∧
    ∀ tile, tile < 512 → s.fenced tile = false → (t.tileHealth tile).gseq = ((s.tileHealth tile).gseq + 1) % 65536 ∧
      ∀ d n, meshNeighbour tile d = some n → ∃ demand, Output.gust tile d (gustBits tile (((s.tileHealth tile).gseq + 1) % 65536) demand 0 0) ∈ l) ∧
  (∀ (s : State) (tile suspect : Nat) (dir : Dir) (rep : BabbleReport) (i : Instr) (w : Watch) (judged : Option Nat),
    let w0 := s.watch tile dir
    s.watches? tile dir = true → meshNeighbour tile dir = some suspect →
    (i, w, judged) ∈ [(Instr.missedGust tile dir, { w0 with missed := w0.missed + 1 }, if 2 ≤ w0.missed then some 1 else none),
      (.malformedFlit tile dir, { w0 with malformed := w0.malformed + 1 }, if 15 ≤ w0.malformed then some 2 else none),
      (.babbleWindow tile dir rep, { w0 with hot := true }, if 16 * w0.demands.foldl (· + ·) 0 + 1024 < rep.flits then some 2 else none)] →
    (i = .babbleWindow tile dir rep → rep.flits ≤ rep.limit95 → exec i s = .next (s.setWatch tile dir { w0 with hot := false })) ∧
    ((i = .babbleWindow tile dir rep → rep.limit95 < rep.flits) →
      (judged = none ∨ (w0.vote ≠ .trust ∧ w0.vote ≠ .suspect) → exec i s = .next (suspected s tile dir w)) ∧
      ∀ kind, judged = some kind → (w0.vote = .trust ∨ w0.vote = .suspect) → w0.votes = [] →
        ∃ t, exec i s = .next t ∧ voted s t tile suspect dir w kind)) ∧
  (∀ (s : State) (tile suspect : Nat) (dir : Dir) (gust : BitVec 128), s.watches? tile dir = true → meshNeighbour tile dir = some suspect →
    let w := s.watch tile dir
    let w1 := { w with seq := some (gustSeq gust.toNat), missed := 0, demands := (bits gust.toNat 87 72 :: w.demands).take 16 }
    (gustOk gust.toNat suspect = false → exec (.gustReceive tile dir gust) s = .next (s.malformedFrom tile dir)) ∧
    (gustOk gust.toNat suspect = true → w.seq = none ∨ w.seq = some ((gustSeq gust.toNat + 65535) % 65536) →
      (w.vote = .trust → exec (.gustReceive tile dir gust) s = .next (s.setWatch tile dir w1)) ∧
      (w.vote = .suspect → exec (.gustReceive tile dir gust) s =
        .next (s.setWatch tile dir (if w.malformed = 0 ∧ w.hot = false then { w1 with vote := .trust } else w1))) ∧
      (w.vote = .voted → w.good = 0 → exec (.gustReceive tile dir gust) s = .next (s.setWatch tile dir { w1 with good := 1 }))) ∧
    (gustOk gust.toNat suspect = true → (∃ q, w.seq = some q ∧ q < 65536 ∧ gustSeq gust.toNat ≠ (q + 1) % 65536) → w.vote = .trust → w.votes = [] →
      ∃ t, exec (.gustReceive tile dir gust) s = .next t ∧ voted s t tile suspect dir w1 2)) ∧
  (∀ (s : State) (tile : Nat) (d : Dir) (gust : BitVec 128),
    let g := gust.toNat
    let suspect := dieOf tile * 256 + gustVtile g
    let voter := dieOf tile * 256 + gustSrc g
    tile < 512 → s.fenced tile = false → s.fenced voter = false → gustVkind g ≠ 0 → voter ≠ tile →
    dirs.find? (fun d => meshNeighbour tile d == some suspect) = some d → (∃ x ∈ watchers suspect, x.1 = voter) →
    let w := s.watch tile d
    let w1 := { w with votes := if gustVkind g = 3 then w.votes.filter (· != voter) else w.votes.filter (· != voter) ++ [voter] }
    let s1 := s.setWatch tile d w1
    let n := (s.liveNeighbours suspect).length
    (w.vote ≠ .voted ∨ n ≤ 1 ∨ s1.voteCount tile suspect w1 < (if n = 4 then 3 else 2) → exec (.voteGustReceive tile gust) s = .next s1) ∧
    (w.vote = .voted → 2 ≤ n → (if n = 4 then 3 else 2) ≤ s1.voteCount tile suspect w1 → s.fenced suspect = false →
      exec (.voteGustReceive tile gust) s = .next ((s1.setWatch tile d { w1 with vote := .fenced }).fenceTile suspect))) ∧
  (∀ (s : State) (tile : Nat), tile < 512 →
    let u := s.fenceTile tile
    let h := s.tileHealth tile
    (u.tileHealth tile).fences = s.time :: h.fences ∧ (u.tileHealth tile).orphans = true ∧
    (u.tileHealth tile).status = (if 2 ≤ (h.fences.filter fun t => decide (s.time < t + 86400000000000)).length then .retired else .testing) ∧
    ∀ t ∈ u.teams, t.ctx ∉ s.touching (dieOf tile)) ∧
  (∀ (s : State) (tile : Nat) (pass : Bool),
    let h := s.tileHealth tile
    (h.status ≠ .testing → exec (.selfTestComplete tile pass) s = .next s) ∧
    (h.status = .testing → ∃ t, exec (.selfTestComplete tile pass) s = .next t ∧ t = { s with tiles := t.tiles } ∧
      t.tileHealth tile = { h with status := if pass then .appealing else .retired } ∧ ∀ n, n ≠ tile → t.tileHealth n = s.tileHealth n) ∧
    ((h.orphans = false ∨ s.time < h.fences.headD 0 + 10000) → exec (.orphanTimeout tile) s = .next s) ∧
    (h.orphans = true → h.fences.headD 0 + 10000 ≤ s.time → ∃ t, exec (.orphanTimeout tile) s = .next t ∧ (t.tileHealth tile).orphans = false) ∧
    ((s.core tile).rested = false → exec (.coreSelfTestComplete tile pass) s = .next s) ∧
    ((s.core tile).rested = true → ∃ t, exec (.coreSelfTestComplete tile pass) s = .next t ∧ t.mem = s.mem ∧
      t.core tile = { s.core tile with rested := false } ∧ (t.tileHealth tile).status = if pass then h.status else .retired) ∧
    (exec (.suspectSelfTest tile true) s = .next s) ∧
    ∀ n d, tile < 512 → s.fenced tile = false → s.liveNeighbours tile = [n] → (watchers tile).find? (fun x => x.1 == n) = some (n, d) →
      (s.watch n d).vote = .voted →
      exec (.suspectSelfTest tile false) s = .next ((s.setWatch n d { s.watch n d with vote := .fenced }).fenceTile tile)) ∧
  (∀ (s : State) (tile die : Nat), tile < 512 → die < 2 →
    let d := s.die die
    exec (.thermalLimit tile) s = .next (s.setDie (tile / 256) { s.die (tile / 256) with hot := true }) ∧
    (d.hot = true → exec (.clockStep die false) s = .next (s.setDie die { d with mhz := d.mhz - 250 })) ∧
    (exec (.clockStep die true) s = .next (s.setDie die { d with hot := false, mhz := min 2500 (d.mhz + 250) })) ∧
    ∃ t, exec (.thermalTrip tile) s = .next t ∧ t.mem = [] ∧ t.teams = [] ∧ t.jobs = [] ∧ t.commands = [] ∧ t.time = s.time) ∧
  (∀ (s : State) (rep : BootReport), ∃ t, exec (.powerOn rep) s = .next t ∧ t.mem = [] ∧ t.teams = [] ∧ t.sys = State.reset.sys ∧
    t.vlanData = rep.dataVlan ∧ t.vlanMgmt = rep.mgmtVlan ∧ t.booted = rep.verified ∧ t.recovery = (!rep.verified) ∧
    (rep.verified = true → t.time = (rep.time.map BitVec.toNat).getD 0 ∧ t.locked = rep.time.isSome ∧
      ∀ tile, tile < 512 → (t.tileHealth tile).status = if tile ∈ rep.failedTiles then .retired else .live)) ∧
  ∀ (s : State), ((s.booted || s.recovery) = false → exec .deviceReset s = .next s) ∧
    ((s.booted || s.recovery) = true → ∃ t, exec .deviceReset s = .next t ∧ t.mem = [] ∧ t.teams = [] ∧ t.jobs = [] ∧ t.commands = [] ∧
      t.sys = State.reset.sys ∧ t.time = s.time ∧ t.vlanData = s.vlanData ∧ t.vlanMgmt = s.vlanMgmt ∧ t.booted = s.booted ∧ t.recovery = s.recovery ∧
      ∀ tile, (t.tileHealth tile).fences = (s.tileHealth tile).fences ∧
        (t.tileHealth tile).status = if (s.tileHealth tile).status = .retired then .retired else .live)

end
end

