-- ==== Sys2Proof/Laws/State.lean ====
section
/-! SUPPORT. What each named update of State leaves unchanged: one lemma per field per update. -/

namespace Sys2Proof.Machine

/-! ### State.modTeam -/

@[simp] theorem State.modTeam_tick (s : State) (id : Nat) (f : Team → Team) : (s.modTeam id f).tick = s.tick := rfl
@[simp] theorem State.modTeam_time (s : State) (id : Nat) (f : Team → Team) : (s.modTeam id f).time = s.time := rfl
@[simp] theorem State.modTeam_slew (s : State) (id : Nat) (f : Team → Team) : (s.modTeam id f).slew = s.slew := rfl
@[simp] theorem State.modTeam_locked (s : State) (id : Nat) (f : Team → Team) : (s.modTeam id f).locked = s.locked := rfl
@[simp] theorem State.modTeam_exchange (s : State) (id : Nat) (f : Team → Team) : (s.modTeam id f).exchange = s.exchange := rfl
@[simp] theorem State.modTeam_disciplined (s : State) (id : Nat) (f : Team → Team) : (s.modTeam id f).disciplined = s.disciplined := rfl
@[simp] theorem State.modTeam_vlanData (s : State) (id : Nat) (f : Team → Team) : (s.modTeam id f).vlanData = s.vlanData := rfl
@[simp] theorem State.modTeam_vlanMgmt (s : State) (id : Nat) (f : Team → Team) : (s.modTeam id f).vlanMgmt = s.vlanMgmt := rfl
@[simp] theorem State.modTeam_booted (s : State) (id : Nat) (f : Team → Team) : (s.modTeam id f).booted = s.booted := rfl
@[simp] theorem State.modTeam_recovery (s : State) (id : Nat) (f : Team → Team) : (s.modTeam id f).recovery = s.recovery := rfl
@[simp] theorem State.modTeam_agenda (s : State) (id : Nat) (f : Team → Team) : (s.modTeam id f).agenda = s.agenda := rfl
@[simp] theorem State.modTeam_focus (s : State) (id : Nat) (f : Team → Team) : (s.modTeam id f).focus = s.focus := rfl
@[simp] theorem State.modTeam_mem (s : State) (id : Nat) (f : Team → Team) : (s.modTeam id f).mem = s.mem := rfl
@[simp] theorem State.modTeam_poison (s : State) (id : Nat) (f : Team → Team) : (s.modTeam id f).poison = s.poison := rfl
@[simp] theorem State.modTeam_badCheck (s : State) (id : Nat) (f : Team → Team) : (s.modTeam id f).badCheck = s.badCheck := rfl
@[simp] theorem State.modTeam_l2 (s : State) (id : Nat) (f : Team → Team) : (s.modTeam id f).l2 = s.l2 := rfl
@[simp] theorem State.modTeam_mire (s : State) (id : Nat) (f : Team → Team) : (s.modTeam id f).mire = s.mire := rfl
@[simp] theorem State.modTeam_windowLines (s : State) (id : Nat) (f : Team → Team) : (s.modTeam id f).windowLines = s.windowLines := rfl
@[simp] theorem State.modTeam_reservations (s : State) (id : Nat) (f : Team → Team) : (s.modTeam id f).reservations = s.reservations := rfl
@[simp] theorem State.modTeam_monitors (s : State) (id : Nat) (f : Team → Team) : (s.modTeam id f).monitors = s.monitors := rfl
@[simp] theorem State.modTeam_heldWrites (s : State) (id : Nat) (f : Team → Team) : (s.modTeam id f).heldWrites = s.heldWrites := rfl
@[simp] theorem State.modTeam_secondPieces (s : State) (id : Nat) (f : Team → Team) : (s.modTeam id f).secondPieces = s.secondPieces := rfl
@[simp] theorem State.modTeam_halves (s : State) (id : Nat) (f : Team → Team) : (s.modTeam id f).halves = s.halves := rfl
@[simp] theorem State.modTeam_sys (s : State) (id : Nat) (f : Team → Team) : (s.modTeam id f).sys = s.sys := rfl
@[simp] theorem State.modTeam_patterns (s : State) (id : Nat) (f : Team → Team) : (s.modTeam id f).patterns = s.patterns := rfl
@[simp] theorem State.modTeam_collGroups (s : State) (id : Nat) (f : Team → Team) : (s.modTeam id f).collGroups = s.collGroups := rfl
@[simp] theorem State.modTeam_regions (s : State) (id : Nat) (f : Team → Team) : (s.modTeam id f).regions = s.regions := rfl
@[simp] theorem State.modTeam_dies (s : State) (id : Nat) (f : Team → Team) : (s.modTeam id f).dies = s.dies := rfl
@[simp] theorem State.modTeam_cores (s : State) (id : Nat) (f : Team → Team) : (s.modTeam id f).cores = s.cores := rfl
@[simp] theorem State.modTeam_nextTeam (s : State) (id : Nat) (f : Team → Team) : (s.modTeam id f).nextTeam = s.nextTeam := rfl
@[simp] theorem State.modTeam_commands (s : State) (id : Nat) (f : Team → Team) : (s.modTeam id f).commands = s.commands := rfl
@[simp] theorem State.modTeam_nextCommand (s : State) (id : Nat) (f : Team → Team) : (s.modTeam id f).nextCommand = s.nextCommand := rfl
@[simp] theorem State.modTeam_posts (s : State) (id : Nat) (f : Team → Team) : (s.modTeam id f).posts = s.posts := rfl
@[simp] theorem State.modTeam_xlates (s : State) (id : Nat) (f : Team → Team) : (s.modTeam id f).xlates = s.xlates := rfl
@[simp] theorem State.modTeam_bells (s : State) (id : Nat) (f : Team → Team) : (s.modTeam id f).bells = s.bells := rfl
@[simp] theorem State.modTeam_queues (s : State) (id : Nat) (f : Team → Team) : (s.modTeam id f).queues = s.queues := rfl
@[simp] theorem State.modTeam_slots (s : State) (id : Nat) (f : Team → Team) : (s.modTeam id f).slots = s.slots := rfl
@[simp] theorem State.modTeam_jobs (s : State) (id : Nat) (f : Team → Team) : (s.modTeam id f).jobs = s.jobs := rfl
@[simp] theorem State.modTeam_nextSeq (s : State) (id : Nat) (f : Team → Team) : (s.modTeam id f).nextSeq = s.nextSeq := rfl
@[simp] theorem State.modTeam_grids (s : State) (id : Nat) (f : Team → Team) : (s.modTeam id f).grids = s.grids := rfl
@[simp] theorem State.modTeam_nextGrid (s : State) (id : Nat) (f : Team → Team) : (s.modTeam id f).nextGrid = s.nextGrid := rfl
@[simp] theorem State.modTeam_graphs (s : State) (id : Nat) (f : Team → Team) : (s.modTeam id f).graphs = s.graphs := rfl
@[simp] theorem State.modTeam_saved (s : State) (id : Nat) (f : Team → Team) : (s.modTeam id f).saved = s.saved := rfl
@[simp] theorem State.modTeam_ports (s : State) (id : Nat) (f : Team → Team) : (s.modTeam id f).ports = s.ports := rfl
@[simp] theorem State.modTeam_peers (s : State) (id : Nat) (f : Team → Team) : (s.modTeam id f).peers = s.peers := rfl
@[simp] theorem State.modTeam_qps (s : State) (id : Nat) (f : Team → Team) : (s.modTeam id f).qps = s.qps := rfl
@[simp] theorem State.modTeam_tiles (s : State) (id : Nat) (f : Team → Team) : (s.modTeam id f).tiles = s.tiles := rfl
@[simp] theorem State.modTeam_watches (s : State) (id : Nat) (f : Team → Team) : (s.modTeam id f).watches = s.watches := rfl
@[simp] theorem State.modTeam_out (s : State) (id : Nat) (f : Team → Team) : (s.modTeam id f).out = s.out := rfl

/-! ### State.modGroup -/

@[simp] theorem State.modGroup_tick (s : State) (a b : Nat) (f : Group → Group) : (s.modGroup a b f).tick = s.tick := rfl
@[simp] theorem State.modGroup_time (s : State) (a b : Nat) (f : Group → Group) : (s.modGroup a b f).time = s.time := rfl
@[simp] theorem State.modGroup_slew (s : State) (a b : Nat) (f : Group → Group) : (s.modGroup a b f).slew = s.slew := rfl
@[simp] theorem State.modGroup_locked (s : State) (a b : Nat) (f : Group → Group) : (s.modGroup a b f).locked = s.locked := rfl
@[simp] theorem State.modGroup_exchange (s : State) (a b : Nat) (f : Group → Group) : (s.modGroup a b f).exchange = s.exchange := rfl
@[simp] theorem State.modGroup_disciplined (s : State) (a b : Nat) (f : Group → Group) : (s.modGroup a b f).disciplined = s.disciplined := rfl
@[simp] theorem State.modGroup_vlanData (s : State) (a b : Nat) (f : Group → Group) : (s.modGroup a b f).vlanData = s.vlanData := rfl
@[simp] theorem State.modGroup_vlanMgmt (s : State) (a b : Nat) (f : Group → Group) : (s.modGroup a b f).vlanMgmt = s.vlanMgmt := rfl
@[simp] theorem State.modGroup_booted (s : State) (a b : Nat) (f : Group → Group) : (s.modGroup a b f).booted = s.booted := rfl
@[simp] theorem State.modGroup_recovery (s : State) (a b : Nat) (f : Group → Group) : (s.modGroup a b f).recovery = s.recovery := rfl
@[simp] theorem State.modGroup_agenda (s : State) (a b : Nat) (f : Group → Group) : (s.modGroup a b f).agenda = s.agenda := rfl
@[simp] theorem State.modGroup_focus (s : State) (a b : Nat) (f : Group → Group) : (s.modGroup a b f).focus = s.focus := rfl
@[simp] theorem State.modGroup_mem (s : State) (a b : Nat) (f : Group → Group) : (s.modGroup a b f).mem = s.mem := rfl
@[simp] theorem State.modGroup_poison (s : State) (a b : Nat) (f : Group → Group) : (s.modGroup a b f).poison = s.poison := rfl
@[simp] theorem State.modGroup_badCheck (s : State) (a b : Nat) (f : Group → Group) : (s.modGroup a b f).badCheck = s.badCheck := rfl
@[simp] theorem State.modGroup_l2 (s : State) (a b : Nat) (f : Group → Group) : (s.modGroup a b f).l2 = s.l2 := rfl
@[simp] theorem State.modGroup_mire (s : State) (a b : Nat) (f : Group → Group) : (s.modGroup a b f).mire = s.mire := rfl
@[simp] theorem State.modGroup_windowLines (s : State) (a b : Nat) (f : Group → Group) : (s.modGroup a b f).windowLines = s.windowLines := rfl
@[simp] theorem State.modGroup_reservations (s : State) (a b : Nat) (f : Group → Group) : (s.modGroup a b f).reservations = s.reservations := rfl
@[simp] theorem State.modGroup_monitors (s : State) (a b : Nat) (f : Group → Group) : (s.modGroup a b f).monitors = s.monitors := rfl
@[simp] theorem State.modGroup_heldWrites (s : State) (a b : Nat) (f : Group → Group) : (s.modGroup a b f).heldWrites = s.heldWrites := rfl
@[simp] theorem State.modGroup_secondPieces (s : State) (a b : Nat) (f : Group → Group) : (s.modGroup a b f).secondPieces = s.secondPieces := rfl
@[simp] theorem State.modGroup_halves (s : State) (a b : Nat) (f : Group → Group) : (s.modGroup a b f).halves = s.halves := rfl
@[simp] theorem State.modGroup_sys (s : State) (a b : Nat) (f : Group → Group) : (s.modGroup a b f).sys = s.sys := rfl
@[simp] theorem State.modGroup_patterns (s : State) (a b : Nat) (f : Group → Group) : (s.modGroup a b f).patterns = s.patterns := rfl
@[simp] theorem State.modGroup_collGroups (s : State) (a b : Nat) (f : Group → Group) : (s.modGroup a b f).collGroups = s.collGroups := rfl
@[simp] theorem State.modGroup_regions (s : State) (a b : Nat) (f : Group → Group) : (s.modGroup a b f).regions = s.regions := rfl
@[simp] theorem State.modGroup_dies (s : State) (a b : Nat) (f : Group → Group) : (s.modGroup a b f).dies = s.dies := rfl
@[simp] theorem State.modGroup_cores (s : State) (a b : Nat) (f : Group → Group) : (s.modGroup a b f).cores = s.cores := rfl
@[simp] theorem State.modGroup_nextTeam (s : State) (a b : Nat) (f : Group → Group) : (s.modGroup a b f).nextTeam = s.nextTeam := rfl
@[simp] theorem State.modGroup_commands (s : State) (a b : Nat) (f : Group → Group) : (s.modGroup a b f).commands = s.commands := rfl
@[simp] theorem State.modGroup_nextCommand (s : State) (a b : Nat) (f : Group → Group) : (s.modGroup a b f).nextCommand = s.nextCommand := rfl
@[simp] theorem State.modGroup_posts (s : State) (a b : Nat) (f : Group → Group) : (s.modGroup a b f).posts = s.posts := rfl
@[simp] theorem State.modGroup_xlates (s : State) (a b : Nat) (f : Group → Group) : (s.modGroup a b f).xlates = s.xlates := rfl
@[simp] theorem State.modGroup_bells (s : State) (a b : Nat) (f : Group → Group) : (s.modGroup a b f).bells = s.bells := rfl
@[simp] theorem State.modGroup_queues (s : State) (a b : Nat) (f : Group → Group) : (s.modGroup a b f).queues = s.queues := rfl
@[simp] theorem State.modGroup_slots (s : State) (a b : Nat) (f : Group → Group) : (s.modGroup a b f).slots = s.slots := rfl
@[simp] theorem State.modGroup_jobs (s : State) (a b : Nat) (f : Group → Group) : (s.modGroup a b f).jobs = s.jobs := rfl
@[simp] theorem State.modGroup_nextSeq (s : State) (a b : Nat) (f : Group → Group) : (s.modGroup a b f).nextSeq = s.nextSeq := rfl
@[simp] theorem State.modGroup_grids (s : State) (a b : Nat) (f : Group → Group) : (s.modGroup a b f).grids = s.grids := rfl
@[simp] theorem State.modGroup_nextGrid (s : State) (a b : Nat) (f : Group → Group) : (s.modGroup a b f).nextGrid = s.nextGrid := rfl
@[simp] theorem State.modGroup_graphs (s : State) (a b : Nat) (f : Group → Group) : (s.modGroup a b f).graphs = s.graphs := rfl
@[simp] theorem State.modGroup_saved (s : State) (a b : Nat) (f : Group → Group) : (s.modGroup a b f).saved = s.saved := rfl
@[simp] theorem State.modGroup_ports (s : State) (a b : Nat) (f : Group → Group) : (s.modGroup a b f).ports = s.ports := rfl
@[simp] theorem State.modGroup_peers (s : State) (a b : Nat) (f : Group → Group) : (s.modGroup a b f).peers = s.peers := rfl
@[simp] theorem State.modGroup_qps (s : State) (a b : Nat) (f : Group → Group) : (s.modGroup a b f).qps = s.qps := rfl
@[simp] theorem State.modGroup_tiles (s : State) (a b : Nat) (f : Group → Group) : (s.modGroup a b f).tiles = s.tiles := rfl
@[simp] theorem State.modGroup_watches (s : State) (a b : Nat) (f : Group → Group) : (s.modGroup a b f).watches = s.watches := rfl
@[simp] theorem State.modGroup_out (s : State) (a b : Nat) (f : Group → Group) : (s.modGroup a b f).out = s.out := rfl

/-! ### State.modGroups -/

@[simp] theorem State.modGroups_tick (s : State) (a : Nat) (f : Group → Group) : (s.modGroups a f).tick = s.tick := rfl
@[simp] theorem State.modGroups_time (s : State) (a : Nat) (f : Group → Group) : (s.modGroups a f).time = s.time := rfl
@[simp] theorem State.modGroups_slew (s : State) (a : Nat) (f : Group → Group) : (s.modGroups a f).slew = s.slew := rfl
@[simp] theorem State.modGroups_locked (s : State) (a : Nat) (f : Group → Group) : (s.modGroups a f).locked = s.locked := rfl
@[simp] theorem State.modGroups_exchange (s : State) (a : Nat) (f : Group → Group) : (s.modGroups a f).exchange = s.exchange := rfl
@[simp] theorem State.modGroups_disciplined (s : State) (a : Nat) (f : Group → Group) : (s.modGroups a f).disciplined = s.disciplined := rfl
@[simp] theorem State.modGroups_vlanData (s : State) (a : Nat) (f : Group → Group) : (s.modGroups a f).vlanData = s.vlanData := rfl
@[simp] theorem State.modGroups_vlanMgmt (s : State) (a : Nat) (f : Group → Group) : (s.modGroups a f).vlanMgmt = s.vlanMgmt := rfl
@[simp] theorem State.modGroups_booted (s : State) (a : Nat) (f : Group → Group) : (s.modGroups a f).booted = s.booted := rfl
@[simp] theorem State.modGroups_recovery (s : State) (a : Nat) (f : Group → Group) : (s.modGroups a f).recovery = s.recovery := rfl
@[simp] theorem State.modGroups_agenda (s : State) (a : Nat) (f : Group → Group) : (s.modGroups a f).agenda = s.agenda := rfl
@[simp] theorem State.modGroups_focus (s : State) (a : Nat) (f : Group → Group) : (s.modGroups a f).focus = s.focus := rfl
@[simp] theorem State.modGroups_mem (s : State) (a : Nat) (f : Group → Group) : (s.modGroups a f).mem = s.mem := rfl
@[simp] theorem State.modGroups_poison (s : State) (a : Nat) (f : Group → Group) : (s.modGroups a f).poison = s.poison := rfl
@[simp] theorem State.modGroups_badCheck (s : State) (a : Nat) (f : Group → Group) : (s.modGroups a f).badCheck = s.badCheck := rfl
@[simp] theorem State.modGroups_l2 (s : State) (a : Nat) (f : Group → Group) : (s.modGroups a f).l2 = s.l2 := rfl
@[simp] theorem State.modGroups_mire (s : State) (a : Nat) (f : Group → Group) : (s.modGroups a f).mire = s.mire := rfl
@[simp] theorem State.modGroups_windowLines (s : State) (a : Nat) (f : Group → Group) : (s.modGroups a f).windowLines = s.windowLines := rfl
@[simp] theorem State.modGroups_reservations (s : State) (a : Nat) (f : Group → Group) : (s.modGroups a f).reservations = s.reservations := rfl
@[simp] theorem State.modGroups_monitors (s : State) (a : Nat) (f : Group → Group) : (s.modGroups a f).monitors = s.monitors := rfl
@[simp] theorem State.modGroups_heldWrites (s : State) (a : Nat) (f : Group → Group) : (s.modGroups a f).heldWrites = s.heldWrites := rfl
@[simp] theorem State.modGroups_secondPieces (s : State) (a : Nat) (f : Group → Group) : (s.modGroups a f).secondPieces = s.secondPieces := rfl
@[simp] theorem State.modGroups_halves (s : State) (a : Nat) (f : Group → Group) : (s.modGroups a f).halves = s.halves := rfl
@[simp] theorem State.modGroups_sys (s : State) (a : Nat) (f : Group → Group) : (s.modGroups a f).sys = s.sys := rfl
@[simp] theorem State.modGroups_patterns (s : State) (a : Nat) (f : Group → Group) : (s.modGroups a f).patterns = s.patterns := rfl
@[simp] theorem State.modGroups_collGroups (s : State) (a : Nat) (f : Group → Group) : (s.modGroups a f).collGroups = s.collGroups := rfl
@[simp] theorem State.modGroups_regions (s : State) (a : Nat) (f : Group → Group) : (s.modGroups a f).regions = s.regions := rfl
@[simp] theorem State.modGroups_dies (s : State) (a : Nat) (f : Group → Group) : (s.modGroups a f).dies = s.dies := rfl
@[simp] theorem State.modGroups_cores (s : State) (a : Nat) (f : Group → Group) : (s.modGroups a f).cores = s.cores := rfl
@[simp] theorem State.modGroups_nextTeam (s : State) (a : Nat) (f : Group → Group) : (s.modGroups a f).nextTeam = s.nextTeam := rfl
@[simp] theorem State.modGroups_commands (s : State) (a : Nat) (f : Group → Group) : (s.modGroups a f).commands = s.commands := rfl
@[simp] theorem State.modGroups_nextCommand (s : State) (a : Nat) (f : Group → Group) : (s.modGroups a f).nextCommand = s.nextCommand := rfl
@[simp] theorem State.modGroups_posts (s : State) (a : Nat) (f : Group → Group) : (s.modGroups a f).posts = s.posts := rfl
@[simp] theorem State.modGroups_xlates (s : State) (a : Nat) (f : Group → Group) : (s.modGroups a f).xlates = s.xlates := rfl
@[simp] theorem State.modGroups_bells (s : State) (a : Nat) (f : Group → Group) : (s.modGroups a f).bells = s.bells := rfl
@[simp] theorem State.modGroups_queues (s : State) (a : Nat) (f : Group → Group) : (s.modGroups a f).queues = s.queues := rfl
@[simp] theorem State.modGroups_slots (s : State) (a : Nat) (f : Group → Group) : (s.modGroups a f).slots = s.slots := rfl
@[simp] theorem State.modGroups_jobs (s : State) (a : Nat) (f : Group → Group) : (s.modGroups a f).jobs = s.jobs := rfl
@[simp] theorem State.modGroups_nextSeq (s : State) (a : Nat) (f : Group → Group) : (s.modGroups a f).nextSeq = s.nextSeq := rfl
@[simp] theorem State.modGroups_grids (s : State) (a : Nat) (f : Group → Group) : (s.modGroups a f).grids = s.grids := rfl
@[simp] theorem State.modGroups_nextGrid (s : State) (a : Nat) (f : Group → Group) : (s.modGroups a f).nextGrid = s.nextGrid := rfl
@[simp] theorem State.modGroups_graphs (s : State) (a : Nat) (f : Group → Group) : (s.modGroups a f).graphs = s.graphs := rfl
@[simp] theorem State.modGroups_saved (s : State) (a : Nat) (f : Group → Group) : (s.modGroups a f).saved = s.saved := rfl
@[simp] theorem State.modGroups_ports (s : State) (a : Nat) (f : Group → Group) : (s.modGroups a f).ports = s.ports := rfl
@[simp] theorem State.modGroups_peers (s : State) (a : Nat) (f : Group → Group) : (s.modGroups a f).peers = s.peers := rfl
@[simp] theorem State.modGroups_qps (s : State) (a : Nat) (f : Group → Group) : (s.modGroups a f).qps = s.qps := rfl
@[simp] theorem State.modGroups_tiles (s : State) (a : Nat) (f : Group → Group) : (s.modGroups a f).tiles = s.tiles := rfl
@[simp] theorem State.modGroups_watches (s : State) (a : Nat) (f : Group → Group) : (s.modGroups a f).watches = s.watches := rfl
@[simp] theorem State.modGroups_out (s : State) (a : Nat) (f : Group → Group) : (s.modGroups a f).out = s.out := rfl

/-! ### State.modSplit -/

@[simp] theorem State.modSplit_tick (s : State) (w : Who) (f : Split → Split) : (s.modSplit w f).tick = s.tick := rfl
@[simp] theorem State.modSplit_time (s : State) (w : Who) (f : Split → Split) : (s.modSplit w f).time = s.time := rfl
@[simp] theorem State.modSplit_slew (s : State) (w : Who) (f : Split → Split) : (s.modSplit w f).slew = s.slew := rfl
@[simp] theorem State.modSplit_locked (s : State) (w : Who) (f : Split → Split) : (s.modSplit w f).locked = s.locked := rfl
@[simp] theorem State.modSplit_exchange (s : State) (w : Who) (f : Split → Split) : (s.modSplit w f).exchange = s.exchange := rfl
@[simp] theorem State.modSplit_disciplined (s : State) (w : Who) (f : Split → Split) : (s.modSplit w f).disciplined = s.disciplined := rfl
@[simp] theorem State.modSplit_vlanData (s : State) (w : Who) (f : Split → Split) : (s.modSplit w f).vlanData = s.vlanData := rfl
@[simp] theorem State.modSplit_vlanMgmt (s : State) (w : Who) (f : Split → Split) : (s.modSplit w f).vlanMgmt = s.vlanMgmt := rfl
@[simp] theorem State.modSplit_booted (s : State) (w : Who) (f : Split → Split) : (s.modSplit w f).booted = s.booted := rfl
@[simp] theorem State.modSplit_recovery (s : State) (w : Who) (f : Split → Split) : (s.modSplit w f).recovery = s.recovery := rfl
@[simp] theorem State.modSplit_agenda (s : State) (w : Who) (f : Split → Split) : (s.modSplit w f).agenda = s.agenda := rfl
@[simp] theorem State.modSplit_focus (s : State) (w : Who) (f : Split → Split) : (s.modSplit w f).focus = s.focus := rfl
@[simp] theorem State.modSplit_mem (s : State) (w : Who) (f : Split → Split) : (s.modSplit w f).mem = s.mem := rfl
@[simp] theorem State.modSplit_poison (s : State) (w : Who) (f : Split → Split) : (s.modSplit w f).poison = s.poison := rfl
@[simp] theorem State.modSplit_badCheck (s : State) (w : Who) (f : Split → Split) : (s.modSplit w f).badCheck = s.badCheck := rfl
@[simp] theorem State.modSplit_l2 (s : State) (w : Who) (f : Split → Split) : (s.modSplit w f).l2 = s.l2 := rfl
@[simp] theorem State.modSplit_mire (s : State) (w : Who) (f : Split → Split) : (s.modSplit w f).mire = s.mire := rfl
@[simp] theorem State.modSplit_windowLines (s : State) (w : Who) (f : Split → Split) : (s.modSplit w f).windowLines = s.windowLines := rfl
@[simp] theorem State.modSplit_reservations (s : State) (w : Who) (f : Split → Split) : (s.modSplit w f).reservations = s.reservations := rfl
@[simp] theorem State.modSplit_monitors (s : State) (w : Who) (f : Split → Split) : (s.modSplit w f).monitors = s.monitors := rfl
@[simp] theorem State.modSplit_heldWrites (s : State) (w : Who) (f : Split → Split) : (s.modSplit w f).heldWrites = s.heldWrites := rfl
@[simp] theorem State.modSplit_secondPieces (s : State) (w : Who) (f : Split → Split) : (s.modSplit w f).secondPieces = s.secondPieces := rfl
@[simp] theorem State.modSplit_halves (s : State) (w : Who) (f : Split → Split) : (s.modSplit w f).halves = s.halves := rfl
@[simp] theorem State.modSplit_sys (s : State) (w : Who) (f : Split → Split) : (s.modSplit w f).sys = s.sys := rfl
@[simp] theorem State.modSplit_patterns (s : State) (w : Who) (f : Split → Split) : (s.modSplit w f).patterns = s.patterns := rfl
@[simp] theorem State.modSplit_collGroups (s : State) (w : Who) (f : Split → Split) : (s.modSplit w f).collGroups = s.collGroups := rfl
@[simp] theorem State.modSplit_regions (s : State) (w : Who) (f : Split → Split) : (s.modSplit w f).regions = s.regions := rfl
@[simp] theorem State.modSplit_dies (s : State) (w : Who) (f : Split → Split) : (s.modSplit w f).dies = s.dies := rfl
@[simp] theorem State.modSplit_cores (s : State) (w : Who) (f : Split → Split) : (s.modSplit w f).cores = s.cores := rfl
@[simp] theorem State.modSplit_nextTeam (s : State) (w : Who) (f : Split → Split) : (s.modSplit w f).nextTeam = s.nextTeam := rfl
@[simp] theorem State.modSplit_commands (s : State) (w : Who) (f : Split → Split) : (s.modSplit w f).commands = s.commands := rfl
@[simp] theorem State.modSplit_nextCommand (s : State) (w : Who) (f : Split → Split) : (s.modSplit w f).nextCommand = s.nextCommand := rfl
@[simp] theorem State.modSplit_posts (s : State) (w : Who) (f : Split → Split) : (s.modSplit w f).posts = s.posts := rfl
@[simp] theorem State.modSplit_xlates (s : State) (w : Who) (f : Split → Split) : (s.modSplit w f).xlates = s.xlates := rfl
@[simp] theorem State.modSplit_bells (s : State) (w : Who) (f : Split → Split) : (s.modSplit w f).bells = s.bells := rfl
@[simp] theorem State.modSplit_queues (s : State) (w : Who) (f : Split → Split) : (s.modSplit w f).queues = s.queues := rfl
@[simp] theorem State.modSplit_slots (s : State) (w : Who) (f : Split → Split) : (s.modSplit w f).slots = s.slots := rfl
@[simp] theorem State.modSplit_jobs (s : State) (w : Who) (f : Split → Split) : (s.modSplit w f).jobs = s.jobs := rfl
@[simp] theorem State.modSplit_nextSeq (s : State) (w : Who) (f : Split → Split) : (s.modSplit w f).nextSeq = s.nextSeq := rfl
@[simp] theorem State.modSplit_grids (s : State) (w : Who) (f : Split → Split) : (s.modSplit w f).grids = s.grids := rfl
@[simp] theorem State.modSplit_nextGrid (s : State) (w : Who) (f : Split → Split) : (s.modSplit w f).nextGrid = s.nextGrid := rfl
@[simp] theorem State.modSplit_graphs (s : State) (w : Who) (f : Split → Split) : (s.modSplit w f).graphs = s.graphs := rfl
@[simp] theorem State.modSplit_saved (s : State) (w : Who) (f : Split → Split) : (s.modSplit w f).saved = s.saved := rfl
@[simp] theorem State.modSplit_ports (s : State) (w : Who) (f : Split → Split) : (s.modSplit w f).ports = s.ports := rfl
@[simp] theorem State.modSplit_peers (s : State) (w : Who) (f : Split → Split) : (s.modSplit w f).peers = s.peers := rfl
@[simp] theorem State.modSplit_qps (s : State) (w : Who) (f : Split → Split) : (s.modSplit w f).qps = s.qps := rfl
@[simp] theorem State.modSplit_tiles (s : State) (w : Who) (f : Split → Split) : (s.modSplit w f).tiles = s.tiles := rfl
@[simp] theorem State.modSplit_watches (s : State) (w : Who) (f : Split → Split) : (s.modSplit w f).watches = s.watches := rfl
@[simp] theorem State.modSplit_out (s : State) (w : Who) (f : Split → Split) : (s.modSplit w f).out = s.out := rfl

/-! ### State.advance -/

@[simp] theorem State.advance_tick (s : State) (w : Who) : (s.advance w).tick = s.tick := rfl
@[simp] theorem State.advance_time (s : State) (w : Who) : (s.advance w).time = s.time := rfl
@[simp] theorem State.advance_slew (s : State) (w : Who) : (s.advance w).slew = s.slew := rfl
@[simp] theorem State.advance_locked (s : State) (w : Who) : (s.advance w).locked = s.locked := rfl
@[simp] theorem State.advance_exchange (s : State) (w : Who) : (s.advance w).exchange = s.exchange := rfl
@[simp] theorem State.advance_disciplined (s : State) (w : Who) : (s.advance w).disciplined = s.disciplined := rfl
@[simp] theorem State.advance_vlanData (s : State) (w : Who) : (s.advance w).vlanData = s.vlanData := rfl
@[simp] theorem State.advance_vlanMgmt (s : State) (w : Who) : (s.advance w).vlanMgmt = s.vlanMgmt := rfl
@[simp] theorem State.advance_booted (s : State) (w : Who) : (s.advance w).booted = s.booted := rfl
@[simp] theorem State.advance_recovery (s : State) (w : Who) : (s.advance w).recovery = s.recovery := rfl
@[simp] theorem State.advance_agenda (s : State) (w : Who) : (s.advance w).agenda = s.agenda := rfl
@[simp] theorem State.advance_focus (s : State) (w : Who) : (s.advance w).focus = s.focus := rfl
@[simp] theorem State.advance_mem (s : State) (w : Who) : (s.advance w).mem = s.mem := rfl
@[simp] theorem State.advance_poison (s : State) (w : Who) : (s.advance w).poison = s.poison := rfl
@[simp] theorem State.advance_badCheck (s : State) (w : Who) : (s.advance w).badCheck = s.badCheck := rfl
@[simp] theorem State.advance_l2 (s : State) (w : Who) : (s.advance w).l2 = s.l2 := rfl
@[simp] theorem State.advance_mire (s : State) (w : Who) : (s.advance w).mire = s.mire := rfl
@[simp] theorem State.advance_windowLines (s : State) (w : Who) : (s.advance w).windowLines = s.windowLines := rfl
@[simp] theorem State.advance_reservations (s : State) (w : Who) : (s.advance w).reservations = s.reservations := rfl
@[simp] theorem State.advance_monitors (s : State) (w : Who) : (s.advance w).monitors = s.monitors := rfl
@[simp] theorem State.advance_heldWrites (s : State) (w : Who) : (s.advance w).heldWrites = s.heldWrites := rfl
@[simp] theorem State.advance_secondPieces (s : State) (w : Who) : (s.advance w).secondPieces = s.secondPieces := rfl
@[simp] theorem State.advance_halves (s : State) (w : Who) : (s.advance w).halves = s.halves := rfl
@[simp] theorem State.advance_sys (s : State) (w : Who) : (s.advance w).sys = s.sys := rfl
@[simp] theorem State.advance_patterns (s : State) (w : Who) : (s.advance w).patterns = s.patterns := rfl
@[simp] theorem State.advance_collGroups (s : State) (w : Who) : (s.advance w).collGroups = s.collGroups := rfl
@[simp] theorem State.advance_regions (s : State) (w : Who) : (s.advance w).regions = s.regions := rfl
@[simp] theorem State.advance_dies (s : State) (w : Who) : (s.advance w).dies = s.dies := rfl
@[simp] theorem State.advance_cores (s : State) (w : Who) : (s.advance w).cores = s.cores := rfl
@[simp] theorem State.advance_nextTeam (s : State) (w : Who) : (s.advance w).nextTeam = s.nextTeam := rfl
@[simp] theorem State.advance_commands (s : State) (w : Who) : (s.advance w).commands = s.commands := rfl
@[simp] theorem State.advance_nextCommand (s : State) (w : Who) : (s.advance w).nextCommand = s.nextCommand := rfl
@[simp] theorem State.advance_posts (s : State) (w : Who) : (s.advance w).posts = s.posts := rfl
@[simp] theorem State.advance_xlates (s : State) (w : Who) : (s.advance w).xlates = s.xlates := rfl
@[simp] theorem State.advance_bells (s : State) (w : Who) : (s.advance w).bells = s.bells := rfl
@[simp] theorem State.advance_queues (s : State) (w : Who) : (s.advance w).queues = s.queues := rfl
@[simp] theorem State.advance_slots (s : State) (w : Who) : (s.advance w).slots = s.slots := rfl
@[simp] theorem State.advance_jobs (s : State) (w : Who) : (s.advance w).jobs = s.jobs := rfl
@[simp] theorem State.advance_nextSeq (s : State) (w : Who) : (s.advance w).nextSeq = s.nextSeq := rfl
@[simp] theorem State.advance_grids (s : State) (w : Who) : (s.advance w).grids = s.grids := rfl
@[simp] theorem State.advance_nextGrid (s : State) (w : Who) : (s.advance w).nextGrid = s.nextGrid := rfl
@[simp] theorem State.advance_graphs (s : State) (w : Who) : (s.advance w).graphs = s.graphs := rfl
@[simp] theorem State.advance_saved (s : State) (w : Who) : (s.advance w).saved = s.saved := rfl
@[simp] theorem State.advance_ports (s : State) (w : Who) : (s.advance w).ports = s.ports := rfl
@[simp] theorem State.advance_peers (s : State) (w : Who) : (s.advance w).peers = s.peers := rfl
@[simp] theorem State.advance_qps (s : State) (w : Who) : (s.advance w).qps = s.qps := rfl
@[simp] theorem State.advance_tiles (s : State) (w : Who) : (s.advance w).tiles = s.tiles := rfl
@[simp] theorem State.advance_watches (s : State) (w : Who) : (s.advance w).watches = s.watches := rfl
@[simp] theorem State.advance_out (s : State) (w : Who) : (s.advance w).out = s.out := rfl

/-! ### State.goto -/

@[simp] theorem State.goto_tick (s : State) (w : Who) (pc : Nat) : (s.goto w pc).tick = s.tick := rfl
@[simp] theorem State.goto_time (s : State) (w : Who) (pc : Nat) : (s.goto w pc).time = s.time := rfl
@[simp] theorem State.goto_slew (s : State) (w : Who) (pc : Nat) : (s.goto w pc).slew = s.slew := rfl
@[simp] theorem State.goto_locked (s : State) (w : Who) (pc : Nat) : (s.goto w pc).locked = s.locked := rfl
@[simp] theorem State.goto_exchange (s : State) (w : Who) (pc : Nat) : (s.goto w pc).exchange = s.exchange := rfl
@[simp] theorem State.goto_disciplined (s : State) (w : Who) (pc : Nat) : (s.goto w pc).disciplined = s.disciplined := rfl
@[simp] theorem State.goto_vlanData (s : State) (w : Who) (pc : Nat) : (s.goto w pc).vlanData = s.vlanData := rfl
@[simp] theorem State.goto_vlanMgmt (s : State) (w : Who) (pc : Nat) : (s.goto w pc).vlanMgmt = s.vlanMgmt := rfl
@[simp] theorem State.goto_booted (s : State) (w : Who) (pc : Nat) : (s.goto w pc).booted = s.booted := rfl
@[simp] theorem State.goto_recovery (s : State) (w : Who) (pc : Nat) : (s.goto w pc).recovery = s.recovery := rfl
@[simp] theorem State.goto_agenda (s : State) (w : Who) (pc : Nat) : (s.goto w pc).agenda = s.agenda := rfl
@[simp] theorem State.goto_focus (s : State) (w : Who) (pc : Nat) : (s.goto w pc).focus = s.focus := rfl
@[simp] theorem State.goto_mem (s : State) (w : Who) (pc : Nat) : (s.goto w pc).mem = s.mem := rfl
@[simp] theorem State.goto_poison (s : State) (w : Who) (pc : Nat) : (s.goto w pc).poison = s.poison := rfl
@[simp] theorem State.goto_badCheck (s : State) (w : Who) (pc : Nat) : (s.goto w pc).badCheck = s.badCheck := rfl
@[simp] theorem State.goto_l2 (s : State) (w : Who) (pc : Nat) : (s.goto w pc).l2 = s.l2 := rfl
@[simp] theorem State.goto_mire (s : State) (w : Who) (pc : Nat) : (s.goto w pc).mire = s.mire := rfl
@[simp] theorem State.goto_windowLines (s : State) (w : Who) (pc : Nat) : (s.goto w pc).windowLines = s.windowLines := rfl
@[simp] theorem State.goto_reservations (s : State) (w : Who) (pc : Nat) : (s.goto w pc).reservations = s.reservations := rfl
@[simp] theorem State.goto_monitors (s : State) (w : Who) (pc : Nat) : (s.goto w pc).monitors = s.monitors := rfl
@[simp] theorem State.goto_heldWrites (s : State) (w : Who) (pc : Nat) : (s.goto w pc).heldWrites = s.heldWrites := rfl
@[simp] theorem State.goto_secondPieces (s : State) (w : Who) (pc : Nat) : (s.goto w pc).secondPieces = s.secondPieces := rfl
@[simp] theorem State.goto_halves (s : State) (w : Who) (pc : Nat) : (s.goto w pc).halves = s.halves := rfl
@[simp] theorem State.goto_sys (s : State) (w : Who) (pc : Nat) : (s.goto w pc).sys = s.sys := rfl
@[simp] theorem State.goto_patterns (s : State) (w : Who) (pc : Nat) : (s.goto w pc).patterns = s.patterns := rfl
@[simp] theorem State.goto_collGroups (s : State) (w : Who) (pc : Nat) : (s.goto w pc).collGroups = s.collGroups := rfl
@[simp] theorem State.goto_regions (s : State) (w : Who) (pc : Nat) : (s.goto w pc).regions = s.regions := rfl
@[simp] theorem State.goto_dies (s : State) (w : Who) (pc : Nat) : (s.goto w pc).dies = s.dies := rfl
@[simp] theorem State.goto_cores (s : State) (w : Who) (pc : Nat) : (s.goto w pc).cores = s.cores := rfl
@[simp] theorem State.goto_nextTeam (s : State) (w : Who) (pc : Nat) : (s.goto w pc).nextTeam = s.nextTeam := rfl
@[simp] theorem State.goto_commands (s : State) (w : Who) (pc : Nat) : (s.goto w pc).commands = s.commands := rfl
@[simp] theorem State.goto_nextCommand (s : State) (w : Who) (pc : Nat) : (s.goto w pc).nextCommand = s.nextCommand := rfl
@[simp] theorem State.goto_posts (s : State) (w : Who) (pc : Nat) : (s.goto w pc).posts = s.posts := rfl
@[simp] theorem State.goto_xlates (s : State) (w : Who) (pc : Nat) : (s.goto w pc).xlates = s.xlates := rfl
@[simp] theorem State.goto_bells (s : State) (w : Who) (pc : Nat) : (s.goto w pc).bells = s.bells := rfl
@[simp] theorem State.goto_queues (s : State) (w : Who) (pc : Nat) : (s.goto w pc).queues = s.queues := rfl
@[simp] theorem State.goto_slots (s : State) (w : Who) (pc : Nat) : (s.goto w pc).slots = s.slots := rfl
@[simp] theorem State.goto_jobs (s : State) (w : Who) (pc : Nat) : (s.goto w pc).jobs = s.jobs := rfl
@[simp] theorem State.goto_nextSeq (s : State) (w : Who) (pc : Nat) : (s.goto w pc).nextSeq = s.nextSeq := rfl
@[simp] theorem State.goto_grids (s : State) (w : Who) (pc : Nat) : (s.goto w pc).grids = s.grids := rfl
@[simp] theorem State.goto_nextGrid (s : State) (w : Who) (pc : Nat) : (s.goto w pc).nextGrid = s.nextGrid := rfl
@[simp] theorem State.goto_graphs (s : State) (w : Who) (pc : Nat) : (s.goto w pc).graphs = s.graphs := rfl
@[simp] theorem State.goto_saved (s : State) (w : Who) (pc : Nat) : (s.goto w pc).saved = s.saved := rfl
@[simp] theorem State.goto_ports (s : State) (w : Who) (pc : Nat) : (s.goto w pc).ports = s.ports := rfl
@[simp] theorem State.goto_peers (s : State) (w : Who) (pc : Nat) : (s.goto w pc).peers = s.peers := rfl
@[simp] theorem State.goto_qps (s : State) (w : Who) (pc : Nat) : (s.goto w pc).qps = s.qps := rfl
@[simp] theorem State.goto_tiles (s : State) (w : Who) (pc : Nat) : (s.goto w pc).tiles = s.tiles := rfl
@[simp] theorem State.goto_watches (s : State) (w : Who) (pc : Nat) : (s.goto w pc).watches = s.watches := rfl
@[simp] theorem State.goto_out (s : State) (w : Who) (pc : Nat) : (s.goto w pc).out = s.out := rfl

/-! ### State.block -/

@[simp] theorem State.block_tick (s : State) (w : Who) (x : Wait) : (s.block w x).tick = s.tick := rfl
@[simp] theorem State.block_time (s : State) (w : Who) (x : Wait) : (s.block w x).time = s.time := rfl
@[simp] theorem State.block_slew (s : State) (w : Who) (x : Wait) : (s.block w x).slew = s.slew := rfl
@[simp] theorem State.block_locked (s : State) (w : Who) (x : Wait) : (s.block w x).locked = s.locked := rfl
@[simp] theorem State.block_exchange (s : State) (w : Who) (x : Wait) : (s.block w x).exchange = s.exchange := rfl
@[simp] theorem State.block_disciplined (s : State) (w : Who) (x : Wait) : (s.block w x).disciplined = s.disciplined := rfl
@[simp] theorem State.block_vlanData (s : State) (w : Who) (x : Wait) : (s.block w x).vlanData = s.vlanData := rfl
@[simp] theorem State.block_vlanMgmt (s : State) (w : Who) (x : Wait) : (s.block w x).vlanMgmt = s.vlanMgmt := rfl
@[simp] theorem State.block_booted (s : State) (w : Who) (x : Wait) : (s.block w x).booted = s.booted := rfl
@[simp] theorem State.block_recovery (s : State) (w : Who) (x : Wait) : (s.block w x).recovery = s.recovery := rfl
@[simp] theorem State.block_agenda (s : State) (w : Who) (x : Wait) : (s.block w x).agenda = s.agenda := rfl
@[simp] theorem State.block_focus (s : State) (w : Who) (x : Wait) : (s.block w x).focus = s.focus := rfl
@[simp] theorem State.block_mem (s : State) (w : Who) (x : Wait) : (s.block w x).mem = s.mem := rfl
@[simp] theorem State.block_poison (s : State) (w : Who) (x : Wait) : (s.block w x).poison = s.poison := rfl
@[simp] theorem State.block_badCheck (s : State) (w : Who) (x : Wait) : (s.block w x).badCheck = s.badCheck := rfl
@[simp] theorem State.block_l2 (s : State) (w : Who) (x : Wait) : (s.block w x).l2 = s.l2 := rfl
@[simp] theorem State.block_mire (s : State) (w : Who) (x : Wait) : (s.block w x).mire = s.mire := rfl
@[simp] theorem State.block_windowLines (s : State) (w : Who) (x : Wait) : (s.block w x).windowLines = s.windowLines := rfl
@[simp] theorem State.block_reservations (s : State) (w : Who) (x : Wait) : (s.block w x).reservations = s.reservations := rfl
@[simp] theorem State.block_monitors (s : State) (w : Who) (x : Wait) : (s.block w x).monitors = s.monitors := rfl
@[simp] theorem State.block_heldWrites (s : State) (w : Who) (x : Wait) : (s.block w x).heldWrites = s.heldWrites := rfl
@[simp] theorem State.block_secondPieces (s : State) (w : Who) (x : Wait) : (s.block w x).secondPieces = s.secondPieces := rfl
@[simp] theorem State.block_halves (s : State) (w : Who) (x : Wait) : (s.block w x).halves = s.halves := rfl
@[simp] theorem State.block_sys (s : State) (w : Who) (x : Wait) : (s.block w x).sys = s.sys := rfl
@[simp] theorem State.block_patterns (s : State) (w : Who) (x : Wait) : (s.block w x).patterns = s.patterns := rfl
@[simp] theorem State.block_collGroups (s : State) (w : Who) (x : Wait) : (s.block w x).collGroups = s.collGroups := rfl
@[simp] theorem State.block_regions (s : State) (w : Who) (x : Wait) : (s.block w x).regions = s.regions := rfl
@[simp] theorem State.block_dies (s : State) (w : Who) (x : Wait) : (s.block w x).dies = s.dies := rfl
@[simp] theorem State.block_cores (s : State) (w : Who) (x : Wait) : (s.block w x).cores = s.cores := rfl
@[simp] theorem State.block_nextTeam (s : State) (w : Who) (x : Wait) : (s.block w x).nextTeam = s.nextTeam := rfl
@[simp] theorem State.block_commands (s : State) (w : Who) (x : Wait) : (s.block w x).commands = s.commands := rfl
@[simp] theorem State.block_nextCommand (s : State) (w : Who) (x : Wait) : (s.block w x).nextCommand = s.nextCommand := rfl
@[simp] theorem State.block_posts (s : State) (w : Who) (x : Wait) : (s.block w x).posts = s.posts := rfl
@[simp] theorem State.block_xlates (s : State) (w : Who) (x : Wait) : (s.block w x).xlates = s.xlates := rfl
@[simp] theorem State.block_bells (s : State) (w : Who) (x : Wait) : (s.block w x).bells = s.bells := rfl
@[simp] theorem State.block_queues (s : State) (w : Who) (x : Wait) : (s.block w x).queues = s.queues := rfl
@[simp] theorem State.block_slots (s : State) (w : Who) (x : Wait) : (s.block w x).slots = s.slots := rfl
@[simp] theorem State.block_jobs (s : State) (w : Who) (x : Wait) : (s.block w x).jobs = s.jobs := rfl
@[simp] theorem State.block_nextSeq (s : State) (w : Who) (x : Wait) : (s.block w x).nextSeq = s.nextSeq := rfl
@[simp] theorem State.block_grids (s : State) (w : Who) (x : Wait) : (s.block w x).grids = s.grids := rfl
@[simp] theorem State.block_nextGrid (s : State) (w : Who) (x : Wait) : (s.block w x).nextGrid = s.nextGrid := rfl
@[simp] theorem State.block_graphs (s : State) (w : Who) (x : Wait) : (s.block w x).graphs = s.graphs := rfl
@[simp] theorem State.block_saved (s : State) (w : Who) (x : Wait) : (s.block w x).saved = s.saved := rfl
@[simp] theorem State.block_ports (s : State) (w : Who) (x : Wait) : (s.block w x).ports = s.ports := rfl
@[simp] theorem State.block_peers (s : State) (w : Who) (x : Wait) : (s.block w x).peers = s.peers := rfl
@[simp] theorem State.block_qps (s : State) (w : Who) (x : Wait) : (s.block w x).qps = s.qps := rfl
@[simp] theorem State.block_tiles (s : State) (w : Who) (x : Wait) : (s.block w x).tiles = s.tiles := rfl
@[simp] theorem State.block_watches (s : State) (w : Who) (x : Wait) : (s.block w x).watches = s.watches := rfl
@[simp] theorem State.block_out (s : State) (w : Who) (x : Wait) : (s.block w x).out = s.out := rfl

/-! ### State.setCore -/

@[simp] theorem State.setCore_tick (s : State) (c : Nat) (x : Core) : (s.setCore c x).tick = s.tick := rfl
@[simp] theorem State.setCore_time (s : State) (c : Nat) (x : Core) : (s.setCore c x).time = s.time := rfl
@[simp] theorem State.setCore_slew (s : State) (c : Nat) (x : Core) : (s.setCore c x).slew = s.slew := rfl
@[simp] theorem State.setCore_locked (s : State) (c : Nat) (x : Core) : (s.setCore c x).locked = s.locked := rfl
@[simp] theorem State.setCore_exchange (s : State) (c : Nat) (x : Core) : (s.setCore c x).exchange = s.exchange := rfl
@[simp] theorem State.setCore_disciplined (s : State) (c : Nat) (x : Core) : (s.setCore c x).disciplined = s.disciplined := rfl
@[simp] theorem State.setCore_vlanData (s : State) (c : Nat) (x : Core) : (s.setCore c x).vlanData = s.vlanData := rfl
@[simp] theorem State.setCore_vlanMgmt (s : State) (c : Nat) (x : Core) : (s.setCore c x).vlanMgmt = s.vlanMgmt := rfl
@[simp] theorem State.setCore_booted (s : State) (c : Nat) (x : Core) : (s.setCore c x).booted = s.booted := rfl
@[simp] theorem State.setCore_recovery (s : State) (c : Nat) (x : Core) : (s.setCore c x).recovery = s.recovery := rfl
@[simp] theorem State.setCore_agenda (s : State) (c : Nat) (x : Core) : (s.setCore c x).agenda = s.agenda := rfl
@[simp] theorem State.setCore_focus (s : State) (c : Nat) (x : Core) : (s.setCore c x).focus = s.focus := rfl
@[simp] theorem State.setCore_mem (s : State) (c : Nat) (x : Core) : (s.setCore c x).mem = s.mem := rfl
@[simp] theorem State.setCore_poison (s : State) (c : Nat) (x : Core) : (s.setCore c x).poison = s.poison := rfl
@[simp] theorem State.setCore_badCheck (s : State) (c : Nat) (x : Core) : (s.setCore c x).badCheck = s.badCheck := rfl
@[simp] theorem State.setCore_l2 (s : State) (c : Nat) (x : Core) : (s.setCore c x).l2 = s.l2 := rfl
@[simp] theorem State.setCore_mire (s : State) (c : Nat) (x : Core) : (s.setCore c x).mire = s.mire := rfl
@[simp] theorem State.setCore_windowLines (s : State) (c : Nat) (x : Core) : (s.setCore c x).windowLines = s.windowLines := rfl
@[simp] theorem State.setCore_reservations (s : State) (c : Nat) (x : Core) : (s.setCore c x).reservations = s.reservations := rfl
@[simp] theorem State.setCore_monitors (s : State) (c : Nat) (x : Core) : (s.setCore c x).monitors = s.monitors := rfl
@[simp] theorem State.setCore_heldWrites (s : State) (c : Nat) (x : Core) : (s.setCore c x).heldWrites = s.heldWrites := rfl
@[simp] theorem State.setCore_secondPieces (s : State) (c : Nat) (x : Core) : (s.setCore c x).secondPieces = s.secondPieces := rfl
@[simp] theorem State.setCore_halves (s : State) (c : Nat) (x : Core) : (s.setCore c x).halves = s.halves := rfl
@[simp] theorem State.setCore_sys (s : State) (c : Nat) (x : Core) : (s.setCore c x).sys = s.sys := rfl
@[simp] theorem State.setCore_patterns (s : State) (c : Nat) (x : Core) : (s.setCore c x).patterns = s.patterns := rfl
@[simp] theorem State.setCore_collGroups (s : State) (c : Nat) (x : Core) : (s.setCore c x).collGroups = s.collGroups := rfl
@[simp] theorem State.setCore_regions (s : State) (c : Nat) (x : Core) : (s.setCore c x).regions = s.regions := rfl
@[simp] theorem State.setCore_dies (s : State) (c : Nat) (x : Core) : (s.setCore c x).dies = s.dies := rfl
@[simp] theorem State.setCore_teams (s : State) (c : Nat) (x : Core) : (s.setCore c x).teams = s.teams := rfl
@[simp] theorem State.setCore_nextTeam (s : State) (c : Nat) (x : Core) : (s.setCore c x).nextTeam = s.nextTeam := rfl
@[simp] theorem State.setCore_commands (s : State) (c : Nat) (x : Core) : (s.setCore c x).commands = s.commands := rfl
@[simp] theorem State.setCore_nextCommand (s : State) (c : Nat) (x : Core) : (s.setCore c x).nextCommand = s.nextCommand := rfl
@[simp] theorem State.setCore_posts (s : State) (c : Nat) (x : Core) : (s.setCore c x).posts = s.posts := rfl
@[simp] theorem State.setCore_xlates (s : State) (c : Nat) (x : Core) : (s.setCore c x).xlates = s.xlates := rfl
@[simp] theorem State.setCore_bells (s : State) (c : Nat) (x : Core) : (s.setCore c x).bells = s.bells := rfl
@[simp] theorem State.setCore_queues (s : State) (c : Nat) (x : Core) : (s.setCore c x).queues = s.queues := rfl
@[simp] theorem State.setCore_slots (s : State) (c : Nat) (x : Core) : (s.setCore c x).slots = s.slots := rfl
@[simp] theorem State.setCore_jobs (s : State) (c : Nat) (x : Core) : (s.setCore c x).jobs = s.jobs := rfl
@[simp] theorem State.setCore_nextSeq (s : State) (c : Nat) (x : Core) : (s.setCore c x).nextSeq = s.nextSeq := rfl
@[simp] theorem State.setCore_grids (s : State) (c : Nat) (x : Core) : (s.setCore c x).grids = s.grids := rfl
@[simp] theorem State.setCore_nextGrid (s : State) (c : Nat) (x : Core) : (s.setCore c x).nextGrid = s.nextGrid := rfl
@[simp] theorem State.setCore_graphs (s : State) (c : Nat) (x : Core) : (s.setCore c x).graphs = s.graphs := rfl
@[simp] theorem State.setCore_saved (s : State) (c : Nat) (x : Core) : (s.setCore c x).saved = s.saved := rfl
@[simp] theorem State.setCore_ports (s : State) (c : Nat) (x : Core) : (s.setCore c x).ports = s.ports := rfl
@[simp] theorem State.setCore_peers (s : State) (c : Nat) (x : Core) : (s.setCore c x).peers = s.peers := rfl
@[simp] theorem State.setCore_qps (s : State) (c : Nat) (x : Core) : (s.setCore c x).qps = s.qps := rfl
@[simp] theorem State.setCore_tiles (s : State) (c : Nat) (x : Core) : (s.setCore c x).tiles = s.tiles := rfl
@[simp] theorem State.setCore_watches (s : State) (c : Nat) (x : Core) : (s.setCore c x).watches = s.watches := rfl
@[simp] theorem State.setCore_out (s : State) (c : Nat) (x : Core) : (s.setCore c x).out = s.out := rfl

/-! ### State.setDie -/

@[simp] theorem State.setDie_tick (s : State) (d : Nat) (x : Die) : (s.setDie d x).tick = s.tick := rfl
@[simp] theorem State.setDie_time (s : State) (d : Nat) (x : Die) : (s.setDie d x).time = s.time := rfl
@[simp] theorem State.setDie_slew (s : State) (d : Nat) (x : Die) : (s.setDie d x).slew = s.slew := rfl
@[simp] theorem State.setDie_locked (s : State) (d : Nat) (x : Die) : (s.setDie d x).locked = s.locked := rfl
@[simp] theorem State.setDie_exchange (s : State) (d : Nat) (x : Die) : (s.setDie d x).exchange = s.exchange := rfl
@[simp] theorem State.setDie_disciplined (s : State) (d : Nat) (x : Die) : (s.setDie d x).disciplined = s.disciplined := rfl
@[simp] theorem State.setDie_vlanData (s : State) (d : Nat) (x : Die) : (s.setDie d x).vlanData = s.vlanData := rfl
@[simp] theorem State.setDie_vlanMgmt (s : State) (d : Nat) (x : Die) : (s.setDie d x).vlanMgmt = s.vlanMgmt := rfl
@[simp] theorem State.setDie_booted (s : State) (d : Nat) (x : Die) : (s.setDie d x).booted = s.booted := rfl
@[simp] theorem State.setDie_recovery (s : State) (d : Nat) (x : Die) : (s.setDie d x).recovery = s.recovery := rfl
@[simp] theorem State.setDie_agenda (s : State) (d : Nat) (x : Die) : (s.setDie d x).agenda = s.agenda := rfl
@[simp] theorem State.setDie_focus (s : State) (d : Nat) (x : Die) : (s.setDie d x).focus = s.focus := rfl
@[simp] theorem State.setDie_mem (s : State) (d : Nat) (x : Die) : (s.setDie d x).mem = s.mem := rfl
@[simp] theorem State.setDie_poison (s : State) (d : Nat) (x : Die) : (s.setDie d x).poison = s.poison := rfl
@[simp] theorem State.setDie_badCheck (s : State) (d : Nat) (x : Die) : (s.setDie d x).badCheck = s.badCheck := rfl
@[simp] theorem State.setDie_l2 (s : State) (d : Nat) (x : Die) : (s.setDie d x).l2 = s.l2 := rfl
@[simp] theorem State.setDie_mire (s : State) (d : Nat) (x : Die) : (s.setDie d x).mire = s.mire := rfl
@[simp] theorem State.setDie_windowLines (s : State) (d : Nat) (x : Die) : (s.setDie d x).windowLines = s.windowLines := rfl
@[simp] theorem State.setDie_reservations (s : State) (d : Nat) (x : Die) : (s.setDie d x).reservations = s.reservations := rfl
@[simp] theorem State.setDie_monitors (s : State) (d : Nat) (x : Die) : (s.setDie d x).monitors = s.monitors := rfl
@[simp] theorem State.setDie_heldWrites (s : State) (d : Nat) (x : Die) : (s.setDie d x).heldWrites = s.heldWrites := rfl
@[simp] theorem State.setDie_secondPieces (s : State) (d : Nat) (x : Die) : (s.setDie d x).secondPieces = s.secondPieces := rfl
@[simp] theorem State.setDie_halves (s : State) (d : Nat) (x : Die) : (s.setDie d x).halves = s.halves := rfl
@[simp] theorem State.setDie_sys (s : State) (d : Nat) (x : Die) : (s.setDie d x).sys = s.sys := rfl
@[simp] theorem State.setDie_patterns (s : State) (d : Nat) (x : Die) : (s.setDie d x).patterns = s.patterns := rfl
@[simp] theorem State.setDie_collGroups (s : State) (d : Nat) (x : Die) : (s.setDie d x).collGroups = s.collGroups := rfl
@[simp] theorem State.setDie_regions (s : State) (d : Nat) (x : Die) : (s.setDie d x).regions = s.regions := rfl
@[simp] theorem State.setDie_cores (s : State) (d : Nat) (x : Die) : (s.setDie d x).cores = s.cores := rfl
@[simp] theorem State.setDie_teams (s : State) (d : Nat) (x : Die) : (s.setDie d x).teams = s.teams := rfl
@[simp] theorem State.setDie_nextTeam (s : State) (d : Nat) (x : Die) : (s.setDie d x).nextTeam = s.nextTeam := rfl
@[simp] theorem State.setDie_commands (s : State) (d : Nat) (x : Die) : (s.setDie d x).commands = s.commands := rfl
@[simp] theorem State.setDie_nextCommand (s : State) (d : Nat) (x : Die) : (s.setDie d x).nextCommand = s.nextCommand := rfl
@[simp] theorem State.setDie_posts (s : State) (d : Nat) (x : Die) : (s.setDie d x).posts = s.posts := rfl
@[simp] theorem State.setDie_xlates (s : State) (d : Nat) (x : Die) : (s.setDie d x).xlates = s.xlates := rfl
@[simp] theorem State.setDie_bells (s : State) (d : Nat) (x : Die) : (s.setDie d x).bells = s.bells := rfl
@[simp] theorem State.setDie_queues (s : State) (d : Nat) (x : Die) : (s.setDie d x).queues = s.queues := rfl
@[simp] theorem State.setDie_slots (s : State) (d : Nat) (x : Die) : (s.setDie d x).slots = s.slots := rfl
@[simp] theorem State.setDie_jobs (s : State) (d : Nat) (x : Die) : (s.setDie d x).jobs = s.jobs := rfl
@[simp] theorem State.setDie_nextSeq (s : State) (d : Nat) (x : Die) : (s.setDie d x).nextSeq = s.nextSeq := rfl
@[simp] theorem State.setDie_grids (s : State) (d : Nat) (x : Die) : (s.setDie d x).grids = s.grids := rfl
@[simp] theorem State.setDie_nextGrid (s : State) (d : Nat) (x : Die) : (s.setDie d x).nextGrid = s.nextGrid := rfl
@[simp] theorem State.setDie_graphs (s : State) (d : Nat) (x : Die) : (s.setDie d x).graphs = s.graphs := rfl
@[simp] theorem State.setDie_saved (s : State) (d : Nat) (x : Die) : (s.setDie d x).saved = s.saved := rfl
@[simp] theorem State.setDie_ports (s : State) (d : Nat) (x : Die) : (s.setDie d x).ports = s.ports := rfl
@[simp] theorem State.setDie_peers (s : State) (d : Nat) (x : Die) : (s.setDie d x).peers = s.peers := rfl
@[simp] theorem State.setDie_qps (s : State) (d : Nat) (x : Die) : (s.setDie d x).qps = s.qps := rfl
@[simp] theorem State.setDie_tiles (s : State) (d : Nat) (x : Die) : (s.setDie d x).tiles = s.tiles := rfl
@[simp] theorem State.setDie_watches (s : State) (d : Nat) (x : Die) : (s.setDie d x).watches = s.watches := rfl
@[simp] theorem State.setDie_out (s : State) (d : Nat) (x : Die) : (s.setDie d x).out = s.out := rfl

/-! ### State.poke -/

@[simp] theorem State.poke_tick (s : State) (kvs : List (Nat × Byte)) : (s.poke kvs).tick = s.tick := rfl
@[simp] theorem State.poke_time (s : State) (kvs : List (Nat × Byte)) : (s.poke kvs).time = s.time := rfl
@[simp] theorem State.poke_slew (s : State) (kvs : List (Nat × Byte)) : (s.poke kvs).slew = s.slew := rfl
@[simp] theorem State.poke_locked (s : State) (kvs : List (Nat × Byte)) : (s.poke kvs).locked = s.locked := rfl
@[simp] theorem State.poke_exchange (s : State) (kvs : List (Nat × Byte)) : (s.poke kvs).exchange = s.exchange := rfl
@[simp] theorem State.poke_disciplined (s : State) (kvs : List (Nat × Byte)) : (s.poke kvs).disciplined = s.disciplined := rfl
@[simp] theorem State.poke_vlanData (s : State) (kvs : List (Nat × Byte)) : (s.poke kvs).vlanData = s.vlanData := rfl
@[simp] theorem State.poke_vlanMgmt (s : State) (kvs : List (Nat × Byte)) : (s.poke kvs).vlanMgmt = s.vlanMgmt := rfl
@[simp] theorem State.poke_booted (s : State) (kvs : List (Nat × Byte)) : (s.poke kvs).booted = s.booted := rfl
@[simp] theorem State.poke_recovery (s : State) (kvs : List (Nat × Byte)) : (s.poke kvs).recovery = s.recovery := rfl
@[simp] theorem State.poke_agenda (s : State) (kvs : List (Nat × Byte)) : (s.poke kvs).agenda = s.agenda := rfl
@[simp] theorem State.poke_focus (s : State) (kvs : List (Nat × Byte)) : (s.poke kvs).focus = s.focus := rfl
@[simp] theorem State.poke_poison (s : State) (kvs : List (Nat × Byte)) : (s.poke kvs).poison = s.poison := rfl
@[simp] theorem State.poke_badCheck (s : State) (kvs : List (Nat × Byte)) : (s.poke kvs).badCheck = s.badCheck := rfl
@[simp] theorem State.poke_l2 (s : State) (kvs : List (Nat × Byte)) : (s.poke kvs).l2 = s.l2 := rfl
@[simp] theorem State.poke_mire (s : State) (kvs : List (Nat × Byte)) : (s.poke kvs).mire = s.mire := rfl
@[simp] theorem State.poke_windowLines (s : State) (kvs : List (Nat × Byte)) : (s.poke kvs).windowLines = s.windowLines := rfl
@[simp] theorem State.poke_reservations (s : State) (kvs : List (Nat × Byte)) : (s.poke kvs).reservations = s.reservations := rfl
@[simp] theorem State.poke_monitors (s : State) (kvs : List (Nat × Byte)) : (s.poke kvs).monitors = s.monitors := rfl
@[simp] theorem State.poke_heldWrites (s : State) (kvs : List (Nat × Byte)) : (s.poke kvs).heldWrites = s.heldWrites := rfl
@[simp] theorem State.poke_secondPieces (s : State) (kvs : List (Nat × Byte)) : (s.poke kvs).secondPieces = s.secondPieces := rfl
@[simp] theorem State.poke_halves (s : State) (kvs : List (Nat × Byte)) : (s.poke kvs).halves = s.halves := rfl
@[simp] theorem State.poke_sys (s : State) (kvs : List (Nat × Byte)) : (s.poke kvs).sys = s.sys := rfl
@[simp] theorem State.poke_patterns (s : State) (kvs : List (Nat × Byte)) : (s.poke kvs).patterns = s.patterns := rfl
@[simp] theorem State.poke_collGroups (s : State) (kvs : List (Nat × Byte)) : (s.poke kvs).collGroups = s.collGroups := rfl
@[simp] theorem State.poke_regions (s : State) (kvs : List (Nat × Byte)) : (s.poke kvs).regions = s.regions := rfl
@[simp] theorem State.poke_dies (s : State) (kvs : List (Nat × Byte)) : (s.poke kvs).dies = s.dies := rfl
@[simp] theorem State.poke_cores (s : State) (kvs : List (Nat × Byte)) : (s.poke kvs).cores = s.cores := rfl
@[simp] theorem State.poke_teams (s : State) (kvs : List (Nat × Byte)) : (s.poke kvs).teams = s.teams := rfl
@[simp] theorem State.poke_nextTeam (s : State) (kvs : List (Nat × Byte)) : (s.poke kvs).nextTeam = s.nextTeam := rfl
@[simp] theorem State.poke_commands (s : State) (kvs : List (Nat × Byte)) : (s.poke kvs).commands = s.commands := rfl
@[simp] theorem State.poke_nextCommand (s : State) (kvs : List (Nat × Byte)) : (s.poke kvs).nextCommand = s.nextCommand := rfl
@[simp] theorem State.poke_posts (s : State) (kvs : List (Nat × Byte)) : (s.poke kvs).posts = s.posts := rfl
@[simp] theorem State.poke_xlates (s : State) (kvs : List (Nat × Byte)) : (s.poke kvs).xlates = s.xlates := rfl
@[simp] theorem State.poke_bells (s : State) (kvs : List (Nat × Byte)) : (s.poke kvs).bells = s.bells := rfl
@[simp] theorem State.poke_queues (s : State) (kvs : List (Nat × Byte)) : (s.poke kvs).queues = s.queues := rfl
@[simp] theorem State.poke_slots (s : State) (kvs : List (Nat × Byte)) : (s.poke kvs).slots = s.slots := rfl
@[simp] theorem State.poke_jobs (s : State) (kvs : List (Nat × Byte)) : (s.poke kvs).jobs = s.jobs := rfl
@[simp] theorem State.poke_nextSeq (s : State) (kvs : List (Nat × Byte)) : (s.poke kvs).nextSeq = s.nextSeq := rfl
@[simp] theorem State.poke_grids (s : State) (kvs : List (Nat × Byte)) : (s.poke kvs).grids = s.grids := rfl
@[simp] theorem State.poke_nextGrid (s : State) (kvs : List (Nat × Byte)) : (s.poke kvs).nextGrid = s.nextGrid := rfl
@[simp] theorem State.poke_graphs (s : State) (kvs : List (Nat × Byte)) : (s.poke kvs).graphs = s.graphs := rfl
@[simp] theorem State.poke_saved (s : State) (kvs : List (Nat × Byte)) : (s.poke kvs).saved = s.saved := rfl
@[simp] theorem State.poke_ports (s : State) (kvs : List (Nat × Byte)) : (s.poke kvs).ports = s.ports := rfl
@[simp] theorem State.poke_peers (s : State) (kvs : List (Nat × Byte)) : (s.poke kvs).peers = s.peers := rfl
@[simp] theorem State.poke_qps (s : State) (kvs : List (Nat × Byte)) : (s.poke kvs).qps = s.qps := rfl
@[simp] theorem State.poke_tiles (s : State) (kvs : List (Nat × Byte)) : (s.poke kvs).tiles = s.tiles := rfl
@[simp] theorem State.poke_watches (s : State) (kvs : List (Nat × Byte)) : (s.poke kvs).watches = s.watches := rfl
@[simp] theorem State.poke_out (s : State) (kvs : List (Nat × Byte)) : (s.poke kvs).out = s.out := rfl

end Sys2Proof.Machine
end

