-- ==== Sys2Proof/Laws/Lookup.lean ====
section
/-! SUPPORT. Looking up tables, teams, groups and splits after an update, and what the instruction in hand is. -/

namespace Sys2Proof.Machine

/-! ### Tables -/

theorem nth_put_same {α : Type} {n : Nat} (v : Vector α n) {i : Nat} (x d : α) (h : i < n) : nth (put v i x) i d = x := by
  simp [nth, put, h]

theorem nth_put_other {α : Type} {n : Nat} (v : Vector α n) {i j : Nat} (x d : α) (h : i ≠ j) :
    nth (put v i x) j d = nth v j d := by
  simp [nth, put, List.getD_eq_getElem?_getD, h]

theorem nth_beyond {α : Type} {n : Nat} (v : Vector α n) {i : Nat} (d : α) (h : n ≤ i) : nth v i d = d := by
  simp [nth, List.getD_eq_getElem?_getD, h]

theorem nth_tab {α : Type} {n i : Nat} (f : Nat → α) (d : α) (h : i < n) : nth (tab n f) i d = f i := by
  simp [nth, tab, List.getD_eq_getElem?_getD, h]

theorem assoc_assocSet {α : Type} (k : Nat) (x : α) (l : List (Nat × α)) : assoc k (assocSet k x l) = some x := by
  induction l with
  | nil => simp [assocSet, assoc]
  | cons a l ih =>
    obtain ⟨j, y⟩ := a
    unfold assocSet
    split
    · simp [assoc]
    · split
      · simp [assoc]
      · simp [assoc, *]

theorem assoc_assocSet_other {α : Type} {k j : Nat} (x : α) (l : List (Nat × α)) (h : k ≠ j) : assoc j (assocSet k x l) = assoc j l := by
  induction l with
  | nil => simp [assocSet, assoc, h]
  | cons a l ih =>
    obtain ⟨i, y⟩ := a
    unfold assocSet
    split
    · simp [assoc, h]
    · split
      · subst_vars; simp [assoc, h]
      · simp [assoc, ih]

/-! ### Cores and dies -/

theorem State.core_setCore (s : State) (n : Nat) (x : Core) : (s.setCore n x).core n = x := by
  simp [State.core, State.setCore, assoc_assocSet]

theorem State.core_setCore_other (s : State) {n m : Nat} (x : Core) (h : n ≠ m) : (s.setCore n x).core m = s.core m := by
  simp [State.core, State.setCore, assoc_assocSet_other _ _ h]

theorem State.die_setDie (s : State) {d : Nat} (x : Die) (h : d < 2) : (s.setDie d x).die d = x :=
  nth_put_same _ _ _ h

theorem State.die_setDie_other (s : State) {d e : Nat} (x : Die) (h : d ≠ e) : (s.setDie d x).die e = s.die e :=
  nth_put_other _ _ _ h

/-! ### The first element that meets a test -/

theorem find?_updateFirst_same {α : Type} (p : α → Bool) (f : α → α) (l : List α) (h : ∀ x, p x = true → p (f x) = true) :
    (updateFirst p f l).find? p = (l.find? p).map f := by
  induction l with
  | nil => rfl
  | cons x xs ih =>
    by_cases hx : p x = true
    · simp [updateFirst, hx, h x hx]
    · simp [updateFirst, hx, ih]

theorem find?_updateFirst_other {α : Type} (p q : α → Bool) (f : α → α) (l : List α)
    (h : ∀ x, p x = true → q x = false ∧ q (f x) = false) : (updateFirst p f l).find? q = l.find? q := by
  induction l with
  | nil => rfl
  | cons x xs ih =>
    by_cases hx : p x = true
    · simp [updateFirst, hx, h x hx]
    · simp only [updateFirst, hx, if_false, Bool.false_eq_true, List.find?_cons, ih]

/-! ### Teams, groups and splits -/

theorem State.team?_modTeam (s : State) (id : Nat) (f : Team → Team) (h : ∀ t, (f t).id = t.id) :
    (s.modTeam id f).team? id = (s.team? id).map f :=
  find?_updateFirst_same _ _ _ fun x hx => by simpa [h] using hx

theorem State.team?_modTeam_other (s : State) {a b : Nat} (f : Team → Team) (h : ∀ t, (f t).id = t.id) (hab : b ≠ a) :
    (s.modTeam a f).team? b = s.team? b :=
  find?_updateFirst_other _ _ _ _ fun x hx => by
    have : x.id = a := by simpa using hx
    simp [h, this, Ne.symm hab]

theorem Team.group?_modGroup (t : Team) (n : Nat) (f : Group → Group) (h : ∀ g, (f g).index = g.index) :
    (t.modGroup n f).group? n = (t.group? n).map f :=
  find?_updateFirst_same _ _ _ fun x hx => by simpa [h] using hx

theorem Team.group?_modGroup_other (t : Team) {a b : Nat} (f : Group → Group) (h : ∀ g, (f g).index = g.index)
    (hab : b ≠ a) : (t.modGroup a f).group? b = t.group? b :=
  find?_updateFirst_other _ _ _ _ fun x hx => by
    have : x.index = a := by simpa using hx
    simp [h, this, Ne.symm hab]

theorem State.team?_modGroup (s : State) (id n : Nat) (f : Group → Group) :
    (s.modGroup id n f).team? id = (s.team? id).map fun t => t.modGroup n f :=
  s.team?_modTeam id _ fun _ => rfl

theorem State.team?_modGroup_other (s : State) {id b : Nat} (n : Nat) (f : Group → Group) (h : b ≠ id) :
    (s.modGroup id n f).team? b = s.team? b :=
  s.team?_modTeam_other _ (fun _ => rfl) h

theorem State.group?_modGroup (s : State) (id n : Nat) (f : Group → Group) (h : ∀ g, (f g).index = g.index) :
    (s.modGroup id n f).group? id n = (s.group? id n).map f := by
  unfold State.group?
  rw [State.team?_modGroup]
  cases s.team? id with
  | none => rfl
  | some t => exact t.group?_modGroup n f h

theorem State.group?_modGroup_other (s : State) {id n m : Nat} (f : Group → Group) (h : ∀ g, (f g).index = g.index)
    (hm : m ≠ n) : (s.modGroup id n f).group? id m = s.group? id m := by
  unfold State.group?
  rw [State.team?_modGroup]
  cases s.team? id with
  | none => rfl
  | some t => exact t.group?_modGroup_other f h hm

@[simp] theorem Group.modSplit_index (g : Group) (n : Nat) (f : Split → Split) : (g.modSplit n f).index = g.index := by
  unfold Group.modSplit
  split <;> rfl

theorem Group.split?_modSplit (g : Group) {n : Nat} (f : Split → Split) (h : n < 4) :
    (g.modSplit n f).split? n = (g.split? n).map f := by
  unfold Group.modSplit
  split
  · rename_i x hx
    rw [hx]
    exact nth_put_same _ _ _ h
  · rename_i hx
    rw [hx]
    rfl

theorem Group.split?_modSplit_other (g : Group) {n m : Nat} (f : Split → Split) (h : n ≠ m) :
    (g.modSplit n f).split? m = g.split? m := by
  unfold Group.modSplit
  split
  · simp [Group.split?, Group.setSplit, nth_put_other _ _ _ h]
  · rfl

theorem Group.split?_lt {g : Group} {n : Nat} {x : Split} (h : g.split? n = some x) : n < 4 := by
  refine Nat.lt_of_not_le fun hn => ?_
  rw [Group.split?, nth_beyond _ _ hn] at h
  cases h

theorem State.group?_modSplit (s : State) (w : Who) (f : Split → Split) :
    (s.modSplit w f).group? w.team w.group = (s.group? w.team w.group).map fun g => g.modSplit w.split f :=
  s.group?_modGroup _ _ _ fun g => g.modSplit_index _ _

/-! ### The instruction in hand -/

/-- What a context says: where it stands, what it holds. -/
theorem State.ctx_some {s : State} {i : Instr} {f : Fields} {c : Ctx} (h : s.ctx i f = some c) :
    c.who = s.focus ∧ c.i = i ∧ c.f = f ∧ s.team? c.who.team = some c.t ∧ c.t.group? c.who.group = some c.g ∧
      c.g.split? c.who.split = some c.sp ∧ c.act = guardMask c.g c.sp f := by
  unfold State.ctx at h
  split at h
  · cases h
  · split at h
    · cases h
    · split at h
      · cases h
      · rename_i ht _ _ hg _ _ hs
        cases h
        exact ⟨rfl, rfl, rfl, ht, hg, hs, rfl⟩

/-- The group of the instruction in hand. -/
theorem State.ctx_group {s : State} {i : Instr} {f : Fields} {c : Ctx} (h : s.ctx i f = some c) :
    s.group? c.who.team c.who.group = some c.g := by
  obtain ⟨-, -, -, ht, hg, -, -⟩ := State.ctx_some h
  simp [State.group?, ht, hg]

/-- The contributors are threads of the split. -/
theorem guardMask_le (g : Group) (sp : Split) (f : Fields) (l : Nat) (h : (guardMask g sp f).getLsbD l = true) :
    sp.mask.getLsbD l = true := by
  simp only [guardMask, BitVec.getLsbD_and, Bool.and_eq_true] at h
  exact h.1

/-! ### Issue -/

/-- A word waits for its sources or goes to its meaning (R21). -/
theorem attempt_cases {i : Instr} {f : Fields} {s : State} {k : Ctx → State → Res} {r : Res} (h : attempt i f s k = r) :
    (s.ctx i f = none ∧ r = .fault .noSplit) ∨
      (∃ c, s.ctx i f = some c ∧ s.depends c = true ∧ r = .next (s.block c.who (.depend i))) ∨
      ∃ c, s.ctx i f = some c ∧ s.depends c = false ∧ r = k c s := by
  unfold attempt at h
  split at h
  · rename_i hc
    exact .inl ⟨hc, h.symm⟩
  · rename_i c hc
    split at h
    · rename_i hd
      exact .inr (.inl ⟨c, hc, hd, h.symm⟩)
    · rename_i hd
      exact .inr (.inr ⟨c, hc, by simpa using hd, h.symm⟩)

/-- A word whose sources are there goes to its meaning. -/
theorem attempt_ready {i : Instr} {f : Fields} {s : State} {k : Ctx → State → Res} {c : Ctx} (hc : s.ctx i f = some c)
    (hd : s.depends c = false) : attempt i f s k = k c s := by
  simp [attempt, hc, hd]

/-- The checks before an effect pass: a contributor, room under the ceiling, no window broken. -/
theorem gate_pass {c : Ctx} {s : State} {n : Nat} {k : State → Res} (ha : c.act ≠ 0) (ho : c.g.overCeiling n = false)
    (hb : c.broken = false) : gate c s n k = k s := by
  rw [gate, if_neg ha, if_neg (by simp [ho]), if_neg (by simp [hb])]

theorem gateLate_pass {c : Ctx} {s : State} {n : Nat} {k : State → Res} (ha : c.act ≠ 0) (ho : c.g.overCeiling n = false)
    (hb : c.broken = false) : gateLate c s n k = k s := by
  rw [gateLate, if_neg ha, gate_pass ha ho hb]

/-- Everything that the checks before an effect can answer (R20, R21, R127). -/
theorem gate_cases {c : Ctx} {s : State} {n : Nat} {k : State → Res} {r : Res} (h : gate c s n k = r) :
    (c.act = 0 ∧ r = .next (s.advance c.who)) ∨
      (c.act ≠ 0 ∧ c.g.overCeiling n = true ∧ r = .next (s.raise c (c.fault codeREGCEIL c.act))) ∨
      (c.act ≠ 0 ∧ c.g.overCeiling n = false ∧ c.broken = true ∧ r = .next (s.raise c (c.fault codeLOOKAHEAD c.act))) ∨
      (c.act ≠ 0 ∧ c.g.overCeiling n = false ∧ c.broken = false ∧ r = k s) := by
  unfold gate at h
  split at h
  · rename_i ha
    exact .inl ⟨ha, h.symm⟩
  · rename_i ha
    split at h
    · rename_i ho
      exact .inr (.inl ⟨ha, ho, h.symm⟩)
    · rename_i ho
      split at h
      · rename_i hb
        exact .inr (.inr (.inl ⟨ha, by simpa using ho, hb, h.symm⟩))
      · rename_i hb
        exact .inr (.inr (.inr ⟨ha, by simpa using ho, by simpa using hb, h.symm⟩))

/-- A register-only instruction whose checks pass: its effect on its group, and the split moves on. -/
theorem registers_done {i : Instr} {f : Fields} {s : State} {body : Ctx → Eff} {c : Ctx} {h : Group → Group}
    (hc : s.ctx i f = some c) (hd : s.depends c = false) (hb : body c = .done h) (ha : c.act ≠ 0)
    (ho : c.g.overCeiling (h c.g).generals = false) (hk : c.broken = false) :
    registers i f s body = .next (((s.issued c).modGroup c.who.team c.who.group h).advance c.who) := by
  simp [registers, begin_, attempt_ready hc hd, hb, gate_pass ha ho hk]

/-- The ceiling holds wherever it leaves room for the general registers that come about. -/
theorem overCeiling_of_room {g : Group} {n k : Nat} (h : g.generals + k ≤ g.ceiling) (hn : n ≤ g.generals + k) :
    g.overCeiling n = false := by
  simp only [Group.overCeiling, Bool.and_eq_false_iff, decide_eq_false_iff_not]
  omega

end Sys2Proof.Machine
end

