-- ==== Sys2Proof/Laws/Frame.lean ====
section
/-! SUPPORT. What the issue of a word and a write of its registers leave unchanged: the frame of every instruction that
only reads and writes registers. -/

namespace Sys2Proof.Machine

/-! ### Every group of a team changed at once -/

theorem find?_map_keep {α : Type} (p : α → Bool) (f : α → α) (l : List α) (h : ∀ x, p (f x) = p x) :
    (l.map f).find? p = (l.find? p).map f := by
  induction l with
  | nil => rfl
  | cons x xs ih =>
    simp only [List.map_cons, List.find?_cons, h]
    split
    · rfl
    · exact ih

theorem State.team?_modGroups (s : State) (id : Nat) (f : Group → Group) :
    (s.modGroups id f).team? id = (s.team? id).map fun t => { t with groups := t.groups.map f } :=
  s.team?_modTeam id _ fun _ => rfl

theorem State.group?_modGroups (s : State) (id n : Nat) (f : Group → Group) (h : ∀ g, (f g).index = g.index) :
    (s.modGroups id f).group? id n = (s.group? id n).map f := by
  unfold State.group?
  rw [State.team?_modGroups]
  cases s.team? id with
  | none => rfl
  | some t => exact find?_map_keep _ f t.groups fun x => by simp [h]

/-! ### Where only a group changes -/

theorem OnlyGroup.refl (s : State) (w : Who) : OnlyGroup s s w :=
  ⟨rfl, rfl, fun _ _ => rfl, fun x h => ⟨x.groups, h⟩, fun _ g _ h => ⟨g.latch, h⟩⟩

theorem OnlyGroup.trans {s t u : State} {w : Who} (h : OnlyGroup s t w) (k : OnlyGroup t u w) : OnlyGroup s u w := by
  refine ⟨?_, k.claims.trans h.claims, fun id hid => (k.others id hid).trans (h.others id hid), ?_, ?_⟩
  · rw [k.rest, h.rest]
  · intro x hx
    obtain ⟨gs, hg⟩ := h.team x hx
    obtain ⟨gs', hg'⟩ := k.team _ hg
    exact ⟨gs', hg'⟩
  · intro n g hn hg
    obtain ⟨l, hl⟩ := h.members n g hn hg
    obtain ⟨l', hl'⟩ := k.members n _ hn hl
    exact ⟨l', hl'⟩

/-- A change of the group itself. -/
theorem OnlyGroup.modGroup (s : State) (w : Who) (f : Group → Group) (h : ∀ g, (f g).index = g.index) :
    OnlyGroup s (s.modGroup w.team w.group f) w := by
  refine ⟨rfl, rfl, fun id hid => s.team?_modGroup_other _ _ hid, ?_, ?_⟩
  · intro x hx
    exact ⟨(x.modGroup w.group f).groups, by rw [State.team?_modGroup, hx]; rfl⟩
  · intro n g hn hg
    exact ⟨g.latch, by rw [s.group?_modGroup_other f h hn, hg]⟩

theorem OnlyGroup.modSplit (s : State) (w : Who) (f : Split → Split) : OnlyGroup s (s.modSplit w f) w :=
  OnlyGroup.modGroup s w _ fun g => g.modSplit_index _ _

/-- Latches of the team's groups may empty. -/
theorem OnlyGroup.emptyLatches (s : State) (c : Ctx) : OnlyGroup s (s.emptyLatches c) c.who := by
  unfold State.emptyLatches
  dsimp only
  split
  · exact OnlyGroup.refl s _
  · refine ⟨rfl, rfl, fun id hid => s.team?_modTeam_other _ (fun _ => rfl) hid, ?_, ?_⟩
    · intro x hx
      exact ⟨_, by rw [State.team?_modGroups, hx]; rfl⟩
    · intro n g _ hg
      rw [State.group?_modGroups _ _ _ _ (fun g => by split <;> rfl), hg]
      simp only [Option.map_some]
      split
      · exact ⟨none, rfl⟩
      · exact ⟨g.latch, rfl⟩

/-- A word that has issued. -/
theorem OnlyGroup.issued (s : State) (c : Ctx) : OnlyGroup s (s.issued c) c.who := by
  have h := (OnlyGroup.modSplit s c.who fun x => { x with windows := c.windows }).trans (OnlyGroup.emptyLatches _ c)
  refine ⟨?_, ?_, h.others, h.team, h.members⟩
  · unfold State.issued
    dsimp only
    rw [h.rest]
  · unfold State.issued
    dsimp only
    rw [← h.claims, List.map_map]
    refine List.map_congr_left fun r _ => ?_
    simp only [Function.comp_apply]
    split
    · rfl
    · split <;> rfl

theorem Group.latch_same (g : Group) : { g with latch := g.latch } = g := rfl

/-- The group of a word that has issued: its windows have moved, its latch may have emptied. -/
theorem State.issued_group {s : State} {c : Ctx} (h : s.group? c.who.team c.who.group = some c.g) :
    ∃ l, (s.issued c).group? c.who.team c.who.group =
      some { c.g.modSplit c.who.split (fun x => { x with windows := c.windows }) with latch := l } := by
  have h1 := s.group?_modSplit c.who fun x => { x with windows := c.windows }
  rw [h] at h1
  have h2 : (s.issued c).group? c.who.team c.who.group =
      ((s.modSplit c.who fun x => { x with windows := c.windows }).emptyLatches c).group? c.who.team c.who.group := rfl
  rw [h2]
  unfold State.emptyLatches
  dsimp only
  split
  · exact ⟨_, h1⟩
  · rw [State.group?_modGroups _ _ _ _ (fun g => by split <;> rfl), h1]
    simp only [Option.map_some]
    split
    · exact ⟨none, rfl⟩
    · exact ⟨_, rfl⟩

/-! ### Writing registers -/

theorem RegsKept.refl (d : List Span) (g : Group) : RegsKept d g g :=
  ⟨rfl, fun _ _ => rfl, fun _ _ _ => rfl, fun _ _ => rfl, fun _ _ => rfl, fun _ _ _ => rfl, fun _ _ _ _ => rfl, rfl, fun _ h => h⟩

theorem RegsKept.trans {d : List Span} {g h k : Group} (a : RegsKept d g h) (b : RegsKept d h k) : RegsKept d g k := by
  refine ⟨?_, fun n hn => (b.v n hn).trans (a.v n hn), fun n h1 hn => (b.s n h1 hn).trans (a.s n h1 hn),
    fun n hn => (b.p n hn).trans (a.p n hn), fun n hn => (b.x n hn).trans (a.x n hn),
    fun n h1 hn => (b.kv n h1 hn).trans (a.kv n h1 hn), fun n h1 h2 hn => (b.ks n h1 h2 hn).trans (a.ks n h1 h2 hn),
    b.handler.trans a.handler, fun i hi => b.flags i (a.flags i hi)⟩
  rw [b.rest, a.rest]

/-- The same over fewer registers. -/
theorem RegsKept.mono {d e : List Span} {g h : Group} (a : RegsKept d g h) (he : ∀ k n, covers e k n = false → covers d k n = false) :
    RegsKept e g h :=
  ⟨a.rest, fun n hn => a.v n (he _ _ hn), fun n h1 hn => a.s n h1 (he _ _ hn), fun n hn => a.p n (he _ _ hn),
    fun n hn => a.x n (he _ _ hn), fun n h1 hn => a.kv n h1 (he _ _ hn), fun n h1 h2 hn => a.ks n h1 h2 (he _ _ hn),
    a.handler, a.flags⟩

theorem RegsKept.raiseFlags (d : List Span) (g : Group) (n : Nat) : RegsKept d g (g.raiseFlags n) :=
  ⟨rfl, fun _ _ => rfl, fun _ _ _ => rfl, fun _ _ => rfl, fun _ _ => rfl, fun _ _ _ => rfl, fun _ _ _ _ => rfl, rfl,
    fun i h => by simp [Group.raiseFlags, h]⟩

theorem RegsKept.drew (d : List Span) (g : Group) (m : Mask) (n : Nat) : RegsKept d g (g.drew m n) :=
  ⟨rfl, fun _ _ => rfl, fun _ _ _ => rfl, fun _ _ => rfl, fun _ _ => rfl, fun _ _ _ => rfl, fun _ _ _ _ => rfl, rfl, fun _ h => h⟩

/-- One V register of d replaced. -/
theorem RegsKept.putVreg {d : List Span} {g : Group} {n : Nat} (r : VReg) (h : covers d 0 n = true) :
    RegsKept d g { g with v := put g.v n r } := by
  refine ⟨rfl, fun m hm => ?_, fun _ _ _ => rfl, fun _ _ => rfl, fun _ _ => rfl, fun _ _ _ => rfl, fun _ _ _ _ => rfl, rfl, fun _ h => h⟩
  exact nth_put_other _ _ _ fun e => by rw [e, hm] at h; cases h

/-- A fold of changes that each keep all but d. -/
theorem RegsKept.foldl {α : Type} {d : List Span} (l : List α) (f : Group → α → Group) (g : Group)
    (h : ∀ g x, x ∈ l → RegsKept d g (f g x)) : RegsKept d g (l.foldl f g) := by
  induction l generalizing g with
  | nil => exact RegsKept.refl d g
  | cons x xs ih =>
    exact (h g x (List.mem_cons_self ..)).trans (ih _ fun g y hy => h g y (List.mem_cons_of_mem _ hy))

theorem covers_single (k a n m : Nat) (h1 : a ≤ m) (h2 : m < a + n) : covers [{ kind := k, first := a, len := n }] k m = true := by
  simp [covers, h1, h2]

/-- A scalar register of d written; a K register is 64 + n. -/
theorem RegsKept.putS {d : List Span} {g : Group} {n : Nat} (x : W64) (h1 : n < 64 → covers d 1 n = true)
    (h2 : 64 ≤ n → 72 ≤ n ∧ covers d 7 (n - 64) = true) : RegsKept d g (g.putS n x) := by
  unfold Group.putS
  split
  · rename_i hn
    refine ⟨rfl, fun _ _ => rfl, fun m hm hc => ?_, fun _ _ => rfl, fun _ _ => rfl, fun _ _ _ => rfl, ?_, rfl, fun _ h => h⟩
    · simp only [Group.sreg, hm, if_true]
      exact nth_put_other _ _ _ fun e => by rw [← e, h1 hn] at hc; cases hc
    · intro m hm1 hm2 _
      simp only [Group.sreg, show ¬ 64 + m < 64 by omega, if_false]
  · rename_i hn
    obtain ⟨hk, hc⟩ := h2 (by omega)
    split
    · rename_i k hh
      refine ⟨rfl, fun _ _ => rfl, fun m hm _ => by simp [Group.sreg, hm], fun _ _ => rfl, fun _ _ => rfl, ?_, ?_, by simp [hh], fun _ h => h⟩
      · intro m _ _
        simp [Group.kreg, hh]
      · intro m hm1 hm2 hcm
        simp only [Group.sreg, show ¬ 64 + m < 64 by omega, if_false, hh]
        refine nth_put_other _ _ _ fun e => ?_
        have : n - 64 = m := by omega
        rw [this, hcm] at hc
        cases hc
    · exact RegsKept.refl d g

/-- A V or vector K register of d written in part. -/
theorem RegsKept.putV {d : List Span} {g : Group} {n : Nat} (m : Mask) (l : Lanes W32) (u : Bool)
    (h1 : n < 256 → covers d 0 n = true) (h2 : 256 ≤ n → n < 264 → covers d 7 (n - 256) = true) :
    RegsKept d g (g.putV n m l u) := by
  unfold Group.putV
  split
  · rename_i hn
    split
    · exact RegsKept.putVreg _ (h1 hn)
    · exact RegsKept.putVreg _ (h1 hn)
  · rename_i hn
    split
    · rename_i k hh
      refine ⟨rfl, fun _ _ => rfl, fun m hm _ => by simp [Group.sreg, hm], fun _ _ => rfl, fun _ _ => rfl, ?_, ?_, by simp [hh], fun _ h => h⟩
      · intro m hm hcm
        simp only [Group.kreg, hh]
        refine congrArg VReg.general (nth_put_other _ _ _ fun e => ?_)
        have hc := h2 (by omega) (by omega)
        rw [e, hcm] at hc
        cases hc
      · intro m hm1 hm2 _
        simp [Group.sreg, show ¬ 64 + m < 64 by omega, hh]
    · exact RegsKept.refl d g

/-- A predicate of d written in some lanes. -/
theorem RegsKept.putP {d : List Span} {g : Group} {n : Nat} (m x : Mask) (h : n < 7 → covers d 2 n = true) :
    RegsKept d g (g.putP n m x) := by
  unfold Group.putP
  split
  · rename_i hn
    refine ⟨rfl, fun _ _ => rfl, fun _ _ _ => rfl, fun k hk => ?_, fun _ _ => rfl, fun _ _ _ => rfl, fun _ _ _ _ => rfl, rfl, fun _ h => h⟩
    simp only [Group.pred]
    split
    · exact nth_put_other _ _ _ fun e => by rw [← e, h hn] at hk; cases hk
    · rfl
  · exact RegsKept.refl d g

theorem Group.writeLane_kept {d : List Span} {g : Group} {n : Nat} (act : Mask) (form : Form) (l : Lanes W32)
    (h : covers d 0 n = true) : RegsKept d g (g.writeLane n act form l) := by
  unfold Group.writeLane
  split
  · exact RegsKept.refl d g
  · split
    · exact RegsKept.putVreg _ h
    · exact RegsKept.putVreg _ h

end Sys2Proof.Machine
end

