-- ==== Sys2Proof/Laws/Memory.lean ====
section
/-! SUPPORT. The byte store: read after write, and its canonical form under every operation that changes it. -/

namespace Sys2Proof.Machine

theorem Memory.get_of_above {m : List Host.Cell} {n a : Nat} (h : Memory.above (some n) m = true) (ha : a ≤ n) :
    Memory.get m a = unlisted := by
  cases m with
  | nil => rfl
  | cons x m =>
    obtain ⟨k, b⟩ := x
    simp only [Memory.above, Bool.and_eq_true, decide_eq_true_eq] at h
    simp only [Memory.get]
    rw [if_neg (by omega), if_pos (by omega)]

theorem Memory.above_weaken {m : List Host.Cell} {n k : Nat} (h : Memory.above (some k) m = true) (hn : n ≤ k) :
    Memory.above (some n) m = true := by
  cases m with
  | nil => rfl
  | cons x m =>
    simp only [Memory.above, Bool.and_eq_true, decide_eq_true_eq] at h ⊢
    exact ⟨⟨by omega, h.1.2⟩, h.2⟩

theorem Memory.wf_of_above {m : List Host.Cell} {n : Option Nat} (h : Memory.above n m = true) : Memory.wf m = true := by
  cases m with
  | nil => rfl
  | cons x m =>
    simp only [Memory.wf, Memory.above, Bool.and_eq_true] at h ⊢
    exact ⟨⟨trivial, h.1.2⟩, h.2⟩

/-- A write keeps the bytes above a bound above it. -/
theorem Memory.set_above {m : List Host.Cell} {n : Option Nat} {a : Nat} {b : Byte} (h : Memory.above n m = true)
    (ha : ∀ x, n = some x → x < a) : Memory.above n (Memory.set m a b) = true := by
  induction m generalizing n with
  | nil =>
    simp only [Memory.set]
    split
    · rfl
    · rename_i hb
      cases n <;> simp_all [Memory.above]
  | cons x m ih =>
    obtain ⟨k, c⟩ := x
    simp only [Memory.above, Bool.and_eq_true] at h
    simp only [Memory.set]
    split
    · rename_i hk
      simp only [Memory.above, Bool.and_eq_true]
      exact ⟨h.1, ih h.2 (by simpa using hk)⟩
    · split
      · rename_i hk
        subst hk
        split
        · cases n with
          | none => exact Memory.wf_of_above h.2
          | some x => exact Memory.above_weaken h.2 (Nat.le_of_lt (ha x rfl))
        · rename_i hb
          simp only [Memory.above, Bool.and_eq_true]
          exact ⟨⟨h.1.1, by simpa using hb⟩, h.2⟩
      · split
        · simp only [Memory.above, Bool.and_eq_true]
          exact h
        · rename_i hk hk' hb
          simp only [Memory.above, Bool.and_eq_true, decide_eq_true_eq]
          refine ⟨⟨?_, by simpa using hb⟩, ⟨by omega, h.1.2⟩, h.2⟩
          cases n with
          | none => rfl
          | some x => exact decide_eq_true (ha x rfl)

/-- A write keeps the canonical form. -/
theorem Memory.set_wf {m : List Host.Cell} {a : Nat} {b : Byte} (h : Memory.wf m = true) : Memory.wf (Memory.set m a b) = true :=
  Memory.set_above h (by simp)

/-- A byte read after it was written. -/
theorem Memory.get_set_same {m : List Host.Cell} {n : Option Nat} {a : Nat} {b : Byte} (h : Memory.above n m = true) :
    Memory.get (Memory.set m a b) a = b := by
  induction m generalizing n with
  | nil => by_cases hb : b = unlisted <;> simp [Memory.set, Memory.get, hb]
  | cons x m ih =>
    obtain ⟨k, c⟩ := x
    simp only [Memory.above, Bool.and_eq_true] at h
    simp only [Memory.set]
    split
    · simp only [Memory.get]
      rw [if_neg (by omega), if_neg (by omega)]
      exact ih h.2
    · split
      · rename_i hk
        subst hk
        split
        · rename_i hb
          rw [hb]
          exact Memory.get_of_above h.2 (Nat.le_refl _)
        · simp [Memory.get]
      · split
        · rename_i hb
          simp only [Memory.get]
          rw [if_neg (by omega), if_pos (by omega), hb]
        · simp [Memory.get]

/-- A byte read after another was written. -/
theorem Memory.get_set_other {m : List Host.Cell} {n : Option Nat} {a c : Nat} {b : Byte} (h : Memory.above n m = true)
    (hc : c ≠ a) : Memory.get (Memory.set m a b) c = Memory.get m c := by
  induction m generalizing n with
  | nil =>
    simp only [Memory.set]
    split
    · rfl
    · simp [Memory.get, Ne.symm hc]
  | cons x m ih =>
    obtain ⟨k, d⟩ := x
    simp only [Memory.above, Bool.and_eq_true] at h
    simp only [Memory.set]
    split
    · simp only [Memory.get]
      rw [ih h.2]
    · split
      · rename_i hk
        subst hk
        split
        · simp only [Memory.get]
          rw [if_neg (Ne.symm hc)]
          split
          · exact Memory.get_of_above h.2 (by omega)
          · rfl
        · simp [Memory.get, Ne.symm hc]
      · split
        · rfl
        · simp only [Memory.get, if_neg (Ne.symm hc)]
          split
          · rw [if_neg (by omega), if_pos (by omega)]
          · rfl

/-- A run of writes keeps the canonical form. -/
theorem pokeAll_wf {m : List Host.Cell} (kvs : List (Nat × Byte)) (h : Memory.wf m = true) : Memory.wf (pokeAll m kvs) = true := by
  unfold pokeAll
  induction kvs generalizing m with
  | nil => exact h
  | cons x xs ih => exact ih (Memory.set_wf h)

/-- A run of writes leaves every byte that it does not name. -/
theorem get_pokeAll_other {m : List Host.Cell} (kvs : List (Nat × Byte)) {a : Nat} (h : Memory.wf m = true)
    (ha : ∀ x ∈ kvs, x.1 ≠ a) : Memory.get (pokeAll m kvs) a = Memory.get m a := by
  unfold pokeAll
  induction kvs generalizing m with
  | nil => rfl
  | cons x xs ih =>
    rw [List.foldl_cons, ih (Memory.set_wf h) fun y hy => ha y (List.mem_cons_of_mem _ hy)]
    exact Memory.get_set_other h (Ne.symm (ha x (List.mem_cons_self ..)))

theorem Memory.filter_above {m : List Host.Cell} {n : Option Nat} (p : Host.Cell → Bool) (h : Memory.above n m = true) :
    Memory.above n (m.filter p) = true := by
  induction m generalizing n with
  | nil => rfl
  | cons x m ih =>
    obtain ⟨k, b⟩ := x
    simp only [Memory.above, Bool.and_eq_true] at h
    rw [List.filter_cons]
    split
    · simp only [Memory.above, Bool.and_eq_true]
      exact ⟨h.1, ih h.2⟩
    · cases n with
      | none => exact Memory.wf_of_above (ih h.2)
      | some x =>
        have := h.1.1
        simp only [decide_eq_true_eq] at this
        exact ih (Memory.above_weaken h.2 (Nat.le_of_lt this))

/-- Dropping bytes keeps the canonical form. -/
theorem Memory.filter_wf {m : List Host.Cell} (p : Host.Cell → Bool) (h : Memory.wf m = true) : Memory.wf (m.filter p) = true :=
  Memory.filter_above p h

theorem State.poke_wf {s : State} (kvs : List (Nat × Byte)) (h : Memory.wf s.mem = true) : Memory.wf (s.poke kvs).mem = true :=
  pokeAll_wf kvs h

/-- Dropping the partner's standing of a twin operation writes no memory. -/
theorem State.dropTwins_mem (s : State) (core : Nat) : (s.dropTwins core).mem = s.mem := by
  unfold State.dropTwins
  dsimp only
  split <;> split <;> rfl

theorem State.resetCore_wf {s : State} (core : Nat) (h : Memory.wf s.mem = true) : Memory.wf (s.resetCore core).mem = true :=
  (congrArg Memory.wf (State.dropTwins_mem _ core)).trans (Memory.filter_wf _ h)

theorem State.reset_wf : Memory.wf State.reset.mem = true := rfl

end Sys2Proof.Machine
end

