-- ==== Sys2Proof/Laws/Write.lean ====
section
/-! SUPPORT. What a block write of a destination leaves unchanged and how many registers it makes general, and with it the
whole of what an instruction does that only reads and writes registers. -/

namespace Sys2Proof.Machine

/-! ### The general count (R127) -/

theorem length_filter_set_le {α : Type} (p : α → Bool) (l : List α) (i : Nat) (x : α) :
    ((l.set i x).filter p).length ≤ (l.filter p).length + 1 := by
  induction l generalizing i with
  | nil => simp
  | cons y ys ih =>
    cases i with
    | zero =>
      simp only [List.set_cons_zero, List.filter_cons]
      split <;> split <;> simp <;> omega
    | succ i =>
      simp only [List.set_cons_succ, List.filter_cons]
      have := ih i
      split <;> simp <;> omega

/-- A group may have at most k more general registers than another. -/
def GrowsBy (k : Nat) (g h : Group) : Prop := h.generals ≤ g.generals + k

theorem GrowsBy.of_eq {g h : Group} (e : h.v = g.v) : GrowsBy 0 g h := by
  unfold GrowsBy Group.generals
  rw [e]
  omega

theorem GrowsBy.trans {a b : Nat} {g h k : Group} (x : GrowsBy a g h) (y : GrowsBy b h k) : GrowsBy (a + b) g k := by
  unfold GrowsBy at *
  omega

theorem GrowsBy.mono {a b : Nat} {g h : Group} (x : GrowsBy a g h) (hab : a ≤ b) : GrowsBy b g h := by
  unfold GrowsBy at *
  omega

theorem GrowsBy.put (g : Group) (n : Nat) (r : VReg) : GrowsBy 1 g { g with v := put g.v n r } := by
  have h := length_filter_set_le VReg.isGeneral g.v.toList n r
  simpa [GrowsBy, Group.generals, Machine.put] using h

theorem GrowsBy.putV (g : Group) (n : Nat) (m : Mask) (l : Lanes W32) (u : Bool) : GrowsBy 1 g (g.putV n m l u) := by
  unfold Group.putV
  split
  · split
    · exact GrowsBy.put g n _
    · exact GrowsBy.put g n _
  · split
    · exact (GrowsBy.of_eq rfl).mono (by omega)
    · exact (GrowsBy.of_eq rfl).mono (by omega)

theorem GrowsBy.putS (g : Group) (n : Nat) (x : W64) : GrowsBy 0 g (g.putS n x) := by
  unfold Group.putS
  split
  · exact GrowsBy.of_eq rfl
  · split
    · exact GrowsBy.of_eq rfl
    · exact GrowsBy.of_eq rfl

theorem GrowsBy.putP (g : Group) (n : Nat) (m x : Mask) : GrowsBy 0 g (g.putP n m x) := by
  unfold Group.putP
  split
  · exact GrowsBy.of_eq rfl
  · exact GrowsBy.of_eq rfl

theorem GrowsBy.writeLane (g : Group) (n : Nat) (act : Mask) (form : Form) (l : Lanes W32) :
    GrowsBy 1 g (g.writeLane n act form l) := by
  unfold Group.writeLane
  split
  · exact (GrowsBy.of_eq rfl).mono (by omega)
  · split
    · exact GrowsBy.put g n _
    · exact GrowsBy.put g n _

theorem GrowsBy.foldl {α : Type} (l : List α) (f : Group → α → Group) (g : Group) (h : ∀ g x, GrowsBy 1 g (f g x)) :
    GrowsBy l.length g (l.foldl f g) := by
  induction l generalizing g with
  | nil => exact GrowsBy.of_eq rfl
  | cons x xs ih =>
    have := (h g x).trans (ih (f g x))
    exact this.mono (by simp; omega)

theorem GrowsBy.putLanes (g : Group) (d : Opnd) (n : Nat) (act : Mask) (form : Nat → Form) (out : Lanes LaneOut) :
    GrowsBy n g (g.putLanes d n act form out) := by
  unfold Group.putLanes
  dsimp only
  split
  · simpa using GrowsBy.foldl (List.range n) _ g fun g j => GrowsBy.writeLane g _ _ _ _
  · exact (GrowsBy.of_eq rfl).mono (by omega)
  · simpa using GrowsBy.foldl (List.range n) _ g fun g j => GrowsBy.putV g _ _ _ _
  · exact (GrowsBy.putP ..).mono (by omega)
  · exact (GrowsBy.of_eq rfl).mono (by omega)

theorem GrowsBy.putGroup (g : Group) (d : Opnd) (signed : Bool) (out : LaneOut) :
    GrowsBy out.w.length g (g.putGroup d signed out) := by
  unfold Group.putGroup
  split
  · simpa using GrowsBy.foldl (List.range out.w.length) _ g fun g j => GrowsBy.put g _ _
  · exact (GrowsBy.putS ..).mono (by omega)
  · split
    · simpa using GrowsBy.foldl (List.range out.w.length) _ g fun g j => GrowsBy.putV g _ _ _ _
    · exact (GrowsBy.putS ..).mono (by omega)
  · exact (GrowsBy.putP ..).mono (by omega)
  · exact (GrowsBy.of_eq rfl).mono (by omega)

/-! ### The destination block -/

/-- The registers that an entry gives a destination are those that a write of n words reaches. -/
structure Fits (u : Use) (d : Opnd) (n : Nat) (grp : Bool) : Prop where
  v : ∀ i q, d = .v i q → n ≤ u.v
  x : grp = false → ∀ i, d = .x i → n ≤ u.x
  s : grp = true → ∀ i, d = .s i → 0 < u.s
  kv : ∀ i, d = .k i → i.val < 8 → n ≤ u.v
  ks : grp = true → ∀ i, d = .k i → 8 ≤ i.val → 0 < u.s

theorem putLanes_kept {u : Use} {d : Opnd} {n : Nat} (g : Group) (act : Mask) (form : Nat → Form) (out : Lanes LaneOut)
    (h : Fits u d n false) : RegsKept (spanOf u d) g (g.putLanes d n act form out) := by
  unfold Group.putLanes
  dsimp only
  split
  · rename_i i q
    refine RegsKept.foldl _ _ _ fun g j hj => Group.writeLane_kept _ _ _ ?_
    have hv := h.v i q rfl
    have hj' := List.mem_range.1 hj
    simp only [spanOf, show ¬ u.v = 0 by omega, if_false]
    exact covers_single _ _ _ _ (by omega) (by omega)
  · rename_i i
    refine ⟨rfl, fun _ _ => rfl, fun _ _ _ => rfl, fun _ _ => rfl, fun m hm => ?_, fun _ _ _ => rfl, fun _ _ _ _ => rfl, rfl, fun _ h => h⟩
    have hx := h.x rfl i rfl
    simp only [spanOf] at hm
    have key : ∀ (l : List Nat) (x : Vector (Lanes W32) 32), (∀ j ∈ l, i.val + j ≠ m) →
        nth (l.foldl (fun x j => put x (i.val + j) (mergeLanes act
          (tab 32 fun l => (nth out l { w := [] }).w.getD j 0) (nth x (i.val + j) (Vector.replicate 32 0)))) x) m
          (Vector.replicate 32 0) = nth x m (Vector.replicate 32 0) := by
      intro l
      induction l with
      | nil => intro x _; rfl
      | cons j js ih =>
        intro x hj
        rw [List.foldl_cons, ih _ fun k hk => hj k (List.mem_cons_of_mem _ hk)]
        exact nth_put_other _ _ _ (hj j (List.mem_cons_self ..))
    refine key _ _ fun j hj e => ?_
    have := covers_single 3 i.val u.x m (by omega) (by have := List.mem_range.1 hj; omega)
    rw [this] at hm
    cases hm
  · rename_i i
    refine RegsKept.foldl _ _ _ fun g j hj => RegsKept.putV _ _ _ (by omega) fun h1 h2 => ?_
    have hk := h.kv i rfl (by omega)
    have hj' := List.mem_range.1 hj
    simp only [spanOf, show i.val < 8 by omega, if_true]
    exact covers_single _ _ _ _ (by omega) (by omega)
  · rename_i i
    refine RegsKept.putP _ _ fun hi => ?_
    simp only [spanOf, show ¬ i.val = 7 by omega, if_false]
    exact covers_single _ _ _ _ (by omega) (by omega)
  · exact RegsKept.refl _ _

theorem putGroup_kept {u : Use} {d : Opnd} (g : Group) (signed : Bool) (out : LaneOut) (h : Fits u d out.w.length true) :
    RegsKept (spanOf u d) g (g.putGroup d signed out) := by
  unfold Group.putGroup
  split
  · rename_i i q
    refine RegsKept.foldl _ _ _ fun g j hj => RegsKept.putVreg _ ?_
    have hv := h.v i q rfl
    have hj' := List.mem_range.1 hj
    simp only [spanOf, show ¬ u.v = 0 by omega, if_false]
    exact covers_single _ _ _ _ (by omega) (by omega)
  · rename_i i
    have hs := h.s rfl i rfl
    refine RegsKept.putS _ (fun _ => ?_) fun h1 => by omega
    exact covers_single _ _ _ _ (by omega) (by omega)
  · rename_i i
    split
    · rename_i hi
      refine RegsKept.foldl _ _ _ fun g j hj => RegsKept.putV _ _ _ (by omega) fun h1 h2 => ?_
      have hk := h.kv i rfl hi
      have hj' := List.mem_range.1 hj
      simp only [spanOf, hi, if_true]
      exact covers_single _ _ _ _ (by omega) (by omega)
    · rename_i hi
      have hs := h.ks rfl i rfl (by omega)
      refine RegsKept.putS _ (fun h1 => by omega) fun _ => ⟨by omega, ?_⟩
      simp only [spanOf, hi, if_false]
      exact covers_single _ _ _ _ (by omega) (by omega)
  · rename_i i
    refine RegsKept.putP _ _ fun hi => ?_
    simp only [spanOf, show ¬ i.val = 7 by omega, if_false]
    exact covers_single _ _ _ _ (by omega) (by omega)
  · exact RegsKept.refl _ _

/-- What a register-only instruction does to its group keeps all but its destination, and makes at most n registers
general. -/
structure Tame (d : List Span) (n : Nat) (h : Group → Group) : Prop where
  kept : ∀ g, RegsKept d g (h g)
  grows : ∀ g, GrowsBy n g (h g)

/-- The registers that a write of n words to a destination may make general. -/
def grownBy (d : Opnd) (n : Nat) : Nat :=
  match d with
  | .v _ _ => n
  | _ => 0

theorem GrowsBy.foldl_zero {α : Type} (l : List α) (f : Group → α → Group) (g : Group) (h : ∀ g, ∀ x ∈ l, GrowsBy 0 g (f g x)) :
    GrowsBy 0 g (l.foldl f g) := by
  induction l generalizing g with
  | nil => exact GrowsBy.of_eq rfl
  | cons x xs ih => exact ((h g x (List.mem_cons_self ..)).trans (ih _ fun g y hy => h g y (List.mem_cons_of_mem _ hy))).mono (by omega)

theorem GrowsBy.putV_handler (g : Group) (n : Nat) (m : Mask) (l : Lanes W32) (u : Bool) (hn : 256 ≤ n) :
    GrowsBy 0 g (g.putV n m l u) := by
  unfold Group.putV
  rw [if_neg (by omega)]
  split <;> exact GrowsBy.of_eq rfl

theorem GrowsBy.putLanes_dest (g : Group) (d : Opnd) (n : Nat) (act : Mask) (form : Nat → Form) (out : Lanes LaneOut) :
    GrowsBy (grownBy d n) g (g.putLanes d n act form out) := by
  cases d
  case v i q => exact GrowsBy.putLanes ..
  case k i => exact GrowsBy.foldl_zero _ _ _ fun g j _ => GrowsBy.putV_handler g _ _ _ _ (by omega)
  case p i => exact GrowsBy.putP ..
  all_goals exact GrowsBy.of_eq rfl

theorem GrowsBy.putGroup_dest (g : Group) (d : Opnd) (signed : Bool) (out : LaneOut) :
    GrowsBy (grownBy d out.w.length) g (g.putGroup d signed out) := by
  cases d
  case v i q => exact GrowsBy.putGroup ..
  case s i => exact GrowsBy.putS ..
  case k i =>
    unfold Group.putGroup
    dsimp only
    split
    · exact GrowsBy.foldl_zero _ _ _ fun g j _ => GrowsBy.putV_handler g _ _ _ _ (by omega)
    · exact GrowsBy.putS ..
  case p i => exact GrowsBy.putP ..
  all_goals exact GrowsBy.of_eq rfl

/-- The V registers of a destination are at least the words written there. -/
theorem grownBy_le {u : Use} {d : Opnd} {n : Nat} {grp : Bool} (h : Fits u d n grp) : grownBy d n ≤ vRegs (spanOf u d) := by
  cases d
  case v i q =>
    have := h.v i q rfl
    unfold grownBy vRegs spanOf
    by_cases hu : u.v = 0
    · simp [hu]; omega
    · simp [hu]; omega
  all_goals exact Nat.zero_le _

/-- A result written by the scope (R126, R167). -/
theorem writeBy_tame {c : Ctx} {n : Nat} {form : Nat → Form} {signed : Bool} {draws : Nat} {out : Nat → LaneOut}
    (u : Use) (hn : ∀ l, (out l).w.length = n) (hl : c.f.scope ≠ .group → Fits u c.f.d n false)
    (hg : c.f.scope = .group → Fits u c.f.d n true) :
    ∃ h, c.writeBy n form signed draws out = .done h ∧ Tame (spanOf u c.f.d) (grownBy c.f.d n) h := by
  unfold Ctx.writeBy
  by_cases hs : c.f.scope = .group
  · simp only [hs, if_true]
    refine ⟨_, rfl, fun g => ?_, fun g => ?_⟩
    · exact ((putGroup_kept g signed _ (by rw [hn]; exact hg hs)).trans (RegsKept.raiseFlags _ _ _)).trans (RegsKept.drew _ _ _ _)
    · have := GrowsBy.putGroup_dest g c.f.d signed (out c.designated)
      rw [hn] at this
      exact this
  · simp only [hs, if_false]
    refine ⟨_, rfl, fun g => ?_, fun g => ?_⟩
    · exact ((putLanes_kept g c.act form _ (hl hs)).trans (RegsKept.raiseFlags _ _ _)).trans (RegsKept.drew _ _ _ _)
    · exact GrowsBy.putLanes_dest g c.f.d n c.act form _

/-! ### The whole instruction -/

/-- The splits and the latch play no part in what is kept. -/
theorem RegsKept.with {d : List Span} {g h : Group} (k : RegsKept d g h) (x : Vector (Option Split) 4) (l : Option Latch) :
    RegsKept d { g with splits := x, latch := l } { h with splits := x, latch := l } :=
  ⟨by rw [k.rest], k.v, k.s, k.p, k.x, k.kv, k.ks, k.handler, k.flags⟩

theorem Group.modSplit_eq (g : Group) (n : Nat) (f : Split → Split) : g.modSplit n f = { g with splits := (g.modSplit n f).splits } := by
  unfold Group.modSplit
  split <;> rfl

/-- The state after a register-only instruction whose checks pass. -/
theorem nextWord_of_kept {s : State} {c : Ctx} {d : List Span} {h : Group → Group}
    (hc : s.group? c.who.team c.who.group = some c.g) (hsp : c.g.split? c.who.split = some c.sp)
    (hk : ∀ g, RegsKept d g (h g)) :
    NextWord s (((s.issued c).modGroup c.who.team c.who.group h).advance c.who) c d := by
  have hidx : ∀ g, (h g).index = g.index := fun g => by rw [(hk g).rest]
  refine ⟨((OnlyGroup.issued s c).trans (OnlyGroup.modGroup _ c.who h hidx)).trans (OnlyGroup.modSplit _ c.who _), ?_⟩
  obtain ⟨l, hl⟩ := State.issued_group hc
  have h1 := (s.issued c).group?_modGroup c.who.team c.who.group h hidx
  rw [hl] at h1
  have h2 := ((s.issued c).modGroup c.who.team c.who.group h).group?_modSplit c.who fun x => { x with pc := x.pc + 12, wait := .ready }
  rw [h1] at h2
  have hlt := Group.split?_lt hsp
  have hs1 := Group.split?_modSplit c.g (fun x => { x with windows := c.windows }) hlt
  have hs2 : ∀ n, n ≠ c.who.split →
      ({ c.g with splits := (c.g.modSplit c.who.split fun x => { x with windows := c.windows }).splits } : Group).split? n =
        c.g.split? n := fun n hn => by
    rw [← Group.modSplit_eq]
    exact Group.split?_modSplit_other c.g _ (Ne.symm hn)
  rw [Group.modSplit_eq c.g] at h2 hs1
  generalize (c.g.modSplit c.who.split fun x => { x with windows := c.windows }).splits = sp at *
  have hg := hk { c.g with splits := sp, latch := l }
  rw [Option.map_some, Option.map_some] at h2
  dsimp only at h2
  have hspl : ∀ n, (h { c.g with splits := sp, latch := l }).split? n = ({ c.g with splits := sp } : Group).split? n := by
    intro n
    unfold Group.split?
    rw [hg.rest]
  refine ⟨_, h2, ?_, ?_, ?_⟩
  · have := hg.with c.g.splits c.g.latch
    rw [Group.modSplit_eq]
    exact this
  · rw [Group.split?_modSplit _ _ hlt, hspl, hs1, hsp]
    rfl
  · intro n hn
    rw [Group.split?_modSplit_other _ _ (Ne.symm hn), hspl, hs2 n hn]

/-- A register-only instruction that issues with room under its ceiling completes, and changes only its destination. -/
theorem registers_nextWord {i : Instr} {f : Fields} {s : State} {body : Ctx → Eff} {c : Ctx} {n k : Nat} {d : List Span}
    (hi : Issues s i f c) (hr : c.room k) (hb : ∃ h, body c = .done h ∧ Tame d n h) (hn : n ≤ k) :
    ∃ t, registers i f s body = .next t ∧ NextWord s t c d := by
  obtain ⟨h, he, ht⟩ := hb
  obtain ⟨-, -, -, -, -, hsp, -⟩ := State.ctx_some hi.inHand
  refine ⟨_, registers_done hi.inHand hi.sources he hi.active (overCeiling_of_room hr ?_) hi.kept, ?_⟩
  · have := ht.grows c.g
    unfold GrowsBy at this
    omega
  · exact nextWord_of_kept (State.ctx_group hi.inHand) hsp ht.kept

end Sys2Proof.Machine
end

