-- ==== Sys2Proof/Tests/Slice0.lean ====
section
/-! SUPPORT. Tests: words of the spec decoded, ill-formed words refused, the conditions of every statement met by a
concrete state, and single steps whose results are worked out from the spec. -/

namespace Sys2Proof.Tests

open Sys2Proof.Machine

-- One proof after another is checked: each check of a test keeps a stack of its own.
set_option Elab.async false

/-! ### States and operands for the tests -/

/-- A word of the three 32-bit values in which the spec prints it. -/
def word (w0 w1 w2 : Nat) : InsWord := BitVec.ofNat 96 (w0 + w1 * 2 ^ 32 + w2 * 2 ^ 64)

/-- The environment of an ordinary group. -/
def env : Env := { kRegs := false, rett := false, noRdv := false, gang := 0, tiles := 16, twin := false }

abbrev V (n : Fin 256) : Opnd := .v n .id
abbrev S (n : Fin 64) : Opnd := .s n
abbrev P (n : Fin 8) : Opnd := .p n
abbrev T (n : Fin 16) : Opnd := .t n
abbrev I (n : Nat) : Opnd := .imm (BitVec.ofNat 16 n)
abbrev Z (n : Fin 256) : Opnd := .special n

/-- Fields with guard P7, the type, the SUB and the operands; an operand not given is unused. -/
def fm (sc : Scope) (dt sub : Nat) (d a b c : Opnd := default) : Fields :=
  { (default : Fields) with scope := sc, gp := 7, dt := BitVec.ofNat 4 dt, sub := BitVec.ofNat 4 sub, d := d, a := a, b := b, c := c }

/-- One team of one group on core 0, its split at address 0 with 32 threads, every register 0 (log 20). -/
def base : State := State.reset.placeWord 0

/-- The same with the group in its trap handler. -/
def inHandler : State := State.reset.placeWord 0x0C

/-- The only team of a test state changed. -/
def onTeam (f : Team → Team) (s : State) : State := s.modTeam 0 f
/-- Its group changed. -/
def onGroup (f : Group → Group) (s : State) : State := s.modGroup 0 0 f
/-- Its split changed. -/
def onSplit (f : Split → Split) (s : State) : State := s.modSplit { team := 0, group := 0, split := 0 } f
/-- A scalar register set. -/
def setS (n x : Nat) (s : State) : State := onGroup (fun g => { g with s := put g.s n (BitVec.ofNat 64 x) }) s
/-- A vector register set, lane by lane. -/
def setV (n : Nat) (x : Nat → Nat) (s : State) : State :=
  onGroup (fun g => { g with v := put g.v n (.general (tab 32 fun l => BitVec.ofNat 32 (x l))) }) s
/-- A uniform vector register. -/
def setU (n x : Nat) (s : State) : State := onGroup (fun g => { g with v := put g.v n (.uniform (BitVec.ofNat 32 x)) }) s
/-- Bytes of memory set. -/
def setMem (key : Nat) (bs : List Byte) (s : State) : State := s.poke (keyed key bs)
/-- Context 0's entry names a trap handler at 0x8000. -/
def withHandler (s : State) : State := setMem 0x1020 (leBytes 8 0x8000) s

/-! ### How a condition is shown to be met -/

/-- The conditions of `Runs` and a further one, computed. -/
def runsB (s : State) (i : Instr) (f : Fields) (room : Bool) (p : Ctx → Bool) : Bool :=
  match s.ctx i f with
  | some c => !s.depends c && c.act != 0 && !c.broken && i.wf (groupEnv c.t c.g) &&
      (!room || decide (c.g.generals + vRegs c.written ≤ c.g.ceiling)) && p c
  | none => false

theorem runsB_ctx {s : State} {i : Instr} {f : Fields} {room : Bool} {p : Ctx → Bool} (h : runsB s i f room p = true) :
    ∃ c, RunsNarrow s i f c ∧ (room = true → c.room (vRegs c.written)) ∧ p c = true := by
  unfold runsB at h
  split at h
  · rename_i c hc
    simp only [Bool.and_eq_true, Bool.not_eq_true', bne_iff_ne, ne_eq, Bool.or_eq_true, decide_eq_true_eq] at h
    refine ⟨c, ⟨⟨hc, h.1.1.1.1.1, h.1.1.1.1.2, h.1.1.1.2⟩, h.1.1.2⟩, ?_, h.2⟩
    intro hr
    rcases h.1.2 with h' | h'
    · simp [hr] at h'
    · exact h'
  · simp at h

/-- A word runs, and p holds of what it has in hand. -/
theorem runs {s : State} {i : Instr} {f : Fields} {p : Ctx → Prop} [DecidablePred p]
    (h : runsB s i f true (fun c => decide (p c)) = true) : ∃ c, Runs s i f c ∧ p c := by
  obtain ⟨c, hc, hr, hp⟩ := runsB_ctx h
  exact ⟨c, ⟨hc.issues, hc.wf, hr rfl⟩, of_decide_eq_true hp⟩

/-- The same where nothing is said of the ceiling. -/
theorem runsNarrow {s : State} {i : Instr} {f : Fields} {p : Ctx → Prop} [DecidablePred p]
    (h : runsB s i f false (fun c => decide (p c)) = true) : ∃ c, RunsNarrow s i f c ∧ p c := by
  obtain ⟨c, hc, _, hp⟩ := runsB_ctx h
  exact ⟨c, hc, of_decide_eq_true hp⟩

/-- Each instruction of a list runs. -/
theorem allRun {s : State} {l : List Instr} (h : (l.all fun i => match fieldsOf i with
    | some f => runsB s i f true fun _ => true
    | none => false) = true) : ∀ i ∈ l, ∃ f c, fieldsOf i = some f ∧ Runs s i f c := by
  intro i hi
  have := List.all_eq_true.1 h i hi
  split at this
  · rename_i f hf
    obtain ⟨c, hc, hr, _⟩ := runsB_ctx this
    exact ⟨f, c, hf, ⟨hc.issues, hc.wf, hr rfl⟩⟩
  · simp at this

/-- The split in focus has the word in hand, and p holds. -/
theorem inHand {s : State} {i : Instr} {f : Fields} {p : Ctx → Prop} [DecidablePred p]
    (h : ((s.ctx i f).any fun c => decide (p c)) = true) : ∃ c, s.ctx i f = some c ∧ p c := by
  cases hc : s.ctx i f with
  | none => simp [hc] at h
  | some c => exact ⟨c, rfl, by simpa [hc] using h⟩

/-- The conditions of `Accesses` and a further one, computed. -/
def accessB (s : State) (i : Instr) (f : Fields) (sp : Space) (n : Nat) (acc : Access) (align : Bool)
    (p : Ctx → State → List (Nat × List Spot) → Bool) : Bool :=
  runsB s i f true fun c => (sp != .shared || (s.sharedStall c).isNone) && (s.pieceStall c.who.team c.who.group).isNone &&
    match resolve c sp n acc align (lanesOf c.act) (s.settlePieces c.who.team c.who.group) with
    | (s1, .ok l) => (s1.accessStall c (acc != .read) (l.flatMap Prod.snd)).isNone && p c s1 l
    | _ => false

/-- A memory word's access goes ahead, and p holds. -/
theorem accesses {s : State} {i : Instr} {f : Fields} {sp : Space} {n : Nat} {acc : Access} {align : Bool}
    {p : Ctx → State → List (Nat × List Spot) → Prop} [∀ c s l, Decidable (p c s l)]
    (h : accessB s i f sp n acc align (fun c s1 l => decide (p c s1 l)) = true) :
    ∃ c s1 l, Accesses s i f c sp n acc align s1 l ∧ p c s1 l := by
  obtain ⟨c, hc, hr, hp⟩ := runsB_ctx h
  simp only [Bool.and_eq_true, Option.isNone_iff_eq_none (α := Resource) (o := s.pieceStall _ _)] at hp
  obtain ⟨⟨hk, hq⟩, hp⟩ := hp
  split at hp
  · rename_i s1 l he
    simp only [Bool.and_eq_true, Option.isNone_iff_eq_none] at hp
    refine ⟨c, s1, l, ⟨⟨hc.issues, hc.wf, hr rfl⟩, ?_, hq, he, hp.1⟩, of_decide_eq_true hp.2⟩
    intro hsp
    simpa [hsp, Option.isNone_iff_eq_none] using hk
  · simp at hp

/-- An option computed to hold a value that meets p holds one. -/
theorem someOf {α : Type} {o : Option α} {p : α → Prop} [DecidablePred p] (h : (o.any fun a => decide (p a)) = true) : ∃ a, o = some a ∧ p a := by
  cases o with
  | none => simp at h
  | some a => exact ⟨a, rfl, by simpa using h⟩
/-- What an access that reaches its places must meet, computed. -/
def okB {σ ε α : Type} (r : σ × Except ε α) (p : σ → α → Bool) : Bool :=
  match r with
  | (s, .ok a) => p s a
  | _ => false
/-- An access computed to reach a place where p holds reaches one. -/
theorem okOf {σ ε α : Type} {r : σ × Except ε α} {p : σ → α → Prop} [∀ s a, Decidable (p s a)] (h : okB r (fun s a => decide (p s a)) = true) :
    ∃ s a, r = (s, .ok a) ∧ p s a := by
  unfold okB at h
  split at h
  · exact ⟨_, _, rfl, of_decide_eq_true h⟩
  · simp at h
theorem okOf' {σ ε α : Type} {r : σ × Except ε α} {p : σ → α → Bool} (h : okB r p = true) : ∃ s a, r = (s, .ok a) ∧ p s a = true := by
  unfold okB at h
  split at h
  · exact ⟨_, _, rfl, h⟩
  · simp at h
/-- The same of a stop. -/
def errB {σ ε α : Type} (r : σ × Except ε α) (p : σ → ε → Bool) : Bool :=
  match r with
  | (s, .error a) => p s a
  | _ => false
theorem errOf {σ ε α : Type} {r : σ × Except ε α} {p : σ → ε → Prop} [∀ s a, Decidable (p s a)] (h : errB r (fun s a => decide (p s a)) = true) :
    ∃ s a, r = (s, .error a) ∧ p s a := by
  unfold errB at h
  split at h
  · exact ⟨_, _, rfl, of_decide_eq_true h⟩
  · simp at h

/-- Nothing of another agent is under way at a slice. -/
abbrev Quiet (s : State) : Prop := s.mire = [] ∧ (∀ r ∈ s.reservations, r.hold = false) ∧ Memory.wf s.mem = true

/-! ### Decoding: words that the spec prints, field by field as its text reads them -/

/-- A word decodes to an instruction, computed. -/
theorem reads {e : Env} {w : InsWord} {i : Instr} (h : (match decode e w with
    | .ok j => decide (j = i)
    | .error _ => false) = true) : decode e w = .ok i := by
  split at h
  · rename_i j hj
    exact hj.trans (congrArg _ (of_decide_eq_true h))
  · simp at h

/-- Decode refuses a word, computed. -/
theorem refuses {e : Env} {w : InsWord} {x : DecodeFault} (h : (match decode e w with
    | .ok _ => false
    | .error y => decide (y = x)) = true) : decode e w = .error x := by
  split at h
  · simp at h
  · rename_i y hy
    exact hy.trans (congrArg _ (of_decide_eq_true h))

/-- R28: `FFMA V4, V1.ROT 5, V2, −V3` in FP32, rounded to nearest. -/
theorem test_decode_ffma : decode env (word 0x00101C43 0x00092804 0x40060080) =
    .ok (.ffma { fm .lane 0 0 (V 4) (.v 1 (.rot 5)) (V 2) (V 3) with rnd := 1#3, xm := 4#4 }) :=
  reads (by decide +kernel)
/-- R29: a backward branch of three words, guard not P2. -/
theorem test_decode_bra : decode env (word 0x00002802 0xEFFFE800 0x00017FFF) =
    .ok (.bra { fm .lane 0 0 default (I 0xFFFD) (I 0xFFFF) with gp := 2, gn := true }) :=
  reads (by decide +kernel)
/-- `ICMP.LT.S32 P1, V3, 100`. -/
theorem test_decode_icmp : decode env (word 0x20001C3D 0x00180201 0x00014019) = .ok (.icmp (fm .lane 0 2 (P 1) (V 3) (I 100))) :=
  reads (by decide +kernel)
/-- `BILV.W2.B32 V5, V0, V1`. -/
theorem test_decode_bilv : decode env (word 0x04001C3B 0x00000005 0x00000040) = .ok (.bilv (fm .lane 4 0 (V 5) (V 0) (V 1))) :=
  reads (by decide +kernel)
/-- A GROUP-scope addition in the scalar registers: S5 gets S5 + 16. -/
theorem test_decode_iadd : decode env (word 0x00001D20 0x08280105 0x00014004) = .ok (.iadd (fm .group 0 0 (S 5) (S 5) (I 16))) :=
  reads (by decide +kernel)
/-- The division of the softmax program: guard not P3, rounded to nearest. -/
theorem test_decode_fdiv : decode env (word 0x00102C49 0x00400008 0x000000C0) =
    .ok (.fdiv { fm .lane 0 0 (V 8) (V 8) (V 3) with gp := 3, gn := true, rnd := 1#3 }) :=
  reads (by decide +kernel)
/-- `VOTE.ANY.TM P2, P3`. -/
theorem test_decode_vote : decode env (word 0x10001F62 0x10180202 0) = .ok (.vote (fm .team 0 1 (P 2) (P 3))) :=
  reads (by decide +kernel)
/-- `TAGQ S3, V9` and `RELV V8, 4`. -/
theorem test_decode_tags : decode env (word 0x00001D6A 0x00480103 0) = .ok (.tagq (fm .group 0 0 (S 3) (V 9))) ∧
    decode env (word 0x00001D6C 0x28002008 0) = .ok (.relv (fm .group 0 0 (V 8) (I 4))) :=
  ⟨reads (by decide +kernel), reads (by decide +kernel)⟩
/-- `LD.B32.ACQ.TM V5, [S4 + V2]` with a lookahead window of 2. -/
theorem test_decode_ld : decode env (word 0x08009C80 0x08200005 0x50000080) =
    .ok (.ld { fm .lane 8 0 (V 5) (S 4) (V 2) with la := 2, xm := 5#4 }) :=
  reads (by decide +kernel)
/-- `@P1 ST.B128 [S4 + 0x38], V16..V19`. -/
theorem test_decode_st : decode env (word 0x0A000481 0x08200000 0x0021400E) =
    .ok (.st { fm .lane 10 0 default (S 4) (I 0x38) (V 16) with gp := 1 }) :=
  reads (by decide +kernel)
/-- `DXQ [S16..S19], 0x30` and `WAITB S20`. -/
theorem test_decode_engine : decode env (word 0x00001DA3 0x08800000 0x0001400C) = .ok (.dxq (fm .group 0 0 default (S 16) (I 0x30))) ∧
    decode env (word 0x00001DA8 0x08A00000 0) = .ok (.waitb (fm .group 0 0 default (S 20))) :=
  ⟨reads (by decide +kernel), reads (by decide +kernel)⟩
/-- `COLLQ.ALLRED.GP [S16..S20], 0x40` and `LAUNCHQ [S8..S9], 0x50`. -/
theorem test_decode_die_engine : decode env (word 0x00001DA5 0x08800000 0x00014010) = .ok (.collq (fm .group 0 0 default (S 16) (I 0x40))) ∧
    decode env (word 0x00001DA6 0x08400000 0x00014014) = .ok (.launchq (fm .group 0 0 default (S 8) (I 0x50))) :=
  ⟨reads (by decide +kernel), reads (by decide +kernel)⟩
/-- `SYNC.TM`, `ARRIVE S3, 2` and `WAITBAR 2, S3`. -/
theorem test_decode_sync : decode env (word 0x00001FB0 0 0) = .ok (.sync (fm .team 0 0)) ∧
    decode env (word 0x00001DB1 0x28001103 0) = .ok (.arrive (fm .group 0 0 (S 3) (I 2))) ∧
    decode env (word 0x00001DB2 0x28001000 0x000040C0) = .ok (.waitbar (fm .group 0 0 default (I 2) (S 3))) :=
  ⟨reads (by decide +kernel), reads (by decide +kernel), reads (by decide +kernel)⟩
/-- `JOIN.AT` five words on, `TRAP 0x21` and `TILEQ S3, S2`. -/
theorem test_decode_control : decode env (word 0x10001C07 0x28002800 0x00014000) = .ok (.joinAt (fm .lane 0 1 default (I 5) (I 0))) ∧
    decode env (word 0x00001C0A 0x28010800 0) = .ok (.trap (fm .lane 0 0 default (I 0x21))) ∧
    decode env (word 0x00001D15 0x08100103 0) = .ok (.tileq (fm .group 0 0 (S 3) (S 2))) :=
  ⟨reads (by decide +kernel), reads (by decide +kernel), reads (by decide +kernel)⟩
/-- `MMA.E4M3 T2, V32..V63, [S8]` with REUSE. -/
theorem test_decode_mma : decode env (word 0x01041DC0 0x01000402 0x00004200) =
    .ok (.mma { fm .group 1 0 (T 2) (V 32) (S 8) with reuse := true }) :=
  reads (by decide +kernel)
/-- The three matrix words of the k-means program, which stand in a gang of four. -/
theorem test_decode_distance : let e := { env with gang := 4 }
    decode e (word 0x15001ECA 0x18000400 0x00004200) = .ok (.dist (fm .gang 5 1 (T 0) (.x 0) (S 8))) ∧
    decode e (word 0x21001ECB 0x08680400 0x00004340) = .ok (.dargm (fm .gang 1 2 (T 0) (S 13) (S 13))) ∧
    decode e (word 0x05001ECC 0x18000401 0x021D0000) = .ok (.dkacc (fm .gang 5 0 (T 1) (.x 0) (T 0) (S 14))) :=
  ⟨reads (by decide +kernel), reads (by decide +kernel), reads (by decide +kernel)⟩
/-- `GSW V20, S6, V2..V3`, `BLEND V8..V12, V20, V16..V18, P3` and `@P1 EMIT 0, V8`. -/
theorem test_decode_splat : decode env (word 0x00001CE0 0x08300014 0x00000080) = .ok (.gsw (fm .lane 0 0 (V 20) (S 6) (V 2))) ∧
    decode env (word 0x00001CE1 0x00A00008 0x04060400) = .ok (.blend (fm .lane 0 0 (V 8) (V 20) (V 16) (P 3))) ∧
    decode env (word 0x000004E3 0x28000000 0x00000200) = .ok (.emit { fm .lane 0 0 default (I 0) (V 8) with gp := 1 }) :=
  ⟨reads (by decide +kernel), reads (by decide +kernel), reads (by decide +kernel)⟩
/-- R14 to R17: CVT's word put together field by field: OPC 0x70, SCOPE LANE, GP 7, RND RNE, DT 2, D V6, A V7. -/
theorem test_decode_cvt : decode env (BitVec.ofNat 96 (0x70 + 7 * 2 ^ 10 + 1 * 2 ^ 20 + 2 * 2 ^ 24 + 6 * 2 ^ 32 + 7 * 2 ^ (43 + 8))) =
    .ok (.cvt { fm .lane 2 0 (V 6) (V 7) with rnd := 1#3 }) :=
  reads (by decide +kernel)
/-- R26: opcode 0x00 and an opcode of no row are instructions of their own, which raise ILLOPC. -/
theorem test_decode_unassigned : decode env 0 = .ok (.unassignedOpcode 0) ∧ decode env 0xFF = .ok (.unassignedOpcode 0xFF) :=
  ⟨reads (by decide +kernel), reads (by decide +kernel)⟩
/-- The table's numbering of bits. -/
theorem test_decode_table_word : decodeTableWord 96 0x0001401900180201_20001C3D = some (.icmp (fm .lane 0 2 (P 1) (V 3) (I 100))) := by
  decide +kernel
/-- Encoding gives the printed word. -/
theorem test_encode_ffma : encode (.ffma { fm .lane 0 0 (V 4) (.v 1 (.rot 5)) (V 2) (V 3) with rnd := 1#3, xm := 4#4 }) =
    word 0x00101C43 0x00092804 0x40060080 := by decide +kernel

/-! ### Ill-formed words: one for each check of R15 to R26 -/

/-- A well-formed word beside which the ill-formed ones stand. -/
theorem test_wf_accepts : (Instr.iadd (fm .lane 0 0 (V 0) (V 1) (V 2))).wf env = true := by decide +kernel
/-- A DT that the entry does not list (R25, R173). -/
theorem test_wf_type : (Instr.iadd (fm .lane 4 0 (V 0) (V 1) (V 2))).wf env = false := by decide +kernel
/-- A reserved SUB (R25, R180). -/
theorem test_wf_sub : (Instr.icmp (fm .lane 0 6 (P 1) (V 1) (V 2))).wf env = false := by decide +kernel
/-- A reserved SUB of an opcode with several rows. -/
theorem test_wf_sub_row : decode env (BitVec.ofNat 96 (0x61 + 7 * 2 ^ 10 + 4 * 2 ^ 28)) = .error .illenc :=
  refuses (by decide +kernel)
/-- An XM bit that the entry does not give a meaning (R25, R173). -/
theorem test_wf_xm : (Instr.iadd { fm .lane 0 0 (V 0) (V 1) (V 2) with xm := 4#4 }).wf env = false := by decide +kernel
/-- SAT where the entry does not permit it (R24). -/
theorem test_wf_sat : (Instr.imul { fm .lane 0 0 (V 0) (V 1) (V 2) with sat := true }).wf env = false := by decide +kernel
/-- RND where the entry does not round, and the reserved RND 7 (R24). -/
theorem test_wf_rnd : (Instr.iadd { fm .lane 0 0 (V 0) (V 1) (V 2) with rnd := 1#3 }).wf env = false ∧
    (Instr.fadd { fm .lane 0 0 (V 0) (V 1) (V 2) with rnd := 7#3 }).wf env = false := by decide +kernel
/-- A lookahead window where the entry does not permit one (R21). -/
theorem test_wf_la : (Instr.iadd { fm .lane 0 0 (V 0) (V 1) (V 2) with la := 1 }).wf env = false := by decide +kernel
/-- REUSE outside the matrix entries (R22). -/
theorem test_wf_reuse : (Instr.iadd { fm .lane 0 0 (V 0) (V 1) (V 2) with reuse := true }).wf env = false := by decide +kernel
/-- A kind that the field does not accept (R15): a predicate as an integer source. -/
theorem test_wf_kind : (Instr.iadd (fm .lane 0 0 (V 0) (P 1) (V 2))).wf env = false := by decide +kernel
/-- A pair at an odd register (R168). -/
theorem test_wf_pair : (Instr.iadd (fm .lane 2 0 (V 0) (V 1) (V 2))).wf env = false := by decide +kernel
/-- A block past V255 (R16): RELV of 2 from V255. -/
theorem test_wf_block_end : (Instr.relv (fm .group 0 0 (V 255) (I 2))).wf env = false ∧
    (Instr.relv (fm .group 0 0 (V 255) (I 1))).wf env = true := by decide +kernel
/-- A block past S63. -/
theorem test_wf_sblock_end : (Instr.evpop (fm .group 0 0 (S 61))).wf env = false ∧ (Instr.evpop (fm .group 0 0 (S 60))).wf env = true := by
  decide +kernel
/-- An unused operand that is not zero (R16). -/
theorem test_wf_unused : (Instr.iadd (fm .lane 0 0 (V 0) (V 1) (V 2) (V 3))).wf env = false := by decide +kernel
/-- A permutation of C or D (R14). -/
theorem test_wf_perm_place : (Instr.iadd (fm .lane 0 0 (.v 0 (.rot 1)) (V 1) (V 2))).wf env = false := by decide +kernel
/-- MIR with k outside 1 to 5 (R18). -/
theorem test_wf_mirror : (Instr.iadd (fm .lane 0 0 (V 0) (.v 1 (.mir 6)) (V 2))).wf env = false ∧
    (Instr.iadd (fm .lane 0 0 (V 0) (.v 1 (.mir 5)) (V 2))).wf env = true := by decide +kernel
/-- A scope that the entry does not permit: ILLSCOPE (R26). -/
theorem test_wf_scope : (Instr.iadd (fm .team 0 0 (V 0) (V 1) (V 2))).wf env = false ∧
    decode env (encodeWord 0x20 (fm .team 0 0 (V 0) (V 1) (V 2))) = .error .illscope :=
  ⟨by decide +kernel, refuses (by decide +kernel)⟩
/-- GANG scope in a group of no gang (R130). -/
theorem test_wf_gang : (Instr.sync (fm .gang 0 0)).wf env = false ∧ (Instr.sync (fm .gang 0 0)).wf { env with gang := 4 } = true := by
  decide +kernel
/-- GANG and TEAM scope in a trap handler (R361). -/
theorem test_wf_handler_scope : (Instr.sync (fm .team 0 0)).wf { env with noRdv := true } = false := by decide +kernel
/-- A K register outside a trap handler (R15), and RETT outside one (R377). -/
theorem test_wf_handler_only : (Instr.mov (fm .group 0 0 (S 1) (.k 8))).wf env = false ∧ (Instr.rett (fm .group 0 0)).wf env = false := by
  decide +kernel
/-- A tile at or past TILES (R206). -/
theorem test_wf_tiles : (Instr.tzero (fm .group 0 0 (T 4))).wf { env with tiles := 4 } = false := by decide +kernel
/-- An X register in a group of no gang (R130). -/
theorem test_wf_slice : (Instr.mov (fm .lane 0 0 (V 0) (.x 1))).wf env = false := by decide +kernel
/-- A twin form in a team of one core (R214). -/
theorem test_wf_twin : (Instr.mma (fm .team 0 2 (T 0) (V 32) (S 8))).wf env = false := by decide +kernel
/-- A special register past the last (R331). -/
theorem test_wf_special : (Instr.movsr (fm .lane 0 0 (V 0) (Z 23))).wf env = false := by decide +kernel
/-- Blocks that overlap (R264). -/
theorem test_wf_overlap : (Instr.gsw (fm .lane 0 0 (V 2) (S 6) (V 2))).wf env = false := by decide +kernel
/-- A kind of R15 whose index is out of range: S64. -/
theorem test_wf_index : decode env (BitVec.ofNat 96 (0x20 + 7 * 2 ^ 10 + 64 * 2 ^ 51 + 1 * 2 ^ 59)) = .error .illenc :=
  refuses (by decide +kernel)

/-! ### Conditions of the statements on encoding, the step and issue -/

theorem witness_EncodeThenDecode : ∃ (e : Env) (i : Instr), i.wf e = true := ⟨env, _, test_wf_accepts⟩
theorem witness_DecodeThenEncode : ∃ (e : Env) (w : InsWord) (i : Instr), decode e w = .ok i := ⟨env, _, _, test_decode_icmp⟩

/-- What the step needs in order to run a decoded word, computed. -/
def wordTurn (s : State) : Bool :=
  s.agenda.isEmpty && match s.tickOn.turn with
  | some (.inr w) => match s.tickOn.team? w.team with
    | some t => match t.group? w.group with
      | some g => match g.split? w.split with
        | some sp => sp.mask != 0 && match s.tickOn.reach g.core t.ctx (BitVec.ofNat 64 sp.pc) 12 .fetch with
          | (s0, .ok l) =>
            let s1 := s0.beforeRead t.ctx g.core false l
            (s0.readCheck l).isNone && (s1.core g.core).icache.isEmpty && match decode (groupEnv t g) (wordOfBytes (s1.readSpots l)) with
              | .ok _ => true
              | .error _ => false
          | _ => false
        | none => false
      | none => false
    | none => false
  | _ => false

theorem wordTurn_sound {s : State} (h : wordTurn s = true) : ∃ s0 w t g sp l i, s.agenda = [] ∧ s.tickOn.turn = some (.inr w) ∧
    s.tickOn.team? w.team = some t ∧ t.group? w.group = some g ∧ g.split? w.split = some sp ∧
    sp.mask ≠ 0 ∧ s.tickOn.reach g.core t.ctx (BitVec.ofNat 64 sp.pc) 12 .fetch = (s0, .ok l) ∧ s0.readCheck l = none ∧
    (∀ e ∈ ((s0.beforeRead t.ctx g.core false l).core g.core).icache, e.1 = t.ctx → e.2.1 = sp.pc % 2 ^ 48 →
      e.2.2 = wordOfBytes ((s0.beforeRead t.ctx g.core false l).readSpots l)) ∧
    decode (groupEnv t g) (wordOfBytes ((s0.beforeRead t.ctx g.core false l).readSpots l)) = .ok i := by
  unfold wordTurn at h
  simp only [Bool.and_eq_true, List.isEmpty_iff] at h
  obtain ⟨ha, h⟩ := h
  split at h <;> try (simp at h; done)
  rename_i w hw
  split at h <;> try (simp at h; done)
  rename_i t ht
  split at h <;> try (simp at h; done)
  rename_i g hg
  split at h <;> try (simp at h; done)
  rename_i sp hsp
  simp only [Bool.and_eq_true, bne_iff_ne, ne_eq] at h
  obtain ⟨hm, h⟩ := h
  split at h <;> try (simp at h; done)
  rename_i s0 l hl
  simp only [Bool.and_eq_true, Option.isNone_iff_eq_none, List.isEmpty_iff] at h
  obtain ⟨⟨hr, hi⟩, h⟩ := h
  split at h <;> try (simp at h; done)
  rename_i i hd
  exact ⟨s0, w, t, g, sp, l, i, ha, hw, ht, hg, hsp, hm, hl, hr, by simp [hi], hd⟩

/-- A state whose next step runs the printed word of ICMP. -/
theorem witness_StepRunsTheDecodedWord :
    let s := State.reset.withFetchWord 96 0x0001401900180201_20001C3D
    ∃ s0 w t g sp l i, s.agenda = [] ∧ s.tickOn.turn = some (.inr w) ∧
    s.tickOn.team? w.team = some t ∧ t.group? w.group = some g ∧ g.split? w.split = some sp ∧
    sp.mask ≠ 0 ∧ s.tickOn.reach g.core t.ctx (BitVec.ofNat 64 sp.pc) 12 .fetch = (s0, .ok l) ∧ s0.readCheck l = none ∧
    (∀ e ∈ ((s0.beforeRead t.ctx g.core false l).core g.core).icache, e.1 = t.ctx → e.2.1 = sp.pc % 2 ^ 48 →
      e.2.2 = wordOfBytes ((s0.beforeRead t.ctx g.core false l).readSpots l)) ∧
    decode (groupEnv t g) (wordOfBytes ((s0.beforeRead t.ctx g.core false l).readSpots l)) = .ok i := wordTurn_sound (by decide +kernel)

/-- An event from outside waits. -/
theorem witness_StepRunsTheEvent_outside : ∃ (s : State) (i : Instr) (rest : List Instr), s.agenda = i :: rest ∧
    s.tickOn.packetWaits i = false := ⟨{ State.reset with agenda := [.gustPeriod] }, .gustPeriod, [], rfl, rfl⟩

/-- An event that posts the first translation fault stirs. -/
theorem stirs_of_xlates {s : State} {i : Instr}
    (h : (match exec i s with | .next t => decide (t.xlates ≠ []) | _ => false) = true) (hs : s.xlates = []) :
    s.stirs i = true := by
  unfold State.stirs
  generalize exec i s = o at h ⊢
  cases o with
  | next t =>
    refine bne_iff_ne.2 ?_
    rintro rfl
    exact (of_decide_eq_true h) hs
  | fault f => rfl
  | refused r => rfl

/-- A queue has rung and nothing else is due. -/
theorem witness_StepRunsTheEvent_due : ∃ (s : State) (i : Instr), s.agenda = [] ∧ s.tickOn.turn = some (.inl i) := by
  let s : State := { State.reset with bells := [0] }
  have hm : s.tickOn.mayBeDue = [.doorbell 0] := by decide +kernel
  have hp : s.tickOn.pick = none := by decide +kernel
  have hx : (match exec (.doorbell 0) s.tickOn with
      | .next t => decide (t.xlates ≠ [])
      | _ => false) = true := by decide +kernel
  have hs : s.tickOn.stirs (.doorbell 0) = true := stirs_of_xlates hx rfl
  refine ⟨s, .doorbell 0, rfl, ?_⟩
  simp [State.turn, State.due, hm, hp, hs, Nat.mod_one]

/-- Nothing is due and nothing is resident. -/
theorem witness_StepRunsTheEvent_idle : State.reset.agenda = [] ∧ State.reset.tickOn.turn = none := by decide +kernel

/-- A canonical state whose step answers a next state. -/
theorem witness_MemoryStaysCanonical : ∃ s t : State, s.canonical ∧ step s = .next t := by
  have h : (match step (State.reset.withFetchWord 96 0x0001401900180201_20001C3D) with
      | .next _ => true
      | _ => false) = true := by decide +kernel
  refine ⟨State.reset.withFetchWord 96 0x0001401900180201_20001C3D, ?_⟩
  split at h
  · rename_i t ht
    exact ⟨t, by unfold State.canonical; decide +kernel, ht⟩
  · simp at h

/-- The word that the witnesses of issue use. -/
def addWord : Fields := fm .lane 0 0 (V 0) (V 64) (V 128)
/-- An access whose result is still to reach V64. -/
def pendingV64 : Outstanding :=
  { split := 0, regs := [{ kind := 0, first := 64, len := 1 }], wb := { v := [], s := none, p := none, uniform := false }, tiles := [] }

/-- A source is still outstanding. -/
theorem witness_IssueChecks_depends : ∃ c, (onGroup (fun g => { g with outstanding := [pendingV64] }) base).ctx (.iadd addWord) addWord = some c ∧
    (onGroup (fun g => { g with outstanding := [pendingV64] }) base).depends c = true := inHand (by decide +kernel)
/-- No thread contributes: the guard is P0, which is false at start. -/
theorem witness_IssueChecks_none_active : let f := { addWord with gp := 0 }
    ∃ c, base.ctx (.iadd f) f = some c ∧ base.depends c = false ∧ c.act = 0 := inHand (by decide +kernel)
/-- A partial write would make one register too many general: 32 threads less one, a ceiling of 0. -/
theorem witness_IssueChecks_ceiling : let s := onGroup (fun g => { g with ceiling := 0 }) (onSplit (fun x => { x with mask := 0x7FFFFFFF }) base)
    ∃ c, s.ctx (.iadd addWord) addWord = some c ∧ s.depends c = false ∧ c.act ≠ 0 ∧ c.act ≠ allLanes ∧
      (Instr.iadd addWord).wf (groupEnv c.t c.g) = true ∧
      0 < ((List.range 256).filter fun m => covers c.written 0 m && !(c.g.vreg m).isGeneral).length ∧
      c.g.ceiling < c.g.generals + ((List.range 256).filter fun m => covers c.written 0 m && !(c.g.vreg m).isGeneral).length :=
  inHand (by decide +kernel)
/-- A lookahead window promises that V128 is not named. -/
theorem witness_IssueChecks_window :
    let s := onSplit (fun x => { x with windows := [{ left := 1, regs := [{ kind := 0, first := 128, len := 1 }] }] }) base
    ∃ c, s.ctx (.iadd addWord) addWord = some c ∧ s.depends c = false ∧ c.act ≠ 0 ∧ c.broken = true ∧
      (Instr.iadd addWord).wf (groupEnv c.t c.g) = true ∧ c.g.generals + vRegs c.written ≤ c.g.ceiling := inHand (by decide +kernel)

/-! ### Conditions of the statements on the vector classes -/

/-- One word of each form of the integer class, at each scope. -/
def integerForms : List Instr :=
  [.iadd (fm .lane 0 0 (V 0) (V 64) (V 128)), .iadd (fm .group 0 0 (V 0) (V 64) (V 128)), .isub (fm .lane 0 0 (V 0) (V 64) (V 128)),
   .isub (fm .group 0 0 (V 0) (V 64) (V 128)), .imul (fm .lane 0 0 (V 0) (V 64) (V 128)), .imul (fm .group 0 0 (V 0) (V 64) (V 128)),
   .imulh (fm .lane 0 0 (V 0) (V 64) (V 128)), .imulh (fm .group 0 0 (V 0) (V 64) (V 128)), .imad (fm .lane 0 0 (V 0) (V 64) (V 128) (V 192)),
   .imad (fm .group 0 0 (V 0) (V 64) (V 128) (V 192)), .imadw (fm .lane 0 0 (V 0) (V 64) (V 128) (V 192)),
   .imadw (fm .group 0 0 (V 0) (V 64) (V 128) (V 192)), .idiv (fm .lane 0 0 (V 0) (V 64) (V 128)), .idiv (fm .group 0 0 (V 0) (V 64) (V 128)),
   .irem (fm .lane 0 0 (V 0) (V 64) (V 128)), .irem (fm .group 0 0 (V 0) (V 64) (V 128)), .iabs (fm .lane 0 0 (V 0) (V 64)),
   .iabs (fm .group 0 0 (V 0) (V 64)), .ineg (fm .lane 0 0 (V 0) (V 64)), .ineg (fm .group 0 0 (V 0) (V 64)),
   .imin (fm .lane 0 0 (V 0) (V 64) (V 128)), .imin (fm .group 0 0 (V 0) (V 64) (V 128)), .imax (fm .lane 0 0 (V 0) (V 64) (V 128)),
   .imax (fm .group 0 0 (V 0) (V 64) (V 128)), .shl (fm .lane 4 0 (V 0) (V 64) (V 128)), .shl (fm .group 4 0 (V 0) (V 64) (V 128)),
   .shr (fm .lane 4 0 (V 0) (V 64) (V 128)), .shr (fm .group 4 0 (V 0) (V 64) (V 128)), .sar (fm .lane 0 0 (V 0) (V 64) (V 128)),
   .sar (fm .group 0 0 (V 0) (V 64) (V 128)), .rot (fm .lane 4 0 (V 0) (V 64) (V 128)), .rot (fm .group 4 0 (V 0) (V 64) (V 128)),
   .lop3 (fm .lane 4 0 (V 0) (V 64) (V 128) (V 192)), .lop3 (fm .group 4 0 (V 0) (V 64) (V 128) (V 192)), .and (fm .lane 4 0 (V 0) (V 64) (V 128)),
   .and (fm .group 4 0 (V 0) (V 64) (V 128)), .or (fm .lane 4 0 (V 0) (V 64) (V 128)), .or (fm .group 4 0 (V 0) (V 64) (V 128)),
   .xor (fm .lane 4 0 (V 0) (V 64) (V 128)), .xor (fm .group 4 0 (V 0) (V 64) (V 128))] ++
  [.andn (fm .lane 4 0 (V 0) (V 64) (V 128)), .andn (fm .group 4 0 (V 0) (V 64) (V 128)), .popc (fm .lane 4 0 (V 0) (V 64)),
   .popc (fm .group 4 0 (V 0) (V 64)), .clz (fm .lane 4 0 (V 0) (V 64)), .clz (fm .group 4 0 (V 0) (V 64)), .ctz (fm .lane 4 0 (V 0) (V 64)),
   .ctz (fm .group 4 0 (V 0) (V 64)), .brev (fm .lane 4 0 (V 0) (V 64)), .brev (fm .group 4 0 (V 0) (V 64)),
   .bfx (fm .lane 0 0 (V 0) (V 64) (V 128)), .bfx (fm .group 0 0 (V 0) (V 64) (V 128)), .bfi (fm .lane 4 0 (V 0) (V 64) (V 128) (V 192)),
   .bfi (fm .group 4 0 (V 0) (V 64) (V 128) (V 192)), .bilv (fm .lane 4 0 (V 0) (V 64) (V 128)), .bilv (fm .group 4 0 (V 0) (V 64) (V 128)),
   .bdil (fm .lane 4 0 (V 0) (V 64)), .bdil (fm .group 4 0 (V 0) (V 64)), .icmp (fm .lane 0 0 (P 1) (V 64) (V 128)),
   .icmp (fm .group 0 0 (P 1) (V 64) (V 128)), .sel (fm .lane 4 0 (V 0) (V 64) (V 128) (P 4)), .sel (fm .group 4 0 (V 0) (V 64) (V 128) (P 4)),
   .iaddc (fm .lane 1 0 (V 0) (V 64) (V 128) (P 4)), .iaddc (fm .group 1 0 (V 0) (V 64) (V 128) (P 4))]

/-- `Runs` for every integer form: the conditions of IntegerFormsComplete, IntegerArithmeticResults, DivisionResults,
ShiftResults, BitFieldResults, BitwiseResults, IntegerComparison and CarryAddition. -/
theorem witness_integer : ∀ i ∈ integerForms, ∃ f c, fieldsOf i = some f ∧ Runs base i f c := allRun (by decide +kernel)
/-- The carry comes from a predicate. -/
theorem witness_CarryAddition : let f := fm .lane 1 0 (V 0) (V 64) (V 128) (P 4)
    ∃ c, Runs base (.iaddc f) f c ∧ c.f.c = .p 4 := runs (by decide +kernel)
/-- The first reserved relation. -/
theorem witness_IntegerComparison_reserved : 6 ≤ subN (fm .lane 0 6 (P 1) (V 64) (V 128)) := by decide +kernel

/-- One word of each form of the floating class, at each scope. -/
def floatForms : List Instr :=
  [.fadd (fm .lane 0 0 (V 0) (V 64) (V 128)), .fadd (fm .group 0 0 (V 0) (V 64) (V 128)), .flg2 (fm .lane 0 0 (V 0) (V 64)),
   .flg2 (fm .group 0 0 (V 0) (V 64))]

/-- `Runs` for every floating form: the conditions of FloatFormsComplete, FloatSelection and FloatResultsRoundOnce. -/
theorem witness_float : ∀ i ∈ floatForms, ∃ f c, fieldsOf i = some f ∧ Runs base i f c := allRun (by decide +kernel)
/-- The first reserved relation. -/
theorem witness_FloatSelection_reserved : 8 ≤ subN (fm .lane 0 8 (P 1) (V 64) (V 128)) := by decide +kernel

/-- One word of each form of the predicate, lane and tag classes, at each scope. -/
def laneForms : List Instr :=
  [.plop (fm .lane 0 0 (P 1) (P 2) (P 3)), .plop (fm .group 0 0 (P 1) (P 2) (P 3)), .pmovTov (fm .lane 0 0 (V 0) (P 2)),
   .pmovFromv (fm .lane 0 1 (P 1) (V 64)), .pmovPack (fm .group 0 2 (V 0) (P 2)), .pmovUnpk (fm .group 0 3 (P 1) (V 64)), .actm (fm .group 0 0),
   .mov (fm .lane 0 0 (V 0) (V 64)), .mov (fm .group 0 0 (V 0) (V 64)), .movi (fm .lane 0 0 (V 0) (I 2) (I 2)),
   .movi (fm .group 0 0 (V 0) (I 2) (I 2)), .perm (fm .lane 0 0 (V 0) (V 64) (V 128)), .lred (fm .group 2 0 (V 0) (V 64)),
   .lscan (fm .lane 2 0 (V 0) (V 64)), .matchLanes (fm .lane 0 0 (V 0) (V 64)), .tagq (fm .group 0 0 (S 8) (V 64)),
   .tagg (fm .group 0 0 (V 0) (I 2)), .relv (fm .group 0 0 (V 0) (I 2))]

/-- `Runs` for every lane form: the conditions of LaneFormsComplete, PredicateResults, LaneResults and ReductionResults (the
types of LRED and LSCAN there are S32, so not FP32). -/
theorem witness_lane : ∀ i ∈ laneForms, ∃ f c, fieldsOf i = some f ∧ Runs base i f c := allRun (by decide +kernel)
/-- LRED and LSCAN on FP32: a sum, a minimum, and the exclusive maximum, whose first prefix is empty. -/
theorem witness_ReductionResults_float : ∀ i ∈ [Instr.lred (fm .group 4 0 (V 0) (V 64)), .lscan (fm .lane 4 1 (V 0) (V 64)), .lscan (fm .lane 4 10 (V 0) (V 64))],
    ∃ f c, fieldsOf i = some f ∧ Runs base i f c := allRun (by decide +kernel)
/-- Reserved SUBs: PLOP 4, ACTM 3, MOV 1, MOVI 2 and 1 without a scalar D, PERM 2. -/
theorem witness_lane_reserved : 4 ≤ subN (fm .lane 0 4) ∧ 3 ≤ subN (fm .group 0 3) ∧ 1 ≤ subN (fm .lane 0 1) ∧
    2 ≤ subN (fm .lane 0 2) ∧ (subN (fm .lane 0 1 (V 0)) = 1 ∧ isScalar (fm .lane 0 1 (V 0)).d = false) := by decide +kernel
/-- A PMOV word with a reserved SUB. -/
theorem witness_PredicateResults_word : ((0x61 + 4 * 2 ^ 28 : Nat)) % 256 = 0x61 ∧ 4 ≤ (0x61 + 4 * 2 ^ 28 : Nat) / 2 ^ 28 % 16 := by decide
/-- TAGQ of a register that an access is to write. -/
theorem witness_TagResults_wait : let f := fm .group 0 0 (S 8) (V 64)
    let s := onGroup (fun g => { g with outstanding := [pendingV64] }) base
    ∃ c, s.ctx (.tagq f) f = some c ∧ spansMeet (s.pendingSpans c.who.team c.g) (spanOf (uV 1) f.a) = true := inHand (by decide +kernel)
/-- TAGG beyond the ceiling. -/
theorem witness_TagResults_ceiling : let f := fm .group 0 0 (V 254) (I 2)
    ∃ c, Runs (onGroup (fun g => { g with ceiling := 2 }) base) (.tagg f) f c ∧ c.g.ceiling ≤ 2 := runs (by decide +kernel)

/-- One word of each form of the conversion, format and mode class. -/
def conversionForms : List Instr :=
  [.cvt (fm .lane 0 0 (V 0) (V 64)), .cvt (fm .group 0 0 (V 0) (V 64)), .pack (fm .lane 0 0 (V 0) (V 64) (V 128)),
   .pack (fm .group 0 0 (V 0) (V 64) (V 128)), .unpk (fm .lane 0 0 (V 0) (V 64)), .unpk (fm .group 0 0 (V 0) (V 64)),
   .qblkScale (fm .group 4 0 (S 8) (V 64)), .qblkCode (fm .lane 4 1 (V 0) (V 64) (V 128)), .qblkSuper (fm .group 9 2 (S 8) (V 64)),
   .dqblk (fm .lane 4 0 (V 0) (V 64) (V 128)), .setfmt (fm .group 0 0 (V 0) (S 16)), .getfmt (fm .group 0 0), .setmode (fm .group 0 0 (V 0) (S 16)),
   .getmode (fm .group 0 0), .setseed (fm .group 0 0 (V 0) (S 16)), .lscaleStep (fm .group 0 0 (S 8) (S 16)), .lscaleRd (fm .group 0 1 (S 8)),
   .lscaleWr (fm .group 0 2 (V 0) (S 16))]

/-- The three forms of NQ4, and conversions to and from the other types. -/
def otherConversions : List Instr :=
  [.qblkScale (fm .group 9 0 (S 8) (V 64) (S 16)), .qblkCode (fm .lane 9 1 (V 0) (V 64) (S 16)), .dqblk (fm .lane 9 0 (V 0) (V 64) (S 16)),
   .cvt (fm .lane 8 0 (V 0) (V 64)), .cvt (fm .lane 0 11 (V 0) (V 64)), .pack (fm .lane 6 0 (V 0) (V 64)), .unpk (fm .lane 8 0 (V 0) (V 64))]
theorem witness_ConversionFormsComplete_others : ∀ i ∈ otherConversions, ∃ f c, fieldsOf i = some f ∧ Runs base i f c := allRun (by decide +kernel)
/-- `RunsNarrow` for every form of the class: the conditions of ConversionFormsComplete and ModeAndSeedWrites, and of
FlagsAndLossScale with no matrix instruction in flight. -/
theorem witness_conversion : ∀ i ∈ conversionForms, ∃ f c, fieldsOf i = some f ∧ Runs base i f c := allRun (by decide +kernel)
theorem witness_matrix_idle : base.matrixBusy 0 0 = false := by decide +kernel
/-- FMT and MODE values that are accepted, and one of each that is refused. -/
theorem witness_ModeAndSeedWrites : let f := fm .group 0 0 default (S 16)
    (∃ c, RunsNarrow (setS 16 0x303 base) (.setfmt f) f c ∧ fmtOk ((c.g.scalar .unsigned f.a).setWidth 32).toNat = true) ∧
    (∃ c, RunsNarrow (setS 16 0xF0F0F0F0 base) (.setfmt f) f c ∧ fmtOk ((c.g.scalar .unsigned f.a).setWidth 32).toNat = false) ∧
    (∃ c, RunsNarrow (setS 16 0x21 base) (.setmode f) f c ∧ ((c.g.scalar .unsigned f.a).setWidth 32).toNat % 8 ≠ 0 ∧
      ((c.g.scalar .unsigned f.a).setWidth 32).toNat % 8 ≠ 7 ∧ ((c.g.scalar .unsigned f.a).setWidth 32).toNat / 32 % 4 < 2) ∧
    ∃ c, RunsNarrow (setS 16 7 base) (.setmode f) f c ∧ ((c.g.scalar .unsigned f.a).setWidth 32).toNat % 8 = 7 := by
  and_intros <;> exact runsNarrow (by decide +kernel)
/-- FLAGS with all five bits and with a sixth; LSCALE.STEP with an interval and with none; LSCALE.WR at both ends of its range. -/
theorem witness_FlagsAndLossScale : let f := fm .group 0 1 (V 0) (V 64)
    let g := fm .group 0 0 (S 8) (S 16)
    let h := fm .group 0 2 default (S 16)
    (∃ c, Runs (setU 64 31 base) (.flagsClr f) f c ∧ (BitVec.ofNat 32 (c.g.value .unsigned f.a 1 c.designated)).toNat < 32) ∧
    (∃ c, Runs (setU 64 32 base) (.flagsClr f) f c ∧ ¬ (BitVec.ofNat 32 (c.g.value .unsigned f.a 1 c.designated)).toNat < 32) ∧
    (∃ c, Runs (setS 16 1 base) (.lscaleStep g) g c ∧ (c.g.scalar .unsigned g.a).toNat % 2 ^ 32 ≠ 0) ∧
    (∃ c, Runs base (.lscaleStep g) g c ∧ (c.g.scalar .unsigned g.a).toNat % 2 ^ 32 = 0) ∧
    (∃ c, RunsNarrow (setS 16 0x3F800000 base) (.lscaleWr h) h c ∧ 0x3F800000 ≤ (c.g.scalar .unsigned h.a).toNat % 2 ^ 32 ∧
      (c.g.scalar .unsigned h.a).toNat % 2 ^ 32 ≤ 0x4B800000) ∧
    (∃ c, RunsNarrow (setS 16 0x4B800000 base) (.lscaleWr h) h c ∧ 0x3F800000 ≤ (c.g.scalar .unsigned h.a).toNat % 2 ^ 32 ∧
      (c.g.scalar .unsigned h.a).toNat % 2 ^ 32 ≤ 0x4B800000) ∧
    ∃ c, RunsNarrow (setS 16 0x4B800001 base) (.lscaleWr h) h c ∧ 0x4B800000 < (c.g.scalar .unsigned h.a).toNat % 2 ^ 32 := by
  refine ⟨runs (by decide +kernel), runs (by decide +kernel), runs (by decide +kernel), runs (by decide +kernel), runsNarrow (by decide +kernel),
    runsNarrow (by decide +kernel), runsNarrow (by decide +kernel)⟩

/-- A matrix instruction of the group that has been accepted: TZERO of tile 0. -/
def zeroOp : MatrixOp :=
  { team := 0, members := [(0, 0)], leader := 0, i := .tzero (fm .group 0 0 (T 0)), mode := 1, fmt := 0x303, seed := 0, contrib := allLanes,
    live := Vector.replicate 64 true, a := [], args := [], tiles := [0], reads := [], writes := [], bytes := [], running := false, second := false,
    shadow := false }
/-- The base state with operations in the matrix queue of core 0. -/
def withMatrix (l : List MatrixOp) (s : State) : State := s.setCore 0 { s.core 0 with matrix := l }

/-- A TST of the group that is accepted and not performed yet. -/
def storeOp : MatrixOp := { zeroOp with i := .tst (fm .group 0 0 default (S 16) default (T 0)) }

/-- FLAGS while the matrix engine works for the group. -/
theorem witness_FlagsAndLossScale_busy : let f := fm .group 0 0 (V 0)
    ∃ c, (withMatrix [zeroOp] base).ctx (.flagsRd f) f = some c ∧ c.act ≠ 0 ∧ (withMatrix [zeroOp] base).matrixBusy c.who.team c.who.group = true :=
  inHand (by decide +kernel)

/-! ### Conditions of the statements on memory -/

/-- One 64 KiB step of shared memory. -/
def shared (s : State) : State := onTeam (fun t => { t with launch := { t.launch with shared := 1 }, steps := [0] }) s
/-- 4 KiB of local memory for each group, from address 0, in one slot. -/
def local_ (s : State) : State := onTeam (fun t => { t with launch := { t.launch with localB := 4096, nslot := 1 } }) s
/-- A parameter block of 16 KiB at address 0. -/
def params (s : State) : State := onTeam (fun t => { t with launch := { t.launch with psize := 16384 } }) s

/-- One thread only. -/
def oneThread (s : State) : State := onSplit (fun x => { x with mask := 1 }) s

/-- The conditions of an access at once at some lanes, computed. -/
def resolvedB (s : State) (i : Instr) (f : Fields) (sp : Space) (n : Nat) (acc : Access) (align : Bool) (lanes : Ctx → List Nat)
    (p : Ctx → State → List (Nat × List Spot) → Bool) : Bool :=
  runsB s i f true fun c => (s.pieceStall c.who.team c.who.group).isNone &&
    match resolve c sp n acc align (lanes c) (s.settlePieces c.who.team c.who.group) with
    | (s1, .ok l) => p c s1 l
    | _ => false

theorem resolved {s : State} {i : Instr} {f : Fields} {sp : Space} {n : Nat} {acc : Access} {align : Bool} {lanes : Ctx → List Nat}
    {p : Ctx → State → List (Nat × List Spot) → Prop} [∀ c s l, Decidable (p c s l)]
    (h : resolvedB s i f sp n acc align lanes (fun c s1 l => decide (p c s1 l)) = true) :
    ∃ c s1 l, Runs s i f c ∧ s.pieceStall c.who.team c.who.group = none ∧
      resolve c sp n acc align (lanes c) (s.settlePieces c.who.team c.who.group) = (s1, .ok l) ∧ p c s1 l := by
  obtain ⟨c, hc, hr, hp⟩ := runsB_ctx h
  simp only [Bool.and_eq_true, Option.isNone_iff_eq_none (α := Resource)] at hp
  obtain ⟨hq, hp⟩ := hp
  split at hp
  · rename_i s1 l he
    exact ⟨c, s1, l, ⟨hc.issues, hc.wf, hr rfl⟩, hq, he, of_decide_eq_true hp⟩
  · simp at hp

/-- What LoadsComplete asks of each of its clauses beside `Accesses`. -/
abbrev loadReady (sp : Space) (f : Fields) (c : Ctx) (s1 : State) (l : List (Nat × List Spot)) : Prop :=
  (s1.issued c).readCheck (places l) = none ∧ c.aligned sp (memBytes (dtN f)) (lanesOf c.act) ∧ s1.mire = [] ∧ c.g.ended = false ∧ c.g.outstanding = [] ∧
    (sp = .const → ∀ e ∈ (((s1.issued c).beforeRead c.t.ctx c.g.core (subN f != 2 && subN f != 3) (places l)).core c.g.core).ccache, e.1 ≠ c.t.ctx)

/-- LD of 16 bytes at the end of the mapped page. -/
theorem witness_LoadsComplete_global : let f := fm .lane 10 0 (V 0) (V 64) (I 0x10)
    ∃ c s1 l, Accesses (setU 64 0xFFE0 (oneThread base)) (.ld f) f c .glob (memBytes (dtN f)) .read false s1 l ∧ loadReady .glob f c s1 l :=
  accesses (by decide +kernel)
/-- LDS of the last byte of shared memory. -/
theorem witness_LoadsComplete_shared : let f := fm .lane 0 0 (V 0) (V 64) (I 0)
    ∃ c s1 l, Accesses (setU 64 0xFFFF (shared base)) (.lds f) f c .shared (memBytes (dtN f)) .read false s1 l ∧ loadReady .shared f c s1 l :=
  accesses (by decide +kernel)
/-- LDL of the last word of local memory. -/
theorem witness_LoadsComplete_local : let f := fm .lane 8 0 (V 0) (V 64) (I 0)
    ∃ c s1 l, Accesses (setU 64 0x1FC (onTeam (fun t => { t with launch := { t.launch with localB := 512 } }) (local_ base))) (.ldl f) f c .local_ (memBytes (dtN f)) .read false s1 l ∧
      loadReady .local_ f c s1 l := accesses (by decide +kernel)
/-- LDC of the last word of the parameter block, at LANE scope. -/
theorem witness_LoadsComplete_const : let f := fm .lane 8 0 (V 0) (V 64) (I 0)
    ∃ c s1 l, Accesses (setU 64 0x3FFC (params base)) (.ldc f) f c .const (memBytes (dtN f)) .read false s1 l ∧ loadReady .const f c s1 l :=
  accesses (by decide +kernel)
/-- The upper piece of a load of lane 0 of two bytes or more at an address has been read, byte by byte 0. -/
def halfRead (a n : Nat) (s : State) : State :=
  { s with halves := [{ team := 0, group := 0, split := 0, pc := 0, lower := false, reads := [(0, a, zeros n)] }] }
/-- A load of four bytes at address 1: its first step, and its second one after the byte of the upper piece. -/
theorem witness_LoadsComplete_misaligned : let f := fm .lane 8 0 (V 0) (V 64) (I 0)
    (∃ c s1 l, Accesses (setU 64 1 (oneThread base)) (.ld f) f c .glob (memBytes (dtN f)) .read false s1 l ∧ s1.readCheck (places l) = none ∧
      ¬ c.aligned .glob (memBytes (dtN f)) (lanesOf c.act) ∧ s1.mire = [] ∧ ∀ h ∈ s1.halves, h.ofSplit c.who = false) ∧
    ∃ c s1 l, Accesses (halfRead 1 1 (setU 64 1 (oneThread base))) (.ld f) f c .glob (memBytes (dtN f)) .read false s1 l ∧
      (s1.issued c).readCheck (places l) = none ∧ ((s1.issued c).halfOf c .glob (memBytes (dtN f)) (lanesOf c.act)).isSome = true := by
  refine ⟨accesses (by decide +kernel), accesses (by decide +kernel)⟩
/-- What UniformLoadsComplete asks beside the places. -/
abbrev onceReady (sp : Space) (f : Fields) (c : Ctx) (s1 : State) (l : List (Nat × List Spot)) : Prop :=
  s1.accessStall c false (places l) = none ∧ s1.readCheck (places l) = none ∧
    (c.aligned sp (memBytes (dtN f)) [c.designated] ∨ ((s1.issued c).halfOf c sp (memBytes (dtN f)) [c.designated]).isSome = true)
/-- LDUN into S and into V, LDC at GROUP scope, and an LDUN at address 1 whose upper piece has been read. -/
theorem witness_UniformLoadsComplete : let f := fm .group 0 0 (V 0) (S 16) (S 32)
    let g := fm .group 8 0 (S 0) (S 16) (S 32)
    let once := fun (s : State) (i : Instr) (f : Fields) (sp : Space) => ∃ c s1 l, Runs s i f c ∧ s.pieceStall c.who.team c.who.group = none ∧
      resolve c sp (memBytes (dtN f)) .read false [c.designated] (s.settlePieces c.who.team c.who.group) = (s1, .ok l) ∧ onceReady sp f c s1 l
    once base (.ldun f) f .glob ∧ once base (.ldun g) g .glob ∧ once (params base) (.ldc f) f .const ∧
      once (halfRead 1 1 (setS 16 1 base)) (.ldun g) g .glob := by
  refine ⟨resolved (lanes := fun c => [c.designated]) (by decide +kernel), resolved (lanes := fun c => [c.designated]) (by decide +kernel),
    resolved (lanes := fun c => [c.designated]) (by decide +kernel), resolved (lanes := fun c => [c.designated]) (by decide +kernel)⟩

/-- What StoresComplete asks beside `Accesses`; the canonical form is computed. -/
abbrev storeReady (c : Ctx) (s1 : State) (l : List (Nat × List Spot)) : Prop :=
  Memory.wf s1.mem = true ∧ (s1.issued c).writeCheck (places l) = none ∧ s1.mire = []
/-- ST of 16 bytes at the end of the page, STS, STL, and ST of four bytes at address 1. -/
theorem witness_StoresComplete : let f := fm .lane 10 0 default (V 64) (I 0x10) (V 192)
    let g := fm .lane 8 0 default (V 64) (I 0) (V 192)
    (∃ c s1 l, Accesses (setU 64 0xFFE0 (oneThread base)) (.st f) f c .glob (memBytes (dtN f)) .write false s1 l ∧ storeReady c s1 l) ∧
    (∃ c s1 l, Accesses (shared (oneThread base)) (.sts g) g c .shared (memBytes (dtN g)) .write false s1 l ∧ storeReady c s1 l) ∧
    (∃ c s1 l, Accesses (local_ (oneThread base)) (.stl g) g c .local_ (memBytes (dtN g)) .write false s1 l ∧ storeReady c s1 l ∧
      c.aligned .local_ (memBytes (dtN g)) (lanesOf c.act)) ∧
    ∃ c s1 l, Accesses (setU 64 1 (oneThread base)) (.st g) g c .glob (memBytes (dtN g)) .write false s1 l ∧ storeReady c s1 l ∧
      ¬ c.aligned .glob (memBytes (dtN g)) (lanesOf c.act) := by
  and_intros <;> exact accesses (by decide +kernel)

/-- ATOM, ATOMS and RED; a canonical state with no Mire entry. -/
theorem witness_AtomicsComplete : let f := fm .lane 4 0 (V 0) (V 64) (I 0) (V 192)
    let g := fm .lane 11 0 default (V 64) (I 0) (V 192)
    (∃ c s1 l, Accesses (oneThread base) (.atom f) f c .glob (memBytes (dtN f)) .readWrite true s1 l ∧ (s1.issued c).readCheck (places l) = none) ∧
    (∃ c s1 l, Accesses (shared (oneThread base)) (.atoms f) f c .shared (memBytes (dtN f)) .readWrite true s1 l ∧ (s1.issued c).readCheck (places l) = none) ∧
    (∃ c s1 l, Accesses (oneThread base) (.red g) g c .glob (memBytes (dtN g)) .readWrite true s1 l ∧
      (s1.issued c).redCheck c (subN g) (dtN g) (places l) = none) ∧
    base.canonical ∧ base.mire = [] := by
  refine ⟨accesses (by decide +kernel), accesses (by decide +kernel), accesses (by decide +kernel), ?_, by decide +kernel⟩
  unfold State.canonical
  decide +kernel

/-- The page at address 0 with HOME 11. -/
def homeless (s : State) : State := setMem 0x5006 [0x80, 1] s
/-- RED at a HOME 11 page; and of one thread into a new Mire entry, and into one with an addition to the word, of S32 and of FP32. -/
theorem witness_AtomicsComplete_mire : let g := fm .lane 4 0 default (V 64) (I 0) (V 192)
    let h := fm .lane 11 0 default (V 64) (I 0) (V 192)
    let e := fun (dt : Nat) => ({ slice := 0, line := 0x400, ctxs := [1], words := [(0, ⟨0, dt, 0, 1, false, false, false, true, none⟩)] } : MireEntry)
    let one := fun (s : State) (f : Fields) (p : List MireEntry) => ∃ c s1 l, Accesses s (.red f) f c .glob (memBytes (dtN f)) .readWrite true s1 l ∧
      (s1.issued c).redCheck c (subN f) (dtN f) (places l) = none ∧ l.length = 1 ∧ s1.mire = p ∧
      ∀ x ∈ l, (s1.issued c).takesMire (subN f) (dtN f) x.2 = true ∧ (keysOf x.2).headD 0 = 0x20000
    (∃ c s1 l, Accesses (homeless base) (.red g) g c .glob (memBytes (dtN g)) .readWrite true s1 l ∧ (s1.issued c).redCheck c (subN g) (dtN g) (places l) = none ∧
      (∀ p ∈ places l, p.home = 1 ∨ p.home = 3) ∧ ∀ p ∈ places l, p.window = none) ∧
    one (oneThread base) g [] ∧ one (oneThread base) h [] ∧ one { oneThread base with mire := [e 4] } g [e 4] ∧
      one { oneThread base with mire := [e 11] } h [e 11] ∧ lineOf 0x20000 = 0x400 ∧ dtN g = 4 ∧ dtN h = 11 := by
  refine ⟨accesses (by decide +kernel), accesses (by decide +kernel), accesses (by decide +kernel), accesses (by decide +kernel),
    accesses (by decide +kernel), by decide, by decide, by decide⟩
/-- A finite addend, an episode whose sum has left the range, and the operations of ATOM at both ends of their table. -/
theorem witness_AtomicsComplete_words : num32 0x3F800000 = .fin false (2 ^ 23) (-23) ∧ ([0x3F800000] : List Nat).length < 2 ^ 40 ∧
    (∃ w : MireWord, w.dt = 11 ∧ w.nan = false ∧ w.pinf = false ∧ w.ninf = false ∧ w.beyond = some true) ∧
    ∀ x ∈ [(0, 4), (2, 13), (3, 5), (9, 9)], ∃ c : Ctx, subN c.f = x.1 ∧ dtN c.f = x.2 := by
  refine ⟨by decide +kernel, by decide, ⟨⟨0, 11, 0, 0, false, false, false, false, some true⟩, rfl, rfl, rfl, rfl, rfl⟩, ?_⟩
  obtain ⟨c, _, _⟩ := inHand (s := base) (i := .iadd addWord) (f := addWord) (p := fun _ => True) (by decide +kernel)
  have h : ∀ x ∈ [((0, 4) : Nat × Nat), (2, 13), (3, 5), (9, 9)], subN (fm .lane x.2 x.1) = x.1 ∧ dtN (fm .lane x.2 x.1) = x.2 := by decide +kernel
  exact fun x hx => ⟨{ c with f := fm .lane x.2 x.1 }, h x hx⟩

/-- A reservation of lane 0 on the granule of physical address 0x20000, whose hold is over. -/
def reserved : Reservation := { team := 0, group := 0, lane := 0, split := 0, granule := 0x800, hold := false, issued := 0, deadline := 0 }
/-- A monitor of a lane with a cause or with none. -/
def monitor (lane : Nat) (cause : Option Nat) : Monitor := { team := 0, group := 0, lane := lane, line := 0x400, core := 0, cause := cause }

/-- LDRES; STCOND with no reservation and, of one thread, with one; MARM of one thread and of all. -/
theorem witness_ReservationsAndMonitors : let f := fm .lane 8 0 (V 0) (V 64) (I 0)
    let g := fm .lane 8 0 (P 1) (V 64) (I 0) (V 192)
    let h := fm .lane 0 0 default (V 64) (I 2)
    let s : State := { oneThread base with reservations := [reserved] }
    (∃ c s1 l, Accesses (oneThread base) (.ldres f) f c .glob (memBytes (dtN f)) .readWrite true s1 l ∧
      (s1.issued c).readCheck (places l) = none) ∧
    (∃ c s1 l, Accesses (oneThread base) (.stcond g) g c .glob (memBytes (dtN g)) .readWrite true s1 l ∧ (s1.issued c).writeCheck (places l) = none ∧
      ∀ r ∈ s1.reservations, r.team = c.who.team → r.group = c.who.group → c.act.getLsbD r.lane = false) ∧
    (∃ c s1 l, Accesses s (.stcond g) g c .glob (memBytes (dtN g)) .readWrite true s1 l ∧ (s1.issued c).writeCheck (places l) = none ∧
      l.length = 1 ∧ Memory.wf s1.mem = true ∧ s1.mire = [] ∧ reserved ∈ s1.reservations ∧ reserved.team = c.who.team ∧ reserved.group = c.who.group ∧
      l.map Prod.fst = [reserved.lane] ∧ l.map (fun x => sectorOf ((keysOf x.2).headD 0)) = [reserved.granule]) ∧
    (∃ c s1 l, Accesses (oneThread base) (.marm h) h c .glob 1 .read false s1 l ∧ l.getLast?.isSome = true) ∧
    ∃ c s1 l, Accesses base (.marm h) h c .glob 1 .read false s1 l ∧ l.length = 32 ∧ (s1.armedLines c.g.core).length + l.length ≤ 64 := by
  and_intros <;> exact accesses (by decide +kernel)
/-- MWAIT with a cause, with no monitor, and with monitors that have none. -/
theorem witness_ReservationsAndMonitors_wait : let f := fm .lane 0 0 (V 0) (S 16)
    (∃ c, Runs { oneThread base with monitors := [monitor 0 (some 1)] } (.mwait f) f c) ∧ (∃ c, Runs base (.mwait f) f c) ∧
    ∃ c, Runs { oneThread base with monitors := [monitor 0 none] } (.mwait f) f c := by
  refine ⟨?_, ?_, ?_⟩
  · obtain ⟨c, h, _⟩ := runs (s := { oneThread base with monitors := [monitor 0 (some 1)] }) (i := .mwait (fm .lane 0 0 (V 0) (S 16)))
      (f := fm .lane 0 0 (V 0) (S 16)) (p := fun _ => True) (by decide +kernel)
    exact ⟨c, h⟩
  · obtain ⟨c, h, _⟩ := runs (s := base) (i := .mwait (fm .lane 0 0 (V 0) (S 16))) (f := fm .lane 0 0 (V 0) (S 16)) (p := fun _ => True)
      (by decide +kernel)
    exact ⟨c, h⟩
  · obtain ⟨c, h, _⟩ := runs (s := { oneThread base with monitors := [monitor 0 none] }) (i := .mwait (fm .lane 0 0 (V 0) (S 16)))
      (f := fm .lane 0 0 (V 0) (S 16)) (p := fun _ => True) (by decide +kernel)
    exact ⟨c, h⟩

/-- PREF, CCTL.FLUSH, CCTL.MERGE, CCTL.INVW, CCTL.FLUSHCTX and MEMBAR. -/
theorem witness_CacheControlAndFences : let f := fm .lane 0 0 default (V 64) (I 2)
    let g := fm .lane 0 1 default (V 64) (I 2)
    let h := fm .lane 0 2 default (V 64) (I 2)
    (∃ i ∈ [Instr.pref f, .cctlFlushctx (fm .group 0 3), .membar (fm .lane 0 0), .membar (fm .group 0 1)], ∃ x c, fieldsOf i = some x ∧ Runs base i x c) ∧
    (∃ c s1 l, Accesses (oneThread base) (.cctlFlush f) f c .control 1 .read false s1 l ∧
      (s1.issued c).mergeCheck (linesOf (keysOf (places l))) = none ∧ s1.mire = []) ∧
    (∃ c s1 l, Accesses (oneThread base) (.cctlMerge g) g c .control 1 .read false s1 l ∧
      (s1.issued c).mergeCheck (linesOf (keysOf (places l))) = none ∧ s1.mire = []) ∧
    ∃ c, Runs (oneThread base) (.cctlInvw h) h c ∧ ∀ lane, lane < 32 → c.act.getLsbD lane → ((oneThread base).anyLeaf c.t.ctx (c.globalAddr lane)).isOk = true := by
  refine ⟨?_, accesses (by decide +kernel), accesses (by decide +kernel), runs (by decide +kernel)⟩
  have h := allRun (s := base) (l := [Instr.pref (fm .lane 0 0 default (V 64) (I 2)), .cctlFlushctx (fm .group 0 3), .membar (fm .lane 0 0),
    .membar (fm .group 0 1)]) (by decide +kernel)
  exact ⟨_, List.mem_cons_self, h _ List.mem_cons_self⟩
/-- An entry of context 0 at a line of Mire, one addition of 1 to its first word. -/
def openEntry (line : Nat) : MireEntry :=
  { slice := 0, line := line, ctxs := [0],
    words := [(0, ⟨0, 4, 0, 1, false, false, false, true, none⟩)] }
/-- Nothing holds or owns a place of these states. -/
theorem unheld_of {s : State} (h : s.reservations = [] ∧ s.heldWrites = [] ∧ s.commands = [] ∧ s.peers = []) : s.unheld := by
  obtain ⟨h1, h2, h3, h4⟩ := h
  refine ⟨by simp [h1], h2, fun keys => ?_⟩
  simp [State.ownedLine, h3, h4]
theorem witness_unheld : base.unheld ∧ ({ base with mire := [openEntry 0x400] } : State).unheld :=
  ⟨unheld_of (by decide +kernel), unheld_of (by decide +kernel)⟩
/-- CCTL.INVW in a gather page, of a line that the window holds. -/
theorem witness_CacheControlAndFences_window : let h := fm .lane 0 2 default (V 64) (I 2)
    let s := setMem 0x5000 (leBytes 8 (2 ^ 57 + 0x20027)) base
    ∃ c, Runs s (.cctlInvw h) h c ∧ ∀ lane, lane < 32 → c.act.getLsbD lane →
      (match s.anyLeaf c.t.ctx (c.globalAddr lane) with
        | .ok x => leafGather x.1
        | _ => false) = true := runs (by decide +kernel)
/-- PREF of addresses in this package and of another's; CCTL.FLUSHCTX with an open entry, and with one under another group's hold. -/
theorem witness_CacheControlAndFences_clauses : let f := fm .lane 0 0 default (V 64) (I 2)
    let g := fm .group 0 3
    let bad := fun (s : State) (c : Ctx) => maskOf fun l => c.act.getLsbD l && match s.address (c.globalAddr l) with
      | .here _ => false
      | _ => true
    let s : State := { base with mire := [openEntry 0x400] }
    let u : State := { s with reservations := [{ reserved with group := 1, hold := true }] }
    (∃ c, Runs base (.pref f) f c ∧ bad base c = 0) ∧ (∃ c, Runs (setU 65 0x80010000 base) (.pref f) f c ∧ bad (setU 65 0x80010000 base) c ≠ 0) ∧
    (∃ c, Runs s (.cctlFlushctx g) g c ∧ s.heldAt c.mine [] ((s.mire.filter fun e => e.ctxs.contains c.t.ctx).map (·.line)) = none ∧
      s.mergeCheck ((s.mire.filter fun e => e.ctxs.contains c.t.ctx).map (·.line)) = none) ∧
    ∃ c, Runs u (.cctlFlushctx g) g c ∧ u.heldAt c.mine [] ((u.mire.filter fun e => e.ctxs.contains c.t.ctx).map (·.line)) = some 0x800 := by
  and_intros <;> exact runs (by decide +kernel)
/-- MEMBAR with a store that is not acknowledged. -/
theorem witness_CacheControlAndFences_stall : let f := fm .lane 0 1
    ∃ c, Runs (onGroup (fun g => { g with unacked := 1 }) base) (.membar f) f c ∧ c.g.quiet = false := runs (by decide +kernel)

/-- The memory words of AddressTraps. -/
def trapWords : List Instr :=
  [.ld (fm .lane 8 0 (V 0) (V 64) (I 0)), .st (fm .lane 8 0 default (V 64) (I 0) (V 192)), .atom (fm .lane 4 0 (V 0) (V 64) (I 0) (V 192)),
   .ldres (fm .lane 8 0 (V 0) (V 64) (I 0)), .stcond (fm .lane 8 0 (P 1) (V 64) (I 0) (V 192)), .red (fm .lane 4 0 default (V 64) (I 0) (V 192)),
   .marm (fm .lane 0 0 default (V 64) (I 0))]
theorem witness_AddressTraps : ∀ i ∈ trapWords, ∃ f c, fieldsOf i = some f ∧ Runs base i f c := allRun (by decide +kernel)
/-- A page that nothing may write, whose leaf the core has cached. -/
def readOnly (s : State) : State :=
  let s := setMem 0x5000 (leBytes 8 0x20027) s
  s.setCore 0 { s.core 0 with tlb1 := [{ ctx := 0, page := 0, size := 16, leaf := 0x20027 }] }
/-- A context without a table. -/
def noTable (s : State) : State := setMem 0x1000 [0] s
/-- Every thread of an aligned form misaligned by one; every address the first one past 2^48, and one of package 1; a page that may not be
written; a context without a table, its page not yet recorded and recorded; a granule that another group holds. -/
theorem witness_AddressTraps_clauses : let f := fm .lane 4 0 (V 0) (V 64) (I 0) (V 192)
    let n := memBytes (dtN f)
    let all := fun (c : Ctx) (p : Nat → Bool) => (List.range 32).all fun l => !c.act.getLsbD l || p (c.globalAddr l).toNat
    let leaf : TlbEntry := { ctx := 0, page := 0, size := 16, leaf := 0x20027 }
    let ready := fun (s : State) (p : Ctx → Prop) => ∃ c, Runs s (.atom f) f c ∧ s.pieceStall c.who.team c.who.group = none ∧ p c
    ready (setU 64 1 base) (fun c => all c (fun a => a % n != 0) = true) ∧
    ready (setU 65 0x10000 base) (fun c => all c (fun a => a % n == 0 && decide (2 ^ 48 ≤ a) && a / 2 ^ 60 != 8) = true) ∧
    ready (setU 65 0x80010000 base) (fun c => all c (fun a => a % n == 0 && decide (2 ^ 48 ≤ a) &&
      a / 2 ^ 48 % 2 ^ 12 != (setU 65 0x80010000 base).sys.pkgnum.toNat % 2 ^ 12) = true) ∧
    ready (readOnly base) (fun c => all c (fun a => a % n == 0 && decide (a < 2 ^ 48) &&
      decide (((readOnly base).settlePieces c.who.team c.who.group).cached c.g.core c.t.ctx a = some leaf) &&
      decide (((readOnly base).settlePieces c.who.team c.who.group).walk c.t.ctx a = .leaf 0x5000 leaf.leaf.toNat leaf.size) &&
      !permits leaf.leaf.toNat .readWrite) = true) ∧
    (∀ x ∈ [[], [(0, 0)]], let s : State := { noTable base with xlates := x }
      ready s (fun c => all c (fun a => a % n == 0 && decide (a < 2 ^ 48) && ((s.settlePieces c.who.team c.who.group).cached c.g.core c.t.ctx a).isNone) = true ∧
        bit ((s.settlePieces c.who.team c.who.group).ctxEntry c.t.ctx) 0 = false ∧
        (match resolve c .glob n .readWrite true (lanesOf c.act) (s.settlePieces c.who.team c.who.group) with
          | (s1, .xlate _ vas) => decide ((∀ v ∈ vas, (c.t.ctx, v / 65536) ∈ s1.xlates) ↔ x ≠ [])
          | _ => false) = true)) ∧
    ∃ c s1 l, Runs { base with reservations := [{ reserved with group := 1, hold := true }] } (.atom f) f c ∧
      ({ base with reservations := [{ reserved with group := 1, hold := true }] } : State).pieceStall c.who.team c.who.group = none ∧
      resolve c .glob n .readWrite true (lanesOf c.act)
        (({ base with reservations := [{ reserved with group := 1, hold := true }] } : State).settlePieces c.who.team c.who.group) =
        (s1, .ok l) ∧ s1.accessStall c true (places l) = some (.hold 0x800) := by
  refine ⟨runs (by decide +kernel), runs (by decide +kernel), runs (by decide +kernel), runs (by decide +kernel), ?_,
    resolved (lanes := fun c => lanesOf c.act) (by decide +kernel)⟩
  intro x hx
  simp only [List.mem_cons, List.not_mem_nil, or_false] at hx
  rcases hx with rfl | rfl
  · exact runs (by decide +kernel)
  · exact runs (by decide +kernel)

/-! ### Conditions of the statements on engines, batches, events and synchronisation -/

/-- A command of an engine with nothing done, of group 0 of team 0. -/
def cmd (id eng batch : Nat) (args : List W64) : Command :=
  { id := id, eng := eng, place := 0, owner := some (0, 0), job := none, node := none, ctx := 0, batch := batch, tag := 0, pc := 0, guard := none,
    form := 0, args := args, phase := .queued, saved := false, xlate := none, written := 0, pos := 0, next := 0, block := 0, step := 0,
    passes := 0, buf := [], last := false, owned := [], window := 0, polling := false, discarded := false, outbox := [] }
/-- Commands that fill a queue of n. -/
def filled (eng n : Nat) (s : State) : State := { s with commands := (List.range n).map fun k => cmd k eng 0 [] }

/-- The seven engine commands, each with its queue's number and room. -/
def engineWords : List (Instr × Nat × Nat) :=
  [(.cpy (fm .group 0 0 default (S 16) (S 32)), 0, 64), (.cpyt (fm .group 0 0 default (S 16) (S 32) (S 48)), 0, 64),
   (.gathq (fm .group 0 0 default (S 16) (S 32)), 1, 32), (.dxq (fm .group 0 0 default (S 16) (S 32)), 2, 16),
   (.sortq (fm .group 0 0 default (S 16) (S 32)), 3, 32), (.collq (fm .group 0 0 default (S 16) (S 32)), 4, 64),
   (.launchq (fm .group 0 0 default (S 16) (S 32)), 5, 64)]
/-- Each runs with one place left in its queue. -/
theorem witness_EngineCommandsJoinTheirQueue_room : ∀ x ∈ engineWords, ∃ f c, fieldsOf x.1 = some f ∧
    RunsNarrow (filled x.2.1 (x.2.2 - 1) base) x.1 f c ∧ (filled x.2.1 (x.2.2 - 1) base).queuedAt x.2.1 0 < x.2.2 := by
  have h : (engineWords.all fun x => match fieldsOf x.1 with
      | some f => runsB (filled x.2.1 (x.2.2 - 1) base) x.1 f false fun _ => decide ((filled x.2.1 (x.2.2 - 1) base).queuedAt x.2.1 0 < x.2.2)
      | none => false) = true := by decide +kernel
  intro x hx
  have hb := List.all_eq_true.1 h x hx
  split at hb
  · rename_i f hf
    obtain ⟨c, hc, _, hp⟩ := runsB_ctx hb
    exact ⟨f, c, hf, hc, of_decide_eq_true hp⟩
  · simp at hb
/-- The decompression queue is full. -/
theorem witness_EngineCommandsJoinTheirQueue_full : let f := fm .group 0 0 default (S 16) (S 32)
    ∃ c, RunsNarrow (filled 2 16 base) (.dxq f) f c ∧ ¬ (filled 2 16 base).queuedAt 2 c.g.core < 16 := runsNarrow (by decide +kernel)

/-- Seventeen batches incomplete: the open one, 16, and the closed ones 0 to 15. -/
def batchesFull : State := onGroup (fun g => { g with openBatch := 16 }) { base with commands := (List.range 17).map fun k => cmd k 0 k [] }
/-- BATCH with the limit reached and without. -/
theorem witness_BatchesAndWaits_batch : let f := fm .group 0 0 (S 8)
    (∃ c, RunsNarrow batchesFull (.batch f) f c ∧ batchesFull.batchStall c = true) ∧ ∃ c, RunsNarrow base (.batch f) f c ∧ base.batchStall c = false :=
  ⟨runsNarrow (by decide +kernel), runsNarrow (by decide +kernel)⟩
/-- WAITB for batch 32768 with batch 0 open, which lies ahead; for the open batch, with nothing in it and with a command in it;
for a batch behind, done and not. -/
theorem witness_BatchesAndWaits_waitb : let f := fm .group 0 0 default (S 16)
    let n := fun (c : Ctx) => (c.g.scalar .unsigned f.a).toNat % 65536
    let d := fun (c : Ctx) => (c.g.openBatch + 65536 - n c) % 65536
    let now := fun (c : Ctx) => if d c = 0 then (c.g.openBatch + 1) % 65536 else c.g.openBatch
    let later := onGroup (fun g => { g with openBatch := 1 }) base
    let s : State := { base with commands := [cmd 0 0 0 []] }
    (∃ c, RunsNarrow (setS 16 32768 base) (.waitb f) f c ∧ 32768 ≤ d c) ∧
    (∃ c, RunsNarrow base (.waitb f) f c ∧ d c < 32768 ∧ (d c = 0 → base.batchStall c = false) ∧
      (∀ b ∈ base.openBatches c.who.team c.who.group, batchReached (now c) (n c) b = false) ∧
      ∀ e ∈ c.g.engineFaults, batchReached (now c) (n c) e.batch = false) ∧
    (∃ c, RunsNarrow later (.waitb f) f c ∧ d c = 1 ∧ (∀ b ∈ later.openBatches c.who.team c.who.group, batchReached (now c) (n c) b = false) ∧
      ∀ e ∈ c.g.engineFaults, batchReached (now c) (n c) e.batch = false) ∧
    ∃ c, RunsNarrow s (.waitb f) f c ∧ d c < 32768 ∧ (d c = 0 → s.batchStall c = false) ∧
      ∃ b ∈ s.openBatches c.who.team c.who.group, batchReached (now c) (n c) b = true := by
  and_intros <;> exact runsNarrow (by decide +kernel)
/-- WAITB for batch 0, closed and done, whose two commands have failed: of a program fault, and of a bad sector. -/
theorem witness_BatchesAndWaits_faults : ∀ code ∈ [codeADDRBAD, 0x41], let f := fm .group 0 0 default (S 16)
    let e : EngineFault := { batch := 0, order := 1, code := code, pc := 0x18, addr := 0x100, aux := code, scope := 1 }
    let s := onGroup (fun g => { g with openBatch := 1, engineFaults := [e, { e with order := 2 }] }) base
    ∃ c, RunsNarrow s (.waitb f) f c ∧ (c.g.scalar .unsigned f.a).toNat % 65536 = 0 ∧ c.g.openBatch = 1 ∧
      s.openBatches c.who.team c.who.group = [] ∧ c.g.engineFaults.filter (fun x => batchReached 1 0 x.batch) = [e, { e with order := 2 }] := by
  intro code hx
  simp only [List.mem_cons, List.not_mem_nil, or_false] at hx
  rcases hx with rfl | rfl
  · exact runsNarrow (by decide +kernel)
  · exact runsNarrow (by decide +kernel)

/-- A team with a record in its ring. -/
def withRecord : State := onTeam (fun t => { t with ringCount := 1, ringHead := 63 }) (shared base)
/-- EVPOP with and without a record, EVWAIT with one and without. -/
theorem witness_EventsAndGuards_ring : let f := fm .group 0 0 (S 60)
    (∃ c, RunsNarrow withRecord (.evpop f) f c ∧ 0 < c.t.ringCount) ∧ (∃ c, RunsNarrow base (.evpop f) f c ∧ c.t.ringCount = 0) ∧
    (∃ c, RunsNarrow withRecord (.evwait f) f c ∧ 0 < c.t.ringCount) ∧ ∃ c, RunsNarrow base (.evwait f) f c ∧ c.t.ringCount = 0 := by
  and_intros <;> exact runsNarrow (by decide +kernel)
/-- GSLOT of slot 15 with state 3, of slot 16, with state 4, and with a predicate. -/
theorem witness_EventsAndGuards_slots : let f := fm .group 0 0 default (S 16) (S 32)
    let g := fm .group 0 0 default (S 16) (P 1)
    (∃ c, RunsNarrow (setS 16 15 (setS 32 3 base)) (.gslot f) f c ∧ (c.g.scalar .unsigned f.a).toNat = 15 ∧ (c.g.scalar .unsigned f.b).toNat = 3) ∧
    (∃ c, RunsNarrow (setS 16 16 base) (.gslot f) f c ∧ (c.g.scalar .unsigned f.a).toNat = 16) ∧
    (∃ c, RunsNarrow (setS 32 4 base) (.gslot f) f c ∧ (c.g.scalar .unsigned f.b).toNat = 4) ∧ ∃ c, RunsNarrow base (.gslot g) g c ∧ c.act ≠ 0 := by
  and_intros <;> exact runsNarrow (by decide +kernel)

/-- The forms of BarrierInstructions on barrier 15 and past the last. -/
def barrierWords : List Instr :=
  [.arrive (fm .group 0 0 (V 0) (S 16)), .waitbar (fm .group 0 0 default (S 16) (S 32)), .barqPhase (fm .group 0 0 (S 8) (S 16)),
   .barqPart (fm .group 0 1 (S 8) (S 16)), .barqArrd (fm .group 0 2 (S 8) (S 16)), .barqSet (fm .group 0 3 (S 8) (S 16) (S 32))]
theorem witness_BarrierInstructions : (∀ i ∈ barrierWords, ∃ f c, fieldsOf i = some f ∧ Runs (setS 16 15 base) i f c) ∧
    ∀ i ∈ barrierWords, ∃ f c, fieldsOf i = some f ∧ Runs (setS 16 16 base) i f c := ⟨allRun (by decide +kernel), allRun (by decide +kernel)⟩
/-- Barrier 0 with two participants, of which group 0 has arrived. -/
def arrived : State := onTeam (fun t => { t with barriers := put t.barriers 0 { phase := 0, arrd := 1, part := 3 } }) base
/-- ARRIVE where the group has arrived and where it has not; WAITBAR for the current phase and for the last; BARQ.SET within the
team and beyond it; a reserved SUB. -/
theorem witness_BarrierInstructions_clauses : let a := fm .group 0 0 (V 0) (S 16)
    let w := fm .group 0 0 default (S 16) (S 32)
    let b := fm .group 0 3 (S 8) (S 16) (S 32)
    (∃ c, Runs arrived (.arrive a) a c ∧ arrived.matrixOwes c.who.team c.who.group = false ∧ ((c.t.barrier 0).part.testBit c.who.group && (c.t.barrier 0).arrd.testBit c.who.group) = true) ∧
    (∃ c, Runs (withMatrix [storeOp] base) (.arrive a) a c ∧ (withMatrix [storeOp] base).matrixOwes c.who.team c.who.group = true) ∧
    (∃ c, Runs base (.arrive a) a c ∧ base.matrixOwes c.who.team c.who.group = false ∧ ((c.t.barrier 0).part.testBit c.who.group && (c.t.barrier 0).arrd.testBit c.who.group) = false) ∧
    (∃ c, Runs base (.waitbar w) w c ∧ ((c.t.barrier 0).phase + 65536 - (c.g.scalar .unsigned w.b).toNat % 65536) % 65536 = 0) ∧
    (∃ c, Runs (setS 32 65535 base) (.waitbar w) w c ∧ ((c.t.barrier 0).phase + 65536 - (c.g.scalar .unsigned w.b).toNat % 65536) % 65536 ≠ 0) ∧
    (∃ c, Runs (setS 32 1 base) (.barqSet b) b c ∧ (c.g.scalar .unsigned b.b).toNat < 2 ^ c.t.launch.total) ∧
    (∃ c, Runs (setS 32 2 base) (.barqSet b) b c ∧ ¬ (c.g.scalar .unsigned b.b).toNat < 2 ^ c.t.launch.total) ∧
    (0xB3 + 4 * 2 ^ 28 : Nat) % 256 = 0xB3 ∧ 4 ≤ (0xB3 + 4 * 2 ^ 28 : Nat) / 2 ^ 28 % 16 := by
  refine ⟨runs (by decide +kernel), runs (by decide +kernel), runs (by decide +kernel), runs (by decide +kernel), runs (by decide +kernel),
    runs (by decide +kernel), runs (by decide +kernel), by decide, by decide⟩

/-- VOTE with and without a contributor, VOTE.BALLOT, ELECT into P and into S. -/
theorem witness_GroupVotesAndElections : let f := fm .group 0 0 (P 1) (P 2)
    let g := { f with gp := 0 }
    (∃ c, base.ctx (.vote f) f = some c ∧ base.depends c = false ∧ c.broken = false ∧ (Instr.vote f).wf (groupEnv c.t c.g) = true ∧ c.act ≠ 0) ∧
    (∃ c, base.ctx (.vote g) g = some c ∧ base.depends c = false ∧ c.broken = false ∧ (Instr.vote g).wf (groupEnv c.t c.g) = true ∧ c.act = 0) ∧
    ∀ i ∈ [Instr.vote (fm .group 0 3 (S 8) (P 2)), .elect (fm .group 0 0 (P 1)), .elect (fm .group 0 0 (S 8))],
      ∃ f c, fieldsOf i = some f ∧ Runs base i f c := ⟨inHand (by decide +kernel), inHand (by decide +kernel), allRun (by decide +kernel)⟩

/-- A team of two groups; the second has not arrived. -/
def twoGroups : State := onTeam (fun t => { t with launch := { t.launch with groups := 2 }, groups := t.groups ++ [freshGroup 1 0 1 0 0 1 256 none 0] }) base

/-- One word of each rendezvous instruction at TEAM scope. -/
def rendezvousWords : List Instr :=
  [.sync (fm .team 0 0), .vote (fm .team 0 0 (P 1) (P 2)), .elect (fm .team 0 0 (P 1)), .evpop (fm .team 0 0 (S 8)), .evwait (fm .team 0 0 (S 8)),
   .gslot (fm .team 0 0 default (S 16) (S 32)), .preemptOffer (fm .team 0 0 (S 8)), .preemptForce (fm .team 0 1 (S 8))]

/-- What TeamRendezvous asks of a word whose party is complete, or is not, and has a contributor, or has none. -/
def meets (s : State) (i : Instr) (complete : Bool) (idle : Bool := false) : Bool :=
  match fieldsOf i with
  | some f => match s.ctx i f with
    | some c => i.wf (groupEnv c.t c.g) && !s.depends c && match (s.block c.who (.rendezvous i)).party? c.who.team c.who.group with
      | some (_, p) => complete && p.idle == idle && p.ctxs.all fun x => !x.broken
      | none => !complete
    | none => false
  | none => false

theorem meets_some {s : State} {i : Instr} {idle : Bool} (h : meets s i true idle = true) : ∃ f c j p, fieldsOf i = some f ∧ s.ctx i f = some c ∧
    i.wf (groupEnv c.t c.g) = true ∧ s.depends c = false ∧
    (s.block c.who (.rendezvous i)).party? c.who.team c.who.group = some (j, p) ∧ p.idle = idle ∧ ∀ x ∈ p.ctxs, x.broken = false := by
  unfold meets at h
  split at h <;> try (simp at h; done)
  rename_i f hf
  split at h <;> try (simp at h; done)
  rename_i c hc
  split at h
  · rename_i j p hp
    simp only [Bool.and_eq_true, Bool.not_eq_true', List.all_eq_true, beq_iff_eq] at h
    exact ⟨f, c, j, p, hf, hc, h.1.1, h.1.2, hp, h.2.1.2, h.2.2⟩
  · simp at h

theorem meets_none {s : State} {i : Instr} (h : meets s i false = true) : ∃ f c, fieldsOf i = some f ∧ s.ctx i f = some c ∧
    i.wf (groupEnv c.t c.g) = true ∧ s.depends c = false ∧ (s.block c.who (.rendezvous i)).party? c.who.team c.who.group = none := by
  unfold meets at h
  split at h <;> try (simp at h; done)
  rename_i f hf
  split at h <;> try (simp at h; done)
  rename_i c hc
  split at h
  · simp at h
  · rename_i hp
    simp only [Bool.and_eq_true, Bool.not_eq_true'] at h
    exact ⟨f, c, hf, hc, h.1.1, h.1.2, hp⟩

theorem witness_TeamRendezvous_last : ∀ i ∈ rendezvousWords, ∃ f c j p, fieldsOf i = some f ∧ base.ctx i f = some c ∧
    i.wf (groupEnv c.t c.g) = true ∧ base.depends c = false ∧
    (base.block c.who (.rendezvous i)).party? c.who.team c.who.group = some (j, p) ∧ p.idle = false ∧ ∀ x ∈ p.ctxs, x.broken = false := by
  have h : (rendezvousWords.all fun i => meets base i true) = true := by decide +kernel
  exact fun i hi => meets_some (List.all_eq_true.1 h i hi)
theorem witness_TeamRendezvous_first : ∀ i ∈ rendezvousWords, ∃ f c, fieldsOf i = some f ∧ twoGroups.ctx i f = some c ∧
    i.wf (groupEnv c.t c.g) = true ∧ twoGroups.depends c = false ∧
    (twoGroups.block c.who (.rendezvous i)).party? c.who.team c.who.group = none := by
  have h : (rendezvousWords.all fun i => meets twoGroups i false) = true := by decide +kernel
  exact fun i hi => meets_none (List.all_eq_true.1 h i hi)
/-- The same words with no contributor in any member. -/
def idleWords : List Instr :=
  let n := { fm .team 0 0 with gp := 0 }
  let d := { fm .team 0 0 (S 8) with gp := 0 }
  [.sync n, .vote { n with d := P 1, a := P 2 }, .elect { n with d := P 1 }, .evpop d, .evwait d, .gslot { n with a := S 16, b := S 32 }, .preemptOffer d,
   .preemptForce { d with sub := 1 }]
theorem witness_TeamRendezvous_idle : ∀ i ∈ idleWords, ∃ f c j p, fieldsOf i = some f ∧ base.ctx i f = some c ∧
    i.wf (groupEnv c.t c.g) = true ∧ base.depends c = false ∧
    (base.block c.who (.rendezvous i)).party? c.who.team c.who.group = some (j, p) ∧ p.idle = true ∧ ∀ x ∈ p.ctxs, x.broken = false := by
  have h : (idleWords.all fun i => meets base i true true) = true := by decide +kernel
  exact fun i hi => meets_some (List.all_eq_true.1 h i hi)
/-- PREEMPT of a team that was saved at the word, of one with a displacement pending, and with room in the pool and none. -/
theorem witness_TeamRendezvous_preempt : ∀ i ∈ [Instr.preemptOffer (fm .team 0 0 (S 8)), .preemptForce (fm .team 0 1 (S 8))],
    (∀ s ∈ [onTeam (fun t => { t with offered := some 0 }) base, onTeam (fun t => { t with preempt := true }) base], meets s i true = true) ∧
    ∀ n ∈ [0, 64], let s : State := { base with sys := { base.sys with savebase := 16, savesize := BitVec.ofNat 64 n } }
      meets s i true = true ∧ (((s.block { team := 0, group := 0, split := 0 } (.rendezvous i)).settleTeam 0).team? 0).any (fun t =>
        (runOf ((s.block { team := 0, group := 0, split := 0 } (.rendezvous i)).settleTeam 0).freeUnits
          (((s.block { team := 0, group := 0, split := 0 } (.rendezvous i)).settleTeam 0).teamUnits t)).isSome == decide (n ≠ 0)) = true := by decide +kernel
/-- A guard slot and a state that GSLOT accepts. -/
theorem witness_TeamRendezvous_gslot : let f := fm .team 0 0 default (S 16) (S 32)
    ∃ c, base.ctx (.gslot f) f = some c ∧ gslotOf c false = some (0, 0) := inHand (by decide +kernel)
/-- The ring holds a record for EVWAIT. -/
theorem witness_TeamRendezvous_ring : withRecord.ringReady 0 = true := by decide +kernel

/-! ### Conditions of the statements on control flow -/

/-- Guard P1, which holds for thread 0 only. -/
def split1 (f : Fields) : Fields := { f with gp := 1 }
def guarded (s : State) : State := onGroup (fun g => { g with p := put g.p 1 1 }) s
/-- Every split number of the group taken, so that no parallel split is free. -/
def allSplits (s : State) : State :=
  onGroup (fun g => { g with splits := (((put (put (put g.splits 1 (some (handlerSplit 0 0))) 2 (some (handlerSplit 0 0))) 3 (some (handlerSplit 0 0)))) : Vector _ 4) }) s

/-- BRA and CALL reach forward and back: the highest target, and one beyond on either side. -/
theorem witness_ControlTransfers_range : let f := fm .lane 0 0 default (I 0) (I 0)
    let g := fm .lane 0 0 (V 0) (I 0) (I 0)
    let b := fm .lane 0 0 default (I 0xFFFE) (I 0xFFFF)
    let near := onSplit (fun x => { x with pc := 2 ^ 48 - 16 }) base
    let far := onSplit (fun x => { x with pc := 2 ^ 48 - 12 }) base
    (∃ c, Runs near (.bra f) f c ∧ c.sp.stack.length < 16 ∧ 0 ≤ branchTarget c.sp.pc f ∧ branchTarget c.sp.pc f < 2 ^ 48) ∧
    (∃ c, Runs near (.call g) g c ∧ c.sp.stack.length < 16 ∧ 0 ≤ branchTarget c.sp.pc g ∧ branchTarget c.sp.pc g < 2 ^ 48) ∧
    (∃ c, Runs far (.bra f) f c ∧ 2 ^ 48 ≤ branchTarget c.sp.pc f) ∧ ∃ c, Runs base (.bra b) b c ∧ branchTarget c.sp.pc b < 0 := by
  and_intros <;> exact runs (by decide +kernel)
/-- BRX, CALLX and RET to an aligned target, to a misaligned one, and to the first address past the space. -/
theorem witness_ControlTransfers_register : let f := fm .lane 0 0 default (V 64)
    let g := fm .lane 0 0 (V 0) (V 64)
    let good := fun (c : Ctx) (f : Fields) => c.sp.stack.length < 16 ∧ ∀ l, l < 32 → c.act.getLsbD l = true →
      c.g.value .unsigned f.a 2 l < 2 ^ 48 ∧ c.g.value .unsigned f.a 2 l % 4 = 0
    let bad := fun (c : Ctx) (f : Fields) => maskOf (fun l => c.act.getLsbD l && (decide (2 ^ 48 ≤ c.g.value .unsigned f.a 2 l) ||
      c.g.value .unsigned f.a 2 l % 4 != 0)) ≠ 0
    (∃ c, Runs (setU 64 0x40 base) (.brx f) f c ∧ good c f) ∧ (∃ c, Runs (setU 64 0x40 base) (.callx g) g c ∧ good c g) ∧
    (∃ c, Runs (setU 64 0x40 base) (.ret f) f c ∧ good c f) ∧ (∃ c, Runs (setU 64 0x42 base) (.brx f) f c ∧ bad c f) ∧
    (∃ c, Runs (setU 65 0x10000 base) (.callx g) g c ∧ bad c g) ∧ ∃ c, Runs (setU 64 1 base) (.ret f) f c ∧ bad c f := by
  and_intros <;> exact runs (by decide +kernel)
/-- A split all of whose threads go one way; one that divides with a free split and record; one that divides with none. -/
theorem witness_ControlTransfers_divergence : let f := split1 (fm .lane 0 0 default (I 2) (I 0))
    let dest := fun (c : Ctx) (l : Nat) => if c.act.getLsbD l then (branchTarget c.sp.pc f).toNat else c.sp.pc + 12
    let rest := fun (c : Ctx) => c.sp.mask &&& ~~~ (maskOf fun l => c.sp.mask.getLsbD l && dest c l == dest c ((lowest c.sp.mask).getD 0))
    (∃ c, Runs (oneThread (guarded base)) (.bra f) f c ∧ rest c = 0) ∧
    (∃ c, Runs (guarded base) (.bra f) f c ∧ rest c ≠ 0 ∧ c.g.freeSplit = some 1 ∧ c.g.freeRecord = some 0) ∧
    ∃ c, Runs (allSplits (guarded base)) (.bra f) f c ∧ rest c ≠ 0 ∧ c.g.freeSplit = none := by
  and_intros <;> exact runs (by decide +kernel)
/-- BRA at GROUP scope, and the links of CALL and CALLX. -/
theorem witness_ControlTransfers_group : let f := fm .group 0 0 default (I 2) (I 0)
    (∃ c, RunsNarrow base (.bra f) f c ∧ 0 ≤ branchTarget c.sp.pc f ∧ branchTarget c.sp.pc f < 2 ^ 48) ∧
    ∀ i ∈ [Instr.call (fm .lane 0 0 (V 254) (I 2) (I 0)), .callx (fm .lane 0 0 (V 254) (V 64))], ∃ f c, fieldsOf i = some f ∧ Runs base i f c :=
  ⟨runsNarrow (by decide +kernel), allRun (by decide +kernel)⟩

/-- An entry of the stack at join point 0. -/
def entry (kind prid : Nat) (mask pmask : Mask) : Entry :=
  { mode := 1, fmt := 0x303, pmask := pmask, mask := mask, ppc := 0x40, kind := kind, prid := prid, jpc := 0 }
/-- The split in focus with an entry on top, at the entry's join. -/
def atJoin (e : Entry) (s : State) : State := onSplit (fun x => { x with stack := [e] }) s
/-- What JoinsAndMerges asks of every split. -/
abbrev joinReady (c : Ctx) : Prop :=
  (Instr.join (fm .lane 0 0)).wf (groupEnv c.t c.g) = true ∧ c.sp.mask ≠ 0 ∧ c.g.mergeable = none ∧ c.sp.stack.length ≤ 16
/-- No entry; a serial entry with a pending part, and with none. -/
theorem witness_JoinsAndMerges_serial : let f := fm .lane 0 0
    (∃ c, base.ctx (.join f) f = some c ∧ joinReady c ∧ base.depends c = false ∧ c.sp.stack.head?.map (·.jpc) ≠ some c.sp.pc) ∧
    (∃ c, (atJoin (entry 0 0 3 2) (oneThread base)).ctx (.join f) f = some c ∧ joinReady c ∧ c.sp.stack = [entry 0 0 3 2] ∧
      (entry 0 0 3 2).jpc = c.sp.pc ∧ (entry 0 0 3 2).pmask &&& ~~~ c.g.exited ≠ 0) ∧
    ∃ c, (atJoin (entry 0 0 3 0) (oneThread base)).ctx (.join f) f = some c ∧ joinReady c ∧ c.sp.stack = [entry 0 0 3 0] ∧
      (entry 0 0 3 0).jpc = c.sp.pc ∧ (entry 0 0 3 0).pmask &&& ~~~ c.g.exited = 0 ∧ (entry 0 0 3 0).mask &&& ~~~ c.g.exited ≠ 0 :=
  ⟨inHand (by decide +kernel), inHand (by decide +kernel), inHand (by decide +kernel)⟩
/-- The other half of a divergence: split 1 at the same join, waiting there or still on its way, owner of record 0. -/
def diverged (wait : Wait) (s : State) : State :=
  atJoin (entry 1 0 3 0) (onGroup (fun g => { g with
    splits := put g.splits 1 (some { handlerSplit 0 2 with stack := [entry 1 0 3 0], wait := wait })
    records := put g.records 0 { owner := 1, below := none } }) (oneThread s))
/-- A parallel entry whose sibling is still on its way, and one whose sibling waits at the join. A group has four splits
(`Group.split?_lt`), so the bounds on split numbers leave nothing out. -/
theorem witness_JoinsAndMerges_parallel : let f := fm .lane 0 0
    let e := entry 1 0 3 0
    let sibling := fun (c : Ctx) (p : Split → Bool) => (c.g.split? 1).any fun x => (x.stack.any fun y => y.kind == 1 && y.prid == 0) && p x
    (∃ c, (diverged .ready base).ctx (.join f) f = some c ∧ joinReady c ∧ c.sp.stack = [e] ∧ e.jpc = c.sp.pc ∧ c.who.split = 0 ∧
      sibling c (fun x => !standsAtJoin 0 x) = true) ∧
    ∃ c, (diverged .join base).ctx (.join f) f = some c ∧ joinReady c ∧ c.sp.stack = [e] ∧ e.jpc = c.sp.pc ∧ c.who.split = 0 ∧
      sibling c (fun x => standsAtJoin 0 x && decide (x.stack = [e])) = true ∧
      nth c.g.records 0 { owner := 0, below := none } = { owner := 1, below := none } ∧
      (∀ m, m < 4 → m ≠ 1 → m ≠ 0 → c.g.split? m = none) ∧ (diverged .join base).windowedBusy c.who.team c.who.group = false ∧ c.g.outstanding = [] ∧ c.g.counters = Vector.replicate 8 none ∧
      ∀ r, r < 4 → r ≠ 0 → ∀ m, m < 4 → (c.g.split? m).all (fun y => !standsAtJoin r y) = true :=
  ⟨inHand (by decide +kernel), inHand (by decide +kernel)⟩

/-- One thread of two exits; the last thread of a group exits and the other group stays. -/
theorem witness_ThreadsExit : let f := fm .lane 0 0
    (∃ c, RunsNarrow (guarded base) (.exit (split1 f)) (split1 f) c ∧ c.g.exited ||| c.act ≠ allLanes ∧ c.sp.mask &&& ~~~ c.act ≠ 0) ∧
    (∃ c, RunsNarrow twoGroups (.exit f) f c ∧ (c.g.exited ||| c.act) = allLanes ∧ twoGroups.matrixOwes c.who.team c.who.group = false ∧
      c.g.engineFaults = [] ∧ c.g.left = false ∧ ∃ h ∈ c.t.groups, h.index ≠ c.who.group ∧ h.ended = false) ∧
    ∃ c, RunsNarrow (withMatrix [storeOp] twoGroups) (.exit f) f c ∧ c.g.exited ||| c.act = allLanes ∧
      (withMatrix [storeOp] twoGroups).matrixOwes c.who.team c.who.group = true := by
  and_intros <;> exact runsNarrow (by decide +kernel)
/-- The last thread of a split exits and its group goes on: nothing on its stack; a serial entry with a pending part, and with none; a
parallel entry whose sibling is on its way, and whose sibling waits at the join. -/
theorem witness_ThreadsExit_split : let f := fm .lane 0 0
    let left := fun (c : Ctx) (m : Mask) => m &&& ~~~ (c.g.exited ||| c.act)
    let gone := fun (c : Ctx) (l : List Entry) => c.g.exited ||| c.act ≠ allLanes ∧ c.sp.mask &&& ~~~ c.act = 0 ∧ c.g.mergeable = none ∧
      c.sp.stack = l ∧ ∀ n, n < 4 → n ≠ c.who.split → (c.g.split? n).all (fun x => x.mask &&& c.act == 0) = true
    let e := entry 1 0 3 0
    (∃ c, RunsNarrow (oneThread base) (.exit f) f c ∧ gone c []) ∧
    (∃ c, RunsNarrow (atJoin (entry 0 0 3 2) (oneThread base)) (.exit f) f c ∧ gone c [entry 0 0 3 2] ∧ left c (entry 0 0 3 2).pmask ≠ 0) ∧
    (∃ c, RunsNarrow (atJoin (entry 0 0 3 0) (oneThread base)) (.exit f) f c ∧ gone c [entry 0 0 3 0] ∧ left c (entry 0 0 3 0).pmask = 0 ∧
      left c (entry 0 0 3 0).mask ≠ 0) ∧
    (∃ c, RunsNarrow (diverged .ready base) (.exit f) f c ∧ gone c [e] ∧
      ∀ r, r < 4 → ∀ n, n < 4 → n ≠ c.who.split → (c.g.split? n).all (fun x => !standsAtJoin r x) = true) ∧
    ∃ c, RunsNarrow (diverged .join base) (.exit f) f c ∧ gone c [e] ∧ c.who.split = 0 ∧
      (c.g.split? 1).any (fun x => x.mask != 0 && decide (x.stack = [e]) && standsAtJoin 0 x) = true ∧
      (∀ m, m < 4 → m ≠ 1 → m ≠ 0 → c.g.split? m = none) ∧ nth c.g.records 0 { owner := 0, below := none } = { owner := 1, below := none } ∧
      (diverged .join base).windowedBusy c.who.team c.who.group = false ∧ c.g.outstanding = [] ∧ c.g.counters = Vector.replicate 8 none := by
  and_intros <;> exact runsNarrow (by decide +kernel)

/-- The straight words, TILEQ of the last tile and of the one past it, and MOVSR of every special register. -/
def straightWords : List Instr :=
  [.nop (fm .lane 0 0), .nop (fm .group 0 0), .yield (fm .lane 0 0), .yield (fm .group 0 0), .joinAt (fm .lane 0 1 default (I 2) (I 0)),
   .joinClr (fm .lane 0 2), .time (fm .group 0 0 (V 0)), .clock (fm .group 0 0 (S 8)), .flushiAll (fm .group 0 0),
   .flushiLine (fm .group 0 1 default (V 64) (I 2)), .tileq (fm .group 0 0 (S 8) (I 0x1FF)), .tileq (fm .group 0 0 (S 8) (I 0x200))]
def specialWords : List Instr := (List.range 23).map fun n => Instr.movsr (fm .lane 0 0 (V 0) (Z (Fin.ofNat 256 n)))
theorem witness_StraightWords : (∀ i ∈ straightWords, ∃ f c, fieldsOf i = some f ∧ Runs base i f c) ∧
    ∀ i ∈ specialWords, ∃ f c, fieldsOf i = some f ∧ Runs base i f c := ⟨allRun (by decide +kernel), allRun (by decide +kernel)⟩
/-- A word with no contributor; FLUSHI with a store under way in each of its ways, and with none; FLUSHI.LINE of an address here and of one
that is none. -/
theorem witness_StraightWords_clauses : let n := { fm .lane 0 0 with gp := 0 }
    let a := fm .group 0 0
    let l := fm .group 0 1 default (V 64) (I 0)
    let busy := onGroup (fun g => { g with unacked := 1 }) base
    let counting := onGroup (fun g => { g with counters := put g.counters 7 (some { requests := [0x1000], out := { pendingV64 with regs := [] } }) }) base
    let loads := onGroup (fun g => { g with outstanding := [pendingV64], counters := put g.counters 7 (some { requests := [0x1000], out := pendingV64 }) }) base
    let stores := fun (s : State) (c : Ctx) => decide (c.g.unacked = 0) && ((List.range 8).all fun k => (nth c.g.counters k none).all fun o => decide (o.out.regs ≠ [])) &&
      !s.storing c.who.team c.who.group false
    (∃ c, base.ctx (.nop n) n = some c ∧ base.depends c = false ∧ c.act = 0) ∧
    (∃ c, RunsNarrow busy (.flushiAll a) a c ∧ stores busy c = false) ∧ (∃ c, RunsNarrow counting (.flushiAll a) a c ∧ stores counting c = false) ∧
    (∃ c, RunsNarrow (withMatrix [storeOp] base) (.flushiAll a) a c ∧ stores (withMatrix [storeOp] base) c = false) ∧
    (∃ c, RunsNarrow loads (.flushiAll a) a c ∧ stores loads c = true) ∧
    (∃ c, RunsNarrow (setU 65 0xFFFF base) (.flushiLine l) l c ∧ (setU 65 0xFFFF base).address (c.globalAddr c.designated) = .here 0xFFFF00000000) ∧
    ∃ c, RunsNarrow (setU 65 0x10000 base) (.flushiLine l) l c ∧ (setU 65 0x10000 base).address (c.globalAddr c.designated) = .bad :=
  ⟨inHand (by decide +kernel), runsNarrow (by decide +kernel), runsNarrow (by decide +kernel), runsNarrow (by decide +kernel), runsNarrow (by decide +kernel),
    runsNarrow (by decide +kernel), runsNarrow (by decide +kernel)⟩

/-! ### Conditions of the statements on faults, traps and the system -/

/-- A fault of split 0 with a code. -/
def faultOf (code : Nat) : FaultInfo := splitFault (handlerSplit 0 allLanes) 0 code 0
/-- Group 0 of two in its handler. -/
def inHandler2 : State := onTeam (fun t => { t with launch := { t.launch with groups := 2 }, groups := t.groups ++ [freshGroup 1 0 1 0 0 1 256 none 0] }) inHandler
/-- Team, group and the other group of a state. -/
abbrev hasGroups (s : State) (p : Team → Group → Prop) : Prop := ∃ t g, s.team? 0 = some t ∧ t.group? 0 = some g ∧ p t g
theorem hasGroups_of {s : State} {p : Team → Group → Prop} [∀ t g, Decidable (p t g)]
    (h : ((s.team? 0).any fun t => (t.group? 0).any fun g => decide (p t g)) = true) : hasGroups s p := by
  cases ht : s.team? 0 with
  | none => simp [ht] at h
  | some t =>
    cases hg : t.group? 0 with
    | none => simp [ht, hg] at h
    | some g => exact ⟨t, g, ht, hg, by simpa [ht, hg] using h⟩
abbrev another (t : Team) : Prop := ∃ h ∈ t.groups, h.index ≠ 0 ∧ h.ended = false
/-- A check, a fault in the handler, and a fault with no handler installed: 0x40 is the first check. -/
theorem witness_FaultsEndTheGroup :
    hasGroups (withHandler twoGroups) (fun t _ => 0x40 ≤ (faultOf 0x40).code ∧ another t) ∧
    hasGroups inHandler2 (fun t g => g.handler.isSome = true ∧ another t) ∧
    hasGroups twoGroups (fun t g => (faultOf 0x3F).code < 0x40 ∧ twoGroups.handler t.ctx = 0 ∧ another t ∧ twoGroups.matrixOwes 0 0 = false ∧ g.left = false) ∧
    twoGroups.unheld := by
  refine ⟨hasGroups_of (by decide +kernel), hasGroups_of (by decide +kernel), hasGroups_of (by decide +kernel), unheld_of (by decide +kernel)⟩

/-- Four groups of the quarter in their handlers beside group 0. -/
def fullStore (s : State) : State := onTeam (fun t => { t with groups := t.groups ++ ((inHandler.team? 0).map (·.groups)).getD [] |>.flatMap fun g =>
  if g.index = 0 ∧ g.handler.isSome then [{ g with index := 1 }, { g with index := 2 }, { g with index := 3 }, { g with index := 4 }] else [g] }) s
/-- A fault with a free place in the trap store, with none, and the same with the entry pending; code 0x3F is the last program fault. -/
theorem witness_HandlerEntry : let s := withHandler base
    let pend := fun (s : State) => onGroup (fun g => { g with trap := some (faultOf 0x3F) }) s
    let waits := fun (g : Group) => ∀ n, n < 4 → (g.split? n).all (fun x => match x.wait with
      | .mwait _ _ _ => false
      | _ => true) = true
    hasGroups s (fun t g => g.handler = none ∧ s.handler t.ctx ≠ 0 ∧ waits g ∧ s.trapPlaces g.core g.quarter < 4 ∧ s.matrixBusy 0 0 = false ∧
      s.trapBefore 0 { g with trapAt := s.tick } = false ∧ s.piecesOf 0 0 = []) ∧
    hasGroups (fullStore s) (fun t g => g.handler = none ∧ (fullStore s).handler t.ctx ≠ 0 ∧ waits g ∧ 4 ≤ (fullStore s).trapPlaces g.core g.quarter) ∧
    hasGroups (pend s) (fun _ g => g.trap = some (faultOf 0x3F) ∧ (pend s).trapPlaces g.core g.quarter < 4 ∧ (pend s).matrixBusy 0 0 = false ∧
      (pend s).trapBefore 0 g = false ∧ (pend s).pieceStall 0 0 = none) ∧
    hasGroups (pend (fullStore s)) (fun _ g => g.trap = some (faultOf 0x3F) ∧ 4 ≤ (pend (fullStore s)).trapPlaces g.core g.quarter) ∧
    hasGroups { pend s with secondPieces := [{ team := 0, group := 0, ctx := 0, writes := [(0x20004, 0, 7)] }], reservations := [{ reserved with team := 1, hold := true }] }
      (fun _ g => g.trap = some (faultOf 0x3F) ∧ ({ pend s with
        secondPieces := [{ team := 0, group := 0, ctx := 0, writes := [(0x20004, 0, 7)] }]
        reservations := [{ reserved with team := 1, hold := true }] } : State).pieceStall 0 0 ≠ none) := by
  refine ⟨hasGroups_of (by decide +kernel), hasGroups_of (by decide +kernel), hasGroups_of (by decide +kernel), hasGroups_of (by decide +kernel),
    hasGroups_of (by decide +kernel)⟩

/-- TRAP; BPT with no handler, in the handler and with one installed; HALTT; RETT; RETT.KILL; an unassigned opcode. -/
theorem witness_TrapsHaltsAndReturns : let f := fm .lane 0 0 default (I 0xFFFF)
    let g := fm .group 0 0
    let k := fm .group 0 1
    (∃ c, RunsNarrow base (.trap f) f c ∧ c.act ≠ 0) ∧ (∃ c, RunsNarrow base (.bpt f) f c ∧ base.handler c.t.ctx = 0) ∧
    (∃ c, RunsNarrow inHandler (.bpt f) f c ∧ c.g.handler.isSome = true) ∧
    (∃ c, RunsNarrow (withHandler twoGroups) (.bpt f) f c ∧ (withHandler twoGroups).handler c.t.ctx ≠ 0 ∧ c.g.handler = none ∧ c.t.halt = none) ∧
    (∃ c, RunsNarrow (withHandler inHandler2) (.bpt f) f c ∧ (withHandler inHandler2).handler c.t.ctx ≠ 0 ∧ c.g.handler.isSome = true ∧ c.t.halt = none) ∧
    (∃ c, RunsNarrow twoGroups (.haltt g) g c ∧ c.t.halt = none) ∧
    (∃ c, RunsNarrow inHandler (.rett g) g c ∧ c.g.handler.any (fun h => h.frozen.toList.all fun x => x.all fun y => y.mask != 0) = true) ∧
    (∃ c, RunsNarrow inHandler2 (.rettKill k) k c ∧ c.g.handler.isSome = true ∧ ∃ x ∈ c.t.groups, x.index ≠ c.who.group ∧ x.ended = false) ∧
    ∃ c, base.ctx (.unassignedOpcode 0) default = some c ∧ c.sp.mask ≠ 0 := by
  refine ⟨runsNarrow (by decide +kernel), runsNarrow (by decide +kernel), runsNarrow (by decide +kernel), runsNarrow (by decide +kernel),
    runsNarrow (by decide +kernel), runsNarrow (by decide +kernel), runsNarrow (by decide +kernel), runsNarrow (by decide +kernel),
    inHand (by decide +kernel)⟩

/-- A read of the first and the last register of a kept table, of a cleared one, and of an address between registers. -/
theorem witness_SystemRegisters_read : let f := fm .group 0 0 (S 8) (S 16)
    ∀ a ∈ [0x0000, 0x0030, 0x0800, 0x0FF8, 0x1FF0, 0x1FF8, 0x3038, 0x0038, 0x0158, 0x5FF8, 0x67F8, 0x0004, 0x6800],
      ∃ c, RunsNarrow (setS 16 a base) (.sysrReg f) f c ∧ c.t.ctx = 0 ∧ (c.g.scalar .unsigned f.a).toNat = a := by
  have h : ([0x0000, 0x0030, 0x0800, 0x0FF8, 0x1FF0, 0x1FF8, 0x3038, 0x0038, 0x0158, 0x5FF8, 0x67F8, 0x0004, 0x6800].all fun a =>
      runsB (setS 16 a base) (.sysrReg (fm .group 0 0 (S 8) (S 16))) (fm .group 0 0 (S 8) (S 16)) false
        fun c => decide (c.t.ctx = 0 ∧ (c.g.scalar .unsigned (S 16)).toNat = a)) = true := by decide +kernel
  exact fun a ha => runsNarrow (List.all_eq_true.1 h a ha)
/-- A write of a base that fits exactly and of one that does not, of a read-only register and of none. -/
theorem witness_SystemRegisters_write : let f := fm .group 0 0 (S 8) (S 16) (S 32)
    ∀ x ∈ [(0x0010, hbmEnd - 64 * 256), (0x0010, hbmEnd - 64 * 256 + 1), (0x0028, hbmEnd / 65536), (0x0000, 1), (0x0004, 0)],
      ∃ c, RunsNarrow (setS 16 x.1 (setS 32 x.2 base)) (.syswReg f) f c ∧ c.t.ctx = 0 ∧ (c.g.scalar .unsigned f.a).toNat = x.1 ∧
        (c.g.scalar .unsigned f.b).toNat = x.2 := by
  have h : ([(0x0010, hbmEnd - 64 * 256), (0x0010, hbmEnd - 64 * 256 + 1), (0x0028, hbmEnd / 65536), (0x0000, 1), (0x0004, 0)].all fun x =>
      runsB (setS 16 x.1 (setS 32 x.2 base)) (.syswReg (fm .group 0 0 (S 8) (S 16) (S 32))) (fm .group 0 0 (S 8) (S 16) (S 32)) false
        fun c => decide (c.t.ctx = 0 ∧ (c.g.scalar .unsigned (S 16)).toNat = x.1 ∧ (c.g.scalar .unsigned (S 32)).toNat = x.2)) = true := by
    decide +kernel
  exact fun x hx => runsNarrow (List.all_eq_true.1 h x hx)
/-- The team in a context other than 0, for each system instruction. -/
def otherContext : State := onTeam (fun t => { t with ctx := 1 }) base
/-- A SYSW.CTL word with its action as an immediate. -/
def ctl (n : Nat) : Fields := fm .group 4 0 (S 8) (I n) (S 32)
def systemWords : List Instr :=
  [.sysrReg (fm .group 0 0 (S 8) (S 16)), .sysrTbl (fm .group 3 0 (S 8) (S 16) (S 32)), .syswReg (fm .group 0 0 (S 8) (S 16) (S 32)),
   .syswTlbi (fm .group 1 0 (S 8) (S 16) (S 32)), .syswReplay (fm .group 2 0 (S 8) (S 16) (S 32)), .syswTbl (fm .group 3 0 (S 8) (S 16) (S 32)),
   .syswCtlResume (ctl 1), .syswCtlReadmit (ctl 2), .syswCtlCancel (ctl 3), .syswCtlFence (ctl 4), .syswCtlCkpt (ctl 5), .syswCtlPlace (ctl 6),
   .syswCtlAbort (ctl 7)]
theorem witness_system_words : (∀ i ∈ systemWords, ∃ f c, fieldsOf i = some f ∧ Runs base i f c) ∧
    ∀ i ∈ systemWords, ∃ f c, fieldsOf i = some f ∧ Runs otherContext i f c := ⟨allRun (by decide +kernel), allRun (by decide +kernel)⟩
theorem witness_other_context : (otherContext.team? 0).map (·.ctx) = some 1 ∧ (base.team? 0).map (·.ctx) = some 0 := by decide +kernel

/-- The places of a table access and what p says of them, computed. -/
def tableReached (s : State) (i : Instr) (f : Fields) (size : Nat) (acc : Access) (p : Ctx → State → List Spot → Bool) : Bool :=
  runsB s i f false fun c => c.t.ctx == 0 && (s.pieceStall c.who.team c.who.group).isNone &&
    match (s.settlePieces c.who.team c.who.group).reach c.g.core c.t.ctx (c.g.scalar .unsigned f.b) size acc with
    | (s1, .ok l) => (s1.accessStall c (acc == .write) l).isNone && (s1.mire == []) && Memory.wf s1.mem && p c s1 l
    | _ => false
/-- An access of a table instruction goes ahead, and p holds. -/
abbrev TableAccess (s : State) (i : Instr) (f : Fields) (size : Nat) (acc : Access) (p : Ctx → State → List Spot → Prop) : Prop :=
  ∃ c s1 l, RunsNarrow s i f c ∧ c.t.ctx = 0 ∧ s.pieceStall c.who.team c.who.group = none ∧
    (s.settlePieces c.who.team c.who.group).reach c.g.core c.t.ctx (c.g.scalar .unsigned f.b) size acc = (s1, .ok l) ∧
    s1.accessStall c (acc == .write) l = none ∧ s1.mire = [] ∧ s1.canonical ∧ p c s1 l
theorem tableReached_sound {s : State} {i : Instr} {f : Fields} {size : Nat} {acc : Access} {p : Ctx → State → List Spot → Prop}
    [∀ c s l, Decidable (p c s l)] (h : tableReached s i f size acc (fun c s1 l => decide (p c s1 l)) = true) : TableAccess s i f size acc p := by
  obtain ⟨c, hc, _, hp⟩ := runsB_ctx h
  simp only [Bool.and_eq_true, beq_iff_eq, Option.isNone_iff_eq_none (α := Resource) (o := s.pieceStall _ _)] at hp
  obtain ⟨⟨h0, hq⟩, hp⟩ := hp
  split at hp
  · rename_i s1 l he
    simp only [Bool.and_eq_true, Option.isNone_iff_eq_none, beq_iff_eq] at hp
    exact ⟨c, s1, l, hc, h0, hq, he, hp.1.1.1, hp.1.1.2, hp.1.2, of_decide_eq_true hp.2⟩
  · simp at hp
/-- Number, last index and entry size of each table. -/
def lastEntries : List (Nat × Nat × Nat) := [(1, 63, 16), (2, 2047, 8), (3, 255, 64), (4, 4095, 64), (5, 63, 16), (6, 4095, 16), (7, 1023, 2)]
/-- A table word with an entry in A. -/
abbrev tableF : Fields := fm .group 3 0 (S 8) (S 16) (S 32)
def named (k n : Nat) (s : State) : State := setS 16 (k * 2 ^ 32 + n) s
/-- SYSR.TBL of the last entry of each table. -/
theorem witness_SystemTables_read : ∀ x ∈ lastEntries, TableAccess (named x.1 x.2.1 base) (.sysrTbl tableF) tableF x.2.2 .write
    fun c s1 l => (c.g.scalar .unsigned tableF.a).toNat / 2 ^ 32 % 256 = x.1 ∧ (c.g.scalar .unsigned tableF.a).toNat % 65536 = x.2.1 ∧ s1.writeCheck l = none := by
  have h : (lastEntries.all fun x => tableReached (named x.1 x.2.1 base) (.sysrTbl tableF) tableF x.2.2 .write fun c s1 l =>
      decide ((c.g.scalar .unsigned tableF.a).toNat / 2 ^ 32 % 256 = x.1 ∧ (c.g.scalar .unsigned tableF.a).toNat % 65536 = x.2.1 ∧ s1.writeCheck l = none)) = true := by
    decide +kernel
  exact fun x hx => tableReached_sound (List.all_eq_true.1 h x hx)
/-- What SystemTables asks of a write of entry n of table k; `e`: what the image must be. -/
abbrev writeReady (k n : Nat) (e : Nat) (c : Ctx) (s1 : State) (l : List Spot) : Prop :=
  (c.g.scalar .unsigned tableF.a).toNat / 2 ^ 32 % 256 = k ∧ (c.g.scalar .unsigned tableF.a).toNat % 65536 = n ∧ s1.readCheck l = none ∧
    let s2 := s1.beforeRead c.t.ctx c.g.core false l
    leNat (s2.readSpots l) = e ∧ s2.entryStall k n e = none ∧ s2.entryCheck k n e = none
/-- SYSW.TBL of the last entry of each table from an image of zeros. -/
theorem witness_SystemTables_write : ∀ x ∈ lastEntries, TableAccess (named x.1 x.2.1 base) (.syswTbl tableF) tableF x.2.2 .read
    (writeReady x.1 x.2.1 0) := by
  have h : (lastEntries.all fun x => tableReached (named x.1 x.2.1 base) (.syswTbl tableF) tableF x.2.2 .read fun c s1 l =>
      decide (writeReady x.1 x.2.1 0 c s1 l)) = true := by decide +kernel
  exact fun x hx => tableReached_sound (List.all_eq_true.1 h x hx)
/-- The image of SYSW.TBL, at physical address 0x20000. -/
def image (size e : Nat) (s : State) : State := setMem 0x20000 (leBytes size e) s
/-- Images that the tables refuse: a pattern of size 3, a pin of step 15, a context with V and FQLOG 21 and one with FQLOG 6 but a
reserved bit of XLAT, a collective group whose rank is past its last. -/
theorem witness_SystemTables_refused : ∀ x ∈ [(1, 0, 16, 6), (2, 0, 8, 15), (3, 0, 64, 2 ^ 0 + 21 * 2 ^ 64), (3, 0, 64, 2 ^ 0 + 6 * 2 ^ 64 + 2 ^ 11),
      (5, 0, 16, 2 ^ 32)], TableAccess (image x.2.2.1 x.2.2.2 (named x.1 x.2.1 base)) (.syswTbl tableF) tableF x.2.2.1 .read (writeReady x.1 x.2.1 x.2.2.2) := by
  have h : ([(1, 0, 16, 6), (2, 0, 8, 15), (3, 0, 64, 2 ^ 0 + 21 * 2 ^ 64), (3, 0, 64, 2 ^ 0 + 6 * 2 ^ 64 + 2 ^ 11), (5, 0, 16, 2 ^ 32)].all fun x =>
      tableReached (image x.2.2.1 x.2.2.2 (named x.1 x.2.1 base)) (.syswTbl tableF) tableF x.2.2.1 .read fun c s1 l =>
        decide (writeReady x.1 x.2.1 x.2.2.2 c s1 l)) = true := by decide +kernel
  exact fun x hx => tableReached_sound (List.all_eq_true.1 h x hx)
/-- The granule of context entry 255 under a hold; and entries past the last, in the first unassigned table and in the last one. -/
theorem witness_SystemTables_stop : let s := named 3 255 { base with reservations := [{ reserved with granule := (0x1000 + 64 * 255) / 64, hold := true }] }
    TableAccess s (.syswTbl tableF) tableF 64 .read (fun c s1 l => s1.readCheck l = none ∧
      let s2 := s1.beforeRead c.t.ctx c.g.core false l
      s2.entryStall 3 255 (leNat (s2.readSpots l)) = some (.hold ((0x1000 + 64 * 255) / 64))) ∧
    ∀ x ∈ [(3, 256), (8, 0), (255, 65535)], ∀ i ∈ [Instr.sysrTbl tableF, .syswTbl tableF], ∃ c, RunsNarrow (named x.1 x.2 base) i tableF c ∧
      c.t.ctx = 0 ∧ (c.g.scalar .unsigned tableF.a).toNat = x.1 * 2 ^ 32 + x.2 := by
  refine ⟨tableReached_sound (by decide +kernel), ?_⟩
  have h : ([(3, 256), (8, 0), (255, 65535)].all fun x => [Instr.sysrTbl tableF, .syswTbl tableF].all fun i =>
      runsB (named x.1 x.2 base) i tableF false fun c => decide (c.t.ctx = 0 ∧ (c.g.scalar .unsigned tableF.a).toNat = x.1 * 2 ^ 32 + x.2)) = true := by
    decide +kernel
  exact fun x hx i hi => runsNarrow (List.all_eq_true.1 (List.all_eq_true.1 h x hx) i hi)

/-- SYSW.REPLAY of the last context and past it. -/
theorem witness_SystemOperations_replay : let f := fm .group 2 0 (S 8) (S 16)
    (∃ c, RunsNarrow (setS 16 255 base) (.syswReplay f) f c ∧ c.t.ctx = 0 ∧ (c.g.scalar .unsigned f.a).toNat < 256) ∧
    ∃ c, RunsNarrow (setS 16 256 base) (.syswReplay f) f c ∧ c.t.ctx = 0 ∧ 256 ≤ (c.g.scalar .unsigned f.a).toNat :=
  ⟨runsNarrow (by decide +kernel), runsNarrow (by decide +kernel)⟩
/-- A job that has been taken and has not ended. -/
def job (seq kind : Nat) : Job :=
  { seq := seq, queue := 0, ctx := 0, kind := kind, ridx := 0, tag := 0, arg := 0, sigaddr := 0, sigval := 0, accept := 0, start := 0, started := false,
    ended := false, faulted := false, status := 0, written := 0 }
/-- A save pool of four units at 0x100000. -/
def pool (s : State) : State := { s with sys := { s.sys with savebase := 16, savesize := 4 } }
/-- Each SYSW.CTL action with an operand that it accepts and with one that it refuses: the state, the action and the operand. -/
def controlCases : List (State × Nat × Nat) :=
  [(onTeam (fun t => { t with halt := some (0, 2) }) base, 1, 0), (base, 1, 0),
   ({ onTeam (fun t => { t with core := 256 }) base with tiles := [(3, { TileHealth.fresh with status := .appealing })] }, 2, 3), (base, 2, 511),
   (base, 2, 512), ({ base with jobs := [job 0 1], nextSeq := 1 }, 3, 0), (base, 3, 0), (base, 4, 511), (base, 4, 512), (base, 5, 255), (base, 5, 256),
   (pool base, 6, 0x130000), (pool base, 6, 0x140000), (base, 7, 255), (base, 7, 256)]
theorem witness_SystemOperations_control : ∀ x ∈ controlCases, ∃ i f c, fieldsOf i = some f ∧ RunsNarrow (setS 32 x.2.2 x.1) i f c ∧ c.t.ctx = 0 ∧
    (c.g.scalar .unsigned f.a).toNat % 256 = x.2.1 ∧ (c.g.scalar .unsigned f.b).toNat = x.2.2 := by
  have h : (controlCases.all fun x =>
      decide (fieldsOf (buildCtl (ctl x.2.1)) = some (ctl x.2.1)) && runsB (setS 32 x.2.2 x.1) (buildCtl (ctl x.2.1)) (ctl x.2.1) false fun c =>
        decide (c.t.ctx = 0 ∧ (c.g.scalar .unsigned (ctl x.2.1).a).toNat % 256 = x.2.1 ∧ (c.g.scalar .unsigned (ctl x.2.1).b).toNat = x.2.2)) = true := by
    decide +kernel
  intro x hx
  have hb := List.all_eq_true.1 h x hx
  simp only [Bool.and_eq_true] at hb
  obtain ⟨c, hc, _, hp⟩ := runsB_ctx hb.2
  exact ⟨_, _, c, of_decide_eq_true hb.1, hc, of_decide_eq_true hp⟩

/-! ### Conditions of the statements on the matrix engine -/

/-- Shared memory, operand registers and the lease of core 0: B at offset 256, a pitch of 256, 64 elements, scratch tile 4. -/
def arrayReady (s : State) : State :=
  let s := setS 16 64 (setS 32 256 (setS 48 (4 * 2 ^ 32) (shared s)))
  s.setCore 0 { s.core 0 with lease := { holder := some 0, left := 256, grace := none, waiting := [] } }

/-- One word of each matrix, tile and distance form at GROUP scope. -/
def engineForms : List Instr :=
  [.mma (fm .group 0 0 (T 0) (V 64) (S 32)), .mmaq (fm .group 0 0 (T 0) (V 64) (S 32) (S 48)), .mmasm (fm .group 0 0 (T 0) (V 64) (S 32) (S 48)),
   .tzero (fm .group 0 0 (T 0)), .tld (fm .group 0 0 (T 0) (S 16) (S 32)), .tst (fm .group 0 0 (V 0) (S 16) (S 32) (T 3)),
   .tmovTov (fm .group 0 0 (V 0) (T 1) (I 2)), .tmovFromv (fm .group 0 1 (T 0) (V 64) (I 2)), .tmovTt (fm .group 0 2 (T 0) (T 1)),
   .tsideRd (fm .group 0 0 (V 0) (T 1)), .tsideWr (fm .group 0 1 (T 0) (V 64)), .tsideInit (fm .group 0 2 (T 0)),
   .tscalS (fm .group 0 0 (T 0) (S 16)), .tscalRow (fm .group 0 1 (T 0) (V 64)), .tscalDivl (fm .group 0 2 (T 0)), .tacc (fm .group 0 0 (T 0) (T 1)),
   .dist (fm .group 0 0 (T 0) (V 64) (S 32)), .dargm (fm .group 0 0 (T 0) (S 16) (S 32)), .dkacc (fm .group 0 0 (T 0) (V 64) (T 2) (S 48)),
   .dcnt (fm .group 0 0 (T 0))]

/-- One word of each of them that has a TEAM scope. -/
def engineTeamForms : List Instr :=
  [.mma (fm .team 0 0 (T 0) (V 64) (S 32)), .mmaq (fm .team 0 0 (T 0) (V 64) (S 32) (S 48)), .mmasm (fm .team 0 0 (T 0) (V 64) (S 32) (S 48)),
   .tzero (fm .team 0 0 (T 0)), .tld (fm .team 0 0 (T 0) (S 16) (S 32)), .tst (fm .team 0 0 (V 0) (S 16) (S 32) (T 3)),
   .tmovTt (fm .team 0 2 (T 0) (T 1)), .tscalS (fm .team 0 0 (T 0) (S 16)), .tscalDivl (fm .team 0 2 (T 0)), .tacc (fm .team 0 0 (T 0) (T 1)),
   .dist (fm .team 0 0 (T 0) (V 64) (S 32)), .dargm (fm .team 0 0 (T 0) (S 16) (S 32)), .dkacc (fm .team 0 0 (T 0) (V 64) (T 2) (S 48)),
   .dcnt (fm .team 0 0 (T 0))]

/-- A region inside the one step of shared memory that the team holds is reached. -/
theorem sharedRange_ok {t : Team} {off n : Nat} (h1 : t.launch.shared = 1) (h2 : t.steps = [0]) (h : off + n ≤ 65536) :
    ∃ l, sharedRange t false off n = .ok l := by
  have key : ∀ o, o < 65536 → sharedKey t false o = some (sramKey t.core o) := by
    intro o ho
    have e1 : o % 2 ^ 20 = o := Nat.mod_eq_of_lt (by omega)
    have e2 : o / 65536 = 0 := Nat.div_eq_of_lt ho
    have e3 : o % 65536 = o := Nat.mod_eq_of_lt ho
    have own : o < 1048576 := by omega
    have all : o < 2097152 := by omega
    have e4 : o % 1048576 = o := e1
    simp [sharedKey, own, all, h1, h2, ho, e2, e3, e4]
  have go : ∀ l : List Nat, (∀ i ∈ l, off + i < 65536) → ∃ ks, (l.mapM fun i => sharedKey t false (off + i)) = some ks := by
    intro l
    induction l with
    | nil => exact fun _ => ⟨[], rfl⟩
    | cons i l ih =>
      intro hl
      obtain ⟨ks, e⟩ := ih fun j hj => hl j (List.mem_cons_of_mem _ hj)
      exact ⟨_, by rw [List.mapM_cons, key _ (hl i List.mem_cons_self), e]; rfl⟩
  obtain ⟨ks, e⟩ := go (List.range n) fun i hi => by have := List.mem_range.1 hi; omega
  exact ⟨runsOf (ks.map fun k => { key := k, home := 1, window := none }), by simp [sharedRange, e]⟩
theorem alignedShared_ok {t : Team} {al off n : Nat} (h1 : t.launch.shared = 1) (h2 : t.steps = [0]) (ha : off % al = 0) (h : off + n ≤ 65536) :
    ∃ l, alignedShared t false al off n = .ok l := by
  simpa [alignedShared, ha] using sharedRange_ok h1 h2 h
/-- An instruction's operands that lie whole in the one step of shared memory that its party holds, computed. -/
def operandsFit (p : Party) (x : Formats) : Bool :=
  let f := p.lead.f
  let b := (lowWord (p.lead.g.scalar .unsigned f.b)).toNat
  let sc := p.lead.g.scalar .unsigned f.c
  let within := fun (al off n : Nat) => off % al == 0 && decide (off + n ≤ 65536)
  let plain := p.lead.t.launch.shared == 1 && p.lead.t.steps == [0] && !p.second && !isTwin p.lead.i f
  match p.lead.i with
  | .mma _ => plain && !bit (subN f) 0 && within 128 b (64 * rowBytes x.b) && x.scm == 0
  | .dist _ => plain && !bit (subN f) 2 && within 128 b (64 * rowBytes x.b) && x.scm == 0
  | .mmaq _ => plain && !bit (subN f) 0 && within 128 b (64 * rowBytes x.b) && within 4 (lowWord sc).toNat (x.areaBytes x.a) &&
      within 4 (highWord sc).toNat (x.areaBytes x.b)
  | _ => false
theorem operandsFit_sound {p : Party} {x : Formats} {s : State} (h : operandsFit p x = true) : ∃ l, memoryCheck p x s = (s, .ok l) := by
  unfold operandsFit at h
  split at h <;> try (simp at h; done)
  · rename_i f hi
    simp only [Bool.and_eq_true, beq_iff_eq, Bool.not_eq_true', decide_eq_true_eq] at h
    obtain ⟨⟨⟨⟨⟨⟨h1, h2⟩, h3⟩, h4⟩, h5⟩, h6, h7⟩, h8⟩ := h
    obtain ⟨l, e⟩ := alignedShared_ok (t := p.lead.t) h1 h2 h6 h7
    simp only [hi] at h4
    simp [memoryCheck, operandSpans, hi, h3, h4, h5, h8, e, Check.all]
  · rename_i f hi
    simp only [Bool.and_eq_true, beq_iff_eq, Bool.not_eq_true', decide_eq_true_eq] at h
    obtain ⟨⟨⟨⟨⟨⟨h1, h2⟩, h3⟩, h4⟩, h5⟩, h6, h7⟩, h8⟩ := h
    obtain ⟨l, e⟩ := alignedShared_ok (t := p.lead.t) h1 h2 h6 h7
    simp only [hi] at h4
    simp [memoryCheck, operandSpans, hi, h3, h4, h5, h8, e, Check.all]
  · rename_i f hi
    simp only [Bool.and_eq_true, beq_iff_eq, Bool.not_eq_true', decide_eq_true_eq] at h
    obtain ⟨⟨⟨⟨⟨⟨⟨h1, h2⟩, h3⟩, h4⟩, h5⟩, h6, h7⟩, h8, h9⟩, h10, h11⟩ := h
    obtain ⟨l, e⟩ := alignedShared_ok (t := p.lead.t) h1 h2 h6 h7
    obtain ⟨l2, e2⟩ := alignedShared_ok (t := p.lead.t) h1 h2 h8 h9
    obtain ⟨l3, e3⟩ := alignedShared_ok (t := p.lead.t) h1 h2 h10 h11
    simp only [hi] at h4
    by_cases hs : x.scm = 0
    · simp [memoryCheck, operandSpans, hi, h3, h4, h5, hs, e, Check.all]
    · simp [memoryCheck, operandSpans, hi, h3, h4, h5, hs, e, e2, e3, Check.all]
/-- The keys, the values and the scratch tile of MMASM, computed. -/
def softmaxFits (p : Party) : Bool :=
  let b := p.lead.g.scalar .unsigned p.lead.f.b
  let scratch := bits (p.lead.g.scalar .unsigned p.lead.f.c).toNat 35 32
  let n := 64 * 64 * (fmtWidth (mmasmFormat (dtN p.lead.f)) / 8)
  match p.lead.i with
  | .mmasm _ => p.lead.t.launch.shared == 1 && p.lead.t.steps == [0] && !p.second && decide (scratch < p.lead.t.launch.tiles) &&
      scratch != tileOf p.lead.f.d && (lowWord b).toNat % 128 == 0 && decide ((lowWord b).toNat + 4096 ≤ 65536) &&
      (highWord b).toNat % 128 == 0 && decide ((highWord b).toNat + n ≤ 65536)
  | _ => false
theorem softmaxFits_sound {p : Party} {x : Formats} {s : State} (h : softmaxFits p = true) : ∃ l, memoryCheck p x s = (s, .ok l) := by
  unfold softmaxFits at h
  split at h <;> try (simp at h; done)
  rename_i f hi
  simp only [Bool.and_eq_true, beq_iff_eq, Bool.not_eq_true', decide_eq_true_eq, bne_iff_ne, ne_eq] at h
  obtain ⟨⟨⟨⟨⟨⟨⟨⟨h1, h2⟩, h3⟩, h4⟩, h5⟩, h6⟩, h7⟩, h8⟩, h9⟩ := h
  obtain ⟨l, e⟩ := alignedShared_ok (t := p.lead.t) h1 h2 h6 h7
  obtain ⟨l2, e2⟩ := alignedShared_ok (t := p.lead.t) h1 h2 h8 h9
  have h4' : ¬ p.lead.t.launch.tiles ≤ bits (p.lead.g.scalar .unsigned p.lead.f.c).toNat 35 32 := by omega
  simp [memoryCheck, softmaxSpans, hi, h3, h4', h5, e, e2, Check.all]
/-- The rows of TLD or TST without a count in shared memory, computed. -/
def rowsFit (p : Party) : Bool :=
  let f := p.lead.f
  let es := tileElemBytes (dtN f)
  let base := (lowWord (p.lead.g.scalar .unsigned f.a)).toNat
  let pitch := match f.b with
    | .special _ => 64 * es
    | o => (p.lead.g.scalar .unsigned o).toNat
  let plain := p.lead.t.launch.shared == 1 && p.lead.t.steps == [0] && !p.second && !bit (subN f) 0 && !bit (subN f) 1 &&
    base % 16 == 0 && pitch % 16 == 0 && decide (64 * es ≤ pitch) && decide (base + 64 * pitch ≤ 65536)
  match p.lead.i with
  | .tld _ => plain
  | .tst _ => plain
  | _ => false
theorem rows_ok {t : Team} {p : Party} {s : State} {base : Nat} (h1 : t.launch.shared = 1) (h2 : t.steps = [0]) (hs : p.second = false) :
    ∀ (rows : List (Nat × Nat)) (l : List Run), (∀ x ∈ rows, base + x.1 + x.2 ≤ 65536) →
      ∃ m, rows.foldl (fun (r : State × Check) x => match r.2 with
        | .ok l =>
          let y := (r.1, sharedRange t p.second (base + x.1) x.2)
          (y.1, match y.2 with
            | .ok m => .ok (l ++ m)
            | z => z)
        | _ => r) (s, .ok l) = (s, .ok m) := by
  intro rows
  induction rows with
  | nil => exact fun l _ => ⟨l, rfl⟩
  | cons x rows ih =>
    intro l hl
    obtain ⟨m, e⟩ := sharedRange_ok (t := t) h1 h2 (hl x List.mem_cons_self)
    obtain ⟨k, e2⟩ := ih (l ++ m) fun y hy => hl y (List.mem_cons_of_mem _ hy)
    exact ⟨k, by rw [List.foldl_cons]; simpa [hs, e] using e2⟩
theorem tileSpans_ok {p : Party} {s : State} {acc : Access} (h : rowsFit p = true) : ∃ l, tileSpans p s acc false = (s, .ok l) := by
  have h' : p.lead.t.launch.shared = 1 ∧ p.lead.t.steps = [0] ∧ p.second = false ∧ bit (subN p.lead.f) 0 = false := by
    unfold rowsFit at h
    split at h <;> simp_all
  obtain ⟨h1, h2, h3, h4⟩ := h'
  have hb : ∀ q, (64 * tileElemBytes (dtN p.lead.f) ≤ q ∧ q % 16 = 0 ∧ (lowWord (p.lead.g.scalar .unsigned p.lead.f.a)).toNat % 16 = 0 ∧
      (lowWord (p.lead.g.scalar .unsigned p.lead.f.a)).toNat + 64 * q ≤ 65536) →
      ∃ l, (if ((lowWord (p.lead.g.scalar .unsigned p.lead.f.a)).toNat % 16 != 0 || q % 16 != 0 || decide (q < 64 * tileElemBytes (dtN p.lead.f))) = true
        then (s, Check.fault codeADDRBAD 0 (lowWord (p.lead.g.scalar .unsigned p.lead.f.a)).toNat)
        else ((List.range 64).map fun i => (i * q, 64 * tileElemBytes (dtN p.lead.f))).foldl (fun (r : State × Check) x => match r.2 with
        | .ok l =>
          let y := (r.1, sharedRange p.lead.t p.second ((lowWord (p.lead.g.scalar .unsigned p.lead.f.a)).toNat + x.1) x.2)
          (y.1, match y.2 with
            | .ok m => .ok (l ++ m)
            | z => z)
        | _ => r) (s, .ok [])) = (s, .ok l) := by
    rintro q ⟨k1, k2, k3, k4⟩
    obtain ⟨m, e⟩ := rows_ok (base := (lowWord (p.lead.g.scalar .unsigned p.lead.f.a)).toNat) (s := s) h1 h2 h3
      ((List.range 64).map fun i => (i * q, 64 * tileElemBytes (dtN p.lead.f))) [] (by
        intro x hx
        obtain ⟨i, hi, rfl⟩ := List.mem_map.1 hx
        have h5 := List.mem_range.1 hi
        have h6 : i * q ≤ 63 * q := Nat.mul_le_mul_right q (by omega)
        dsimp only
        omega)
    exact ⟨m, by rw [if_neg (by simp [k2, k3]; omega)]; exact e⟩
  unfold tileSpans
  simp only [h4, Bool.false_eq_true, if_false, List.append_nil]
  apply hb
  unfold rowsFit at h
  split at h <;> (try (simp at h; done)) <;>
  · simp only [Bool.and_eq_true, beq_iff_eq, decide_eq_true_eq] at h
    exact ⟨h.1.2, h.1.1.2, h.1.1.1.2, h.2⟩
theorem rowsFit_sound {p : Party} {x : Formats} {s : State} (h : rowsFit p = true) : ∃ l, memoryCheck p x s = (s, .ok l) := by
  have hs : bit (subN p.lead.f) 1 = false := by
    unfold rowsFit at h
    split at h <;> simp_all
  cases hi : p.lead.i <;> simp only [rowsFit, hi, Bool.false_eq_true] at h
  · simpa [memoryCheck, hi] using tileSpans_ok (acc := .read) (by simpa only [rowsFit, hi] using h)
  · simpa [memoryCheck, hi, hs] using tileSpans_ok (acc := .write) (by simpa only [rowsFit, hi] using h)
/-- Nothing is under way that could hold an operation back: no queue, no engine command, no peer. -/
def arraysIdle (s : State) : Bool := (s.cores.all fun c => c.2.matrix.isEmpty) && s.commands.isEmpty && s.peers.isEmpty
theorem matrix_idle {s : State} (h : (s.cores.all fun c => c.2.matrix.isEmpty) = true) (k : Nat) : (s.core k).matrix = [] := by
  have key : ∀ l : List (Nat × Core), (l.all fun c => c.2.matrix.isEmpty) = true → ((assoc k l).getD Core.fresh).matrix = [] := by
    intro l
    induction l with
    | nil => exact fun _ => rfl
    | cons c l ih =>
      intro hl
      simp only [List.all_cons, Bool.and_eq_true, List.isEmpty_iff] at hl
      simp only [assoc]
      split
      · exact hl.1
      · exact ih hl.2
  exact key s.cores h
/-- Then a party's instruction stalls at nothing. -/
theorem stall_idle {s : State} {p : Party} (h : arraysIdle s = true) (hq : usesMemory p.lead.i = true → p.quiet s = true) (runs : List Run) :
    p.stall s runs = none := by
  simp only [arraysIdle, Bool.and_eq_true, List.isEmpty_iff] at h
  obtain ⟨⟨hm, hc⟩, hp⟩ := h
  have e := matrix_idle hm
  have hb : p.busyByte s runs = none := by
    have ho : s.ownedLine (runKeys runs) = none := by simp [State.ownedLine, hc, hp]
    have hh : ∀ t g w k, s.matrixHolds t g w k = false := by
      intro t g w k
      simp only [State.matrixHolds, List.any_eq_false]
      intro c hcm
      simp [List.isEmpty_iff.1 (List.all_eq_true.1 hm c hcm)]
    simp [Party.busyByte, ho, hh]
  have hs : (p.cores.find? fun k => 16 ≤ (s.core k).matrix.length) = none := by simp [List.find?_eq_none, e]
  have hf : p.cores.find? s.follows = none := by simp [List.find?_eq_none, State.follows, e]
  have hu : (usesMemory p.lead.i && !p.quiet s) = false := by
    cases hu : usesMemory p.lead.i
    · rfl
    · simp [hq hu]
  simp only [Party.stall, hu, hb, hs, hf, Bool.false_eq_true, if_false, Option.map_none, ite_self]
/-- What acceptance asks of a party that executes, computed. -/
def acceptable (s : State) (i : Instr) (p : Party) : Bool :=
  let x := arrayFormats i p.lead.f p.lead.sp.fmt
  let rest := fun (s1 : State) => (!usesMemory p.lead.i || p.quiet s1) && arraysIdle s1 && p.cores.all (fun k => s1.holdsLease k p.lead.t) &&
    p.ctxs.all fun c => !s1.depends c
  fmtCheck p x && if operandsFit p x || softmaxFits p || rowsFit p then rest s
    else match memoryCheck p x s with
      | (s1, .ok _) => rest s1
      | _ => false
theorem acceptable_sound {s : State} {i : Instr} {p : Party} (h : acceptable s i p = true) :
    ∃ s1 runs, fmtCheck p (arrayFormats i p.lead.f p.lead.sp.fmt) = true ∧ memoryCheck p (arrayFormats i p.lead.f p.lead.sp.fmt) s = (s1, .ok runs) ∧
      p.stall s1 runs = none ∧ (∀ k ∈ p.cores, s1.holdsLease k p.lead.t = true) ∧ ∀ c ∈ p.ctxs, s1.depends c = false := by
  have key : ∃ s1 runs, fmtCheck p (arrayFormats i p.lead.f p.lead.sp.fmt) = true ∧
      memoryCheck p (arrayFormats i p.lead.f p.lead.sp.fmt) s = (s1, .ok runs) ∧
      ((!usesMemory p.lead.i || p.quiet s1) && arraysIdle s1 && p.cores.all (fun k => s1.holdsLease k p.lead.t) &&
        p.ctxs.all fun c => !s1.depends c) = true := by
    unfold acceptable at h
    rw [Bool.and_eq_true] at h
    obtain ⟨hf, h⟩ := h
    split at h
    · rename_i hm
      simp only [Bool.or_eq_true] at hm
      obtain ⟨l, e⟩ : ∃ l, memoryCheck p (arrayFormats i p.lead.f p.lead.sp.fmt) s = (s, .ok l) := by
        rcases hm with (hm | hm) | hm
        · exact operandsFit_sound hm
        · exact softmaxFits_sound hm
        · exact rowsFit_sound hm
      exact ⟨s, l, hf, e, h⟩
    · split at h
      · rename_i s1 l e
        exact ⟨s1, l, hf, e, h⟩
      · simp at h
  obtain ⟨s1, runs, hf, hm, h⟩ := key
  simp only [Bool.and_eq_true, Bool.or_eq_true, Bool.not_eq_true', List.all_eq_true] at h
  obtain ⟨⟨⟨hq, hi⟩, hl⟩, hd⟩ := h
  refine ⟨s1, runs, hf, hm, stall_idle hi ?_ runs, hl, hd⟩
  intro hu
  rcases hq with h' | h'
  · simp [hu] at h'
  · exact h'
/-- Every GROUP-scope form is accepted. -/
theorem witness_MatrixInstructionsAreAccepted : ∀ i ∈ engineForms, ∃ f c s1 runs, fieldsOf i = some f ∧ Runs (arrayReady base) i f c ∧
    fmtCheck (soloParty c) (arrayFormats i c.f c.sp.fmt) = true ∧
    memoryCheck (soloParty c) (arrayFormats i c.f c.sp.fmt) (arrayReady base) = (s1, .ok runs) ∧
    (soloParty c).stall s1 runs = none ∧ ∀ k ∈ (soloParty c).cores, s1.holdsLease k c.t = true := by
  have h : (engineForms.all fun i => match fieldsOf i with
      | some f => runsB (arrayReady base) i f true fun c => acceptable (arrayReady base) i (soloParty c)
      | none => false) = true := by decide +kernel
  intro i hi
  have hb := List.all_eq_true.1 h i hi
  split at hb
  · rename_i f hf
    obtain ⟨c, hc, hr, hp⟩ := runsB_ctx hb
    obtain ⟨s1, runs, h1, h2, h3, h4, _⟩ := acceptable_sound hp
    exact ⟨f, c, s1, runs, hf, ⟨hc.issues, hc.wf, hr rfl⟩, h1, h2, h3, h4⟩
  · simp at hb
/-- The queue is full. -/
theorem witness_MatrixInstructionsAreAccepted_stall : let f := fm .group 0 0 (T 0)
    let s := withMatrix (List.replicate 16 zeroOp) base
    ∃ c, Runs s (.tzero f) f c ∧ fmtCheck (soloParty c) (arrayFormats (.tzero f) f c.sp.fmt) = true ∧
      (match memoryCheck (soloParty c) (arrayFormats (.tzero f) f c.sp.fmt) s with
        | (s1, .ok runs) => (soloParty c).stall s1 runs
        | _ => none) = some (.matrix 0) := runs (by decide +kernel)
/-- Every TEAM-scope form is accepted when the last group has arrived. -/
theorem witness_MatrixInstructionsAreAccepted_team : ∀ i ∈ engineTeamForms, ∃ f c p s2 runs, fieldsOf i = some f ∧
    (arrayReady base).ctx i f = some c ∧ i.wf (groupEnv c.t c.g) = true ∧ (arrayReady base).depends c = false ∧
    ((arrayReady base).block c.who (.rendezvous i)).party? c.who.team c.who.group = some (i, p) ∧ p.idle = false ∧
    (∀ x ∈ p.ctxs, x.broken = false) ∧ fmtCheck p (arrayFormats i p.lead.f p.lead.sp.fmt) = true ∧
    memoryCheck p (arrayFormats i p.lead.f p.lead.sp.fmt) ((arrayReady base).block c.who (.rendezvous i)) = (s2, .ok runs) ∧
    (∀ m ∈ p.members, m.g.generals + tovRegs i ≤ m.g.ceiling) ∧ (∀ x ∈ p.ctxs, s2.depends x = false) ∧ p.stall s2 runs = none ∧
    ∀ n ∈ p.cores, s2.holdsLease n p.lead.t = true := by
  have h : (engineTeamForms.all fun i => match fieldsOf i with
      | some f => match (arrayReady base).ctx i f with
        | some c => i.wf (groupEnv c.t c.g) && !(arrayReady base).depends c &&
          match ((arrayReady base).block c.who (.rendezvous i)).party? c.who.team c.who.group with
          | some (j, p) => decide (j = i) && !p.idle && (p.ctxs.all fun x => !x.broken) &&
            (p.members.all fun m => decide (m.g.generals + tovRegs i ≤ m.g.ceiling)) && acceptable ((arrayReady base).block c.who (.rendezvous i)) i p
          | none => false
        | none => false
      | none => false) = true := by decide +kernel
  intro i hi
  have hb := List.all_eq_true.1 h i hi
  split at hb <;> try (simp at hb; done)
  rename_i f hf
  split at hb <;> try (simp at hb; done)
  rename_i c hc
  simp only [Bool.and_eq_true, Bool.not_eq_true'] at hb
  obtain ⟨⟨hw, hd⟩, hb⟩ := hb
  split at hb
  · rename_i j p hp
    simp only [Bool.and_eq_true, Bool.not_eq_true', decide_eq_true_eq, List.all_eq_true] at hb
    obtain ⟨⟨⟨⟨rfl, h1⟩, h2⟩, hg⟩, h3⟩ := hb
    obtain ⟨s2, runs, k1, k2, k3, k4, k5⟩ := acceptable_sound h3
    exact ⟨f, c, p, s2, runs, hf, hc, hw, hd, hp, h1, h2, k1, k2, hg, k5, k3, k4⟩
  · simp at hb
/-- Two groups of a gang; the other has not arrived. -/
def gangOfTwo : State := onTeam (fun t => { t with groups := t.groups.map fun g => { g with gang := some (0, g.index, 2) } }) twoGroups
theorem witness_MatrixInstructionsAreAccepted_gang : ∀ i ∈ [Instr.tzero (fm .gang 0 0 (T 0)), .mleaseRd (fm .team 0 0 (S 8))],
    ∃ f c, fieldsOf i = some f ∧ gangOfTwo.ctx i f = some c ∧ i.wf (groupEnv c.t c.g) = true ∧ gangOfTwo.depends c = false ∧
      (gangOfTwo.block c.who (.rendezvous i)).party? c.who.team c.who.group = none := by
  have h : ([Instr.tzero (fm .gang 0 0 (T 0)), .mleaseRd (fm .team 0 0 (S 8))].all fun i => meets gangOfTwo i false) = true := by decide +kernel
  exact fun i hi => meets_none (List.all_eq_true.1 h i hi)
theorem witness_MatrixInstructionsAreAccepted_lease : ∀ i ∈ [Instr.mleaseRd (fm .group 0 0 (S 8)), .mleaseRel (fm .group 0 1 (S 8))],
    ∃ f c, fieldsOf i = some f ∧ Runs (arrayReady base) i f c := allRun (by decide +kernel)

/-- MMA on tile 0 that runs, and TZERO of tile 1 that waits behind it. -/
def multiplyOp (rows : Vector Bool 64) : MatrixOp :=
  { zeroOp with
    i := .mma { fm .group 9 0 (T 0) (V 64) (S 32) with dt := 9#4 }, live := rows, a := List.replicate 64 (List.replicate 16 0),
    bytes := List.replicate 4096 0, running := true }
def zeroOp1 : MatrixOp := { zeroOp with i := .tzero (fm .group 0 0 (T 1)), tiles := [1] }
/-- The matrix queue is empty; its first may start; its second may, which works on another tile and without the array. -/
theorem witness_MatrixInstructionsAreAccepted_start : let s := withMatrix [multiplyOp (Vector.replicate 64 true), zeroOp1] base
    (base.core 0).matrix.length = 0 ∧ ((withMatrix [zeroOp] base).core 0).matrix[0]? = some zeroOp ∧ zeroOp.running = false ∧
    (s.core 0).matrix[1]? = some zeroOp1 ∧ s.mire = [] ∧ zeroOp1.running = false ∧ (∀ x ∈ (multiplyOp (Vector.replicate 64 true)).tiles, x ∉ zeroOp1.tiles) ∧
    (leaseCost (multiplyOp (Vector.replicate 64 true)).i).isSome ≠ (leaseCost zeroOp1.i).isSome ∧ zeroOp1.shadow = false ∧
    s.opReady 0 zeroOp1 = true ∧ (base.team? zeroOp1.team).isSome = true ∧ mayStart [] (multiplyOp (Vector.replicate 64 true)) = false ∧ s.readCheck [] = none := by decide +kernel

/-- An operation that runs, of each kind of which MatrixResults says what it writes. -/
def runningOps : List MatrixOp :=
  let z := { zeroOp with running := true, a := List.replicate 32 (List.replicate 32 7#32), bytes := List.replicate 16384 0 }
  [multiplyOp (Vector.replicate 64 true), multiplyOp (Vector.replicate 64 false), { multiplyOp (Vector.replicate 64 true) with i := .mma (fm .group 1 0 (T 0) (V 64) (S 32)) }, z,
   { z with i := .tmovTt (fm .group 0 2 (T 15) (T 1)) }, { z with i := .tld (fm .group 0 0 (T 0) (S 16) (S 32)) },
   { z with i := .tmovFromv (fm .group 0 1 (T 0) (V 64) (I 3)) }, { z with i := .tacc (fm .group 1 0 (T 0) (T 1)) }, { z with i := .tsideInit (fm .group 0 2 (T 0)) },
   { z with i := .tsideWr (fm .group 0 1 (T 0) (V 64)) }, { z with i := .dargm (fm .group 1 1 (T 0) (S 16) (S 32)), args := [64, 0xFFBE] },
   { z with i := .tld (fm .group 2 0 (T 0) (S 16) (S 32)) }, { z with i := .tscalS (fm .group 0 0 (T 0) (S 16)), args := [0x40000000] },
   { z with i := .tscalRow (fm .group 0 1 (T 0) (V 64)) }, { z with i := .tscalRow (fm .group 0 1 (T 0) (V 64)), contrib := 0 },
   { z with i := .tscalDivl (fm .group 0 2 (T 0)) }, { z with i := .tst (fm .group 2 7 default (S 16) (S 32) (T 3)) },
   { z with i := .tst (fm .group 5 0 default (S 16) (S 32) (T 3)) },
   { z with i := .mmasm (fm .group 0 0 (T 0) (V 64) (S 32)), a := List.replicate 64 (List.replicate 16 0), args := [0, 0x13F800000] },
   { z with i := .tsideRd (fm .group 0 0 (V 252) (T 1)) }, { z with i := .tmovTov (fm .group 0 0 (V 224) (T 1) (I 3)) }, { z with i := .tst (fm .group 0 0 default (S 16) (S 32) (T 3)) }]
theorem matrix_withMatrix (l : List MatrixOp) (s : State) : ((withMatrix l s).core 0).matrix = l := by
  simp [withMatrix, State.core_setCore]
theorem witness_MatrixResults : ∀ m ∈ runningOps, ∃ t f, ((withMatrix [m] base).core 0).matrix.find? (withMatrix [m] base).mayFinish = some m ∧
    (withMatrix [m] base).team? m.team = some t ∧ fieldsOf m.i = some f ∧ isTwin m.i f = false ∧ t.tileAt m.second (tileOf f.d) < 16 ∧
    (withMatrix [m] base).writeCheck (m.reads.flatMap Run.spots) = none ∧ ∃ g ∈ t.groups, g.ended = false := by
  have h : (runningOps.all fun m => (withMatrix [m] base).mayFinish m && ((withMatrix [m] base).team? m.team).any fun t =>
      (fieldsOf m.i).any fun f => decide (isTwin m.i f = false ∧ t.tileAt m.second (tileOf f.d) < 16 ∧
        (withMatrix [m] base).writeCheck (m.reads.flatMap Run.spots) = none ∧ ∃ g ∈ t.groups, g.ended = false)) = true := by
    decide +kernel
  intro m hm
  have hb := List.all_eq_true.1 h m hm
  simp only [Bool.and_eq_true, decide_eq_true_eq, Option.any_eq_true] at hb
  obtain ⟨h1, t, ht, f, hf, h2⟩ := hb
  exact ⟨t, f, by rw [matrix_withMatrix, List.find?_cons_of_pos h1], ht, hf, h2⟩
/-- The operands of the two MMA operations fill 64 rows; their formats are an integer and a floating one. -/
theorem witness_MatrixResults_products : (multiplyOp (Vector.replicate 64 true)).a.length = 64 ∧
    64 * rowBytes (mmaFormats 9 0x303).b ≤ (multiplyOp (Vector.replicate 64 true)).bytes.length ∧ 10 ≤ (mmaFormats 9 0x303).a ∧
    (mmaFormats 1 0x303).a < 10 ∧ 64 * rowBytes (mmaFormats 1 0x303).b ≤ 4096 :=
  ⟨List.length_replicate, by rw [show (multiplyOp (Vector.replicate 64 true)).bytes.length = 4096 from List.length_replicate]; decide +kernel,
    by decide +kernel⟩
/-- The tile of the scores of that MMASM is tile 1, beside tile 0 of its sums, and its query has 64 rows. -/
theorem witness_MatrixResults_attention : bits ((([0, 0x13F800000] : List W64).getD 1 0).toNat) 35 32 = 1 ∧
    ((base.team? 0).any fun t => t.tileAt false 1 < 16 && t.tileAt false 1 != t.tileAt false 0) = true ∧
    (List.replicate 64 (List.replicate 16 (0 : W32))).length = 64 := by
  refine ⟨by decide, by decide +kernel, List.length_replicate⟩
/-- The bounds of a drain: 64 elements that end at index 0xFFFE; group 0 has not ended. -/
theorem witness_MatrixResults_drain : (lowWord (64 : W64)).toNat = 64 ∧ (lowWord (0xFFBE : W64)).toNat + 64 ≤ 0xFFFF ∧
    (base.group? 0 0).map (·.ended) = some false := by decide +kernel

/-! ### Conditions of the statements on splats and records -/

/-- Shared memory whose record at offset 64 has a reserved bit set, an offset in S16 and one thread. -/
def splats (o : Nat) : State := setS 16 o (setMem (sramKey 0 92) [1] (shared (oneThread base)))
/-- GSW with and without the Gaussian, on a record that is not aligned, on one of zeros and on one with a reserved bit. -/
theorem witness_SplatArithmetic_gsw : ∀ k ∈ [0, 1],
    let f := fm .lane 0 k (V 0) (S 16) (V 64)
    (∃ c, Runs (splats 33) (.gsw f) f c ∧ (c.g.scalar .unsigned f.a).toNat % 2 ^ 32 % 32 ≠ 0) ∧
    (∃ c, Runs (splats 32) (.gsw f) f c ∧ ∃ ks, (List.range 32).mapM (fun i => sharedKey c.t (onSecond c.t c.g) (32 + i)) = some ks ∧
      (c.g.scalar .unsigned f.a).toNat = 32 ∧ bits (leNat ((splats 32).peek ks)) 255 224 = 0) ∧
    ∃ c, Runs (splats 64) (.gsw f) f c ∧ ∃ ks, (List.range 32).mapM (fun i => sharedKey c.t (onSecond c.t c.g) (64 + i)) = some ks ∧
      (c.g.scalar .unsigned f.a).toNat = 64 ∧ bits (leNat ((splats 64).peek ks)) 255 224 ≠ 0 := by
  have h : ([0, 1].all fun k =>
      let f := fm .lane 0 k (V 0) (S 16) (V 64)
      runsB (splats 33) (.gsw f) f true (fun c => decide ((c.g.scalar .unsigned f.a).toNat % 2 ^ 32 % 32 ≠ 0)) &&
      runsB (splats 32) (.gsw f) f true (fun c => decide (((List.range 32).mapM fun i => sharedKey c.t (onSecond c.t c.g) (32 + i)).any
        (fun ks => decide ((c.g.scalar .unsigned f.a).toNat = 32 ∧ bits (leNat ((splats 32).peek ks)) 255 224 = 0)) = true)) &&
      runsB (splats 64) (.gsw f) f true fun c => decide (((List.range 32).mapM fun i => sharedKey c.t (onSecond c.t c.g) (64 + i)).any
        (fun ks => decide ((c.g.scalar .unsigned f.a).toNat = 64 ∧ bits (leNat ((splats 64).peek ks)) 255 224 ≠ 0)) = true)) = true := by
    decide +kernel
  intro k hk
  have hb := List.all_eq_true.1 h k hk
  simp only [Bool.and_eq_true] at hb
  obtain ⟨⟨h1, h2⟩, h3⟩ := hb
  obtain ⟨c2, r2, p2⟩ := runs h2
  obtain ⟨c3, r3, p3⟩ := runs h3
  exact ⟨runs h1, ⟨c2, r2, someOf p2⟩, ⟨c3, r3, someOf p3⟩⟩
/-- The other forms, each SUB of them. -/
theorem witness_SplatArithmetic : ∀ i ∈ [Instr.blend (fm .lane 0 0 (V 8) (V 20) (V 16) (P 3)), .unblend (fm .lane 0 0 (V 8) (V 16) (V 24) (V 32)),
    .maskpk (fm .lane 0 0 (V 8) (V 64)), .maskpk (fm .lane 0 1 (V 8) (V 64)), .maskpk (fm .lane 0 2 (V 8) (V 224)),
    .maskun (fm .lane 0 0 (V 224) (V 8) (V 64)), .maskun (fm .lane 0 1 (V 64) (V 8) (V 128)), .maskun (fm .lane 0 2 (V 64) (V 8) (V 128))],
    ∃ f c, fieldsOf i = some f ∧ Runs (onSplit (fun x => { x with mask := 0x7FFFFFFF }) base) i f c := allRun (by decide +kernel)
theorem witness_SplatArithmetic_unblend : let f := fm .lane 0 0 (V 8) (V 16) (V 24) (V 32)
    ∃ c, Runs base (.unblend f) f c ∧ c.g.generals + 8 ≤ c.g.ceiling := runs (by decide +kernel)

/-- An edge of records of 64 bytes whose queue header is at 0xC000 and whose records are at 0xD000. -/
def edge (cap : Nat) : Edge := { queue := 0xC000, src := 0, dst := 1, rsize := 64, cap := cap, base := 0xD000, committed := 0, pending := [] }
/-- A node of a kind that has not started. -/
def node (kind : Nat) : Node :=
  { kind := kind, target := 0, batch := 1, launch := none, config := zeros 64, started := false, finished := false, failed := false, taken := 0,
    batches := 0, xlate := none, cleared := false }
/-- The team runs node 0 of a graph of two nodes with an edge between them. -/
def producer (cap : Nat) : State :=
  onTeam (fun t => { t with origin := .node 0 0 }) { oneThread base with graphs := [{ seq := 0, ctx := 0, nodes := [node 0, node 0], edges := [edge cap] }] }
/-- EMIT of a team that no node started, and with a record that ends past V255. -/
theorem witness_RecordsEmittedAndDecoded_refused : let f := fm .lane 0 0 default (I 0) (V 8)
    let f2 := fm .lane 0 0 default (I 0) (V 248)
    (∃ c, Runs base (.emit f) f c ∧ c.emitEdge base = none ∧ c.t.origin ≠ .node 0 0) ∧
    ∃ c, Runs (producer 4) (.emit f2) f2 c ∧ c.emitEdge (producer 4) = some (0, 0, edge 4) ∧ 256 < 248 + (edge 4).rsize / 4 :=
  ⟨runs (by decide +kernel), runs (by decide +kernel)⟩
/-- What EMIT asks of its edge up to the space of its queue. -/
abbrev emitReady (s : State) (f : Fields) (cap : Nat) (c : Ctx) (hs : List Spot) (s1 : State) : Prop :=
  spansMeet (c.sp.windows.flatMap (·.regs)) (emitSpan f (edge cap)) = false ∧ spansMeet (s.pendingSpans c.who.team c.g) (emitSpan f (edge cap)) = false ∧
    s.storing c.who.team c.who.group false = false ∧ s1.accessStall c true hs = none ∧ s1.writeCheck hs = none
/-- EMIT into a queue that holds one record, and into one that holds none. -/
theorem witness_RecordsEmittedAndDecoded_full : let f := fm .lane 0 0 default (I 0) (V 240)
    ∃ c, Runs (producer 0) (.emit f) f c ∧ c.emitEdge (producer 0) = some (0, 0, edge 0) ∧ (∀ q ∈ (edge 0).pending, q.owner ≠ some c.who) ∧
      ∃ s1 hs, (producer 0).reach c.g.core c.t.ctx (BitVec.ofNat 64 (edge 0).queue) 64 .readWrite = (s1, .ok hs) ∧
        emitReady (producer 0) f 0 c hs s1 ∧
        (edge 0).cap < (s1.beforeRead c.t.ctx c.g.core false hs).headerGet hs 16 + (lanesOf c.act).length := by
  intro f
  obtain ⟨c, h, he, hp⟩ := runs (s := producer 0) (i := .emit f) (f := f) (p := fun c => c.emitEdge (producer 0) = some (0, 0, edge 0) ∧
    okB ((producer 0).reach c.g.core c.t.ctx (BitVec.ofNat 64 (edge 0).queue) 64 .readWrite) (fun s1 hs =>
        decide (emitReady (producer 0) f 0 c hs s1 ∧
        (edge 0).cap < (s1.beforeRead c.t.ctx c.g.core false hs).headerGet hs 16 + (lanesOf c.act).length)) = true) (by decide +kernel)
  exact ⟨c, h, he, by simp [edge], okOf hp⟩
/-- The places of the records that EMIT writes at the positions it reserved. -/
def emitPlaces (c : Ctx) (e : Edge) (resv : Nat) (s : State) : State × List (Nat × Except MemFault (List Spot)) :=
  (lanesOf c.act).foldl (fun (r : State × List (Nat × Except MemFault (List Spot))) x =>
    let y := r.1.reach c.g.core c.t.ctx (BitVec.ofNat 64 (e.base + (resv + (lanesOf c.act).idxOf x) * e.rsize)) e.rsize .write
    (y.1, r.2 ++ [(x, y.2)])) (s, [])
def allOk {ε α β : Type} (l : List (β × Except ε α)) : Bool := l.all fun x => match x.2 with
  | .ok _ => true
  | .error _ => false
theorem allOk_sound {ε α β : Type} {l : List (β × Except ε α)} (h : allOk l = true) : ∃ m : List (β × α), l = m.map fun x => (x.1, .ok x.2) := by
  induction l with
  | nil => exact ⟨[], rfl⟩
  | cons x l ih =>
    obtain ⟨a, y⟩ := x
    simp only [allOk, List.all_cons, Bool.and_eq_true] at h
    obtain ⟨m, rfl⟩ := ih h.2
    cases y with
    | error e => simp at h
    | ok b => exact ⟨(a, b) :: m, rfl⟩
/-- What is reached of each. -/
def oks {ε α β : Type} (l : List (β × Except ε α)) : List (β × α) := l.filterMap fun x => match x.2 with
  | .ok y => some (x.1, y)
  | .error _ => none
theorem oks_map {ε α β : Type} (l : List (β × α)) : oks (l.map fun x => (x.1, (Except.ok x.2 : Except ε α))) = l := by
  simp [oks, List.filterMap_map, Function.comp_def]
theorem witness_RecordsEmittedAndDecoded_room : let f := fm .lane 0 0 default (I 0) (V 240)
    ∃ c, Runs (producer 1) (.emit f) f c ∧ c.emitEdge (producer 1) = some (0, 0, edge 1) ∧ (∀ q ∈ (edge 1).pending, q.owner ≠ some c.who) ∧
      ∃ s1 hs, (producer 1).reach c.g.core c.t.ctx (BitVec.ofNat 64 (edge 1).queue) 64 .readWrite = (s1, .ok hs) ∧
        let s2 := s1.beforeRead c.t.ctx c.g.core false hs
        let resv := s2.headerGet hs 16
        emitReady (producer 1) f 1 c hs s1 ∧ resv + (lanesOf c.act).length ≤ (edge 1).cap ∧
        let rec_ : Reserved := { first := resv, count := (lanesOf c.act).length, written := false, owner := some c.who }
        let s3 := (s2.headerSet c.t.ctx hs 16 (resv + (lanesOf c.act).length)).modEdge 0 0 fun e => { e with pending := e.pending ++ [rec_] }
        ∃ s4 l, emitPlaces c (edge 1) resv s3 = (s4, List.map (fun x => (x.1, .ok x.2)) l) ∧ s4.accessStall c true (places l) = none ∧
          s4.writeCheck (places l) = none ∧ s4.canonical := by
  intro f
  obtain ⟨c, h, he, hp⟩ := runs (s := producer 1) (i := .emit f) (f := f) (p := fun c => c.emitEdge (producer 1) = some (0, 0, edge 1) ∧
    okB ((producer 1).reach c.g.core c.t.ctx (BitVec.ofNat 64 (edge 1).queue) 64 .readWrite) (fun s1 hs =>
        let s2 := s1.beforeRead c.t.ctx c.g.core false hs
        let resv := s2.headerGet hs 16
        let rec_ : Reserved := { first := resv, count := (lanesOf c.act).length, written := false, owner := some c.who }
        let s3 := (s2.headerSet c.t.ctx hs 16 (resv + (lanesOf c.act).length)).modEdge 0 0 fun e => { e with pending := e.pending ++ [rec_] }
        let r := emitPlaces c (edge 1) resv s3
        decide (emitReady (producer 1) f 1 c hs s1 ∧ resv + (lanesOf c.act).length ≤ (edge 1).cap ∧ allOk r.2 = true ∧
          r.1.accessStall c true (places (oks r.2)) = none ∧ r.1.writeCheck (places (oks r.2)) = none ∧ Memory.wf r.1.mem = true)) = true)
    (by decide +kernel)
  obtain ⟨s1, hs, e1, h1, h2, h3, h4, h5, h6⟩ := okOf hp
  obtain ⟨l, e2⟩ := allOk_sound h3
  rw [e2, oks_map] at h4 h5
  exact ⟨c, h, he, by simp [edge], s1, hs, e1, h1, h2, _, l, Prod.ext rfl e2, h4, h5, h6⟩
/-- DECODE of a key, and of a record and its indices, at LANE and GROUP scope. -/
theorem witness_RecordsEmittedAndDecoded_decode : ∀ i ∈ [Instr.decode (fm .lane 0 2 (V 8) (V 64)), .decode (fm .lane 0 0 (V 248) (V 64)),
    .decode (fm .lane 0 1 (V 254) (V 64)), .decode (fm .group 0 0 (V 8) (S 16)), .decode (fm .group 0 1 (V 8) (S 16))],
    ∃ f c, fieldsOf i = some f ∧ Runs (splats 32) i f c := allRun (by decide +kernel)
/-- The record that DECODE reads: of zeros, not aligned, past the shared memory, and with a reserved bit. -/
theorem witness_RecordsEmittedAndDecoded_record : let f := fm .group 0 0 (V 8) (S 16)
    ∃ c, Runs (splats 32) (.decode f) f c ∧ (match c.splat (splats 32) 32 with
      | .ok x => x == 0
      | .error _ => false) = true ∧ (match c.splat (splats 32) 33 with
      | .ok _ => false
      | .error k => k == codeADDRBAD) = true ∧ (match c.splat (splats 32) 65536 with
      | .ok _ => false
      | .error k => k == codeADDRBAD) = true ∧ (match c.splat (splats 32) 64 with
      | .ok _ => false
      | .error k => k == codeDECODE) = true ∧
      ((List.range 32).mapM fun i => sharedKey c.t (onSecond c.t c.g) (65504 + i)).isSome = true := runs (by decide +kernel)

/-! ### Conditions of the statements on machine events -/

/-- Group 0 waits, or does something, in its split 0. -/
def waits (x : Wait) (s : State) : State := onSplit (fun sp => { sp with wait := x }) s
abbrev w0 : Who := { team := 0, group := 0, split := 0 }
/-- The leaf entry of page 0 replaced. -/
def withLeaf (e : Nat) (s : State) : State := setMem 0x5000 (leBytes 8 e) s

/-- A walk that ends at a leaf: the last byte of its page, which it permits; a write that it does not. -/
theorem witness_MemoryAndWaitEvents_walk :
    let walked := fun (s : State) (va e : Nat) => ∃ s1, s.readTables 0 va (frameOf (bits (s.ctxEntry 0) 63 0)) [39, 30, 21, 16] = (s1, none) ∧
      s1.walk 0 va = .leaf 0x5000 e 16 ∧ s1.deviceStall true ((List.range 8).map (0x5000 + ·)) = none ∧ Memory.wf s1.mem = true
    (base.address 0xFFFF = .here 0xFFFF ∧ bit (bits (base.ctxEntry 0) 63 0) 0 = true ∧ walked base 0xFFFF 0x2007F ∧ permits 0x2007F .readWrite = true) ∧
    (withLeaf 0x20007 base).address 0 = .here 0 ∧ bit (bits ((withLeaf 0x20007 base).ctxEntry 0) 63 0) 0 = true ∧
      walked (withLeaf 0x20007 base) 0 0x20007 ∧ permits 0x20007 .write = false ∧ permits 0x20007 .read = true := by
  have key : ∀ (s : State) (va e : Nat), (match s.readTables 0 va (frameOf (bits (s.ctxEntry 0) 63 0)) [39, 30, 21, 16] with
      | (s1, none) => decide (s1.walk 0 va = .leaf 0x5000 e 16 ∧ s1.deviceStall true ((List.range 8).map (0x5000 + ·)) = none ∧ Memory.wf s1.mem = true)
      | _ => false) = true → ∃ s1, s.readTables 0 va (frameOf (bits (s.ctxEntry 0) 63 0)) [39, 30, 21, 16] = (s1, none) ∧
      s1.walk 0 va = .leaf 0x5000 e 16 ∧ s1.deviceStall true ((List.range 8).map (0x5000 + ·)) = none ∧ Memory.wf s1.mem = true := by
    intro s va e h
    split at h
    · rename_i s1 e1
      exact ⟨s1, e1, of_decide_eq_true h⟩
    · simp at h
  exact ⟨⟨by decide +kernel, by decide +kernel, key _ _ _ (by decide +kernel), by decide +kernel⟩, by decide +kernel, by decide +kernel,
    key _ _ _ (by decide +kernel), by decide +kernel, by decide +kernel⟩
/-- The last line of HBM; a machine check on a core with a live context. -/
theorem witness_MemoryAndWaitEvents_fill : (hbmEnd / 128 - 1) * 128 < hbmEnd ∧ base.contextsOn 0 = 0 :: [] := by decide +kernel
/-- An access, a store and a request of shared memory under way. -/
def underWay : State :=
  onGroup (fun g => { g with outstanding := [{ pendingV64 with wb := { v := [(255, 0x7FFFFFFF, Vector.replicate 32 1)], s := none, p := none, uniform := false } }], unacked := 1, counters := put (put g.counters 0 (some { requests := [0x1000, 0x1001], out := pendingV64 })) 7 (some { requests := [0x1002], out := pendingV64 }) }) base
theorem witness_MemoryAndWaitEvents_return : ∃ t g, underWay.team? 0 = some t ∧ t.group? 0 = some g ∧ (∃ x ∈ t.groups, x.ended = false) ∧
    (g.outstanding.find? fun o => o.split == 0).isSome = true ∧ g.unacked = 1 ∧ (nth g.counters 0 none).map (·.requests.length) = some 2 ∧
    (nth g.counters 7 none).map (·.requests.length) = some 1 := by
  have h : ((underWay.team? 0).any fun t => decide (((t.group? 0).any fun g => decide ((∃ x ∈ t.groups, x.ended = false) ∧
    (g.outstanding.find? fun o => o.split == 0).isSome = true ∧ g.unacked = 1 ∧ (nth g.counters 0 none).map (·.requests.length) = some 2 ∧
    (nth g.counters 7 none).map (·.requests.length) = some 1)) = true)) = true := by decide +kernel
  obtain ⟨t, ht, h⟩ := someOf h
  obtain ⟨g, hg, h⟩ := someOf h
  exact ⟨t, g, ht, hg, h⟩
/-- A hold whose deadline is now, and a write that it kept back. -/
theorem witness_MemoryAndWaitEvents_hold : let s : State := { base with time := 32, reservations := [{ reserved with hold := true, deadline := 32 }], heldWrites := [{ granules := [0x800], bytes := [(0x20000, 7), (0x20001, 0)], home := 0, ctx := 0 }] }
    let u : State := { s with reservations := s.reservations ++ [{ reserved with granule := 0x801, hold := true, deadline := 33 }],
                              heldWrites := s.heldWrites ++ [{ granules := [0x800, 0x801], bytes := [(0x2003F, 1), (0x20040, 1)], home := 0, ctx := 0 }] }
    let m : State := { s with mire := [openEntry 0x400], heldWrites := [{ granules := [], bytes := [], home := 0, ctx := 0, merge := some (0x400, true) }] }
    let open_ := fun (s : State) => ({ s with reservations := s.reservations.map fun r => if r.granule = 0x800 then { r with hold := false } else r } : State)
    (Memory.wf s.mem = true ∧ (∀ r ∈ s.reservations, r.granule = 0x800 → r.hold = true → r.deadline ≤ s.time) ∧ s.heldWrites ≠ [] ∧
      ∀ h ∈ s.heldWrites, h.merge = none ∧ ∀ x ∈ h.granules, (open_ s).closedTo x = false) ∧
    (Memory.wf u.mem = true ∧ (∀ r ∈ u.reservations, r.granule = 0x800 → r.hold = true → r.deadline ≤ u.time) ∧
      ∃ h ∈ u.heldWrites, ∃ x ∈ (open_ u).writesOf h, (open_ u).closedTo x = true) ∧
    Memory.wf m.mem = true ∧ m.heldWrites.map (·.merge) = [some ((openEntry 0x400).line, true)] ∧ m.mire = [openEntry 0x400] ∧
      (openEntry 0x400).granules ≠ [] ∧ ∀ x ∈ (openEntry 0x400).granules, (open_ m).closedTo x = false := by decide +kernel
/-- The second piece of a misaligned store of group 0, at bytes that no one holds, or that a reservation or an engine holds. -/
def pieced (s : State) : State :=
  { s with secondPieces := [{ team := 0, group := 0, ctx := 0, writes := [(0x20004, 0, 7), (0x20005, 0, 0)] }] }
theorem witness_MemoryAndWaitEvents_pieces : let held : State := { pieced base with reservations := [{ reserved with team := 1, hold := true, deadline := 32 }] }
    (Memory.wf (pieced base).mem = true ∧ (pieced base).mire = [] ∧ (pieced base).pieceStall 0 0 = none ∧ (pieced base).piecesOf 0 0 ≠ [] ∧
      (pieced (onGroup (fun g => { g with unacked := 1, acking := [[0]] }) base)).pieceStall 0 0 = none) ∧
    ∃ t g, held.team? 0 = some t ∧ t.group? 0 = some g ∧ (∃ x ∈ t.groups, x.ended = false) ∧ held.pieceStall 0 0 ≠ none := by
  intro held
  refine ⟨by decide +kernel, ?_⟩
  have h : ((held.team? 0).any fun t => decide (((t.group? 0).any fun _ => decide ((∃ x ∈ t.groups, x.ended = false) ∧ held.pieceStall 0 0 ≠ none)) = true)) = true := by
    decide +kernel
  obtain ⟨t, ht, h⟩ := someOf h
  obtain ⟨g, hg, h⟩ := someOf h
  exact ⟨t, g, ht, hg, h⟩
/-- MWAIT: a monitor with a cause, a deadline that is now, and neither. -/
theorem witness_MemoryAndWaitEvents_mwait : let f := fm .lane 0 0 (V 0) (S 16)
    ∀ x ∈ [(Instr.monitorWake w0, 4, some 1, (none : Option Nat)), (.mwaitTimeout w0, 2, none, some 64), (.spuriousWake w0, 4, none, none)],
      let s : State := { waits (.mwait f 3 x.2.2.2) base with time := 64, monitors := [monitor 0 x.2.2.1] }
      (x.1, x.2.1) ∈ [(Instr.monitorWake w0, 4), (.mwaitTimeout w0, 2), (.spuriousWake w0, 4)] ∧ f.d = .v 0 .id ∧
      (s.group? 0 0).map (fun g => (g.split? 0).map (·.wait)) = some (some (.mwait f 3 x.2.2.2)) ∧
      (x.1 = .monitorWake w0 → s.monitorFired w0 3 = true) ∧ (x.1 = .mwaitTimeout w0 → x.2.2.2.any (fun k => decide (k ≤ s.time)) = true) := by
  decide +kernel
/-- A split whose count has reached 64, with a sibling ready. -/
theorem witness_MemoryAndWaitEvents_fairness :
    let s := onGroup (fun g => { g with splits := put g.splits 1 (some { (handlerSplit 0 2) with mask := 2 }) }) (onSplit (fun x => { x with mask := 1, fairness := 64 }) base)
    ((s.group? 0 0).bind fun g => g.split? 0).map (·.fairness) = some 64 ∧ siblingReady s.readySplits w0 = true := by decide +kernel
/-- A split in each wait that a return may end; the group is not halted and no pre-emption is pending. -/
theorem witness_MemoryAndWaitEvents_waits : ∀ x ∈ [Wait.waitb 0 1, .waitbar 15 0, .waitbar 0 1, .evwait (.evwait (fm .lane 0 0 (S 8)))],
    ((waits x base).team? 0).any (fun t => !t.preempt && (t.group? 0).any fun g => !g.halted && g.engineFaults.isEmpty &&
      (g.split? 0).any (fun sp => sp.wait == x)) = true := by decide +kernel
/-- A WAITB whose batch has two faulted commands: of a program fault, and of a bad sector that left the die. -/
theorem witness_MemoryAndWaitEvents_faults : ∀ code ∈ [codeADDRBAD, 0x41],
    let e : EngineFault := { batch := 0, order := 1, code := code, pc := 0x18, addr := 0x100, aux := code, scope := 1 }
    let s := onGroup (fun g => { g with openBatch := 1, engineFaults := [e, { e with order := 2 }] }) (waits (.waitb 0 allLanes) base)
    (s.team? 0).any (fun t => !t.preempt && (t.group? 0).any fun g => !g.halted && s.batchDone 0 0 g.openBatch 0 &&
      g.engineFaults.filter (fun e => batchReached g.openBatch 0 e.batch) == [e, { e with order := 2 }] &&
      (g.split? 0).any (fun sp => sp.wait == .waitb 0 allLanes)) = true := by decide +kernel
/-- An ARRIVE that came early: its phase goes on, its group's matrix engine has still to store, the phase is over and its group arrives, or
has arrived in the new one too. -/
theorem witness_MemoryAndWaitEvents_arrive : let x := fun (p : Nat) => Wait.arrive (.arrive (fm .group 0 0 (V 0) (S 16))) 0 p
    let stands := fun (s : State) (p : Nat) (owes both : Bool) => (s.team? 0).any fun t => !t.preempt && (t.group? 0).any fun g => !g.halted &&
      (g.split? 0).any (fun sp => sp.wait == x p) && s.matrixOwes 0 0 == owes && (hasGroup (t.barrier 0).part 0 && hasGroup (t.barrier 0).arrd 0) == both
    (stands (waits (x 0) arrived) 0 false true = true ∧ (arrived.team? 0).any (fun t => (t.barrier 0).phase == 0) = true) ∧
    stands (waits (x 65535) (withMatrix [storeOp] base)) 65535 true false = true ∧
    stands (waits (x 65535) base) 65535 false false = true ∧ stands (waits (x 65535) arrived) 65535 false true = true := by decide +kernel
/-- A rendezvous that is complete, one that a pre-emption forbids, and one whose scopes do not match. -/
theorem witness_MemoryAndWaitEvents_rendezvous : let f := fm .team 0 0
    let s := waits (.rendezvous (.sync f)) base
    (∃ t p, s.team? 0 = some t ∧ t.preempt = false ∧ scopeMismatch t = [] ∧ s.party? 0 0 = some (.sync f, p) ∧ p.idle = false ∧
      ∀ x ∈ p.ctxs, x.broken = false) ∧ (∃ t, (onTeam (fun t => { t with preempt := true }) s).team? 0 = some t ∧ t.preempt = true) ∧
    ∃ t, (onGroup (fun g => { g with splits := put g.splits 1 (some { (handlerSplit 12 2) with mask := 2, wait := .rendezvous (.vote (fm .team 0 0 (P 1) (P 2))) }) }) s).team? 0 = some t ∧ t.preempt = false ∧
      scopeMismatch t ≠ [] := by
  intro f s
  refine ⟨?_, someOf (by decide +kernel), someOf (by decide +kernel)⟩
  have h : ((s.team? 0).any fun t => decide (t.preempt = false ∧ scopeMismatch t = [] ∧ ((s.party? 0 0).any fun x => decide (x.1 = .sync f ∧
    x.2.idle = false ∧ ∀ y ∈ x.2.ctxs, y.broken = false)) = true)) = true := by decide +kernel
  obtain ⟨t, ht, h1, h2, h3⟩ := someOf h
  obtain ⟨⟨i, p⟩, hp, rfl, h4, h5⟩ := someOf h3
  exact ⟨t, p, ht, h1, h2, hp, h4, h5⟩
/-- The lease of core 0 in each of its states. -/
def leased (l : Lease) : State := base.setCore 0 { base.core 0 with lease := l }
theorem witness_MemoryAndWaitEvents_lease : base.team? 0 ≠ none ∧ ∀ l ∈ [({ holder := some 0, left := 1, grace := none, waiting := [] } : Lease),
    { holder := some 0, left := 0, grace := none, waiting := [] }, { holder := some 0, left := 0, grace := none, waiting := [1] },
    { holder := none, left := 0, grace := none, waiting := [] }, { holder := none, left := 0, grace := none, waiting := [0] },
    { holder := some 1, left := 0, grace := some 65536, waiting := [0, 1] }],
    ((leased l).core 0).lease = l ∧ ((leased l).team? 0).isSome = true ∧
      ∀ m ∈ ((leased l).core 0).matrix, some m.team = l.holder → leaseCost m.i = none := by decide +kernel

/-! ### Conditions of the statement on engine events -/

/-- The owner's team has a group that has not ended. -/
abbrev Lives (s : State) (c : Command) : Prop := ∀ team g t, c.owner = some (team, g) → s.team? team = some t → ∃ x ∈ t.groups, x.ended = false
def livesB (s : State) (c : Command) : Bool :=
  match c.owner with
  | some (t, _) => (s.team? t).all fun t => t.groups.any fun x => !x.ended
  | none => true
theorem livesB_sound {s : State} {c : Command} (h : livesB s c = true) : Lives s c := by
  intro team g t ho ht
  simpa [livesB, ho, ht] using h
/-- A command whose owner lives and of which q holds, computed. -/
theorem commandWith {s : State} {id : Nat} {q : Command → Prop} [DecidablePred q]
    (h : ((s.command? id).any fun c => decide (livesB s c = true ∧ q c)) = true) : ∃ c, s.command? id = some c ∧ Lives s c ∧ q c := by
  obtain ⟨c, hc, h1, h2⟩ := someOf h
  exact ⟨c, hc, livesB_sound h1, h2⟩
/-- Commands in the engines, the test program's context as before. -/
def commands (l : List Command) (s : State) : State := { s with commands := l }
/-- A command of engine eng that has started. -/
def begun (eng : Nat) (args : List W64) : Command := { cmd 0 eng 0 args with phase := .started }
/-- A copy of n bytes within page 0. -/
def copy (n : Nat) : Command := { cmd 0 0 0 [0xC000, 0xD000, BitVec.ofNat 64 n] with form := 2 }
/-- A launch record of one team of one group. -/
def launchBytes : List Byte :=
  zeros 12 ++ leBytes 4 1 ++ leBytes 4 1 ++ leBytes 4 1 ++ zeros 12 ++ [1, 0, 0, 0] ++ zeros 56 ++ [1, 0, 0, 1] ++ zeros 412

/-- A command at the head of its queue: its guard unresolved, false, and absent with its engine busy. -/
theorem witness_EngineEvents_start : ∀ x ∈ [(commands [{ copy 4 with guard := some 0 }] base, GuardState.unresolved),
    (commands [{ copy 4 with guard := some 15 }] (onTeam (fun t => { t with guards := put t.guards 15 .isFalse }) base), .isFalse),
    (commands ((List.range 4).map (fun k => { copy 4 with id := k + 1, phase := .started }) ++ [copy 4]) base, .isTrue),
    (commands [{ cmd 0 0 0 [0, 0xD000, 4] with form := 0 }] base, .isTrue), (commands [copy 4] base, .isTrue),
    (commands [copy 4, { copy 4 with id := 1, phase := .started, owned := [(0x20000 + 0xC000) / 128] }] base, .isTrue),
    (commands [cmd 0 5 0 [0xD000, 0]] (setMem 0x2D000 launchBytes base), .isTrue)],
    ∃ c, x.1.command? 0 = some c ∧ Lives x.1 c ∧ (c.phase = .queued ∧ c.saved = false ∧ c.xlate = none ∧ x.1.atHead c = true ∧
      x.1.postWaits c = false ∧ x.1.guardSeen c = x.2) := by
  have h : ([(commands [{ copy 4 with guard := some 0 }] base, GuardState.unresolved),
    (commands [{ copy 4 with guard := some 15 }] (onTeam (fun t => { t with guards := put t.guards 15 .isFalse }) base), .isFalse),
    (commands ((List.range 4).map (fun k => { copy 4 with id := k + 1, phase := .started }) ++ [copy 4]) base, .isTrue),
    (commands [{ cmd 0 0 0 [0, 0xD000, 4] with form := 0 }] base, .isTrue), (commands [copy 4] base, .isTrue),
    (commands [copy 4, { copy 4 with id := 1, phase := .started, owned := [(0x20000 + 0xC000) / 128] }] base, .isTrue),
    (commands [cmd 0 5 0 [0xD000, 0]] (setMem 0x2D000 launchBytes base), .isTrue)].all fun x => (x.1.command? 0).any fun c => decide (livesB x.1 c = true ∧
      (c.phase = .queued ∧ c.saved = false ∧ c.xlate = none ∧ x.1.atHead c = true ∧ x.1.postWaits c = false ∧ x.1.guardSeen c = x.2))) = true := by
    decide +kernel
  exact fun x hx => commandWith (List.all_eq_true.1 h x hx)
/-- Of those that may start: one whose engine is busy, one that its check refuses, one whose line is taken, one that starts, and a
LAUNCHQ with its record. -/
theorem witness_EngineEvents_checks :
    let s := fun (l : List Command) (s : State) => (commands l s).modCommand 0 fun x => { x with guard := none }
    let busy := s ((List.range 4).map (fun k => { copy 4 with id := k + 1, phase := .started }) ++ [copy 4]) base
    let bad := s [{ cmd 0 0 0 [0, 0xD000, 4] with form := 0 }] base
    let taken := s [copy 4, { copy 4 with id := 1, phase := .started, owned := [(0x20000 + 0xC000) / 128] }] base
    let free := s [copy 4] base
    (busy.engineFree (copy 4) && busy.ownerQuiet (copy 4)) = false ∧
    (bad.engineFree (copy 4) = true ∧ bad.ownerQuiet (copy 4) = true ∧ bad.startCheck { cmd 0 0 0 [0, 0xD000, 4] with form := 0 } = some (codeADDRBAD, 0)) ∧
    (taken.engineFree (copy 4) = true ∧ taken.startCheck (copy 4) = none ∧ taken.linesTaken 0 (taken.startLines (copy 4)) = true) ∧
    free.engineFree (copy 4) = true ∧ free.ownerQuiet (copy 4) = true ∧ free.startCheck (copy 4) = none ∧
      free.linesTaken 0 (free.startLines (copy 4)) = false ∧ free.mire = [] := by decide +kernel
theorem witness_EngineEvents_launchq : let c := cmd 0 5 0 [0xD000, 0xFFF0]
    let s1 := (commands [c] (setMem 0x2D000 launchBytes base)).modCommand 0 fun x => { x with guard := none }
    s1.engineFree c = true ∧ s1.ownerQuiet c = true ∧ c.argN 1 % 16 = 0 ∧ ∃ s2 l, s1.launchRead c.ctx (c.arg 0) = (s2, .ok l) ∧ l.isSome = true := by
  and_intros <;> first | decide +kernel | exact okOf (by decide +kernel)
/-- The rest of the first GiB mapped by a leaf of the second level, for a destination of more than 4 MiB. -/
def wide (l : List Command) : State := commands l (setMem 0x3000 (leBytes 8 0x7F) base)
/-- A copy of 4 MiB and a byte. -/
def longCopy : Command := { cmd 0 0 0 [0x800000, 0x1000000, 4194305] with form := 2, phase := .started }
/-- A copy that has a window to go, its line free and taken. -/
theorem witness_EngineEvents_window :
    (let s := wide [longCopy]
     s.command? 0 = some longCopy ∧ longCopy.window + 1 < s.windowsOf longCopy ∧ s.linesTaken 0 (s.nextLines longCopy 1) = false ∧
       s.mergeCheck (s.nextLines longCopy 1) = none) ∧
    (let s := wide [longCopy, { copy 4 with id := 1, phase := .started, owned := [0xC00000 / 128] }]
     s.command? 0 = some longCopy ∧ longCopy.window + 1 < s.windowsOf longCopy ∧ s.linesTaken 0 (s.nextLines longCopy 1) = true) := by
  decide +kernel
/-- Port 0 holds a flit that no acknowledgement has named, of command id. -/
def flitLeft (id : Nat) (s : State) : State :=
  s.setPort 0 { s.port 0 with replay := [{ seq := 1, cmd := some id, chan := 0, nfmt := 0, raw := [1], flit := [] }] }
/-- What a copy's last part leaves, and that p holds of it. -/
def movedB (s : State) (c : Command) (p : Moving → Bool) : Bool :=
  decide (s.command? 0 = some c ∧ c.phase = .started ∧ s.windowsOf c ≤ c.window + 1 ∧ s.linesTaken 0 (s.moveLines c) = false ∧
    s.mergeCheck (s.moveLines c) = none) &&
    p ((s.own 0 (s.moveLines c)).moveRest { c with owned := dedup (c.owned ++ s.moveLines c) } fun _ _ => false)
theorem movedOf {s : State} {c : Command} {p : Moving → Prop} [DecidablePred p] (h : movedB s c (fun m => decide (p m)) = true) :
    s.command? 0 = some c ∧ c.phase = .started ∧ s.windowsOf c ≤ c.window + 1 ∧ s.linesTaken 0 (s.moveLines c) = false ∧
      s.mergeCheck (s.moveLines c) = none ∧
      ∃ m : Moving, (s.own 0 (s.moveLines c)).moveRest { c with owned := dedup (c.owned ++ s.moveLines c) } (fun _ _ => false) = m ∧ p m := by
  simp only [movedB, Bool.and_eq_true, decide_eq_true_eq] at h
  exact ⟨h.1.1, h.1.2.1, h.1.2.2.1, h.1.2.2.2.1, h.1.2.2.2.2, _, rfl, h.2⟩
/-- A copy's last part: it ends, its flits are not all acknowledged, its source is damaged, and its source has no address. -/
theorem witness_EngineEvents_complete :
    let c := { copy 4 with phase := .started }
    let bad := { cmd 0 0 0 [0xC000, 0x1000000000000, 4] with form := 2, phase := .started }
    movedB (commands [c] base) c (fun m => decide (m.stop = none ∧ m.s.flitsOut m.c.id = false ∧ livesB m.s m.c = true)) = true ∧
    movedB (commands [c] (flitLeft 0 base)) c (fun m => decide (m.stop = none ∧ m.s.flitsOut m.c.id = true)) = true ∧
    movedB (commands [c] { base with badCheck := [0x2D000 / 64] }) c (fun m => match m.stop with
      | some (.check _ _) => true
      | _ => false) = true ∧
    movedB (commands [bad] base) bad (fun m => match m.stop with
      | some (.fault _ _) => true
      | _ => false) = true := by decide +kernel
/-- The command that fails was issued between two commands that have failed. -/
theorem witness_EngineEvents_fail : let e : EngineFault := { batch := 0, order := 1, code := codeADDRBAD, pc := 0, addr := 0, aux := codeADDRBAD, scope := 1 }
    let l := [e, { e with order := 3 }]
    { copy 4 with id := 2 }.owner = some (0, 0) ∧ l.Pairwise (fun a b => a.order ≤ b.order) ∧
      ((onGroup (fun g => { g with engineFaults := l }) base).team? 0).any (fun t => (t.group? 0).any fun g => !g.ended && g.engineFaults == l) = true := by
  refine ⟨rfl, by decide, by decide +kernel⟩
/-- A run of four bytes from one global address to another, and to offset 2 of shared memory. -/
theorem witness_EngineEvents_run : ∀ dst ∈ [Wend.glob 0xC000, .shared 2], let c := { copy 4 with phase := .started }
    let s := commands [c] (shared base)
    ∃ s1 d, s.endAt c dst 4 .write = (s1, .ok (.here d)) ∧
    ∃ s2 a, s1.endAt c (.glob 0xD000) 4 .read = (s2, .ok (.here a)) ∧ s2.ownedByOther c.id (keysOf d ++ keysOf a) = false ∧ Quiet s2 ∧
      s2.heldWrites = [] ∧ s2.readCheck a = none ∧ (s2.beforeRead c.ctx (s2.commandCore c) false a).writeCheck d = none ∧
      (∀ p ∈ a, p.window = none) ∧ c.ahead = [] ∧ c.back = [] ∧
      ∀ p ∈ d, (s2.beforeRead c.ctx (s2.commandCore c) false a).badSector (sectorOf p.key) = false := by
  intro dst hd c s
  have h : okB (s.endAt c dst 4 .write) (fun s1 d => match d with
      | .here d => okB (s1.endAt c (.glob 0xD000) 4 .read) (fun s2 a => match a with
        | .here a => decide (s2.ownedByOther c.id (keysOf d ++ keysOf a) = false ∧ Quiet s2 ∧ s2.heldWrites = [] ∧ s2.readCheck a = none ∧
            (s2.beforeRead c.ctx (s2.commandCore c) false a).writeCheck d = none ∧ (∀ p ∈ a, p.window = none) ∧ c.ahead = [] ∧ c.back = [] ∧
            ∀ p ∈ d, (s2.beforeRead c.ctx (s2.commandCore c) false a).badSector (sectorOf p.key) = false)
        | _ => false)
      | _ => false) = true := by
    have all : ([Wend.glob 0xC000, .shared 2].all fun dst => okB (s.endAt c dst 4 .write) (fun s1 d => match d with
      | .here d => okB (s1.endAt c (.glob 0xD000) 4 .read) (fun s2 a => match a with
        | .here a => decide (s2.ownedByOther c.id (keysOf d ++ keysOf a) = false ∧ Quiet s2 ∧ s2.heldWrites = [] ∧ s2.readCheck a = none ∧
            (s2.beforeRead c.ctx (s2.commandCore c) false a).writeCheck d = none ∧ (∀ p ∈ a, p.window = none) ∧ c.ahead = [] ∧ c.back = [] ∧
            ∀ p ∈ d, (s2.beforeRead c.ctx (s2.commandCore c) false a).badSector (sectorOf p.key) = false)
        | _ => false)
      | _ => false)) = true := by decide +kernel
    exact List.all_eq_true.1 all dst hd
  obtain ⟨s1, d, hd, h⟩ := okOf' h
  cases d with
  | here d =>
    obtain ⟨s2, a, ha, h⟩ := okOf' h
    cases a with
    | here a => exact ⟨s1, d, hd, s2, a, ha, of_decide_eq_true h⟩
    | remote => simp at h
    | zero => simp at h
  | remote => simp at h
  | zero => simp at h
/-- A record for a team whose ring has one place, and for one whose ring is full. -/
def ring (n : Nat) : State := onTeam (fun t => { t with ringCount := n, ringHead := 1 }) { shared base with posts := [{ team := 0, eng := 0, status := 0, tag := 0, batch := 0, aux0 := 4, aux1 := 0 }] }
theorem witness_EngineEvents_post : ∀ n ∈ [63, 64], ((ring n).posts.find? fun p => p.team == 0).isSome = true ∧
    ((ring n).team? 0).any (fun t => t.ringCount == n && t.groups.any fun x => !x.ended) = true ∧ Memory.wf (ring n).mem = true := by decide +kernel
/-- A stored block of four bytes in global memory, its mark of the last block and its check word. -/
def block (last : Bool) (check : Nat) : List Byte := leBytes 2 0xD7C3 ++ [0, if last then 1 else 0] ++ leBytes 4 4 ++ leBytes 4 4 ++ leBytes 4 check ++ [1, 2, 3, 4]
def inflating (w : Nat) : Command := begun 2 [0xD000, 256, BitVec.ofNat 64 w, 0]
/-- Blocks with a window of four bytes and of three, the last or not, whose check agrees or does not; a release word past what was written. -/
theorem witness_EngineEvents_block : ∀ x ∈ [(4, false, 691047668, 0), (4, true, 691047668, 0), (4, true, 0, 0), (3, true, 691047668, 0), (3, false, 0, 0), (4, true, 691047668, 1)],
    let c := inflating x.1
    let s := commands [c] (setMem (sramKey 0 0) [x.2.2.2] (setMem 0x2D000 (block x.2.1 x.2.2.1) (shared base)))
    s.command? 0 = some c ∧ ∃ s1 b, s.readBlock c (c.arg 0 + BitVec.ofNat 64 c.pos) = (s1, .ok b) ∧ (b.any fun b => b.2.1.length == 4) = true ∧
      s1.command? 0 = some c ∧ Quiet s1 ∧ s1.sharedOk c (c.argN 1) (c.argN 2) = true ∧ 0 < c.argN 2 := by
  have h : ([(4, false, 691047668, 0), (4, true, 691047668, 0), (4, true, 0, 0), (3, true, 691047668, 0), (3, false, 0, 0), (4, true, 691047668, 1)].all fun x =>
      let c := inflating x.1
      let s := commands [c] (setMem (sramKey 0 0) [x.2.2.2] (setMem 0x2D000 (block x.2.1 x.2.2.1) (shared base)))
      decide (s.command? 0 = some c) && okB (s.readBlock c (c.arg 0 + BitVec.ofNat 64 c.pos)) fun s1 b => decide ((b.any fun b => b.2.1.length == 4) = true ∧
        s1.command? 0 = some c ∧ Quiet s1 ∧ s1.sharedOk c (c.argN 1) (c.argN 2) = true ∧ 0 < c.argN 2)) = true := by decide +kernel
  intro x hx
  have hb := List.all_eq_true.1 h x hx
  simp only [Bool.and_eq_true] at hb
  exact ⟨of_decide_eq_true hb.1, okOf hb.2⟩
/-- A command that was saved after the first two bytes of a block, with room for the rest of it and for one byte. -/
theorem witness_EngineEvents_resumedBlock : ∀ w ∈ [4, 3], let c := { inflating w with skip := 2, written := 2 }
    let s := commands [c] (setMem 0x2D000 (block true 691047668) (shared base))
    s.command? 0 = some c ∧ ∃ s1 b, s.readBlock c (c.arg 0 + BitVec.ofNat 64 c.pos) = (s1, .ok b) ∧ (b.any fun b => b.2.1.length == 4) = true ∧
      s1.command? 0 = some c ∧ Quiet s1 ∧ s1.sharedOk c (c.argN 1) (c.argN 2) = true ∧ 0 < c.argN 2 := by
  have h : ([4, 3].all fun w =>
      let c := { inflating w with skip := 2, written := 2 }
      let s := commands [c] (setMem 0x2D000 (block true 691047668) (shared base))
      decide (s.command? 0 = some c) && okB (s.readBlock c (c.arg 0 + BitVec.ofNat 64 c.pos)) fun s1 b => decide ((b.any fun b => b.2.1.length == 4) = true ∧
        s1.command? 0 = some c ∧ Quiet s1 ∧ s1.sharedOk c (c.argN 1) (c.argN 2) = true ∧ 0 < c.argN 2)) = true := by decide +kernel
  intro w hw
  have hb := List.all_eq_true.1 h w hw
  simp only [Bool.and_eq_true] at hb
  exact ⟨of_decide_eq_true hb.1, okOf hb.2⟩
/-- The release word before, at and past what its window holds. -/
theorem witness_EngineEvents_poll : ∀ n ∈ [3, 4, 5], let c := { inflating 4 with polling := true, written := n }
    let s := commands [c] (shared base)
    s.command? 0 = some c ∧ s.dxRoom c = n ∧ livesB s c = true := by decide +kernel
/-- A sort of two entries in page 0, at its counting pass and at its end. -/
def sorting (last : Bool) (step : Nat) (passes : Nat) : Command :=
  { begun 3 [0xC000, 0xC100, 0xC200, 2, 0, 0x100000038] with last := last, step := step, passes := passes }
def sortInput : State := setMem 0x2C000 (leBytes 8 0x0201) (setMem 0x2C008 (leBytes 8 0x0102) base)
theorem witness_EngineEvents_sort : ∀ c ∈ [sorting false 0 0, sorting true 0 0, sorting true 8 0, sorting true 8 1],
    let s := commands [c] sortInput
    let s0 := s.own 0 (s.sortLines c)
    s.command? 0 = some c ∧ c.sortWindows ≤ c.window + 1 ∧ c.count ≠ 0 ∧ c.argN 4 = 0 ∧ s.linesTaken 0 (s.sortLines c) = false ∧
      s.mergeCheck (s.sortLines c) = none ∧ ∃ s1 l, s0.sortRead c (c.last && c.passes % 2 == 1) = (s1, .ok l) ∧
      s1.command? 0 = some { c with owned := dedup (c.owned ++ s.sortLines c) } ∧ livesB s1 c = true ∧ c.badKey l = none ∧
      (s1.sortWrite c (c.last && c.passes % 2 != 1) l).2 = none := by
  have h : ([sorting false 0 0, sorting true 0 0, sorting true 8 0, sorting true 8 1].all fun c =>
      let s := commands [c] sortInput
      decide (s.command? 0 = some c ∧ c.sortWindows ≤ c.window + 1 ∧ c.count ≠ 0 ∧ c.argN 4 = 0 ∧ s.linesTaken 0 (s.sortLines c) = false ∧
        s.mergeCheck (s.sortLines c) = none) && okB ((s.own 0 (s.sortLines c)).sortRead c (c.last && c.passes % 2 == 1)) fun s1 l =>
        decide (s1.command? 0 = some { c with owned := dedup (c.owned ++ s.sortLines c) } ∧ livesB s1 c = true ∧ c.badKey l = none ∧
          (s1.sortWrite c (c.last && c.passes % 2 != 1) l).2 = none)) = true := by
    decide +kernel
  intro x hx
  have hb := List.all_eq_true.1 h x hx
  simp only [Bool.and_eq_true, decide_eq_true_eq] at hb
  exact ⟨hb.1.1, hb.1.2.1, hb.1.2.2.1, hb.1.2.2.2.1, hb.1.2.2.2.2.1, hb.1.2.2.2.2.2, okOf hb.2⟩
/-- A sort that has had its passes and writes its range table of one word. -/
theorem witness_EngineEvents_sortTable : let c := { sorting true 8 0 with args := [0xC000, 0xC100, 0xC200, 2, 0xC300, 0x100000038] }
    let s := commands [c] (setMem 0x2C000 (leBytes 8 0) (setMem 0x2C008 (leBytes 8 0) base))
    s.linesTaken 0 (s.sortLines c) = false ∧ s.mergeCheck (s.sortLines c) = none ∧
    ∃ s1 l, (s.own 0 (s.sortLines c)).sortRead c false = (s1, .ok l) ∧
      ((List.range 8).find? fun d => decide (c.step ≤ d) && decide (d ≤ c.dhi) && !oneBin d (l.map Prod.fst)) = none ∧
      s1.command? 0 = some { c with owned := dedup (c.owned ++ s.sortLines c) } ∧
      okB (s1.readAt c c.keysAt (8 * c.count)) (fun s2 kb => let r := s2.writeAt c c.tableAt (c.rangeTable (wordsIn8 c.count kb))
        decide (r.2 = none ∧ livesB r.1 c = true)) = true :=
  ⟨by decide +kernel, by decide +kernel, okOf (by decide +kernel)⟩
/-- Digit 0 of the two keys differs, and no other does but digit 1; a key out of the table is found. -/
theorem witness_EngineEvents_digits : oneBin 0 [0x0201, 0x0102] = false ∧ oneBin 1 [0x0201, 0x0102] = false ∧ oneBin 2 [0x0201, 0x0102] = true ∧
    ({ sorting false 0 0 with args := [0xC000, 0xC100, 0xC200, 2, 0xC300, 0x100000038] } : Command).badKey [(0, 0), (0x100000000, 1)] = some 1 := by decide +kernel
/-- A collective of two members whose peer has no part, one that disagrees, and one that agrees; a composition. -/
def reducing (form : Nat) : Command := { begun 4 [0xC000, 0xC100, 1, if form = 3 then 0x100000000 else 0] with form := form }
def twoMembers (c : Command) : State := commands [c] { base with collGroups := put base.collGroups 0 (BitVec.ofNat 128 3) }
def part (form n : Nat) : PeerPart := { refused := false, form := form, ty := 0, op := 0, ef := false, n := n, dstr := if form = 3 then 1 else 0, bytes := leBytes 4 0, tiles := [] }
theorem witness_EngineEvents_collective : ∀ x ∈ [(0, [], false, false), (0, [(1, part 0 2)], true, false), (0, [(1, part 0 1)], true, true), (3, [(1, part 3 1)], true, true)],
    let c := reducing x.1
    let s := twoMembers c
    let g := s.collGroup c.collGrp
    s.command? 0 = some c ∧ s.firstOfGroup c = true ∧ windowCount (s.collRegions c) ≤ c.window + 1 ∧ c.collOk g = true ∧ c.last = false ∧
      s.linesTaken 0 (s.collLines c) = false ∧ s.mergeCheck (s.collLines c) = none ∧ allPeers g x.2.1 = x.2.2.1 ∧ (x.2.1.filter fun p => p.1 != g.rank && p.1 < g.members).all (fun p => c.agrees p.2) = (x.2.2.2 || !x.2.2.1) := by decide +kernel
theorem witness_EngineEvents_reduce : let c := reducing 0
    let s := twoMembers c
    let g := s.collGroup 0
    ∃ s1 bs, (s.own 0 (s.collLines c)).readAt c (c.arg 0) (c.argN 2 * collBytes c.collType) = (s1, .ok bs) ∧
      let out := collResult c g (byRank g (elements c.collType bs) c.collType [(1, part 0 1)])
      okB (s1.addressed c g ([] ++ (childrenOf g.members g.rank).map fun r => (r, flitFormat c.collType, out)))
        (fun s2 _ => decide ((s2.writeAt c (c.arg 1) out).2 = none)) = true := okOf (by decide +kernel)
/-- A collective that has done its work: all its ports lost, nothing left to send, flits left, messages left where a port is full. -/
theorem witness_EngineEvents_send :
    let c := fun (o : List Outgoing) => { reducing 0 with last := true, outbox := o }
    let m : Outgoing := { pkg := 1, nfmt := 1, bytes := [1, 2, 3, 4] }
    let lost : State := { base with ports := Vector.replicate 16 { Port.fresh with lost := true } }
    let busy : State := { base with ports := Vector.replicate 16 { Port.fresh with retraining := true } }
    ((twoMembers (c [m])).command? 0 = some (c [m])) ∧ ((commands [c [m]] lost).sendOut 0 [m]).2 = none ∧
    (let r := (twoMembers (c [])).sendOut 0 []
     r.2 = some [] ∧ r.1.flitsOut 0 = false ∧ livesB r.1 (c []) = true) ∧
    (let r := (twoMembers (c [m])).sendOut 0 [m]
     r.2 = some [] ∧ r.1.flitsOut 0 = true) ∧
    ((commands [c [m]] busy).sendOut 0 [m]).2 = some [m] := by
  have h : ∀ k, (Config.route 1 + k) % 16 = (Config.route 1 % 16 + k) % 16 := by omega
  simp only [State.sendOut, State.routePort, h]
  have hr : Config.route 1 % 16 ∈ List.range 16 := List.mem_range.2 (Nat.mod_lt _ (by decide))
  revert hr
  generalize Config.route 1 % 16 = r
  revert r
  decide +kernel
/-- A LAUNCHQ whose teams have all ended, and one whose have not. -/
theorem witness_EngineEvents_launchqEnd : ∀ n ∈ [0, 1],
    let s : State := { commands [begun 5 [0xD000, 0]] base with grids := [{ id := 1, seq := 0, origin := .launchq 0, ctx := 0, launch := slotLaunch, next := 1, total := 1, handed := [], ended := n, faults := 0 }] }
    s.command? 0 = some (begun 5 [0xD000, 0]) ∧ (s.grids.find? fun g => g.origin == .launchq 0).map (fun g => decide (g.ended = g.total)) = some (n == 1) ∧
      livesB s (begun 5 [0xD000, 0]) = true := by decide +kernel

/-! ### Conditions of the statement on the scheduler -/

/-- The entry of a queue of 16 records at 0xE000 with its doorbell word at 0xF000. -/
def entryBytes (prio rd : Nat) : List Byte := leBytes 64 (4 + 2 ^ 8 + prio * 2 ^ 9 + 0xE000 * 2 ^ 336 + 0xF000 * 2 ^ 392 + rd * 2 ^ 448)
/-- The queue table at 0x8000 with queue 0, whose doorbell word is wr. -/
def withQueue (prio rd wr : Nat) (s : State) : State :=
  setMem 0x2F000 (leBytes 8 wr) (setMem 0x8000 (entryBytes prio rd) { s with sys := { s.sys with qtab := 0x8000 } })
/-- Queue 0 has rung. -/
def rung (rd wr : Nat) : State := { withQueue 1 rd wr base with bells := [0] }
/-- A doorbell at the ring's size, past it, and behind what was read. -/
theorem witness_SchedulerEvents_doorbell : ∀ x ∈ [(0, 16), (0, 17), (1, 0)], 0 ∈ (rung x.1 x.2).bells ∧ ((rung x.1 x.2).queue 0).xlate = none ∧
    (rung x.1 x.2).tablesBusy 0 (rung x.1 x.2).nextSeq = false ∧ entryRDPTR ((rung x.1 x.2).queueEntry 0) = x.1 ∧ ∃ s1 bs, (rung x.1 x.2).deviceLoad 0 0xF000 8 = (s1, .ok bs) ∧ leNat bs = x.2 := by
  have h : ([(0, 16), (0, 17), (1, 0)].all fun x => decide (0 ∈ (rung x.1 x.2).bells ∧ ((rung x.1 x.2).queue 0).xlate = none ∧
    (rung x.1 x.2).tablesBusy 0 (rung x.1 x.2).nextSeq = false ∧ entryRDPTR ((rung x.1 x.2).queueEntry 0) = x.1) && okB ((rung x.1 x.2).deviceLoad 0 0xF000 8) fun _ bs => decide (leNat bs = x.2)) = true := by decide +kernel
  intro x hx
  have hb := List.all_eq_true.1 h x hx
  simp only [Bool.and_eq_true, decide_eq_true_eq] at hb
  exact ⟨hb.1.1, hb.1.2.1, hb.1.2.2.1, hb.1.2.2.2, okOf hb.2⟩
/-- A slot of a queue. -/
def slotOf (q : Nat) : Slot := { queue := q, since := 0, displacing := false, refused := none }
/-- An idle slot; a waiting queue and a free slot; 64 slots that a queue of lower priority holds, now at the end of its slice. -/
theorem witness_SchedulerEvents_slots :
    (let s : State := { base with slots := put base.slots 63 (some (slotOf 5)) }
     (s.slotList.find? fun x => !x.2.displacing && !s.runnable x.2.queue) = some (63, slotOf 5)) ∧
    (let s : State := { withQueue 1 0 1 base with queues := [(0, { Queue.fresh with wrptr := 1 })] }
     (s.slotList.find? fun x => !x.2.displacing && !s.runnable x.2.queue) = none ∧ s.waitingQueues = 0 :: [] ∧
       ((List.range 64).find? fun k => (nth s.slots k none).isNone) = some 0) ∧
    (let s : State := { withQueue 1 0 1 base with queues := [(0, { Queue.fresh with wrptr := 1 })], slots := Vector.replicate 64 (some (slotOf 1)), jobs := [{ job 0 1 with queue := 1 }], time := 100000 }
     (s.slotList.find? fun x => !x.2.displacing && !s.runnable x.2.queue) = none ∧ ((List.range 64).find? fun k => (nth s.slots k none).isNone) = none ∧
       s.nextWaiting = some 0 ∧ s.lowestHolder = some (0, slotOf 1) ∧ entryPRIO (s.queueEntry 1) < entryPRIO (s.queueEntry 0) ∧
       s.mayDisplace (slotOf 1) = true ∧ s.slotList.length = 64 ∧ (slotOf 1).since + entrySLICE (s.queueEntry 1) * 1000 = s.time) := by decide +kernel
/-- Queue 0 in slot 0 with the jobs of a list. -/
def held (l : List Job) (s : State) : State :=
  { withQueue 1 0 1 s with queues := [(0, { Queue.fresh with wrptr := 1 })], slots := put s.slots 0 (some (slotOf 0)), jobs := l, nextSeq := 1 }
/-- A command that may be taken. -/
theorem witness_SchedulerEvents_take : ((held [] base).queue 0).xlate = none ∧ ((held [] base).queue 0).owes = 0 ∧ (held [] base).mayTake 0 = true ∧
    (held [] base).tablesBusy 0 (held [] base).nextSeq = false ∧
    ∃ s1 bs, (held [] base).deviceLoad 0 0xE000 64 = (s1, .ok bs) ∧ bs.length = 64 := by
  and_intros <;> first | decide +kernel | exact okOf (by decide +kernel)
/-- A LAUNCH with a record, with one that is refused, with one whose check value is not that of its bytes, and with an address out
of range. -/
theorem witness_SchedulerEvents_launch : let j := fun (a : W64) => { job 0 1 with arg := a }
    let s := fun (a : W64) => held [j a] (setMem 0x2D000 launchBytes base)
    ((s 0xD000).starting 1 0 = some (j 0xD000) ∧ (∀ g ∈ (s 0xD000).grids, g.origin ≠ .command 0) ∧
      ∃ s1 l, (s 0xD000).launchRead 0 0xD000 = (s1, .ok l) ∧ l.isSome = true) ∧
    ((s 0xC000).starting 1 0 = some (j 0xC000) ∧ ∃ s1 l, (s 0xC000).launchRead 0 0xC000 = (s1, .ok l) ∧ l = none) ∧
    (∃ s1 x, ({ s 0xD000 with badCheck := [0x2D000 / 64] } : State).launchRead 0 0xD000 = (s1, .error x) ∧ x = .check 0x41 0x2D000) ∧
    (s 0x1000000000000).starting 1 0 = some (j 0x1000000000000) ∧
      ∃ s1 x, (s 0x1000000000000).launchRead 0 0x1000000000000 = (s1, .error x) ∧ x = .prog codeADDRBAD 0 :=
  ⟨⟨by decide +kernel, by decide +kernel, okOf (by decide +kernel)⟩, ⟨by decide +kernel, okOf (by decide +kernel)⟩, errOf (by decide +kernel), by decide +kernel,
    errOf (by decide +kernel)⟩
/-- What controlBlock answers, computed. -/
def blockB (r : Except State (State × List W64)) (p : State → List W64 → Bool) : Bool :=
  match r with
  | .ok (s, ws) => p s ws
  | .error _ => false
theorem blockOf {r : Except State (State × List W64)} {p : State → List W64 → Prop} [∀ s ws, Decidable (p s ws)]
    (h : blockB r (fun s ws => decide (p s ws)) = true) : ∃ s ws, r = .ok (s, ws) ∧ p s ws := by
  unfold blockB at h
  split at h
  · exact ⟨_, _, rfl, of_decide_eq_true h⟩
  · simp at h
/-- A command kind, the words of its control block, the fourth of them, and the commands under way. -/
def engineJobs : List (Nat × Nat × Nat × List Command) :=
  [(3, 4, 1, []), (3, 4, 0, (List.range 64).map fun k => { cmd k 0 0 [] with place := 1 }), (3, 4, 0, []), (4, 6, 2 ^ 32, []), (4, 6, 2 ^ 32 - 1, []),
    (4, 6, 0, (List.range 32).map fun k => cmd k 3 0 []), (5, 6, 1, []), (5, 6, 0x20, []), (5, 6, 0, (List.range 32).map fun k => cmd k 4 0 [])]
/-- COPY, SORT and COLL commands: one with a reserved word set, one whose queue is full, and one that is handed on. -/
theorem witness_SchedulerEvents_engine : ∀ x ∈ engineJobs,
    let j := { job 0 x.1 with arg := 0xD000 }
    let s := { held [j] (setMem 0x2D018 (leBytes 8 x.2.2.1) base) with commands := x.2.2.2 }
    s.starting x.1 0 = some j ∧ ∃ s1 ws, s.controlBlock j x.2.1 = .ok (s1, ws) ∧ s1.job? 0 = some j ∧ (ws.getD 3 0).toNat = x.2.2.1 := by
  have h : (engineJobs.all fun x =>
      let j : Job := { job 0 x.1 with arg := 0xD000 }
      let s : State := { held [j] (setMem 0x2D018 (leBytes 8 x.2.2.1) base) with commands := x.2.2.2 }
      decide (s.starting x.1 0 = some j) && blockB (s.controlBlock j x.2.1) fun s1 ws => decide (s1.job? 0 = some j ∧ (ws.getD 3 0).toNat = x.2.2.1)) = true := by decide +kernel
  intro x hx
  have hb := List.all_eq_true.1 h x hx
  simp only [Bool.and_eq_true, decide_eq_true_eq] at hb
  exact ⟨hb.1, blockOf hb.2⟩
/-- WAITEV whose bit is set and clear; SIGNAL with an earlier command of its queue and with none; FENCE. -/
theorem witness_SchedulerEvents_events :
    (∀ n ∈ [0, 128], let j := { job 0 6 with arg := 7 }
      let s := held [j] (setMem 0x1018 (leBytes 8 0xA000) (setMem 0x2A000 [BitVec.ofNat 8 n] base))
      s.starting 6 0 = some j ∧ s.job? 0 = some j ∧ okB (s.deviceLoad 0 (BitVec.ofNat 64 (bits (s.ctxEntry 0) 255 192)) 1) (fun s1 bs => s1.job? 0 == some j && leNat bs == n) = true) ∧
    (∀ l ∈ [[job 0 7], [job 0 7, job 1 7]], (held l base).starting 7 0 = some (job 0 7) ∧ ∀ x ∈ (held l base).jobs, x.queue = 0 → 0 ≤ x.seq) ∧
    (held [job 1 8, job 0 1] base).starting 8 1 = some (job 1 8) ∧ ¬ ∀ x ∈ (held [job 1 8, job 0 1] base).jobs, x.queue = 0 → 1 ≤ x.seq := by decide +kernel
/-- A command at work, one whose work is done, and one whose completion is to be written. -/
theorem witness_SchedulerEvents_complete :
    (let j := { job 0 1 with started := true }
     let s := held [j] base
     s.job? 0 = some j ∧ (s.queue 0).xlate = none ∧ (s.queue 0).owes = 0 ∧ s.tableBusy (s.journalKey 0) 64 = false ∧ s.workDone j = false) ∧
    (let j := { job 0 1 with started := true }
     let s : State := { held [j] base with grids := [{ id := 1, seq := 0, origin := .command 0, ctx := 0, launch := slotLaunch, next := 1, total := 1, handed := [], ended := 1, faults := 0 }] }
     s.job? 0 = some j ∧ s.tableBusy (s.journalKey 0) 64 = false ∧ s.workDone j = true) ∧
    (let j := { job 0 1 with started := true, ended := true }
     (held [j] base).job? 0 = some j ∧ (held [j] base).queue j.queue = { Queue.fresh with wrptr := 1 } ∧
       (held [j] base).tableBusy ((held [j] base).journalKey 0) 64 = false ∧ Quiet (held [j] base)) := by decide +kernel
/-- A grid whose next team has a seat, and one that has handed out its last. -/
def grid (next : Nat) : Grid := { id := 1, seq := 0, origin := .command 0, ctx := 0, launch := { slotLaunch with tiles := 0 }, next := next, total := 1, handed := [], ended := 0, faults := 0 }
theorem witness_SchedulerEvents_place :
    (let s : State := { held [job 0 1] State.reset with grids := [grid 0] }
     s.placePick = some 1 ∧ (s.seatFor (grid 0)).isSome = true) ∧
    ({ held [job 0 1] State.reset with grids := [grid 1] } : State).placePick ≠ some 1 := by decide +kernel
/-- A team in its prologue, before place k, its last binding that of a number. -/
def inPrologue (k b : Nat) (s : State) : State :=
  onTeam (fun t => { t with prologue := some k, launch := { t.launch with binds := put (Vector.replicate 8 0) 7 (BitVec.ofNat 256 b) |>.toList } }) (shared s)
/-- A conversion of 16 elements of 8 bits at an address to shared offset 0. -/
def converting (a : Nat) : Nat := a + 16 * 2 ^ 160 + 3 * 2 ^ 224 + 6 * 2 ^ 232 + 6 * 2 ^ 240
/-- How a binding ends, as a number. -/
def bindingEnds (r : State × Nat × Option Stop) : Nat :=
  match r.2.2 with
  | none => 0
  | some .wait => 1
  | some (.check _ _) => 2
  | some (.fault _ _) => 3
  | _ => 4
/-- Before an absent binding, the first and the last; before the records; and before a binding that moves, whose line an engine owns,
whose source is damaged, and whose source has no address. -/
theorem witness_SchedulerEvents_prologue :
    (∀ k ∈ [0, 7, 8], let s := inPrologue k 0 base
      (s.team? 0).any (fun t => t.prologue == some k && t.xlate.isNone && ((s.teams.find? fun y => y.core == t.core && y.prologue.isSome).map (·.id) == some 0) &&
        bindKind (t.launch.binds.getD k 0).toNat == 0 && (s.placeRecords t).2.isNone) = true) ∧
    ∀ x ∈ [(converting 0xD000, base, 0), (converting 0xD000, commands [{ copy 4 with phase := .started, owned := [0x2D000 / 128] }] base, 1),
        (converting 0xD000, { base with badCheck := [0x2D000 / 64] }, 2), (converting (2 ^ 48), base, 3)],
      let s := inPrologue 7 x.1 x.2.1
      (s.team? 0).any (fun t => t.prologue == some 7 && t.xlate.isNone && ((s.teams.find? fun y => y.core == t.core && y.prologue.isSome).map (·.id) == some 0) &&
        bindKind (t.launch.binds.getD 7 0).toNat == 3 && bindingEnds (s.runBinding t (t.launch.binds.getD 7 0).toNat) == x.2.2) = true := by decide +kernel
/-- A team with no event waiting and room in its ring for the one of its prologue. -/
theorem witness_SchedulerEvents_failTeam : Memory.wf base.mem = true ∧ base.posts.find? (fun x => x.team == 0) = none ∧
    (base.team? 0).any (fun t => decide (t.ringCount < 64) && t.id == 0) = true := by decide +kernel
/-- A team without groups, tiles and shared memory, which is pre-empted, and a pool for it or none. -/
def preempted (units : Nat) : State :=
  onTeam (fun t => { t with preempt := true, groups := [], tiles := [], launch := { t.launch with tiles := 0 } }) { base with sys := { base.sys with savebase := 16, savesize := BitVec.ofNat 64 units } }
theorem length_leBytes (n x : Nat) : (leBytes n x).length = n := by
  induction n generalizing x with
  | zero => rfl
  | succ n ih => simp [leBytes, ih]
theorem area_length (s : State) (t : Team) (hg : t.groups = []) (h1 : t.tiles = []) (h2 : t.tiles2 = []) (h3 : t.steps = []) (h4 : t.steps2 = [])
    (h5 : t.ringCount = 0) : (s.areaBytes t []).length = 3072 := by
  have hb : ∀ l : List Barrier, (l.flatMap Barrier.bytes).length = 32 * l.length := by
    intro l
    induction l with
    | nil => rfl
    | cons b l ih => simp [Barrier.bytes, length_leBytes, zeros, ih]; omega
  have hz : ∀ n, (zeros n).length = n := fun n => by simp [zeros]
  unfold State.areaBytes
  simp only [State.tileSection, State.sharedSection, hg, h1, h2, h3, h4, h5, List.flatMap_nil, List.append_nil, List.range_zero,
    List.length_append, List.length_nil, length_leBytes, hz, hb, Vector.length_toList]
theorem save_room {s : State} {id : Nat} {t : Team} (ht : s.team? id = some t) (hr : (runOf s.freeUnits (s.teamUnits t)).isSome = true)
    (hc : s.commands = []) (hp : s.posts = []) (hg : t.groups = []) (h1 : t.tiles = []) (h2 : t.tiles2 = []) (h3 : t.steps = [])
    (h4 : t.steps2 = []) (h5 : t.ringCount = 0) (hk : (runOf s.freeUnits 1).isSome = true) : ∃ s1, s.saveTeam id = some s1 := by
  have hn : (runOf s.freeUnits (s.teamUnits t)).isNone = false := by
    cases hx : runOf s.freeUnits (s.teamUnits t) <;> simp_all
  obtain ⟨k, hk⟩ := Option.isSome_iff_exists.1 hk
  have hl : areaUnits (s.areaBytes t []).length = 1 := by rw [area_length s t hg h1 h2 h3 h4 h5]; decide
  simp [State.saveTeam, State.flushPosts, ht, hn, hc, hp, hl, hk]
theorem witness_SchedulerEvents_saved : ∃ s1, ((preempted 1).settleTeam 0).saveTeam 0 = some s1 := by
  have h : ((((preempted 1).settleTeam 0).team? 0).any fun t => decide ((runOf ((preempted 1).settleTeam 0).freeUnits (((preempted 1).settleTeam 0).teamUnits t)).isSome = true ∧
    t.groups = [] ∧ t.tiles = [] ∧ t.tiles2 = [] ∧ t.steps = [] ∧ t.steps2 = [] ∧ t.ringCount = 0)) = true := by decide +kernel
  obtain ⟨t, ht, hr, hg, h1, h2, h3, h4, h5⟩ := someOf h
  have hp : ((preempted 1).settleTeam 0).posts = [] := by decide +kernel
  exact save_room ht hr (by decide +kernel) hp hg h1 h2 h3 h4 h5 (by decide +kernel)
theorem witness_SchedulerEvents_save :
    (∀ units ∈ [0, 1], ((preempted units).team? 0).any (fun t => t.preempt && (preempted units).canSave t) = true) ∧
    (base.team? 0).any (fun t => !t.preempt) = true ∧
    (let s := onTeam (fun t => { t with preempt := true, prologue := some 0 }) base
     (s.team? 0).any (fun t => t.preempt && !s.canSave t) = true) ∧ (((preempted 0).settleTeam 0).saveTeam 0).isNone = true := by
  and_intros <;> first | decide +kernel
/-- A saved team of one group without tiles, and the bytes of its area that are not zero, at offset 0. -/
def savedTeam : SavedTeam := { id := 0, area := 0x100000, units := 1, seq := 0, ctx := 0, team := { slotTeam (slotGroup 0) with tiles := [], launch := { slotLaunch with tiles := 0 } } }
def areaCells : List (Nat × List Nat) :=
  [(0, [0x80, 0x1A]), (4, [1]), (40, [0x80, 0x1A]), (48, [0x80, 0x1A]), (57, [0x0C])] ++ (List.range 16).map (fun k => (256 + 32 * k, [1])) ++
    [(3080, List.replicate 7 0xFF), (3088, List.replicate 4 0xFF ++ [3, 3]), (3096, [1]), (3102, [1]), (5666, [0x80, 0x47]), (6136, [0x80, 0x0E]), (6144, List.replicate 64 0xFF)]
def resuming (cells : List (Nat × List Nat)) : State :=
  { State.reset with
    mem := cells.flatMap fun x => ((List.range x.2.length).zip x.2).map fun y => (0x100000 + x.1 + y.1, BitVec.ofNat 8 y.2)
    saved := [savedTeam] }
/-- Every tile is retired. -/
def noSeat (s : State) : State := { s with tiles := (List.range 512).map fun n => (n, { TileHealth.fresh with status := .retired }) }
/-- Areas of a size that is not that of its units, of zeros, and as R366 lays it out, with a seat for the team and with none. -/
theorem witness_SchedulerEvents_resumeLost :
    ((resuming []).saved.find? (fun x => x.area == 0x100000) = some savedTeam ∧ (resuming []).jobRuns 0 = true ∧ (resuming []).areaRead savedTeam = none) ∧
    ((resuming [(1, [0x0C])]).areaRead savedTeam).any (fun bs => (savedTeam.team.readArea bs).isNone) = true := by decide +kernel
/-- The area is read, and the team has a seat or not. -/
def resumes (s : State) (full : Bool) : Bool :=
  (s.areaRead savedTeam).any fun bs => (savedTeam.team.readArea bs).any fun r =>
    okB (s.fillStacks r.team) fun s1 t => s1.teams == s.teams && (s.seat savedTeam.team.holding fun g => (t.group? g).any (·.ended)).isNone == full
theorem witness_SchedulerEvents_resumeSeat : resumes (resuming areaCells) false = true := by decide +kernel
theorem witness_SchedulerEvents_resumeFull : resumes (noSeat (resuming areaCells)) true = true := by decide +kernel
/-- The same area with one saved command before its groups: a gather of batch 3 of group 0, its guard none. -/
def areaCells' : List (Nat × List Nat) :=
  [(1, [0x1B]), (4, [1]), (26, [1]), (41, [0x1B]), (49, [0x1B]), (56, [0x80, 0x0C])] ++ (areaCells.filter fun x => 256 ≤ x.1 ∧ x.1 < 3072) ++
    [(3074, [3]), (3087, [0xFF])] ++ (areaCells.filter fun x => 3072 ≤ x.1).map fun x => (x.1 + 128, x.2)
theorem witness_SchedulerEvents_resumeCommand : resumes (resuming areaCells') false = true ∧
    (((resuming areaCells').areaRead savedTeam).bind savedTeam.team.readArea).map (·.commands.map (·.batch)) = some [3] := by decide +kernel

/-! ### Conditions of the statement on graphs -/

/-- A running graph of some nodes and edges in context 0. -/
def graph (nodes : List Node) (edges : List Edge) : Graph := { seq := 0, ctx := 0, nodes := nodes, edges := edges }
def running (nodes : List Node) (edges : List Edge) : State := { base with graphs := [graph nodes edges] }
/-- A node whose work is done. -/
def finishedNode (kind : Nat) : Node := { node kind with started := true, finished := true }
/-- An edge from node 0 to node 1 of records of some bytes. -/
def edgeOf (rsize committed : Nat) (pending : List Reserved) : Edge := { edge 4 with rsize := rsize, committed := committed, pending := pending }
/-- A node record of a program at 0xC000, its launch record, and a descriptor of one node; and one of no node. -/
def descriptor (n : Nat) : State :=
  held [{ job 0 2 with arg := 0xD000 }] (setMem 0x2C000 launchBytes (setMem 0x2D000 ([BitVec.ofNat 8 n] ++ zeros 15 ++ zeros 8 ++ leBytes 8 0xC000 ++ zeros 16) base))
theorem witness_GraphEvents_start :
    ((descriptor 1).starting 2 0 = some { job 0 2 with arg := 0xD000 } ∧ (descriptor 1).graph? 0 = none ∧
      ∃ s1 g, (descriptor 1).readGraph { job 0 2 with arg := 0xD000 } = (s1, .ok g) ∧ g.edges = [] ∧ g.nodes.all (fun n => n.kind != 1) = true) ∧
    (descriptor 0).starting 2 0 = some { job 0 2 with arg := 0xD000 } ∧ (descriptor 0).graph? 0 = none ∧
      ∃ s1 x, (descriptor 0).readGraph { job 0 2 with arg := 0xD000 } = (s1, .error x) ∧ x = .refuse 3 :=
  ⟨⟨by decide +kernel, by decide +kernel, okOf (by decide +kernel)⟩, by decide +kernel, by decide +kernel, errOf (by decide +kernel)⟩
/-- An edge whose oldest reservation is written, and one whose is not. -/
theorem witness_GraphEvents_commit : ∀ b ∈ [true, false], let s := running [node 0, node 0] [edgeOf 64 0 [{ first := 0, count := 2, written := b, owner := none }]]
    s.graph? 0 = some (graph [node 0, node 0] [edgeOf 64 0 [{ first := 0, count := 2, written := b, owner := none }]]) ∧ s.awaits 0 (0xC000 + 24) = false ∧
      (s.writeAt (nodeCommand 0 0 0 0 []) 0xC018 (leBytes 8 2)).2 = none := by decide +kernel
/-- A program node with a launch record and a batch of two. -/
def program : Node := { node 0 with launch := some slotLaunch, batch := 2 }
/-- Program nodes without input, fed by a finished SORTER or RASTER, with too few records, with a batch, and with the last records. -/
theorem witness_GraphEvents_program :
    (running [program] []).nodeTurn 0 0 0 = some (graph [program] [], program) ∧ (graph [program] []).inputs 0 = [] ∧
    (running [finishedNode 2, program] [edgeOf 16 0 []]).nodeTurn 0 1 0 = some (graph [finishedNode 2, program] [edgeOf 16 0 []], program) ∧
    (running [finishedNode 3, program] [edgeOf 16 0 []]).nodeTurn 0 1 0 = some (graph [finishedNode 3, program] [edgeOf 16 0 []], program) ∧
    (∀ x ∈ [(node 0, 1, 0), (node 0, 2, 2), (finishedNode 0, 1, 1), ({ node 0 with failed := true }, 1, 1)],
      (running [x.1, program] [edgeOf 64 x.2.1 []]).nodeTurn 0 1 0 = some (graph [x.1, program] [edgeOf 64 x.2.1 []], program) ∧
      (graph [x.1, program] [edgeOf 64 x.2.1 []]).inputs 1 = edgeOf 64 x.2.1 [] :: [] ∧
      (graph [x.1, program] [edgeOf 64 x.2.1 []]).nextBatch program (edgeOf 64 x.2.1 []) = x.2.2 ∧
      ((running [x.1, program] [edgeOf 64 x.2.1 []]).writeAt (nodeCommand 0 1 0 0 []) 0xC020 (leBytes 8 x.2.2)).2 = none) := by decide +kernel
/-- A BINNER of an image of 32 by 16 pixels, its statistics at 0xC100, and its key queue. -/
def binner : Node := { node 1 with cleared := true, config := leBytes 2 32 ++ leBytes 2 16 ++ leBytes 2 4 ++ zeros 2 ++ leBytes 8 0xC100 ++ zeros 16 }
def keyEdge : Edge := { queue := 0xC080, src := 1, dst := 2, rsize := 16, cap := 4, base := 0xD800, committed := 0, pending := [] }
def binning (rec : Nat) (committed : Nat) (edges : List Edge) : State :=
  setMem 0x2D000 (leBytes 32 rec) (running [node 0, binner, node 2] (edgeOf 32 committed [] :: edges))
/-- A splat at (4, 4) of radius 1 and depth 1. -/
def splatRecord : Nat := 0x40800000 + 0x40800000 * 2 ^ 32 + 0x3C00 * 2 ^ 128 + 0x3F800000 * 2 ^ 160
/-- Statistics that are still to be set to 0; no record committed; one that is invalid, with no key queue; one that gives a key. -/
theorem witness_GraphEvents_binner :
    (binning 0 0 []).nodeTurn 0 1 1 = some (graph [node 0, binner, node 2] [edgeOf 32 0 []], binner) ∧ binner.batches = 0 ∧
    (let n := { binner with cleared := false }
     let s := running [node 0, n, node 2] [edgeOf 32 0 []]
     s.nodeTurn 0 1 1 = some (graph [node 0, n, node 2] [edgeOf 32 0 []], n) ∧ n.stats = 0xC100 ∧
       s.binnerDie (graph [node 0, n, node 2] [edgeOf 32 0 []]) n none = 0 ∧
       ((s.modNode 0 1 fun n => { n with die := some 0 }).writeAt (nodeCommand 0 1 0 0 []) 0xC100 (zeros 32)).2 = none) ∧
    binner.bin 0 = .invalid ∧ (match binner.bin splatRecord with
      | .keys l => l.length == 1
      | _ => false) = true ∧
    (∀ x ∈ [(0, ([] : List Edge)), (splatRecord, [keyEdge])], let s := binning x.1 1 x.2
      s.nodeTurn 0 1 1 = some (graph [node 0, binner, node 2] (edgeOf 32 1 [] :: x.2), binner) ∧
      s.binnerDie (graph [node 0, binner, node 2] (edgeOf 32 1 [] :: x.2)) binner x.2.head? = 0 ∧
      okB (s.readAt (nodeCommand 0 1 0 0 []) 0xD000 32) (fun s1 rb => leNat rb == x.1 && okB (s1.readAt (nodeCommand 0 1 0 0 []) 0xC100 32) fun s2 _ =>
        (s2.nodeWrites (nodeCommand 0 1 0 0 []) [(0xD800, leBytes 8 1 ++ leBytes 4 0 ++ zeros 4), (0xC090, zeros 16), (0xC100, zeros 32), (0xC020, leBytes 8 1)]).2.isNone) = true) := by
  decide +kernel
/-- A SORTER that waits for its producer, and one whose producer is done; its die's sort queue has room. -/
def sorter : Node := { node 2 with config := zeros 48 }
theorem witness_GraphEvents_sorter : ∀ x ∈ [node 0, finishedNode 0], let s := running [x, sorter] [edgeOf 16 3 []]
    s.nodeTurn 0 1 2 = some (graph [x, sorter] [edgeOf 16 3 []], sorter) ∧ (graph [x, sorter] [edgeOf 16 3 []]).settled (edgeOf 16 3 []) = x.finished ∧
      s.queuedAt 3 (s.dieHolding 0 0) < 32 ∧ (s.nodeWrites (nodeCommand 0 1 0 0 []) [(0xC020, leBytes 8 3)]).2 = none := by decide +kernel
/-- A RASTER node with a record of zeros, which has no area, and one atomic minimum. -/
def raster : Node := { node 3 with config := leBytes 2 4 ++ leBytes 2 4 ++ zeros 4 ++ leBytes 8 0xE000 ++ zeros 16 }
theorem witness_GraphEvents_raster : let s := running [node 0, raster] [edgeOf 48 1 []]
    s.nodeTurn 0 1 3 = some (graph [node 0, raster] [edgeOf 48 1 []], raster) ∧ raster.taken < (edgeOf 48 1 []).committed ∧ raster.fragments (zeros 48) = [] ∧
      s.dieHolding 0 0xE000 = 0 ∧
      ∃ s1 bs, (s.modNode 0 1 fun n => { n with die := some 0 }).readAt (nodeCommand 0 1 0 0 []) 0xD000 48 = (s1, .ok bs) ∧ bs = zeros 48 ∧ (s1.writeAt (nodeCommand 0 1 0 0 []) 0xC020 (leBytes 8 1)).2 = none := by
  and_intros <;> first | decide +kernel | exact okOf (by decide +kernel)
theorem witness_GraphEvents_minimum : ∃ s1 e, base.endAt (nodeCommand 0 1 0 0 []) (.glob 0xE008) 8 .readWrite = (s1, .ok e) ∧
    (match e with
      | .here l => (s1.readCheck l).isNone && ((s1.beforeRead 0 (s1.commandCore (nodeCommand 0 1 0 0 [])) false l).writeCheck l).isNone && l.all fun p => p.window.isNone
      | _ => false) = true ∧ s1.ownedByOther (nodeCommand 0 1 0 0 []).id e.keys = false ∧ Quiet s1 ∧ s1.heldWrites = [] := okOf (by decide +kernel)
/-- A COMPOSE node of two members without records, whose peer has not answered, disagrees, and agrees. -/
def compose : Node := { node 4 with config := leBytes 8 0xE000 ++ leBytes 4 1 ++ zeros 20 }
def composing : State := { running [finishedNode 0, compose] [edgeOf 32 0 []] with collGroups := put base.collGroups 0 (BitVec.ofNat 128 3) }
theorem witness_GraphEvents_compose : composing.nodeTurn 0 1 4 = some (graph [finishedNode 0, compose] [edgeOf 32 0 []], compose) ∧
    (graph [finishedNode 0, compose] [edgeOf 32 0 []]).settled (edgeOf 32 0 []) = true ∧ (composing.collGroup 0).valid = true ∧ 0 < (composing.collGroup 0).members ∧
    allPeers (composing.collGroup 0) [] = false ∧ allPeers (composing.collGroup 0) [(1, part 3 1)] = true ∧
    allPeers (composing.collGroup 0) [(1, { part 3 1 with dstr := 0 })] = true ∧ (part 3 1).dstr ≠ 0 ∧
    allPeers (composing.collGroup 0) [(1, { part 3 1 with refused := true, dstr := 0 })] = true ∧
    (match composeWrites true 0xE000 1 ([] ++ [(1, { part 3 1 with dstr := 0 })].flatMap fun p => peerPartials p.2) with
      | .writes l k => l.isEmpty && k == 0
      | _ => false) = true ∧
    ∃ s1 rb, composing.readAt (nodeCommand 0 1 0 0 []) 0xD000 0 = (s1, .ok rb) ∧ okB (s1.partialsOf (nodeCommand 0 1 0 0 []) false []) (fun s2 own => own == [] &&
      (s2.nodeWrites (nodeCommand 0 1 0 0 []) [(0xC020, leBytes 8 0)]).2.isNone) = true := by
  and_intros <;> first | decide +kernel | exact okOf (by decide +kernel)
/-- The same node on member 1, which sends its partials to member 0: the package of member 0 stands at address 0. -/
def composingAway : State := { running [finishedNode 0, compose] [edgeOf 32 0 []] with collGroups := put base.collGroups 0 (BitVec.ofNat 128 (3 + 2 ^ 32)) }
theorem witness_GraphEvents_composeAway : composingAway.nodeTurn 0 1 4 = some (graph [finishedNode 0, compose] [edgeOf 32 0 []], compose) ∧
    (composingAway.collGroup 0).rank = 1 ∧ 0 < (composingAway.collGroup 0).members ∧ allPeers (composingAway.collGroup 0) [(0, { part 3 1 with dstr := 0 })] = true ∧
    (match composeWrites false 0xE000 1 ([] ++ [(0, { part 3 1 with dstr := 0 })].flatMap fun p => peerPartials p.2) with
      | .writes l k => l.isEmpty && k == 0
      | _ => false) = true ∧
    ∃ s1 rb, composingAway.readAt (nodeCommand 0 1 0 0 []) 0xD000 0 = (s1, .ok rb) ∧ okB (s1.partialsOf (nodeCommand 0 1 0 0 []) true []) (fun s2 own => own == [] &&
      okB (s2.addressed (nodeCommand 0 1 0 0 []) (composingAway.collGroup 0) [(0, 0, rb)]) fun s4 ms => ms.map (·.pkg) == [0] &&
      (s4.nodeWrites (nodeCommand 0 1 0 0 []) [(0xC020, leBytes 8 0)]).2.isNone) = true := by
  and_intros <;> first | decide +kernel | exact okOf (by decide +kernel)
/-- A node that is done, one whose producer failed, one with its work done, and one with work left. -/
theorem witness_GraphEvents_finish : let failed := { node 1 with failed := true }
    (running [finishedNode 0] []).graph? 0 = some (graph [finishedNode 0] []) ∧ (graph [failed, node 2] [edgeOf 16 0 []]).spoiled 1 (node 2) = true ∧
    (graph [node 0] []).spoiled 0 (node 0) = false ∧ (running [node 0] []).nodeDone (graph [node 0] []) 0 (node 0) = false ∧
    (running [{ node 0 with started := true }] []).nodeDone (graph [{ node 0 with started := true }] []) 0 { node 0 with started := true } = true := by
  decide +kernel

/-! ### Conditions of the statement on links and the host port -/

/-- A flit of some kind with four bytes of data. -/
def flit (kind seq : Nat) : Flit := { kind := kind, nfmt := 0, chan := 0, coded := false, elems := 4, ack := 0, seq := seq, payload := [1, 2, 3, 4] ++ zeros 236 }
/-- The largest header fields that a flit may hold. -/
theorem witness_LinkAndHostEvents_code : let f := { flit 4 65535 with nfmt := 3, chan := 7, coded := true, elems := 255, ack := 65535, payload := List.replicate 240 0xFF }
    f.kind ≤ 4 ∧ f.nfmt ≤ 3 ∧ f.chan < 8 ∧ f.elems < 256 ∧ (f.nfmt = 0 → f.elems ≤ 240) ∧ f.ack < 2 ^ 16 ∧ f.seq < 2 ^ 16 ∧ f.payload.length = 240 := by decide +kernel
/-- An element of each format, its largest code, with a table of counts. -/
theorem witness_LinkAndHostEvents_elements : ∀ x ∈ [(1, 0xFFFFFFFF), (2, 0xFFFF), (3, 0xFFFF)], 1 ≤ x.1 ∧ x.1 ≤ 3 ∧
    (List.replicate (2 ^ expBits x.1) 0).length = 2 ^ expBits x.1 ∧ x.2 < 2 ^ (8 * elemBytes x.1) ∧ (x.1 = 3 → x.2 < 2 ^ 16) := by decide +kernel
/-- A port and what it takes: a damaged flit, an acknowledgement, the next flit, the last one again, one after a gap, a retraining. -/
def atPort (rx : Nat) : State := { State.reset with ports := put State.reset.ports 15 { Port.fresh with rxSeq := rx } }
theorem witness_LinkAndHostEvents_receive : ((atPort 65535).port 15).lost = false ∧ ((atPort 65535).port 15).retraining = false ∧ ((atPort 65535).port 15).rxSeq = 65535 ∧
    Flit.parse (zeros 256) = none ∧ (∀ f ∈ [flit 0 0, flit 1 0, flit 1 65535, flit 1 1, flit 3 0, flit 4 0], Flit.parse f.bytes = some f) ∧
    (65535 + 1) % 2 ^ 16 = 0 ∧ (65535 + 2 ^ 16 - 65535) % 2 ^ 16 < 2 ^ 15 ∧ 2 ^ 15 ≤ (65535 + 2 ^ 16 - 1) % 2 ^ 16 := by decide +kernel
/-- A peer's write of the flit's four bytes to page 0 of context 0 reaches memory, computed; port 15 has taken flit 65535. -/
def peerWrites (s : State) : Bool :=
  let f := flit 1 0
  let data := f.payload.take f.elems
  let s0 := s.setPort 15 ((s.port 15).acked f.ack s.time)
  match s0.spots (s0.walkerTile 0) 0 0xC000 data.length .write with
  | (s1, .ok l) => match s1.takeWindows 15 7 0 0xC000 4 (writeWindows 0 data.length) with
    | some s2 => decide ((({ s2 with peers := s2.peers.filter fun x => !(x.port == 15 && x.cmd == 7) } : State).deviceStall true (keysOf l)) = none ∧
        s2.writeCheck l = none ∧ s2.mire = [] ∧ Memory.wf s2.mem = true)
    | none => false
  | _ => false
/-- A write that reaches memory, and one that waits for the line that an engine command owns. -/
theorem witness_LinkAndHostEvents_peer :
    let s : State := { base with ports := (atPort 65535).ports }
    let t := commands [{ copy 4 with phase := .started, owned := [(0x20000 + 0xC000) / 128] }] s
    (∀ x ∈ [s, t], (x.port 15).lost = false ∧ (x.port 15).retraining = false ∧ (x.port 15).rxSeq = 65535) ∧ peerWrites s = true ∧
    ((t.setPort 15 ((t.port 15).acked 0 t.time)).peerAccess 15 [1, 2, 3, 4] (.write 7 0 0xC000 4 0)).2 = false := by decide +kernel
/-- Two flits that wait for their acknowledgement since time 0, after some resends. -/
def replaying (resends : Nat) (retraining : Bool) (time : Nat) : State :=
  let sent : Nat → Sent := fun n => { seq := n, cmd := none, chan := 0, nfmt := 0, raw := [BitVec.ofNat 8 n], flit := [] }
  let p : Port := { Port.fresh with txSeq := 2, resends := resends, retraining := retraining, replay := [sent 1, sent 2] }
  { State.reset with time := time, ports := put State.reset.ports 0 p }
/-- A NAK of the first flit, timeouts at and before their end, eight resends and seven, a retraining in time and out of it. -/
theorem witness_LinkAndHostEvents_recovery :
    (ackedReplay 1 ((replaying 0 false 0).port 0).replay).length = 1 ∧
    (∀ x ∈ [(0, false, 1999), (0, false, 2000), (7, false, 0), (8, false, 0), (0, true, 9999999), (0, true, 10000000)],
      let p := (replaying x.1 x.2.1 x.2.2).port 0
      p.lost = false ∧ p.retraining = x.2.1 ∧ p.resends = x.1 ∧ p.since = 0 ∧ p.replay.length = 2 ∧ ∀ y ∈ p.replay, y.cmd = none) := by decide +kernel
/-- A gust flit of the port that time comes from, before and after the clock has locked, and with a master of its own. -/
def gusts (locked own : Bool) : State := { State.reset with booted := true, locked := locked, disciplined := own }
theorem witness_LinkAndHostEvents_gust : ∀ l ∈ [true, false], ((gusts l false).port 15).lost = false ∧ (gusts l false).hostOpen = true ∧ (gusts l false).disciplined = false ∧
    (((gusts l false).setPort 15 { (gusts l false).port 15 with hops := some 0 }).timePort.map Prod.fst) = some 15 ∧
    ¬ ((gusts l true).hostOpen = true ∧ (gusts l true).disciplined = false) ∧ (gusts l false).locked = l := by decide +kernel
/-- A message of IEEE 1588 on the management VLAN, with no exchange begun and with one. -/
theorem witness_LinkAndHostEvents_clock : ∀ l ∈ [true, false], ∀ x ∈ [none, some ({ sent := 5, came := 9, asked := 9 } : Exchange)],
    let s : State := { gusts l false with vlanMgmt := 7, exchange := x }
    s.hostOpen = true ∧ ({ vlan := 7, ecn := false } : Frame).vlan = s.vlanMgmt ∧ s.locked = l ∧ s.exchange = x := by decide +kernel
/-- A queue pair that is open, and region 4095 of generation 1: page 0 of context 0, which may be read and written. -/
def mailbox : State :=
  { base with booted := true, qps := put base.qps 63 { open_ := true, error := false, rate := fullRate, mtu := 4096, message := none }, regions := [(4095, BitVec.ofNat 128 (7 + 2 ^ 68 + 2 ^ 108))] }
def dataFrame (ecn : Bool) : Frame := { vlan := 0, ecn := ecn }
/-- What mailboxSpots answers, computed. -/
def mailB (r : Mailbox) (p : State → List Spot → Bool) : Bool :=
  match r with
  | .ok s l => p s l
  | _ => false
theorem mailOf {r : Mailbox} {p : State → List Spot → Prop} [∀ s l, Decidable (p s l)] (h : mailB r (fun s l => decide (p s l)) = true) :
    ∃ s l, r = .ok s l ∧ p s l := by
  unfold mailB at h
  split at h
  · exact ⟨_, _, rfl, of_decide_eq_true h⟩
  · simp at h
/-- A write and a read of the region's last 16 bytes, and of 16 bytes one further; a stale generation; a marked frame. -/
theorem witness_LinkAndHostEvents_mailbox : let e := (mailbox.region (0x1FFF % 4096)).toNat
    (∀ b ∈ [true, false], mailbox.takesData (dataFrame b) = true) ∧ (mailbox.qp 63).up = true ∧ (mailbox.qp 63).rate ≠ 0 ∧
    regionTakes e 0x1FFF 65520 16 true = true ∧ regionTakes e 0x1FFF 65520 16 false = true ∧ regionTakes e 0x1FFF 65521 16 true = false ∧
    regionTakes e 0x1FFF 65521 16 false = false ∧ regionTakes e 0x2FFF 0 16 false = false ∧
    (∃ s1 l, (mailbox.echoEcn (dataFrame true) 63).mailboxSpots e 65520 16 true = .ok s1 l ∧ Quiet s1) ∧
    ∃ s1 l, (mailbox.echoEcn (dataFrame false) 63).mailboxSpots e 65520 16 false = .ok s1 l ∧ s1.mire = [] := by
  and_intros <;> first | decide +kernel | exact mailOf (by decide +kernel)
/-- A pair whose message of 4097 bytes has a byte left, and the same of one that keeps the first four bytes of a block of 16 back. -/
def underway : QueuePair := { mailbox.qp 63 with message := some { rkey := 0x1FFF, next := 4096, left := 1 } }
def halfBlock : QueuePair := { mailbox.qp 63 with message := some { rkey := 0x1FFF, next := 4100, left := 1, tail := [1, 2, 3, 4] } }
/-- A packet that begins, goes on with, or ends a message, and one that does not fit; the bytes left are in the region. -/
theorem witness_LinkAndHostEvents_packets : let q := mailbox.qp 63
    let e := (mailbox.region (0x1FFF % 4096)).toNat
    q.inOrder .only 4096 = true ∧ q.inOrder .only 4097 = false ∧ q.inOrder (.first 4097) 4096 = true ∧ q.inOrder (.first 4096) 4096 = false ∧
    q.inOrder .last 1 = false ∧ underway.up = true ∧ underway.inOrder .last 1 = true ∧ underway.inOrder .last 2 = false ∧ underway.inOrder .middle 4096 = false ∧
    ({ underway with message := some { rkey := 0x1FFF, next := 0, left := 4097 } } : QueuePair).inOrder .middle 4096 = true ∧
    halfBlock.up = true ∧ halfBlock.inOrder .last 1 = true ∧
    ∀ q ∈ [underway, halfBlock], let m := q.covers .last 0 0 1
     regionTakes e m.1 m.2.1 m.2.2 true = true ∧ mailB (mailbox.mailboxSpots e m.2.1 m.2.2 true) (fun s1 _ => decide (Quiet s1)) = true := by decide +kernel
/-- Some packets wait, and a copy that a translation fault has stopped owns a line of page 0. -/
def writeWaits (l : List Instr) (s : State) : State :=
  { s with agenda := l, commands := [{ copy 4 with owner := none, phase := .started, owned := [0x2C000 / 128], xlate := some (0, 0xD000) }] }
theorem due_of_still {s : State} {c : Command} (hm : s.mayBeDue = [.ownershipWindow 0, .engineCommandComplete 0]) (hc : s.command? 0 = some c)
    (hx : c.xlate.isSome = true) : s.due = [] := by
  have h1 : exec (.ownershipWindow 0) s = .next s := by show execOwnershipWindow 0 s = _; simp [execOwnershipWindow, hc, hx]
  have h2 : exec (.engineCommandComplete 0) s = .next s := by show execEngineCommandComplete 0 s = _; simp [execEngineCommandComplete, hc, hx]
  simp [State.due, State.stirs, hm, h1, h2]
theorem turn_of_still {s : State} (h : s.due = []) : s.turn = s.pick.map .inr := by
  unfold State.turn
  rw [h]
  cases s.pick <;> rfl
/-- A write to the line waits, and the split's word has its turn; where no team is left, nothing has. -/
theorem witness_StepRunsTheDecodedWord_waits :
    let s := writeWaits [.rdmaWrite (dataFrame false) 63 0x1FFF 0xC000 ⟨.only, [1]⟩] mailbox
    (∃ j rest, s.agenda = j :: rest ∧ s.tickOn.packetWaits j = true) ∧ ∃ w, s.tickOn.turn = some (.inr w) ∧ (s.tickOn.team? w.team).isSome = true := by
  refine ⟨⟨_, _, rfl, by decide +kernel⟩, ⟨0, 0, 0⟩, ?_, by decide +kernel⟩
  rw [turn_of_still (due_of_still (by decide +kernel) rfl rfl)]
  decide +kernel
theorem witness_StepRunsTheEvent_waits :
    let s := writeWaits [.rdmaWrite (dataFrame false) 63 0x1FFF 0xC000 ⟨.only, [1]⟩] { mailbox with teams := [] }
    (∃ j rest, s.agenda = j :: rest ∧ s.tickOn.packetWaits j = true) ∧ s.tickOn.turn = none := by
  refine ⟨⟨_, _, rfl, by decide +kernel⟩, ?_⟩
  rw [turn_of_still (due_of_still (by decide +kernel) rfl rfl)]
  decide +kernel
/-- A connection request with all pairs up, with the last one down, and of another transport. -/
def connected (n : Nat) : State := { mailbox with qps := tab 64 fun k => { open_ := decide (k < n), error := false, rate := fullRate, mtu := 1024, message := none } }
theorem witness_LinkAndHostEvents_connect : (∀ n, n < 64 → ((connected 64).qp n).up = true) ∧ ((connected 63).qp 63).up = false ∧
    (∀ k, k < 63 → ((connected 63).qp k).up = true) ∧ (connected 63).takesData (dataFrame false) = true ∧ Transport.ud ≠ .rc ∧ 4096 ∈ [1024, 2048, 4096] ∧ 512 ∉ [1024, 2048, 4096] := by decide +kernel
/-- A management request at the open port and in recovery. -/
theorem witness_LinkAndHostEvents_management : ∀ b ∈ [true, false], let s : State := { mailbox with recovery := b }
    s.takesMgmt { vlan := 0, ecn := false } = true ∧ s.recovery = b := by decide +kernel

/-! ### Conditions of the statement on watches, heat and power -/

/-- Tile 17 holds a watch of tile 16, to its west. -/
def watching (w : Watch) : State := State.reset.setWatch 17 .west w
/-- The third missed gust and the second, the sixteenth malformed flit and the fifteenth, a window of flits at its limit and past it. -/
theorem witness_WatchAndPowerEvents_judged : ∀ x ∈ [(Instr.missedGust 17 .west, { Watch.fresh with missed := 2 }, some 1), (.missedGust 17 .west, { Watch.fresh with missed := 1 }, none),
    (.malformedFlit 17 .west, { Watch.fresh with malformed := 15 }, some 2), (.malformedFlit 17 .west, { Watch.fresh with malformed := 14, vote := .voted }, none)],
    let w0 := (watching x.2.1).watch 17 .west
    (watching x.2.1).watches? 17 .west = true ∧ meshNeighbour 17 .west = some 16 ∧ w0 = x.2.1 ∧ w0.votes = [] ∧
    ∃ w, (x.1, w, x.2.2) ∈ [(Instr.missedGust 17 .west, { w0 with missed := w0.missed + 1 }, if 2 ≤ w0.missed then some 1 else none),
      (.malformedFlit 17 .west, { w0 with malformed := w0.malformed + 1 }, if 15 ≤ w0.malformed then some 2 else none)] := by
  have h : ([(Instr.missedGust 17 .west, { Watch.fresh with missed := 2 }, some 1), (.missedGust 17 .west, { Watch.fresh with missed := 1 }, none),
    (.malformedFlit 17 .west, { Watch.fresh with malformed := 15 }, some 2), (.malformedFlit 17 .west, { Watch.fresh with malformed := 14, vote := .voted }, none)].all fun x =>
    let w0 := (watching x.2.1).watch 17 .west
    decide ((watching x.2.1).watches? 17 .west = true ∧ w0 = x.2.1 ∧ w0.votes = []) &&
      [(Instr.missedGust 17 .west, { w0 with missed := w0.missed + 1 }, if 2 ≤ w0.missed then some 1 else none),
      (.malformedFlit 17 .west, { w0 with malformed := w0.malformed + 1 }, if 15 ≤ w0.malformed then some 2 else none)].any fun (y : Instr × Watch × Option Nat) => decide ((x.1, y.2.1, x.2.2) = y)) = true := by
    decide +kernel
  intro x hx
  have hb := List.all_eq_true.1 h x hx
  simp only [Bool.and_eq_true, decide_eq_true_eq, List.any_eq_true] at hb
  obtain ⟨⟨h1, h2, h3⟩, y, hy, he⟩ := hb
  exact ⟨h1, by decide, h2, h3, y.2.1, he ▸ hy⟩
theorem witness_WatchAndPowerEvents_babble : ∀ r ∈ [({ flits := 95, limit95 := 95 } : BabbleReport), { flits := 1120, limit95 := 95 }, { flits := 1121, limit95 := 95 }],
    let w0 : Watch := { Watch.fresh with demands := [1, 5] }
    (watching w0).watches? 17 .west = true ∧ (watching w0).watch 17 .west = w0 ∧ w0.votes = [] ∧ w0.vote = .trust ∧
    (Instr.babbleWindow 17 .west r, { w0 with hot := true }, if 16 * w0.demands.foldl (· + ·) 0 + 1024 < r.flits then some 2 else none) =
      (.babbleWindow 17 .west r, { w0 with hot := true }, if r.flits = 1121 then some 2 else none) := by decide +kernel
/-- Gusts of tile 16: not well-formed, the next of the sequence in each vote state, from a neighbour that injects too much or does not, and
one past a gap. -/
theorem witness_WatchAndPowerEvents_gust : gustOk 0 16 = false ∧
    (∀ v ∈ [VoteState.trust, .suspect, .voted], ∀ h ∈ [true, false], let s := watching { Watch.fresh with vote := v, seq := some 65535, hot := h }
      s.watches? 17 .west = true ∧ gustOk (gustBits 16 0 0 0 0).toNat 16 = true ∧ (s.watch 17 .west).vote = v ∧ (s.watch 17 .west).hot = h ∧
        (s.watch 17 .west).seq = some ((gustSeq (gustBits 16 0 0 0 0).toNat + 65535) % 65536) ∧ (s.watch 17 .west).good = 0) ∧
    (let s := watching { Watch.fresh with seq := some 65534 }
     gustSeq (gustBits 16 0 0 0 0).toNat ≠ (65534 + 1) % 65536 ∧ (s.watch 17 .west).seq = some 65534 ∧ (s.watch 17 .west).vote = .trust ∧ (s.watch 17 .west).votes = []) := by
  decide +kernel
/-- A vote of tile 0 about tile 16: its receiver has not voted, has voted with enough votes, with too few, and a withdrawal. Tile 16 has three live neighbours. -/
theorem witness_WatchAndPowerEvents_votes : ∀ x ∈ [(VoteState.trust, 1, 2), (.voted, 1, 2), (.voted, 3, 1)],
    let s := watching { Watch.fresh with vote := x.1 }
    let g := (gustBits 0 0 0 x.2.1 16).toNat
    s.fenced 17 = false ∧ s.fenced 0 = false ∧ gustVkind g = x.2.1 ∧ gustVtile g = 16 ∧ gustSrc g = 0 ∧ (dirs.find? fun d => meshNeighbour 17 d == some 16) = some .west ∧
      (∃ y ∈ watchers 16, y.1 = 0) ∧ (s.liveNeighbours 16).length = 3 ∧ s.fenced 16 = false ∧
      (s.setWatch 17 .west { (s.watch 17 .west) with votes := if x.2.1 = 3 then [] else [0] }).voteCount 17 16 { (s.watch 17 .west) with votes := if x.2.1 = 3 then [] else [0] } = x.2.2 := by
  decide +kernel
/-- Tiles of each status; a fence whose deadline is now, and whose is not; a core at rest. -/
def standing (st : TileStatus) (time : Nat) (fences : List Nat) : State := { State.reset with time := time, tiles := [(511, { status := st, fences := fences, orphans := true, gseq := 0 })] }
theorem witness_WatchAndPowerEvents_tests : ((standing .testing 0 []).tileHealth 511).status = .testing ∧ ((standing .live 0 []).tileHealth 511).status ≠ .testing ∧
    (let h := (standing .testing 10000 [0]).tileHealth 511
     h.orphans = true ∧ h.fences.headD 0 + 10000 ≤ (standing .testing 10000 [0]).time) ∧
    (let h := (standing .testing 9999 [0]).tileHealth 511
     (standing .testing 9999 [0]).time < h.fences.headD 0 + 10000) ∧
    (State.reset.core 511).rested = false ∧ ((State.reset.setCore 511 { Core.fresh with rested := true }).core 511).rested = true ∧
    (((standing .testing 0 [0, 86400000000000]).tileHealth 511).fences.filter fun t => decide (86400000000000 < t + 86400000000000)).length = 1 := by decide +kernel
/-- Tile 0 has one live neighbour, tile 1, which has voted. -/
def lonely : State := { State.reset.setWatch 1 .west { Watch.fresh with vote := .voted } with tiles := [(16, { TileHealth.fresh with status := .retired })] }
theorem witness_WatchAndPowerEvents_alone : lonely.fenced 0 = false ∧ lonely.liveNeighbours 0 = [1] ∧ (watchers 0).find? (fun x => x.1 == 1) = some (1, .west) ∧
    (lonely.watch 1 .west).vote = .voted := by decide +kernel
/-- A die that is hot; a device that has been brought up, one in recovery, and one that has not been powered on. -/
theorem witness_WatchAndPowerEvents_power : ((State.reset.setDie 1 { Die.fresh with hot := true }).die 1).hot = true ∧
    (State.reset.booted || State.reset.recovery) = false ∧ (({ State.reset with booted := true } : State).booted || false) = true ∧
    ({ State.reset with recovery := true } : State).recovery = true ∧
    ({ verified := true, failedTiles := [511], dataVlan := 1, mgmtVlan := 2, time := some 5 } : BootReport).verified = true := by decide +kernel

/-! ### Single steps whose results the spec prints or that are worked out from its rules -/

/-- The group after an instruction's step. -/
def ran (i : Instr) (s : State) : Option (State × Group) :=
  match exec i s with
  | .next t => (t.group? 0 0).map fun g => (t, g)
  | _ => none
/-- A V register in a lane after the step. -/
def vOf (i : Instr) (s : State) (n l : Nat) : Option Nat := (ran i s).map fun x => ((x.2.vreg n).at l).toNat
/-- An S register after the step. -/
def sOf (i : Instr) (s : State) (n : Nat) : Option Nat := (ran i s).map fun x => (x.2.sreg n).toNat
/-- A predicate after the step. -/
def pOf (i : Instr) (s : State) (n : Nat) : Option Nat := (ran i s).map fun x => (x.2.pred n).toNat
/-- The flag word after the step. -/
def flagsOf (i : Instr) (s : State) : Option Nat := (ran i s).map fun x => x.2.flags.toNat
/-- Memory after the step. -/
def memOf (i : Instr) (s : State) (key n : Nat) : Option Nat := (ran i s).map fun x => x.1.load key n
/-- Two vector registers set. -/
def two (a b : Nat) (s : State) : State := setU 1 a (setU 2 b s)
/-- D = V4, A = V1, B = V2 at LANE scope. -/
def ab (dt sub : Nat) : Fields := fm .lane dt sub (V 4) (V 1) (V 2)

/-- R167: the designated thread's lane is read. -/
theorem test_iadd_designated : sOf (.iadd (fm .group 0 0 (S 2) (V 1) (I 1))) (setV 1 (fun l => if l = 4 then 7 else 99) (onSplit (fun x => { x with mask := 0xFFFFFFF0 }) base)) 2 = some 8 := by decide +kernel
/-- R173: 3 − 5 of N32 with SAT, and 0x7FFF_FFF0 + 0x20 of S32 with SAT. -/
theorem test_isub_saturates : vOf (.isub { ab 1 0 with sat := true }) (two 3 5 base) 4 0 = some 0 := by decide +kernel
theorem test_iadd_saturates : vOf (.iadd { ab 0 0 with sat := true }) (two 0x7FFFFFF0 0x20 base) 4 0 = some 0x7FFFFFFF := by decide +kernel
/-- R173: the sum is taken modulo 2^32. -/
theorem test_iadd_wraps : vOf (.iadd (ab 0 0)) (two 0xFFFFFFFF 1 base) 4 31 = some 0 := by decide +kernel
/-- R173: 0x8000_0000 × 6 of N32. -/
theorem test_imulh : vOf (.imulh (ab 1 0)) (two 0x80000000 6 base) 4 0 = some 3 := by decide +kernel
/-- R175: −7 by 2 of S32, and a division by 0. -/
theorem test_idiv : vOf (.idiv (ab 0 0)) (two 0xFFFFFFF9 2 base) 4 0 = some 0xFFFFFFFD := by decide +kernel
theorem test_irem : vOf (.irem (ab 0 0)) (two 0xFFFFFFF9 2 base) 4 0 = some 0xFFFFFFFF := by decide +kernel
theorem test_idiv_zero : vOf (.idiv (ab 1 0)) (two 5 0 base) 4 0 = some 0xFFFFFFFF ∧ flagsOf (.idiv (ab 1 0)) (two 5 0 base) = some 2 := by decide +kernel
/-- R176: a shift by the width gives 0, an arithmetic one the sign. -/
theorem test_shl_width : vOf (.shl (ab 4 0)) (two 1 32 base) 4 0 = some 0 := by decide +kernel
/-- R177: the table 0xE8 writes the majority. -/
theorem test_lop3_majority : vOf (.lop3 { fm .lane 4 0xE (V 4) (V 1) (V 2) (V 3) with xm := 8 }) (setU 3 0xAA (two 0xF0 0xCC base)) 4 0 = some 0xE8 := by decide +kernel
/-- R178: 12 bits from bit 8 of 0x1234_5678. -/
theorem test_bfx : vOf (.bfx (ab 1 0)) (two 0x12345678 0x0C08 base) 4 0 = some 0x456 := by decide +kernel
/-- R179: 5 and 3 interleaved. -/
theorem test_bilv : vOf (.bilv (ab 4 0)) (two 5 3 base) 4 0 = some 27 := by decide +kernel
/-- R181: the low and the high half of a sum. -/
theorem test_iaddc : let f := { fm .lane 1 0 (V 4) (V 1) (V 2) (P 1) with gp := 7 }
    vOf (.iaddc f) (two 0xFFFFFFFF 1 base) 4 0 = some 0 ∧ pOf (.iaddc f) (two 0xFFFFFFFF 1 base) 1 = some 0xFFFFFFFF := by decide +kernel
/-- R180: −1 is less than 100 in S32 and not in N32. -/
theorem test_icmp : pOf (.icmp (fm .lane 0 2 (P 1) (V 1) (I 100))) (setU 1 0xFFFFFFFF base) 1 = some 0xFFFFFFFF ∧
    pOf (.icmp (fm .lane 1 2 (P 1) (V 1) (I 100))) (setU 1 0xFFFFFFFF base) 1 = some 0 := by decide +kernel
/-- R184: the product is not rounded before the sum. -/
theorem test_ffma : vOf (.ffma { fm .lane 0 0 (V 4) (V 1) (V 2) (V 3) with rnd := 1 }) (setU 3 0xBF800000 (two 0x3F800001 0x3F7FFFFE base)) 4 0 = some 0xA8800000 := by decide +kernel
/-- R152: 1 + 2^−24 is a tie and goes to the even 1; NX is set. -/
theorem test_fadd_tie : vOf (.fadd { ab 0 0 with rnd := 1 }) (two 0x3F800000 0x33800000 base) 4 0 = some 0x3F800000 ∧
    flagsOf (.fadd { ab 0 0 with rnd := 1 }) (two 0x3F800000 0x33800000 base) = some 0x10 := by decide +kernel
/-- R144, R184: ∞ − ∞ is the canonical NaN and sets IV. -/
theorem test_fsub_invalid : vOf (.fsub (ab 0 0)) (two 0x7F800000 0x7F800000 base) 4 0 = some 0x7FC00000 ∧ flagsOf (.fsub (ab 0 0)) (two 0x7F800000 0x7F800000 base) = some 1 := by
  decide +kernel
/-- R186: the exponent of 2^−149. -/
theorem test_ffrx : vOf (.ffrx (fm .lane 0 1 (V 4) (V 1))) (setU 1 1 base) 4 0 = some 0xFFFFFF6B ∧ vOf (.ffrx (fm .lane 0 0 (V 4) (V 1))) (setU 1 1 base) 4 0 = some 0x3F800000 := by
  decide +kernel
/-- R186: −0.3 rounds to −0. -/
theorem test_frnd : vOf (.frnd { fm .lane 0 0 (V 4) (V 1) with rnd := 1 }) (setU 1 0xBE99999A base) 4 0 = some 0x80000000 := by decide +kernel
/-- R187: x of the specials of division: 1 by 0 is ∞ and sets DZ. -/
theorem test_fdiv_zero : vOf (.fdiv (ab 0 0)) (two 0x3F800000 0 base) 4 0 = some 0x7F800000 ∧ flagsOf (.fdiv (ab 0 0)) (two 0x3F800000 0 base) = some 2 := by decide +kernel
/-- R189: every lane's predicate is packed. -/
theorem test_pmov_pack : sOf (.pmovPack (fm .group 0 2 (S 8) (P 1))) (onGroup (fun g => { g with p := put g.p 1 0xA5 }) (oneThread base)) 8 = some 0xA5 := by decide +kernel
/-- R19, R124: V6 is affine with base 100 and step 3, and lane 4 of it is 112. -/
theorem test_mov_broadcast : vOf (.mov (fm .lane 4 0 (V 0) (.v 6 (.bcast 4)))) (onGroup (fun g => { g with v := put g.v 6 (.affine 100 3) }) base) 0 0 = some 112 := by decide +kernel
theorem test_mov_rotate : vOf (.mov (fm .lane 4 0 (V 0) (.v 6 (.rot 1)))) (onGroup (fun g => { g with v := put g.v 6 (.affine 100 3) }) base) 0 31 = some 100 := by decide +kernel
/-- R94: the low byte lies at the lowest address. -/
theorem test_st_byte_order : let f := fm .lane 8 0 default (V 64) (I 0x4000) (V 1)
    memOf (.st f) (setU 1 0x1A2B (oneThread base)) 0x24000 1 = some 0x2B ∧ memOf (.st f) (setU 1 0x1A2B (oneThread base)) 0x24001 1 = some 0x1A := by decide +kernel
/-- R89: a loaded byte of S8 is sign-extended. -/
theorem test_ld_bytes : (ran (.ld (fm .lane 8 0 (V 0) (V 64) (I 0x4000))) (setMem 0x24000 [0x2B, 0x1A, 0, 0x80] (oneThread base))).map (fun x => x.2.outstanding.map fun o =>
    o.wb.v.map fun y => (y.1, (nth y.2.2 0 0).toNat)) = some [[(0, 0x80001A2B)]] := by decide +kernel
/-- R102: lanes 0 to 3 add 1, 2, 3 and 4 to a word that holds 10. -/
theorem test_atom_order : let f := fm .lane 0 0 (V 0) (V 64) (I 0) (V 1)
    let s := setV 1 (fun l => l + 1) (setMem 0x24000 [10] (setU 64 0x4000 (onSplit (fun x => { x with mask := 0xF }) base)))
    memOf (.atom f) s 0x24000 4 = some 20 ∧ (ran (.atom f) s).map (fun x => x.2.outstanding.map fun o => o.wb.v.map fun y =>
      (List.range 4).map fun l => (nth y.2.2 l 0).toNat) = some [[[10, 11, 13, 16]]] := by decide +kernel
/-- R13: an offset of −3 from 0x1018. -/
theorem test_bra_back : (ran (.bra (fm .lane 0 0 default (I 0xFFFD) (I 0xFFFF))) (onSplit (fun x => { x with pc := 0x1018 }) base)).map (fun x => (x.2.split? 0).map (·.pc)) =
    some (some 0x1000) := by decide +kernel
/-- R271: 1.5, −2.0, +0 and −0. -/
def four : State := setU 0 0x3FC00000 (setU 1 0xC0000000 (setU 3 0x80000000 (oneThread base)))
theorem test_maskpk : vOf (.maskpk (fm .lane 0 1 (V 64) (V 0))) four 64 0 = some 1 ∧ vOf (.maskpk (fm .lane 0 0 (V 64) (V 0))) four 64 0 = some 0xA ∧
    vOf (.maskpk (fm .lane 0 2 (V 64) (V 0))) four 64 0 = some 3 := by decide +kernel
/-- R266: a record at (10.5, 4.5) with CONA = 64 and OPAC = 0.5, seen from (10.5, 4.5) and from (12.5, 4.5). -/
def seen (x : Nat) : State :=
  setU 2 x (setU 3 0x40900000 (setS 6 0x200 (setMem (sramKey 0 0x200) (leBytes 4 0x41280000 ++ leBytes 4 0x40900000 ++ leBytes 2 0x5400 ++ zeros 4 ++ leBytes 2 0x3800) (shared (oneThread base)))))
theorem test_gsw : vOf (.gsw (fm .lane 0 0 (V 20) (S 6) (V 2))) (seen 0x41280000) 20 0 = some 0x3F000000 ∧
    vOf (.gsw (fm .lane 0 0 (V 20) (S 6) (V 2))) (seen 0x41480000) 20 0 = some 0 := by decide +kernel
/-- R194: lanes 0, 1 and 2 hold 1 and 2^−24 twice. -/
theorem test_lred : sOf (.lred { fm .group 4 0 (S 6) (V 2) with rnd := 1 }) (setV 2 (fun l => if l = 0 then 0x3F800000 else if l < 3 then 0x33800000 else 0) base) 6 = some 0x3F800001 := by
  decide +kernel
/-- R253: a splat at (14, 8) of radius 4 and depth 2 on an image of 32 by 16 pixels. -/
theorem test_binner : binner.bin (0x41600000 + 0x41000000 * 2 ^ 32 + 0x4400 * 2 ^ 128 + 0x40000000 * 2 ^ 160) = .keys [0x0000000040000000, 0x0000000140000000] := by decide +kernel
/-- R358: the exit status of ADDRBAD in split 1 of group 2. -/
theorem test_exit_status : exitWord codeADDRBAD 1 2 = 0x0002010C := by decide +kernel
/-- R386: tile 85, fenced once at 100,000,000 ns and testing itself. -/
theorem test_tileq : sOf (.tileq (fm .group 0 0 (S 3) (S 2))) (setS 2 85 { base with time := 100000000, tiles := [(85, { status := .testing, fences := [100000000], orphans := false, gseq := 0 })] }) 3 =
    some 0x0000000005F50011 := by decide +kernel
/-- R49: the slice of a physical address with every tile live. -/
theorem test_slice : State.reset.sliceOf 0x0123457890 = 293 := by decide +kernel
/-- R56: the check word of the digits 1 to 9 is the well-known one of CRC-32C. -/
theorem test_crc : crc32c [0x31, 0x32, 0x33, 0x34, 0x35, 0x36, 0x37, 0x38, 0x39] = 0xE3069283 := by decide +kernel
/-- R324: the thread's lane. -/
theorem test_movsr_lane : vOf (.movsr (fm .lane 0 0 (V 0) (Z 1))) base 0 5 = some 5 := by decide +kernel

end Sys2Proof.Tests
end

section
/-! The tag instructions TAGQ, TAGG and RELV (spec/05_registers.md R138 to R140): what a block of V registers changed one by one
holds and how many of its registers it leaves general, what the issue of a word does to the latch of its group, and with them the
results of the three instructions. -/

namespace Sys2Proof.Machine

/-! ### Well-formed words -/

/-- A well-formed word passes the checks of steps 2 and 3 of R26. -/
theorem Instr.wf_checks {e : Env} {i : Instr} {opc : Nat} {f : Fields} (hw : i.wf e = true) (hh : head i = some (opc, f)) :
    encOk e i f = true ∧ scopeOk e i f = true := by
  unfold Instr.wf at hw
  split at hw
  · cases hh
  · rw [hh] at hw
    simp only [Bool.and_eq_true] at hw
    obtain ⟨⟨-, henc⟩, hscope⟩ := hw
    exact ⟨henc, hscope⟩

theorem encOk_dest {e : Env} {i : Instr} {f : Fields} (h : encOk e i f = true) : (shape e i).d.ok e f.d = true := by
  simp only [encOk, Bool.and_eq_true] at h
  simp only [h]

theorem scopeOk_mem {e : Env} {i : Instr} {f : Fields} (h : scopeOk e i f = true) : f.scope ∈ (shape e i).scopes := by
  simp only [scopeOk, Bool.and_eq_true, List.contains_iff_mem] at h
  simp only [h]

/-- A field for an S register or ZERO holds one of the two. -/
theorem uSZ_ok_cases {e : Env} {o : Opnd} (h : uSZ.ok e o = true) : (∃ n, o = .s n) ∨ ∃ n, o = .special n := by
  cases o with
  | s n => exact .inl ⟨n, rfl⟩
  | special n => exact .inr ⟨n, rfl⟩
  | v n q => simp [Use.ok, uSZ] at h
  | x n => simp [Use.ok, uSZ] at h
  | p n => cases h
  | t n => cases h
  | imm w => cases h
  | k n => cases h

/-- TAGQ runs at GROUP scope, and its destination is an S register or ZERO. -/
theorem tagq_wf_fields {e : Env} {f : Fields} (hw : (Instr.tagq f).wf e = true) :
    f.scope = .group ∧ ((∃ n, f.d = .s n) ∨ ∃ n, f.d = .special n) := by
  obtain ⟨henc, hscope⟩ := Instr.wf_checks hw (opc := 0x6A) (f := f) rfl
  have hmem : f.scope ∈ [Scope.group] := scopeOk_mem hscope
  exact ⟨List.mem_singleton.1 hmem, uSZ_ok_cases (encOk_dest henc)⟩

/-! ### The group of the instruction in hand -/

@[simp] theorem Group.modSplit_vreg (g : Group) (k : Nat) (f : Split → Split) (n : Nat) : (g.modSplit k f).vreg n = g.vreg n := by
  rw [Group.modSplit_eq]; rfl

@[simp] theorem Group.modSplit_sreg (g : Group) (k : Nat) (f : Split → Split) (n : Nat) : (g.modSplit k f).sreg n = g.sreg n := by
  rw [Group.modSplit_eq]; rfl

@[simp] theorem Group.modSplit_flags (g : Group) (k : Nat) (f : Split → Split) : (g.modSplit k f).flags = g.flags := by
  rw [Group.modSplit_eq]

@[simp] theorem Group.modSplit_latch (g : Group) (k : Nat) (f : Split → Split) : (g.modSplit k f).latch = g.latch := by
  rw [Group.modSplit_eq]

/-- The group after a change of it and the move to the next word. -/
theorem State.groupOf_advance_modGroup {s : State} {c : Ctx} {g : Group} (h : Group → Group) (hidx : ∀ g, (h g).index = g.index)
    (hg : s.group? c.who.team c.who.group = some g) :
    ((s.modGroup c.who.team c.who.group h).advance c.who).groupOf c =
      (h g).modSplit c.who.split fun x => { x with pc := x.pc + 12, wait := .ready } := by
  have hh : (s.modGroup c.who.team c.who.group h).group? c.who.team c.who.group = some (h g) := by
    rw [State.group?_modGroup _ _ _ _ hidx, hg]; rfl
  rw [State.groupOf, State.advance, State.group?_modSplit, hh]
  rfl

theorem State.index_of_group? {s : State} {id n : Nat} {g : Group} (h : s.group? id n = some g) : g.index = n := by
  obtain ⟨t, -, ht⟩ := Option.bind_eq_some_iff.1 h
  simpa using List.find?_some ht

/-- A word that acts and writes registers of its group's latched block empties the latch as it issues (R213). -/
theorem State.issued_group_latch_none {s : State} {c : Ctx} (hg : s.group? c.who.team c.who.group = some c.g) (ha : c.act ≠ 0)
    (hk : (c.written.all fun x => x.kind == 4) = false) (hm : spansMeet c.written c.g.latchSpan = true) :
    (s.issued c).group? c.who.team c.who.group =
      some { c.g.modSplit c.who.split (fun x => { x with windows := c.windows }) with latch := none } := by
  have hw := s.group?_modSplit c.who fun x => { x with windows := c.windows }
  rw [hg, Option.map_some] at hw
  have hidx := State.index_of_group? hg
  change ((s.modSplit c.who fun x => { x with windows := c.windows }).emptyLatches c).group? c.who.team c.who.group = _
  unfold State.emptyLatches
  unfold Ctx.written at hk hm
  have hspan : (c.g.modSplit c.who.split fun x => { x with windows := c.windows }).latchSpan = c.g.latchSpan := by
    simp [Group.latchSpan]
  simp only [ha, hk, decide_false, Bool.or_false, Bool.false_eq_true, if_false]
  rw [State.group?_modGroups _ _ _ _ (fun g => by split <;> rfl), hw]
  simp [hidx, hspan, hm]

/-! ### The ceiling -/

/-- A register-only instruction that would leave more general registers than the ceiling allows changes none (R127). -/
theorem registers_ceiling {i : Instr} {f : Fields} {s : State} {body : Ctx → Eff} {c : Ctx} {h : Group → Group}
    (hi : Issues s i f c) (hb : body c = .done h) (ho : c.g.overCeiling (h c.g).generals = true) :
    registers i f s body = .next ((s.issued c).raise c (c.fault codeREGCEIL c.act)) := by
  simp only [registers, begin_, attempt_ready hi.inHand hi.sources, hb]
  rw [gate, if_neg hi.active, if_pos ho]

theorem Group.overCeiling_iff {g : Group} {n : Nat} : g.overCeiling n = true ↔ g.ceiling < n ∧ g.generals < n := by
  simp [Group.overCeiling]

/-- The general count goes over the numbers of the V registers. -/
theorem Group.generals_eq_filter_range (g : Group) :
    g.generals = ((List.range 256).filter fun m => (g.vreg m).isGeneral).length := by
  have hv : g.v.toList = (List.range 256).map g.vreg := by
    refine List.ext_getElem (by simp) fun m h1 _ => ?_
    simp only [Vector.length_toList] at h1
    simp [Group.vreg, nth, List.getD_eq_getElem?_getD, h1]
  rw [Group.generals, hv, List.filter_map, List.length_map]
  rfl

theorem length_filter_or {α : Type} (p q : α → Bool) (l : List α) :
    (l.filter fun x => p x || q x).length = (l.filter q).length + (l.filter fun x => p x && !q x).length := by
  simp only [← List.countP_eq_length_filter]
  have hq : (fun x => (p x || q x) && q x) = q := by
    funext x
    cases q x with
    | true => rw [Bool.or_true, Bool.and_self]
    | false => rw [Bool.and_false]
  have hp : (fun x => (p x || q x) && !q x) = fun x => p x && !q x := by
    funext x
    rw [Bool.and_or_distrib_right, Bool.and_not_self, Bool.or_false]
  rw [List.countP_eq_countP_filter_add l _ q, List.countP_filter, List.countP_filter, hq, hp]

/-! ### A block of V registers changed one by one -/

/-- Register m is one of the `len` from `first` on. -/
def inBlock (first len m : Nat) : Bool := decide (first ≤ m) && decide (m < first + len)

/-- How many registers of a block are not general. -/
def Group.shaped (g : Group) (first len : Nat) : Nat :=
  ((List.range 256).filter fun m => inBlock first len m && !(g.vreg m).isGeneral).length

theorem foldl_put_vreg (first len : Nat) (h : VReg → VReg) (g : Group) {m : Nat} (hm : m < 256) :
    ((List.range len).foldl (fun g j => { g with v := put g.v (first + j) (h (g.vreg (first + j))) }) g).vreg m =
      if inBlock first len m then h (g.vreg m) else g.vreg m := by
  induction len with
  | zero =>
    have : inBlock first 0 m = false := by simp [inBlock]
    simp [this]
  | succ len ih =>
    rw [List.range_succ, List.foldl_append, List.foldl_cons, List.foldl_nil]
    by_cases hlast : first + len = m
    · subst hlast
      have hout : inBlock first len (first + len) = false := by simp [inBlock]
      have hin : inBlock first (len + 1) (first + len) = true := by simp [inBlock]
      rw [hout] at ih
      simp only [Bool.false_eq_true, if_false] at ih
      rw [hin, if_pos rfl, ← ih]
      exact nth_put_same _ _ _ hm
    · have hsame : inBlock first (len + 1) m = inBlock first len m := by
        unfold inBlock
        rw [Bool.eq_iff_iff]
        simp only [Bool.and_eq_true, decide_eq_true_eq]
        omega
      rw [hsame, ← ih]
      exact nth_put_other _ _ _ hlast

section
variable {f : Fields} {n : Fin 256} {q : Perm} (hd : f.d = .v n q)
include hd

theorem onBlock_vreg (h : VReg → VReg) (g : Group) {m : Nat} (hm : m < 256) :
    (onBlock f h g).vreg m = if inBlock n.val (immVal f.a) m then h (g.vreg m) else g.vreg m := by
  simp only [onBlock, hd]
  exact foldl_put_vreg _ _ h g hm

theorem onBlock_kept (h : VReg → VReg) (g : Group) :
    RegsKept (spanOf { v := immVal f.a } f.d) g (onBlock f h g) := by
  simp only [onBlock, hd]
  refine RegsKept.foldl _ _ _ fun g j hj => RegsKept.putVreg _ ?_
  have hj' := List.mem_range.1 hj
  simp only [spanOf, show immVal f.a ≠ 0 by omega, if_false]
  exact covers_single _ _ _ _ (by omega) (by omega)

/-- TAGG adds to the count the registers of its block that were not general. -/
theorem onBlock_general_generals (g : Group) :
    (onBlock f (fun r => .general r.lanes) g).generals = g.generals + g.shaped n.val (immVal f.a) := by
  rw [Group.shaped, Group.generals_eq_filter_range, g.generals_eq_filter_range, ← length_filter_or]
  refine congrArg List.length (List.filter_congr fun m hm => ?_)
  rw [onBlock_vreg hd _ _ (List.mem_range.1 hm)]
  cases inBlock n.val (immVal f.a) m with
  | true => rfl
  | false => rfl

/-- RELV makes no register general. -/
theorem onBlock_uniform_generals_le (u : W32) (g : Group) : (onBlock f (fun _ => .uniform u) g).generals ≤ g.generals := by
  rw [Group.generals_eq_filter_range, g.generals_eq_filter_range, ← List.countP_eq_length_filter, ← List.countP_eq_length_filter]
  refine List.countP_mono_left fun m hm hg => ?_
  rw [onBlock_vreg hd _ _ (List.mem_range.1 hm)] at hg
  split at hg
  · cases hg
  · exact hg

/-- TAGG breaks the ceiling where the registers it would make general are too many, and not where there are none (R127). -/
theorem onBlock_general_overCeiling_iff (g : Group) :
    g.overCeiling (onBlock f (fun r => .general r.lanes) g).generals = true ↔
      g.ceiling < g.generals + g.shaped n.val (immVal f.a) ∧ 0 < g.shaped n.val (immVal f.a) := by
  rw [Group.overCeiling_iff, onBlock_general_generals hd, Nat.lt_add_right_iff_pos]

/-- RELV never breaks the ceiling. -/
theorem onBlock_uniform_overCeiling (u : W32) (g : Group) : g.overCeiling (onBlock f (fun _ => .uniform u) g).generals = false := by
  have hle := onBlock_uniform_generals_le hd u g
  rw [Bool.eq_false_iff, ne_eq, Group.overCeiling_iff]
  omega

/-- A tag instruction that changes its block under the ceiling: the frame, the latch and every V register afterwards. -/
theorem registers_onBlock {s : State} {i : Instr} {c : Ctx} {h : VReg → VReg} (hi : Issues s i f c)
    (hw : c.written = spanOf { v := immVal f.a } f.d) (ho : c.g.overCeiling (onBlock f h c.g).generals = false) :
    ∃ t, registers i f s (fun _ => .done (onBlock f h)) = .next t ∧ NextWord s t c c.written ∧
      (∀ l, c.g.latch = some l → spansMeet c.written [⟨l.kind, l.first, l.len⟩] = true → (t.groupOf c).latch = none) ∧
      ∀ m, m < 256 → (t.groupOf c).vreg m = if inBlock n.val (immVal f.a) m then h (c.g.vreg m) else c.g.vreg m := by
  obtain ⟨-, -, -, -, -, hsp, -⟩ := State.ctx_some hi.inHand
  have hg := State.ctx_group hi.inHand
  have hkept := onBlock_kept hd h
  have hidx : ∀ g, (onBlock f h g).index = g.index := fun g => by rw [(hkept g).rest]
  refine ⟨_, registers_done hi.inHand hi.sources rfl hi.active ho hi.kept, ?_, fun l hl hmeet => ?_, fun m hm => ?_⟩
  · rw [hw]
    exact nextWord_of_kept hg hsp hkept
  · have hspan : spansMeet c.written c.g.latchSpan = true := by simpa only [Group.latchSpan, hl] using hmeet
    have hkind : (c.written.all fun x => x.kind == 4) = false := by
      rw [hw, hd, spanOf] at hmeet ⊢
      split at hmeet
      next => cases hmeet
      next hlen => simp [hlen]
    rw [State.groupOf_advance_modGroup _ hidx (State.issued_group_latch_none hg hi.active hkind hspan),
      Group.modSplit_latch, (hkept _).rest]
  · obtain ⟨l, hl⟩ := State.issued_group hg
    rw [State.groupOf_advance_modGroup _ hidx hl, Group.modSplit_vreg, onBlock_vreg hd _ _ hm]
    exact congrArg (fun r => if inBlock n.val (immVal f.a) m then h r else r) (Group.modSplit_vreg ..)

end

/-! ### TAGQ -/

theorem Group.sreg_putS_same (g : Group) {n : Nat} (x : W64) (hn : n < 64) : (g.putS n x).sreg n = x := by
  simp only [Group.putS, Group.sreg, hn, if_true]
  exact nth_put_same _ _ _ hn

@[simp] theorem Group.putS_index (g : Group) (n : Nat) (x : W64) : (g.putS n x).index = g.index := by
  unfold Group.putS
  split
  · rfl
  · split <;> rfl

@[simp] theorem Group.putS_flags (g : Group) (n : Nat) (x : W64) : (g.putS n x).flags = g.flags := by
  unfold Group.putS
  split
  · rfl
  · split <;> rfl

@[simp] theorem Group.drew_index (g : Group) (m : Mask) (n : Nat) : (g.drew m n).index = g.index := rfl
@[simp] theorem Group.drew_flags (g : Group) (m : Mask) (n : Nat) : (g.drew m n).flags = g.flags := rfl
@[simp] theorem Group.drew_sreg (g : Group) (m : Mask) (n k : Nat) : (g.drew m n).sreg k = g.sreg k := rfl
@[simp] theorem Group.raiseFlags_zero (g : Group) : g.raiseFlags 0 = g := by simp [Group.raiseFlags]

/-- The low and high words of a number fill a 64-bit register. -/
theorem wordsTo64_halves (signed : Bool) (x : Nat) :
    wordsTo64 signed [BitVec.ofNat 32 x, BitVec.ofNat 32 (x / 2 ^ 32)] = BitVec.ofNat 64 x := by
  refine BitVec.eq_of_toNat_eq ?_
  simp only [wordsTo64, BitVec.toNat_append, BitVec.toNat_ofNat]
  rw [← Nat.shiftLeft_add_eq_or_of_lt (Nat.mod_lt _ (by decide)), Nat.shiftLeft_eq]
  omega

/-- What TAGQ reports: the code of the tag, the general count and the ceiling. -/
def tagReport (g : Group) (r : VReg) : Nat := r.tagCode + g.generals * 2 ^ 16 + g.ceiling * 2 ^ 32

/-- What TAGQ does to its group: one GROUP-scope write that raises no flag. -/
def putReport (c : Ctx) (g : Group) : Group :=
  let x := tagReport c.g (c.g.word .unsigned c.f.a 0)
  ((g.putGroup c.f.d false { w := [BitVec.ofNat 32 x, BitVec.ofNat 32 (x / 2 ^ 32)] }).raiseFlags 0).drew
    (maskOf (· == c.designated)) 0

theorem putReport_of_s {c : Ctx} {n : Fin 64} (g : Group) (hd : c.f.d = .s n) :
    putReport c g = (g.putS n.val (BitVec.ofNat 64 (tagReport c.g (c.g.word .unsigned c.f.a 0)))).drew
      (maskOf (· == c.designated)) 0 := by
  simp only [putReport, Group.putGroup, hd, wordsTo64_halves, Group.raiseFlags_zero]

theorem putReport_of_special {c : Ctx} {n : Fin 256} (g : Group) (hd : c.f.d = .special n) :
    putReport c g = g.drew (maskOf (· == c.designated)) 0 := by
  simp [putReport, Group.putGroup, hd]

/-- The destination of TAGQ is no V register, so the general count stays. -/
theorem putReport_generals_le {c : Ctx} (g : Group) (hd : (∃ n, c.f.d = .s n) ∨ ∃ n, c.f.d = .special n) :
    (putReport c g).generals ≤ g.generals := by
  obtain ⟨n, h⟩ | ⟨n, h⟩ := hd
  · rw [putReport_of_s g h]
    exact GrowsBy.putS ..
  · rw [putReport_of_special g h]
    exact Nat.le_refl _

theorem putReport_index {c : Ctx} (g : Group) (hd : (∃ n, c.f.d = .s n) ∨ ∃ n, c.f.d = .special n) :
    (putReport c g).index = g.index := by
  obtain ⟨n, h⟩ | ⟨n, h⟩ := hd
  · simp [putReport_of_s g h]
  · simp [putReport_of_special g h]

/-- A TAGQ that runs writes its report and goes on. -/
theorem exec_tagq {s : State} {f : Fields} {c : Ctx} (hr : Runs s (.tagq f) f c) :
    exec (.tagq f) s = .next (((s.issued c).modGroup c.who.team c.who.group (putReport c)).advance c.who) := by
  obtain ⟨-, -, rfl, -, -, -, -⟩ := State.ctx_some hr.issues.inHand
  obtain ⟨hscope, hd⟩ := tagq_wf_fields hr.wf
  have hroom : c.g.generals + vRegs c.written ≤ c.g.ceiling := hr.room
  have hle := putReport_generals_le c.g hd
  refine registers_done (f := c.f) hr.issues.inHand hr.issues.sources ?_ hr.issues.active
    (overCeiling_of_room hroom (by omega)) hr.issues.kept
  simp only [Ctx.write, Ctx.writeBy, if_pos hscope]
  rfl

/-- TAGQ completes, raises no flag and writes its report (R138). -/
theorem tagq_reports {s : State} {f : Fields} {c : Ctx} (hr : Runs s (.tagq f) f c) :
    ∃ t, exec (.tagq f) s = .next t ∧ (t.groupOf c).flags = c.g.flags ∧
      c.gives t 2 false fun _ => tagReport c.g (c.g.word .unsigned f.a 0) := by
  refine ⟨_, exec_tagq hr, ?_⟩
  obtain ⟨-, -, rfl, -, -, -, -⟩ := State.ctx_some hr.issues.inHand
  obtain ⟨l, hl⟩ := State.issued_group (State.ctx_group hr.issues.inHand)
  obtain ⟨-, hd⟩ := tagq_wf_fields hr.wf
  rw [Ctx.gives, State.groupOf_advance_modGroup _ (fun g => putReport_index g hd) hl]
  obtain ⟨n, hs⟩ | ⟨n, hz⟩ := hd
  · rw [putReport_of_s _ hs]
    simp [hs, isScalar, Group.scalar, Group.sreg_putS_same _ _ n.isLt]
  · rw [putReport_of_special _ hz]
    simp [hz, isScalar]

/-! ### Waiting for a source -/

theorem spansMeet_append_right (xs ys zs : List Span) : spansMeet xs (ys ++ zs) = (spansMeet xs ys || spansMeet xs zs) := by
  rw [Bool.eq_iff_iff]
  simp only [spansMeet, List.any_append, List.any_eq_true, Bool.or_eq_true]
  exact ⟨fun ⟨x, hx, h⟩ => h.imp (fun h => ⟨x, hx, h⟩) fun h => ⟨x, hx, h⟩,
    fun h => h.elim (fun ⟨x, hx, h⟩ => ⟨x, hx, .inl h⟩) fun ⟨x, hx, h⟩ => ⟨x, hx, .inr h⟩⟩

/-- A word needs the outstanding results that meet its source A. -/
theorem State.depends_of_srcA {s : State} {c : Ctx}
    (hm : spansMeet (s.pendingSpans c.who.team c.g) (spanOf (shape (groupEnv c.t c.g) c.i).a c.f.a) = true) :
    s.depends c = true := by
  simp [State.depends, issueSpans, allSpans, spansMeet_append_right, hm]

/-- A word whose sources are outstanding waits for them (R21). -/
theorem registers_waits {i : Instr} {f : Fields} {s : State} {body : Ctx → Eff} {c : Ctx} (hc : s.ctx i f = some c)
    (hd : s.depends c = true) : registers i f s body = .next (s.block c.who (.depend i)) := by
  simp [registers, begin_, attempt, hc, hd]

/-- TAGQ waits for an outstanding write of A (R138). -/
theorem tagq_waits {s : State} {f : Fields} {c : Ctx} (hc : s.ctx (.tagq f) f = some c)
    (hm : spansMeet (s.pendingSpans c.who.team c.g) (spanOf (uV 1) f.a) = true) :
    exec (.tagq f) s = .next (s.block c.who (.depend (.tagq f))) := by
  obtain ⟨-, hi, rfl, -, -, -, -⟩ := State.ctx_some hc
  refine registers_waits hc (State.depends_of_srcA ?_)
  rw [hi]
  exact hm

/-! ### The three instructions -/

theorem exec_tagg (f : Fields) (s : State) :
    exec (.tagg f) s = registers (.tagg f) f s fun _ => .done (onBlock f fun r => .general r.lanes) := rfl

theorem exec_relv (f : Fields) (s : State) :
    exec (.relv f) s = registers (.relv f) f s fun _ => .done (onBlock f fun _ => .uniform 0) := rfl

/-- The destination of TAGG and RELV is their block. -/
theorem tagBlock_written {s : State} {i : Instr} {f : Fields} {c : Ctx} (hi : i = .tagg f ∨ i = .relv f)
    (hc : s.ctx i f = some c) : c.written = spanOf { v := immVal f.a } f.d := by
  obtain ⟨-, hci, hcf, -, -, -, -⟩ := State.ctx_some hc
  rw [Ctx.written, hci, hcf]
  obtain rfl | rfl := hi <;> rfl

/-- Settles O24: each instruction is a register-only word, so its effect is that of one write (TAGQ) or of one block of V
registers (TAGG and RELV), and TAGG alone can raise the general count. -/
theorem tagResults : Obligations.TagResults := by
  refine ⟨fun s f c hr => tagq_reports hr, fun s f c hc hm => tagq_waits hc hm, ?_⟩
  intro s f i n q c hmem hd hi _ inside fresh
  have hi' : i = .tagg f ∨ i = .relv f := by simpa using hmem
  have hw := tagBlock_written hi' hi.inHand
  obtain rfl | rfl := hi'
  · have hover := onBlock_general_overCeiling_iff hd c.g
    simp only [true_and, if_true, exec_tagg]
    split
    next hc => exact registers_ceiling hi rfl (hover.2 hc)
    next hc => exact registers_onBlock hd hi hw (Bool.eq_false_iff.2 fun ho => hc (hover.1 ho))
  · simp only [reduceCtorEq, false_and, if_false, exec_relv]
    exact registers_onBlock hd hi hw (onBlock_uniform_overCeiling hd 0 c.g)

end Sys2Proof.Machine
end

section
/-! What a reader finds in one register after a write (spec/05_registers.md R122, R126): the lanes of a mask, a block changed register by
register, a V register after a LANE-scope write, and the registers of the handler. -/

namespace Sys2Proof.Machine

/-! ### Lanes -/

theorem nth_mergeLanes (m : Mask) (new old : Lanes W32) {l : Nat} (hl : l < 32) :
    nth (mergeLanes m new old) l 0 = if m.getLsbD l then nth new l 0 else nth old l 0 :=
  nth_tab _ _ hl

theorem nth_replicate {α : Type} {n : Nat} (x d : α) {i : Nat} (hi : i < n) : nth (Vector.replicate n x) i d = x := by
  simp [nth, List.getD_eq_getElem?_getD, hi]

theorem VReg.nth_lanes (r : VReg) {l : Nat} (hl : l < 32) : nth r.lanes l 0 = r.at l := by
  cases r with
  | uniform u => exact nth_replicate _ _ hl
  | affine b s => exact nth_tab _ _ hl
  | general v => rfl

theorem getLsbD_allLanes {l : Nat} (hl : l < 32) : allLanes.getLsbD l = true := by
  have h : allLanes = BitVec.allOnes 32 := by decide
  rw [h, BitVec.getLsbD_allOnes]
  exact decide_eq_true hl

theorem mem_lanesOf {m : Mask} {l : Nat} : l ∈ lanesOf m ↔ l < 32 ∧ m.getLsbD l = true := by
  simp [lanesOf]

theorem lanesOf_ne_nil {m : Mask} (h : m ≠ 0) : lanesOf m ≠ [] := by
  intro he
  refine h (BitVec.eq_of_getLsbD_eq fun l hl => ?_)
  have hm : l ∉ lanesOf m := by simp [he]
  simpa [mem_lanesOf, hl] using hm

/-- The designated thread of an instruction with a contributor is one of its contributors. -/
theorem Ctx.designated_mem {c : Ctx} (ha : c.act ≠ 0) : c.designated ∈ lanesOf c.act := by
  obtain ⟨x, xs, hx⟩ := List.exists_cons_of_ne_nil (lanesOf_ne_nil ha)
  simp [Ctx.designated, lowest, hx]

theorem Ctx.from_lt {c : Ctx} (ha : c.act ≠ 0) {l : Nat} (hl : l < 32) : c.from_ l < 32 := by
  unfold Ctx.from_
  split
  · exact (mem_lanesOf.1 (Ctx.designated_mem ha)).1
  · exact hl

theorem foldl_add_pow (f : Nat → Bool) (n : Nat) :
    (List.range n).foldl (fun acc l => if f l then acc + 2 ^ l else acc) 0 < 2 ^ n ∧
      ∀ i, i < n → ((List.range n).foldl (fun acc l => if f l then acc + 2 ^ l else acc) 0).testBit i = f i := by
  induction n with
  | zero => exact ⟨by simp, fun i hi => absurd hi (Nat.not_lt_zero i)⟩
  | succ n ih =>
    obtain ⟨hlt, hbit⟩ := ih
    rw [List.range_succ, List.foldl_append, List.foldl_cons, List.foldl_nil]
    generalize (List.range n).foldl (fun acc l => if f l then acc + 2 ^ l else acc) 0 = a at hlt hbit
    refine ⟨by rw [Nat.pow_succ]; split <;> omega, fun i hi => ?_⟩
    by_cases hfn : f n = true
    · rw [if_pos hfn, Nat.add_comm]
      rcases Nat.lt_succ_iff_lt_or_eq.1 hi with h | rfl
      · rw [Nat.testBit_two_pow_add_gt h, hbit i h]
      · rw [Nat.testBit_two_pow_add_eq, Nat.testBit_lt_two_pow hlt, hfn]
        rfl
    · rw [if_neg hfn]
      rcases Nat.lt_succ_iff_lt_or_eq.1 hi with h | rfl
      · exact hbit i h
      · rw [Nat.testBit_lt_two_pow hlt, Bool.eq_false_iff.2 hfn]

theorem getLsbD_maskOf (f : Nat → Bool) {l : Nat} (hl : l < 32) : (maskOf f).getLsbD l = f l := by
  obtain ⟨hlt, hbit⟩ := foldl_add_pow f 32
  rw [maskOf, BitVec.getLsbD_ofNat, hbit l hl, decide_eq_true hl, Bool.true_and]

theorem toNat_maskOf (f : Nat → Bool) :
    (maskOf f).toNat = (List.range 32).foldl (fun acc l => if f l then acc + 2 ^ l else acc) 0 := by
  rw [maskOf, BitVec.toNat_ofNat, Nat.mod_eq_of_lt (foldl_add_pow f 32).1]

/-! ### A block changed register by register -/

theorem foldl_range_other {σ α : Type} {R : σ → Nat → α} {step : σ → Nat → σ}
    (hother : ∀ x j k, k ≠ j → R (step x j) k = R x k) {n k : Nat} (hk : n ≤ k) (x : σ) :
    R ((List.range n).foldl step x) k = R x k := by
  induction n with
  | zero => rfl
  | succ n ih =>
    rw [List.range_succ, List.foldl_append, List.foldl_cons, List.foldl_nil, hother _ _ _ (by omega), ih (by omega)]

/-- Element j of a block after each was changed in turn: what its own change makes of it. -/
theorem foldl_range_at {σ α : Type} {R : σ → Nat → α} {step : σ → Nat → σ} {Q : α → α → Prop}
    (hother : ∀ x j k, k ≠ j → R (step x j) k = R x k) {n j : Nat} (hj : j < n) (h : ∀ x, Q (R x j) (R (step x j) j)) (x : σ) :
    Q (R x j) (R ((List.range n).foldl step x) j) := by
  induction n with
  | zero => exact absurd hj (Nat.not_lt_zero j)
  | succ n ih =>
    rw [List.range_succ, List.foldl_append, List.foldl_cons, List.foldl_nil]
    rcases Nat.lt_succ_iff_lt_or_eq.1 hj with hlt | rfl
    · rw [hother _ _ _ (Nat.ne_of_lt hlt)]
      exact ih hlt
    · rw [← foldl_range_other hother (Nat.le_refl j) x]
      exact h _

/-! ### One V register -/

/-- A result shape describes the lanes of a result: an affine one gives each lane's value. -/
def Form.describes (form : Form) (x : Nat → W32) : Prop :=
  match form with
  | .affine b s => ∀ l, l < 32 → x l = b + BitVec.ofNat 32 l * s
  | _ => True

theorem Group.writeLane_vreg_other (g : Group) {n m : Nat} (act : Mask) (form : Form) (w : Lanes W32) (h : m ≠ n) :
    (g.writeLane n act form w).vreg m = g.vreg m := by
  unfold Group.writeLane
  split
  · rfl
  · split <;> exact nth_put_other _ _ _ (Ne.symm h)

/-- A register after a LANE-scope write of it, lane by lane (R126). -/
theorem Group.writeLane_vreg_at (g : Group) {n l : Nat} {act : Mask} {form : Form} {w : Lanes W32} (hn : n < 256) (hl : l < 32)
    (hf : form.describes fun l => nth w l 0) :
    ((g.writeLane n act form w).vreg n).at l = if act.getLsbD l then nth w l 0 else (g.vreg n).at l := by
  unfold Group.writeLane
  split
  next h0 => simp [h0]
  next =>
    split
    next hall =>
      rw [hall, getLsbD_allLanes hl, if_pos rfl, Group.vreg, nth_put_same _ _ _ hn]
      cases form with
      | uniform =>
        dsimp only
        split
        next hu =>
          have hmem : nth w l 0 ∈ w.toList := by
            simp only [nth, List.getD_eq_getElem?_getD]
            simp [hl]
          exact (beq_iff_eq.1 (List.all_eq_true.1 hu _ hmem)).symm
        next => rfl
      | affine b s => exact (hf l hl).symm
      | general => rfl
    next =>
      rw [Group.vreg, nth_put_same _ _ _ hn]
      exact (nth_mergeLanes _ _ _ hl).trans (by rw [VReg.nth_lanes _ hl])

theorem Group.writeLane_general (g : Group) {n : Nat} {act : Mask} (w : Lanes W32) (hn : n < 256) (ha : act ≠ 0) :
    ∃ x, (g.writeLane n act .general w).vreg n = .general x := by
  unfold Group.writeLane
  rw [if_neg ha]
  split <;> exact ⟨_, nth_put_same _ _ _ hn⟩

/-! ### Vector registers of the handler -/

/-- A vector K register written while the handler runs. -/
theorem Group.putV_handler {g : Group} {h : Handler} (hh : g.handler = some h) (n : Nat) (m : Mask) (w : Lanes W32) :
    g.putV (256 + n) m w false =
      { g with handler := some { h with kv := put h.kv n (mergeLanes m w (nth h.kv n (Vector.replicate 32 0))) } } := by
  unfold Group.putV
  rw [if_neg (by omega), hh]
  simp only [Nat.add_sub_cancel_left]
  rfl

theorem Group.putV_no_handler {g : Group} (hh : g.handler = none) (n : Nat) (m : Mask) (w : Lanes W32) :
    g.putV (256 + n) m w false = g := by
  unfold Group.putV
  rw [if_neg (by omega), hh]

theorem Group.kreg_putV_other (g : Group) {n k : Nat} (m : Mask) (w : Lanes W32) (h : k ≠ n) :
    (g.putV (256 + n) m w false).kreg k = g.kreg k := by
  cases hh : g.handler with
  | none => rw [Group.putV_no_handler hh]
  | some x =>
    rw [Group.putV_handler hh, Group.kreg, Group.kreg, hh]
    exact congrArg VReg.general (nth_put_other _ _ _ (Ne.symm h))

theorem Group.kreg_putV_at (g : Group) {n l : Nat} {m : Mask} {w : Lanes W32} (hh : g.handler.isSome = true) (hn : n < 8)
    (hl : l < 32) :
    ((g.putV (256 + n) m w false).kreg n).at l = if m.getLsbD l then nth w l 0 else (g.kreg n).at l := by
  obtain ⟨x, hx⟩ := Option.isSome_iff_exists.1 hh
  rw [Group.putV_handler hx, Group.kreg, Group.kreg, hx]
  simp only [VReg.at]
  rw [nth_put_same _ _ _ hn, nth_mergeLanes _ _ _ hl]

theorem Group.sreg_putS_handler {g : Group} {n : Nat} (x : W64) (hh : g.handler.isSome = true) (h8 : 8 ≤ n) (hn : n < 16) :
    (g.putS (64 + n) x).sreg (64 + n) = x := by
  obtain ⟨k, hk⟩ := Option.isSome_iff_exists.1 hh
  simp only [Group.putS, Group.sreg, hk, show ¬ 64 + n < 64 by omega, if_false]
  exact nth_put_same _ _ _ (by omega)

end Sys2Proof.Machine
end

section
/-! Destination blocks (spec/05_registers.md R126, R130, R166, R167): the words that a LANE-scope and a GROUP-scope write leave in
each kind of block, a predicate after a write of some lanes, and the number that the words of a result are. -/

namespace Sys2Proof.Machine

theorem Group.isSome_handler_putV (g : Group) (n : Nat) (m : Mask) (w : Lanes W32) :
    (g.putV (256 + n) m w false).handler.isSome = g.handler.isSome := by
  cases hh : g.handler with
  | none => rw [Group.putV_no_handler hh, hh]
  | some x => rw [Group.putV_handler hh]; rfl

/-! ### Destination blocks -/

/-- An operand names a block of n registers that a LANE-scope write reaches, or discards its result. -/
def Group.laneBlock (g : Group) (n : Nat) : Opnd → Prop
  | .v i q => q = .id ∧ i.val + n ≤ 256
  | .x i => i.val + n ≤ 32
  | .k i => g.handler.isSome = true ∧ i.val + n ≤ 8
  | .special _ => True
  | _ => False

/-- An operand names a block of n vector registers or the scalar register that a GROUP-scope write reaches, or discards its
result. -/
def Group.groupBlock (g : Group) (n : Nat) : Opnd → Prop
  | .v i q => q = .id ∧ i.val + n ≤ 256
  | .s _ => True
  | .k i => g.handler.isSome = true ∧ (i.val < 8 → i.val + n ≤ 8)
  | .special _ => True
  | _ => False

theorem Group.word_v_id (g : Group) (k : ImmKind) (i : Fin 256) (j : Nat) : g.word k (.v i .id) j = g.vreg (i.val + j) := rfl

theorem Group.word_k (g : Group) (k : ImmKind) {i : Fin 16} (hi : i.val < 8) (j : Nat) : g.word k (.k i) j = g.kreg (i.val + j) :=
  if_pos hi

/-- Registers of an X block, as a LANE-scope write merges them. -/
theorem foldl_put_merge (i : Nat) (act : Mask) (col : Nat → Lanes W32) (x : Vector (Lanes W32) 32) {n j l : Nat} (hj : j < n)
    (hi : i + n ≤ 32) (hl : l < 32) :
    nth (nth ((List.range n).foldl (fun x j => put x (i + j) (mergeLanes act (col j) (nth x (i + j) (Vector.replicate 32 0)))) x)
        (i + j) (Vector.replicate 32 0)) l 0 =
      if act.getLsbD l then nth (col j) l 0 else nth (nth x (i + j) (Vector.replicate 32 0)) l 0 := by
  refine foldl_range_at (R := fun (x : Vector (Lanes W32) 32) j => nth x (i + j) (Vector.replicate 32 0))
    (Q := fun a b => nth b l 0 = if act.getLsbD l then nth (col j) l 0 else nth a l 0) (fun x a b hab => ?_) hj (fun x => ?_) x
  · exact nth_put_other _ _ _ (by omega)
  · rw [nth_put_same _ _ _ (by omega), nth_mergeLanes _ _ _ hl]

/-- Registers of a vector K block, as either write leaves them. -/
theorem foldl_putV_kreg_at (i : Nat) (act : Mask) (col : Nat → Lanes W32) {g : Group} {n j l : Nat} (hh : g.handler.isSome = true)
    (hj : j < n) (hi : i + n ≤ 8) (hl : l < 32) :
    (((List.range n).foldl (fun g j => g.putV (256 + i + j) act (col j) false) g).kreg (i + j)).at l =
      if act.getLsbD l then nth (col j) l 0 else (g.kreg (i + j)).at l := by
  refine foldl_range_at (R := fun (g : Group) j => (g.handler.isSome, g.kreg (i + j)))
    (Q := fun a b => a.1 = true → b.2.at l = if act.getLsbD l then nth (col j) l 0 else a.2.at l) (fun g a b hab => ?_) hj
    (fun g => ?_) g hh
  · rw [Nat.add_assoc, Group.isSome_handler_putV, Group.kreg_putV_other _ _ _ (by omega)]
  · intro hg
    simp only
    rw [Nat.add_assoc]
    exact Group.kreg_putV_at g hg (by omega) hl

/-- A word of a destination block after a LANE-scope write (R126, R130, R166). -/
theorem Group.putLanes_word_at {g : Group} {d : Opnd} {n : Nat} {act : Mask} {form : Nat → Form} {out : Lanes LaneOut} {j l : Nat}
    (hd : g.laneBlock n d) (hz : ∀ m, d ≠ .special m) (hj : j < n) (hl : l < 32)
    (hf : (form j).describes fun l => (nth out l { w := [] }).w.getD j 0) :
    ((g.putLanes d n act form out).word .unsigned d j).at l =
      if act.getLsbD l then (nth out l { w := [] }).w.getD j 0 else (g.word .unsigned d j).at l := by
  have hcol := nth_tab (fun l => (nth out l { w := [] }).w.getD j 0) (0 : W32) hl
  cases d with
  | v i q =>
    obtain ⟨rfl, hi⟩ := hd
    rw [Group.word_v_id, Group.word_v_id, ← hcol]
    refine foldl_range_at (R := fun (g : Group) j => g.vreg (i.val + j))
      (Q := fun a b => b.at l = if act.getLsbD l then nth (tab 32 fun l => (nth out l { w := [] }).w.getD j 0) l 0 else a.at l)
      (fun g a b hab => ?_) hj (fun g => ?_) g
    · exact Group.writeLane_vreg_other _ _ _ _ (by omega)
    · refine Group.writeLane_vreg_at g (by omega) hl ?_
      cases hform : form j with
      | affine b s =>
        rw [hform] at hf
        exact fun m hm => (nth_tab _ _ hm).trans (hf m hm)
      | uniform => trivial
      | general => trivial
  | x i => exact (foldl_put_merge i.val act _ g.x hj hd hl).trans (by rw [hcol]; rfl)
  | k i =>
    obtain ⟨hh, hi⟩ := hd
    rw [Group.word_k _ _ (by omega), Group.word_k _ _ (by omega), ← hcol]
    exact foldl_putV_kreg_at i.val act _ hh hj hi hl
  | special m => exact absurd rfl (hz m)
  | s i => exact hd.elim
  | p i => exact hd.elim
  | t i => exact hd.elim
  | imm w => exact hd.elim

/-- A word of a vector destination block after a GROUP-scope write: the same in every lane (R126, R167). -/
theorem Group.putGroup_word_at {g : Group} {d : Opnd} {signed : Bool} {out : LaneOut} {j l : Nat}
    (hd : g.groupBlock out.w.length d) (hz : ∀ m, d ≠ .special m) (hs : isScalar d = false) (hj : j < out.w.length) (hl : l < 32) :
    ((g.putGroup d signed out).word .unsigned d j).at l = out.w.getD j 0 := by
  cases d with
  | v i q =>
    obtain ⟨rfl, hi⟩ := hd
    rw [Group.word_v_id]
    refine foldl_range_at (R := fun (g : Group) j => g.vreg (i.val + j)) (Q := fun _ b => b.at l = out.w.getD j 0)
      (fun g a b hab => ?_) hj (fun g => ?_) g
    · exact nth_put_other _ _ _ (by omega)
    · simp only [Group.vreg, nth_put_same _ _ _ (show i.val + j < 256 by omega), VReg.at]
  | k i =>
    obtain ⟨hh, hi⟩ := hd
    have h8 : i.val < 8 := by simpa [isScalar] using hs
    rw [Group.word_k _ _ h8]
    simp only [Group.putGroup, if_pos h8]
    rw [foldl_putV_kreg_at i.val allLanes _ hh hj (hi h8) hl, getLsbD_allLanes hl, if_pos rfl, nth_replicate _ _ hl]
  | s i => cases hs
  | special m => exact absurd rfl (hz m)
  | x i => exact hd.elim
  | p i => exact hd.elim
  | t i => exact hd.elim
  | imm w => exact hd.elim

/-- The scalar register of a GROUP-scope write. -/
theorem Group.putGroup_scalar {g : Group} {d : Opnd} {n : Nat} {signed : Bool} {out : LaneOut} (hd : g.groupBlock n d)
    (hs : isScalar d = true) : (g.putGroup d signed out).scalar .unsigned d = wordsTo64 signed out.w := by
  cases d with
  | s i => exact Group.sreg_putS_same g _ i.isLt
  | k i =>
    have h8 : 8 ≤ i.val := by simpa [isScalar] using hs
    simp only [Group.putGroup, if_neg (show ¬ i.val < 8 by omega)]
    exact Group.sreg_putS_handler _ hd.1 h8 i.isLt
  | v i q => cases hs
  | x i => cases hs
  | p i => cases hs
  | t i => cases hs
  | imm w => cases hs
  | special m => cases hs

/-- A predicate after a write of some lanes. -/
theorem Group.pred_putP (g : Group) {n : Nat} (m x : Mask) (hn : n < 7) {l : Nat} (hl : l < 32) :
    ((g.putP n m x).pred n).getLsbD l = if m.getLsbD l then x.getLsbD l else (g.pred n).getLsbD l := by
  simp only [Group.putP, Group.pred, if_pos hn, nth_put_same _ _ _ hn, BitVec.getLsbD_or, BitVec.getLsbD_and, BitVec.getLsbD_not, hl]
  cases m.getLsbD l <;> simp

/-! ### The value of a block -/

/-- The number that the words of a result are. -/
def blockVal : List W32 → Nat
  | [] => 0
  | [a] => a.toNat
  | a :: b :: _ => (b ++ a : W64).toNat

theorem blockVal_wordsOf {n x : Nat} (hn : n = 1 ∨ n = 2) (hx : x < 2 ^ (32 * n)) : blockVal (wordsOf n x) = x := by
  rcases hn with rfl | rfl
  · exact (BitVec.toNat_ofNat _ _).trans (Nat.mod_eq_of_lt hx)
  · have h := wordsTo64_halves false x
    simp only [wordsTo64] at h
    simp only [wordsOf, blockVal, show ¬ (2 = 1) by decide, if_false, h, BitVec.toNat_ofNat]
    exact Nat.mod_eq_of_lt hx

@[simp] theorem length_wordsOf (n x : Nat) : (wordsOf n x).length = if n = 1 then 1 else 2 := by
  unfold wordsOf
  split <;> rfl

theorem Group.value_one (g : Group) (k : ImmKind) (o : Opnd) (l : Nat) : g.value k o 1 l = ((g.word k o 0).at l).toNat := rfl

theorem Group.value_two (g : Group) (k : ImmKind) (o : Opnd) (l : Nat) :
    g.value k o 2 l = ((g.word k o 1).at l ++ (g.word k o 0).at l : W64).toNat := rfl

/-- A block whose words are those of a result holds its number. -/
theorem Group.value_eq_blockVal {g : Group} {k : ImmKind} {o : Opnd} {l : Nat} {w : List W32} (hn : w.length = 1 ∨ w.length = 2)
    (h : ∀ j, j < w.length → (g.word k o j).at l = w.getD j 0) : g.value k o w.length l = blockVal w := by
  match w, hn with
  | [a], _ => rw [List.length_singleton, Group.value_one, h 0 (by simp)]; rfl
  | [a, b], _ =>
    change g.value k o 2 l = _
    rw [Group.value_two, h 0 (by simp), h 1 (by simp)]
    rfl

/-- Two groups whose blocks hold the same words in a lane hold the same value there. -/
theorem Group.value_congr {g g' : Group} {k : ImmKind} {o : Opnd} {n l : Nat} (hn : n = 1 ∨ n = 2)
    (h : ∀ j, j < n → (g.word k o j).at l = (g'.word k o j).at l) : g.value k o n l = g'.value k o n l := by
  rcases hn with rfl | rfl
  · rw [Group.value_one, Group.value_one, h 0 (by omega)]
  · rw [Group.value_two, Group.value_two, h 0 (by omega), h 1 (by omega)]

/-- A result as it fills a 64-bit register (R167). -/
theorem wordsTo64_eq (signed : Bool) {w : List W32} (hn : w.length = 1 ∨ w.length = 2) :
    wordsTo64 signed w = if w.length = 1 && signed then sext64 32 (blockVal w) else BitVec.ofNat 64 (blockVal w) := by
  match w, hn with
  | [a], _ =>
    cases signed with
    | true =>
      refine BitVec.eq_of_toInt_eq ?_
      simp only [wordsTo64, List.length_singleton, decide_true, Bool.and_self, if_true, blockVal, sext64, toSigned]
      rw [BitVec.toInt_signExtend_of_le (by omega), BitVec.toInt_ofInt, BitVec.toInt_eq_toNat_bmod]
      have := a.isLt
      simp only [Int.bmod, Nat.mod_eq_of_lt this]
      split <;> split <;> omega
    | false => exact BitVec.eq_of_toNat_eq (by simp [wordsTo64, blockVal])
  | [a, b], _ => simp [wordsTo64, blockVal]

end Sys2Proof.Machine
end

section
/-! The group after one write (spec/05_registers.md R126, R127): which operands an entry's destination accepts and that the write
reaches them, the state that a register-only instruction leaves, and the flags that its result joins to its group's. -/

namespace Sys2Proof.Machine

/-! ### The forms of a destination -/

/-- A field that accepts, at a scope, blocks of n registers: vector ones at LANE scope, those and a scalar register at GROUP
scope, and beside them ZERO. -/
structure BlockUse (sc : Scope) (u : Use) (n : Nat) : Prop where
  v : u.v = n
  pos : 0 < n
  lane : sc ≠ .group → u.s = 0 ∧ (u.x = 0 ∨ u.x = n)
  group : sc = .group → u.x = 0
  others : u.p = false ∧ u.t = false ∧ u.imm = false ∧ u.opt = false ∧ u.spec = false

theorem BlockUse.of_group {u : Use} {n : Nat} (hv : u.v = n) (hn : 0 < n) (hx : u.x = 0)
    (ho : u.p = false ∧ u.t = false ∧ u.imm = false ∧ u.opt = false ∧ u.spec = false) : BlockUse .group u n :=
  ⟨hv, hn, fun h => absurd rfl h, fun _ => hx, ho⟩

theorem BlockUse.of_lane {u : Use} {n : Nat} (hv : u.v = n) (hn : 0 < n) (hs : u.s = 0) (hx : u.x = 0)
    (ho : u.p = false ∧ u.t = false ∧ u.imm = false ∧ u.opt = false ∧ u.spec = false) : BlockUse .lane u n :=
  ⟨hv, hn, fun _ => ⟨hs, .inl hx⟩, fun _ => hx, ho⟩

theorem dst_blockUse {f : Fields} {n : Nat} (hs : f.scope ∈ lnGp) (hn : 0 < n) : BlockUse f.scope (dst f n) n := by
  have hcase : f.scope = .lane ∨ f.scope = .group := by simpa [lnGp] using hs
  rcases hcase with h | h
  · exact ⟨rfl, hn, fun _ => by simp [dst, h], fun hg => by simp [h] at hg, ⟨rfl, rfl, rfl, rfl, rfl⟩⟩
  · exact ⟨rfl, hn, fun hg => absurd h hg, fun _ => by simp [dst, h], ⟨rfl, rfl, rfl, rfl, rfl⟩⟩

section
variable {sc : Scope} {u : Use} {n : Nat} {t : Team} {g : Group} {d : Opnd}
variable (hu : BlockUse sc u n) (hok : u.ok (groupEnv t g) d = true) (hq : Opnd.noPerm d = true)
include hu hok hq

/-- An accepted destination of LANE scope is a block that a LANE-scope write reaches. -/
theorem BlockUse.laneBlock (hs : sc ≠ .group) : g.laneBlock n d := by
  obtain ⟨hv, hpos, hlane, -, hp, ht, himm, hopt, -⟩ := hu
  obtain ⟨h1, hx⟩ := hlane hs
  have hv0 : u.v ≠ 0 := by omega
  cases d with
  | v i q => simp_all [Use.ok, Opnd.noPerm, Group.laneBlock]
  | x i =>
    simp only [Use.ok, Bool.and_eq_true, decide_eq_true_eq] at hok
    obtain ⟨⟨⟨h0, -⟩, -⟩, hle⟩ := hok
    have hle' : i.val + n ≤ 32 := by omega
    exact hle'
  | k i =>
    simp only [Use.ok, Bool.and_eq_true] at hok
    obtain ⟨⟨-, hk⟩, hc⟩ := hok
    refine ⟨hk, ?_⟩
    split at hc
    · simp only [Bool.and_eq_true, decide_eq_true_eq] at hc
      omega
    · simp [h1] at hc
  | special i => trivial
  | s i => simp [Use.ok, h1] at hok
  | p i => simp [Use.ok, hp] at hok
  | t i => simp [Use.ok, ht] at hok
  | imm w => simp [Use.ok, himm] at hok

/-- An accepted destination of GROUP scope is a block that a GROUP-scope write reaches. -/
theorem BlockUse.groupBlock (hs : sc = .group) : g.groupBlock n d := by
  obtain ⟨hv, hpos, -, hgroup, hp, ht, himm, hopt, -⟩ := hu
  have hx := hgroup hs
  have hv0 : u.v ≠ 0 := by omega
  cases d with
  | v i q => simp_all [Use.ok, Opnd.noPerm, Group.groupBlock]
  | x i => simp [Use.ok, hx] at hok
  | k i =>
    simp only [Use.ok, Bool.and_eq_true] at hok
    obtain ⟨⟨-, hk⟩, hc⟩ := hok
    refine ⟨hk, fun h8 => ?_⟩
    rw [if_pos h8] at hc
    simp only [Bool.and_eq_true, decide_eq_true_eq] at hc
    omega
  | special i => trivial
  | s i => trivial
  | p i => simp [Use.ok, hp] at hok
  | t i => simp [Use.ok, ht] at hok
  | imm w => simp [Use.ok, himm] at hok

/-- The registers that the entry gives such a destination are those that the write reaches. -/
theorem BlockUse.fits (grp : Bool) (hg : grp = true ↔ sc = .group) : Fits u d n grp := by
  refine ⟨fun i q _ => Nat.le_of_eq hu.v.symm, fun h i hd => ?_, fun h i hd => ?_, fun i hd h8 => Nat.le_of_eq hu.v.symm,
    fun h i hd h8 => ?_⟩
  · subst hd
    have hsc : sc ≠ .group := fun e => by simp [hg.2 e] at h
    obtain ⟨-, h0 | hx⟩ := hu.lane hsc
    · simp [Use.ok, h0] at hok
    · omega
  · subst hd
    simp only [Use.ok, Bool.and_eq_true, decide_eq_true_eq] at hok
    exact hok.1
  · subst hd
    simp only [Use.ok, if_neg (show ¬ i.val < 8 by omega), Bool.and_eq_true, decide_eq_true_eq] at hok
    obtain ⟨-, h0, -⟩ := hok
    exact h0

end

theorem encOk_noPerm {e : Env} {i : Instr} {f : Fields} (h : encOk e i f = true) : Opnd.noPerm f.d = true := by
  simp only [encOk, Bool.and_eq_true] at h
  simp only [h]

theorem encOk_ok {e : Env} {i : Instr} {f : Fields} (h : encOk e i f = true) : (shape e i).ok = true := by
  simp only [encOk, Bool.and_eq_true] at h
  simp only [h]

/-- A word whose DT, SUB or XM its entry does not permit is not well formed. -/
theorem Instr.wf_of_not_ok {e : Env} {i : Instr} {f : Fields} {opc : Nat} (hh : head i = some (opc, f)) (h : (shape e i).ok = false) :
    i.wf e = false := by
  rw [Bool.eq_false_iff]
  intro hw
  rw [encOk_ok (Instr.wf_checks hw hh).1] at h
  cases h

/-- A word at a scope that its entry does not permit is not well formed. -/
theorem Instr.wf_of_scope_not_mem {e : Env} {i : Instr} {f : Fields} {opc : Nat} (hh : head i = some (opc, f))
    (h : f.scope ∉ (shape e i).scopes) : i.wf e = false := by
  rw [Bool.eq_false_iff]
  intro hw
  exact h (scopeOk_mem (Instr.wf_checks hw hh).2)

/-! ### The state that a register-only instruction leaves -/

@[simp] theorem Group.modSplit_word (g : Group) (n : Nat) (h : Split → Split) (k : ImmKind) (o : Opnd) (j : Nat) :
    (g.modSplit n h).word k o j = g.word k o j := by
  rw [Group.modSplit_eq]
  rfl

@[simp] theorem Group.modSplit_value (g : Group) (m : Nat) (h : Split → Split) (k : ImmKind) (o : Opnd) (n l : Nat) :
    (g.modSplit m h).value k o n l = g.value k o n l := by
  simp [Group.value]

@[simp] theorem Group.modSplit_scalar (g : Group) (n : Nat) (h : Split → Split) (k : ImmKind) (o : Opnd) :
    (g.modSplit n h).scalar k o = g.scalar k o := by
  rw [Group.modSplit_eq]
  rfl

@[simp] theorem Group.modSplit_pred (g : Group) (m : Nat) (h : Split → Split) (n : Nat) : (g.modSplit m h).pred n = g.pred n := by
  rw [Group.modSplit_eq]
  rfl

@[simp] theorem Group.modSplit_handler (g : Group) (n : Nat) (h : Split → Split) : (g.modSplit n h).handler = g.handler := by
  rw [Group.modSplit_eq]

/-- The group as a word that has issued finds it: its windows have moved, its latch has become l. -/
def Ctx.start (c : Ctx) (l : Option Latch) : Group :=
  { c.g.modSplit c.who.split (fun x => { x with windows := c.windows }) with latch := l }

@[simp] theorem Ctx.start_word (c : Ctx) (l : Option Latch) (k : ImmKind) (o : Opnd) (j : Nat) :
    (c.start l).word k o j = c.g.word k o j :=
  Group.modSplit_word ..

@[simp] theorem Ctx.start_pred (c : Ctx) (l : Option Latch) (n : Nat) : (c.start l).pred n = c.g.pred n := Group.modSplit_pred ..

@[simp] theorem Ctx.start_flags (c : Ctx) (l : Option Latch) : (c.start l).flags = c.g.flags := Group.modSplit_flags ..

@[simp] theorem Ctx.start_handler (c : Ctx) (l : Option Latch) : (c.start l).handler = c.g.handler := Group.modSplit_handler ..

/-- The split moves past its word. -/
def Split.next (x : Split) : Split := { x with pc := x.pc + 12, wait := .ready }

/-- A word that its split may issue, whose effect keeps all but its destination: what its group becomes. -/
theorem registers_run {s : State} {i : Instr} {f : Fields} {c : Ctx} {body : Ctx → Eff} {h : Group → Group} {k : Nat}
    (hr : Runs s i f c) (hb : body c = .done h) (ht : Tame c.written k h) (hk : k ≤ vRegs c.written) :
    ∃ t l, registers i f s body = .next t ∧ NextWord s t c c.written ∧
      t.groupOf c = (h (c.start l)).modSplit c.who.split Split.next := by
  obtain ⟨-, -, -, -, -, hsp, -⟩ := State.ctx_some hr.issues.inHand
  have hg := State.ctx_group hr.issues.inHand
  obtain ⟨l, hl⟩ := State.issued_group hg
  have hroom : c.g.generals + vRegs c.written ≤ c.g.ceiling := hr.room
  have hgrows : (h c.g).generals ≤ c.g.generals + k := ht.grows c.g
  exact ⟨_, l, registers_done hr.issues.inHand hr.issues.sources hb hr.issues.active
    (overCeiling_of_room hroom (by omega)) hr.issues.kept, nextWord_of_kept hg hsp ht.kept,
    State.groupOf_advance_modGroup _ (fun g => by rw [(ht.kept g).rest]) hl⟩

/-! ### One write -/

/-- What a result written by the scope makes of its group. -/
def Ctx.result (c : Ctx) (n : Nat) (form : Nat → Form) (signed : Bool) (draws : Nat) (out : Nat → LaneOut) (g : Group) : Group :=
  if c.f.scope = .group then
    ((g.putGroup c.f.d signed (out c.designated)).raiseFlags (out c.designated).flags).drew (maskOf (· == c.designated)) draws
  else
    ((g.putLanes c.f.d n c.act form (tab 32 out)).raiseFlags
      ((lanesOf c.act).foldl (fun acc l => acc ||| (nth (tab 32 out) l { w := [] }).flags) 0)).drew c.act draws

section
variable {c : Ctx} {n : Nat} {form : Nat → Form} {signed : Bool} {draws : Nat} {out : Nat → LaneOut}

theorem Ctx.writeBy_eq : c.writeBy n form signed draws out = .done (c.result n form signed draws out) := by
  unfold Ctx.writeBy Ctx.result
  split <;> rfl

/-- A result keeps all but its destination. -/
theorem Ctx.result_tame (u : Use) (hn : ∀ l, (out l).w.length = n) (hl : c.f.scope ≠ .group → Fits u c.f.d n false)
    (hg : c.f.scope = .group → Fits u c.f.d n true) :
    Tame (spanOf u c.f.d) (grownBy c.f.d n) (c.result n form signed draws out) := by
  obtain ⟨h, he, ht⟩ := writeBy_tame (form := form) (signed := signed) (draws := draws) u hn hl hg
  rw [Ctx.writeBy_eq] at he
  cases he
  exact ht

@[simp] theorem Group.drew_word (g : Group) (m : Mask) (n : Nat) (k : ImmKind) (o : Opnd) (j : Nat) :
    (g.drew m n).word k o j = g.word k o j := rfl

@[simp] theorem Group.drew_pred (g : Group) (m : Mask) (n k : Nat) : (g.drew m n).pred k = g.pred k := rfl

@[simp] theorem Group.raiseFlags_word (g : Group) (n : Nat) (k : ImmKind) (o : Opnd) (j : Nat) :
    (g.raiseFlags n).word k o j = g.word k o j := rfl

@[simp] theorem Group.raiseFlags_pred (g : Group) (n k : Nat) : (g.raiseFlags n).pred k = g.pred k := rfl

@[simp] theorem Group.raiseFlags_flags (g : Group) (n : Nat) : (g.raiseFlags n).flags = g.flags ||| BitVec.ofNat 32 n := rfl

theorem Group.putV_flags (g : Group) (n : Nat) (m : Mask) (w : Lanes W32) (u : Bool) : (g.putV n m w u).flags = g.flags := by
  unfold Group.putV
  split
  · split <;> rfl
  · split <;> rfl

theorem Group.putP_flags (g : Group) (n : Nat) (m x : Mask) : (g.putP n m x).flags = g.flags := by
  unfold Group.putP
  split <;> rfl

theorem Group.writeLane_flags (g : Group) (n : Nat) (act : Mask) (form : Form) (w : Lanes W32) :
    (g.writeLane n act form w).flags = g.flags := by
  unfold Group.writeLane
  split
  · rfl
  · split <;> rfl

theorem foldl_flags {step : Group → Nat → Group} (h : ∀ g j, (step g j).flags = g.flags) (l : List Nat) (g : Group) :
    (l.foldl step g).flags = g.flags := by
  induction l generalizing g with
  | nil => rfl
  | cons x xs ih => rw [List.foldl_cons, ih, h]

@[simp] theorem Group.putLanes_flags (g : Group) (d : Opnd) (n : Nat) (act : Mask) (form : Nat → Form) (out : Lanes LaneOut) :
    (g.putLanes d n act form out).flags = g.flags := by
  cases d
  case v => exact foldl_flags (fun g j => Group.writeLane_flags ..) _ g
  case k => exact foldl_flags (fun g j => Group.putV_flags ..) _ g
  case p => exact Group.putP_flags ..
  all_goals rfl

@[simp] theorem Group.putGroup_flags (g : Group) (d : Opnd) (signed : Bool) (out : LaneOut) :
    (g.putGroup d signed out).flags = g.flags := by
  cases d
  case v =>
    unfold Group.putGroup
    exact foldl_flags (fun _ _ => by rfl) _ g
  case k =>
    unfold Group.putGroup
    dsimp only
    split
    · exact foldl_flags (fun g j => Group.putV_flags ..) _ g
    · exact Group.putS_flags ..
  case s => exact Group.putS_flags ..
  case p => exact Group.putP_flags ..
  all_goals rfl

theorem foldl_congr_flags {l : List Nat} {x y : Nat → Nat} (h : ∀ k, k ∈ l → x k = y k) (a : Nat) :
    l.foldl (fun acc k => acc ||| x k) a = l.foldl (fun acc k => acc ||| y k) a := by
  induction l generalizing a with
  | nil => rfl
  | cons k ks ih =>
    rw [List.foldl_cons, List.foldl_cons, h k (List.mem_cons_self ..), ih fun j hj => h j (List.mem_cons_of_mem _ hj)]

/-- A result joins the flags of the threads that computed it to its group's (R161). -/
theorem Ctx.result_flags (g : Group) :
    (c.result n form signed draws out g).flags = g.flags ||| BitVec.ofNat 32
      (if c.f.scope = .group then (out c.designated).flags else (lanesOf c.act).foldl (fun acc l => acc ||| (out l).flags) 0) := by
  unfold Ctx.result
  split
  · simp
  · rw [Group.drew_flags, Group.raiseFlags_flags, Group.putLanes_flags]
    exact congrArg (fun x => g.flags ||| BitVec.ofNat 32 x)
      (foldl_congr_flags (fun l hl => by rw [nth_tab _ _ (mem_lanesOf.1 hl).1]) 0)

end

end Sys2Proof.Machine
end

section
/-! What an instruction whose whole effect is one write leaves in its destination (spec/05_registers.md R126, R167): one rule for a
block of registers and one for a predicate. -/

namespace Sys2Proof.Machine

section
variable {s : State} {i : Instr} {f : Fields} {c : Ctx}

theorem Ctx.written_eq (hc : s.ctx i f = some c) : c.written = spanOf (shape (groupEnv c.t c.g) i).d f.d := by
  obtain ⟨-, hi, hf, -, -, -, -⟩ := State.ctx_some hc
  rw [Ctx.written, hi, hf]
  rfl

/-- A word of a well-formed instruction passes the checks of its entry. -/
theorem Runs.checks (hr : Runs s i f c) {opc : Nat} (hh : head i = some (opc, f)) :
    (shape (groupEnv c.t c.g) i).ok = true ∧ (shape (groupEnv c.t c.g) i).d.ok (groupEnv c.t c.g) f.d = true ∧
      Opnd.noPerm f.d = true ∧ f.scope ∈ (shape (groupEnv c.t c.g) i).scopes := by
  obtain ⟨henc, hscope⟩ := Instr.wf_checks hr.wf hh
  exact ⟨encOk_ok henc, encOk_dest henc, encOk_noPerm henc, scopeOk_mem hscope⟩

variable {body : Ctx → Eff} {n : Nat} {form : Nat → Form} {signed : Bool} {draws : Nat} {out : Nat → LaneOut} {opc : Nat}

/-- A register-only instruction whose effect is one write of a block of n registers: the state it leaves. -/
theorem registers_writeBy (hr : Runs s i f c) (hh : head i = some (opc, f)) (hb : body c = c.writeBy n form signed draws out)
    (hu : BlockUse f.scope (shape (groupEnv c.t c.g) i).d n) (hlen : ∀ l, (out l).w.length = n) :
    ∃ t l, registers i f s body = .next t ∧ NextWord s t c c.written ∧
      t.groupOf c = (c.result n form signed draws out (c.start l)).modSplit c.who.split Split.next := by
  obtain ⟨-, hok, hq, -⟩ := hr.checks hh
  have hw := Ctx.written_eq hr.issues.inHand
  obtain ⟨-, -, rfl, -, -, -, -⟩ := State.ctx_some hr.issues.inHand
  have hfits := fun grp hg => hu.fits hok hq grp hg
  have hle : grownBy c.f.d n ≤ vRegs c.written := by
    rw [hw]
    by_cases hs : c.f.scope = .group
    · exact grownBy_le (hfits true (by simp [hs]))
    · exact grownBy_le (hfits false (by simp [hs]))
  refine registers_run hr (hb.trans Ctx.writeBy_eq) ?_ hle
  rw [hw]
  exact Ctx.result_tame _ hlen (fun hs => hfits false (by simp [hs])) fun hs => hfits true (by simp [hs])

/-- What such a write leaves in its destination (R126, R167). -/
theorem Ctx.gives_result {t : State} {l : Option Latch} (hc : s.ctx i f = some c) (ha : c.act ≠ 0)
    (hlane : f.scope ≠ .group → c.g.laneBlock n f.d) (hgroup : f.scope = .group → c.g.groupBlock n f.d)
    (hn : n = 1 ∨ n = 2) (hlen : ∀ l, (out l).w.length = n)
    (hform : ∀ j, j < n → (form j).describes fun l => (out l).w.getD j 0)
    (ht : t.groupOf c = (c.result n form signed draws out (c.start l)).modSplit c.who.split Split.next) :
    c.gives t n signed fun l => blockVal (out l).w := by
  obtain ⟨-, -, rfl, -, -, -, -⟩ := State.ctx_some hc
  have hdes := (mem_lanesOf.1 (Ctx.designated_mem ha)).1
  unfold Ctx.gives
  rw [ht]
  by_cases hs : c.f.scope = .group
  · have hblock : (c.start l).groupBlock (out c.designated).w.length c.f.d := by
      rw [hlen]
      have := hgroup hs
      cases hd : c.f.d <;> simp_all [Group.groupBlock]
    have hwl : (out c.designated).w.length = 1 ∨ (out c.designated).w.length = 2 := by rwa [hlen]
    split
    next hsc =>
      rw [Group.modSplit_scalar, Ctx.result, if_pos hs]
      have h := wordsTo64_eq signed hwl
      rw [hlen] at h
      exact (Group.putGroup_scalar hblock hsc).trans h
    next hsc =>
      split
      next => trivial
      next hz =>
        intro k hk
        have hp : c.puts k = true := by simp [Ctx.puts, hs]
        have hf : c.from_ k = c.designated := by simp [Ctx.from_, hs]
        rw [if_pos hp, hf, Group.modSplit_value, ← hlen c.designated]
        refine Group.value_eq_blockVal hwl fun j hj => ?_
        rw [Ctx.result, if_pos hs, Group.drew_word, Group.raiseFlags_word]
        exact Group.putGroup_word_at hblock hz (Bool.eq_false_iff.2 hsc) hj hk
  · have hblock : (c.start l).laneBlock n c.f.d := by
      have := hlane hs
      cases hd : c.f.d <;> simp_all [Group.laneBlock]
    have hsc : isScalar c.f.d = false := by
      cases hd : c.f.d with
      | s m => rw [hd] at hblock; exact hblock.elim
      | k m =>
        rw [hd] at hblock
        have hm : m.val + n ≤ 8 := hblock.2
        simp only [isScalar, decide_eq_false_iff_not]
        omega
      | _ => rfl
    rw [if_neg (by simp [hsc])]
    split
    next => trivial
    next hz =>
      intro k hk
      have hp : c.puts k = c.act.getLsbD k := by simp [Ctx.puts, hs]
      have hf : c.from_ k = k := by simp [Ctx.from_, hs]
      have hword : ∀ j, j < n → ((c.result n form signed draws out (c.start l)).word .unsigned c.f.d j).at k =
          if c.act.getLsbD k then (out k).w.getD j 0 else (c.g.word .unsigned c.f.d j).at k := by
        intro j hj
        rw [Ctx.result, if_neg hs, Group.drew_word, Group.raiseFlags_word, Group.putLanes_word_at hblock hz hj hk,
          nth_tab _ _ hk, Ctx.start_word]
        have hd := hform j hj
        cases hfj : form j with
        | affine b st =>
          rw [hfj] at hd
          exact fun m hm => (congrArg (fun o : LaneOut => o.w.getD j 0) (nth_tab _ _ hm)).trans (hd m hm)
        | uniform => trivial
        | general => trivial
      rw [hp, hf, Group.modSplit_value]
      split
      next hact =>
        rw [← hlen k]
        refine Group.value_eq_blockVal (by rwa [hlen]) fun j hj => ?_
        rw [hlen] at hj
        rw [hlen, hword j hj, if_pos hact]
      next hact => exact Group.value_congr hn fun j hj => by rw [hword j hj, if_neg hact]

/-- A register-only instruction whose effect is one write: it completes, raises the flags of the threads that computed, and its
destination holds the results. -/
theorem registers_gives (hr : Runs s i f c) (hh : head i = some (opc, f)) (hb : body c = c.writeBy n form signed draws out)
    (hu : BlockUse f.scope (shape (groupEnv c.t c.g) i).d n) (hn : n = 1 ∨ n = 2) (hlen : ∀ l, (out l).w.length = n)
    (hform : ∀ j, j < n → (form j).describes fun l => (out l).w.getD j 0) :
    ∃ t, registers i f s body = .next t ∧ NextWord s t c c.written ∧ c.flagged t (fun l => (out l).flags) ∧
      c.gives t n signed fun l => blockVal (out l).w := by
  obtain ⟨-, hok, hq, -⟩ := hr.checks hh
  obtain ⟨t, l, ht, hnext, hg⟩ := registers_writeBy hr hh hb hu hlen
  refine ⟨t, ht, hnext, ?_, Ctx.gives_result hr.issues.inHand hr.issues.active (hu.laneBlock hok hq) (hu.groupBlock hok hq) hn hlen
    hform hg⟩
  rw [Ctx.flagged, hg, Group.modSplit_flags, Ctx.result_flags, Ctx.start_flags]

theorem Ctx.gives_congr {t : State} {x y : Nat → Nat} (ha : c.act ≠ 0) (hx : ∀ l, l < 32 → x l = y l) (h : c.gives t n signed x) :
    c.gives t n signed y := by
  unfold Ctx.gives at h ⊢
  rw [← hx _ (mem_lanesOf.1 (Ctx.designated_mem ha)).1]
  split
  next hs => rwa [if_pos hs] at h
  next hs =>
    rw [if_neg hs] at h
    split
    next => trivial
    next hz =>
      intro l hl
      rw [← hx _ (Ctx.from_lt ha hl)]
      split at h
      next hd => exact absurd hd (hz _)
      next => exact h l hl

/-- A word that raises no flag leaves the flag word. -/
theorem Ctx.flags_of_flagged_zero {t : State} (h : c.flagged t fun _ => 0) : (t.groupOf c).flags = c.g.flags := by
  have hzero : ∀ l : List Nat, l.foldl (fun acc _ => acc ||| 0) 0 = 0 := by
    intro l
    induction l with
    | nil => rfl
    | cons x xs ih => exact ih
  rw [h, hzero, ite_self]
  exact BitVec.or_zero

/-! ### Predicates -/

/-- An accepted destination that is a predicate. -/
theorem uP_ok {e : Env} {o : Opnd} (h : uP.ok e o = true) : ∃ n, o = .p n := by
  cases o with
  | p n => exact ⟨n, rfl⟩
  | v n q => simp [Use.ok, uP] at h
  | s n => simp [Use.ok, uP] at h
  | x n => simp [Use.ok, uP] at h
  | t n => simp [Use.ok, uP] at h
  | imm w => simp [Use.ok, uP] at h
  | special n => simp [Use.ok, uP] at h
  | k n => simp [Use.ok, uP] at h

theorem fits_p (u : Use) (m : Fin 8) (n : Nat) (grp : Bool) : Fits u (.p m) n grp :=
  ⟨nofun, nofun, nofun, nofun, nofun⟩

/-- A register-only instruction whose effect is one write of a predicate. -/
theorem registers_givesPred (hr : Runs s i f c) (hh : head i = some (opc, f)) (hb : body c = c.writeBy n form signed draws out)
    (hu : (shape (groupEnv c.t c.g) i).d = uP) (hlen : ∀ l, (out l).w.length = n) :
    ∃ t, registers i f s body = .next t ∧ NextWord s t c c.written ∧ c.flagged t (fun l => (out l).flags) ∧
      c.givesPred t fun l => (out l).p := by
  obtain ⟨-, hok, -, -⟩ := hr.checks hh
  rw [hu] at hok
  obtain ⟨m, hm⟩ := uP_ok hok
  have hw := Ctx.written_eq hr.issues.inHand
  obtain ⟨-, -, rfl, -, -, -, -⟩ := State.ctx_some hr.issues.inHand
  have htame := Ctx.result_tame (c := c) (n := n) (form := form) (signed := signed) (draws := draws) (out := out)
    (shape (groupEnv c.t c.g) i).d hlen (fun _ => by rw [hm]; exact fits_p ..) fun _ => by rw [hm]; exact fits_p ..
  rw [← hw, hm] at htame
  obtain ⟨t, l, ht, hnext, hg⟩ := registers_run hr (hb.trans Ctx.writeBy_eq) htame (Nat.zero_le _)
  refine ⟨t, ht, hnext, ?_, fun k hk => ?_⟩
  · rw [Ctx.flagged, hg, Group.modSplit_flags, Ctx.result_flags, Ctx.start_flags]
  · rw [hm, hg]
    by_cases h7 : m.val = 7
    · exact .inl h7
    · refine .inr ?_
      have hlt : m.val < 7 := by omega
      rw [Group.modSplit_pred, Ctx.result]
      by_cases hs : c.f.scope = .group
      · rw [if_pos hs, Group.drew_pred, Group.raiseFlags_pred, hm]
        have hp : c.puts k = true := by simp [Ctx.puts, hs]
        have hf : c.from_ k = c.designated := by simp [Ctx.from_, hs]
        rw [if_pos hp, hf]
        refine (Group.pred_putP _ _ _ hlt hk).trans ?_
        rw [getLsbD_allLanes hk, if_pos rfl]
        dsimp only
        split
        next ho => rw [ho, getLsbD_allLanes hk]
        next ho =>
          rw [Bool.eq_false_iff.2 ho]
          exact BitVec.getLsbD_zero
      · rw [if_neg hs, Group.drew_pred, Group.raiseFlags_pred, hm]
        have hp : c.puts k = c.act.getLsbD k := by simp [Ctx.puts, hs]
        have hf : c.from_ k = k := by simp [Ctx.from_, hs]
        rw [hp, hf]
        refine (Group.pred_putP _ _ _ hlt hk).trans ?_
        rw [getLsbD_maskOf _ hk, nth_tab _ _ hk, Ctx.start_pred]

/-- The results of contributors alone reach a predicate. -/
theorem Ctx.givesPred_congr_act {t : State} {x y : Nat → Bool} (ha : c.act ≠ 0) (hx : ∀ l, l ∈ lanesOf c.act → x l = y l)
    (h : c.givesPred t x) : c.givesPred t y := by
  intro l hl
  have hmem : c.puts l = true → c.from_ l ∈ lanesOf c.act := by
    intro hp
    by_cases hs : c.f.scope = .group
    · have hf : c.from_ l = c.designated := by simp [Ctx.from_, hs]
      rw [hf]
      exact Ctx.designated_mem ha
    · have hf : c.from_ l = l := by simp [Ctx.from_, hs]
      rw [hf]
      exact mem_lanesOf.2 ⟨hl, by simpa [Ctx.puts, hs] using hp⟩
  have hl' := h l hl
  by_cases hp : c.puts l = true
  · rw [hx _ (hmem hp)] at hl'
    exact hl'
  · simp only [if_neg hp] at hl' ⊢
    exact hl'

theorem Ctx.givesPred_congr {t : State} {x y : Nat → Bool} (ha : c.act ≠ 0) (hx : ∀ l, l < 32 → x l = y l) (h : c.givesPred t x) :
    c.givesPred t y :=
  Ctx.givesPred_congr_act ha (fun l hl => hx l (mem_lanesOf.1 hl).1) h

end

end Sys2Proof.Machine
end

section
/-! The integer sources (spec/07_vector_instructions.md R171 to R173; spec/05_registers.md R124, R125): widths and ranges, the tag
that a source presents, the shape of a result, and the rule of every form that writes words computed lane by lane. -/

namespace Sys2Proof.Machine

/-! ### Values and widths -/

theorem intRegs_cases (dt : Nat) : intRegs dt = 1 ∨ intRegs dt = 2 := by
  unfold intRegs
  split <;> simp

theorem intRegs_pos (dt : Nat) : 0 < intRegs dt := by
  have := intRegs_cases dt
  omega

theorem intWidth_cases (dt : Nat) : intWidth dt = 32 ∨ intWidth dt = 64 := by
  unfold intWidth
  rcases intRegs_cases dt with h | h <;> simp [h]

theorem intWidth_pos (dt : Nat) : 0 < intWidth dt := by
  have := intWidth_cases dt
  omega

theorem Group.value_lt (g : Group) (k : ImmKind) (o : Opnd) {n : Nat} (hn : n = 1 ∨ n = 2) (l : Nat) :
    g.value k o n l < 2 ^ (32 * n) := by
  rcases hn with rfl | rfl
  · exact BitVec.isLt _
  · exact BitVec.isLt _

theorem modified_lt {w x : Nat} (neg abs : Bool) (hx : x < 2 ^ w) : modified w neg abs x < 2 ^ w := by
  have hmod : ∀ y, y % 2 ^ w < 2 ^ w := fun y => Nat.mod_lt _ (Nat.two_pow_pos w)
  unfold modified
  dsimp only
  split
  · exact hmod _
  · split
    · exact hmod _
    · exact hx

theorem Ctx.srcA_lt (c : Ctx) (l : Nat) : c.srcA l < 2 ^ intWidth (dtN c.f) :=
  modified_lt _ _ (Group.value_lt _ _ _ (intRegs_cases _) l)

theorem Ctx.srcB_lt (c : Ctx) (l : Nat) : c.srcB l < 2 ^ intWidth (dtN c.f) :=
  modified_lt _ _ (Group.value_lt _ _ _ (intRegs_cases _) l)

theorem wrap_lt (w : Nat) (x : Int) : wrap w x < 2 ^ w := by
  have h := Int.emod_lt_of_pos x (b := ((2 ^ w : Nat) : Int)) (by exact_mod_cast Nat.two_pow_pos w)
  have h0 := Int.emod_nonneg x (b := ((2 ^ w : Nat) : Int)) (by exact_mod_cast Nat.ne_of_gt (Nat.two_pow_pos w))
  unfold wrap
  omega

/-- The representative of x among the w-bit numbers. -/
theorem wrap_eq_of_modEq {w n : Nat} {x : Int} (hn : n < 2 ^ w) (k : Int) (h : x = n + k * (2 ^ w : Nat)) : wrap w x = n := by
  unfold wrap
  rw [h, Int.add_mul_emod_self_right, Int.emod_eq_of_lt (by omega) (by exact_mod_cast hn)]
  rfl

theorem toSigned_eq {w x : Nat} (hx : x < 2 ^ w) :
    toSigned w x = if x < 2 ^ (w - 1) then (x : Int) else (x : Int) - (2 ^ w : Nat) := by
  unfold toSigned
  simp only [Nat.mod_eq_of_lt hx]

theorem wrap_toSigned {w x : Nat} (hx : x < 2 ^ w) : wrap w (toSigned w x) = x := by
  rw [toSigned_eq hx]
  split
  · exact wrap_eq_of_modEq hx 0 (by omega)
  · exact wrap_eq_of_modEq hx (-1) (by omega)

/-- Reading a w-bit number by a type's sign and narrowing it again gives it back. -/
theorem wrap_asInt {dt x : Nat} (hx : x < 2 ^ intWidth dt) : wrap (intWidth dt) (asInt dt x) = x := by
  unfold asInt
  split
  · exact wrap_toSigned hx
  · exact wrap_eq_of_modEq hx 0 (by omega)

theorem asInt_eq_zero {dt x : Nat} (hx : x < 2 ^ intWidth dt) : asInt dt x = 0 ↔ x = 0 := by
  refine ⟨fun h => ?_, fun h => ?_⟩
  · rw [← wrap_asInt hx, h]
    simp [wrap]
  · have : toSigned (intWidth dt) 0 = 0 := by
      rw [toSigned_eq (Nat.two_pow_pos _), if_pos (Nat.two_pow_pos _)]
      rfl
    simp [asInt, h, this]

/-- The values of a w-bit number read as two's complement. -/
theorem toSigned_range {w x : Nat} (hw : 0 < w) (hx : x < 2 ^ w) :
    -((2 ^ (w - 1) : Nat) : Int) ≤ toSigned w x ∧ toSigned w x < ((2 ^ (w - 1) : Nat) : Int) := by
  have hpow := Nat.two_pow_pred_mul_two hw
  rw [toSigned_eq hx]
  split <;> omega

/-! ### The tag of a source -/

/-- A tag that is not general is an affine one, a uniform one of stride 0. -/
theorem VReg.at_eq_base_stride {r : VReg} (h : r.isGeneral = false) (l : Nat) : r.at l = r.base + BitVec.ofNat 32 l * r.stride := by
  cases r with
  | uniform u => simp [VReg.at, VReg.base, VReg.stride]
  | affine b s => rfl
  | general v => cases h

theorem VReg.at_eq_base {r : VReg} (h : r.isUniform = true) (l : Nat) : r.at l = r.base := by
  cases r with
  | uniform u => rfl
  | affine b s => cases h
  | general v => cases h

theorem VReg.negTag_at {r : VReg} (h : r.negTag.isGeneral = false) (l : Nat) : r.isGeneral = false ∧ r.negTag.at l = -r.at l := by
  cases r with
  | uniform u => exact ⟨rfl, rfl⟩
  | affine b s =>
    refine ⟨rfl, ?_⟩
    change -b + BitVec.ofNat 32 l * -s = -(b + BitVec.ofNat 32 l * s)
    rw [BitVec.mul_neg, BitVec.neg_add, BitVec.sub_eq_add_neg]
  | general v => cases h

theorem VReg.absTag_at {r : VReg} (h : r.absTag.isGeneral = false) (l : Nat) :
    r.absTag.at l = if (r.at l).msb then -r.at l else r.at l := by
  cases r with
  | uniform u => rfl
  | affine b s => cases h
  | general v => cases h

theorem testBit_top (x : W32) : x.toNat.testBit 31 = x.msb := by
  rw [BitVec.msb_eq_getLsbD_last]
  rfl

/-- The presented tag of a one-register source, where it is not general, gives the source's value in every lane (R124, R172). -/
theorem Ctx.intSrc_tag_at {c : Ctx} {k : ImmKind} {o : Opnd} {neg abs : Bool}
    (h : (c.intSrc k 1 o neg abs).tag.isGeneral = false) (l : Nat) :
    ((c.intSrc k 1 o neg abs).tag.at l).toNat = (c.intSrc k 1 o neg abs).val l := by
  have habs : ∀ r : VReg, (if abs then r.absTag else r).isGeneral = false →
      ((if abs then r.absTag else r).at l).toNat =
        if (abs && (r.at l).toNat.testBit 31) = true then (2 ^ 32 - (r.at l).toNat) % 2 ^ 32 else (r.at l).toNat := by
    intro r hr
    cases abs with
    | false => rfl
    | true =>
      simp only [if_true] at hr ⊢
      rw [VReg.absTag_at hr, testBit_top, Bool.true_and]
      split
      · exact BitVec.toNat_neg _
      · rfl
  cases neg with
  | false => exact habs _ h
  | true =>
    obtain ⟨hg, hneg⟩ := VReg.negTag_at (r := if abs then (c.g.word k o 0).absTag else c.g.word k o 0) h l
    change ((if abs then (c.g.word k o 0).absTag else c.g.word k o 0).negTag.at l).toNat = _
    rw [hneg, BitVec.toNat_neg, habs _ hg]
    rfl

/-! ### Result shapes -/

theorem formOf_describes (srcs : List VReg) (x : Nat → W32) : (formOf srcs).describes x := by
  unfold formOf
  split <;> trivial

theorem affineForm_describes {c : Ctx} {srcs : List VReg} {form : Form} {x : Nat → W32}
    (h : intRegs (dtN c.f) = 1 → (∀ t, t ∈ srcs → t.isGeneral = false) → form.describes x) :
    (affineForm c srcs form).describes x := by
  unfold affineForm
  split
  · trivial
  · split
    next hc =>
      simp only [Bool.and_eq_true, decide_eq_true_eq, List.all_eq_true, Bool.not_eq_true'] at hc
      obtain ⟨⟨h1, -⟩, hall⟩ := hc
      exact h h1 hall
    next => trivial

/-- The form that keeps no shape describes every result. -/
theorem affineForm_general_describes (c : Ctx) (srcs : List VReg) (x : Nat → W32) : (affineForm c srcs .general).describes x :=
  affineForm_describes fun _ _ => trivial

/-! ### Integer forms -/

/-- What an integer form leaves in its destination: its results modulo 2^(32 n). -/
theorem intForm_gives {s : State} {i : Instr} {f : Fields} {c : Ctx} {n opc : Nat} {form : Ctx → Form} {x : Ctx → Nat → Nat}
    (hr : Runs s i f c) (hh : head i = some (opc, f)) (hu : BlockUse f.scope (shape (groupEnv c.t c.g) i).d n) (hn : n = 1 ∨ n = 2)
    (hform : ∀ j, j < n → (form c).describes fun l => (wordsOf n (x c l)).getD j 0) (hx : ∀ l, x c l < 2 ^ (32 * n)) :
    ∃ t, intForm i f s n form x = .next t ∧ (t.groupOf c).flags = c.g.flags ∧ c.gives t n (dtN f == 0) (x c) := by
  obtain ⟨t, ht, -, hf, hg⟩ := registers_gives hr hh
    (body := fun c => c.write n (form c) (decide (dtN f = 0)) 0 fun l => { w := wordsOf n (x c l) }) rfl hu hn
    (fun l => by rcases hn with rfl | rfl <;> rfl) hform
  exact ⟨t, ht, Ctx.flags_of_flagged_zero hf, Ctx.gives_congr hr.issues.active (fun l _ => blockVal_wordsOf hn (hx l)) hg⟩

end Sys2Proof.Machine
end

section
/-! Division (spec/07_vector_instructions.md R175). -/

namespace Sys2Proof.Machine

section
variable {s : State} {f : Fields} {c : Ctx} {i : Instr}

/-! ### Division (R175) -/

/-- A truncated quotient stays among the values of its dividend's range but for the least value by -1. -/
theorem tdiv_range {m a b : Int} (hm : 0 < m) (h1 : -m ≤ a) (h2 : a < m) (hover : ¬ (a = -m ∧ b = -1)) :
    -m ≤ a.tdiv b ∧ a.tdiv b < m := by
  by_cases hb : b = -1
  · rw [hb, Int.tdiv_neg, Int.tdiv_one]
    omega
  · have hq : (a.tdiv b).natAbs = a.natAbs / b.natAbs := Int.natAbs_tdiv a b
    by_cases hb1 : b.natAbs ≤ 1
    · have hcase : b = 0 ∨ b = 1 := by omega
      rcases hcase with rfl | rfl
      · rw [Int.tdiv_zero]; omega
      · rw [Int.tdiv_one]; omega
    · have hle : a.natAbs / b.natAbs ≤ a.natAbs / 2 := Nat.div_le_div_left (by omega) (by omega)
      omega

theorem clamp_of_mem {lo hi x : Int} (h1 : lo ≤ x) (h2 : x ≤ hi) : clamp lo hi x = x := by
  rw [clamp, if_neg (by omega), if_neg (by omega)]

/-- SAT narrows no quotient but that of the one overflow. -/
theorem divide_of_ne {dt a : Nat} {b : Int} (sat : Bool) (ha : a < 2 ^ intWidth dt) (h0 : b ≠ 0)
    (hover : ¬ (dtSigned dt = true ∧ asInt dt a = -((2 ^ (intWidth dt - 1) : Nat) : Int) ∧ b = -1)) :
    (divide dt sat (asInt dt a) b).1 = (asInt dt a).tdiv b := by
  unfold divide
  rw [if_neg h0]
  dsimp only
  split
  next hs =>
    obtain ⟨hs, -⟩ := Bool.and_eq_true_iff.1 hs
    have hr : -((2 ^ (intWidth dt - 1) : Nat) : Int) ≤ asInt dt a ∧ asInt dt a < ((2 ^ (intWidth dt - 1) : Nat) : Int) := by
      rw [asInt, if_pos hs]
      exact toSigned_range (intWidth_pos dt) ha
    have hpos := Nat.two_pow_pos (intWidth dt - 1)
    obtain ⟨h1, h2⟩ := tdiv_range (b := b) (by omega) hr.1 hr.2 fun h => hover ⟨hs, h⟩
    exact clamp_of_mem h1 (by omega)
  next => rfl

/-- The quotient of the one overflow. -/
theorem divide_overflow {dt : Nat} (sat : Bool) (hs : dtSigned dt = true) :
    (divide dt sat (-((2 ^ (intWidth dt - 1) : Nat) : Int)) (-1)).1 =
      if sat then ((2 ^ (intWidth dt - 1) : Nat) : Int) - 1 else ((2 ^ (intWidth dt - 1) : Nat) : Int) := by
  have hpos := Nat.two_pow_pos (intWidth dt - 1)
  unfold divide
  rw [if_neg (by decide), Int.tdiv_neg, Int.tdiv_one, Int.neg_neg, hs, Bool.true_and]
  cases sat with
  | true =>
    simp only [if_true]
    rw [clamp, if_neg (by omega), if_pos (by omega)]
  | false => rfl

/-- The results of IDIV with its fixed cases. -/
theorem wrap_divide {dt a b : Nat} (sat : Bool) (ha : a < 2 ^ intWidth dt) :
    wrap (intWidth dt) (divide dt sat (asInt dt a) (asInt dt b)).1 =
      if asInt dt b = 0 then 2 ^ intWidth dt - 1
      else if dtSigned dt ∧ asInt dt a = -2 ^ (intWidth dt - 1) ∧ asInt dt b = -1 then
        (if sat then 2 ^ (intWidth dt - 1) - 1 else 2 ^ (intWidth dt - 1))
      else wrap (intWidth dt) ((asInt dt a).tdiv (asInt dt b)) := by
  have hpow := Nat.two_pow_pred_mul_two (intWidth_pos dt)
  have hpos := Nat.two_pow_pos (intWidth dt - 1)
  have hcast : (2 : Int) ^ (intWidth dt - 1) = ((2 ^ (intWidth dt - 1) : Nat) : Int) := by push_cast; rfl
  rw [hcast]
  by_cases h0 : asInt dt b = 0
  · rw [if_pos h0, h0, divide, if_pos rfl]
    exact wrap_eq_of_modEq (by omega) (-1) (by omega)
  · rw [if_neg h0]
    by_cases hover : dtSigned dt = true ∧ asInt dt a = -((2 ^ (intWidth dt - 1) : Nat) : Int) ∧ asInt dt b = -1
    · obtain ⟨hs, hmin, hneg⟩ := hover
      rw [if_pos ⟨hs, hmin, hneg⟩, hmin, hneg, divide_overflow sat hs]
      split
      · exact wrap_eq_of_modEq (by omega) 0 (by omega)
      · exact wrap_eq_of_modEq (by omega) 0 (by omega)
    · rw [if_neg hover, divide_of_ne sat ha h0 hover]

/-- The fixed results of IREM. -/
theorem wrap_remainder {dt a b : Nat} (ha : a < 2 ^ intWidth dt) :
    wrap (intWidth dt) (remainder (asInt dt a) (asInt dt b)).1 =
      if asInt dt b = 0 then a else wrap (intWidth dt) (asInt dt a - asInt dt b * (asInt dt a).tdiv (asInt dt b)) := by
  unfold remainder
  split
  · exact wrap_asInt ha
  · rw [Int.tmod_def]

theorem divide_flag (dt : Nat) (sat : Bool) (a b : Int) : (divide dt sat a b).2 = if b = 0 then 2 else 0 := by
  unfold divide
  split
  · rfl
  · dsimp only
    split <;> rfl

theorem remainder_flag (a b : Int) : (remainder a b).2 = if b = 0 then 2 else 0 := by
  unfold remainder
  split <;> rfl

/-- A flag raised by the threads that meet a condition. -/
theorem foldl_or_flag (p : Nat → Bool) (n : Nat) (l : List Nat) (a : Nat) :
    l.foldl (fun acc k => acc ||| if p k then n else 0) a = a ||| if l.any p then n else 0 := by
  induction l generalizing a with
  | nil => simp
  | cons x xs ih =>
    rw [List.foldl_cons, ih, List.any_cons]
    cases p x with
    | true =>
      rw [Bool.true_or, if_pos rfl]
      split
      · rw [Nat.or_assoc, Nat.or_self]
      · rw [Nat.or_zero]
    | false => rw [Bool.false_or, if_neg Bool.false_ne_true, Nat.or_zero]

theorem Ctx.flags_of_flagged_if {t : State} {n : Nat} {p : Nat → Bool} (h : c.flagged t fun l => if p l then n else 0) :
    (t.groupOf c).flags = c.g.flags ||| (if c.some_ p then BitVec.ofNat 32 n else 0) := by
  rw [h, Ctx.some_, foldl_or_flag, Nat.zero_or]
  dsimp only
  split <;> split <;> rfl

/-- What IDIV and IREM have in common: the results and the flag of a division. -/
theorem divForm_gives {op : Int → Int → Int × Nat} {opc : Nat} (hr : Runs s i f c) (hh : head i = some (opc, f))
    (hu : BlockUse f.scope (shape (groupEnv c.t c.g) i).d (intRegs (dtN f)))
    (hop : ∀ a b, (op a b).2 = if b = 0 then 2 else 0) :
    ∃ t, divForm i f s op = .next t ∧
      (t.groupOf c).flags = c.g.flags ||| (if c.some_ (fun l => c.srcB l == 0) then 2 else 0) ∧
      c.gives t (intRegs (dtN f)) (dtN f == 0) fun l =>
        wrap (intWidth (dtN f)) (op (asInt (dtN f) (c.srcA l)) (asInt (dtN f) (c.srcB l))).1 := by
  obtain ⟨-, -, rfl, -, -, -, -⟩ := State.ctx_some hr.issues.inHand
  have hn := intRegs_cases (dtN c.f)
  obtain ⟨t, ht, -, hf, hg⟩ := registers_gives hr hh
    (body := fun c' => c'.write (intRegs (dtN c.f)) (formOf [c'.intA.tag, c'.intB.tag]) (decide (dtN c.f = 0)) 0 fun l =>
      let r := op (asInt (dtN c.f) (c'.intA.val l)) (asInt (dtN c.f) (c'.intB.val l))
      { w := wordsOf (intRegs (dtN c.f)) (wrap (32 * intRegs (dtN c.f)) r.1), flags := r.2 })
    rfl hu hn (fun l => by rw [length_wordsOf]; split <;> omega) fun j hj => formOf_describes _ _
  refine ⟨t, ht, ?_, Ctx.gives_congr hr.issues.active (fun l _ => blockVal_wordsOf hn (wrap_lt _ _)) hg⟩
  refine Ctx.flags_of_flagged_if (p := fun l => c.srcB l == 0) (n := 2) ?_
  have hflag : ∀ l, (op (asInt (dtN c.f) (c.srcA l)) (asInt (dtN c.f) (c.srcB l))).2 = if c.srcB l == 0 then 2 else 0 := by
    intro l
    rw [hop]
    exact ite_congr (propext ((asInt_eq_zero (c.srcB_lt l)).trans beq_iff_eq.symm)) (fun _ => rfl) fun _ => rfl
  simp only [← hflag]
  exact hf

/-- Settles O11: the flag is that of the threads whose divisor is 0, and the result is the quotient or remainder of the model with its
fixed cases. -/
theorem divisionResults : Obligations.DivisionResults := by
  intro s f i c hmem hr
  have hi : i = .idiv f ∨ i = .irem f := by simpa using hmem
  obtain ⟨-, -, rfl, -, -, -, -⟩ := State.ctx_some hr.issues.inHand
  rcases hi with rfl | rfl
  · obtain ⟨-, -, -, hscope⟩ := hr.checks rfl
    obtain ⟨t, ht, hfl, hg⟩ := divForm_gives (op := divide (dtN c.f) c.f.sat) hr rfl (dst_blockUse hscope (intRegs_pos _))
      (divide_flag _ _)
    refine ⟨t, ht, hfl, Ctx.gives_congr hr.issues.active (fun l _ => ?_) hg⟩
    rw [if_pos rfl]
    exact wrap_divide c.f.sat (c.srcA_lt l)
  · obtain ⟨-, -, -, hscope⟩ := hr.checks rfl
    obtain ⟨t, ht, hfl, hg⟩ := divForm_gives (op := remainder) hr rfl (dst_blockUse hscope (intRegs_pos _))
      remainder_flag
    refine ⟨t, ht, hfl, Ctx.gives_congr hr.issues.active (fun l _ => ?_) hg⟩
    rw [if_neg nofun]
    exact wrap_remainder (c.srcA_lt l)

end

end Sys2Proof.Machine
end

section
/-! Shifts and rotates (spec/07_vector_instructions.md R176). -/

namespace Sys2Proof.Machine

section
variable {s : State} {f : Fields} {c : Ctx} {i : Instr}

/-! ### Shifts (R176) -/

/-- What the shifts have in common: A shifted by bits 31:0 of B. -/
theorem shiftForm_gives {form : VReg → VReg → Form} {op : Nat → Nat → Nat} {opc : Nat} (hr : Runs s i f c)
    (hh : head i = some (opc, f)) (hu : BlockUse f.scope (shape (groupEnv c.t c.g) i).d (intRegs (dtN f)))
    (hform : intRegs (dtN f) = 1 → ∀ a b : VReg, a.isGeneral = false → b.isGeneral = false →
      (form a b).describes fun l => BitVec.ofNat 32 (op (a.at l).toNat (b.at l).toNat))
    (hop : ∀ a n, a < 2 ^ intWidth (dtN f) → n < 2 ^ 32 → op a n < 2 ^ intWidth (dtN f)) :
    ∃ t, shiftForm i f s form op = .next t ∧ (t.groupOf c).flags = c.g.flags ∧
      c.gives t (intRegs (dtN f)) (dtN f == 0) fun l => op (c.srcA l) (c.g.value (intImm (dtN f)) f.b 1 l) := by
  obtain ⟨-, -, rfl, -, -, -, -⟩ := State.ctx_some hr.issues.inHand
  refine intForm_gives hr hh hu (intRegs_cases _) (fun j hj => affineForm_describes fun h1 hall => ?_) fun l =>
    hop _ _ (c.srcA_lt l) (Group.value_lt _ _ _ (.inl rfl) l)
  have ha := hall c.intA.tag (by simp)
  have hb := hall (c.intSrc (intImm (dtN c.f)) 1 c.f.b false false).tag (by simp)
  have htagA : ∀ l, (c.intA.tag.at l).toNat = c.srcA l := by
    unfold Ctx.intA at ha ⊢
    rw [h1] at ha ⊢
    intro l
    rw [Ctx.intSrc_tag_at ha, ← h1]
    rfl
  have htagB := fun l => Ctx.intSrc_tag_at hb l
  have h := hform h1 _ _ ha hb
  simp only [htagA, htagB] at h
  rw [h1] at hj ⊢
  obtain rfl : j = 0 := by omega
  exact h

/-- An affine operand shifted left by a uniform amount is affine (R125). -/
theorem shl_form_describes {w : Nat} (hw : w = 32) {a b : VReg} (ha : a.isGeneral = false) :
    (if b.isUniform then
        (if 32 ≤ b.base.toNat then Form.affine 0 0 else .affine (a.base <<< b.base.toNat) (a.stride <<< b.base.toNat))
      else .general).describes fun l =>
        BitVec.ofNat 32 (if w ≤ (b.at l).toNat then 0 else (a.at l).toNat * 2 ^ (b.at l).toNat % 2 ^ w) := by
  subst hw
  split
  next hb =>
    split
    next h32 =>
      intro l _
      dsimp only
      rw [VReg.at_eq_base hb, if_pos h32]
      simp
    next h32 =>
      intro l _
      dsimp only
      rw [VReg.at_eq_base hb, if_neg h32]
      have hshift : BitVec.ofNat 32 ((a.at l).toNat * 2 ^ b.base.toNat % 2 ^ 32) = a.at l <<< b.base.toNat := by
        refine BitVec.eq_of_toNat_eq ?_
        rw [BitVec.toNat_ofNat, BitVec.toNat_shiftLeft, Nat.shiftLeft_eq, Nat.mod_mod]
      rw [hshift, VReg.at_eq_base_stride ha]
      simp only [BitVec.shiftLeft_eq_mul_twoPow]
      rw [BitVec.add_mul, BitVec.mul_assoc]
  next => trivial

theorem shl_lt (w a n : Nat) : (if w ≤ n then 0 else a * 2 ^ n % 2 ^ w) < 2 ^ w := by
  split
  · exact Nat.two_pow_pos w
  · exact Nat.mod_lt _ (Nat.two_pow_pos w)

theorem shr_lt {w a : Nat} (n : Nat) (ha : a < 2 ^ w) : (if w ≤ n then 0 else a / 2 ^ n) < 2 ^ w := by
  split
  · exact Nat.two_pow_pos w
  · exact Nat.lt_of_le_of_lt (Nat.div_le_self ..) ha

/-- The highest bit of a w-bit number. -/
theorem testBit_pred_width {w a : Nat} (hw : 0 < w) (ha : a < 2 ^ w) : a.testBit (w - 1) = decide (2 ^ (w - 1) ≤ a) := by
  have hpow := Nat.two_pow_pred_mul_two hw
  rw [Nat.testBit_eq_decide_div_mod_eq, Bool.eq_iff_iff, decide_eq_true_iff, decide_eq_true_iff]
  have hlt : a / 2 ^ (w - 1) < 2 := Nat.div_lt_of_lt_mul (by omega)
  have hle : 0 < a / 2 ^ (w - 1) ↔ 2 ^ (w - 1) ≤ a := Nat.div_pos_iff.trans (and_iff_right (Nat.two_pow_pos _))
  generalize a / 2 ^ (w - 1) = q at hlt hle
  omega

/-- SAR by at least the width leaves only copies of the sign. -/
theorem sar_wide {w a : Nat} (hw : 0 < w) (ha : a < 2 ^ w) :
    wrap w (toSigned w a / (2 ^ w : Nat)) = if a.testBit (w - 1) then 2 ^ w - 1 else 0 := by
  have hpow := Nat.two_pow_pred_mul_two hw
  have hpos := Nat.two_pow_pos (w - 1)
  rw [testBit_pred_width hw ha, toSigned_eq ha]
  by_cases h : a < 2 ^ (w - 1)
  · rw [if_pos h, if_neg (by simpa using h), Int.ediv_eq_zero_of_lt (by omega) (by omega)]
    exact wrap_eq_of_modEq (by omega) 0 (by omega)
  · have hdiv : ((a : Int) - (2 ^ w : Nat)) / (2 ^ w : Nat) = -1 := by
      rw [Int.ediv_eq_iff_of_pos (by omega)]
      omega
    rw [if_neg h, if_pos (by simpa using h), hdiv]
    exact wrap_eq_of_modEq (by omega) (-1) (by omega)

theorem sar_eq {w a : Nat} (n : Nat) (hw : 0 < w) (ha : a < 2 ^ w) :
    wrap w (toSigned w a / (2 ^ min n w : Nat)) =
      if w ≤ n then (if a.testBit (w - 1) then 2 ^ w - 1 else 0) else wrap w (toSigned w a / 2 ^ n) := by
  split
  next h => rw [Nat.min_eq_right h, sar_wide hw ha]
  next h =>
    rw [Nat.min_eq_left (by omega)]
    push_cast
    rfl

theorem rotl_lt {w a n : Nat} (hw : 0 < w) (ha : a < 2 ^ w) : rotl w a n < 2 ^ w := by
  have hk : n % w < w := Nat.mod_lt _ hw
  have hsplit : 2 ^ w = 2 ^ (w - n % w) * 2 ^ (n % w) := by rw [← Nat.pow_add]; congr 1; omega
  have hmul : a * 2 ^ (n % w) % 2 ^ w = a % 2 ^ (w - n % w) * 2 ^ (n % w) := by rw [hsplit, Nat.mul_mod_mul_right]
  have hlo : a / 2 ^ (w - n % w) < 2 ^ (n % w) := Nat.div_lt_of_lt_mul (by rwa [← hsplit])
  have hhi : a % 2 ^ (w - n % w) + 1 ≤ 2 ^ (w - n % w) := Nat.mod_lt _ (Nat.two_pow_pos _)
  unfold rotl
  dsimp only
  rw [hmul]
  calc a % 2 ^ (w - n % w) * 2 ^ (n % w) + a / 2 ^ (w - n % w)
      < a % 2 ^ (w - n % w) * 2 ^ (n % w) + 2 ^ (n % w) := Nat.add_lt_add_left hlo _
    _ = (a % 2 ^ (w - n % w) + 1) * 2 ^ (n % w) := (Nat.add_one_mul _ _).symm
    _ ≤ 2 ^ w := by rw [hsplit]; exact Nat.mul_le_mul_right _ hhi

/-- A rotation right by n is one left by what is missing to the width. -/
theorem rotr_eq {w a : Nat} (n : Nat) (hw : 0 < w) (ha : a < 2 ^ w) :
    rotl w a (w - n % w) = a / 2 ^ (n % w) + a * 2 ^ (w - n % w) % 2 ^ w := by
  have hk : n % w < w := Nat.mod_lt _ hw
  unfold rotl
  dsimp only
  by_cases h0 : n % w = 0
  · rw [h0, Nat.sub_zero, Nat.mod_self, Nat.pow_zero, Nat.mul_one, Nat.sub_zero, Nat.mod_eq_of_lt ha, Nat.div_eq_of_lt ha,
      Nat.div_one, Nat.mul_mod_left]
  · rw [Nat.mod_eq_of_lt (show w - n % w < w by omega), Nat.sub_sub_self (by omega), Nat.add_comm]

/-- Settles O12: each shift is its operation on A and the amount, in every lane and for both widths; SHL alone keeps an affine
shape. -/
theorem shiftResults : Obligations.ShiftResults := by
  intro s f i op c hmem hr
  obtain ⟨-, -, rfl, -, -, -, -⟩ := State.ctx_some hr.issues.inHand
  have hw := intWidth_pos (dtN c.f)
  simp only [List.mem_cons, Prod.mk.injEq, List.not_mem_nil, or_false] at hmem
  rcases hmem with ⟨rfl, rfl⟩ | ⟨rfl, rfl⟩ | ⟨rfl, rfl⟩ | ⟨rfl, rfl⟩
  · obtain ⟨-, -, -, hscope⟩ := hr.checks rfl
    obtain ⟨t, ht, -, hg⟩ := shiftForm_gives hr rfl (dst_blockUse hscope (intRegs_pos _))
      (fun h1 a b ha _ => shl_form_describes (w := intWidth (dtN c.f)) (by rw [intWidth, h1]) ha) fun a n _ _ => shl_lt _ a n
    exact ⟨t, ht, hg⟩
  · obtain ⟨-, -, -, hscope⟩ := hr.checks rfl
    obtain ⟨t, ht, -, hg⟩ := shiftForm_gives hr rfl (dst_blockUse hscope (intRegs_pos _))
      (form := fun _ _ => .general) (fun _ _ _ _ _ => trivial) fun a n ha _ => shr_lt n ha
    exact ⟨t, ht, hg⟩
  · obtain ⟨-, -, -, hscope⟩ := hr.checks rfl
    obtain ⟨t, ht, -, hg⟩ := shiftForm_gives hr rfl (dst_blockUse hscope (intRegs_pos _))
      (form := fun _ _ => .general)
      (op := fun a n => wrap (intWidth (dtN c.f)) (toSigned (intWidth (dtN c.f)) a / (2 ^ min n (intWidth (dtN c.f)) : Nat)))
      (fun _ _ _ _ _ => trivial) fun a n _ _ => wrap_lt _ _
    exact ⟨t, ht, Ctx.gives_congr hr.issues.active (fun l _ => sar_eq _ hw (c.srcA_lt l)) hg⟩
  · obtain ⟨-, -, -, hscope⟩ := hr.checks rfl
    obtain ⟨t, ht, -, hg⟩ := shiftForm_gives hr rfl (dst_blockUse hscope (intRegs_pos _))
      (form := fun _ _ => .general)
      (op := fun a n => if subN c.f = 0 then rotl (intWidth (dtN c.f)) a n
        else rotl (intWidth (dtN c.f)) a (intWidth (dtN c.f) - n % intWidth (dtN c.f)))
      (fun _ _ _ _ _ => trivial) fun a n ha _ => by split <;> exact rotl_lt hw ha
    refine ⟨t, ht, Ctx.gives_congr hr.issues.active (fun l _ => ?_) hg⟩
    dsimp only
    split
    · rfl
    · exact rotr_eq _ hw (c.srcA_lt l)

end

end Sys2Proof.Machine
end

section
/-! Bit counts, bit fields and comparison (spec/07_vector_instructions.md R178, R180). -/

namespace Sys2Proof.Machine

section
variable {s : State} {f : Fields} {c : Ctx} {i : Instr}

/-! ### Bit counts and bit fields (R178) -/

/-- The bits of a number from its width on are clear. -/
theorem popCount_of_lt {w x : Nat} (hx : x < 2 ^ w) {n : Nat} (hn : w ≤ n) : popCount n x = popCount w x := by
  induction hn with
  | refl => rfl
  | @step n hn ih =>
    have hbit : x.testBit n = false := Nat.testBit_lt_two_pow (Nat.lt_of_lt_of_le hx (Nat.pow_le_pow_right (by decide) hn))
    rw [← ih]
    simp [popCount, List.range_succ, List.filter_append, hbit]

theorem popCount_le (n x : Nat) : popCount n x ≤ n :=
  Nat.le_trans (List.length_filter_le _ _) (Nat.le_of_eq List.length_range)

/-- The zeros above the highest set bit, counted from the top. -/
theorem find?_top_eq {w x : Nat} (hx : x < 2 ^ w) :
    ((List.range w).find? fun j => x.testBit (w - 1 - j)).getD w = w - if x = 0 then 0 else x.log2 + 1 := by
  by_cases h0 : x = 0
  · have hnone : (List.range w).find? (fun j => x.testBit (w - 1 - j)) = none :=
      List.find?_range_eq_none.2 fun j _ => by simp [h0]
    rw [hnone, if_pos h0]
    rfl
  · have hlog : x.log2 < w := (Nat.log2_lt h0).2 hx
    have hsome : (List.range w).find? (fun j => x.testBit (w - 1 - j)) = some (w - (x.log2 + 1)) := by
      refine List.find?_range_eq_some.2 ⟨?_, List.mem_range.2 (by omega), fun j hj => ?_⟩
      · rw [show w - 1 - (w - (x.log2 + 1)) = x.log2 by omega]
        exact Nat.testBit_log2 h0
      · have hlt : x < 2 ^ (w - 1 - j) :=
          Nat.lt_of_lt_of_le Nat.lt_log2_self (Nat.pow_le_pow_right (by decide) (by omega))
        rw [Nat.testBit_lt_two_pow hlt]
        rfl
    rw [hsome, if_neg h0]
    rfl

theorem find?_range_getD_le (w : Nat) (p : Nat → Bool) : ((List.range w).find? p).getD w ≤ w := by
  cases h : (List.range w).find? p with
  | none => exact Nat.le_refl w
  | some j => exact Nat.le_of_lt (List.mem_range.1 (List.mem_of_find?_eq_some h))

/-- What POPC, CLZ and CTZ have in common: a count of A's bits as N32. -/
theorem bitForm_gives {op : Nat → Nat} {opc : Nat} (hr : Runs s i f c) (hh : head i = some (opc, f))
    (hshape : shape (groupEnv c.t c.g) i = { intShape f (dtBits (dtN f)) 0 with d := dst f 1 })
    (hop : ∀ l, op (c.srcA l) ≤ 64) :
    ∃ t, bitForm i f s 1 op = .next t ∧ c.gives t 1 false fun l => op (c.srcA l) := by
  obtain ⟨hok, -, -, hscope⟩ := hr.checks hh
  rw [hshape] at hok hscope
  have hbits : dtBits (dtN f) = true := by
    simp only [intShape, Bool.and_eq_true] at hok
    obtain ⟨⟨h, -⟩, -⟩ := hok
    exact h
  have hzero : (dtN f == 0) = false := by
    simp only [dtBits, Bool.or_eq_true, decide_eq_true_eq] at hbits
    rw [beq_eq_false_iff_ne]
    omega
  have hu : BlockUse f.scope (shape (groupEnv c.t c.g) i).d 1 := by
    rw [hshape]
    exact dst_blockUse hscope (by decide)
  obtain ⟨t, ht, -, hg⟩ := intForm_gives (form := fun c => affineForm c [c.intA.tag] .general) (x := fun c l => op (c.intA.val l))
    hr hh hu (.inl rfl) (fun _ _ => affineForm_general_describes ..) fun l => Nat.lt_of_le_of_lt (hop l) (by decide)
  rw [hzero] at hg
  exact ⟨t, ht, hg⟩

/-- Sign extension of a field of m bits. -/
theorem wrap_toSigned_field {w m x : Nat} (hm : 0 < m) (hw : m ≤ w) (hx : x < 2 ^ m) :
    wrap w (toSigned m x) = if x.testBit (m - 1) then x + 2 ^ w - 2 ^ m else x := by
  have hpow : 2 ^ m ≤ 2 ^ w := Nat.pow_le_pow_right (by decide) hw
  rw [testBit_pred_width hm hx, toSigned_eq hx]
  by_cases h : x < 2 ^ (m - 1)
  · rw [if_pos h, if_neg (by simpa using h)]
    exact wrap_eq_of_modEq (by omega) 0 (by omega)
  · rw [if_neg h, if_pos (by simpa using h)]
    exact wrap_eq_of_modEq (by omega) (-1) (by omega)

/-- A field of m bits from bit p replaced. -/
theorem setBits_field (d p y : Nat) {m : Nat} (hm : 0 < m) :
    setBits d (p + m - 1) p y = d - (d / 2 ^ p % 2 ^ m) * 2 ^ p + (y % 2 ^ m) * 2 ^ p := by
  have hlen : p + m - 1 + 1 - p = m := by omega
  rw [setBits, bits, hlen, Nat.shiftRight_eq_div_pow]

theorem replaced_field_lt {w d p m a : Nat} (hpm : p + m ≤ w) (hd : d < 2 ^ w) (ha : a < 2 ^ m) :
    d - (d / 2 ^ p % 2 ^ m) * 2 ^ p + a * 2 ^ p < 2 ^ w := by
  have hlow : d % 2 ^ p < 2 ^ p := Nat.mod_lt _ (Nat.two_pow_pos p)
  have hhigh : d / 2 ^ p / 2 ^ m < 2 ^ (w - (p + m)) := by
    rw [Nat.div_div_eq_div_mul, ← Nat.pow_add]
    exact Nat.div_lt_of_lt_mul (by rwa [← Nat.pow_add, show p + m + (w - (p + m)) = w by omega])
  have hsplit : d = (d / 2 ^ p / 2 ^ m * 2 ^ m + d / 2 ^ p % 2 ^ m) * 2 ^ p + d % 2 ^ p := by
    rw [Nat.div_add_mod', Nat.div_add_mod']
  generalize d / 2 ^ p / 2 ^ m = q at hhigh hsplit
  generalize d / 2 ^ p % 2 ^ m = r at hsplit ⊢
  generalize d % 2 ^ p = e at hlow hsplit
  calc d - r * 2 ^ p + a * 2 ^ p = (q * 2 ^ m + a) * 2 ^ p + e := by
        rw [hsplit]
        simp only [Nat.add_mul]
        omega
    _ < (q * 2 ^ m + a + 1) * 2 ^ p := by rw [Nat.add_mul _ 1, Nat.one_mul]; omega
    _ ≤ (q + 1) * 2 ^ m * 2 ^ p := Nat.mul_le_mul_right _ (by rw [Nat.add_mul]; omega)
    _ ≤ 2 ^ (w - (p + m)) * 2 ^ m * 2 ^ p := Nat.mul_le_mul_right _ (Nat.mul_le_mul_right _ hhigh)
    _ = 2 ^ w := by rw [← Nat.pow_add, ← Nat.pow_add]; congr 1; omega

/-- The field of A that BFX reads, as the model computes it. -/
def extractField (dt a b : Nat) : Nat :=
  let pos := b % 256
  let len := b / 256 % 256
  if intWidth dt ≤ pos ∨ len = 0 then 0
  else
    let len := min len (intWidth dt - pos)
    let x := a / 2 ^ pos % 2 ^ len
    if dtSigned dt then wrap (intWidth dt) (toSigned len x) else x

/-- C with the field that BFI replaces, as the model computes it. -/
def insertField (w a b d : Nat) : Nat :=
  let pos := b % 256
  let len := b / 256 % 256
  if w ≤ pos ∨ len = 0 then d else setBits d (pos + min len (w - pos) - 1) pos a

theorem extractField_lt {dt a : Nat} (b : Nat) (ha : a < 2 ^ intWidth dt) : extractField dt a b < 2 ^ intWidth dt := by
  unfold extractField
  dsimp only
  split
  · exact Nat.two_pow_pos _
  · split
    · exact wrap_lt _ _
    · exact Nat.lt_of_le_of_lt (Nat.le_trans (Nat.mod_le _ _) (Nat.div_le_self _ _)) ha

theorem extractField_eq (dt a b : Nat) :
    extractField dt a b =
      let field := a / 2 ^ (b % 256) % 2 ^ min (b / 256 % 256) (intWidth dt - b % 256)
      if intWidth dt ≤ b % 256 ∨ b / 256 % 256 = 0 then 0
      else if dtSigned dt ∧ field.testBit (min (b / 256 % 256) (intWidth dt - b % 256) - 1) then
        field + 2 ^ intWidth dt - 2 ^ min (b / 256 % 256) (intWidth dt - b % 256)
      else field := by
  unfold extractField
  dsimp only
  split
  next => rfl
  next hin =>
    have hfield := wrap_toSigned_field (w := intWidth dt) (m := min (b / 256 % 256) (intWidth dt - b % 256)) (by omega) (by omega)
      (Nat.mod_lt (a / 2 ^ (b % 256)) (Nat.two_pow_pos _))
    cases dtSigned dt with
    | true => simpa using hfield
    | false => simp

theorem insertField_eq (w a b d : Nat) :
    insertField w a b d =
      if w ≤ b % 256 ∨ b / 256 % 256 = 0 then d
      else d - (d / 2 ^ (b % 256) % 2 ^ min (b / 256 % 256) (w - b % 256)) * 2 ^ (b % 256) +
        (a % 2 ^ min (b / 256 % 256) (w - b % 256)) * 2 ^ (b % 256) := by
  unfold insertField
  dsimp only
  split
  next => rfl
  next hin => exact setBits_field _ _ _ (by omega)

theorem insertField_lt {w d : Nat} (a b : Nat) (hd : d < 2 ^ w) : insertField w a b d < 2 ^ w := by
  rw [insertField_eq]
  split
  next => exact hd
  next hin => exact replaced_field_lt (by omega) hd (Nat.mod_lt _ (Nat.two_pow_pos _))

/-- What BFX and BFI have in common. -/
theorem fieldForm_gives {useC : Bool} {op : Nat → Nat → Nat → Nat} {opc : Nat} (hr : Runs s i f c)
    (hh : head i = some (opc, f)) (hu : BlockUse f.scope (shape (groupEnv c.t c.g) i).d (intRegs (dtN f)))
    (hop : ∀ a b d, a < 2 ^ intWidth (dtN f) → d < 2 ^ intWidth (dtN f) → op a b d < 2 ^ intWidth (dtN f)) :
    ∃ t, fieldForm i f s useC op = .next t ∧ c.gives t (intRegs (dtN f)) (dtN f == 0) fun l =>
      op (c.srcA l) (c.g.value (intImm (dtN f)) f.b 1 l) (if useC then c.g.value .unsigned f.c (intRegs (dtN f)) l else 0) := by
  obtain ⟨-, -, rfl, -, -, -, -⟩ := State.ctx_some hr.issues.inHand
  have hn := intRegs_cases (dtN c.f)
  obtain ⟨t, ht, -, hg⟩ := intForm_gives
    (form := fun c' => formOf ([c'.intA.tag, (c'.intSrc (intImm (dtN c.f)) 1 c.f.b false false).tag] ++
      if useC then [(c'.intSrc .unsigned (intRegs (dtN c.f)) c.f.c false false).tag] else []))
    (x := fun c' l => op (c'.intA.val l) ((c'.intSrc (intImm (dtN c.f)) 1 c.f.b false false).val l)
      (if useC then (c'.intSrc .unsigned (intRegs (dtN c.f)) c.f.c false false).val l else 0))
    hr hh hu hn (fun _ _ => formOf_describes ..) fun l => hop _ _ _ (c.srcA_lt l) (by
      split
      · exact Group.value_lt _ _ _ hn l
      · exact Nat.two_pow_pos _)
  exact ⟨t, ht, hg⟩

/-- Settles O13: the counts are those of the operand's bits, and a field is cut at the width before it is extended or replaced. -/
theorem bitFieldResults : Obligations.BitFieldResults := by
  constructor
  · intro s f i op c hmem hr
    obtain ⟨-, -, rfl, -, -, -, -⟩ := State.ctx_some hr.issues.inHand
    have hw := intWidth_cases (dtN c.f)
    have ha := c.srcA_lt
    simp only [List.mem_cons, Prod.mk.injEq, List.not_mem_nil, or_false] at hmem
    rcases hmem with ⟨rfl, rfl⟩ | ⟨rfl, rfl⟩ | ⟨rfl, rfl⟩
    · obtain ⟨t, ht, hg⟩ := bitForm_gives (op := popCount 64) hr rfl rfl fun l => popCount_le _ _
      exact ⟨t, ht, Ctx.gives_congr hr.issues.active (fun l _ => popCount_of_lt (ha l) (by omega)) hg⟩
    · obtain ⟨t, ht, hg⟩ := bitForm_gives (op := fun x => intWidth (dtN c.f) - if x = 0 then 0 else x.log2 + 1) hr rfl rfl
        fun l => by omega
      exact ⟨t, ht, Ctx.gives_congr hr.issues.active (fun l _ => (find?_top_eq (ha l)).symm) hg⟩
    · exact bitForm_gives
        (op := fun x => ((List.range (intWidth (dtN c.f))).find? fun i => x.testBit i).getD (intWidth (dtN c.f)))
        hr rfl rfl fun l => Nat.le_trans (find?_range_getD_le _ _) (by omega)
  · intro s f i c hmem hr
    have hi : i = .bfx f ∨ i = .bfi f := by simpa using hmem
    obtain ⟨-, -, rfl, -, -, -, -⟩ := State.ctx_some hr.issues.inHand
    rcases hi with rfl | rfl
    · obtain ⟨-, -, -, hscope⟩ := hr.checks rfl
      obtain ⟨t, ht, hg⟩ := fieldForm_gives (op := fun a b _ => extractField (dtN c.f) a b) hr rfl
        (dst_blockUse hscope (intRegs_pos _)) fun a b _ ha _ => extractField_lt b ha
      refine ⟨t, ht, Ctx.gives_congr hr.issues.active (fun l _ => ?_) hg⟩
      rw [if_pos rfl]
      exact extractField_eq _ _ _
    · obtain ⟨-, -, -, hscope⟩ := hr.checks rfl
      obtain ⟨t, ht, hg⟩ := fieldForm_gives (useC := true) (op := insertField (intWidth (dtN c.f))) hr rfl
        (dst_blockUse hscope (intRegs_pos _)) fun a b d _ hd => insertField_lt a b hd
      refine ⟨t, ht, Ctx.gives_congr hr.issues.active (fun l _ => ?_) hg⟩
      exact (insertField_eq _ _ _ _).trans (if_neg (show ¬ Instr.bfi c.f = .bfx c.f from nofun)).symm

/-! ### Comparison (R180) -/

/-- The conditions of SUB 0 to 5. -/
theorem condOf_eq {sub : Nat} (h : sub < 6) (a b : Int) :
    condOf sub a b = decide ((sub = 0 ∧ a = b) ∨ (sub = 1 ∧ a ≠ b) ∨ (sub = 2 ∧ a < b) ∨ (sub = 3 ∧ a ≤ b) ∨ (sub = 4 ∧ b < a)
      ∨ (sub = 5 ∧ b ≤ a)) := by
  match sub, h with
  | 0, _ => simp [condOf]; rfl
  | 1, _ => simp [condOf]; rfl
  | 2, _ => simp [condOf]
  | 3, _ => simp [condOf]
  | 4, _ => simp [condOf]
  | 5, _ => simp [condOf]

theorem icmp_ok (e : Env) (f : Fields) :
    (shape e (.icmp f)).ok = (dtArith (dtN f) && within (xmN f) 0xB && decide (subN f < 6)) := rfl

/-- Settles O15: the condition is that of SUB on the operands read by DT's sign, and a reserved SUB fails the entry's check. -/
theorem integerComparison : Obligations.IntegerComparison := by
  constructor
  · intro s f c hr
    obtain ⟨-, -, rfl, -, -, -, -⟩ := State.ctx_some hr.issues.inHand
    obtain ⟨hok, -, -, -⟩ := hr.checks rfl
    have hsub : subN c.f < 6 := by
      rw [icmp_ok, Bool.and_eq_true, decide_eq_true_eq] at hok
      exact hok.2
    obtain ⟨t, ht, -, -, hg⟩ := registers_givesPred hr rfl
      (body := fun c' => c'.write 0 .general false 0 fun l =>
        { w := [], p := condOf (subN c.f) (asInt (dtN c.f) (c'.intA.val l)) (asInt (dtN c.f) (c'.intB.val l)) })
      rfl rfl fun _ => rfl
    exact ⟨t, ht, Ctx.givesPred_congr hr.issues.active (fun l _ => condOf_eq hsub _ _) hg⟩
  · intro e f h
    refine Instr.wf_of_not_ok rfl ?_
    rw [icmp_ok, decide_eq_false (by omega), Bool.and_false]

end

end Sys2Proof.Machine
end

section
/-! The order of floating codes (spec/06_number_formats.md R142, R143; spec/07_vector_instructions.md R185): the order of two values
that are no NaN is that of their codes' magnitudes with their signs. -/

namespace Sys2Proof.Machine

/-! ### Comparing integers -/

theorem compare_congr {a b x y : Int} (hlt : a < b ↔ x < y) (hgt : b < a ↔ y < x) : compare a b = compare x y := by
  rcases Int.lt_trichotomy a b with h | h | h
  · rw [Int.compare_eq_lt.2 h, Int.compare_eq_lt.2 (hlt.1 h)]
  · rw [Std.compare_eq_iff_eq.2 h, Std.compare_eq_iff_eq.2 (by omega)]
  · rw [Int.compare_eq_gt.2 h, Int.compare_eq_gt.2 (hgt.1 h)]

/-- A magnitude with its sign. -/
def withSign (neg : Bool) (u : Nat) : Int := if neg then -(u : Int) else u

/-- Signed magnitudes are ordered alike under every strictly monotone measure that keeps 0. -/
theorem withSign_lt_iff {u : Nat → Nat} (h0 : u 0 = 0) (hmono : ∀ a b, a < b → u a < u b) (p q : Bool) (a b : Nat) :
    withSign p (u a) < withSign q (u b) ↔ withSign p a < withSign q b := by
  have hpos : ∀ a, 0 < u a ↔ 0 < a := fun a => by
    rcases Nat.eq_zero_or_pos a with rfl | h
    · omega
    · have := hmono 0 a h
      omega
  have hab : u a < u b ↔ a < b := by
    rcases Nat.lt_trichotomy a b with h | rfl | h
    · have := hmono a b h; omega
    · omega
    · have := hmono b a h; omega
  have hba : u b < u a ↔ b < a := by
    rcases Nat.lt_trichotomy a b with h | rfl | h
    · have := hmono a b h; omega
    · omega
    · have := hmono b a h; omega
  have ha := hpos a
  have hb := hpos b
  cases p <;> cases q <;> simp only [withSign, if_true, Bool.false_eq_true, if_false] <;> omega

theorem scaleTo_mul_pow (m : Int) {e lo e0 : Int} (h1 : lo ≤ e) (h0 : e0 ≤ lo) :
    scaleTo m e lo * (2 ^ (lo - e0).toNat : Nat) = m * (2 ^ (e - e0).toNat : Nat) := by
  have hexp : (e - e0).toNat = (e - lo).toNat + (lo - e0).toNat := by omega
  rw [scaleTo, Int.mul_assoc, hexp, Nat.pow_add, Int.natCast_mul]

/-- The order of finite values is that of their magnitudes in a common unit below both. -/
theorem cmpFin_eq {n1 n2 : Bool} {m1 m2 u1 u2 : Nat} {e1 e2 e0 : Int} (h1 : e0 ≤ e1) (h2 : e0 ≤ e2)
    (hu1 : m1 * 2 ^ (e1 - e0).toNat = u1) (hu2 : m2 * 2 ^ (e2 - e0).toNat = u2) :
    cmpFin n1 m1 e1 n2 m2 e2 = compare (withSign n1 u1) (withSign n2 u2) := by
  have hunit : ∀ (n : Bool) (m u : Nat) (e : Int), min e1 e2 ≤ e → m * 2 ^ (e - e0).toNat = u →
      scaleTo (if n then -(m : Int) else m) e (min e1 e2) * (2 ^ (min e1 e2 - e0).toNat : Nat) = withSign n u := by
    intro n m u e he hu
    rw [scaleTo_mul_pow _ he (by omega), ← hu]
    cases n with
    | true =>
      simp only [withSign, if_true]
      rw [Int.neg_mul, Int.natCast_mul]
    | false =>
      simp only [withSign, Bool.false_eq_true, if_false]
      rw [Int.natCast_mul]
  have ha := hunit n1 m1 u1 e1 (by omega) hu1
  have hb := hunit n2 m2 u2 e2 (by omega) hu2
  have hpos : (0 : Int) < (2 ^ (min e1 e2 - e0).toNat : Nat) := by exact_mod_cast Nat.two_pow_pos _
  unfold cmpFin
  rw [← ha, ← hb]
  exact compare_congr (Int.mul_lt_mul_right hpos).symm (Int.mul_lt_mul_right hpos).symm

/-! ### Magnitudes of codes -/

namespace FloatFmt

/-- The magnitude of a code. -/
def mag (F : FloatFmt) (x : Nat) : Nat := x % 2 ^ (F.bits - 1)

/-- The sign of a code. -/
def negative (F : FloatFmt) (x : Nat) : Bool := x.testBit (F.bits - 1)

/-- A finite magnitude in units of the format's least denormal. -/
def units (F : FloatFmt) (m : Nat) : Nat :=
  if m / 2 ^ F.mbits = 0 then m % 2 ^ F.mbits else (2 ^ F.mbits + m % 2 ^ F.mbits) * 2 ^ (m / 2 ^ F.mbits - 1)

variable {F : FloatFmt}

theorem units_zero : F.units 0 = 0 := by simp [units]

theorem units_lt_pow (m : Nat) : F.units m < 2 ^ F.mbits * 2 ^ (m / 2 ^ F.mbits) := by
  have hm := Nat.mod_lt m (Nat.two_pow_pos F.mbits)
  unfold units
  split
  next h => rw [h]; omega
  next h =>
    calc (2 ^ F.mbits + m % 2 ^ F.mbits) * 2 ^ (m / 2 ^ F.mbits - 1) < (2 ^ F.mbits * 2) * 2 ^ (m / 2 ^ F.mbits - 1) :=
          Nat.mul_lt_mul_of_pos_right (by omega) (Nat.two_pow_pos _)
      _ = 2 ^ F.mbits * 2 ^ (m / 2 ^ F.mbits) := by
          rw [Nat.mul_assoc, ← Nat.pow_succ', Nat.succ_eq_add_one, Nat.sub_add_cancel (Nat.pos_of_ne_zero h)]

theorem pow_le_units {m : Nat} (h : m / 2 ^ F.mbits ≠ 0) : 2 ^ F.mbits * 2 ^ (m / 2 ^ F.mbits - 1) ≤ F.units m := by
  rw [units, if_neg h]
  exact Nat.mul_le_mul_right _ (Nat.le_add_right ..)

/-- A larger magnitude is a larger value. -/
theorem units_lt {a b : Nat} (h : a < b) : F.units a < F.units b := by
  have hle : a / 2 ^ F.mbits ≤ b / 2 ^ F.mbits := Nat.div_le_div_right (Nat.le_of_lt h)
  rcases Nat.lt_or_eq_of_le hle with hlt | heq
  · calc F.units a < 2 ^ F.mbits * 2 ^ (a / 2 ^ F.mbits) := units_lt_pow a
      _ ≤ 2 ^ F.mbits * 2 ^ (b / 2 ^ F.mbits - 1) :=
          Nat.mul_le_mul_left _ (Nat.pow_le_pow_right (by decide) (Nat.le_sub_one_of_lt hlt))
      _ ≤ F.units b := pow_le_units (Nat.ne_zero_of_lt hlt)
  · have hmod : a % 2 ^ F.mbits < b % 2 ^ F.mbits := by
      have ha := Nat.div_add_mod a (2 ^ F.mbits)
      have hb := Nat.div_add_mod b (2 ^ F.mbits)
      rw [heq] at ha
      omega
    unfold units
    rw [heq]
    split
    · exact hmod
    · exact Nat.mul_lt_mul_of_pos_right (by omega) (Nat.two_pow_pos _)

/-! ### What a code stands for -/

section
variable {x : Nat} (hx : x < 2 ^ F.bits)
include hx

/-- A finite code. -/
theorem decode_fin (hm : F.mag x ≤ F.maxCode) :
    ∃ m e, F.decode x = .fin (F.negative x) m e ∧ F.emin - F.mbits ≤ e ∧
      m * 2 ^ (e - (F.emin - F.mbits)).toNat = F.units (F.mag x) := by
  unfold decode
  simp only [Nat.mod_eq_of_lt hx]
  unfold mag at hm
  rw [if_neg (Nat.not_lt.2 hm)]
  by_cases h0 : x % 2 ^ (F.bits - 1) / 2 ^ F.mbits = 0
  · refine ⟨_, _, if_pos h0, Int.le_refl _, ?_⟩
    rw [units, mag, if_pos h0, Int.sub_self]
    exact Nat.mul_one _
  · refine ⟨_, _, if_neg h0, ?_, ?_⟩
    · have hpos := Nat.pos_of_ne_zero h0
      simp only [emin]
      omega
    · rw [units, mag, if_neg h0]
      congr 2
      simp only [emin]
      omega

variable (hF : F.hasInf = true)
include hF

/-- The code of an infinity. -/
theorem decode_inf (hm : F.mag x = F.maxCode + 1) : F.decode x = .inf (F.negative x) := by
  unfold decode
  simp only [Nat.mod_eq_of_lt hx]
  unfold mag at hm
  simp [hm, hF, negative]

/-- The codes of NaNs. -/
theorem decode_nan_iff : (F.decode x).isNan = true ↔ F.maxCode + 1 < F.mag x := by
  rcases Nat.lt_trichotomy (F.mag x) (F.maxCode + 1) with h | h | h
  · obtain ⟨m, e, he, -, -⟩ := decode_fin hx (by omega)
    rw [he]
    simp only [Num.isNan, Bool.false_eq_true, false_iff]
    omega
  · rw [decode_inf hx hF h]
    simp only [Num.isNan, Bool.false_eq_true, false_iff]
    omega
  · have hnan : F.decode x = .nan := by
      unfold decode
      simp only [Nat.mod_eq_of_lt hx]
      unfold mag at h
      rw [if_pos (by omega), if_neg (by simp only [Bool.and_eq_true, beq_iff_eq]; omega)]
    rw [hnan]
    exact iff_of_true rfl h

theorem decode_neg? (hn : (F.decode x).isNan = false) : (F.decode x).neg? = F.negative x := by
  have hle : ¬ F.maxCode + 1 < F.mag x := fun h => by simp [(decode_nan_iff hx hF).2 h] at hn
  rcases Nat.lt_or_eq_of_le (Nat.not_lt.1 hle) with h | h
  · obtain ⟨m, e, he, -, -⟩ := decode_fin hx (by omega)
    rw [he]
    rfl
  · rw [decode_inf hx hF h]
    rfl

/-- The order of two values that are no NaN is that of their codes' magnitudes with their signs. -/
theorem decode_cmp {y : Nat} (hy : y < 2 ^ F.bits) (hnx : (F.decode x).isNan = false) (hny : (F.decode y).isNan = false) :
    (F.decode x).cmp (F.decode y) =
      some (compare (withSign (F.negative x) (F.mag x)) (withSign (F.negative y) (F.mag y))) := by
  have hlex : ¬ F.maxCode + 1 < F.mag x := fun h => by simp [(decode_nan_iff hx hF).2 h] at hnx
  have hley : ¬ F.maxCode + 1 < F.mag y := fun h => by simp [(decode_nan_iff hy hF).2 h] at hny
  rcases Nat.lt_or_eq_of_le (Nat.not_lt.1 hlex) with h1 | h1 <;> rcases Nat.lt_or_eq_of_le (Nat.not_lt.1 hley) with h2 | h2
  · obtain ⟨m1, e1, hd1, he1, hu1⟩ := decode_fin hx (by omega)
    obtain ⟨m2, e2, hd2, he2, hu2⟩ := decode_fin hy (by omega)
    rw [hd1, hd2]
    refine congrArg some ((cmpFin_eq he1 he2 hu1 hu2).trans ?_)
    exact compare_congr (withSign_lt_iff units_zero (fun _ _ => units_lt) ..)
      (withSign_lt_iff units_zero (fun _ _ => units_lt) ..)
  · obtain ⟨m1, e1, hd1, -, -⟩ := decode_fin hx (by omega)
    rw [hd1, decode_inf hy hF h2]
    refine congrArg some ?_
    cases hs : F.negative y with
    | true =>
      refine (Int.compare_eq_gt.2 ?_).symm
      cases F.negative x <;> simp only [withSign, if_true, Bool.false_eq_true, if_false] <;> omega
    | false =>
      refine (Int.compare_eq_lt.2 ?_).symm
      cases F.negative x <;> simp only [withSign, if_true, Bool.false_eq_true, if_false] <;> omega
  · obtain ⟨m2, e2, hd2, -, -⟩ := decode_fin hy (by omega)
    rw [hd2, decode_inf hx hF h1]
    refine congrArg some ?_
    cases hs : F.negative x with
    | true =>
      refine (Int.compare_eq_lt.2 ?_).symm
      cases F.negative y <;> simp only [withSign, if_true, Bool.false_eq_true, if_false] <;> omega
    | false =>
      refine (Int.compare_eq_gt.2 ?_).symm
      cases F.negative y <;> simp only [withSign, if_true, Bool.false_eq_true, if_false] <;> omega
  · rw [decode_inf hx hF h1, decode_inf hy hF h2, h1, h2]
    refine congrArg some ?_
    cases F.negative x <;> cases F.negative y
    · exact (Std.compare_eq_iff_eq.2 rfl).symm
    · exact (Int.compare_eq_gt.2 (by simp only [withSign, if_true, Bool.false_eq_true, if_false]; omega)).symm
    · exact (Int.compare_eq_lt.2 (by simp only [withSign, if_true, Bool.false_eq_true, if_false]; omega)).symm
    · exact (Std.compare_eq_iff_eq.2 rfl).symm

omit hF in
/-- Sign and magnitude of a code read off the code. -/
theorem sign_and_mag (hb : 0 < F.bits) :
    (F.negative x = false ∧ x < 2 ^ (F.bits - 1) ∧ F.mag x = x) ∨
      (F.negative x = true ∧ 2 ^ (F.bits - 1) ≤ x ∧ F.mag x = x - 2 ^ (F.bits - 1)) := by
  have hpow := Nat.two_pow_pred_mul_two hb
  unfold negative mag
  rw [testBit_pred_width hb hx]
  by_cases h : x < 2 ^ (F.bits - 1)
  · exact .inl ⟨decide_eq_false (by omega), h, Nat.mod_eq_of_lt h⟩
  · refine .inr ⟨decide_eq_true (by omega), by omega, ?_⟩
    rw [Nat.mod_eq_sub_mod (by omega), Nat.mod_eq_of_lt (by omega)]

end

end FloatFmt

end Sys2Proof.Machine
end

section
/-! Selection, comparison and classification of floating codes (spec/07_vector_instructions.md R185). -/

namespace Sys2Proof.Machine

/-! ### The codes of sources -/

theorem signMod_lt {F : FloatFmt} (hb : 0 < F.bits) (neg abs : Bool) {x : Nat} (hx : x < 2 ^ F.bits) :
    signMod F neg abs x < 2 ^ F.bits := by
  have hpow := Nat.two_pow_pred_mul_two hb
  have habs : (if abs then x % 2 ^ (F.bits - 1) else x) < 2 ^ F.bits := by
    split
    · exact Nat.lt_of_le_of_lt (Nat.mod_le ..) hx
    · exact hx
  unfold signMod
  dsimp only
  generalize (if abs then x % 2 ^ (F.bits - 1) else x) = y at habs
  split
  · split <;> omega
  · exact habs

theorem daz_lt (F : FloatFmt) (mode : W32) (x : Nat) : daz F mode x < 2 ^ F.bits := by
  have hmod := Nat.mod_lt x (Nat.two_pow_pos F.bits)
  unfold daz
  dsimp only
  split <;> omega

theorem fltFmt_bits_pos (dt : Nat) : 0 < (fltFmt dt).bits := by
  unfold fltFmt
  split <;> decide

theorem fltFmt_hasInf (dt : Nat) : (fltFmt dt).hasInf = true := by
  unfold fltFmt
  split <;> rfl

/-- An element of a source is a code of its format. -/
theorem Ctx.fltSrc_code_lt (c : Ctx) (dt : Nat) (o : Opnd) (neg abs : Bool) (l e : Nat) :
    (c.fltSrc dt o neg abs true).code l e < 2 ^ (fltFmt dt).bits :=
  signMod_lt (fltFmt_bits_pos dt) neg abs (daz_lt _ _ _)

theorem Ctx.fltSrc_code_lt_word (c : Ctx) (dt : Nat) (o : Opnd) (neg abs : Bool) (l e : Nat) :
    (c.fltSrc dt o neg abs true).code l e < 2 ^ 32 := by
  have hbits : (fltFmt dt).bits ≤ 32 := by
    unfold fltFmt
    split <;> decide
  exact Nat.lt_of_lt_of_le (c.fltSrc_code_lt dt o neg abs l e) (Nat.pow_le_pow_right (by decide) hbits)

/-! ### FMIN and FMAX -/

/-- Codes in the order of their values, -0 below +0. -/
def FloatFmt.key (F : FloatFmt) (x : Nat) : Int :=
  if x < 2 ^ (F.bits - 1) then (x : Int) else 2 ^ (F.bits - 1) - 1 - (x : Int)

theorem FloatFmt.key_eq {F : FloatFmt} (hb : 0 < F.bits) {x : Nat} (hx : x < 2 ^ F.bits) :
    F.key x = if F.negative x then -1 - (F.mag x : Int) else F.mag x := by
  have hcast : (2 : Int) ^ (F.bits - 1) = ((2 ^ (F.bits - 1) : Nat) : Int) := by push_cast; rfl
  unfold FloatFmt.key
  rw [hcast]
  obtain ⟨hn, hl, hm⟩ | ⟨hn, hl, hm⟩ := sign_and_mag hx hb
  · rw [if_pos hl, hn, hm]
    rfl
  · rw [if_neg (by omega), hn, hm, if_pos rfl]
    omega

/-- The order of keys against that of the signed magnitudes: keys tell the zeros apart. -/
theorem FloatFmt.key_lt_iff {F : FloatFmt} (hb : 0 < F.bits) {x y : Nat} (hx : x < 2 ^ F.bits) (hy : y < 2 ^ F.bits) :
    F.key x < F.key y ↔ withSign (F.negative x) (F.mag x) < withSign (F.negative y) (F.mag y) ∨
      (withSign (F.negative x) (F.mag x) = withSign (F.negative y) (F.mag y) ∧ F.negative x = true ∧ F.negative y = false) := by
  rw [key_eq hb hx, key_eq hb hy]
  cases F.negative x <;> cases F.negative y <;>
    simp only [withSign, if_true, Bool.false_eq_true, if_false, reduceCtorEq, and_true, and_false, or_false] <;> omega

/-- Codes of the same sign and signed magnitude are one code. -/
theorem FloatFmt.eq_of_withSign {F : FloatFmt} (hb : 0 < F.bits) {x y : Nat} (hx : x < 2 ^ F.bits) (hy : y < 2 ^ F.bits)
    (hs : F.negative x = F.negative y) (h : withSign (F.negative x) (F.mag x) = withSign (F.negative y) (F.mag y)) : x = y := by
  obtain ⟨hnx, hlx, hmx⟩ | ⟨hnx, hlx, hmx⟩ := sign_and_mag hx hb <;>
    obtain ⟨hny, hly, hmy⟩ | ⟨hny, hly, hmy⟩ := sign_and_mag hy hb <;>
    simp only [hnx, hny, hmx, hmy, withSign, if_true, Bool.false_eq_true, if_false, reduceCtorEq] at h hs <;> omega

/-- The smaller or larger of two codes, told by their keys, and what NANP makes of NaNs (R133, R185). -/
def FloatFmt.pick (F : FloatFmt) (nanp : Nat) (larger : Bool) (x y : Nat) : Nat :=
  if (F.decode x).isNan && (F.decode y).isNan then F.nan.getD 0
  else if (F.decode x).isNan then (if nanp = 0 then y else F.nan.getD 0)
  else if (F.decode y).isNan then (if nanp = 0 then x else F.nan.getD 0)
  else if (F.key x < F.key y) != larger then x else y

section
variable {F : FloatFmt} (hb : 0 < F.bits) (hF : F.hasInf = true) {x y : Nat} (hx : x < 2 ^ F.bits) (hy : y < 2 ^ F.bits)
include hb hF hx hy

/-- The choice between two codes that are no NaN. -/
theorem minMax_numbers (nanp : Nat) (larger : Bool) (hnx : (F.decode x).isNan = false) (hny : (F.decode y).isNan = false) :
    minMax F nanp larger x y = if (F.key x < F.key y) != larger then x else y := by
  have hkey := F.key_lt_iff hb hx hy
  unfold minMax
  dsimp only
  rw [hnx, hny]
  simp only [Bool.and_self, Bool.false_eq_true, if_false]
  rw [FloatFmt.decode_cmp hx hF hy hnx hny, FloatFmt.decode_neg? hx hF hnx]
  rcases Int.lt_trichotomy (withSign (F.negative x) (F.mag x)) (withSign (F.negative y) (F.mag y)) with h | h | h
  · have hlt : F.key x < F.key y := hkey.2 (.inl h)
    rw [Int.compare_eq_lt.2 h, decide_eq_true hlt]
    cases larger <;> rfl
  · rw [Std.compare_eq_iff_eq.2 h]
    by_cases hs : F.negative x = F.negative y
    · have he := F.eq_of_withSign hb hx hy hs h
      subst he
      simp only [ite_self]
    · have hdec : decide (F.key x < F.key y) = F.negative x := by
        cases hnegx : F.negative x with
        | true =>
          have hnegy : F.negative y = false := by simpa [hnegx] using hs
          exact decide_eq_true (hkey.2 (.inr ⟨h, hnegx, hnegy⟩))
        | false =>
          refine decide_eq_false fun hlt => ?_
          rcases hkey.1 hlt with h' | ⟨-, h', -⟩
          · omega
          · rw [hnegx] at h'
            cases h'
      rw [hdec]
  · have hnlt : ¬ F.key x < F.key y := fun hlt => by rcases hkey.1 hlt with h' | ⟨h', -, -⟩ <;> omega
    rw [Int.compare_eq_gt.2 h, decide_eq_false hnlt]
    cases larger <;> rfl

theorem minMax_eq_pick (nanp : Nat) (larger : Bool) : minMax F nanp larger x y = F.pick nanp larger x y := by
  cases hnan : (F.decode x).isNan || (F.decode y).isNan with
  | true =>
    unfold minMax FloatFmt.pick
    dsimp only
    cases hnx : (F.decode x).isNan <;> cases hny : (F.decode y).isNan
    · simp [hnx, hny] at hnan
    all_goals rfl
  | false =>
    obtain ⟨hnx, hny⟩ := Bool.or_eq_false_iff.1 hnan
    rw [minMax_numbers hb hF hx hy nanp larger hnx hny]
    simp only [FloatFmt.pick, hnx, hny, Bool.and_self, Bool.false_eq_true, if_false]

omit hb hF in
theorem FloatFmt.pick_lt (hnan : F.nan.getD 0 < 2 ^ F.bits) (nanp : Nat) (larger : Bool) : F.pick nanp larger x y < 2 ^ F.bits := by
  unfold FloatFmt.pick
  split
  · exact hnan
  · split
    · split
      · exact hy
      · exact hnan
    · split
      · split
        · exact hx
        · exact hnan
      · split
        · exact hx
        · exact hy

end

theorem fltFmt_nan_lt (dt : Nat) : (fltFmt dt).nan.getD 0 < 2 ^ (fltFmt dt).bits := by
  unfold fltFmt
  split <;> decide

/-- The number that the words of a floating result are. -/
theorem blockVal_fltWords {dt x y : Nat} (hdt : dt < 4) (hx : x < 2 ^ (fltFmt dt).bits) (hy : y < 2 ^ (fltFmt dt).bits) :
    blockVal (fltWords dt x y) = x + if fltElems dt = 2 then y * 2 ^ (fltFmt dt).bits else 0 := by
  match dt, hdt with
  | 0, _ => exact (BitVec.toNat_ofNat _ _).trans (Nat.mod_eq_of_lt hx)
  | 1, _ =>
    have hx' : x < 2 ^ 16 := hx
    have hy' : y < 2 ^ 16 := hy
    exact (BitVec.toNat_ofNat _ _).trans (Nat.mod_eq_of_lt (show x + y * 2 ^ 16 < 2 ^ 32 by omega))
  | 2, _ =>
    have hx' : x < 2 ^ 16 := hx
    have hy' : y < 2 ^ 16 := hy
    exact (BitVec.toNat_ofNat _ _).trans (Nat.mod_eq_of_lt (show x + y * 2 ^ 16 < 2 ^ 32 by omega))
  | 3, _ =>
    have hx' : x < 2 ^ 32 := hx
    have hy' : y < 2 ^ 32 := hy
    have hwords : fltWords 3 x y = wordsOf 2 (x + y * 2 ^ 32) := by
      have hhigh : (x + y * 2 ^ 32) / 2 ^ 32 = y := by omega
      have hlow : BitVec.ofNat 32 (x + y * 2 ^ 32) = BitVec.ofNat 32 x := BitVec.eq_of_toNat_eq (by simp)
      change [BitVec.ofNat 32 x, BitVec.ofNat 32 y] = [BitVec.ofNat 32 (x + y * 2 ^ 32), BitVec.ofNat 32 ((x + y * 2 ^ 32) / 2 ^ 32)]
      rw [hhigh, hlow]
    rw [hwords]
    exact blockVal_wordsOf (.inr rfl) (show x + y * 2 ^ 32 < 2 ^ 64 by omega)

theorem length_fltWords (dt x y : Nat) : (fltWords dt x y).length = fltRegs dt := by
  match dt with
  | 0 => rfl
  | 1 => rfl
  | 2 => rfl
  | 3 => rfl
  | n + 4 => rfl

theorem fltRegs_cases (dt : Nat) : fltRegs dt = 1 ∨ fltRegs dt = 2 := by
  unfold fltRegs
  split <;> simp

section
variable {s : State} {f : Fields} {c : Ctx} {i : Instr}

/-- What FMIN and FMAX have in common: each element the choice between A's and B's. -/
theorem selectFlt_gives {larger : Bool} {opc : Nat} (hr : Runs s i f c) (hh : head i = some (opc, f))
    (hshape : shape (groupEnv c.t c.g) i = flt2 f (dtN f < 4) false) :
    ∃ t, selectFlt i f s larger = .next t ∧ (t.groupOf c).flags = c.g.flags ∧
      c.gives t (fltRegs (dtN f)) false fun l =>
        (fltFmt (dtN f)).pick (modeNANP c.sp.mode) larger (c.fltA.code l 0) (c.fltB.code l 0) +
          if fltElems (dtN f) = 2 then
            (fltFmt (dtN f)).pick (modeNANP c.sp.mode) larger (c.fltA.code l 1) (c.fltB.code l 1) * 2 ^ (fltFmt (dtN f)).bits
          else 0 := by
  obtain ⟨hok, -, -, hscope⟩ := hr.checks hh
  obtain ⟨-, -, rfl, -, -, -, -⟩ := State.ctx_some hr.issues.inHand
  rw [hshape] at hok hscope
  have hdt : dtN c.f < 4 := by
    simp only [flt2, fltShape, Bool.and_eq_true, decide_eq_true_eq] at hok
    obtain ⟨⟨h, -⟩, -⟩ := hok
    exact h
  have hu : BlockUse c.f.scope (shape (groupEnv c.t c.g) i).d (fltRegs (dtN c.f)) := by
    rw [hshape]
    exact dst_blockUse hscope (by have := fltRegs_cases (dtN c.f); omega)
  let el := fun (c' : Ctx) (l e : Nat) =>
    minMax (fltFmt (dtN c.f)) (modeNANP c'.sp.mode) larger (c'.fltA.code l e) (c'.fltB.code l e)
  obtain ⟨t, ht, -, hf, hg⟩ := registers_gives hr hh
    (body := fun c' => c'.write (fltRegs (dtN c.f)) (formOf (c'.fltA.tags ++ c'.fltB.tags)) false 0 fun l =>
      { w := fltWords (dtN c.f) (el c' l 0) (el c' l 1) })
    rfl hu (fltRegs_cases _) (fun l => length_fltWords ..) fun _ _ => formOf_describes ..
  refine ⟨t, ht, Ctx.flags_of_flagged_zero hf, Ctx.gives_congr hr.issues.active (fun l _ => ?_) hg⟩
  have ha := fun e => c.fltSrc_code_lt (dtN c.f) c.f.a (bit (xmN c.f) 0) (bit (xmN c.f) 3) l e
  have hb := fun e => c.fltSrc_code_lt (dtN c.f) c.f.b (bit (xmN c.f) 1) false l e
  have hel : ∀ e, el c l e = (fltFmt (dtN c.f)).pick (modeNANP c.sp.mode) larger (c.fltA.code l e) (c.fltB.code l e) :=
    fun e => minMax_eq_pick (fltFmt_bits_pos _) (fltFmt_hasInf _) (ha e) (hb e) _ _
  have hlt : ∀ e, el c l e < 2 ^ (fltFmt (dtN c.f)).bits := fun e => by
    rw [hel]
    exact FloatFmt.pick_lt (ha e) (hb e) (fltFmt_nan_lt _) _ _
  rw [← hel, ← hel]
  exact blockVal_fltWords hdt (hlt 0) (hlt 1)

/-! ### FCMP -/

/-- An FP32 code's signed magnitude, read off the code. -/
theorem withSign_fp32 {x : Nat} (hx : x < 2 ^ 32) :
    withSign (fp32.negative x) (fp32.mag x) = if x < 2 ^ 31 then (x : Int) else 2 ^ 31 - (x : Int) := by
  have hlit : fp32.bits - 1 = 31 := rfl
  obtain ⟨hn, hl, hm⟩ | ⟨hn, hl, hm⟩ := FloatFmt.sign_and_mag (F := fp32) hx (by decide)
  · rw [hn, hm]
    rw [hlit] at hl
    simp only [withSign, Bool.false_eq_true, if_false]
    omega
  · rw [hn, hm]
    rw [hlit] at hl ⊢
    simp only [withSign, if_true]
    omega

theorem Num.cmp_eq_none_of_nan {a b : Num} (h : (a.isNan || b.isNan) = true) : a.cmp b = none := by
  cases a with
  | nan => rfl
  | inf s =>
    cases b with
    | nan => rfl
    | inf _ => cases h
    | fin _ _ _ => cases h
  | fin s m e =>
    cases b with
    | nan => rfl
    | inf _ => cases h
    | fin _ _ _ => cases h

/-- The conditions of SUB on two values that compare as two integers do. -/
theorem fcmpOf_of_cmp {x y : Num} {a b : Int} (h : x.cmp y = some (compare a b)) (sub : Nat) :
    fcmpOf sub x y = ((sub == 0 && a == b) || (sub == 1 && a != b) || (sub == 2 && decide (a < b)) || (sub == 3 && decide (a ≤ b)) ||
      (sub == 4 && decide (b < a)) || (sub == 5 && decide (b ≤ a)) || sub == 6) := by
  have hlt : (compare a b == .lt) = decide (a < b) := by
    rw [Bool.eq_iff_iff, beq_iff_eq, Int.compare_eq_lt, decide_eq_true_iff]
  have hgt : (compare a b == .gt) = decide (b < a) := by
    rw [Bool.eq_iff_iff, beq_iff_eq, Int.compare_eq_gt, decide_eq_true_iff]
  have heq : (compare a b == .eq) = (a == b) := by
    rw [Bool.eq_iff_iff, beq_iff_eq, beq_iff_eq, Std.compare_eq_iff_eq]
  unfold fcmpOf
  rw [h]
  match sub with
  | 0 => simp [heq]
  | 1 => simp [bne, heq]
  | 2 => simp [hlt]
  | 3 =>
    change (!(compare a b == .gt)) = _
    rw [hgt, ← decide_not]
    simp only [Int.not_lt]
    simp
  | 4 => simp [hgt]
  | 5 =>
    change (!(compare a b == .lt)) = _
    rw [hlt, ← decide_not]
    simp only [Int.not_lt]
    simp
  | 6 => simp
  | n + 7 => simp

/-- The conditions of FCMP on codes. -/
theorem fcmpOf_codes (sub : Nat) {x y : Nat} (hx : x < 2 ^ 32) (hy : y < 2 ^ 32) :
    fcmpOf sub (num32 x) (num32 y) =
      let nan := (num32 x).isNan || (num32 y).isNan
      let key := fun (x : Nat) => if x < 2 ^ 31 then (x : Int) else 2 ^ 31 - (x : Int)
      (nan && (sub == 1 || sub == 7)) || (!nan && ((sub == 0 && key x == key y) || (sub == 1 && key x != key y) ||
        (sub == 2 && decide (key x < key y)) || (sub == 3 && decide (key x ≤ key y)) || (sub == 4 && decide (key y < key x)) ||
        (sub == 5 && decide (key y ≤ key x)) || sub == 6)) := by
  dsimp only
  cases hn : (num32 x).isNan || (num32 y).isNan with
  | true =>
    rw [fcmpOf, Num.cmp_eq_none_of_nan hn]
    simp
  | false =>
    obtain ⟨hnx, hny⟩ := Bool.or_eq_false_iff.1 hn
    have hcmp := FloatFmt.decode_cmp (F := fp32) hx rfl hy hnx hny
    rw [withSign_fp32 hx, withSign_fp32 hy] at hcmp
    rw [fcmpOf_of_cmp (x := num32 x) (y := num32 y) hcmp]
    rfl

/-! ### FCLASS -/

/-- The class bit of a code, read off the code. -/
theorem pow_classBit {x : Nat} (hx : x < 2 ^ 32) :
    2 ^ classBit x =
      let mag := x % 2 ^ 31
      if 0x7F800000 < mag then 256
      else if x < 2 ^ 31 then (if mag = 0 then 16 else if mag < 2 ^ 23 then 32 else if mag < 0x7F800000 then 64 else 128)
      else if mag = 0 then 8 else if mag < 2 ^ 23 then 4 else if mag < 0x7F800000 then 2 else 1 := by
  have hneg : x.testBit 31 = decide (2 ^ 31 ≤ x) := testBit_pred_width (w := 32) (by decide) hx
  unfold classBit
  dsimp only
  rw [hneg]
  generalize x % 2 ^ 31 = m
  by_cases h1 : 0x7F800000 < m
  · rewrite [if_pos h1, if_pos h1]
    rfl
  · rw [if_neg h1, if_neg h1]
    by_cases h2 : x < 2 ^ 31
    · rw [if_pos h2, decide_eq_false (by omega)]
      simp only [Bool.false_eq_true, if_false]
      split
      next =>
        rewrite [if_neg (by omega), if_neg (by omega), if_neg (by omega)]
        rfl
      next =>
        split
        · rfl
        · split
          · rfl
          · rewrite [if_pos (by omega)]
            rfl
    · rw [if_neg h2, decide_eq_true (by omega)]
      simp only [if_true]
      split
      next =>
        rewrite [if_neg (by omega), if_neg (by omega), if_neg (by omega)]
        rfl
      next =>
        split
        · rfl
        · split
          · rfl
          · rewrite [if_pos (by omega)]
            rfl

theorem classBit_le (x : Nat) : classBit x ≤ 8 := by
  unfold classBit
  dsimp only
  repeat' split
  all_goals omega

/-! ### The statement -/

theorem fcmp_ok (e : Env) (f : Fields) :
    (shape e (.fcmp f)).ok = (decide (dtN f = 0) && within (xmN f) 0xB && decide (subN f < 8)) := rfl

theorem fclass_ok (e : Env) (f : Fields) :
    (shape e (.fclass f)).ok = (decide (dtN f = 0) && within (xmN f) 0x9 && decide (subN f < 1)) := rfl

theorem fcmp_gives (hr : Runs s (.fcmp f) f c) :
    ∃ t, exec (.fcmp f) s = .next t ∧ (t.groupOf c).flags = c.g.flags ∧
      c.givesPred t fun l => fcmpOf (subN f) (num32 (c.fltA.code l 0)) (num32 (c.fltB.code l 0)) := by
  obtain ⟨t, ht, -, hf, hg⟩ := registers_givesPred hr rfl
    (body := fun c' => c'.write 0 .general false 0 fun l =>
      { w := [], p := fcmpOf (subN f) (num32 (c'.fltA.code l 0)) (num32 (c'.fltB.code l 0)) })
    rfl rfl fun _ => rfl
  exact ⟨t, ht, Ctx.flags_of_flagged_zero hf, hg⟩

theorem fclass_gives (hr : Runs s (.fclass f) f c) :
    ∃ t, exec (.fclass f) s = .next t ∧ (t.groupOf c).flags = c.g.flags ∧
      c.gives t 1 false fun l => 2 ^ classBit (signMod fp32 (bit (xmN f) 0) (bit (xmN f) 3) (c.g.value .upper f.a 1 l)) := by
  obtain ⟨hok, -, -, hscope⟩ := hr.checks rfl
  have hdt : dtN f = 0 := by
    rw [fclass_ok, Bool.and_eq_true, Bool.and_eq_true, decide_eq_true_eq] at hok
    exact hok.1.1
  have hu : BlockUse f.scope (shape (groupEnv c.t c.g) (.fclass f)).d 1 := by
    have h := dst_blockUse (f := f) (n := fltRegs (dtN f)) hscope (by rw [hdt]; decide)
    rw [hdt] at h
    change BlockUse f.scope (dst f (fltRegs (dtN f))) 1
    rw [hdt]
    exact h
  obtain ⟨t, ht, -, hf, hg⟩ := registers_gives hr rfl
    (body := fun c' => c'.write 1 (formOf (c'.fltSrc 0 f.a (bit (xmN f) 0) (bit (xmN f) 3) false).tags) false 0 fun l =>
      { w := [BitVec.ofNat 32 (2 ^ classBit ((c'.fltSrc 0 f.a (bit (xmN f) 0) (bit (xmN f) 3) false).code l 0))] })
    rfl hu (.inl rfl) (fun _ => rfl) fun _ _ => formOf_describes ..
  refine ⟨t, ht, Ctx.flags_of_flagged_zero hf, Ctx.gives_congr hr.issues.active (fun l _ => ?_) hg⟩
  refine (BitVec.toNat_ofNat _ _).trans (Nat.mod_eq_of_lt ?_)
  exact Nat.pow_lt_pow_right (by decide) (Nat.lt_of_le_of_lt (classBit_le _) (by decide))

/-- Settles O18: FMIN, FMAX and FCMP order values as their codes' magnitudes with their signs are ordered, and the class of a code is
read off the code. -/
theorem floatSelection : Obligations.FloatSelection := by
  refine ⟨fun s f i larger c hmem hr => ?_, fun s f c hr => ?_, fun e f h => ?_, fun s f c hr => ?_⟩
  · simp only [List.mem_cons, Prod.mk.injEq, List.not_mem_nil, or_false] at hmem
    rcases hmem with ⟨rfl, rfl⟩ | ⟨rfl, rfl⟩
    · exact selectFlt_gives hr rfl rfl
    · exact selectFlt_gives hr rfl rfl
  · obtain ⟨t, ht, hf, hg⟩ := fcmp_gives hr
    obtain ⟨-, -, rfl, -, -, -, -⟩ := State.ctx_some hr.issues.inHand
    refine ⟨t, ht, hf, Ctx.givesPred_congr hr.issues.active (fun l _ => fcmpOf_codes _ ?_ ?_) hg⟩
    · exact c.fltSrc_code_lt_word (dtN c.f) c.f.a _ _ l 0
    · exact c.fltSrc_code_lt_word (dtN c.f) c.f.b _ _ l 0
  · refine Instr.wf_of_not_ok rfl ?_
    rw [fcmp_ok, decide_eq_false (show ¬ subN f < 8 by omega), Bool.and_false]
  · obtain ⟨t, ht, hf, hg⟩ := fclass_gives hr
    refine ⟨t, ht, hf, Ctx.gives_congr hr.issues.active (fun l _ => pow_classBit ?_) hg⟩
    exact signMod_lt (by decide) _ _ (Group.value_lt _ _ _ (.inl rfl) l)

end

end Sys2Proof.Machine
end

section
/-! PLOP and PMOV (spec/07_vector_instructions.md R188, R189). -/

namespace Sys2Proof.Machine

section
variable {s : State} {f : Fields} {c : Ctx} {i : Instr}

/-! ### Shapes of results -/

section
variable {signed : Bool} {draws : Nat} {out : Nat → LaneOut} {m : Fin 256} {q : Perm} (hd : c.f.d = .v m q) (g : Group)
include hd

/-- A general result of one register leaves it general. -/
theorem Ctx.result_vreg_general (hs : c.f.scope ≠ .group) (ha : c.act ≠ 0) :
    ∃ x, (c.result 1 (fun _ => .general) signed draws out g).vreg m.val = .general x := by
  unfold Ctx.result
  rw [if_neg hs, hd]
  exact Group.writeLane_general g _ m.isLt ha

/-- A GROUP-scope result of one register leaves it uniform (R126). -/
theorem Ctx.result_vreg_uniform {form : Nat → Form} (hs : c.f.scope = .group) (hlen : (out c.designated).w.length = 1) :
    ∃ x, (c.result 1 form signed draws out g).vreg m.val = .uniform x := by
  unfold Ctx.result
  rw [if_pos hs, hd]
  simp only [Group.putGroup, hlen]
  exact ⟨_, nth_put_same _ _ _ m.isLt⟩

end

/-- The destination of an instruction that writes one 32-bit value for the group. -/
theorem noLaneS_blockUse {f : Fields} (hs : f.scope ∈ [Scope.group]) : BlockUse f.scope (noLaneS f { uVS with k := true }) 1 := by
  have h : f.scope = .group := List.mem_singleton.1 hs
  rw [noLaneS, h, if_neg (by decide)]
  exact BlockUse.of_group rfl (by decide) rfl ⟨rfl, rfl, rfl, rfl, rfl⟩

theorem lane_blockUse {f : Fields} {n : Nat} {u : Use} (hs : f.scope ∈ [Scope.lane]) (hn : 0 < n)
    (hu : u = { uV n with k := true }) : BlockUse f.scope u n := by
  rw [List.mem_singleton.1 hs, hu]
  exact BlockUse.of_lane rfl hn rfl rfl ⟨rfl, rfl, rfl, rfl, rfl⟩

/-! ### PLOP -/

theorem getLsbD_predNeg (g : Group) (neg : Bool) (o : Opnd) {l : Nat} (hl : l < 32) :
    (g.predNeg neg o).getLsbD l = ((g.predOf o).getLsbD l ^^ neg) := by
  unfold Group.predNeg
  cases neg with
  | true => simp [hl]
  | false => simp

/-- The operation of PLOP on masks. -/
def plopMask (sub : Nat) (a b : Mask) : Mask :=
  match sub with
  | 0 => a &&& b
  | 1 => a ||| b
  | 2 => a ^^^ b
  | _ => a

theorem getLsbD_plopMask (sub : Nat) (a b : Mask) (l : Nat) :
    (plopMask sub a b).getLsbD l =
      if sub = 0 then a.getLsbD l && b.getLsbD l else if sub = 1 then a.getLsbD l || b.getLsbD l
      else if sub = 2 then a.getLsbD l ^^ b.getLsbD l else a.getLsbD l := by
  match sub with
  | 0 => exact BitVec.getLsbD_and
  | 1 => exact BitVec.getLsbD_or
  | 2 => exact BitVec.getLsbD_xor
  | n + 3 => rfl

theorem plop_gives (hr : Runs s (.plop f) f c) :
    ∃ t, exec (.plop f) s = .next t ∧ c.givesPred t fun l =>
      (plopMask (subN f) (c.g.predNeg (bit (xmN f) 0) f.a) (c.g.predNeg (bit (xmN f) 1) f.b)).getLsbD l := by
  obtain ⟨t, ht, -, -, hg⟩ := registers_givesPred hr rfl
    (body := fun c' => c'.write 0 .general false 0 fun l =>
      { w := [], p := (plopMask (subN f) (c'.g.predNeg (bit (xmN f) 0) f.a) (c'.g.predNeg (bit (xmN f) 1) f.b)).getLsbD l })
    rfl rfl fun _ => rfl
  exact ⟨t, ht, hg⟩

theorem plop_ok (e : Env) (f : Fields) :
    (shape e (.plop f)).ok = (decide (dtN f = 0) && decide (subN f < 4) && within (xmN f) (if subN f = 3 then 1 else 3)) := rfl

/-! ### PMOV -/

theorem pmovTov_gives (hr : Runs s (.pmovTov f) f c) :
    ∃ t, exec (.pmovTov f) s = .next t ∧ c.gives t 1 false (fun l => if (c.g.predOf f.a).getLsbD l then 1 else 0) ∧
      ∀ n q, f.d = .v n q → ∃ x, (t.groupOf c).vreg n.val = .general x := by
  obtain ⟨-, hok, hq, hscope⟩ := hr.checks rfl
  have hu : BlockUse f.scope (shape (groupEnv c.t c.g) (.pmovTov f)).d 1 := lane_blockUse hscope (by decide) rfl
  have hlane : f.scope = .lane := List.mem_singleton.1 hscope
  obtain ⟨t, l, ht, -, hg⟩ := registers_writeBy hr rfl
    (body := fun c' => c'.write 1 .general false 0 fun l => { w := [if (c'.g.predOf f.a).getLsbD l then 1 else 0] })
    rfl hu fun _ => rfl
  refine ⟨t, ht, Ctx.gives_congr hr.issues.active (fun k _ => ?_) (Ctx.gives_result (form := fun _ => .general)
    hr.issues.inHand hr.issues.active
    (hu.laneBlock hok hq) (hu.groupBlock hok hq) (.inl rfl) (fun _ => rfl) (fun _ _ => trivial) hg), fun n q hd => ?_⟩
  · simp only [blockVal]
    split <;> rfl
  · obtain ⟨-, -, rfl, -, -, -, -⟩ := State.ctx_some hr.issues.inHand
    rw [hg, Group.modSplit_vreg]
    exact Ctx.result_vreg_general hd _ (by rw [hlane]; decide) hr.issues.active

theorem toNat_bne_zero (x : W32) : (x.toNat != 0) = (x != 0) := by
  rw [Bool.eq_iff_iff, bne_iff_ne, bne_iff_ne, ne_eq, ne_eq, ← BitVec.toNat_inj]
  rfl

theorem pmovFromv_gives (hr : Runs s (.pmovFromv f) f c) :
    ∃ t, exec (.pmovFromv f) s = .next t ∧ c.givesPred t fun l => c.g.value .unsigned f.a 1 l != 0 := by
  obtain ⟨t, ht, -, -, hg⟩ := registers_givesPred hr rfl
    (body := fun c' => c'.write 0 .general false 0 fun l => { w := [], p := (c'.g.word .unsigned f.a 0).at l != 0 })
    rfl rfl fun _ => rfl
  exact ⟨t, ht, Ctx.givesPred_congr hr.issues.active (fun l _ => (toNat_bne_zero _).symm) hg⟩

theorem pmovPack_gives (hr : Runs s (.pmovPack f) f c) :
    ∃ t, exec (.pmovPack f) s = .next t ∧ c.gives t 1 false fun _ => (c.g.predOf f.a).toNat := by
  obtain ⟨-, -, -, hscope⟩ := hr.checks rfl
  obtain ⟨t, ht, -, -, hg⟩ := registers_gives hr rfl
    (body := fun c' => c'.write 1 .uniform false 0 fun _ => maskOut (c'.g.predOf f.a))
    rfl (noLaneS_blockUse hscope) (.inl rfl) (fun _ => rfl) fun _ _ => trivial
  exact ⟨t, ht, hg⟩

theorem pmovUnpk_gives {n : Fin 8} (hr : Runs s (.pmovUnpk f) f c) (hd : f.d = .p n) (hn : n.val < 7) :
    ∃ t, exec (.pmovUnpk f) s = .next t ∧ ((t.groupOf c).pred n.val).toNat = c.g.value .unsigned f.a 1 c.designated := by
  have hw : c.written = spanOf uP (.p n) := by rw [Ctx.written_eq hr.issues.inHand, hd]; rfl
  have htame : Tame c.written 0 fun g => g.putP n.val allLanes ((c.g.word .unsigned f.a 0).at c.designated) := by
    rw [hw]
    refine ⟨fun g => RegsKept.putP _ _ fun _ => ?_, fun g => GrowsBy.putP ..⟩
    simp only [spanOf, show ¬ n.val = 7 by omega, if_false]
    exact covers_single _ _ _ _ (by omega) (by omega)
  obtain ⟨t, l, ht, -, hg⟩ := registers_run hr
    (body := fun c' => match f.d with
      | .p n => .done fun g => g.putP n.val allLanes ((c'.g.word .unsigned f.a 0).at c'.designated)
      | _ => .done id)
    (by rw [hd]) htame (Nat.zero_le _)
  refine ⟨t, ht, ?_⟩
  rw [hg, Group.modSplit_pred, Group.value_one]
  refine congrArg BitVec.toNat (BitVec.eq_of_getLsbD_eq fun k hk => ?_)
  rw [Group.pred_putP _ _ _ hn hk, getLsbD_allLanes hk, if_pos rfl]

/-! ### Reserved words of PMOV -/

/-- SUB stands in bits 31:28 of a word. -/
theorem decodeFields_sub {w : Nat} {f : Fields} (h : decodeFields w = some f) : subN f = w / 2 ^ 28 % 16 := by
  simp only [decodeFields, fieldWidths, unpack, Option.bind_eq_bind, Option.bind_eq_some_iff, Option.pure_def, Option.some.injEq] at h
  obtain ⟨gp, -, la, -, d, -, a, -, b, -, cc, -, rfl⟩ := h
  simp only [subN, BitVec.toNat_ofNat, Nat.div_div_eq_div_mul]
  omega

theorem buildPmov_reserved {f : Fields} (h : 4 ≤ subN f) : buildPmov f = none := by
  unfold buildPmov
  split
  next => omega
  next => omega
  next => omega
  next => omega
  next => rfl

theorem decode_pmov_reserved (e : Env) {w : InsWord} (i : Instr) (hopc : w.toNat % 256 = 0x61) (hsub : 4 ≤ w.toNat / 2 ^ 28 % 16) :
    decode e w ≠ .ok i := by
  unfold decode
  rw [hopc]
  intro h
  cases hf : decodeFields w.toNat with
  | none => rw [hf] at h; cases h
  | some f =>
    have hs : 4 ≤ subN f := by rw [decodeFields_sub hf]; exact hsub
    have hbuild : build 0x61 f = some none := congrArg some (buildPmov_reserved hs)
    rw [hf] at h
    simp only [hbuild] at h
    cases h

/-- Settles O21: each form is one write of a predicate or of one register; a reserved SUB names no PLOP and no form of PMOV. -/
theorem predicateResults : Obligations.PredicateResults := by
  refine ⟨fun s f c hr => ?_, fun s f c hr => pmovTov_gives hr, fun s f c hr => pmovFromv_gives hr, fun s f c hr => pmovPack_gives hr,
    fun s f n c hd hn hr => pmovUnpk_gives hr hd hn, fun e f h => ?_, fun e w i hopc hsub => decode_pmov_reserved e i hopc hsub⟩
  · obtain ⟨t, ht, hg⟩ := plop_gives hr
    refine ⟨t, ht, Ctx.givesPred_congr hr.issues.active (fun l hl => ?_) hg⟩
    rw [getLsbD_plopMask, getLsbD_predNeg _ _ _ hl, getLsbD_predNeg _ _ _ hl]
    rfl
  · refine Instr.wf_of_not_ok rfl ?_
    rw [plop_ok, decide_eq_false (show ¬ subN f < 4 by omega), Bool.and_false, Bool.false_and]

end

end Sys2Proof.Machine
end

section
/-! ACTM, MOV, MOVI, PERM and MATCH (spec/07_vector_instructions.md R191, R192, R193, R195). -/

namespace Sys2Proof.Machine

section
variable {s : State} {f : Fields} {c : Ctx} {i : Instr}

/-! ### Words of a block in a lane -/

/-- The number that a block's words in a lane are. -/
theorem blockVal_words (g : Group) (k : ImmKind) (o : Opnd) {n : Nat} (hn : n = 1 ∨ n = 2) (l : Nat) :
    blockVal ((List.range n).map fun j => (g.word k o j).at l) = g.value k o n l := by
  rcases hn with rfl | rfl <;> rfl

theorem blockVal_zeros {n : Nat} (hn : n = 1 ∨ n = 2) : blockVal ((List.range n).map fun _ => (0 : W32)) = 0 := by
  rcases hn with rfl | rfl <;> rfl

theorem append_inj {a b x y : W32} (h : (a ++ b : W64).toNat = (x ++ y : W64).toNat) : a = x ∧ b = y := by
  simp only [BitVec.toNat_append] at h
  rw [← Nat.shiftLeft_add_eq_or_of_lt b.isLt, ← Nat.shiftLeft_add_eq_or_of_lt y.isLt, Nat.shiftLeft_eq, Nat.shiftLeft_eq] at h
  exact ⟨BitVec.eq_of_toNat_eq (by omega), BitVec.eq_of_toNat_eq (by omega)⟩

/-- Blocks hold the same number in two lanes where they hold the same words. -/
theorem words_beq_eq (g : Group) (k : ImmKind) (o : Opnd) {n : Nat} (hn : n = 1 ∨ n = 2) (l m : Nat) :
    (((List.range n).map fun j => (g.word k o j).at l) == (List.range n).map fun j => (g.word k o j).at m) =
      (g.value k o n l == g.value k o n m) := by
  rw [Bool.eq_iff_iff, beq_iff_eq, beq_iff_eq]
  refine ⟨fun h => by rw [← blockVal_words _ _ _ hn, h, blockVal_words _ _ _ hn], fun h => ?_⟩
  rcases hn with rfl | rfl
  · rw [Group.value_one, Group.value_one, BitVec.toNat_inj] at h
    simp [List.range_succ, h]
  · rw [Group.value_two, Group.value_two] at h
    obtain ⟨hhigh, hlow⟩ := append_inj h
    simp [List.range_succ, hhigh, hlow]

/-- The shape of a source describes what it presents. -/
theorem VReg.form_describes (r : VReg) : r.form.describes r.at := by
  cases r with
  | affine b st => exact fun _ _ => rfl
  | uniform u => trivial
  | general v => trivial

theorem getD_map_range {α : Type} (x : Nat → α) (d : α) {n j : Nat} (hj : j < n) : ((List.range n).map x).getD j d = x j := by
  simp [List.getD_eq_getElem?_getD, hj]

theorem dtN_succ_cases {n : Nat} (h : n < 2) : n + 1 = 1 ∨ n + 1 = 2 := by omega

/-! ### ACTM -/

/-- The mask that ACTM reads. -/
def Ctx.threadMask (c : Ctx) (sub : Nat) : Mask :=
  match sub with
  | 0 => c.sp.mask
  | 1 => c.g.live
  | _ => c.act

theorem Ctx.threadMask_eq (c : Ctx) (sub : Nat) :
    c.threadMask sub = if sub = 0 then c.sp.mask else if sub = 1 then ~~~c.g.exited else c.act := by
  match sub with
  | 0 => rfl
  | 1 => rfl
  | n + 2 => rfl

theorem actm_gives (hr : Runs s (.actm f) f c) :
    ∃ t, exec (.actm f) s = .next t ∧ (∀ n q, f.d = .v n q → ∃ x, (t.groupOf c).vreg n.val = .uniform x) ∧
      c.gives t 1 false fun _ => (c.threadMask (subN f)).toNat := by
  obtain ⟨-, hok, hq, hscope⟩ := hr.checks rfl
  have hu := noLaneS_blockUse hscope
  have hgroup : f.scope = .group := List.mem_singleton.1 hscope
  obtain ⟨t, l, ht, -, hg⟩ := registers_writeBy hr rfl
    (body := fun c' => c'.write 1 .uniform false 0 fun _ => maskOut (c'.threadMask (subN f)))
    rfl hu fun _ => rfl
  refine ⟨t, ht, fun n q hd => ?_, Ctx.gives_result (form := fun _ => .uniform) hr.issues.inHand hr.issues.active
    (hu.laneBlock hok hq) (hu.groupBlock hok hq) (.inl rfl) (fun _ => rfl) (fun _ _ => trivial) hg⟩
  obtain ⟨-, -, rfl, -, -, -, -⟩ := State.ctx_some hr.issues.inHand
  rw [hg, Group.modSplit_vreg]
  exact Ctx.result_vreg_uniform hd _ hgroup rfl

theorem actm_ok (e : Env) (f : Fields) : (shape e (.actm f)).ok = (decide (dtN f = 0) && decide (subN f < 3) && decide (xmN f = 0)) := rfl

/-! ### MOV and MOVI -/

theorem mov_ok (e : Env) (f : Fields) : (shape e (.mov f)).ok = (decide (dtN f < 2) && decide (subN f = 0) && decide (xmN f = 0)) := rfl

theorem mov_gives (hr : Runs s (.mov f) f c) :
    ∃ t, exec (.mov f) s = .next t ∧ c.gives t (dtN f + 1) false fun l => c.g.value .unsigned f.a (dtN f + 1) l := by
  obtain ⟨hok, -, -, hscope⟩ := hr.checks rfl
  rw [mov_ok, Bool.and_eq_true, Bool.and_eq_true, decide_eq_true_eq] at hok
  obtain ⟨⟨hdt, -⟩, -⟩ := hok
  have hn := dtN_succ_cases hdt
  obtain ⟨t, ht, -, -, hg⟩ := registers_gives hr rfl
    (body := fun c' => c'.writeBy (dtN f + 1) (fun j => (c'.g.word .unsigned f.a j).form) false 0 fun l =>
      { w := (List.range (dtN f + 1)).map fun j => (c'.g.word .unsigned f.a j).at l })
    rfl (dst_blockUse hscope (Nat.succ_pos _)) hn (fun l => by simp) fun j hj => by
      simp only [getD_map_range _ _ hj]
      exact VReg.form_describes _
  exact ⟨t, ht, Ctx.gives_congr hr.issues.active (fun l _ => blockVal_words _ _ _ hn l) hg⟩

theorem movi_ok (e : Env) (f : Fields) :
    (shape e (.movi f)).ok = (decide (dtN f = 0) && decide (xmN f = 0) && (decide (subN f = 0) || (decide (subN f = 1) && isScalar f.d))) := by
  cases f with
  | mk scope gp gn la reuse yield rnd sat dt sub xm d a b c => cases d <;> rfl

theorem movi_gives {x y : BitVec 16} (hr : Runs s (.movi f) f c) (hx : f.a = .imm x) (hy : f.b = .imm y) :
    ∃ t, exec (.movi f) s = .next t ∧ c.gives t 1 (subN f == 1) fun _ => x.toNat + y.toNat * 2 ^ 16 := by
  obtain ⟨-, -, -, hscope⟩ := hr.checks rfl
  have hdst := dst_blockUse (f := f) (n := 1) hscope (by decide)
  obtain ⟨t, ht, -, -, hg⟩ := registers_gives hr rfl
    (body := fun c' => c'.write 1 .uniform (decide (subN f = 1)) 0 fun _ =>
      { w := [BitVec.ofNat 32 (immVal f.a + immVal f.b * 2 ^ 16)] })
    rfl ⟨hdst.v, hdst.pos, hdst.lane, hdst.group, hdst.others⟩ (.inl rfl) (fun _ => rfl) fun _ _ => trivial
  refine ⟨t, ht, Ctx.gives_congr hr.issues.active (fun l _ => ?_) hg⟩
  have hxl := x.isLt
  have hyl := y.isLt
  rw [hx, hy]
  exact (BitVec.toNat_ofNat _ _).trans (Nat.mod_eq_of_lt (show x.toNat + y.toNat * 2 ^ 16 < 2 ^ 32 by omega))

/-! ### PERM -/

theorem perm_ok (e : Env) (f : Fields) : (shape e (.perm f)).ok = (decide (dtN f < 2) && decide (subN f < 2) && decide (xmN f = 0)) := rfl

theorem perm_gives (hr : Runs s (.perm f) f c) :
    ∃ t, exec (.perm f) s = .next t ∧ c.gives t (dtN f + 1) false fun l =>
      let j := c.g.value .unsigned f.b 1 l
      if subN f = 0 then c.g.value .unsigned f.a (dtN f + 1) (j % 32)
      else if j < 32 then c.g.value .unsigned f.a (dtN f + 1) j else 0 := by
  obtain ⟨hok, -, -, hscope⟩ := hr.checks rfl
  rw [perm_ok, Bool.and_eq_true, Bool.and_eq_true, decide_eq_true_eq] at hok
  obtain ⟨⟨hdt, -⟩, -⟩ := hok
  have hn := dtN_succ_cases hdt
  obtain ⟨t, ht, -, -, hg⟩ := registers_gives hr rfl
    (body := fun c' => c'.writeBy (dtN f + 1) (fun j => formOf [c'.g.word .unsigned f.a j, c'.g.word .unsigned f.b 0]) false 0 fun l =>
      { w := (List.range (dtN f + 1)).map fun j =>
          if subN f = 0 then (c'.g.word .unsigned f.a j).at (((c'.g.word .unsigned f.b 0).at l).toNat % 32)
          else if ((c'.g.word .unsigned f.b 0).at l).toNat < 32 then
            (c'.g.word .unsigned f.a j).at ((c'.g.word .unsigned f.b 0).at l).toNat else 0 })
    rfl (lane_blockUse hscope (Nat.succ_pos _) rfl) hn (fun l => by simp) fun _ _ => formOf_describes ..
  refine ⟨t, ht, Ctx.gives_congr hr.issues.active (fun l _ => ?_) hg⟩
  simp only [Group.value_one]
  by_cases h0 : subN f = 0
  · simp only [if_pos h0]
    exact blockVal_words _ _ _ hn _
  · by_cases hk : ((c.g.word .unsigned f.b 0).at l).toNat < 32
    · simp only [if_neg h0, if_pos hk]
      exact (blockVal_words _ _ _ hn _).trans (if_pos hk).symm
    · simp only [if_neg h0, if_neg hk]
      exact (blockVal_zeros hn).trans (if_neg hk).symm

/-! ### MATCH -/

/-- The contributors whose A holds the same number as lane l's. -/
def Ctx.sameMask (c : Ctx) (val : Nat → Nat) (l : Nat) : Mask := maskOf fun k => c.act.getLsbD k && val k == val l

theorem Ctx.toNat_sameMask (c : Ctx) (val : Nat → Nat) (l : Nat) :
    (c.sameMask val l).toNat =
      ((List.range 32).filter fun k => c.act.getLsbD k && val k == val l).foldl (fun n k => n + 2 ^ k) 0 := by
  rw [Ctx.sameMask, toNat_maskOf, List.foldl_filter]

/-- Every contributor's number is the same where a contributor's own is that of all. -/
theorem Ctx.sameMask_beq_act {c : Ctx} {val : Nat → Nat} {l : Nat} (hl : l ∈ lanesOf c.act) :
    (c.sameMask val l == c.act) = (lanesOf c.act).all fun j => (lanesOf c.act).all fun k => val j == val k := by
  rw [Bool.eq_iff_iff, beq_iff_eq]
  simp only [List.all_eq_true, beq_iff_eq]
  have hbit : ∀ k, k < 32 → (c.sameMask val l).getLsbD k = (c.act.getLsbD k && val k == val l) := fun k hk => getLsbD_maskOf _ hk
  refine ⟨fun h j hj k hk => ?_, fun h => BitVec.eq_of_getLsbD_eq fun k hk => ?_⟩
  · have hown : ∀ k, k ∈ lanesOf c.act → val k = val l := by
      intro k hk
      obtain ⟨hk, hact⟩ := mem_lanesOf.1 hk
      have hb := hbit k hk
      rw [h, hact, Bool.true_and] at hb
      exact beq_iff_eq.1 hb.symm
    rw [hown j hj, hown k hk]
  · rw [hbit k hk]
    cases hact : c.act.getLsbD k with
    | false => rfl
    | true => exact beq_iff_eq.2 (h k (mem_lanesOf.2 ⟨hk, hact⟩) l hl)

theorem match_ok (e : Env) (f : Fields) :
    (shape e (.matchLanes f)).ok = (decide (dtN f < 2) && decide (subN f < 2) && decide (xmN f = 0)) := rfl

theorem match_dest (e : Env) (f : Fields) : (shape e (.matchLanes f)).d = if subN f = 1 then uP else { uV 1 with k := true } := rfl

/-- The effect of MATCH. -/
def matchBody (f : Fields) (c : Ctx) : Eff :=
  c.write 1 (formOf ((List.range (dtN f + 1)).map fun j => c.g.word .unsigned f.a j)) false 0 fun l =>
    { w := [maskOf fun k => c.act.getLsbD k &&
        ((List.range (dtN f + 1)).map fun j => (c.g.word .unsigned f.a j).at k) ==
          (List.range (dtN f + 1)).map fun j => (c.g.word .unsigned f.a j).at l],
      p := (maskOf fun k => c.act.getLsbD k &&
        ((List.range (dtN f + 1)).map fun j => (c.g.word .unsigned f.a j).at k) ==
          (List.range (dtN f + 1)).map fun j => (c.g.word .unsigned f.a j).at l) == c.act }

theorem exec_match (f : Fields) (s : State) : exec (.matchLanes f) s = registers (.matchLanes f) f s (matchBody f) := rfl

theorem matchBody_eq (f : Fields) (c : Ctx) (hdt : dtN f < 2) :
    matchBody f c = c.write 1 (formOf ((List.range (dtN f + 1)).map fun j => c.g.word .unsigned f.a j)) false 0 fun l =>
      { w := [c.sameMask (c.g.value .unsigned f.a (dtN f + 1)) l],
        p := c.sameMask (c.g.value .unsigned f.a (dtN f + 1)) l == c.act } := by
  unfold matchBody Ctx.sameMask
  simp only [words_beq_eq _ _ _ (dtN_succ_cases hdt)]

theorem match_gives (hr : Runs s (.matchLanes f) f c) :
    let val := c.g.value .unsigned f.a (dtN f + 1)
    ∃ t, exec (.matchLanes f) s = .next t ∧
      if subN f = 0 then
        c.gives t 1 false fun l => ((List.range 32).filter fun k => c.act.getLsbD k && val k == val l).foldl (fun n k => n + 2 ^ k) 0
      else c.givesPred t fun _ => (lanesOf c.act).all fun j => (lanesOf c.act).all fun k => val j == val k := by
  intro val
  obtain ⟨hok, -, -, hscope⟩ := hr.checks rfl
  rw [match_ok, Bool.and_eq_true, Bool.and_eq_true, decide_eq_true_eq, decide_eq_true_eq] at hok
  obtain ⟨⟨hdt, hsub⟩, -⟩ := hok
  rw [exec_match]
  by_cases h0 : subN f = 0
  · have hu : BlockUse f.scope (shape (groupEnv c.t c.g) (.matchLanes f)).d 1 := by
      rw [match_dest, if_neg (by omega)]
      exact lane_blockUse hscope (by decide) rfl
    obtain ⟨t, ht, -, -, hg⟩ := registers_gives hr rfl (matchBody_eq f c hdt) hu (.inl rfl) (fun _ => rfl)
      fun _ _ => formOf_describes ..
    refine ⟨t, ht, ?_⟩
    rw [if_pos h0]
    exact Ctx.gives_congr hr.issues.active (fun l _ => c.toNat_sameMask val l) hg
  · have hu : (shape (groupEnv c.t c.g) (.matchLanes f)).d = uP := by rw [match_dest, if_pos (by omega)]
    obtain ⟨t, ht, -, -, hg⟩ := registers_givesPred hr rfl (matchBody_eq f c hdt) hu fun _ => rfl
    refine ⟨t, ht, ?_⟩
    rw [if_neg h0]
    exact Ctx.givesPred_congr_act hr.issues.active (fun l hl => Ctx.sameMask_beq_act hl) hg

/-- Settles O22: each form is one write, of a mask, of a source's words in the thread's own or in another lane, or of what the
contributors' numbers have in common; a reserved SUB fails the entry's check. -/
theorem laneResults : Obligations.LaneResults := by
  refine ⟨fun s f c hr => ?_, fun s f c hr => mov_gives hr, fun s f x y c hx hy hr => movi_gives hr hx hy, fun s f c hr => perm_gives hr,
    fun s f c hr => match_gives hr, fun e f h => ?_, fun e f h => ?_, fun e f h => ?_, fun e f h => ⟨?_, ?_⟩⟩
  · obtain ⟨t, ht, hv, hg⟩ := actm_gives hr
    rw [Ctx.threadMask_eq] at hg
    exact ⟨t, ht, hv, hg⟩
  · refine Instr.wf_of_not_ok rfl ?_
    rw [actm_ok, decide_eq_false (show ¬ subN f < 3 by omega), Bool.and_false, Bool.false_and]
  · refine Instr.wf_of_not_ok rfl ?_
    rw [mov_ok, decide_eq_false (show ¬ subN f = 0 by omega), Bool.and_false, Bool.false_and]
  · refine Instr.wf_of_not_ok rfl ?_
    have hsub : (decide (subN f = 0) || (decide (subN f = 1) && isScalar f.d)) = false := by
      rcases h with h | ⟨h, hs⟩
      · rw [decide_eq_false (by omega), decide_eq_false (by omega), Bool.false_and, Bool.or_false]
      · rw [decide_eq_false (by omega), hs, Bool.and_false, Bool.or_false]
    rw [movi_ok, hsub, Bool.and_false]
  · refine Instr.wf_of_not_ok rfl ?_
    rw [perm_ok, decide_eq_false (show ¬ subN f < 2 by omega), Bool.and_false, Bool.false_and]
  · refine Instr.wf_of_not_ok rfl ?_
    rw [match_ok, decide_eq_false (show ¬ subN f < 2 by omega), Bool.and_false, Bool.false_and]

end

end Sys2Proof.Machine
end

section
/-! SETFMT, SETMODE, GETFMT, GETMODE and SETSEED (spec/07_vector_instructions.md R201, R202; spec/06_number_formats.md R132, R133):
words that change the executing split's own copy, or the group's seeds and counters, and no register. -/

namespace Sys2Proof.Machine

section
variable {s : State} {f : Fields} {c : Ctx} {i : Instr}

/-! ### Words that write no V register -/

/-- Changing a split changes its group in the splits alone. -/
theorem Group.modSplit_with (g : Group) (n : Nat) (k : Split → Split) (sp : Vector (Option Split) 4) (l : Option Latch) :
    ({ g.modSplit n k with splits := sp, latch := l } : Group) = { g with splits := sp, latch := l } := by
  rw [Group.modSplit_eq]

theorem Group.modSplit_latch_eq (g : Group) (n : Nat) (k : Split → Split) (l : Option Latch) :
    ({ g.modSplit n k with latch := l } : Group) = { g with splits := (g.modSplit n k).splits, latch := l } :=
  congrArg (fun x : Group => { x with latch := l }) (Group.modSplit_eq g n k)

/-- A register-only instruction that makes no register general completes with its effect on its group and split. -/
theorem registers_became {body : Ctx → Eff} {e h : Group → Group} {k : Split → Split} (hi : Issues s i f c) (hb : body c = .done e)
    (hgen : (e c.g).generals ≤ c.g.generals) (hidx : ∀ g, (e g).index = g.index)
    (hregs : ∀ sp l, ({ e { c.g with splits := sp, latch := l } with splits := c.g.splits, latch := c.g.latch } : Group) = h c.g)
    (hown : ∀ g, c.who.split < 4 → (e g).split? c.who.split = (g.split? c.who.split).map k)
    (hothers : ∀ g n, n ≠ c.who.split → (e g).split? n = g.split? n) (hk : ∀ x, (k x).next = k x.next) :
    ∃ t, registers i f s body = .next t ∧ Became s t c h k := by
  obtain ⟨-, -, -, -, -, hsp, -⟩ := State.ctx_some hi.inHand
  have hg := State.ctx_group hi.inHand
  have hlt := Group.split?_lt hsp
  have hover : c.g.overCeiling (e c.g).generals = false := by
    rw [Bool.eq_false_iff, ne_eq, Group.overCeiling_iff]
    omega
  refine ⟨_, registers_done hi.inHand hi.sources hb hi.active hover hi.kept,
    ((OnlyGroup.issued s c).trans (OnlyGroup.modGroup _ c.who e hidx)).trans (OnlyGroup.modSplit _ c.who _), ?_⟩
  obtain ⟨l, hl⟩ := State.issued_group hg
  have h1 := (s.issued c).group?_modGroup c.who.team c.who.group e hidx
  rw [hl] at h1
  have h2 := ((s.issued c).modGroup c.who.team c.who.group e).group?_modSplit c.who Split.next
  rw [h1] at h2
  refine ⟨_, h2, ?_, ?_, fun n hn => ?_⟩
  · refine (Group.modSplit_with _ _ _ _ _).trans ?_
    rw [Group.modSplit_latch_eq]
    exact hregs _ l
  · have hstart : ({ c.g.modSplit c.who.split (fun x => { x with windows := c.windows }) with latch := l } : Group).split? c.who.split =
        some { c.sp with windows := c.windows } :=
      (Group.split?_modSplit c.g _ hlt).trans (by rw [hsp]; rfl)
    rw [Group.split?_modSplit _ _ hlt, hown _ hlt, hstart, Option.map_some, Option.map_some, hk]
    rfl
  · rw [Group.split?_modSplit_other _ _ (Ne.symm hn), hothers _ _ hn]
    exact Group.split?_modSplit_other c.g _ (Ne.symm hn)

/-- A register-only instruction that changes the executing split alone. -/
theorem registers_became_split {body : Ctx → Eff} {k : Split → Split} (hi : Issues s i f c)
    (hb : body c = .done fun g => g.modSplit c.who.split k) (hk : ∀ x, (k x).next = k x.next) :
    ∃ t, registers i f s body = .next t ∧ Became s t c id k := by
  refine registers_became hi hb (GrowsBy.of_eq ?_) (fun g => g.modSplit_index _ _) (fun sp l => ?_)
    (fun g hlt => Group.split?_modSplit g k hlt) (fun g n hn => Group.split?_modSplit_other g k (Ne.symm hn)) hk
  · rw [Group.modSplit_eq]
  · rw [Group.modSplit_eq]
    rfl

/-- A register-only instruction that meets a fault raises it (R359). -/
theorem registers_fault {body : Ctx → Eff} {code : Nat} {mask : Mask} (hi : Issues s i f c) (hb : body c = .fault code mask) :
    registers i f s body = .next ((s.issued c).raise c (c.fault code mask)) := by
  simp only [registers, begin_, attempt_ready hi.inHand hi.sources, hb]
  exact gate_pass hi.active (by simp [Group.overCeiling]) hi.kept

/-! ### Writes -/

theorem setfmt_writes (hi : Issues s (.setfmt f) f c) (hx : fmtOk (lowWord (c.g.scalar .unsigned f.a)).toNat = true) :
    ∃ t, exec (.setfmt f) s = .next t ∧
      Became s t c id fun sp => { sp with fmt := lowWord (c.g.scalar .unsigned f.a) &&& fmtFields } :=
  registers_became_split hi (if_pos hx) fun _ => rfl

theorem setfmt_faults (hi : Issues s (.setfmt f) f c) (hx : fmtOk (lowWord (c.g.scalar .unsigned f.a)).toNat = false) :
    exec (.setfmt f) s = .next ((s.issued c).raise c (c.fault codeADDRBAD (maskOf (· == c.designated)))) :=
  registers_fault hi (if_neg (by rw [hx]; decide))

/-- The values that MODE may hold. -/
theorem modeOk_iff (x : Nat) : modeOk x = true ↔ x % 8 ≠ 0 ∧ x % 8 ≠ 7 ∧ x / 32 % 4 < 2 := by
  simp [modeOk, bits, Nat.shiftRight_eq_div_pow, and_assoc]

theorem setmode_writes (hi : Issues s (.setmode f) f c) (hx : modeOk (lowWord (c.g.scalar .unsigned f.a)).toNat = true) :
    ∃ t, exec (.setmode f) s = .next t ∧
      Became s t c id fun sp => { sp with mode := lowWord (c.g.scalar .unsigned f.a) &&& modeFields } :=
  registers_became_split hi (if_pos hx) fun _ => rfl

theorem setmode_faults (hi : Issues s (.setmode f) f c) (hx : ¬ modeOk (lowWord (c.g.scalar .unsigned f.a)).toNat = true) :
    exec (.setmode f) s = .next ((s.issued c).raise c (c.fault codeADDRBAD (maskOf (· == c.designated)))) :=
  registers_fault hi (if_neg hx)

/-- What SETSEED makes of its group. -/
def Group.seeded (sub : Nat) (x : W64) (g : Group) : Group :=
  { g with
    seeds := put g.seeds (sub % 4) x
    rsr := if sub.testBit 2 then Vector.replicate 32 0 else g.rsr }

theorem setseed_writes (hi : Issues s (.setseed f) f c) :
    ∃ t, exec (.setseed f) s = .next t ∧ Became s t c (Group.seeded (subN f) (c.g.scalar .unsigned f.a)) id :=
  registers_became (body := fun c' => .done (Group.seeded (subN f) (c'.g.scalar .unsigned f.a))) hi rfl (Nat.le_refl _)
    (fun _ => rfl) (fun _ _ => rfl) (fun g _ => (Option.map_id_apply (x := g.split? c.who.split)).symm) (fun _ _ _ => rfl) fun _ => rfl

/-! ### Reads -/

theorem getfmt_reads (hr : Runs s (.getfmt f) f c) :
    ∃ t, exec (.getfmt f) s = .next t ∧ NextWord s t c c.written ∧ c.gives t 1 false fun _ => c.sp.fmt.toNat := by
  obtain ⟨-, -, -, hscope⟩ := hr.checks rfl
  obtain ⟨t, ht, hnext, -, hg⟩ := registers_gives hr rfl (body := fun c' => c'.write 1 .uniform false 0 fun _ => { w := [c'.sp.fmt] })
    rfl (noLaneS_blockUse hscope) (.inl rfl) (fun _ => rfl) fun _ _ => trivial
  exact ⟨t, ht, hnext, hg⟩

theorem getmode_reads (hr : Runs s (.getmode f) f c) :
    ∃ t, exec (.getmode f) s = .next t ∧ NextWord s t c c.written ∧ c.gives t 1 false fun _ => c.sp.mode.toNat := by
  obtain ⟨-, -, -, hscope⟩ := hr.checks rfl
  obtain ⟨t, ht, hnext, -, hg⟩ := registers_gives hr rfl (body := fun c' => c'.write 1 .uniform false 0 fun _ => { w := [c'.sp.mode] })
    rfl (noLaneS_blockUse hscope) (.inl rfl) (fun _ => rfl) fun _ _ => trivial
  exact ⟨t, ht, hnext, hg⟩

/-! ### Words that decode refuses -/

theorem plain_eq_false {f : Fields} (h : dtN f ≠ 0 ∨ xmN f ≠ 0 ∨ subN f ≠ 0) : plain f = false := by
  rw [Bool.eq_false_iff]
  intro hp
  simp only [plain, Bool.and_eq_true, decide_eq_true_eq] at hp
  omega

/-- An instruction of GROUP scope alone with DT, SUB and XM 0 is refused in any other form. -/
theorem wf_false_of_plain {e : Env} {opc : Nat} (hh : head i = some (opc, f)) (hscopes : (shape e i).scopes = [.group])
    (hok : (shape e i).ok = plain f) (h : f.scope ≠ .group ∨ dtN f ≠ 0 ∨ xmN f ≠ 0 ∨ subN f ≠ 0) : i.wf e = false := by
  rcases h with h | h
  · exact Instr.wf_of_scope_not_mem hh (by rw [hscopes]; simpa using h)
  · exact Instr.wf_of_not_ok hh (by rw [hok]; exact plain_eq_false h)

theorem setseed_ok (e : Env) (f : Fields) :
    (shape e (.setseed f)).ok = (decide (dtN f = 0) && decide (xmN f = 0) && decide (subN f < 8)) := rfl

theorem setseed_wf_false {e : Env} (h : f.scope ≠ .group ∨ dtN f ≠ 0 ∨ xmN f ≠ 0 ∨ 8 ≤ subN f) : (Instr.setseed f).wf e = false := by
  rcases h with h | h
  · refine Instr.wf_of_scope_not_mem rfl ?_
    change f.scope ∉ [Scope.group]
    simpa using h
  · refine Instr.wf_of_not_ok rfl ?_
    rw [setseed_ok, Bool.eq_false_iff]
    intro hok
    simp only [Bool.and_eq_true, decide_eq_true_eq] at hok
    omega

/-- Settles O26: SETFMT and SETMODE change one field of the executing split or raise ADDRBAD, the reads are one write each, and SETSEED
changes the seeds and counters of its group. -/
theorem modeAndSeedWrites : Obligations.ModeAndSeedWrites := by
  refine ⟨fun s f c hr => ⟨setfmt_writes hr.issues, setfmt_faults hr.issues⟩, fun s f c hr => ⟨fun hx => ?_, fun hx => ?_⟩,
    fun s f i x c hmem hr => ?_, fun s f c hr => setseed_writes hr.issues, fun e f i hmem h => ?_⟩
  · exact setmode_writes hr.issues ((modeOk_iff _).2 hx)
  · exact setmode_faults hr.issues fun h => hx ((modeOk_iff _).1 h)
  · simp only [List.mem_cons, Prod.mk.injEq, List.not_mem_nil, or_false] at hmem
    rcases hmem with ⟨rfl, rfl⟩ | ⟨rfl, rfl⟩
    · exact getfmt_reads hr
    · exact getmode_reads hr
  · simp only [List.mem_cons, List.not_mem_nil, or_false] at hmem
    rcases hmem with rfl | rfl | rfl | rfl | rfl
    · exact wf_false_of_plain rfl rfl rfl (by simpa using h)
    · exact wf_false_of_plain rfl rfl rfl (by simpa using h)
    · exact wf_false_of_plain rfl rfl rfl (by simpa using h)
    · exact wf_false_of_plain rfl rfl rfl (by simpa using h)
    · exact setseed_wf_false (by simpa using h)

end

end Sys2Proof.Machine
end
